-- ==== Sys2Proof/Word.lean ====
section
/-!
DEFINITION. The word types of the machine (R4, R5): bytes, 32-bit registers, 64-bit values.
-/
namespace Sys2Proof

abbrev Byte := BitVec 8
abbrev Word := BitVec 32
abbrev Dword := BitVec 64
/-- One bit per lane of a warp; bit l is lane l. -/
abbrev Mask := BitVec 32

/-- The number of lanes of a warp (Table 0.2). -/
abbrev warpWidth : Nat := 32

end Sys2Proof
end

