-- ==== Sys2Proof/Syntax.lean ====
section
/-!
DEFINITION. The instructions of the machine as syntax: the fields of the six full formats and of the dual word
(R56, R66 to R73, 03_thread_encoding.md), and ONE inductive with one constructor for each row of
spec/opcode_table.json: the words a warp issues and the steps that engines, slices, the command processor, the host
and the outside world take (95_what_each_step_holds.md).
-/
namespace Sys2Proof

/-- The fields every word carries outside its payload (Table 3.1): DIST and WAIT. -/
structure Ctl where
  dist : BitVec 3
  wait : BitVec 12
  deriving DecidableEq, Repr, Inhabited

/-- Format A, three-operand ALU (Table 3.3). -/
structure FmtA where
  ctl : Ctl
  pred : BitVec 3
  pneg : Bool
  dst : BitVec 8
  sa : BitVec 8
  sb : BitVec 8
  sc : BitVec 8
  nwb : Bool
  nf : Bool
  xw : Bool
  deriving DecidableEq, Repr, Inhabited

/-- Format I, immediate (Table 3.4). -/
structure FmtI where
  ctl : Ctl
  pred : BitVec 3
  pneg : Bool
  dst : BitVec 8
  sa : BitVec 8
  imm : BitVec 19
  deriving DecidableEq, Repr, Inhabited

/-- Format M, memory (Table 3.5). -/
structure FmtM where
  ctl : Ctl
  pred : BitVec 3
  pneg : Bool
  data : BitVec 8
  base : BitVec 8
  off : BitVec 12
  setf : BitVec 4
  ep : BitVec 2
  lu : Bool
  deriving DecidableEq, Repr, Inhabited

/-- Format S, system, engine and collective (Table 3.6). -/
structure FmtS where
  ctl : Ctl
  pred : BitVec 3
  pneg : Bool
  a : BitVec 8
  b : BitVec 8
  c : BitVec 8
  setf : BitVec 4
  sub : BitVec 7
  deriving DecidableEq, Repr, Inhabited

/-- Format X, matrix (Table 3.7). -/
structure FmtX where
  ctl : Ctl
  pred : BitVec 3
  p12 : Bool
  acc : BitVec 3
  a : BitVec 8
  b : BitVec 8
  asrc : Bool
  bsrc : Bool
  nega : Bool
  negb : Bool
  accd : Bool
  fmt : BitVec 4
  setf : BitVec 4
  res : BitVec 3
  deriving DecidableEq, Repr, Inhabited

/-- Format L, LIT alone (R68): the literal P[43:12] and the bits P[47:44] above it. -/
structure FmtL where
  ctl : Ctl
  pred : BitVec 3
  lit : BitVec 32
  top : BitVec 4
  deriving DecidableEq, Repr, Inhabited

/-- One half of a dual word (Table 3.9). -/
structure Half where
  hop : BitVec 6
  dst : BitVec 6
  sa : BitVec 6
  sb : BitVec 6
  deriving DecidableEq, Repr, Inhabited

/-- The seven loads of Table 3.14, by suffix (R173). -/
inductive LoadKind where
  | n8 | s8 | n16 | s16 | w32 | w64 | w128
  deriving DecidableEq, Repr, Inhabited

/-- The five stores of Table 3.14, by suffix (R173). -/
inductive StoreKind where
  | w8 | w16 | w32 | w64 | w128
  deriving DecidableEq, Repr, Inhabited

/-- A host access through the memory aperture (R443): a read or a write of bytes at a device PA. -/
inductive HostAccess where
  | read (pa : Nat) (n : Nat)
  | write (pa : Nat) (bytes : List (BitVec 8))
  deriving DecidableEq, Repr, Inhabited

/-- A register of Table 17.1 whose write is a plain one (R444): those of Tables 14.4, 14.5, 14.8, 17.2, 10.2, 5.7, 17.3 and
17.7, and of the trust window; `other` is a write that changes nothing: to a read-only register, to an offset that names
none, or with a value the register's table says is ignored. -/
inductive HostReg where
  | qbase (q : BitVec 7) | qctl (q : BitVec 7)
  | cpt (c : BitVec 6) | creg (c : BitVec 6) | ccap (c : BitVec 6)
  /-- CMIGc.d, d = 3 if `three` -/
  | cmig (c : BitVec 6) (three : Bool)
  | cmslot (c : BitVec 6) | csave (c : BitVec 6) | cflt (c : BitVec 6) | cabt (c : BitVec 6)
  | abtrd (c : BitVec 6) | fltrd (c : BitVec 6)
  | hostirq | irqaddr | cmdlen
  | hashm (die : BitVec 2) (k : BitVec 3) | nrctl (die : BitVec 2)
  | bka (core : BitVec 8) (n : BitVec 3) | bkc (core : BitVec 8) (n : BitVec 3)
  | pwin (port : BitVec 3) (n : BitVec 4) | plen (port : BitVec 3) (n : BitVec 4)
  | evbase | evctl | evrd
  | keymapbase
  /-- 8 bytes of the nonce of the host's mailbox (0) or a port's (1 + p) -/
  | nonce (box : BitVec 4) (i : BitVec 2)
  /-- 8 bytes of MREXT -/
  | mrext (i : BitVec 3)
  /-- 8 bytes of the recovery buffer -/
  | recovery (i : Nat)
  | other
  deriving DecidableEq, Repr, Inhabited

/-- Where a bit error of R160 or R300 arises, and whether it is double-bit (uncorrectable); or what patrol scrub reads
(R455). -/
inductive ErrorSite where
  /-- lane register `reg` of lane `lane` of a warp (R160) -/
  | laneReg (blk warp reg lane : Nat) (double : Bool)
  /-- uniform register of a warp (R160) -/
  | uniReg (blk warp reg : Nat) (double : Bool)
  /-- a partial of a tile of a warp: E or O of one element (R160) -/
  | partialOf (blk warp tile elem : Nat) (odd : Bool) (double : Bool)
  /-- a 32-bit word of a block's scratch allocation (R160) -/
  | scratch (blk alloc word : Nat) (double : Bool)
  /-- a 16-byte DRAM unit, by location (R300) -/
  | dram (unit : Nat) (double : Bool)
  deriving DecidableEq, Repr, Inhabited

/-- What COPY_REQUEST does of the head of a queue: all that is left of it (none), the end of its reads (0), or one 4-byte word of its
destination (from 1 up), as R305 lets its words take different instants. -/
structure CopyTurn where
  queue : Nat
  only : Option Nat
  deriving DecidableEq, Repr, Inhabited

/-- The steps of the part: one constructor for each row of the opcode table. The words carry the fields of their
format as they stand in the word; the other steps carry what names the one step that is meant. -/
inductive Instr where
  /-- IADD (R98): Adds two 32-bit lane values, with optional .sat or .64 modifiers. -/
  | iadd (f : FmtA)
  /-- ISUB (R98): Subtracts two 32-bit lane values, with optional .sat or .64 modifiers. -/
  | isub (f : FmtA)
  /-- IADD3 (R98): Adds three 32-bit lane values modulo 2^32. -/
  | iadd3 (f : FmtA)
  /-- IMUL (R98): Writes the low 32 bits of a product. -/
  | imul (f : FmtA)
  /-- IMULH_S32 (R98): Writes the high 32 bits of a signed product. -/
  | imulhS32 (f : FmtA)
  /-- IMULH_N32 (R98): Writes the high 32 bits of an unsigned product. -/
  | imulhN32 (f : FmtA)
  /-- IMAD (R98): Writes a times b plus c modulo 2^32. -/
  | imad (f : FmtA)
  /-- IMADW_S32 (R98): Writes a signed 64-bit multiply-add into a register pair. -/
  | imadwS32 (f : FmtA)
  /-- IMADW_N32 (R98): Writes an unsigned 64-bit multiply-add into a register pair. -/
  | imadwN32 (f : FmtA)
  /-- IMIN_S32 (R98): Writes the signed minimum. -/
  | iminS32 (f : FmtA)
  /-- IMIN_N32 (R98): Writes the unsigned minimum. -/
  | iminN32 (f : FmtA)
  /-- IMAX_S32 (R98): Writes the signed maximum. -/
  | imaxS32 (f : FmtA)
  /-- IMAX_N32 (R98): Writes the unsigned maximum. -/
  | imaxN32 (f : FmtA)
  /-- IABS (R98): Writes the absolute value of a signed value. -/
  | iabs (f : FmtA)
  /-- SHL (R98): Shifts left by a register amount; amounts of 32 or more give 0. -/
  | shl (f : FmtA)
  /-- SHR (R98): Shifts right logically by a register amount. -/
  | shr (f : FmtA)
  /-- SAR (R98): Shifts right arithmetically by a register amount. -/
  | sar (f : FmtA)
  /-- ROT (R98): Rotates left by the amount modulo 32. -/
  | rot (f : FmtA)
  /-- AND (R98): Writes the bitwise AND. -/
  | andR (f : FmtA)
  /-- OR (R98): Writes the bitwise OR. -/
  | orR (f : FmtA)
  /-- XOR (R98): Writes the bitwise XOR. -/
  | xorR (f : FmtA)
  /-- NOT (R98): Writes the bitwise complement. -/
  | notR (f : FmtA)
  /-- BLUT (R101): Applies an 8-entry truth table to a, b and the old DST. -/
  | blut (f : FmtA)
  /-- POPC (R98): Counts the one bits. -/
  | popc (f : FmtA)
  /-- CLZ (R98): Counts the leading zero bits. -/
  | clz (f : FmtA)
  /-- BREV (R98): Reverses the bit order. -/
  | brev (f : FmtA)
  /-- BFE_N32 (R102): Extracts a bit field and zero-extends it. -/
  | bfeN32 (f : FmtA)
  /-- BFE_S32 (R102): Extracts a bit field and sign-extends it. -/
  | bfeS32 (f : FmtA)
  /-- BFI (R102): Inserts a bit field into a background value. -/
  | bfi (f : FmtA)
  /-- SEL (R104): Selects a or b by a predicate named in the modifier byte. -/
  | sel (f : FmtA)
  /-- LEA (R103): Forms a 64-bit address as base plus a shifted offset. -/
  | lea (f : FmtA)
  /-- ICMP (R105): Compares integers, writes a predicate and pushes the mask. -/
  | icmp (f : FmtA)
  /-- IADD_IMM (R100): Adds a sign-extended 19-bit immediate. -/
  | iaddImm (f : FmtI)
  /-- IMUL_IMM (R100): Multiplies by a sign-extended immediate. -/
  | imulImm (f : FmtI)
  /-- AND_IMM (R100): Writes the bitwise AND with a zero-extended immediate. -/
  | andImm (f : FmtI)
  /-- OR_IMM (R100): Writes the bitwise OR with a zero-extended immediate. -/
  | orImm (f : FmtI)
  /-- XOR_IMM (R100): Writes the bitwise XOR with a zero-extended immediate. -/
  | xorImm (f : FmtI)
  /-- SHL_IMM (R100): Shifts left by an immediate amount. -/
  | shlImm (f : FmtI)
  /-- SHR_IMM (R100): Shifts right logically by an immediate amount. -/
  | shrImm (f : FmtI)
  /-- SAR_IMM (R100): Shifts right arithmetically by an immediate amount. -/
  | sarImm (f : FmtI)
  /-- ICMP_IMM (R100): Compares with a sign-extended immediate and writes a predicate. -/
  | icmpImm (f : FmtI)
  /-- FADD (R109): Adds FP32 values rounded to nearest even. -/
  | fadd (f : FmtA)
  /-- FADD_RZ (R109): Adds FP32 values rounded toward zero. -/
  | faddRz (f : FmtA)
  /-- FADD_RU (R109): Adds FP32 values rounded up. -/
  | faddRu (f : FmtA)
  /-- FADD_RD (R109): Adds FP32 values rounded down. -/
  | faddRd (f : FmtA)
  /-- FMUL (R109): Multiplies FP32 values rounded to nearest even. -/
  | fmul (f : FmtA)
  /-- FMUL_RZ (R109): Multiplies FP32 values rounded toward zero. -/
  | fmulRz (f : FmtA)
  /-- FMUL_RU (R109): Multiplies FP32 values rounded up. -/
  | fmulRu (f : FmtA)
  /-- FMUL_RD (R109): Multiplies FP32 values rounded down. -/
  | fmulRd (f : FmtA)
  /-- FFMA (R109): Computes a fused multiply-add with one RNE rounding. -/
  | ffma (f : FmtA)
  /-- FFMA_RZ (R109): Computes a fused multiply-add rounded toward zero. -/
  | ffmaRz (f : FmtA)
  /-- FFMA_RU (R109): Computes a fused multiply-add rounded up. -/
  | ffmaRu (f : FmtA)
  /-- FFMA_RD (R109): Computes a fused multiply-add rounded down. -/
  | ffmaRd (f : FmtA)
  /-- FMIN (R38): Writes the IEEE minimum of two FP32 values. -/
  | fmin (f : FmtA)
  /-- FMAX (R38): Writes the IEEE maximum of two FP32 values. -/
  | fmax (f : FmtA)
  /-- FCMP (R110): Compares FP32 values and writes a predicate. -/
  | fcmp (f : FmtA)
  /-- FCLASS (R111): Writes a one-hot class mask of an FP32 value. -/
  | fclass (f : FmtA)
  /-- FRCP (R55): Writes the correctly rounded reciprocal. -/
  | frcp (f : FmtA)
  /-- FRSQ (R55): Writes the correctly rounded reciprocal square root. -/
  | frsq (f : FmtA)
  /-- FSQRT (R55): Writes the correctly rounded square root. -/
  | fsqrt (f : FmtA)
  /-- FDIV (R55): Writes the correctly rounded quotient. -/
  | fdiv (f : FmtA)
  /-- FEX2 (R55): Writes the correctly rounded 2^x. -/
  | fex2 (f : FmtA)
  /-- FLG2 (R55): Writes the correctly rounded log2 x. -/
  | flg2 (f : FmtA)
  /-- FSINPI (R55): Writes the correctly rounded sin(pi x). -/
  | fsinpi (f : FmtA)
  /-- FCOSPI (R55): Writes the correctly rounded cos(pi x). -/
  | fcospi (f : FmtA)
  /-- HADD2_F16 (R112): Adds two packed FP16 pairs. -/
  | hadd2F16 (f : FmtA)
  /-- HMUL2_F16 (R112): Multiplies two packed FP16 pairs. -/
  | hmul2F16 (f : FmtA)
  /-- HFMA2_F16 (R112): Computes a fused multiply-add on packed FP16 pairs. -/
  | hfma2F16 (f : FmtA)
  /-- HADD2_BF16 (R112): Adds two packed BF16 pairs. -/
  | hadd2Bf16 (f : FmtA)
  /-- HMUL2_BF16 (R112): Multiplies two packed BF16 pairs. -/
  | hmul2Bf16 (f : FmtA)
  /-- HFMA2_BF16 (R112): Computes a fused multiply-add on packed BF16 pairs. -/
  | hfma2Bf16 (f : FmtA)
  /-- CVT (R115): Converts one element between types, rounding to nearest even. -/
  | cvt (f : FmtA)
  /-- CVT_RZ (R115): Converts one element, rounding toward zero. -/
  | cvtRz (f : FmtA)
  /-- CVT_RU (R115): Converts one element, rounding up. -/
  | cvtRu (f : FmtA)
  /-- CVT_RD (R115): Converts one element, rounding down. -/
  | cvtRd (f : FmtA)
  /-- PACK (R116): Converts two FP32 values and packs their codes into slots of DST. -/
  | pack (f : FmtA)
  /-- UNPACK (R117): Decodes one packed slot to FP32, optionally under a scale. -/
  | unpack (f : FmtA)
  /-- QBLK (R118): Quantises the 32 lanes as one MX block. -/
  | qblk (f : FmtA)
  /-- DQBLK (R119): Decodes one quantised element under its scale. -/
  | dqblk (f : FmtA)
  /-- BRA (R124): Branches by a signed word offset in the lanes whose predicate is true. -/
  | bra (f : FmtI)
  /-- BRX (R126): Branches to a per-lane 64-bit absolute target. -/
  | brx (f : FmtA)
  /-- BRX_REL (R126): Branches by a per-lane relative word offset. -/
  | brxRel (f : FmtA)
  /-- CALL (R125): Writes the return address to a pair and branches. -/
  | call (f : FmtI)
  /-- RET (R126): Branches to the 64-bit address held in a pair. -/
  | ret (f : FmtS)
  /-- RET_H (R136): Ends the user handler for the run and resumes at %trapret. -/
  | retH (f : FmtS)
  /-- EXIT (R19): Moves the threads whose predicate is true to exited; the last exit starts draining. -/
  | exit (f : FmtS)
  /-- YIELD (R22): Sets the yield mark of the threads whose predicate is true and advances. -/
  | yield (f : FmtS)
  /-- REP (R84): Starts or resumes repeating its target with stepped register fields. -/
  | rep (f : FmtS)
  /-- REP_ITERATION (R84): Issues one iteration of a REP target and decrements %repc. -/
  | repIteration (rep : FmtS) (target : BitVec 64)
  /-- LIT (R82): Supplies a 32-bit literal to the next word of the run. -/
  | lit (f : FmtL)
  /-- NOP (R129): Has no effect beyond its DIST and WAIT. -/
  | nop (f : FmtS)
  /-- TRAP (R133): Raises USER with number n for the threads whose predicate is true. -/
  | trap (f : FmtI)
  /-- BRK (R134): Raises BREAK for the whole run. -/
  | brk (f : FmtS)
  /-- RDSR (R130): Reads a special register into lane registers. -/
  | rdsr (f : FmtS)
  /-- WRSR (R130): Writes a writable special register. -/
  | wrsr (f : FmtS)
  /-- PSET (R120): Sets one predicate from whether a register is non-zero. -/
  | pset (f : FmtA)
  /-- PSET_ALL (R120): Sets p0 to p6 from the low bits of a register. -/
  | psetAll (f : FmtA)
  /-- PLOP (R121): Combines two predicates by AND, OR or XOR. -/
  | plop (f : FmtA)
  /-- MOV (R122): Copies a 32-bit or 64-bit register value. -/
  | mov (f : FmtA)
  /-- MOVI (R122): Writes a sign-extended immediate. -/
  | movi (f : FmtI)
  /-- LDIX (R123): Reads the lane register indexed by ix0 or ix1. -/
  | ldix (f : FmtS)
  /-- STIX (R123): Writes the lane register indexed by ix0 or ix1. -/
  | stix (f : FmtS)
  /-- RNG4 (R132): Computes Philox4x32-10 per lane. -/
  | rng4 (f : FmtS)
  /-- RDTIME (R131): Reads the package time base in nanoseconds. -/
  | rdtime (f : FmtS)
  /-- MOVW_LANE (R108): Copies a named lane's register into a uniform register. -/
  | movwLane (f : FmtS)
  /-- MOVW_FIRST (R108): Copies the lowest run lane's register into a uniform register. -/
  | movwFirst (f : FmtS)
  /-- MOVW_TO_LANE (R108): Copies a uniform register into the lanes whose predicate is true. -/
  | movwToLane (f : FmtS)
  /-- WADD (R106): Adds uniform registers. -/
  | wadd (f : FmtA)
  /-- WSUB (R106): Subtracts uniform registers. -/
  | wsub (f : FmtA)
  /-- WMUL (R106): Multiplies uniform registers and keeps the low 32 bits. -/
  | wmul (f : FmtA)
  /-- WAND (R106): Writes the bitwise AND of uniform registers. -/
  | wand (f : FmtA)
  /-- WOR (R106): Writes the bitwise OR of uniform registers. -/
  | wor (f : FmtA)
  /-- WXOR (R106): Writes the bitwise XOR of uniform registers. -/
  | wxor (f : FmtA)
  /-- WSHL (R106): Shifts a uniform register left. -/
  | wshl (f : FmtA)
  /-- WSHR (R106): Shifts a uniform register right logically. -/
  | wshr (f : FmtA)
  /-- WMOV (R106): Copies a uniform register. -/
  | wmov (f : FmtA)
  /-- WCMP (R107): Compares uniform values and writes a predicate in the run. -/
  | wcmp (f : FmtA)
  /-- WADD_IMM (R106): Adds a sign-extended immediate to a uniform register. -/
  | waddImm (f : FmtI)
  /-- WMOV_IMM (R106): Writes a sign-extended immediate to a uniform register. -/
  | wmovImm (f : FmtI)
  /-- DUAL_WORD (R74): Executes two half instructions that read all sources before either writes. -/
  | dualWord (c : Ctl) (h0 h1 : Half)
  /-- LD_LANE (R174): Loads from global memory with a lane-register base. -/
  | ldLane (k : LoadKind) (f : FmtM)
  /-- LD_UNIFORM (R174): Loads from global memory with a uniform-register base. -/
  | ldUniform (k : LoadKind) (f : FmtM)
  /-- ST_LANE (R174): Stores to global memory with a lane-register base. -/
  | stLane (k : StoreKind) (f : FmtM)
  /-- ST_UNIFORM (R174): Stores to global memory with a uniform-register base. -/
  | stUniform (k : StoreKind) (f : FmtM)
  /-- LDA (R183): Loads with acquire order. -/
  | lda (w64 : Bool) (f : FmtM)
  /-- STR (R183): Stores with release order. -/
  | str (w64 : Bool) (f : FmtM)
  /-- LDS (R186): Loads from the block's scratch. -/
  | lds (k : LoadKind) (f : FmtM)
  /-- STS (R186): Stores to the block's scratch. -/
  | sts (k : StoreKind) (f : FmtM)
  /-- LDFRAG (R188): Loads a 16x32-byte stored tile into a fragment through a descriptor. -/
  | ldfrag (f : FmtM)
  /-- STFRAG (R188): Stores a fragment as a stored tile through a descriptor. -/
  | stfrag (f : FmtM)
  /-- PREF (R184): Starts fetching a line into L1 and L2, or into L2 only. -/
  | pref (f : FmtM)
  /-- FENCE_FULL (R185): Waits for earlier stores and then invalidates L1 words the core does not own. -/
  | fenceFull (f : FmtS)
  /-- FENCE_SIG (R185): Waits until every earlier store and posted atomic is performed. -/
  | fenceSig (f : FmtS)
  /-- ATOM (R194): Performs a global atomic, aggregating lanes that name the same address. -/
  | atom (f : FmtS)
  /-- ATOMS (R196): Performs scratch atomics lane by lane in ascending order. -/
  | atoms (f : FmtS)
  /-- XLANE (R166): Moves values across lanes within segments. -/
  | xlane (f : FmtA)
  /-- PCONS (R167): Forms a consensus of a predicate over the executing lanes. -/
  | pcons (f : FmtA)
  /-- PEERS (R168): Finds the lanes holding equal values. -/
  | peers (f : FmtA)
  /-- RED (R170): Reduces integer lane values. -/
  | red (f : FmtA)
  /-- RED_F32 (R53): Reduces FP32 lane values through the fixed tree. -/
  | redF32 (f : FmtA)
  /-- SCAN (R170): Computes integer prefix scans over the lanes. -/
  | scan (f : FmtA)
  /-- SCAN_F32 (R54): Computes FP32 prefix scans through the fixed tree. -/
  | scanF32 (f : FmtA)
  /-- ELECT (R171): Elects the lowest executing lane and writes its number. -/
  | elect (f : FmtS)
  /-- BAR (R264): Arrives at the block barrier and parks. -/
  | bar (f : FmtS)
  /-- NBAR_ARRIVE (R266): Arrives at a named barrier without parking. -/
  | nbarArrive (f : FmtS)
  /-- NBAR_WAIT (R266): Waits on a named barrier phase without arriving. -/
  | nbarWait (f : FmtS)
  /-- NBAR_SYNC (R266): Arrives at a named barrier and parks until the phase completes. -/
  | nbarSync (f : FmtS)
  /-- GBAR (R367): Arrives at the grid barrier and parks. -/
  | gbar (f : FmtS)
  /-- MONITOR (R213): Arms the warp's monitor on a line and registers a watch. -/
  | monitor (f : FmtS)
  /-- WAITM (R215): Parks the threads until the monitor triggers or the timeout ends. -/
  | waitm (f : FmtS)
  /-- MON_TIMEOUT (R215): A WAITM timeout expires and raises MON_TIMEOUT. -/
  | monTimeout (blk warp : Nat)
  /-- MSHAPE (R222): Loads the warp's shape record from a uniform register. -/
  | mshape (f : FmtS)
  /-- MMA (R229): Multiplies A by B into an accumulator tile under the shape record. -/
  | mma (f : FmtX)
  /-- MRD (R235): Reads out a tile into lane registers, optionally clearing it. -/
  | mrd (f : FmtX)
  /-- MWR (R236): Loads a tile from lane registers. -/
  | mwr (f : FmtX)
  /-- MZERO (R236): Clears a tile. -/
  | mzero (f : FmtX)
  /-- ATTN (R250): Attends query rows over listed KV pages and updates the online-softmax state. -/
  | attn (f : FmtS)
  /-- PGSEAL (R257): Writes a page's summary bounds and sets SEALED. -/
  | pgseal (f : FmtS)
  /-- PSEL (R282): Ranks pages by summary bound and writes sinks, selections and recents. -/
  | psel (f : FmtS)
  /-- TOPK (R277): Writes the top K index-value pairs of an input array. -/
  | topk (f : FmtS)
  /-- MERGEK (R278): Merges two ranked lists into the top K. -/
  | mergek (f : FmtS)
  /-- SELECTOR_OPERATION (R273): The selector performs a queued PSEL, TOPK or MERGEK and writes its outputs. -/
  | selectorOperation (cluster : Nat)
  /-- NEXTT (R283): Draws the next tile id from the block's schedule core. -/
  | nextt (f : FmtS)
  /-- CKICK (R203): Checks a copy request record and enters it in its queue. -/
  | ckick (f : FmtS)
  /-- CBSET (R208): Adds a byte count to a barrier object and arms it. -/
  | cbset (f : FmtS)
  /-- CBWAIT (R208): Waits until a barrier object is disarmed or in error and returns it. -/
  | cbwait (f : FmtS)
  /-- CQFENCE (R205): Puts a fence entry into the named copy queues. -/
  | cqfence (f : FmtS)
  /-- COPY_REQUEST (R204): A queued copy request starts and moves its box between tensor and scratch. -/
  | copyRequest (core : Nat) (turn : CopyTurn)
  /-- TDEP (R337): Deposits a tuple into a region. -/
  | tdep (f : FmtS)
  /-- TCPY (R337): Copies a matching tuple without waiting. -/
  | tcpy (f : FmtS)
  /-- TCPY_WAIT (R337): Copies a matching tuple, parking until one arrives. -/
  | tcpyWait (f : FmtS)
  /-- TTAK (R337): Takes a matching tuple without waiting. -/
  | ttak (f : FmtS)
  /-- TTAK_WAIT (R337): Takes a matching tuple, parking until one arrives. -/
  | ttakWait (f : FmtS)
  /-- TUPLE_SLICE_SERVE (R337): A home slice performs one arriving tuple request whole. -/
  | tupleSliceServe (req : Nat)
  /-- TUPLE_REPLY (R332): A tuple reply reaches the warp, writes status and tuple and wakes parked threads. -/
  | tupleReply (req : Nat)
  /-- TUPLE_TIMEOUT (R340): A parked request's timeout ends and it is withdrawn with TIMEOUT. -/
  | tupleTimeout (req : Nat)
  /-- REGION_DRAIN (R341): Slices answer BADREGION to parked requests of a region set to DRAIN. -/
  | regionDrain (slice : Nat) (region : Nat)
  /-- SXINIT (R428): Resets a suffix handle's index with a window. -/
  | sxinit (f : FmtS)
  /-- SXAPP (R428): Appends up to 32 tokens to a suffix index. -/
  | sxapp (f : FmtS)
  /-- SXQRY (R424): Finds the longest earlier suffix match and proposes draft tokens. -/
  | sxqry (f : FmtS)
  /-- SXTRIM (R428): Removes the last k tokens of a suffix index. -/
  | sxtrim (f : FmtS)
  /-- SXSAVE (R429): Writes a canonical index image of a handle. -/
  | sxsave (f : FmtS)
  /-- SXLOAD (R429): Replaces a handle's state from a canonical index image. -/
  | sxload (f : FmtS)
  /-- SX_UNIT_PERFORM (R431): A suffix-match unit performs one arriving SX word whole. -/
  | sxUnitPerform (op : Nat)
  /-- DSWEEP (R410): Queues a demotion sweep over a range of page-table entries. -/
  | dsweep (f : FmtS)
  /-- PGRECALL (R414): Queues a move of a tier-1 page pair back to HBM4E. -/
  | pgrecall (f : FmtS)
  /-- PGPIN (R416): Sets PIN on an entry at its home slice. -/
  | pgpin (f : FmtS)
  /-- PGUNPIN (R416): Clears PIN on an entry at its home slice. -/
  | pgunpin (f : FmtS)
  /-- PGDEMOTE (R415): Queues one forced demotion step of an entry. -/
  | pgdemote (f : FmtS)
  /-- DEMOTION_ENGINE_OP (R413): The demotion engine performs a queued sweep, recall or forced step. -/
  | demotionEngineOp (die : Nat)
  /-- SLOT_RETIRE_PUSH (R413): Once old-generation readers retire, the old slots and summary are pushed back to their rings. -/
  | slotRetirePush (entry : Nat)
  /-- LAUNCH (R387): Copies a launch record into a device queue and advances WR. -/
  | launch (f : FmtS)
  /-- CTOKW (R363): Takes the commit token or parks until it arrives. -/
  | ctokw (f : FmtS)
  /-- CTOKP (R363): Passes the commit token to the next warp in token order. -/
  | ctokp (f : FmtS)
  /-- FAULT_RECORD_WRITE (R401): A pending fault record is written to the fault ring once there is room. -/
  | faultRecordWrite (ctx : BitVec 6)
  /-- MEM_REQUEST_PERFORM (R303): A load, store or engine access is performed at its home slice or in scratch. -/
  | memRequestPerform (op part : Nat) (fromL1 : Bool)
  /-- ATOM_SLICE_PERFORM (R193): An atomic request is performed at its home slice and returns old values. -/
  | atomSlicePerform (op part : Nat)
  /-- OPERATION_COMPLETE (R61): A flagged operation completes for every lane and its flag counter falls. -/
  | operationComplete (op : Nat)
  /-- EPOCH_BOUNDARY (R318): At each 65,536 ns epoch boundary every signature shifts current into previous. -/
  | epochBoundary
  /-- PATROL_SCRUB (R455): Scrub reads and corrects DRAM units and core storage, poisoning uncorrectable units. -/
  | patrolScrub (site : ErrorSite)
  /-- WARP_FREE (R146): A draining warp's outstanding operations finish and it becomes free. -/
  | warpFree (blk warp : Nat)
  /-- LAUNCH_DISPATCH (R376): The command processor reads a queued launch record and checks it. -/
  | launchDispatch
  /-- BLOCK_PLACEMENT (R258): A block's shares are admitted on a cluster, its warps created and its scratch zeroed. -/
  | blockPlacement (launch : Nat)
  /-- CAPTURE_MIGRATION (R350): A block freezes, completes its operations and writes its image to the migration slot. -/
  | captureMigration (blk : Nat)
  /-- RESTORE (R356): An image at the head of the restore queue is admitted and written back when a cluster has room. -/
  | restore
  /-- PREEMPT_CAPTURE (R390): At deadline D1 the context's resident blocks are captured to the save area. -/
  | preemptCapture (launch : Nat)
  /-- PREEMPT_FORCED_RESET (R390): At deadline D2 an unfinished capture forces a context reset. -/
  | preemptForcedReset (launch : Nat)
  /-- CMD_PREEMPT (R389): The PREEMPT command starts the pre-emption ladder of a context. -/
  | cmdPreempt (ctx : BitVec 6)
  /-- CMD_RESUME (R391): The RESUME command puts captured images in the restore queue. -/
  | cmdResume (ctx : BitVec 6)
  /-- CMD_RESET (R393): The RESET command resets a context. -/
  | cmdReset (ctx : BitVec 6)
  /-- CMD_UNLOAD (R398): UNLOAD returns OK if the code object is unreferenced, else IN_USE. -/
  | cmdUnload (ctx : BitVec 6) (arg : BitVec 50)
  /-- CMD_UNLOAD_FORCED (R398): A forced UNLOAD aborts users of the code object and poisons its images. -/
  | cmdUnloadForced (ctx : BitVec 6) (arg : BitVec 50)
  /-- CMD_INVALIDATE (R400): INVALIDATE removes translations of a context's VA range from the TLBs. -/
  | cmdInvalidate (ctx : BitVec 6) (arg : BitVec 50)
  /-- QWR_WRITE (R379): A host write to a queue's WR makes records available or is refused and sets OVF. -/
  | qwrWrite (queue : BitVec 7) (value : BitVec 64)
  /-- PRED_DEADLINE_WRITE (R389): A write to PRED1p or PRED2p takes effect only if D2 stays above D1. -/
  | predDeadlineWrite (second : Bool) (level : BitVec 3) (value : BitVec 32)
  /-- FAULT_RETRY (R401): A retry verdict in FLTRESP re-issues the words held on that fault record. -/
  | faultRetry (ctx : BitVec 6) (id : BitVec 32)
  /-- FAULT_FATAL (R401): A fatal verdict in FLTRESP aborts the blocks held on that record. -/
  | faultFatal (ctx : BitVec 6) (id : BitVec 32)
  /-- MEMCFG_LOCK (R296): Setting LOCK checks the hash masks and fixes them, or sets ERR and BADM. -/
  | memcfgLock (die : BitVec 2) (value : BitVec 64)
  /-- NRSEED_WRITE (R296): A write to NRSEED sets the seed and restarts every activate count. -/
  | nrseedWrite (die : BitVec 2) (value : BitVec 32)
  /-- SXH_WRITE (R422): Writing a handle entry; VALID going to 1 initialises the index state. -/
  | sxhWrite (unit : Bool) (handle : BitVec 16) (offset : BitVec 5) (bytes : List (BitVec 8))
  /-- MR_EXTEND (R451): A host write of k to MREXT + 64 extends MRk with the digest in MREXT. -/
  | mrExtend (k : BitVec 64)
  /-- ATTEST_REQUEST (R452): Writing GO makes the firmware fill a signed attestation report and set DONE. -/
  | attestRequest (box : BitVec 4) (value : BitVec 8)
  /-- RECOVERY_REBOOT (R450): Writing 4 to BOOTSTAT in RECOVERY resets the module to take a new image. -/
  | recoveryReboot (value : BitVec 32)
  /-- KEY_SLOT_LOAD (R453): The host loads a wrapped key into a memory-encryption key slot. -/
  | keySlotLoad (slot : BitVec 10) (wrapped : List (BitVec 8))
  /-- REGISTER_WRITE (R444): A host write to a register with no behaviour of its own, performed after earlier host accesses. -/
  | registerWrite (reg : HostReg) (value : BitVec 64)
  /-- HOST_MEMORY_ACCESS (R443): A host access through the memory aperture to device memory. -/
  | hostMemoryAccess (access : HostAccess)
  /-- PEER_STORE (R448): An inbound peer store is performed through its window or dropped. -/
  | peerStore (port : BitVec 3) (offset : BitVec 36) (bytes : List (BitVec 8)) (release : Bool)
  /-- PEER_DEPOSIT (R449): An STR.64 completing a stage sends a remote deposit performed as a TDEP. -/
  | peerDeposit (port : BitVec 3) (offset : BitVec 36) (bytes : List (BitVec 8))
  /-- EVENT_RECORD_WRITE (R456): A source's event record is written to the host event ring when there is room. -/
  | eventRecordWrite (source : Nat)
  /-- MODULE_RESET (R450): At module reset the boot ROM verifies and measures the firmware, which brings the module up. -/
  | moduleReset
  /-- THERMAL_TRIP (R371): At the trip temperature every die stops and every context is reset. -/
  | thermalTrip
  /-- THROTTLE (R371): The power cap or junction limit lowers a die's arithmetic clock. -/
  | throttle (die : BitVec 2)
  /-- DEBUGGER_RESUME (R162): A debugger resumes a block halted by BREAK. -/
  | debuggerResume (blk : Nat)
  /-- SOFT_ERROR (R160): A bit error arises of itself in core storage or DRAM, to be corrected or poisoned when read or scrubbed. -/
  | softError (site : ErrorSite)
  /-- UNASSIGNED_OPCODE (R87): A word whose opcode or half-opcode is unassigned reaches issue and raises ILLEGAL, aborting the block. -/
  | unassignedOpcode (w : BitVec 64)
  /-- INSTRUCTION_FETCH_FAULT (R128): A run reaches a PC in an unmapped or non-executable memory page and raises MEM_FAULT or MEM_PROT at the fetch. -/
  | instructionFetchFault
  deriving DecidableEq, Repr, Inhabited

end Sys2Proof
end

