-- ==== Sys2Proof/Config.lean ====
section
/-!
DEFINITION. What the spec leaves open. Every opaque constant here is a FREE VALUE: it has no body, nothing can evaluate
it, and a statement about it holds whatever it is. A choice is applied to its kind (the rule it serves), to the
counter `State.fresh`, which every step advances, and to an index that tells apart the choices of one step.
Also here: the turns of the machine's agents (who moves next, and how much time passes), plain data.
-/
namespace Sys2Proof

/-- The time a turn takes: the cycles each die's arithmetic clock counts, and the nanoseconds of the package time base
(R130, R131). The spec fixes neither, so a turn carries them (log 2). -/
structure Ticks where
  d0 : Nat
  d1 : Nat
  d2 : Nat
  d3 : Nat
  ns : Nat
  deriving DecidableEq, Repr, Inhabited

/-- Who moves: the issue unit of a sub-partition (R150), or one step of an engine, a slice, the command processor, the
host or the outside world. -/
inductive Act where
  | issue (core subp : Nat)
  | event (i : Instr)
  deriving DecidableEq, Repr, Inhabited

/-- One turn of the machine. -/
structure Turn where
  ticks : Ticks
  act : Act
  deriving DecidableEq, Repr, Inhabited

namespace Config

/-- FREE VALUE: the n-th turn, when the schedule held in State lists none (log 2). -/
opaque turn : Nat → Turn

/-- FREE VALUE: a choice of one bit: old or new (R59, R63), which of two orders, a hardware random draw (R301). -/
opaque freeBit (kind fresh index : Nat) : Bool

/-- FREE VALUE: a natural number; a choice among k is its remainder by k. -/
opaque freeNat (kind fresh index : Nat) : Nat

/-- FREE VALUE: a byte the spec leaves unspecified (R182, R453). -/
opaque freeByte (kind fresh index : Nat) : Byte

/-- FREE VALUE: a 32-bit word the spec leaves unspecified. -/
opaque freeWord (kind fresh index : Nat) : Word

/-- FREE VALUE: the backing-page address VA[51:12] the core gives the n-th scratch page (R153). -/
opaque backingPage : Nat → BitVec 40

/-- FREE VALUE: the number of the key-map entry of a 2 MiB unit of memory, whose order the spec does not state (R453). -/
opaque keymapEntry : Nat → Nat

/-- FREE VALUE: the firmware image in the module's flash, and how many bytes of the recovery buffer are an image (R450). -/
opaque flashImage : List Byte
opaque recoveryBytes : Nat

/-- FREE VALUE: what a firmware image's bytes come to: whether its key and its signature verify under the module's fused key hash,
its version, its configuration block, the hash masks it writes at a boot (told apart by the counter) on a die, and where it puts
the key map (R450, R452, R453, R296). -/
opaque firmwareVerifies : List Byte → Bool
opaque firmwareVersion : List Byte → BitVec 64
opaque firmwareConfiguration : List Byte → List Byte
opaque firmwareMask : List Byte → Nat → Nat → Nat → BitVec 52
opaque firmwareKeymap : List Byte → Nat → BitVec 64

/-- FREE VALUE: does a wrapped key authenticate under the module's key (R453)? -/
opaque keyAuthenticates : List Byte → Bool

/-- FREE VALUE: the module's identity: the 64-bit serial number and the 32-byte public key the attestation report names
(R452), and the signature of a report under the module's identity key. -/
opaque serialNumber : Dword
opaque identityKey : BitVec 256
opaque attestationSignature : List Byte → BitVec 512

end Config
end Sys2Proof
end

