-- ==== Sys2Proof/Machine/Bits.lean ====
section
/-!
DEFINITION. The helpers of the spec's pseudocode over bits and exact integers (R9): fields, sign extension, lane masks,
byte order (R5).
-/
namespace Sys2Proof.Machine

/-- bits(x, hi, lo) of a natural number (R9). -/
def bitsN (x hi lo : Nat) : Nat := (x / 2 ^ lo) % 2 ^ (hi + 1 - lo)

/-- Bit i of a natural number. -/
def bitN (x i : Nat) : Bool := x.testBit i

/-- A number of n bits read as two's complement. -/
def sextN (n x : Nat) : Int := if x % 2 ^ n < 2 ^ (n - 1) then (x % 2 ^ n : Nat) else (x % 2 ^ n : Nat) - (2 ^ n : Nat)

/-- An exact integer modulo 2^n. -/
def modN (n : Nat) (x : Int) : Nat := (x % (2 ^ n : Nat)).toNat

/-- The 32-bit word of an exact integer (R98: modulo 2³²). -/
def word (x : Int) : Word := BitVec.ofNat 32 (modN 32 x)

/-- The 64-bit word of an exact integer. -/
def dword (x : Int) : Dword := BitVec.ofNat 64 (modN 64 x)

/-- The low and the high register of a 64-bit value (R5). -/
def lo32 (x : Dword) : Word := x.extractLsb' 0 32
def hi32 (x : Dword) : Word := x.extractLsb' 32 32

/-- A 64-bit value from the low and high registers of a pair (R5). -/
def pair64 (lo hi : Word) : Dword := hi ++ lo

/-- A boolean as a number. -/
def b2n (b : Bool) : Nat := if b then 1 else 0

/-- The lanes of a mask, ascending. -/
def lanesOf (m : Mask) : List Nat := (List.range 32).filter (fun l => m.getLsbD l)

/-- The lowest lane of a mask. -/
def lowestLane (m : Mask) : Option Nat := (lanesOf m).head?

/-- The mask of the lanes for which f holds. -/
@[irreducible] def maskOf (f : Nat → Bool) : Mask :=
  BitVec.ofNat 32 ((List.range 32).foldl (fun a l => if f l then a + 2 ^ l else a) 0)

/-- A number's n low bytes, lowest first (R5). -/
def leBytes (n x : Nat) : List Byte := (List.range n).map (fun i => BitVec.ofNat 8 (x / 2 ^ (8 * i)))

/-- The number of a list of bytes, lowest first (R5). -/
def ofLeBytes : List Byte → Nat
  | [] => 0
  | b :: bs => b.toNat + 256 * ofLeBytes bs

/-- ceil(a / b). -/
def ceilDiv (a b : Nat) : Nat := (a + b - 1) / b

/-- The element at index i of a list, or d. -/
def nth {α : Type} (d : α) (l : List α) (i : Nat) : α := (l[i]?).getD d

/-- The list with the element at index i replaced; unchanged beyond its end. -/
def setNth {α : Type} (l : List α) (i : Nat) (v : α) : List α := l.set i v

/-- The list with the element at index i changed by f. -/
def modNth {α : Type} (l : List α) (i : Nat) (f : α → α) : List α := l.modify i f

/-- The first element satisfying p, changed by f. -/
def updFirst {α : Type} (p : α → Bool) (f : α → α) : List α → List α
  | [] => []
  | x :: r => if p x then f x :: r else x :: updFirst p f r

def sumNat : List Nat → Nat := List.foldl (· + ·) 0

/-- The parity of a number's 64 low bits. -/
def parity (x : Nat) : Nat := sumNat ((List.range 64).map (fun i => b2n (x.testBit i))) % 2

/-! ## The generator of RNG4 and of refresh (R132, R301) -/

/-- Philox4x32-10: `n` rounds left, the key bumped between rounds. -/
def philoxRounds : Nat → Word × Word × Word × Word → Word → Word → Word × Word × Word × Word
  | 0, c, _, _ => c
  | n + 1, (c0, c1, c2, c3), k0, k1 =>
    let p0 := 0xD2511F53 * c0.toNat
    let p1 := 0xCD9E8D57 * c2.toNat
    philoxRounds n
      (BitVec.ofNat 32 (p1 / 2 ^ 32) ^^^ c1 ^^^ k0, BitVec.ofNat 32 p1,
        BitVec.ofNat 32 (p0 / 2 ^ 32) ^^^ c3 ^^^ k1, BitVec.ofNat 32 p0)
      (k0 + 0x9E3779B9) (k1 + 0xBB67AE85)

def philox (c0 c1 c2 c3 k0 k1 : Word) : Word × Word × Word × Word := philoxRounds 10 (c0, c1, c2, c3) k0 k1

/-- The smallest of a non-empty list of numbers; d for none. -/
def minOr (d : Nat) : List Nat → Nat
  | [] => d
  | x :: r => r.foldl min x

end Sys2Proof.Machine
end

