-- ==== Sys2Proof/Machine/Tab.lean ====
section
/-!
DEFINITION. Sparse tables: a list of (key, value) pairs in one canonical form, keys strictly rising and no value equal to
what an unlisted key reads as, so that equal contents are equal data. Memory, register files, tiles and register banks
are such tables.
-/
namespace Sys2Proof.Machine

/-- A sparse table. -/
abbrev Tab (α : Type) := List (Nat × α)

/-- The value at key k; `d` is what an unlisted key reads as. -/
def tget {α : Type} (d : α) (t : Tab α) (k : Nat) : α :=
  match t with
  | [] => d
  | (k', v) :: r => if k' = k then v else tget d r k

/-- The table without key k. -/
def tdel {α : Type} (t : Tab α) (k : Nat) : Tab α :=
  match t with
  | [] => []
  | (k', v) :: r => if k' = k then tdel r k else (k', v) :: tdel r k

/-- The table with (k, v) put before the first larger key. -/
def tins {α : Type} (t : Tab α) (k : Nat) (v : α) : Tab α :=
  match t with
  | [] => [(k, v)]
  | (k', v') :: r => if k < k' then (k, v) :: (k', v') :: r else (k', v') :: tins r k v

/-- The table with key k holding v, in canonical form: the default value is not listed. -/
def tset {α : Type} [DecidableEq α] (d : α) (t : Tab α) (k : Nat) (v : α) : Tab α :=
  if v = d then tdel t k else tins (tdel t k) k v

/-- The keys are strictly rising. -/
def tsorted {α : Type} : Tab α → Bool
  | [] => true
  | [_] => true
  | (k, _) :: (k', v') :: r => decide (k < k') && tsorted ((k', v') :: r)

/-- The canonical form: keys strictly rising, no value equal to the default. -/
def twf {α : Type} [DecidableEq α] (d : α) (t : Tab α) : Bool :=
  tsorted t && t.all (fun e => decide (e.2 ≠ d))

/-- Write the values of a list to consecutive keys from k up. -/
def tsetMany {α : Type} [DecidableEq α] (d : α) (t : Tab α) (k : Nat) : List α → Tab α
  | [] => t
  | v :: vs => tsetMany d (tset d t k v) (k + 1) vs

/-- The values of n consecutive keys from k up. -/
def tgetMany {α : Type} (d : α) (t : Tab α) (k n : Nat) : List α :=
  (List.range n).map (fun i => tget d t (k + i))

end Sys2Proof.Machine
end

