-- ==== Sys2Proof/Machine/State.lean ====
section
/-!
DEFINITION. The state of the machine as plain data: threads, warps, blocks, launches, engines, slices, device memory,
the command processor's and the host's registers, and the model's own bookkeeping (schedule, fresh-value counter).
-/
namespace Sys2Proof.Machine

/-! ## Threads (Table 1.1, R17, R20) -/

/-- What a parked thread waits for (Table 13.4, PKIND). -/
inductive ParkKind where
  | waitm | tuple
  /-- the block barrier (0) or named barrier id - 1 -/
  | bar (id : Nat)
  | gbar | token
  /-- behind an active handler (R135) -/
  | handler
  deriving DecidableEq, Repr, Inhabited

/-- The three states of a thread (R17). -/
inductive TStatus where
  | eligible | parked (k : ParkKind) | exited
  deriving DecidableEq, Repr, Inhabited

/-- One thread (Table 1.1) but for its lane registers, which the warp's register file holds. -/
structure Thread where
  pc : BitVec 52
  status : TStatus
  y : Bool
  /-- p0–p6 -/
  preds : BitVec 7
  ix0 : Byte
  ix1 : Byte
  /-- %fx bits 4:0 (Table 1.2) -/
  fx : BitVec 5
  deriving DecidableEq, Repr, Inhabited

/-! ## Warps (Table 5.2) -/

/-- A register a word can read or write, as R59, R64 and R79 speak of it. -/
inductive Loc where
  | lane (n : Nat) | uni (n : Nat) | pred (n : Nat)
  deriving DecidableEq, Repr, Inhabited

/-- A register whose newest value a read may still miss (R59, R63), in the order of issue, newest first. `op` is none for
an ALU result, whose declared distance still wants `left` cycles; it names the flagged operation otherwise. `wrote` are the
lanes written so far, `olds` the other value a read of such a lane may give, and `clob` the lanes in which another word
wrote the register before the flagged operation did. -/
structure Early where
  loc : Loc
  op : Option Nat
  left : Nat
  wrote : Mask
  olds : List Word
  clob : Mask
  deriving DecidableEq, Repr, Inhabited

/-- The trap registers (Table 5.3). -/
structure TrapRegs where
  cause : Byte
  pc : BitVec 52
  half : BitVec 3
  addr : Dword
  aux : Word
  ret : BitVec 52
  deriving DecidableEq, Repr, Inhabited

/-- The break-skip record (R161). -/
structure BreakSkip where
  valid : Bool
  addr : BitVec 52
  half : Bool
  iter : BitVec 6
  deriving DecidableEq, Repr, Inhabited

/-- The monitor of a warp (R212); `deadline` is the cycle its WAITM timeout ends in, on its die's clock, if one runs. -/
structure Monitor where
  armed : Bool
  /-- address bits 51:7 -/
  line : BitVec 45
  trig : Bool
  deadline : Option Nat
  /-- the watch registered at the home slice: the line's location, if any -/
  watch : Option Nat
  deriving DecidableEq, Repr, Inhabited

/-- A signature over 128-byte line identities, current and previous bank (R315), held exactly (R319, log 11). -/
structure Sig where
  cur : List Nat
  prev : List Nat
  deriving DecidableEq, Repr, Inhabited

/-- Arrival records of a warp's threads at one barrier (R262, Table 13.3 BREC, GREC). `waits` are the memory words the
pending arrivals release (R269, R316). -/
structure ArrRec where
  reg : Mask
  pend : Mask
  phase : BitVec 16
  waits : List Nat
  deriving DecidableEq, Repr, Inhabited

/-- One partial of a tile element: its ACC56 code (R31) and its NaN origin key (R50, R352). -/
structure Partial where
  val : BitVec 56
  key : Dword
  deriving DecidableEq, Repr, Inhabited

/-- The previous issued word of a warp, as far as chains and LIT bind the next one to it (R78 to R82). -/
structure PrevWord where
  run : Mask
  addr : BitVec 52
  eligible : Bool
  /-- the chain this word belongs to: its head, its words, its pushes, and the registers its words have read -/
  head : BitVec 52
  words : Nat
  pushes : Nat
  reads : List Loc
  /-- the word was LIT -/
  lit : Option Word
  deriving DecidableEq, Repr, Inhabited

/-- A REP sequence in progress (R84): its run, the REP word, and the register codes (R26) that stepping formed in this
iteration and that name no register. -/
structure RepRun where
  run : Mask
  word : FmtS
  overs : List Nat
  deriving DecidableEq, Repr, Inhabited

/-- One lane's 4-byte unit (or less) of a memory operation (R305): the lane, the byte offset of the unit within the
access, the location (die-local PA, or scratch address), the bytes to store or their number to load. -/
structure Part where
  lane : Nat
  off : Nat
  va : Nat
  pa : Nat
  len : Nat
  data : List Byte
  done : Bool
  deriving DecidableEq, Repr, Inhabited

/-- One request of an atomic word (R194, R195, R196): the lanes that name one address, ascending, each with its operand
(the compare value of a cas) and the new value of a cas; one lane of ATOMS. -/
structure AtomReq where
  va : Nat
  pa : Nat
  lanes : List (Nat × Nat × Nat)
  done : Bool
  deriving DecidableEq, Repr, Inhabited

/-- An MMA as issued (R227, R230): its fields, the shape record (R221), and the stored rows its register fragments hold, as
little-endian numbers. The rows of a scratch operand are the operation's parts: `lane` is the row of A, or 16 + that of B. -/
structure MmaOp where
  fmt : Nat
  accd : Bool
  nega : Bool
  negb : Bool
  tile : Nat
  shape : Word
  rowsA : Option (List Nat)
  rowsB : Option (List Nat)
  deriving DecidableEq, Repr, Inhabited

/-- A snapshot of a page-table entry (R243): its address, its location, and its four dwords. -/
structure Snap where
  va : Nat
  loc : Nat
  d0 : Nat
  d1 : Nat
  d2 : Nat
  d3 : Nat
  deriving DecidableEq, Repr, Inhabited

/-- An ATTN as issued (R246, R248): D, INIT, MASS, M, QPOS0, SCALE, the state record's address, and the list slots with
their page numbers and snapshots. `stage` is 1 once the state has been written; its MASS adds are then the operation's
requests. The scratch words it reads are its parts: `lane` is the query row, or 16 + the state row. -/
structure AttnOp where
  d : Nat
  init : Bool
  mass : Bool
  rows : Nat
  qpos : Nat
  scale : Nat
  saddr : Nat
  slots : List (Option (Nat × Snap))
  stage : Nat
  /-- how many words memory had replaced when it was issued: its page reads come after (R305) -/
  since : Nat
  /-- state bytes still to be written, by 4-byte word -/
  outs : List (Nat × List Byte)
  deriving DecidableEq, Repr, Inhabited

/-- A PGSEAL (R257): the entry's address, D, the status register, its snapshot once taken, its status if decided before
the update, and whether the summary has been written, with the signature the update releases. -/
structure SealOp where
  va : Nat
  d : Nat
  dst : Option Nat
  snap : Option Snap
  status : Option Nat
  wrote : Option Sig
  /-- how many words memory had replaced at its snapshot (R305) -/
  since : Nat
  /-- summary bytes still to be written, by 4-byte word -/
  outs : List (Nat × List Byte)
  deriving DecidableEq, Repr, Inhabited

/-- What a selector operation comes to (R273, R274): status and count, the address a fault is logged with, whether an error in
core storage was met, and the output bytes still to be written, by 4-byte word. -/
structure SelRes where
  status : Nat
  count : Nat
  va : Option Nat
  core : Bool
  outs : List (Nat × List Byte)
  deriving DecidableEq, Repr, Inhabited

/-- A selector operation (R271, R273): PSEL 0, TOPK 1 or MERGEK 2; its status and count registers; its parameters. For
PSEL, `next` is the next entry to snapshot or the next page to bound, then the snapshots and the bounds by page number.
`stage` is 0 while snapshots are taken, 1 while bounds are computed. -/
structure SelOp where
  op : Nat
  dst : Option Nat
  cnt : Option Nat
  p : List Nat
  stage : Nat
  next : Nat
  snaps : List (Nat × Snap)
  bounds : List (Nat × Nat)
  /-- how many words memory, and its scratch allocation, had replaced when its reads could begin (R252, R305) -/
  begun : Option (Nat × Nat)
  ended : Option SelRes
  deriving DecidableEq, Repr, Inhabited

/-- An SX word (R425): its opcode less 0x1C8, its status register, its handle, its argument w(B+1) or image VA, the tokens
read, the proposal's lane register and lanes. -/
structure SxOp where
  op : Nat
  dst : Option Nat
  handle : Nat
  arg : Nat
  toks : List Word
  reg : Nat
  lanes : Mask
  /-- once its unit has begun it: how many words memory had replaced, and the image bytes still to be written (R305, R430) -/
  begun : Option (Nat × List (Nat × List Byte))
  deriving DecidableEq, Repr, Inhabited

/-- What an issued and not yet completed operation of a warp is (R61, R178). -/
inductive OpKind where
  /-- LD, LDA: loads of global memory; destination register, none for 0xFC -/
  | load (k : LoadKind) (dst : Option Nat) (acq lu : Bool)
  | store (rel : Bool)
  | lds (k : LoadKind) (dst : Option Nat)
  | sts
  | ldfrag (dst : Nat) (wide trans : Bool) (lanes : Mask)
  | stfrag
  | fence (full : Bool)
  | atom (op ord : Nat) (w64 : Bool) (dst : Option Nat)
  | atoms (op : Nat) (w64 : Bool) (dst : Option Nat)
  | monitor (line : Nat)
  | ckick (dst : Option Nat) (addr : Nat) (token : Bool)
  /-- the queue mask, and whether its entries stand in the queues -/
  | cqfence (mask : Nat) (entered : Bool)
  | cbset (addr : Nat) (n : Nat)
  /-- CBWAIT; `seen` is the object at the first moment with ARMED = 0 or ERR = 1, once there has been one (R208) -/
  | cbwait (dst : Option Nat) (addr : Nat) (seen : Option Nat)
  | mma (m : MmaOp)
  | mread (tile fmt dst : Nat) (accd : Bool) (lanes : Mask)
  /-- the 256 partials E of MWR (O is 0); none for MZERO -/
  | mwrite (tile : Nat) (vals : List Partial)
  | attn (a : AttnOp)
  | pgseal (p : SealOp)
  | select (x : SelOp)
  /-- NEXTT -/
  | draw (dst : Nat)
  /-- a tuple word: its status register, and the threads its blocking form parks; the request is under its own id -/
  | tuple (dst : Nat) (parked : Mask)
  | sx (x : SxOp)
  /-- a KV word by its opcode less 0x1D0 (R407): status register, entry or record, pool, and its engine's verdict -/
  | kv (op : Nat) (dst : Option Nat) (va pool : Nat) (status : Option Nat)
  | launch (dst : Nat) (va : Nat) (queue : Nat)
  /-- the pass of the commit token, by CTOKP or by exit (R363) -/
  | pass
  deriving DecidableEq, Repr, Inhabited

/-- An issued operation, in issue order in its warp. `done` says that it is performed whole, so that its flag may fall. -/
structure Op where
  id : Nat
  kind : OpKind
  setf : Option Nat
  /-- the word's address -/
  pc : BitVec 52
  parts : List Part
  reqs : List AtomReq
  done : Bool
  deriving DecidableEq, Repr, Inhabited

/-- One warp (Table 5.2, R138). -/
structure Warp where
  idx : Nat
  core : Nat
  slot : Nat
  threads : Vector Thread 32
  /-- lane register n of lane l at key 32 n + l -/
  v : Tab Word
  w : Tab Word
  flags : Tab Nat
  /-- b0–b3, each by lane -/
  latches : List (List Word)
  /-- partial E (o = 0) or O (o = 1) of element (i, j) of tile t at key 512 t + 2 (16 i + j) + o -/
  acc : Tab Partial
  /-- MMA ordinal of each tile (R352) -/
  ordinal : Tab Nat
  shape : Word
  repc : BitVec 7
  trap : TrapRegs
  handler : Mask
  skip : BreakSkip
  mon : Monitor
  sig : Sig
  /-- key 0 the block barrier, key 1 + id a named barrier -/
  brec : Tab ArrRec
  grec : ArrRec
  ops : List Op
  early : List Early
  /-- registers of flagged operations for whose flag no word has yet waited: the flag and the register (R64, log 61) -/
  unwaited : List (Nat × Loc)
  prev : Option PrevWord
  rep : Option RepRun
  /-- the cycle the warp's previous word issued in, on its die's clock (R57) -/
  lastIssue : Option Nat
  /-- the pending fault records the warp's next word is held on (R177): context and record number -/
  held : List (Nat × Nat)
  /-- what the held word's MEM_FAULT records if it is answered as fatal (R177, R401) -/
  heldTrap : TrapRegs
  freed : Bool
  /-- double-bit errors in its registers (32 n + l), uniform registers and partials (R160) -/
  badV : List Nat
  badW : List Nat
  badAcc : List Nat
  /-- single-bit errors in the same (R160) -/
  weakV : List Nat
  weakW : List Nat
  weakAcc : List Nat
  /-- single-bit errors corrected in them, not yet added to telemetry (R160, R454) -/
  fixed : Nat
  deriving DecidableEq, Repr, Inhabited

/-! ## Blocks, scratch, launches, images -/

/-- A completed phase of a barrier whose registrations still release memory words (R269, R316): its number, the warps that
registered in it, the threads it wakes by warp, what they acquire, and the memory words the wake waits for (log 26). -/
structure Closing where
  q : BitVec 16
  regs : List Nat
  wakes : List (Nat × Mask)
  sig : Sig
  waits : List Nat
  deriving DecidableEq, Repr, Inhabited

/-- One barrier of a block (R262); `waits` are the memory words the open phase's registrations release. -/
structure Barrier where
  q : BitVec 16
  n : Nat
  regs : List Nat
  sig : Sig
  waits : List Nat
  closing : List Closing
  deriving DecidableEq, Repr, Inhabited

/-- One page of a scratch translation table (Table 5.6): pinned to a physical page of a core, or a spill page. -/
structure SttPage where
  vpn : Nat
  pin : Option (Nat × Nat)
  back : BitVec 40
  deriving DecidableEq, Repr, Inhabited

/-- One scratch allocation (R153, R260): `owner` is the block, `first` its first warp and `count` its warps (R471). -/
structure Alloc where
  id : Nat
  owner : Nat
  first : Nat
  count : Nat
  size : Nat
  bytes : Tab Byte
  /-- the 4-byte words that writes have replaced, latest first (R232, R252, R305) -/
  past : List (Nat × Nat)
  pages : List SttPage
  /-- the block slot its STT entries carry, per core that holds them -/
  slots : List (Nat × Nat)
  /-- the block's context, in which its backing pages lie -/
  ctx : Nat
  /-- 32-bit words with a double-bit error, and with a single-bit error (R160) -/
  bad : List Nat
  weak : List Nat
  /-- what the copy requests that counted down the barrier object at an address release to its waiter (R210, R317) -/
  objSig : Tab Sig
  deriving DecidableEq, Repr, Inhabited

/-- Why a block no longer issues words. -/
inductive Halt where
  /-- frozen for a capture with this cause: 0 migration, 1 pre-emption (Table 13.2) -/
  | capture (cause : Nat)
  /-- admitted again after a capture with this cause, its restore waiting for its copy requests (R356) -/
  | restoring (cause : Nat)
  /-- halted by a debugger (R162) -/
  | debugger
  /-- aborted with this trap cause (R148) -/
  | abort (cause : Nat)
  deriving DecidableEq, Repr, Inhabited

/-- A tuple request on its way or parked (R331, R336): its id is its word's, or its own for a remote deposit, which has no
warp (R449). `kind` is 0 deposit, 1 copy, 2 take; `blocking` is BLK; `timeout` is 0 for none; `sig` is a port's. -/
structure TupReq where
  id : Nat
  src : Option (Nat × Nat)
  ctx : Nat
  handle : Nat
  fields : List Dword
  kind : Nat
  mask : Nat
  blocking : Bool
  timeout : Nat
  sig : Sig
  /-- the port of a remote deposit -/
  port : Option Nat
  deriving DecidableEq, Repr, Inhabited

/-- One resident or captured block. -/
structure Block where
  uid : Nat
  launch : Nat
  ctx : Nat
  logid : Nat
  a : Nat
  u : Nat
  nacc : Nat
  nbars : Nat
  scope : Nat
  scratch : Nat
  warps : List Warp
  /-- cores of its share, ascending cluster position (R258), and the block slots it holds: (core, slot) -/
  cores : List Nat
  slots : List (Nat × Nat)
  barriers : List Barrier
  sched : Nat
  migcount : Nat
  /-- a warp raised MIGRATE, or migcount > 0 (Table 13.2, MIG) -/
  mig : Bool
  garr : Bool
  gphase : BitVec 16
  halt : Option Halt
  /-- parked tuple requests that its capture has withdrawn, with their remaining timeouts, in the order of the replies (R344) -/
  withdrawn : List (TupReq × Nat)
  deriving DecidableEq, Repr, Inhabited

/-- The commit token of a deterministic launch (R360, R361): where it is (block index, warp index), held or not. -/
structure Token where
  pos : Option (Nat × Nat)
  held : Bool
  sig : Sig
  deriving DecidableEq, Repr, Inhabited

/-- The pre-emption ladder of one launch (R390): started at this time; `resume` says that RESUME has come since. -/
structure Ladder where
  since : Nat
  resume : Bool
  deriving DecidableEq, Repr, Inhabited

/-- One launch, from its dispatch to its completion. -/
structure Launch where
  uid : Nat
  num : Nat
  queue : Nat
  ctx : Nat
  prio : Nat
  /-- the launch record's dwords as read (R372), with an indirect extent in place (R388) -/
  record : List Dword
  /-- die classes it may use: class N only -/
  onlyN : Bool
  /-- address of the text section -/
  text : Nat
  windows : List (Nat × Nat)
  blocks : Nat
  placed : Nat
  freed : List Nat
  aborted : Nat
  counter : Option Nat
  /-- the cores whose range was not empty at dispatch (R385) -/
  rangeCores : List Nat
  /-- signature of the grid phase's arrivals (R368) -/
  gridSig : Sig
  /-- what the snapshot under way has acquired and written (R441) -/
  snapSig : Sig
  token : Token
  ladder : Option Ladder
  /-- no new block is placed, and no image restored, until RESUME (R390, R391) -/
  suspended : Bool
  /-- a batch-table snapshot under way: the next entry, NENT, SNAP (R441) -/
  snap : Option (Nat × Nat × Nat)
  /-- the die of the die-bound member whose blocks are being placed (R375) -/
  memberDie : Option Nat
  deriving DecidableEq, Repr, Inhabited

/-- A parked request (R336): its slice, its park number, the cycle its timeout ends in on the slice's die. -/
structure Parked where
  req : TupReq
  slice : Nat
  num : Nat
  deadline : Option Nat
  deriving DecidableEq, Repr, Inhabited

/-- A stored tuple (R329, R335): its region by handle, its fields, its deposit sequence number, its depositor's
signature. -/
structure Stored where
  handle : Nat
  fields : List Dword
  seq : Nat
  sig : Sig
  deriving DecidableEq, Repr, Inhabited

/-- A reply on its way to a warp (R332, R334): its status and tuple, or the trap it raises (cause, VA). -/
structure TupReply where
  id : Nat
  status : Nat
  fields : Option (List Dword)
  sig : Sig
  fault : Option (Nat × Nat)
  deriving DecidableEq, Repr, Inhabited

/-- Tuple space: requests on their way, parked requests, stored tuples, replies on their way, the deposit sequence
numbers by (handle, tag) and the park sequence numbers by slice (R335). -/
structure TupSt where
  sent : List TupReq
  parked : List Parked
  stored : List Stored
  replies : List TupReply
  dseq : Tab Nat
  pseq : Tab Nat
  /-- by slice, the cycle and arrival port of the request it performed last (R339) -/
  served : Tab (Option (Nat × Nat))
  deriving DecidableEq, Repr, Inhabited

/-- A captured block: its structured copy with the operations carried (Table 13.1), CAUSE, the image's address, whether it
stands in the restore queue, its POISON field, and the withdrawn tuple requests with their remaining timeouts (R344). A
monitor's `deadline` holds the remaining cycles here. -/
structure Image where
  blk : Block
  cause : Nat
  va : Nat
  queued : Bool
  tuples : List (TupReq × Nat)
  deriving DecidableEq, Repr, Inhabited

/-! ## Cores, slices, dies -/

/-- One word a core's L1 holds (R304, R314): the 4-byte word's location, its value, and how many epoch boundaries it has
passed unowned (R318). -/
structure L1Word where
  core : Nat
  loc : Nat
  val : Word
  age : Nat
  deriving DecidableEq, Repr, Inhabited

/-- A translation kept by a core's TLB (R400): the context, the page VA[51:12], and the entry and page size found. -/
structure TlbEntry where
  ctx : Nat
  vpn : Nat
  frame : Nat
  perms : BitVec 3
  tuple : Bool
  deriving DecidableEq, Repr, Inhabited

/-- A fault record (R401): `id` is none while it waits for room in the ring. -/
structure FaultRec where
  num : Nat
  ctx : Nat
  page : Nat
  kind : Nat
  launch : Nat
  core : Nat
  slot : Nat
  id : Option Word
  deriving DecidableEq, Repr, Inhabited

/-- A hardware breakpoint BKAn, BKCn (Table 5.7). -/
structure Breakpoint where
  addr : Dword
  ctl : Word
  deriving DecidableEq, Repr, Inhabited

/-- A copy request whose reads are over: the destination bytes still to be written by 4-byte word (scratch addresses, or locations),
the counted bytes of elements that are not inside, the error that stops it with the address it met, and the lines it read and
wrote (R204, R207, R209). -/
structure CopyRun where
  outs : List (Nat × List Byte)
  outside : Nat
  err : Option (Nat × Nat)
  lines : List Nat
  /-- the 16-byte units of memory that the request writes whole (R300) -/
  units : List Nat
  deriving DecidableEq, Repr, Inhabited

/-- An accepted copy request, with what it needs of its kicking warp: context, launch, allocation, (block, warp), the record's bytes
and address, the signature of the acceptance, whether the warp held the token; how many words memory and the allocation had replaced
when it could start (R204, R305); and its run, once its reads are over. -/
structure CopyReq where
  ctx : Nat
  launch : Nat
  alloc : Nat
  blk : Nat × Nat
  record : List Byte
  addr : Nat
  sig : Sig
  token : Bool
  since : Nat × Nat
  run : Option CopyRun
  deriving DecidableEq, Repr, Inhabited

/-- An entry of a copy queue (R197, R205): an accepted request or a fence. -/
inductive CopyEntry where
  | request (q : CopyReq)
  | fence (op mask : Nat)
  deriving DecidableEq, Repr, Inhabited

/-- One core: breakpoints, copy queues, copy fault log (R161, R197, R209). -/
structure CoreSt where
  bps : List Breakpoint
  copyQ : List (List CopyEntry)
  copyLog : List (Nat × Nat)
  deriving DecidableEq, Repr, Inhabited

/-- One sub-partition's choice of warp (R150): the current warp (block, warp index) and the greedy count. -/
structure SubpSt where
  cur : Option (Nat × Nat)
  g : Nat
  /-- the slot `cur` had, from which the rotation goes on -/
  slot : Nat
  deriving DecidableEq, Repr, Inhabited

/-- One die's registers (Table 10.2) and counters. -/
structure DieSt where
  hashm : List Dword
  lock : Bool
  err : Bool
  badm : BitVec 3
  nrTest : Bool
  nrP : BitVec 4
  nrSeed : Word
  /-- activates counted per stack and pseudo-channel (R301): key 64 x + c -/
  acts : Tab Nat
  /-- refreshes counted per stack (R301) -/
  refreshes : Tab Nat
  clock : Nat
  throttled : Bool
  deriving DecidableEq, Repr, Inhabited

/-- What a change of keys reaches (R453): units whose key-map entries changed, by the entries' numbers; units whose entries
name a key slot, in the map at `base` as memory then stood; or, at boot and when the map moves, a free set (log 53). -/
inductive ScramOf where
  | entries (l : List Nat)
  | slot (n base : Nat) (map : Tab Byte)
  | moved
  deriving DecidableEq, Repr, Inhabited

/-- A change of a memory-encryption key or of the key map (R453), made at step `fresh`: the units it reaches hold unspecified
bytes until they are written; `written` are the bytes written since. -/
structure Scram where
  fresh : Nat
  written : List Nat
  reach : ScramOf
  deriving DecidableEq, Repr, Inhabited

/-- Device memory: bytes, poisoned 16-byte units, units with an uncorrectable or a correctable error not yet met, the 4-byte words
that writes have replaced, latest first (R182, R305), word owners (core + 1, 0 none; R314), attached signatures by line (R316), L1 words, TLB entries, changes of keys, and writes counted by 4 KiB frame, by which a
suffix-match unit's index area is found written (R423). -/
structure MemSt where
  bytes : Tab Byte
  poison : List Nat
  bad : List Nat
  weak : List Nat
  past : List (Nat × Nat)
  owner : Tab Nat
  lineSig : Tab Sig
  l1 : List L1Word
  tlb : List TlbEntry
  scram : List Scram
  wcount : Tab Nat
  deriving DecidableEq, Repr, Inhabited

/-! ## The command processor and the host's registers -/

/-- The registers of Tables 14.4, 14.5, 14.8, 17.2 and 13.8, and what the command processor keeps. An array of registers
is a table by its index; an unlisted index reads as the reset value 0. -/
structure HostSt where
  qbase : Tab Dword
  qctl : Tab Dword
  qrd : Tab Dword
  qwr : Tab Dword
  cpt : Tab Dword
  creg : Tab Dword
  ccap : Tab Dword
  /-- CMIGc.d at key 2 c + (d - 2) -/
  cmig : Tab Dword
  cmslot : Tab Dword
  csave : Tab Dword
  cflt : Tab Dword
  cabt : Tab Dword
  abtLost : Tab Dword
  abtWr : Tab Dword
  abtRd : Tab Dword
  fltWr : Tab Dword
  fltRd : Tab Dword
  pred1 : List Word
  pred2 : List Word
  gbc : Tab Dword
  cmdlen : Word
  cmdBusy : Bool
  /-- an INVALIDATE in progress: context, first page, number of pages, the operations whose accesses it waits for (R400) -/
  cmdInv : Option (Nat × Nat × Nat × List Nat)
  cmdResult : Byte
  creset : Tab Dword
  hostirq : BitVec 6
  irqaddr : Dword
  /-- interrupt messages sent, oldest first: address and value (R445) -/
  irqs : List (Dword × BitVec 6)
  lastQueue : Nat
  /-- abort records that wait for a ring in held memory, oldest first: context and bytes (R296, R378) -/
  abtHeld : List (Nat × List Byte)
  /-- dwords of completion signals that wait for held memory, oldest first: context, address, bytes (R296, R377) -/
  sigHeld : List (Nat × Nat × List Byte)
  deriving DecidableEq, Repr, Inhabited

/-! ## Peer ports (R446 to R449) -/

/-- A store or deposit that has left through a port: port, aperture offset, bytes, release, deposit. -/
structure PeerMsg where
  port : Nat
  off : Nat
  bytes : List Byte
  release : Bool
  deposit : Bool
  deriving DecidableEq, Repr, Inhabited

/-- The stage of one (warp, port) pair (R449): its 64-byte granule and the staged bytes; an unwritten byte is sent as 0. -/
structure Stage where
  blk : Nat
  warp : Nat
  port : Nat
  gran : Nat
  bytes : Tab Byte
  deriving DecidableEq, Repr, Inhabited

/-- The peer ports: what has left, the stages, and the registers of Table 17.3: PWINn and PLENn of port p at 16 p + n,
PDROPp and PSTAGEp at p; the signature of what each port has written here (R447, R449). -/
structure PeerSt where
  sent : List PeerMsg
  stages : List Stage
  pwin : Tab Dword
  plen : Tab Dword
  pdrop : Tab Dword
  pstage : Tab Dword
  psig : Tab Sig
  deriving DecidableEq, Repr, Inhabited

/-! ## Key-value page aging (R243, R404 to R418) -/

/-- A reader registered against a generation of an entry (R243): the entry's location, GEN, and whose it is. -/
structure Reader where
  ent : Nat
  gen : Nat
  id : Nat
  deriving DecidableEq, Repr, Inhabited

/-- Old slots awaiting retirement (R413): the entry's location and old generation, and what goes back, in order: the ring,
and the slot's address; `pos` is the position that the first one's push has reserved (R405). -/
structure Retire where
  ent : Nat
  gen : Nat
  ctx : Nat
  pool : Nat
  slots : List (Nat × Nat)
  pos : Option Nat
  deriving DecidableEq, Repr, Inhabited

/-- An operation in a demotion engine's queue (R408): its warp's operation, the word, its addresses, its context, the
signature of its warp. -/
structure KvReq where
  id : Nat
  op : Nat
  ctx : Nat
  va : Nat
  pool : Nat
  sig : Sig
  deriving DecidableEq, Repr, Inhabited

/-- Where the engine stands in its operation (R410, R413): its record's reads begun when memory had replaced so many words, its
pool to be read or begun so; the next entry; an entry to decay; a step to begin, its data slots popped, its summary popped too, its
copies written with the new dword 3 and what the swap releases; slots to push back before the step, or the operation, ends (`pos` is
the position the first one's push has reserved, `err` the fault the operation ends with, `bump` says that the pool's EXHAUST
counts); the end, and the words of the report still to be written. -/
inductive KvPhase where
  | start
  | reading (since : Nat)
  | pool
  | poolAt (since : Nat)
  | entry
  | decay (e : Snap)
  | pop (e : Snap)
  | popSum (e : Snap) (k v : Nat)
  | write (e : Snap) (k v : Nat) (sum : Option Nat)
  | store (e : Snap) (k v : Nat) (sum : Option Nat) (d3 : Nat) (outs : List (Nat × List Byte))
  | swap (e : Snap) (k v : Nat) (sum : Option Nat) (d3 : Nat) (sig : Sig)
  | back (e : Snap) (slots : List (Nat × Nat)) (pos : Option Nat) (err : Option (Nat × Nat)) (bump : Bool) (status : Nat)
  | finish (status va : Nat)
  | report (status va : Nat) (outs : List (Nat × List Byte))
  deriving DecidableEq, Repr, Inhabited

/-- The counters of a sweep report (Table 15.5). -/
structure KvCounts where
  visited : Nat
  invalid : Nat
  prot : Nat
  nostep : Nat
  dem1 : Nat
  dem2 : Nat
  dem3 : Nat
  moved : Nat
  exhausted : Nat
  changed : Nat
  deriving DecidableEq, Repr, Inhabited

/-- A demotion engine: its queue, whose head is in progress, and the progress: the phase, dwords 0 to 7 of a sweep record
as read, the logical page reached, the pool's D and MODE as read, and the counters. -/
structure KvEngine where
  queue : List KvReq
  phase : KvPhase
  record : List Nat
  page : Nat
  d : Nat
  raise : Bool
  counts : KvCounts
  /-- how many words memory had replaced at the snapshot of the entry in hand (R305) -/
  since : Nat
  deriving DecidableEq, Repr, Inhabited

structure KvSt where
  readers : List Reader
  retire : List Retire
  /-- by die -/
  engines : List KvEngine
  deriving DecidableEq, Repr, Inhabited

/-! ## The suffix-match units (R420 to R423) -/

/-- A handle entry SXHn (Table 16.2). -/
structure SxEntry where
  d0 : Dword
  d1 : Dword
  d2 : Dword
  d3 : Dword
  deriving DecidableEq, Repr, Inhabited

/-- A handle's index state (R423): n, E, W, the tokens C[E .. n − 1], and the writes counted in its area when it was last
set, against which a foreign write shows. -/
structure SxIndex where
  n : Nat
  e : Nat
  w : Nat
  toks : List Word
  seen : Nat
  deriving DecidableEq, Repr, Inhabited

/-- Entries and index states, at key 65,536 × unit + index. -/
structure SxSt where
  entries : Tab SxEntry
  index : Tab SxIndex
  deriving DecidableEq, Repr, Inhabited

/-! ## Boot, attestation, keys (R450 to R453) -/

/-- An attestation mailbox (R452): nonce, DONE, report. -/
structure Mailbox where
  nonce : List Byte
  done : Bool
  report : List Byte
  deriving DecidableEq, Repr, Inhabited

/-- The trust window: BOOTSTAT, MR0–MR7, MREXT, the host's mailbox and the ports', the wrapped keys loaded by slot,
KEYMAPBASE and the recovery buffer. `image` is the firmware image last taken from that buffer; none while the flash's own stands. -/
structure TrustSt where
  bootstat : Word
  mr : List (BitVec 512)
  mrext : BitVec 512
  boxes : List Mailbox
  keys : Tab (List Byte)
  keymap : Dword
  recovery : Tab Byte
  image : Option (Tab Byte)
  deriving DecidableEq, Repr, Inhabited

/-! ## Telemetry and events (R454 to R457) -/

/-- An event record (R456): source, SEQ, time, code, argument. -/
structure EvRec where
  src : Nat
  seq : Nat
  time : Nat
  code : Dword
  arg : Dword
  deriving DecidableEq, Repr, Inhabited

/-- A source of events: the next SEQ, the events held (at most 16), LOST. -/
structure EvSource where
  seq : Nat
  held : List EvRec
  lost : Nat
  deriving DecidableEq, Repr, Inhabited

/-- Lifetime counters at key 65,536 × group + index (Table 17.6), the thermal-residency histograms at key 16 × die + bin
(R454), the single-bit errors corrected in core storage by core (R160), the causes of captures, with their blocks (R143), the
event sources, the ring registers (Table 17.7). -/
structure TelSt where
  life : Tab Dword
  hist : Tab Dword
  corrected : Tab Nat
  captures : List (Nat × Nat)
  sources : Tab EvSource
  evbase : Dword
  evctl : Word
  evwr : Word
  evrd : Word
  deriving DecidableEq, Repr, Inhabited

/-! ## The machine -/

/-- Which warp's word `exec` issues: the block and the warp index. -/
structure WarpRef where
  blk : Nat
  warp : Nat
  deriving DecidableEq, Repr, Inhabited

/-- The machine. -/
structure State where
  blocks : List Block
  allocs : List Alloc
  launches : List Launch
  images : List Image
  mem : MemSt
  cores : Tab CoreSt
  subps : Tab SubpSt
  dies : List DieSt
  faults : List FaultRec
  host : HostSt
  peers : PeerSt
  kv : KvSt
  /-- each cluster's selector queue: the operations' ids, oldest first (R273) -/
  selq : Tab (List Nat)
  tup : TupSt
  sx : SxSt
  trust : TrustSt
  tel : TelSt
  /-- the package time base (R131), and its epoch number (R318) -/
  time : Nat
  epoch : Nat
  debugger : Bool
  tripped : Bool
  /-- faulting VAs logged in telemetry (R274, R376, R377, R378, R384, R448): context and VA -/
  telemetry : List (Nat × Nat)
  nextUid : Nat
  fresh : Nat
  cur : Option WarpRef
  schedule : List Turn
  deriving DecidableEq, Repr, Inhabited

/-- No step of this model ends in a fault: every behaviour the spec describes is a next state. -/
inductive Fault where
  deriving DecidableEq, Repr

/-- Why an instruction has no meaning here. -/
inductive Refusal where
  /-- raised by `exec` for an instruction whose arm has no meaning yet; safe: no claim can be proved of its effect -/
  | notModelled (mnemonic : String)
  deriving DecidableEq, Repr

/-! ## Reset (R450: the machine right after module reset) -/

def Thread.reset : Thread := ⟨0, .eligible, false, 0, 0, 0, 0⟩

def Sig.empty : Sig := ⟨[], []⟩

def Breakpoint.reset : Breakpoint := ⟨0, 0⟩

def CoreSt.reset : CoreSt := ⟨List.replicate 8 Breakpoint.reset, [[], [], [], []], []⟩

def SubpSt.reset : SubpSt := ⟨none, 0, 0⟩

/-- HASHMk = 2^(7+k) + 2^(20+k) for k = 0 to 5 and HASHM6 = 0x0400_2000; NRCTL.P = 5; all else 0 (Table 10.2). -/
def DieSt.reset : DieSt :=
  ⟨[0x00100080, 0x00200100, 0x00400200, 0x00800400, 0x01000800, 0x02001000, 0x04002000],
    false, false, 0, false, 5, 0, [], [], 0, false⟩

def MemSt.reset : MemSt := ⟨[], [], [], [], [], [], [], [], [], [], []⟩

/-- PRED1p = 50 and PRED2p = 5,000 for every level (R389); every other register 0. The rotation of R380 starts at queue
0 (log 13). -/
def HostSt.reset : HostSt :=
  ⟨[], [], [], [], [], [], [], [], [], [], [], [], [], [], [], [], [],
    List.replicate 8 50, List.replicate 8 5000, [], 0, false, none, 0, [], 0, 0, [], 127, [], []⟩

def PeerSt.reset : PeerSt := ⟨[], [], [], [], [], [], []⟩

def KvCounts.zero : KvCounts := ⟨0, 0, 0, 0, 0, 0, 0, 0, 0, 0⟩

def KvEngine.reset : KvEngine := ⟨[], .start, [], 0, 0, false, KvCounts.zero, 0⟩

def KvSt.reset : KvSt := ⟨[], [], List.replicate 4 KvEngine.reset⟩

def SxEntry.reset : SxEntry := ⟨0, 0, 0, 0⟩

def SxIndex.reset : SxIndex := ⟨0, 0, 0, [], 0⟩

def EvSource.reset : EvSource := ⟨0, [], 0⟩

def TupSt.reset : TupSt := ⟨[], [], [], [], [], [], []⟩

def Mailbox.reset : Mailbox := ⟨List.replicate 32 0, false, []⟩

/-- MRk = 0 and BOOTSTAT = 1 (R450 step 1). -/
def TrustSt.reset : TrustSt :=
  ⟨1, List.replicate 8 0, 0, List.replicate 9 Mailbox.reset, [], 0, [], none⟩

def TelSt.reset : TelSt := ⟨[], [], [], [], [], 0, 0, 0, 0⟩

def State.reset : State :=
  ⟨[], [], [], [], MemSt.reset, [], [], List.replicate 4 DieSt.reset, [], HostSt.reset, PeerSt.reset, KvSt.reset,
    [], TupSt.reset, ⟨[], []⟩, TrustSt.reset, TelSt.reset, 0, 0, false, false, [], 0, 0, none, []⟩

end Sys2Proof.Machine
end

