-- ==== Sys2Proof/WellFormed.lean ====
section
/-!
DEFINITION. Which terms of `Instr` are steps the part can take: a word whose constructor is the one its fields select
(R87 and the sub-forms the chapters give), a dual word of assigned half-opcodes (Table 3.10), an unassigned opcode that
Tables 3.11 to 3.16 indeed do not list, an event whose parameters name something of the part (R2, R3, R292).
-/
namespace Sys2Proof

/-- The opcodes Tables 3.11 to 3.16 assign. -/
def assignedOpcode (op : Nat) : Bool :=
  decide (op ≤ 0x028) || (decide (0x040 ≤ op) && decide (op ≤ 0x05D)) ||
  (decide (0x080 ≤ op) && decide (op ≤ 0x087)) ||
  (decide (0x0C0 ≤ op) && decide (op ≤ 0x0D6)) || (decide (0x0D8 ≤ op) && decide (op ≤ 0x0E3)) ||
  (decide (0x100 ≤ op) && decide (op ≤ 0x12D)) || (decide (0x140 ≤ op) && decide (op ≤ 0x14C)) ||
  (decide (0x180 ≤ op) && decide (op ≤ 0x18A)) || (decide (0x1C0 ≤ op) && decide (op ≤ 0x1C6)) ||
  (decide (0x1C8 ≤ op) && decide (op ≤ 0x1CD)) || (decide (0x1D0 ≤ op) && decide (op ≤ 0x1D4)) ||
  decide (op = 0x1D8) || decide (op = 0x1DC) || decide (op = 0x1DD)

/-- A half-opcode Table 3.10 assigns. -/
def assignedHop (h : Half) : Bool := decide (h.hop.toNat ≤ 0x18)

/-- A word that decodes to no assigned operation (R86 step 1): an unlisted opcode, or a dual word with an unlisted
half-opcode. -/
def unassignedWord (w : BitVec 64) : Bool :=
  if w.getLsbD 15 then
    decide (0x18 < (w.extractLsb' 16 6).toNat) || decide (0x18 < (w.extractLsb' 40 6).toNat)
  else !assignedOpcode (w.extractLsb' 16 9).toNat

/-- A global core id of R3. -/
def coreIdValid (g : Nat) : Bool :=
  decide (g < 40) || (decide (64 ≤ g) && decide (g < 104)) ||
  (decide (128 ≤ g) && decide (g < 164)) || (decide (192 ≤ g) && decide (g < 228))

/-- A %cluster value of R130: die × 16 + local index, ten clusters on class N and nine on class E (Table 0.1). -/
def clusterValid (c : Nat) : Bool :=
  decide (c < 10) || (decide (16 ≤ c) && decide (c < 26)) ||
  (decide (32 ≤ c) && decide (c < 41)) || (decide (48 ≤ c) && decide (c < 57))

/-- The register is one there is: masks HASHM0 to HASHM6 (Table 10.2), breakpoints of a core of R3, nine mailboxes. -/
def hostRegValid : HostReg → Bool
  | .hashm _ k => decide (k.toNat < 7)
  | .bka core _ => coreIdValid core.toNat
  | .bkc core _ => coreIdValid core.toNat
  | .nonce box _ => decide (box.toNat < 9)
  | _ => true

/-- The step is one of the part: its constructor agrees with its fields, and its parameters are in range. -/
def Instr.wellFormed : Instr → Bool
  | .iadd _ => true
  | .isub _ => true
  | .iadd3 _ => true
  | .imul _ => true
  | .imulhS32 _ => true
  | .imulhN32 _ => true
  | .imad _ => true
  | .imadwS32 _ => true
  | .imadwN32 _ => true
  | .iminS32 _ => true
  | .iminN32 _ => true
  | .imaxS32 _ => true
  | .imaxN32 _ => true
  | .iabs _ => true
  | .shl _ => true
  | .shr _ => true
  | .sar _ => true
  | .rot _ => true
  | .andR _ => true
  | .orR _ => true
  | .xorR _ => true
  | .notR _ => true
  | .blut _ => true
  | .popc _ => true
  | .clz _ => true
  | .brev _ => true
  | .bfeN32 _ => true
  | .bfeS32 _ => true
  | .bfi _ => true
  | .sel _ => true
  | .lea _ => true
  | .icmp _ => true
  | .iaddImm _ => true
  | .imulImm _ => true
  | .andImm _ => true
  | .orImm _ => true
  | .xorImm _ => true
  | .shlImm _ => true
  | .shrImm _ => true
  | .sarImm _ => true
  | .icmpImm _ => true
  | .fadd _ => true
  | .faddRz _ => true
  | .faddRu _ => true
  | .faddRd _ => true
  | .fmul _ => true
  | .fmulRz _ => true
  | .fmulRu _ => true
  | .fmulRd _ => true
  | .ffma _ => true
  | .ffmaRz _ => true
  | .ffmaRu _ => true
  | .ffmaRd _ => true
  | .fmin _ => true
  | .fmax _ => true
  | .fcmp _ => true
  | .fclass _ => true
  | .frcp _ => true
  | .frsq _ => true
  | .fsqrt _ => true
  | .fdiv _ => true
  | .fex2 _ => true
  | .flg2 _ => true
  | .fsinpi _ => true
  | .fcospi _ => true
  | .hadd2F16 _ => true
  | .hmul2F16 _ => true
  | .hfma2F16 _ => true
  | .hadd2Bf16 _ => true
  | .hmul2Bf16 _ => true
  | .hfma2Bf16 _ => true
  | .cvt _ => true
  | .cvtRz _ => true
  | .cvtRu _ => true
  | .cvtRd _ => true
  | .pack _ => true
  | .unpack _ => true
  | .qblk _ => true
  | .dqblk _ => true
  | .bra _ => true
  | .brx f => !f.sc.getLsbD 0
  | .brxRel f => f.sc.getLsbD 0
  | .call _ => true
  | .ret f => f.sub != 1
  | .retH f => f.sub == 1
  | .exit _ => true
  | .yield _ => true
  | .rep _ => true
  | .repIteration _ _ => true
  | .lit _ => true
  | .nop _ => true
  | .trap _ => true
  | .brk _ => true
  | .rdsr _ => true
  | .wrsr _ => true
  | .pset f => f.sc != 1
  | .psetAll f => f.sc == 1
  | .plop _ => true
  | .mov _ => true
  | .movi _ => true
  | .ldix _ => true
  | .stix _ => true
  | .rng4 _ => true
  | .rdtime _ => true
  | .movwLane f => f.sub != 1
  | .movwFirst f => f.sub == 1
  | .movwToLane _ => true
  | .wadd _ => true
  | .wsub _ => true
  | .wmul _ => true
  | .wand _ => true
  | .wor _ => true
  | .wxor _ => true
  | .wshl _ => true
  | .wshr _ => true
  | .wmov _ => true
  | .wcmp _ => true
  | .waddImm _ => true
  | .wmovImm _ => true
  | .dualWord _ h0 h1 => assignedHop h0 && assignedHop h1
  | .ldLane _ _ => true
  | .ldUniform _ _ => true
  | .stLane _ _ => true
  | .stUniform _ _ => true
  | .lda _ _ => true
  | .str _ _ => true
  | .lds _ _ => true
  | .sts _ _ => true
  | .ldfrag _ => true
  | .stfrag _ => true
  | .pref _ => true
  | .fenceFull f => f.sub != 1
  | .fenceSig f => f.sub == 1
  | .atom _ => true
  | .atoms _ => true
  | .xlane _ => true
  | .pcons _ => true
  | .peers _ => true
  | .red _ => true
  | .redF32 _ => true
  | .scan _ => true
  | .scanF32 _ => true
  | .elect _ => true
  | .bar _ => true
  | .nbarArrive f => f.sub.extractLsb' 0 2 == 0
  | .nbarWait f => f.sub.extractLsb' 0 2 == 1
  | .nbarSync f => f.sub.extractLsb' 0 2 != 0 && f.sub.extractLsb' 0 2 != 1
  | .gbar _ => true
  | .monitor _ => true
  | .waitm _ => true
  | .monTimeout _ _ => true
  | .mshape _ => true
  | .mma _ => true
  | .mrd _ => true
  | .mwr _ => true
  | .mzero _ => true
  | .attn _ => true
  | .pgseal _ => true
  | .psel _ => true
  | .topk _ => true
  | .mergek _ => true
  | .selectorOperation cluster => clusterValid cluster
  | .nextt _ => true
  | .ckick _ => true
  | .cbset _ => true
  | .cbwait _ => true
  | .cqfence _ => true
  | .copyRequest core turn => coreIdValid core && decide (turn.queue < 4)
  | .tdep _ => true
  | .tcpy f => !f.a.getLsbD 7
  | .tcpyWait f => f.a.getLsbD 7
  | .ttak f => !f.a.getLsbD 7
  | .ttakWait f => f.a.getLsbD 7
  | .tupleSliceServe _ => true
  | .tupleReply _ => true
  | .tupleTimeout _ => true
  | .regionDrain slice _ => decide (slice < 128)
  | .sxinit _ => true
  | .sxapp _ => true
  | .sxqry _ => true
  | .sxtrim _ => true
  | .sxsave _ => true
  | .sxload _ => true
  | .sxUnitPerform _ => true
  | .dsweep _ => true
  | .pgrecall _ => true
  | .pgpin _ => true
  | .pgunpin _ => true
  | .pgdemote _ => true
  | .demotionEngineOp die => decide (die < 4)
  | .slotRetirePush _ => true
  | .launch _ => true
  | .ctokw _ => true
  | .ctokp _ => true
  | .faultRecordWrite _ => true
  | .memRequestPerform _ _ _ => true
  | .atomSlicePerform _ _ => true
  | .operationComplete _ => true
  | .epochBoundary => true
  | .patrolScrub _ => true
  | .warpFree _ _ => true
  | .launchDispatch => true
  | .blockPlacement _ => true
  | .captureMigration _ => true
  | .restore => true
  | .preemptCapture _ => true
  | .preemptForcedReset _ => true
  | .cmdPreempt _ => true
  | .cmdResume _ => true
  | .cmdReset _ => true
  | .cmdUnload _ _ => true
  | .cmdUnloadForced _ _ => true
  | .cmdInvalidate _ _ => true
  | .qwrWrite _ _ => true
  | .predDeadlineWrite _ _ _ => true
  | .faultRetry _ _ => true
  | .faultFatal _ _ => true
  | .memcfgLock _ _ => true
  | .nrseedWrite _ _ => true
  | .sxhWrite _ _ offset bytes => decide (offset.toNat + bytes.length ≤ 32)
  | .mrExtend _ => true
  | .attestRequest box _ => decide (box.toNat < 9)
  | .recoveryReboot _ => true
  | .keySlotLoad _ _ => true
  | .registerWrite reg _ => hostRegValid reg
  | .hostMemoryAccess _ => true
  | .peerStore _ _ bytes _ => decide (bytes.length = 1 ∨ bytes.length = 2 ∨ bytes.length = 4 ∨ bytes.length = 8 ∨ bytes.length = 16)
  | .peerDeposit _ _ bytes => decide (bytes.length = 64)
  | .eventRecordWrite _ => true
  | .moduleReset => true
  | .thermalTrip => true
  | .throttle _ => true
  | .debuggerResume _ => true
  | .softError _ => true
  | .unassignedOpcode w => unassignedWord w
  | .instructionFetchFault => true

end Sys2Proof
end

