-- ==== Sys2Proof/Machine/Mem.lean ====
section
/-!
DEFINITION. Device memory: locations (R289, R290), slices (R292), bytes, poison (R300), word ownership and the L1s
(R304, R314), signatures (R315 to R319), translation and TLBs (R399, R400), permissions, tuple backing store.
-/
namespace Sys2Proof.Machine

/-! ## Locations (R289 to R292) -/

/-- The HBM4E bytes of one die. -/
def hbmDie : Nat := 0x1800000000
/-- The LPDDR-6 bytes of one die. -/
def lpDie : Nat := 0x4000000000

/-- The location a PA names, as its die-local PA (R289, R290); none where it names none. -/
def location (pa : Nat) : Option Nat :=
  if pa < 0x6000000000 then some pa
  else if 0x8000000000 ≤ pa && pa < 0xE000000000 then
    let s := pa - 0x8000000000
    let g := s / 256
    some ((g % 4) * hbmDie + (g / 4) * 256 + s % 256)
  else if 0x10000000000 ≤ pa && pa < 0x20000000000 then some pa
  else none

/-- The home die of a location. -/
def locDie (loc : Nat) : Nat :=
  if loc < 0x10000000000 then loc / hbmDie else (loc - 0x10000000000) / lpDie

/-- The byte offset of a location in its die's memory. -/
def locOff (loc : Nat) : Nat :=
  if loc < 0x10000000000 then loc % hbmDie else (loc - 0x10000000000) % lpDie

/-- The location is in HBM4E. -/
def locHbm (loc : Nat) : Bool := decide (loc < 0x10000000000)

/-- The exclusive or of fields of five bits. -/
def xorAll : List Nat → Nat := List.foldl Nat.xor 0

/-- The global number of the home slice of a location (R292). -/
def homeSlice (loc : Nat) : Nat :=
  let o := locOff loc
  locDie loc * 32 + xorAll [bitsN o 11 7, bitsN o 16 12, bitsN o 21 17, bitsN o 26 22, bitsN o 31 27,
    bitsN o 36 32, bitsN o 41 37]

/-- The 128-byte line of a location (R291). -/
def lineOf (loc : Nat) : Nat := loc / 128

/-- Peer aperture: the port a PA lies in (R446). -/
def peerPort (pa : Nat) : Option Nat :=
  if 0x40000000000 ≤ pa && pa < 0x48000000000 then some ((pa - 0x40000000000) / 2 ^ 36) else none

/-! ## Cores and clusters (R2, R3, R130) -/

def coreDie (core : Nat) : Nat := core / 64
def coreLocal (core : Nat) : Nat := core % 64
/-- %class: 0 class N (dies 0 and 1), 1 class E (Table 0.1). -/
def dieClass (die : Nat) : Nat := if die < 2 then 0 else 1
def coreClass (core : Nat) : Nat := dieClass (coreDie core)
/-- %cluster of a core: four cores to a cluster (09_cluster.md). -/
def coreCluster (core : Nat) : Nat := coreDie core * 16 + coreLocal core / 4
def clusterDie (cl : Nat) : Nat := cl / 16
/-- The cores of a cluster, by cluster position. -/
def clusterCores (cl : Nat) : List Nat := (List.range 4).map (fun p => clusterDie cl * 64 + (cl % 16) * 4 + p)
/-- All cluster numbers, ascending. -/
def allClusters : List Nat := (List.range 64).filter clusterValid
def warpSlots (core : Nat) : Nat := if coreClass core = 0 then 64 else 48

/-! ## Bytes and poison -/

/-- What a byte nothing has written reads as: 0 (DESIGN CHOICE, log 1). -/
def memDefault : Byte := 0

/-- The canonical form of memory and of the tables kept beside it: addresses strictly rising, no entry equal to what an
unlisted address reads as. -/
def Memory.wf (m : MemSt) : Bool :=
  twf memDefault m.bytes && twf 0 m.owner && twf (⟨[], []⟩ : Sig) m.lineSig && twf 0 m.wcount

/-- A change of keys reaches the 2 MiB around a location (R453). Which entry of the key map is that unit's is not stated
(free, log 53). -/
def Scram.reaches (z : Scram) (loc : Nat) : Bool :=
  let e := Config.keymapEntry (loc / 2 ^ 21)
  match z.reach with
  | .entries l => l.contains e
  | .slot n base map => ofLeBytes [tget 0 map (base + 2 * e), tget 0 map (base + 2 * e + 1)] % 1024 == n
  | .moved => Config.freeBit 453 z.fresh (loc / 2 ^ 21)

/-- A change of keys reaches the byte, and nothing has written it since (R453). -/
def Scram.covers (z : Scram) (loc : Nat) : Bool := z.reaches loc && !z.written.contains loc

/-- A byte of device memory; unspecified after a change of its key. -/
def MemSt.byte (m : MemSt) (loc : Nat) : Byte :=
  match m.scram.find? (fun z => z.covers loc) with
  | some z => Config.freeByte 453 z.fresh loc
  | none => tget memDefault m.bytes loc

/-- n bytes from a location up, lowest first. -/
def MemSt.read (m : MemSt) (loc n : Nat) : List Byte := (List.range n).map (fun i => m.byte (loc + i))

/-- The number at n bytes from a location up (R5). -/
def MemSt.readN (m : MemSt) (loc n : Nat) : Nat := ofLeBytes (m.read loc n)

/-- Some 16-byte unit of the n bytes from a location up is poisoned (R300). -/
def MemSt.poisoned (m : MemSt) (loc n : Nat) : Bool :=
  m.poison.any (fun u => decide (u * 16 < loc + n) && decide (loc < u * 16 + 16))

/-- The units with an uncorrectable error among the n bytes become poisoned when the slice fills their line (R300). -/
def MemSt.fill (m : MemSt) (loc n : Nat) : MemSt :=
  let hit := m.bad.filter (fun u => decide (u / 8 ≥ lineOf loc) && decide (u / 8 ≤ lineOf (loc + n - 1)))
  { m with
    poison := hit.foldl (fun p u => if p.contains u then p else u :: p) m.poison
    bad := m.bad.filter (fun u => !hit.contains u)
    weak := m.weak.filter (fun u => !(decide (u / 8 ≥ lineOf loc) && decide (u / 8 ≤ lineOf (loc + n - 1)))) }

/-- The 4 KiB frames n bytes from a location up touch. -/
def framesOf (loc n : Nat) : List Nat :=
  if n = 0 then [] else (List.range ((loc + n - 1) / 4096 - loc / 4096 + 1)).map (loc / 4096 + ·)

/-- The 4-byte words that n bytes from a location up touch. -/
def wordsOf (loc n : Nat) : List Nat :=
  (List.range ((loc + n + 3) / 4 - loc / 4)).map (fun i => (loc / 4 + i) * 4)

/-- Write bytes from a location up: the words they replace are kept among those memory has held (R182, R305), and a
whole 16-byte unit written clears its poison (R300). -/
def MemSt.write (m : MemSt) (loc : Nat) (bs : List Byte) : MemSt :=
  { m with
    bytes := tsetMany memDefault m.bytes loc bs
    past := (wordsOf loc bs.length).map (fun w => (w, m.readN w 4)) ++ m.past
    scram := m.scram.map (fun z => { z with written := (List.range bs.length).map (loc + ·) ++ z.written })
    wcount := (framesOf loc bs.length).foldl (fun t f => tset 0 t f (tget 0 t f + 1)) m.wcount
    poison := m.poison.filter (fun u => !(decide (loc ≤ u * 16) && decide (u * 16 + 16 ≤ loc + bs.length)))
    bad := m.bad.filter (fun u => !(decide (loc ≤ u * 16) && decide (u * 16 + 16 ≤ loc + bs.length)))
    weak := m.weak.filter (fun u => !(decide (loc ≤ u * 16) && decide (u * 16 + 16 ≤ loc + bs.length))) }

/-- A whole 16-byte unit among the n bytes from a location up has been written: its poison goes (R300). -/
def MemSt.unpoison (m : MemSt) (loc n : Nat) : MemSt :=
  let whole (u : Nat) : Bool := decide (loc ≤ u * 16) && decide (u * 16 + 16 ≤ loc + n)
  { m with poison := m.poison.filter (fun u => !whole u), bad := m.bad.filter (fun u => !whole u), weak := m.weak.filter (fun u => !whole u) }

/-- What a reader that read at any moments since the first `since` values of `past` were replaced may have found: each 4-byte word
whole, as it stood at one of them (R305, log 62). -/
def seenSince (old : List (Nat × Nat)) (since fr : Nat) (now : Nat → Nat) : List (Nat × Nat) :=
  let news := old.take (old.length - since)
  ((news.map (·.1)).eraseDups).map (fun w =>
    let vs := now w :: (news.filter (fun e => e.1 == w)).map (·.2)
    (w, nth 0 vs (Config.freeNat 305 fr w % vs.length)))

/-- The memory such a reader finds. -/
def MemSt.asOf (m : MemSt) (fr since : Nat) : MemSt :=
  { m with bytes := (seenSince m.past since fr (fun w => m.readN w 4)).foldl (fun t e =>
      tsetMany memDefault t e.1 (leBytes 4 e.2)) m.bytes }

/-! ## Signatures (R315 to R318) -/

def insertNat (x : Nat) : List Nat → List Nat
  | [] => [x]
  | y :: r => if x < y then x :: y :: r else if x = y then y :: r else y :: insertNat x r

def unionNat (a b : List Nat) : List Nat := a.foldl (fun acc x => insertNat x acc) b

def Sig.add (g : Sig) (line : Nat) : Sig := { g with cur := insertNat line g.cur }
/-- OR of both banks. -/
def Sig.or (g h : Sig) : Sig := ⟨unionNat g.cur h.cur, unionNat g.prev h.prev⟩
def Sig.has (g : Sig) (line : Nat) : Bool := g.cur.contains line || g.prev.contains line
/-- previous := current, current := empty (R318). -/
def Sig.shift (g : Sig) : Sig := ⟨[], g.cur⟩

/-! ## L1 and ownership (R304, R314) -/

/-- The core that owns a 4-byte word, if any. -/
def MemSt.ownerOf (m : MemSt) (loc : Nat) : Option Nat :=
  let o := tget 0 m.owner (loc / 4 * 4)
  if o = 0 then none else some (o - 1)

/-- The L1 copy a core holds of a 4-byte word. -/
def MemSt.l1Get (m : MemSt) (core loc : Nat) : Option Word :=
  (m.l1.find? (fun e => e.core == core && e.loc == loc / 4 * 4)).map (·.val)

def MemSt.l1Drop (m : MemSt) (core loc : Nat) : MemSt :=
  { m with l1 := m.l1.filter (fun e => !(e.core == core && e.loc == loc / 4 * 4)) }

/-- The core's L1 takes the word as it stands at the slice; of a poisoned unit it keeps none, so that every load of it meets the
poison (R300). -/
def MemSt.l1Fill (m : MemSt) (core loc : Nat) : MemSt :=
  let w := loc / 4 * 4
  let m' := m.l1Drop core w
  if m.poisoned w 4 then m'
  else { m' with l1 := ⟨core, w, BitVec.ofNat 32 (m.readN w 4), 0⟩ :: m'.l1 }

/-- Invalidate in a core's L1 every word it does not own for which p holds of its line. -/
def MemSt.l1Invalidate (m : MemSt) (core : Nat) (p : Nat → Bool) : MemSt :=
  { m with l1 := m.l1.filter (fun e =>
      !(e.core == core && p (lineOf e.loc) && (m.ownerOf e.loc != some core))) }

/-- Register the ownership of a written word (R314): the previous owner drops its copy, the writing core (none for an
agent that is no core) owns it and holds it. -/
def MemSt.own (m : MemSt) (core : Option Nat) (w : Nat) : MemSt :=
  let m1 := match m.ownerOf w with
    | some c => m.l1Drop c w
    | none => m
  match core with
  | some c => ({ m1 with owner := tset 0 m1.owner w (c + 1) }).l1Fill c w
  | none => { m1 with owner := tset 0 m1.owner w 0 }

/-- A write performed at the slices by a core, or by an agent that is no core: bytes, then ownership (R303, R314). -/
def MemSt.perform (m : MemSt) (core : Option Nat) (loc : Nat) (bs : List Byte) : MemSt :=
  (wordsOf loc bs.length).foldl (fun m w => m.own core w) (m.write loc bs)

/-- The signature attached to a line (R316). -/
def MemSt.attached (m : MemSt) (line : Nat) : Sig := tget Sig.empty m.lineSig line

def MemSt.attach (m : MemSt) (line : Nat) (g : Sig) : MemSt :=
  { m with lineSig := tset Sig.empty m.lineSig line ((m.attached line).or g) }

/-! ## Translation (R399, R400) -/

/-- What an access needs of a translation (R399). -/
inductive Need where
  | read | write | rmw | fetch
  deriving DecidableEq, Repr

/-- What a walk finds: no translation; a malformed entry (MEM_PROT); or a frame with its permissions X W R. -/
inductive Walk where
  | none
  | prot
  | ok (frame : Nat) (perms : BitVec 3) (tuple : Bool)
  deriving DecidableEq, Repr

/-- The bits of the table index at a level (R399). -/
def levelShift (lev : Nat) : Nat := 48 - 9 * lev

/-- The frame lies in memory: HBM4E (either range) or LPDDR-6. -/
def frameInMemory (pa : Nat) : Bool := (location pa).isSome

/-- Where entry `idx` of the table at a PA lies (R289, R290); none where the PA names no location. -/
def entryLoc (table idx : Nat) : Option Nat := location (table + 8 * idx)

/-- The level-4 entry that translates an access, of a table whose 16 aligned entries around `idx` lie from location t up: entry
`idx`, or, where it or another of the 16 has P64 = 1 and they differ, any of the 16 (R399; free). -/
def pageEntry (m : MemSt) (fr t idx : Nat) : Nat :=
  let es := (List.range 16).map (fun i => m.readN (t + 8 * i) 8)
  let e := nth 0 es (idx % 16)
  if es.any (fun x => bitN x 0 && bitN x 10) && es.any (fun x => x != e) then nth 0 es (Config.freeNat 399 fr idx % 16) else e

/-- Walk from the table at `table` down the levels lev, lev + 1, … , `fuel` of them left (R399, Table 14.7); a level-4 frame in a
peer aperture is mapped with W = 1 only (R446). -/
def walkFrom (m : MemSt) (fr va : Nat) : Nat → Nat → Nat → Walk
  | 0, _, _ => .prot
  | fuel + 1, lev, table =>
    let idx := if lev = 0 then bitsN va 51 48 else bitsN va (levelShift lev + 8) (levelShift lev)
    match entryLoc table (if lev = 4 then idx / 16 * 16 else idx) with
    | none => .prot
    | some t =>
      let e := if lev = 4 then pageEntry m fr t idx else m.readN t 8
      let frame := bitsN e 51 12 * 4096
      let p64 := bitN e 10
      let leaf := bitN e 9
      if !bitN e 0 then .none
      else if bitsN e 63 52 != 0 || bitsN e 8 4 != 0 then .prot
      else if leaf && (lev = 0 || lev = 1 || lev = 4) then .prot
      else if p64 && lev < 4 then .prot
      else if lev = 4 then
        let size := if p64 then 65536 else 4096
        if frame % size != 0 then .prot
        else if !(frameInMemory frame || ((peerPort frame).isSome && bitsN e 3 1 == 2)) then .prot
        else .ok (frame + (va % size) / 4096 * 4096) (BitVec.ofNat 3 (bitsN e 3 1)) (bitN e 11)
      else if leaf then
        let size := 2 ^ levelShift lev
        if frame % size != 0 then .prot
        else if !frameInMemory frame then .prot
        else .ok (frame + (va % size) / 4096 * 4096) (BitVec.ofNat 3 (bitsN e 3 1)) (bitN e 11)
      else if !frameInMemory frame then .prot
      else walkFrom m fr va fuel (lev + 1) frame

/-- The walk of a context's tables for a VA; a context with CPTc.V = 0 has no translation (R394). -/
def State.walk (s : State) (ctx va : Nat) : Walk :=
  let cpt := (tget 0 s.host.cpt ctx).toNat
  if bitN cpt 0 then walkFrom s.mem s.fresh va 5 0 (bitsN cpt 51 12 * 4096) else .none

/-- A location whose die's HBM4E still holds every request, as its LOCK = 0 (R296). -/
def State.heldLoc (s : State) (loc : Nat) : Bool := locHbm loc && !(nth DieSt.reset s.dies (locDie loc)).lock

/-- Every die's HBM4E takes requests. -/
def State.hbmReady (s : State) : Bool := s.dies.all (·.lock)

/-- Where the entries lie that a walk from a table reads. -/
def walkLocs (m : MemSt) (va : Nat) : Nat → Nat → Nat → List Nat
  | 0, _, _ => []
  | fuel + 1, lev, table =>
    match entryLoc table (if lev = 0 then bitsN va 51 48 else bitsN va (levelShift lev + 8) (levelShift lev)) with
    | none => []
    | some e =>
      let d := m.readN e 8
      if bitN d 0 && !bitN d 9 then e :: walkLocs m va fuel (lev + 1) (bitsN d 51 12 * 4096) else [e]

/-- The walk of a VA reads an entry that is held (R296). -/
def State.walkHeld (s : State) (ctx va : Nat) : Bool :=
  let cpt := (tget 0 s.host.cpt ctx).toNat
  bitN cpt 0 && (walkLocs s.mem va 5 0 (bitsN cpt 51 12 * 4096)).any s.heldLoc

/-- The translation a cluster's cores use: what a TLB keeps of the page, or the walk; which one of two that differ is
free (R400). Engines, slices and the command processor walk (cluster none). -/
def State.translate (s : State) (cluster : Option Nat) (ctx va : Nat) : Walk :=
  let now := s.walk ctx va
  match cluster with
  | none => now
  | some cl =>
    let olds := (s.mem.tlb.filter (fun e => e.ctx == ctx * 64 + cl && e.vpn == va / 4096)).map
      (fun e => Walk.ok e.frame e.perms e.tuple)
    match olds.filter (· != now) with
    | [] => now
    | o :: rest => nth now (now :: o :: rest) (Config.freeNat 400 s.fresh (va / 4096) % (rest.length + 2))

/-- An access of an engine, a slice or the command processor to n bytes of a context's memory waits: a line of them, or an entry
of its walk, lies in the HBM4E of a die whose LOCK is 0 (R296). -/
def State.vaHeld (s : State) (ctx va n : Nat) : Bool :=
  !s.hbmReady && (List.range ((va + n + 127) / 128 - va / 128)).any (fun i =>
    let a := max va ((va / 128 + i) * 128)
    s.walkHeld ctx a || (match s.translate none ctx a with
      | .ok frame _ _ => (location (frame + a % 4096)).any s.heldLoc
      | _ => false))

/-- Some of these accesses (address, bytes) waits. -/
def State.anyHeld (s : State) (ctx : Nat) (l : List (Nat × Nat)) : Bool := l.any (fun x => s.vaHeld ctx x.1 x.2)

/-- The words of a context's tables, from the table at `table` down the levels lev, lev + 1, … , `fuel` of them left. -/
def tableWords (m : MemSt) : Nat → Nat → Nat → List Nat
  | 0, _, _ => []
  | fuel + 1, lev, table =>
    (List.range (if lev = 0 then 16 else 512)).flatMap (fun i =>
      match entryLoc table i with
      | none => []
      | some e =>
        let d := m.readN e 8
        [e, e + 4] ++ (if bitN d 0 && !bitN d 9 && decide (lev < 4) then tableWords m fuel (lev + 1) (bitsN d 51 12 * 4096) else []))

/-- What a reader may still find in a context's tables is what they hold now: no later access uses the old ones (R400). -/
def State.settleTables (s : State) (ctx : Nat) : State :=
  let cpt := (tget 0 s.host.cpt ctx).toNat
  let ws := if bitN cpt 0 && !s.mem.past.isEmpty then tableWords s.mem 5 0 (bitsN cpt 51 12 * 4096) else []
  { s with mem := { s.mem with past := s.mem.past.map (fun e => if ws.contains e.1 then (e.1, s.mem.readN e.1 4) else e) } }

/-- A cluster's TLB keeps the translation found for a page. -/
def State.tlbKeep (s : State) (cluster ctx va : Nat) : Walk → State
  | .ok frame perms tuple =>
    let e : TlbEntry := ⟨ctx * 64 + cluster, va / 4096, frame, perms, tuple⟩
    if s.mem.tlb.contains e then s else { s with mem := { s.mem with tlb := e :: s.mem.tlb } }
  | _ => s

/-- The permissions X W R of an entry grant what an access needs. -/
def permits (perms : BitVec 3) : Need → Bool
  | .read => perms.getLsbD 0
  | .write => perms.getLsbD 1
  | .rmw => perms.getLsbD 0 && perms.getLsbD 1
  | .fetch => perms.getLsbD 2

/-- What became of an address. -/
inductive Access where
  /-- no translation: MEM_FAULT -/
  | fault
  /-- MEM_PROT -/
  | prot
  /-- a location of device memory -/
  | mem (loc : Nat)
  /-- a byte of a peer aperture: port, offset (R446) -/
  | peer (port off : Nat)
  deriving DecidableEq, Repr

/-- The bytes of the key map: a 16-bit entry for each 2 MiB of each die's two memories, from KEYMAPBASE up in die 0's HBM4E. -/
def keymapBytes : Nat := 4 * ((hbmDie + lpDie) / 2 ^ 21) * 2

def State.inKeymap (s : State) (loc : Nat) : Bool :=
  decide (s.trust.keymap.toNat ≤ loc) && decide (loc < s.trust.keymap.toNat + keymapBytes)

/-- BOOTSTAT's value in RECOVERY, and READY (R450). -/
def bootRecovery : Word := 2
def bootReady : Word := 3

/-- The location holds the key map, once the firmware has loaded it: no context reaches it (R450, R453). -/
def State.keymapHeld (s : State) (loc : Nat) : Bool := s.trust.bootstat == bootReady && s.inKeymap loc

/-- Check 4 and 5 of Table 6.3 for one address: translation, permission, tuple regions, the kind of PA, the key map (R453).
`tuple` is the tuple home slice's own access. -/
def State.access (s : State) (cluster : Option Nat) (ctx va : Nat) (need : Need) (tuple : Bool := false) : Access :=
  if 2 ^ 52 ≤ va then .prot
  else match s.translate cluster ctx va with
  | .none => .fault
  | .prot => .prot
  | .ok frame perms isTuple =>
    if isTuple && !tuple then .prot
    else if !permits perms need then .prot
    else match location (frame + va % 4096) with
      | some loc => if s.keymapHeld loc then .prot else .mem loc
      | none => match peerPort frame with
        | some p => if need = .write then .peer p ((frame + va % 4096) % 2 ^ 36) else .prot
        | none => .prot

/-- Read n bytes of a context's memory as an engine or the command processor does (R304, R321), page by page: the bytes,
or the first failing byte's address with whether translation was missing. -/
def State.readVa (s : State) (cluster : Option Nat) (ctx va : Nat) : Nat → Except (Bool × Nat) (List Byte)
  | 0 => .ok []
  | n + 1 =>
    match s.access cluster ctx va .read with
    | .mem loc =>
      match s.readVa cluster ctx (va + 1) n with
      | .ok bs => .ok (s.mem.byte loc :: bs)
      | .error e => .error e
    | .fault => .error (true, va)
    | _ => .error (false, va)

/-- Some byte of n bytes of a context's memory lies in a poisoned or uncorrectable unit (R300). -/
def State.vaPoisoned (s : State) (cluster : Option Nat) (ctx va n : Nat) : Bool :=
  (List.range n).any (fun i => match s.access cluster ctx (va + i) .read with
    | .mem loc => s.mem.poisoned loc 1 || s.mem.bad.contains (loc / 16)
    | _ => false)

/-- A number of n bytes of a context's memory, if all of them translate. -/
def State.readVaN (s : State) (cluster : Option Nat) (ctx va n : Nat) : Option Nat :=
  match s.readVa cluster ctx va n with
  | .ok bs => some (ofLeBytes bs)
  | .error _ => none

end Sys2Proof.Machine
end

