-- ==== Sys2Proof/Machine/Ops.lean ====
section
/-!
DEFINITION. The named operations over the state: blocks and warps, writes at the slices with the watches they trigger
(R214), acquires (R317), the command processor's writes, interrupts (R445), barriers (R262, R263), the grid barrier
(R368), the commit token (R360), block aborts (R148, R378), taking an exception (R135, Table 3.18) and returning from a
handler (R136).
-/
namespace Sys2Proof.Machine

/-! ## Blocks, warps, launches -/

def State.block? (s : State) (b : Nat) : Option Block := s.blocks.find? (fun x => x.uid == b)

def State.setBlock (s : State) (B : Block) : State :=
  { s with blocks := s.blocks.map (fun x => if x.uid = B.uid then B else x) }

def Block.setWarp (B : Block) (W : Warp) : Block := { B with warps := B.warps.set W.idx W }

/-- The warp at an index of a block. -/
def Block.warp? (B : Block) (w : Nat) : Option Warp := (B.warps[w]?).map (fun W => { W with idx := w })

/-- The warps of a block, each with its place. -/
def Block.warpList (B : Block) : List Warp := B.warps.zipIdx.map (fun p => { p.1 with idx := p.2 })

def State.warp? (s : State) (b w : Nat) : Option Warp := (s.block? b).bind (fun B => B.warp? w)

def State.setWarp (s : State) (b : Nat) (W : Warp) : State :=
  { s with blocks := s.blocks.map (fun x => if x.uid = b then x.setWarp W else x) }

/-- Change one warp, if it is there. -/
def State.modWarp (s : State) (b w : Nat) (f : Warp → Warp) : State :=
  match s.warp? b w with
  | some W => s.setWarp b (f W)
  | none => s

def State.modBlock (s : State) (b : Nat) (f : Block → Block) : State :=
  { s with blocks := s.blocks.map (fun x => if x.uid = b then f x else x) }

def State.launch? (s : State) (l : Nat) : Option Launch := s.launches.find? (fun x => x.uid == l)

def State.modLaunch (s : State) (l : Nat) (f : Launch → Launch) : State :=
  { s with launches := s.launches.map (fun x => if x.uid = l then f x else x) }

def State.core (s : State) (c : Nat) : CoreSt := tget CoreSt.reset s.cores c

def State.modCore (s : State) (c : Nat) (f : CoreSt → CoreSt) : State :=
  { s with cores := tset CoreSt.reset s.cores c (f (s.core c)) }

def State.subp (s : State) (k : Nat) : SubpSt := tget SubpSt.reset s.subps k

def State.modSubp (s : State) (k : Nat) (f : SubpSt → SubpSt) : State :=
  { s with subps := tset SubpSt.reset s.subps k (f (s.subp k)) }

def State.die (s : State) (d : Nat) : DieSt := nth DieSt.reset s.dies d

def State.modDie (s : State) (d : Nat) (f : DieSt → DieSt) : State := { s with dies := s.dies.modify d f }

/-- The sub-partition of a warp: slot mod 4 (R138), as a key over all cores. -/
def Warp.subp (W : Warp) : Nat := W.slot % 4
def Warp.subpKey (W : Warp) : Nat := W.core * 4 + W.subp

/-- The cycle count of the die a core lies on (R130). -/
def State.clockOf (s : State) (core : Nat) : Nat := (s.die (coreDie core)).clock

/-- The thread of a lane. -/
def Warp.thread (W : Warp) (l : Nat) : Thread := (W.threads[l]?).getD Thread.reset

/-- The threads of a warp for which p holds, as a mask. -/
def Warp.maskWhere (W : Warp) (p : Thread → Bool) : Mask := maskOf (fun l => p (W.thread l))

/-- Every thread of a warp changed by its lane. -/
@[irreducible] def mapLanes (f : Nat → Thread → Thread) (ts : Vector Thread 32) : Vector Thread 32 :=
  Vector.ofFn (fun l => f l.val ts[l])

/-- Change every thread. -/
def Warp.mapThreads (W : Warp) (f : Nat → Thread → Thread) : Warp := { W with threads := mapLanes f W.threads }

/-- Change the threads of a mask. -/
def Warp.modThreads (W : Warp) (m : Mask) (f : Thread → Thread) : Warp :=
  W.mapThreads (fun l t => if m.getLsbD l then f t else t)

def Thread.exited (t : Thread) : Bool := t.status == .exited

/-- Every thread of the warp has exited. -/
def Warp.allExited (W : Warp) : Bool := (List.range 32).all (fun l => (W.thread l).exited)

def Block.aborted (B : Block) : Bool :=
  match B.halt with
  | some (.abort _) => true
  | _ => false

/-- The block is frozen for a capture, or not yet restored from one. -/
def Block.captured (B : Block) : Bool :=
  match B.halt with
  | some (.capture _) => true
  | some (.restoring _) => true
  | _ => false

/-- Every core's L1 drops by a signature, and the warp's own signature takes it in: an acquire (R317). -/
def State.acquire (s : State) (b w : Nat) (g : Sig) : State :=
  match s.warp? b w with
  | none => s
  | some W =>
    ({ s with mem := s.mem.l1Invalidate W.core g.has } : State).setWarp b { W with sig := W.sig.or g }

/-- The L1s of some cores drop by a signature, as for an acquire (R317). -/
def MemSt.l1Acquire (m : MemSt) (cores : List Nat) (g : Sig) : MemSt := cores.foldl (fun m c => m.l1Invalidate c g.has) m

/-! ## Writes at the slices, and the watches they trigger -/

/-- Wake the threads of a warp parked for a reason. -/
def Warp.wake (W : Warp) (k : ParkKind) : Warp :=
  W.mapThreads (fun _ t => if t.status = .parked k then { t with status := .eligible } else t)

def Warp.anyParked (W : Warp) (k : ParkKind) : Bool := (List.range 32).any (fun l => (W.thread l).status == .parked k)

/-- The warp's WAITM timeout has ended: in the cycle it ends in a trigger still comes first (R215). -/
def State.overdue (s : State) (W : Warp) : Bool :=
  W.anyParked .waitm && (match W.mon.deadline with
    | some d => decide (d < s.clockOf W.core)
    | none => false)

/-- TRIG := 1 in one warp; threads parked at WAITM whose timeout has not ended first wake, which is an acquire of the line's
signature (R215, R216). -/
def State.trigger (s : State) (b w line : Nat) : State :=
  match s.warp? b w with
  | none => s
  | some W =>
    if W.anyParked .waitm && !s.overdue W then
      let W' := W.wake .waitm
      (s.setWarp b { W' with mon := { W'.mon with trig := true, armed := false, deadline := none } }).acquire b w
        (s.mem.attached line)
    else s.setWarp b { W with mon := { W.mon with trig := true } }

/-- The block is seated after a capture and not yet restored: its watches are still to be registered (R356). -/
def Block.restoring (B : Block) : Bool :=
  match B.halt with
  | some (.restoring _) => true
  | _ => false

/-- The warps (block, index) whose watch is registered on a line. -/
def State.watchers (s : State) (line : Nat) : List (Nat × Nat) :=
  (s.blocks.filter (fun B => !B.restoring)).flatMap (fun B => B.warps.filterMap (fun W =>
    if W.mon.watch = some line then some (B.uid, W.idx) else none))

/-- A write to these lines sets TRIG in every warp watching one of them (R214). -/
def State.triggerLines (s : State) (lines : List Nat) : State :=
  lines.foldl (fun s line => (s.watchers line).foldl (fun s bw => s.trigger bw.1 bw.2 line) s) s

/-- The lines n bytes from a location up touch. -/
def linesOf (loc n : Nat) : List Nat :=
  if n = 0 then [] else (List.range ((loc + n - 1) / 128 - loc / 128 + 1)).map (fun i => loc / 128 + i)

/-- A write performed at the home slice by an agent that is no core (R302, R214, R314). -/
def State.writeLoc (s : State) (loc : Nat) (bs : List Byte) : State :=
  ({ s with mem := s.mem.perform none loc bs } : State).triggerLines (linesOf loc bs.length)

/-- A write performed at the home slice for a warp: its core owns the words, and the line joins SIGW (R314, R315). A releasing
one attaches the signature to its line in the same step, so that a wake it causes acquires it (R216, R316). -/
def State.warpWrite (s : State) (b w loc : Nat) (bs : List Byte) (rel : Bool := false) : State :=
  match s.warp? b w with
  | none => s.writeLoc loc bs
  | some W =>
    let sig := (linesOf loc bs.length).foldl Sig.add W.sig
    let m := s.mem.perform (some W.core) loc bs
    let s1 : State := { s with mem := if rel then m.attach (lineOf loc) sig else m }
    (s1.setWarp b { W with sig := sig }).triggerLines (linesOf loc bs.length)

/-- Write bytes at a VA as an engine or the command processor does (R399): all of them, or none and the failing byte's
address with whether translation was missing. -/
def State.locsOf (s : State) (cluster : Option Nat) (ctx va : Nat) (need : Need) : Nat → Except (Bool × Nat) (List Nat)
  | 0 => .ok []
  | n + 1 =>
    match s.access cluster ctx va need with
    | .mem loc =>
      match s.locsOf cluster ctx (va + 1) need n with
      | .ok ls => .ok (loc :: ls)
      | .error e => .error e
    | .fault => .error (true, va)
    | _ => .error (false, va)

/-- Group bytes at consecutive locations into runs. -/
def runsOf : List (Nat × Byte) → List (Nat × List Byte)
  | [] => []
  | (l, b) :: r =>
    match runsOf r with
    | (l', bs) :: rest => if l + 1 = l' then (l, b :: bs) :: rest else (l, [b]) :: (l', bs) :: rest
    | [] => [(l, [b])]

def State.writeVa (s : State) (cluster : Option Nat) (ctx va : Nat) (bs : List Byte) : Except (Bool × Nat) State :=
  match s.locsOf cluster ctx va .write bs.length with
  | .error e => .error e
  | .ok ls => .ok ((runsOf (ls.zip bs)).foldl (fun s r => s.writeLoc r.1 r.2) s)

def State.logVa (s : State) (ctx va : Nat) : State := { s with telemetry := s.telemetry ++ [(ctx, va)] }

/-! ## Telemetry and events (R454, R456) -/

/-- Count in a group of lifetime counters (Table 17.6), staying at the greatest value. -/
def countLife (life : Tab Dword) (group index : Nat) : Tab Dword :=
  let k := 65536 * group + index
  tset 0 life k (BitVec.ofNat 64 (min ((tget 0 life k).toNat + 1) (2 ^ 64 - 1)))

def State.count (s : State) (group index : Nat) : State :=
  { s with tel := { s.tel with life := countLife s.tel.life group index } }

/-- The sources of events, as the model numbers them: slices, cores, die controllers, the command processor, ports. -/
def srcSlice (slice : Nat) : Nat := slice
def srcCore (core : Nat) : Nat := 256 + core
def srcDie (die : Nat) : Nat := 512 + die

/-- The ring takes records: EN = 1 with a size it enables with. -/
def TelSt.ringOn (t : TelSt) : Bool := t.evctl.getLsbD 7 && decide (4 ≤ t.evctl.toNat % 32) && decide (t.evctl.toNat % 32 ≤ 20)

/-- EVWR − EVRD = 2^SIZE modulo 2^32. -/
def TelSt.ringFull (t : TelSt) : Bool := (t.evwr - t.evrd).toNat == 2 ^ (t.evctl.toNat % 32)

/-- A source has an event: held with the next SEQ, or counted in LOST when 16 are held and the ring is full or off. Its code and
argument are not stated (free). -/
def State.raiseEvent (s : State) (src : Nat) : State :=
  let e := tget EvSource.reset s.tel.sources src
  let rec' : EvRec := ⟨src, e.seq, s.time, BitVec.ofNat 64 (Config.freeNat 456 s.fresh (2 * src)),
    BitVec.ofNat 64 (Config.freeNat 456 s.fresh (2 * src + 1))⟩
  let e1 := if 16 ≤ e.held.length && (!s.tel.ringOn || s.tel.ringFull) then { e with lost := e.lost + 1 }
    else { e with held := e.held ++ [rec'], seq := e.seq + 1 }
  { s with tel := { s.tel with sources := tset EvSource.reset s.tel.sources src e1 } }

/-- The single-bit errors corrected in a warp's registers and tiles are added to its core's count (R160). -/
def State.addFixed (s : State) (W : Warp) : State :=
  { s with tel := { s.tel with corrected := tset 0 s.tel.corrected W.core (tget 0 s.tel.corrected W.core + W.fixed) } }

/-- Every single-bit error of a warp is corrected. -/
def Warp.healAll (W : Warp) : Warp :=
  { W with fixed := W.fixed + W.weakV.length + W.weakW.length + W.weakAcc.length, weakV := [], weakW := [], weakAcc := [] }

/-- The single-bit errors corrected in a core's storage: those counted, and those its warps still hold (R160, R454). -/
def State.correctedOn (s : State) (core : Nat) : Nat :=
  tget 0 s.tel.corrected core + sumNat (s.blocks.flatMap (fun B => (B.warps.filter (fun W => W.core == core)).map (·.fixed)))

/-! ## What a slice does when it fills a line (R300, R301) -/

/-- Stack (of the die's two) and pseudo-channel of a die's HBM4E offset (R295). -/
def channelOf (ms : List Dword) (o : Nat) : Nat × Nat :=
  let bit (k : Nat) : Nat := parity (Nat.land o (nth 0 ms k).toNat)
  (bit 6, sumNat ((List.range 6).map (fun k => bit k * 2 ^ k)))

/-- The counts that activates keep: the activates and the refreshes of a die, and the lifetime counters. -/
abbrev ActCounts := Tab Nat × Tab Nat × Tab Dword

/-- An activate on pseudo-channel c of stack x of a die, and the refresh that accompanies it or not (R301); `i` tells the draws
of the hardware's random source apart. -/
def DieSt.actOne (d : DieSt) (fr die x c i : Nat) (t : ActCounts) : ActCounts :=
  let key := 64 * x + c
  let n := tget 0 t.1 key + 1
  let stack := 2 * die + x
  let drawn := if d.nrTest then
      (let r := (philox (BitVec.ofNat 32 n) (BitVec.ofNat 32 c) (BitVec.ofNat 32 stack) 0 d.nrSeed (BitVec.ofNat 32 die)).1
       r.toNat % 2 ^ d.nrP.toNat == 0)
    else d.nrP == 0 || Config.freeBit 301 fr i
  (tset 0 t.1 key n, if drawn then tset 0 t.2.1 x (tget 0 t.2.1 x + 1) else t.2.1, if drawn then countLife t.2.2 5 stack else t.2.2)

/-- n activates on free pseudo-channels of a die (log 60). -/
def DieSt.actMany (d : DieSt) (fr die : Nat) : Nat → ActCounts → ActCounts
  | 0, t => t
  | n + 1, t =>
    let k := Config.freeNat 303 fr (4 * n + die) % 128
    d.actMany fr die n (d.actOne fr die (k / 64) (k % 64) (2 ^ 48 * (n + 1) + die) t)

/-- A die's counts, and the lifetime counters, become these. -/
def State.setActs (s : State) (die : Nat) (t : ActCounts) : State :=
  { s.modDie die (fun d => { d with acts := t.1, refreshes := t.2.1 }) with tel := { s.tel with life := t.2.2 } }

def State.actCounts (s : State) (die : Nat) : ActCounts := ((s.die die).acts, (s.die die).refreshes, s.tel.life)

/-- An activate, if there is one, on an HBM4E location's pseudo-channel (R301). -/
def State.activate (s : State) (loc : Nat) (on : Bool := true) : State :=
  let die := locDie loc
  let d := s.die die
  let sc := channelOf d.hashm (locOff loc)
  s.setActs die (if on then d.actOne s.fresh die sc.1 sc.2 loc (s.actCounts die) else s.actCounts die)

/-- A corrected DRAM error is counted by stack and channel; the channel of an LPDDR-6 location is not stated (free). -/
def State.countCorrected (s : State) (loc : Nat) : State :=
  if locHbm loc then
    let sc := channelOf (s.die (locDie loc)).hashm (locOff loc)
    s.count 0 ((2 * locDie loc + sc.1) * 64 + sc.2)
  else s.count 1 (12 * locDie loc + Config.freeNat 300 s.fresh loc % 12)

/-- The slices fill the lines of n bytes: an uncorrectable error found is counted on its die and its unit becomes poisoned, a
correctable one is counted (R300, R454). Whether the fill activates a row of HBM4E, which depends on what the slice and the bank
hold, is not stated (free, log 60). -/
def State.fill (s : State) (loc n : Nat) : State :=
  let met (u : Nat) : Bool := decide (u / 8 ≥ lineOf loc) && decide (u / 8 ≤ lineOf (loc + n - 1))
  let s1 : State := { s with mem := s.mem.fill loc n }
  let s2 := (s.mem.bad.filter met).foldl (fun s u => s.count 2 (locDie (16 * u))) s1
  let s3 := (s.mem.weak.filter met).foldl (fun s u =>
    (s.countCorrected (16 * u)).raiseEvent (srcSlice (homeSlice (16 * u)))) s2
  (linesOf loc n).foldl (fun s l => s.activate (128 * l) (locHbm (128 * l) && Config.freeBit 302 s.fresh l)) s3

/-- What the slices do beside the steps of this model, in the time a turn takes: their write-backs and fills, those of page walks
among them, activate rows of the dies that take requests, any number on any pseudo-channel, and may fill a line with an error (free,
log 60). -/
def State.slicesAct (s : State) : State :=
  let acts (s : State) (die : Nat) : State := s.setActs die (if (s.die die).lock then
    (s.die die).actMany s.fresh die (Config.freeNat 304 s.fresh die) (s.actCounts die) else s.actCounts die)
  ((s.mem.bad ++ s.mem.weak).filter (fun u => !s.heldLoc (16 * u))).foldl (fun s u =>
    if Config.freeBit 304 s.fresh u then s.fill (16 * u) 1 else s) ([0, 1, 2, 3].foldl acts s)

/-- The same for n bytes of a context's memory, as far as they translate. -/
def State.fillVa (s : State) (cluster : Option Nat) (ctx va n : Nat) : State :=
  ((List.range ((va + n + 127) / 128 - va / 128)).filterMap (fun i =>
    match s.access cluster ctx (max va ((va / 128 + i) * 128)) .read with
    | .mem loc => some loc
    | _ => none)).foldl (fun s loc => s.fill loc 1) s

/-! ## Interrupts and the abort ring -/

/-- Set a bit of HOSTIRQ; a bit going from 0 to 1 writes PEND to IRQADDR (R445; address 0 receives none). -/
def State.raiseIrq (s : State) (bit : Nat) : State :=
  if s.host.hostirq.getLsbD bit then s
  else
    let p := s.host.hostirq ||| BitVec.ofNat 6 (2 ^ bit)
    let msgs := if s.host.irqaddr = 0 then s.host.irqs else s.host.irqs ++ [(s.host.irqaddr, p)]
    { s with host := { s.host with hostirq := p, irqs := msgs } }

/-- x + 1 modulo 2^32, in a 64-bit register array. -/
def inc32 (x : Dword) : Dword := BitVec.ofNat 64 ((x.toNat + 1) % 2 ^ 32)

/-- x + 1, staying at the greatest 32-bit value. -/
def incSat32 (x : Dword) : Dword := BitVec.ofNat 64 (min (x.toNat + 1) (2 ^ 32 - 1))

/-- A record goes to the context's abort ring, or is counted as lost (R378); it waits behind others, or while its place is held
(R296). -/
def State.abortAppend (s : State) (ctx : Nat) (bytes : List Byte) : State :=
  let cabt := (tget 0 s.host.cabt ctx).toNat
  let ring := bitsN cabt 51 6 * 64
  let size := 2 ^ (cabt % 16 + 4)
  let wr := tget 0 s.host.abtWr ctx
  let rd := tget 0 s.host.abtRd ctx
  let va := ring + 64 * (wr.toNat % size)
  let lost (s : State) : State :=
    { s with host := { s.host with abtLost := tset 0 s.host.abtLost ctx (incSat32 (tget 0 s.host.abtLost ctx)) } }
  let full := decide ((wr.toNat + 2 ^ 32 - rd.toNat) % 2 ^ 32 = size)
  if s.host.abtHeld.any (fun e => e.1 == ctx) || (!full && s.vaHeld ctx va 64) then
    { s with host := { s.host with abtHeld := s.host.abtHeld ++ [(ctx, bytes)] } }
  else if full then lost s
  else
    if s.vaPoisoned none ctx va 64 then lost ((s.fillVa none ctx va 64).logVa ctx va)
    else match s.writeVa none ctx va bytes with
    | .error e => lost (s.logVa ctx e.2)
    | .ok s1 =>
      ({ s1 with host := { s1.host with abtWr := tset 0 s1.host.abtWr ctx (inc32 wr) } } : State).raiseIrq 1

/-- Append an abort record to the context's ring (R378). -/
def State.abortRecord (s : State) (ctx num cause logid warp : Nat) (pc addr aux : Nat) : State :=
  s.abortAppend ctx (leBytes 8 (num * 2 ^ 32 + cause) ++ leBytes 8 logid ++ leBytes 8 warp ++ leBytes 8 pc ++
    leBytes 8 addr ++ leBytes 8 aux ++ leBytes 16 0)

/-- The abort records that waited go on, in order, as far as their places are held no longer. -/
def State.flushAborts (s : State) : State :=
  s.host.abtHeld.foldl (fun s e => s.abortAppend e.1 e.2) { s with host := { s.host with abtHeld := [] } }

/-- A dword of a completion signal is written; a faulting write is dropped and logged (R377). It waits behind the context's others, or
while its place is held (R296). -/
def State.signalWrite (s : State) (ctx va : Nat) (bytes : List Byte) : State :=
  if s.host.sigHeld.any (fun e => e.1 == ctx) || s.vaHeld ctx va bytes.length then
    { s with host := { s.host with sigHeld := s.host.sigHeld ++ [(ctx, va, bytes)] } }
  else match s.writeVa none ctx va bytes with
    | .ok s1 => s1
    | .error e => s.logVa ctx e.2

/-- The signals that waited go on, in order, as far as their places are held no longer. -/
def State.flushSignals (s : State) : State :=
  s.host.sigHeld.foldl (fun s e => s.signalWrite e.1 e.2.1 e.2.2) { s with host := { s.host with sigHeld := [] } }

/-! ## Fault records (R177, R401) -/

/-- The pending record of a (memory page, kind) of a context: the one there is, or a new one. Its number is the model's;
the ID comes when the record is written to the ring. -/
def State.faultRecord (s : State) (ctx page kind launch core slot : Nat) : State × Nat :=
  match s.faults.find? (fun r => r.ctx == ctx && r.page == page && r.kind == kind) with
  | some r => (s, r.num)
  | none =>
    ({ s with
        faults := s.faults ++ [⟨s.nextUid, ctx, page, kind, launch, core, slot, none⟩]
        nextUid := s.nextUid + 1 }, s.nextUid)

/-- The kinds of a fault record. -/
def kindRead : Nat := 0
def kindWrite : Nat := 1
def kindFetch : Nat := 2
def kindAtomic : Nat := 3

/-- Hold a warp's word on one record per distinct memory page of these addresses (R177); `t` is what a fatal verdict
records. -/
def State.holdOn (s : State) (B : Block) (w kind : Nat) (vas : List Nat) (t : TrapRegs) : State :=
  match s.warp? B.uid w with
  | none => s
  | some W =>
    let num := ((s.launches.find? (fun x => x.uid == B.launch)).map (·.num)).getD 0
    let r := ((vas.map (· / 4096)).eraseDups).foldl (fun (acc : State × List (Nat × Nat)) page =>
      let q := acc.1.faultRecord B.ctx page kind num W.core W.slot
      (q.1, acc.2 ++ [(B.ctx, q.2)])) (s, [])
    r.1.setWarp B.uid { W with held := r.2, heldTrap := t }

/-! ## Operations of a warp (R178, R179) -/

/-- A word of group 4, CKICK, CBSET, CBWAIT or MONITOR (R179). -/
def OpKind.isMem : OpKind → Bool
  | .load _ _ _ _ => true
  | .store _ => true
  | .lds _ _ => true
  | .sts => true
  | .ldfrag _ _ _ _ => true
  | .stfrag => true
  | .fence _ => true
  | .atom _ _ _ _ => true
  | .atoms _ _ _ => true
  | .monitor _ => true
  | .ckick _ _ _ => true
  | .cbset _ _ => true
  | .cbwait _ _ _ => true
  | _ => false

/-- An operation that takes effect at its completion, not part by part. -/
def OpKind.atOnce : OpKind → Bool
  | .fence _ => true
  | .ckick _ _ _ => true
  | .cbset _ _ => true
  | .cbwait _ _ _ => true
  | _ => false

/-- The operation has been performed in every lane. -/
def Op.performed (o : Op) : Bool :=
  o.done || (!o.kind.atOnce && o.parts.all (·.done) && o.reqs.all (·.done))

/-- The operations of a warp issued before one. -/
def Warp.opsBefore (W : Warp) (id : Nat) : List Op := W.ops.takeWhile (fun o => o.id != id)

def Warp.op? (W : Warp) (id : Nat) : Option Op := W.ops.find? (fun o => o.id == id)

def Warp.modOp (W : Warp) (id : Nat) (f : Op → Op) : Warp :=
  { W with ops := W.ops.map (fun o => if o.id = id then f o else o) }

/-! ## The commit token (R360, R361) -/

/-- Warps of a block of the launch: T / L0, the product of the warp-bound extents (R374). -/
def levelOf (record : List Dword) (k : Nat) : Nat :=
  let d := (nth 0 record (2 + k / 2)).toNat
  if k % 2 = 0 then bitsN d 31 0 else bitsN d 63 32

def Launch.nlev (L : Launch) : Nat := bitsN (nth 0 L.record 1).toNat 51 48
def levelDom (lev : Nat) : Nat := bitsN lev 26 24
def levelExt (lev : Nat) : Nat := bitsN lev 23 0 + 1
def levelScope (lev : Nat) : Nat := bitsN lev 28 27

/-- The levels of a launch record, innermost first. -/
def levelsOf (record : List Dword) : List Nat :=
  (List.range (bitsN (nth 0 record 1).toNat 51 48)).map (levelOf record)

def prodNat : List Nat → Nat := List.foldl (· * ·) 1

/-- Warps per block: the product of the extents of the warp-bound levels (R373). -/
def warpsPerBlock (record : List Dword) : Nat :=
  prodNat (((levelsOf record).filter (fun l => levelDom l == 1)).map levelExt)

/-- The extent of the lane level (R374). -/
def laneExtent (record : List Dword) : Nat := levelExt (levelOf record 0)

def Launch.coop (L : Launch) : Bool := bitN (nth 0 L.record 1).toNat 63
def Launch.det (L : Launch) : Bool := bitN (nth 0 L.record 1).toNat 62
def Launch.checked (L : Launch) : Bool := bitN (nth 0 L.record 1).toNat 61
def Launch.handler (L : Launch) : Nat := bitsN (nth 0 L.record 8).toNat 51 0
def Launch.schedMode (L : Launch) : Nat := bitsN (nth 0 L.record 1).toNat 59 58

/-- A warp of the grid counts as exited (R360): its block has been freed, has aborted, or its threads have all exited. -/
def State.gridExited (s : State) (L : Launch) (logid w : Nat) : Bool :=
  L.freed.contains logid ||
  (s.blocks.any (fun B => B.launch == L.uid && B.logid == logid &&
    (B.aborted || ((B.warps[w]?).map Warp.allExited).getD true))) ||
  (s.images.any (fun m => m.blk.launch == L.uid && m.blk.logid == logid &&
    ((m.blk.warps[w]?).map Warp.allExited).getD true))

/-- The next warp in token order from linear index i on that has not exited. -/
def State.nextToken (s : State) (L : Launch) (per total : Nat) : Nat → Nat → Option (Nat × Nat)
  | 0, _ => none
  | fuel + 1, i =>
    let k := i % total
    if s.gridExited L (k / per) (k % per) then s.nextToken L per total fuel (i + 1)
    else some (k / per, k % per)

/-- The token stands at (logid, warp), carrying a signature; a warp parked at CTOKW there wakes and holds it (R363). -/
def State.tokenArrive (s : State) (L : Launch) (pos : Nat × Nat) (g : Sig) : State :=
  match s.blocks.find? (fun B => B.launch == L.uid && B.logid == pos.1) with
  | none => s.modLaunch L.uid (fun L => { L with token := ⟨some pos, false, g⟩ })
  | some B =>
    match B.warp? pos.2 with
    | none => s
    | some W =>
      if W.anyParked .token && !B.captured then
        ((s.modLaunch L.uid (fun L => { L with token := ⟨some pos, true, g⟩ })).setWarp B.uid (W.wake .token)).acquire
          B.uid pos.2 g
      else s.modLaunch L.uid (fun L => { L with token := ⟨some pos, false, g⟩ })

/-- Pass the token on from where it is, carrying a signature (R360): to the next warp in token order that has not
exited, wrapping; retired when every warp has exited. -/
def State.tokenPass (s : State) (l : Nat) (g : Sig) : State :=
  match s.launch? l with
  | none => s
  | some L =>
    match L.token.pos with
    | none => s
    | some (lb, lw) =>
      let per := max 1 (warpsPerBlock L.record)
      let total := max 1 (per * L.blocks)
      let fuel := min total (128 * (L.freed.length + s.blocks.length + s.images.length + 1))
      match s.nextToken L per total fuel (lb * per + lw + 1) with
      | none => s.modLaunch l (fun L => { L with token := ⟨none, false, Sig.empty⟩ })
      | some pos => s.tokenArrive L pos g

/-- What a pass still waits for (R363): a memory word not yet performed, a tuple word without its reply; and a NEXTT that has
not drawn or a LAUNCH not yet enqueued, whose order is the token's (R287, R387). -/
def Op.delaysPass (y : Op) : Bool :=
  (y.kind.isMem && !y.performed) || (match y.kind with
    | .tuple _ _ => true
    | .draw _ => true
    | .launch _ _ _ => true
    | _ => false)

/-- The pass of a warp that can be made now. -/
def Warp.duePass (W : Warp) : Option Op :=
  (W.ops.find? (fun y => y.kind == .pass && !y.done)).bind (fun y =>
    if (W.opsBefore y.id).any Op.delaysPass then none else some y)

/-- Make it: the token moves on with the warp's signature, and the operation is performed. -/
def State.settlePass (s : State) (b w : Nat) : State :=
  match s.block? b with
  | none => s
  | some B =>
    match B.warp? w with
    | none => s
    | some W =>
      match W.duePass with
      | none => s
      | some y => (s.setWarp b (W.modOp y.id (fun y => { y with done := true }))).tokenPass B.launch W.sig

/-- A warp issues its pass (R363): it stops holding the token. -/
def State.enterPass (s : State) (b w : Nat) (setf : Option Nat) (pc : BitVec 52) : State :=
  match s.block? b with
  | none => s
  | some B =>
    let id := s.nextUid
    let s1 := ({ s with nextUid := id + 1 } : State).modWarp b w (fun W =>
      { W with ops := W.ops ++ [⟨id, .pass, setf, pc, [], [], false⟩] })
    (s1.modLaunch B.launch (fun L => { L with token := { L.token with held := false } })).settlePass b w

/-- The warp holds its launch's token. -/
def State.holdsToken (s : State) (B : Block) (w : Nat) : Bool :=
  match s.launch? B.launch with
  | some L => L.det && L.token.held && L.token.pos == some (B.logid, w)
  | none => false

/-- The token is at the warp, which may hold it, and no pass of it is under way. -/
def State.tokenAt (s : State) (B : Block) (w : Nat) : Bool :=
  match s.launch? B.launch with
  | some L => L.det && L.token.pos == some (B.logid, w) &&
      !((B.warps[w]?).map (fun W => W.ops.any (fun y => y.kind == .pass && !y.done))).getD false
  | none => false

/-- The launch of a block runs in deterministic mode. -/
def State.isDet (s : State) (B : Block) : Bool := ((s.launch? B.launch).map Launch.det).getD false

/-! ## Barriers (R262, R263) -/

def Barrier.reset : Barrier := ⟨0, 0, [], Sig.empty, [], []⟩
def ArrRec.none : ArrRec := ⟨0, 0, 0, []⟩

def Warp.exitedMask (W : Warp) : Mask := W.maskWhere Thread.exited
def Warp.brecAt (W : Warp) (id : Nat) : ArrRec := tget ArrRec.none W.brec id

/-- The memory words of a warp that are not yet performed. -/
def Warp.memIds (W : Warp) : List Nat := (W.ops.filter (fun y => y.kind.isMem && !y.performed)).map (·.id)

/-- None of some memory words of the warp is left to perform. -/
def Warp.released (W : Warp) (waits : List Nat) : Bool := !(W.ops.any (fun y => waits.contains y.id && !y.performed))

/-- The warp's pending arrivals become registered when every thread is pending or exited and at least one is pending
(R263). -/
def Warp.registers (W : Warp) (r : ArrRec) : Bool :=
  decide (r.pend &&& ~~~W.exitedMask ≠ 0) && decide (r.pend ||| W.exitedMask = BitVec.allOnes 32)

/-- The lines of device memory an operation has still to access. -/
def Op.linesLeft (o : Op) : List Nat :=
  let here (pa : Nat) : Bool := decide (pa < 0x40000000000)
  match o.kind with
  | .load _ _ _ _ => (o.parts.filter (fun p => !p.done)).flatMap (fun p => linesOf p.pa p.len)
  | .store _ => (o.parts.filter (fun p => !p.done && here p.pa)).flatMap (fun p => linesOf p.pa p.len)
  | .monitor _ => (o.parts.filter (fun p => !p.done)).flatMap (fun p => linesOf p.pa p.len)
  | .atom _ _ _ _ => (o.reqs.filter (fun r => !r.done)).map (fun r => r.pa / 128)
  | _ => []

/-- The warp's signature with the lines that some of its memory words have still to access (R269, R315). -/
def Warp.sigWith (W : Warp) (waits : List Nat) : Sig :=
  ((W.ops.filter (fun y => waits.contains y.id)).flatMap Op.linesLeft).foldl Sig.add W.sig

/-- The threads of a mask arrive: their records become pending (R263). -/
def Warp.arrive (W : Warp) (r : ArrRec) (m : Mask) : ArrRec :=
  { r with pend := r.pend ||| m, reg := r.reg &&& ~~~m, waits := unionNat W.memIds r.waits }

/-- Register every warp of the block that now can, at barrier id, with what its arrivals release. -/
def registerAt (id : Nat) (B : Block) : Block :=
  B.warpList.foldl (fun B W =>
    let r := W.brecAt id
    if W.registers r then
      let bar := nth Barrier.reset B.barriers id
      let W' := { W with brec := tset ArrRec.none W.brec id ⟨r.pend, 0, bar.q, []⟩ }
      { B.setWarp W' with
        barriers := setNth B.barriers id { bar with
          regs := insertNat W.idx bar.regs, sig := bar.sig.or (W.sigWith r.waits), waits := bar.waits ++ r.waits } }
    else B) B

/-- The open phase of barrier id is complete (R263): the block barrier when every warp has registered or has only exited
threads, a named barrier when the registered set holds N warps. -/
def phaseDone (id : Nat) (B : Block) : Bool :=
  let bar := nth Barrier.reset B.barriers id
  !bar.regs.isEmpty &&
    (if id = 0 then B.warpList.all (fun W => bar.regs.contains W.idx || W.allExited)
     else bar.n != 0 && bar.regs.length == bar.n)

/-- The lanes of a warp that wake when phase q of barrier id completes: parked there, and registered in it or waiting
without an arrival of their own, but for those an earlier phase wakes. -/
def Warp.wakesAt (W : Warp) (id : Nat) (q : BitVec 16) (closing : List Closing) : Mask :=
  let r := W.brecAt id
  maskOf (fun l => (W.thread l).status == .parked (.bar id) &&
    !r.pend.getLsbD l && (!r.reg.getLsbD l || r.phase == q) &&
    !closing.any (fun c => c.wakes.any (fun x => x.1 == W.idx && x.2.getLsbD l)))

/-- Complete the open phase: Q + 1, N := 0, the set emptied (R263). -/
def completePhase (id : Nat) (B : Block) : Block :=
  let bar := nth Barrier.reset B.barriers id
  let c : Closing :=
    ⟨bar.q, bar.regs, (B.warpList.map (fun W => (W.idx, W.wakesAt id bar.q bar.closing))).filter (fun x => x.2 != 0), bar.sig,
      bar.waits⟩
  { B with barriers := setNth B.barriers id ⟨bar.q + 1, 0, [], Sig.empty, [], bar.closing ++ [c]⟩ }

/-- The memory words a completed phase's wake waits for have been performed. -/
def Block.phaseReleased (B : Block) (c : Closing) : Bool := B.warps.all (fun W => W.released c.waits)

/-- The threads of a warp that a completed phase wakes. -/
def Closing.asks (c : Closing) (w : Nat) : Mask := (c.wakes.filter (fun x => x.1 == w)).foldl (fun m x => m ||| x.2) 0

/-- The warp takes part in the wake: threads of it wake, or it registered, so that its threads may ask later. -/
def Closing.reaches (c : Closing) (W : Warp) : Bool := c.asks W.idx != 0 || c.regs.contains W.idx

/-- The wake in one warp: its parked threads go on, their records none, and it acquires what the phase releases (R263, R269,
R317). -/
def Warp.wakeFrom (W : Warp) (id : Nat) (c : Closing) : Warp :=
  if c.reaches W then
    let m := W.maskWhere (fun t => t.status == .parked (.bar id)) &&& c.asks W.idx
    let r := W.brecAt id
    { W.modThreads m (fun t => { t with status := .eligible }) with
      brec := tset ArrRec.none W.brec id { r with reg := r.reg &&& ~~~m }
      sig := W.sig.or c.sig }
  else W

/-- The wake of a completed phase in a block. -/
def State.wakePhase (s : State) (b id : Nat) (c : Closing) : State :=
  match s.block? b with
  | none => s
  | some B =>
    ({ s with mem := s.mem.l1Acquire ((B.warpList.filter c.reaches).map (·.core)) c.sig } : State).modBlock b (fun B =>
      { B with warps := B.warpList.map (fun W => W.wakeFrom id c) })

/-- Every completed phase of barrier id whose memory words are performed wakes its threads. -/
def State.wakePhases (s : State) (b id : Nat) : State :=
  match s.block? b with
  | none => s
  | some B =>
    ((nth Barrier.reset B.barriers id).closing.filter B.phaseReleased).foldl (fun s c => s.wakePhase b id c)
      (s.modBlock b (fun B =>
        let bar := nth Barrier.reset B.barriers id
        { B with barriers := setNth B.barriers id { bar with closing := bar.closing.filter (fun c => !B.phaseReleased c) } }))

/-- Register and complete at barrier id, at most once each (an arrival or an exit can complete one phase), and wake. -/
def State.settleBarrier (s : State) (b id : Nat) : State :=
  let s1 := s.modBlock b (registerAt id)
  let s2 := s1.modBlock b (fun B => if phaseDone id B then completePhase id B else B)
  s2.wakePhases b id

def State.settleBarriers (s : State) (b : Nat) : State :=
  match s.block? b with
  | some B => (List.range (1 + B.nbars)).foldl (fun s id => s.settleBarrier b id) s
  | none => s

/-! ## The grid barrier (R366 to R368) -/

def gbcPhase (x : Nat) : Nat := bitsN x 55 40
def gbcArrived (x : Nat) : Nat := bitsN x 23 12
def gbcExpected (x : Nat) : Nat := bitsN x 11 0
def gbcOf (ctx phase arrived expected : Nat) : Dword :=
  BitVec.ofNat 64 (2 ^ 63 + ctx * 2 ^ 56 + (phase % 2 ^ 16) * 2 ^ 40 + (arrived % 4096) * 2 ^ 12 + expected % 4096)

/-- The threads of a block parked at GBAR wake, and their warps acquire what the phase releases; a captured block takes this in
its image (R368, R369). -/
def Block.gridWake (B : Block) (g : Sig) : Block :=
  { B with garr := false, warps := B.warps.map (fun W =>
      if W.anyParked .gbar then { W.wake .gbar with grec := ArrRec.none, sig := W.sig.or g } else W) }

/-- Wake every thread of the grid parked at GBAR, and clear the arrivals (R368, R369). -/
def State.gridRelease (s : State) (L : Launch) : State :=
  let woken := (s.blocks.filter (fun B => B.launch == L.uid)).flatMap (fun B => B.warps.filter (·.anyParked .gbar))
  { s.modLaunch L.uid (fun L => { L with gridSig := Sig.empty }) with
    images := s.images.map (fun m => if m.blk.launch = L.uid then { m with blk := m.blk.gridWake L.gridSig } else m)
    blocks := s.blocks.map (fun B => if B.launch = L.uid then B.gridWake L.gridSig else B)
    mem := s.mem.l1Acquire (woken.map (·.core)) L.gridSig }

/-- ARRIVED = EXPECTED completes the phase. -/
def State.gridCheck (s : State) (l : Nat) : State :=
  match s.launch? l with
  | none => s
  | some L =>
    match L.counter with
    | none => s
    | some n =>
      let x := (tget 0 s.host.gbc n).toNat
      if gbcArrived x = gbcExpected x then
        let y := gbcOf L.ctx (gbcPhase x + 1) 0 (gbcExpected x)
        ({ s with host := { s.host with gbc := tset 0 s.host.gbc n y } } : State).gridRelease L
      else s

/-- A warp's grid arrivals register as at BAR, once what they release has been performed; the block arrives when every warp has
registered or has only exited threads, at least one having registered (R368, log 17). -/
def State.settleGrid (s : State) (b : Nat) : State :=
  match s.block? b with
  | none => s
  | some B =>
    match (s.launch? B.launch).bind (fun L => L.counter.map (fun n => (L, n))) with
    | none => s
    | some (L, n) =>
      let x := (tget 0 s.host.gbc n).toNat
      let ph := BitVec.ofNat 16 (gbcPhase x)
      let B1 := { B with warps := B.warps.map (fun W =>
        if W.registers W.grec && W.released W.grec.waits then { W with grec := ⟨W.grec.pend, 0, ph, []⟩ } else W) }
      let regd (W : Warp) : Bool := decide (W.grec.reg ≠ 0) && W.grec.phase == ph
      if !B1.garr && B1.warps.any regd && B1.warps.all (fun W => regd W || W.allExited) then
        let g := B1.warps.foldl (fun g W => g.or W.sig) Sig.empty
        let s1 := s.setBlock { B1 with garr := true, gphase := ph }
        let y := gbcOf L.ctx (gbcPhase x) (gbcArrived x + 1) (gbcExpected x)
        (({ s1 with host := { s1.host with gbc := tset 0 s1.host.gbc n y } } : State).modLaunch L.uid
          (fun L => { L with gridSig := L.gridSig.or g })).gridCheck L.uid
      else s.setBlock B1

/-! ## Aborting a block (R148) -/

/-- The operations whose requests have been withdrawn are over: their flags fall. -/
def Warp.dropOps (W : Warp) (gone : Op → Bool) : Warp :=
  { W with
    flags := (W.ops.filter gone).foldl (fun t o => match o.setf with
      | some f => tset 0 t f (tget 0 t f - 1)
      | none => t) W.flags
    ops := W.ops.filter (fun o => !gone o) }

/-- Abort a block: its warps issue no further word but to the end of a chain that is open, the aborting warp's trap
registers and an abort record hold the cause, and its launch counts it. Tuple requests that its capture had withdrawn end with it (log 68). -/
def State.abortBlock (s : State) (b w : Nat) (t : TrapRegs) : State :=
  match s.block? b with
  | none => s
  | some B =>
    if B.aborted then s
    else
      let B1 := { B with
        halt := some (.abort t.cause.toNat)
        withdrawn := []
        warps := (B.warps.map (fun W =>
          { W.dropOps (fun o => B.withdrawn.any (fun x => x.1.id == o.id)) with
            held := [], rep := none, prev := if W.rep.isNone then W.prev else none })).modify w
          (fun W => { W with trap := { t with ret := W.trap.ret } }) }
      let num := ((s.launch? B.launch).map Launch.num).getD 0
      let s1 := (s.setBlock B1).modLaunch B.launch (fun L => { L with aborted := L.aborted + 1 })
      s1.abortRecord B.ctx num t.cause.toNat B.logid w t.pc.toNat t.addr.toNat t.aux.toNat

/-! ## Taking an exception (Table 3.18, R135) -/

/-- Where a cause goes. -/
inductive Dest where
  | abort
  | handlerElseAbort
  | debugger
  deriving DecidableEq, Repr

/-- The codes of Table 3.18. -/
def causeIllegal : Nat := 0x01
def causeBank : Nat := 0x02
def causeChain : Nat := 0x03
def causeMigrate : Nat := 0x04
def causeRegBounds : Nat := 0x05
def causeScratch : Nat := 0x06
def causeMemFault : Nat := 0x07
def causeMemProt : Nat := 0x08
def causeMisalign : Nat := 0x09
def causeBarMismatch : Nat := 0x0A
def causeMonTimeout : Nat := 0x0B
def causeUser : Nat := 0x0C
def causeBreak : Nat := 0x0D
def causeHazard : Nat := 0x0E
def causeKv : Nat := 0x0F
def causeTuple : Nat := 0x10
def causeSx : Nat := 0x11
def causeCtok : Nat := 0x12
def causeUnloaded : Nat := 0x13
def causePoison : Nat := 0x14

/-- Table 3.18's last column; MIGRATE and MEM_FAULT are handled where they are raised. -/
def destOf (cause : Nat) : Dest :=
  if cause = causeBreak then .debugger
  else if cause = causeRegBounds || cause = causeScratch || cause = causeMisalign || cause = causeBarMismatch ||
    cause = causeMonTimeout || cause = causeUser || cause = causeHazard then .handlerElseAbort
  else .abort

/-- What a trap records (Table 1.4) and where its threads go: those of `run` trap; `resume` is the address %trapret takes
and `reissue` the one from which the trap is raised again (R135). -/
structure Trap where
  cause : Nat
  pc : BitVec 52
  half : BitVec 3
  addr : Nat
  aux : Mask
  run : Mask
  resume : BitVec 52
  reissue : BitVec 52
  deriving DecidableEq, Repr

def Trap.regs (t : Trap) : TrapRegs :=
  ⟨BitVec.ofNat 8 t.cause, t.pc, t.half, BitVec.ofNat 64 t.addr, t.aux, 0⟩

/-- ALU results in flight are completed (R60). -/
def Warp.complete (W : Warp) : Warp := { W with early := W.early.filter (fun e => e.op.isSome) }

/-- ALU results in flight are completed, and the chain, the literal and the REP sequence of the threads of a mask end (R27,
R60, R81, R85). -/
def Warp.quiesce (m : Mask) (W : Warp) : Warp :=
  { W.complete with
    prev := W.prev.filter (fun p => p.run &&& m == 0)
    rep := W.rep.filter (fun r => r.run &&& m == 0) }

/-- The warp's issue unit has chosen its run: the marks clear (R20). -/
def Warp.unmarked (W : Warp) : Warp :=
  W.mapThreads (fun _ t => if t.status == TStatus.eligible then { t with y := false } else t)

/-- The same when it issues the word at `addr`: a break-skip record of that address is spent (R161). -/
def Warp.chosen (addr : BitVec 52) (W : Warp) : Warp :=
  { W.unmarked with
    skip := if W.skip.valid && W.skip.addr == addr then { W.skip with valid := false } else W.skip }

/-- Enter the user handler (R135): a first trap records and enters, a trap of a thread in H aborts the block, any other
run parks behind the active handler at its re-issue point. -/
def State.enterHandler (s : State) (b w : Nat) (entry : BitVec 52) (t : Trap) : State :=
  match s.warp? b w with
  | none => s
  | some W0 =>
    let W := W0.quiesce t.run
    if W.handler = 0 then
      let W1 := W.modThreads t.run (fun th => { th with pc := entry, y := false })
      s.setWarp b { W1 with handler := t.run, trap := { t.regs with ret := t.resume } }
    else if W.handler &&& t.run ≠ 0 then (s.modWarp b w (Warp.quiesce t.run)).abortBlock b w t.regs
    else s.setWarp b (W.modThreads t.run (fun th => { th with pc := t.reissue, status := .parked .handler }))

/-- Take a synchronous trap, by the cause's destination (Table 3.18, R26). A BREAK that goes to a debugger halts the block
and writes no trap register (R142, R162). -/
def State.takeTrap (s : State) (b w : Nat) (t : Trap) : State :=
  match s.block? b with
  | none => s
  | some B =>
    let entry := ((s.launch? B.launch).map Launch.handler).getD 0
    let aborts : State := (s.modWarp b w (Warp.quiesce t.run)).abortBlock b w t.regs
    let toHandler : State := if entry = 0 then aborts else s.enterHandler b w (BitVec.ofNat 52 entry) t
    match destOf t.cause with
    | .abort => aborts
    | .handlerElseAbort => toHandler
    | .debugger =>
      if s.debugger then
        let s1 := s.modWarp b w (fun W => (W.quiesce t.run).modThreads t.run (fun th => { th with pc := t.resume }))
        s1.modBlock b (fun B => if B.aborted then B else { B with halt := some .debugger })
      else toHandler

/-- RET.h (R136): the threads of the run leave the handler; the runs parked behind it wake when H becomes 0. -/
def Warp.leaveHandler (W : Warp) (m : Mask) : Warp :=
  let h := W.handler &&& ~~~m
  let W1 := { W with handler := h }
  if h = 0 then W1.wake .handler else W1

/-! ## What a performed access or an exit may release (R19, R136, R263, R360, R363, R368) -/

/-- Arrivals and passes that waited for a warp's accesses may go on. -/
def State.settle (s : State) (b w : Nat) : State := ((s.settleBarriers b).settleGrid b).settlePass b w

/-- What follows when threads of a warp have exited: H loses them, barriers and the grid may complete, and the warp whose
last thread has exited passes a token it holds or that is at it. -/
def State.afterExit (s : State) (b w : Nat) (m : Mask) (pc : BitVec 52) : State :=
  let s1 := s.modWarp b w (fun W => W.leaveHandler m)
  match s1.block? b, s1.warp? b w with
  | some B, some W =>
    (if W.allExited && s1.tokenAt B w then s1.enterPass b w none pc else s1).settle b w
  | _, _ => s1

end Sys2Proof.Machine
end

