-- ==== Sys2Proof/Machine/Operands.lean ====
section
/-!
DEFINITION. Operand forms: the codes of Table 3.8, 64-bit operands (R13, R72), uniform operands (R69, R70), predicates
(R65), and reads and writes of registers with what R59, R60 and R63 leave free about values still on their way.
-/
namespace Sys2Proof.Machine

/-! ## Raw registers -/

def vKey (n l : Nat) : Nat := 32 * n + l
def Warp.vRaw (W : Warp) (n l : Nat) : Word := tget 0 W.v (vKey n l)
def Warp.wRaw (W : Warp) (n : Nat) : Word := tget 0 W.w n
/-- p0–p6; p7 reads true (R14). -/
def Warp.pRaw (W : Warp) (n l : Nat) : Bool := if n = 7 then true else (W.thread l).preds.getLsbD n

/-- The 32 values a location holds (one for a uniform register); a predicate is 0 or 1. -/
def Warp.locRaw (W : Warp) : Loc → List Word
  | .lane n => (List.range 32).map (W.vRaw n)
  | .uni n => [W.wRaw n]
  | .pred n => (List.range 32).map (fun l => if W.pRaw n l then 1 else 0)

/-! ## Values on their way -/

/-- A number that names a location, for the argument of a free choice. -/
def Loc.code : Loc → Nat
  | .lane n => 4 * n
  | .uni n => 4 * n + 1
  | .pred n => 4 * n + 2

/-- The index of the free choice about one 32-bit register: lane l of loc. -/
def Loc.index (loc : Loc) (l : Nat) : Nat := loc.code * 32 + l

/-- The entry of a location's values that lane l reads. -/
def Loc.slot : Loc → Nat → Nat
  | .uni _, _ => 0
  | _, l => l

/-- The value of a location in lane l as it stands. -/
def Warp.nowAt (W : Warp) (loc : Loc) (l : Nat) : Word :=
  match loc with
  | .lane n => W.vRaw n l
  | .uni n => W.wRaw n
  | .pred n => if W.pRaw n l then 1 else 0

/-- The value a read of lane l of a location gives: the newest, or, where a write is still on its way, wholly one of the
values before it (R59, R63); which one is free. -/
def Warp.readLoc (W : Warp) (fr : Nat) (loc : Loc) (l : Nat) : Word :=
  let now := W.nowAt loc l
  let olds := (W.early.filter (fun e => e.loc == loc && e.wrote.getLsbD (loc.slot l))).map
    (fun e => nth now e.olds (loc.slot l))
  match olds.filter (· != now) with
  | [] => now
  | o :: r => nth now (now :: o :: r) (Config.freeNat 59 fr (loc.index l) % (r.length + 2))

def Warp.vAt (W : Warp) (fr n l : Nat) : Word := W.readLoc fr (.lane n) l
def Warp.wAt (W : Warp) (fr n : Nat) : Word := W.readLoc fr (.uni n) 0
def Warp.pAt (W : Warp) (fr n l : Nat) : Bool := if n = 7 then true else W.readLoc fr (.pred n) l == 1

/-- A write of lane l of a location meets a write, on its way or already there, of a flagged operation not yet complete (R63); `own`
is the writing operation, if it is flagged. -/
def Warp.contested (W : Warp) (own : Option Nat) (loc : Loc) (l : Nat) : Bool :=
  W.early.any (fun e => e.loc == loc && e.op.isSome &&
    (if e.op = own then e.clob.getLsbD (loc.slot l) else e.wrote.getLsbD (loc.slot l)))

/-- What the other writers on their way make of a write of `new` to lane l of a location (R63): of it and the write of a
flagged operation not yet complete, either value may be left, whichever is written first; which is free. -/
def Warp.settle (W : Warp) (fr : Nat) (own : Option Nat) (loc : Loc) (l : Nat) (new : Word) : Word :=
  let now := W.nowAt loc l
  if now != new && W.contested own loc l then (if Config.freeBit 63 fr (loc.index l) then new else now)
  else new

/-- An ALU result of a location is replaced for good in the lanes of a mask: no read misses it there any more. -/
def Early.cut (loc : Loc) (m : Mask) (e : Early) : Option Early :=
  if e.loc == loc && e.op.isNone then
    (if e.wrote &&& ~~~m = 0 then none else some { e with wrote := e.wrote &&& ~~~m })
  else some e

/-- The values of a list replaced in the lanes of a mask. -/
def mixed (m : Mask) (new old : List Word) : List Word :=
  old.zipIdx.map (fun (p : Word × Nat) => if m.getLsbD p.2 then nth p.1 new p.2 else p.1)

/-- A flagged operation's register is written by another word in the lanes of a mask: where the operation has written, a
read may still give what it wrote; elsewhere its own write finds the lane written (R63). -/
def Early.contend (loc : Loc) (m : Mask) (raw : List Word) (e : Early) : Early :=
  if e.loc == loc && e.op.isSome then { e with olds := mixed (m &&& e.wrote) raw e.olds, clob := e.clob ||| (m &&& ~~~e.wrote) }
  else e

/-- Note a write of a location, in the lanes of a mask, by a word of architectural latency L (0: in place for every later
word, R130): the values before it may still be read for L cycles of declared distance (R59). -/
def Warp.noteWrite (W : Warp) (loc : Loc) (m : Mask) (lat : Nat) : Warp :=
  let marked := W.early.map (Early.contend loc m (W.locRaw loc))
  { W with early :=
      if lat = 0 then marked.filterMap (Early.cut loc m) else ⟨loc, none, lat, m, W.locRaw loc, 0⟩ :: marked }

/-- Write lane register n in the lanes of a mask. -/
def Warp.writeV (W : Warp) (fr lat : Nat) (n : Nat) (m : Mask) (f : Nat → Word) : Warp :=
  let W1 := W.noteWrite (.lane n) m lat
  { W1 with v := (lanesOf m).foldl (fun t l => tset 0 t (vKey n l) (W.settle fr none (.lane n) l (f l))) W1.v }

/-- Write uniform register n. -/
def Warp.writeW (W : Warp) (fr lat : Nat) (n : Nat) (x : Word) : Warp :=
  let W1 := W.noteWrite (.uni n) 1 lat
  { W1 with w := tset 0 W1.w n (W.settle fr none (.uni n) 0 x) }

def setBit7 (x : BitVec 7) (n : Nat) (b : Bool) : BitVec 7 :=
  if b then x ||| BitVec.ofNat 7 (2 ^ n) else x &&& ~~~(BitVec.ofNat 7 (2 ^ n))

/-- Write predicate n in the lanes of a mask; a write to p7 is discarded (R14). -/
def Warp.writeP (W : Warp) (lat : Nat) (n : Nat) (m : Mask) (f : Nat → Bool) : Warp :=
  if n = 7 then W
  else
    let W1 := W.noteWrite (.pred n) m lat
    W1.mapThreads (fun l t => if m.getLsbD l then { t with preds := setBit7 t.preds n (f l) } else t)

/-! ## Flagged operations -/

/-- A flagged operation will write these locations (R63); until a word waits for its flag, checked mode counts them as
not yet written (R64, log 61). -/
def Warp.awaitWrites (W : Warp) (id : Nat) (setf : Option Nat) (locs : List Loc) : Warp :=
  { W with
    early := locs.map (fun loc => ⟨loc, some id, 0, 0, W.locRaw loc, 0⟩) ++ W.early
    unwaited := locs.map (fun loc => (setf.getD 12, loc)) ++ W.unwaited }

/-- What a flagged operation's write of `x` to lane l, which held `now` and holds `y` after it, makes of the entries of its
location: the value not left in place may still be read, by its own entry's leave and that of every ALU result issued after
the operation; other flagged operations find the lane written. -/
def flagNote (id : Nat) (loc : Loc) (l : Nat) (raw : List Word) (now x y : Word) : List Early → List Early
  | [] => []
  | e :: r =>
    let bit : Mask := BitVec.ofNat 32 (2 ^ loc.slot l)
    let loser := if y = x then now else x
    if e.loc == loc && e.op == some id then
      { e with wrote := e.wrote ||| bit, olds := setNth e.olds (loc.slot l) loser } :: r.map (Early.contend loc bit raw)
    else if e.loc == loc && e.op.isNone then
      { e with olds := if e.wrote.getLsbD (loc.slot l) then setNth e.olds (loc.slot l) loser else e.olds } ::
        flagNote id loc l raw now x y r
    else Early.contend loc bit raw e :: flagNote id loc l raw now x y r

/-- A flagged operation writes one 32-bit register. -/
def Warp.flagWrite (W : Warp) (fr id : Nat) (loc : Loc) (l : Nat) (x : Word) : Warp :=
  let y := W.settle fr (some id) loc l x
  let W1 := { W with early := flagNote id loc l (W.locRaw loc) (W.nowAt loc l) x y W.early }
  match loc with
  | .lane n => { W1 with v := tset 0 W1.v (vKey n l) y }
  | .uni n => { W1 with w := tset 0 W1.w n y }
  | .pred n => W1.mapThreads (fun k t => if k = l then { t with preds := setBit7 t.preds n (y != 0) } else t)

/-- An operation has completed: its registers hold their values for every later word, and no older ALU result is missed. -/
def landAll (id : Nat) : List Early → List Early
  | [] => []
  | e :: r => if e.op = some id then (landAll id r).filterMap (Early.cut e.loc e.wrote) else e :: landAll id r

def Warp.landed (W : Warp) (id : Nat) : Warp := { W with early := landAll id W.early }

/-- A word waits for flags: their operations have written (R62, R64). -/
def Warp.heard (W : Warp) (wait : BitVec 12) : Warp :=
  { W with unwaited := W.unwaited.filter (fun p => !wait.getLsbD p.1) }

/-! ## The word at issue -/

/-- What a word's meaning reads: its block, its warp after issue has begun (R20, R21, R61), the run, the lanes that
execute (R65), the word's address, the literal of a preceding LIT (R82), and the argument of its free values. -/
structure Iss where
  b : Nat
  w : Nat
  B : Block
  W : Warp
  run : Mask
  exec : Mask
  pc : BitVec 52
  lit : Word
  fr : Nat

/-- A 32-bit source named by a code of Table 3.8, in lane l. -/
def Iss.src (c : Iss) (code : BitVec 8) (l : Nat) : Word :=
  let n := code.toNat
  if n < 0xF8 then c.W.vAt c.fr n l
  else if n < 0xFC then nth 0 (nth [] c.W.latches (n - 0xF8)) l
  else if n = 0xFC then 0
  else if n = 0xFD then BitVec.ofNat 32 l
  else c.lit

/-- A 64-bit source (R13, R72). -/
def Iss.src64 (c : Iss) (code : BitVec 8) (l : Nat) : Dword :=
  let n := code.toNat
  if n < 0xF8 then pair64 (c.W.vAt c.fr n l) (c.W.vAt c.fr (n + 1) l)
  else (c.src code l).setWidth 64

/-- Uniform register n. -/
def Iss.uni (c : Iss) (n : Nat) : Word := c.W.wAt c.fr n

/-- A 64-bit uniform pair. -/
def Iss.uni64 (c : Iss) (n : Nat) : Dword := pair64 (c.uni n) (c.uni (n + 1))

/-- SB of format A: a lane code, or a uniform register when XW = 1 (R69). -/
def Iss.srcB (c : Iss) (f : FmtA) (l : Nat) : Word := if f.xw then c.uni f.sb.toNat else c.src f.sb l

def Iss.srcB64 (c : Iss) (f : FmtA) (l : Nat) : Dword := if f.xw then c.uni64 f.sb.toNat else c.src64 f.sb l

/-- A uniform source of a W-form or an engine word: w0–w63, 0xFC zero, 0xFE the literal (R70). -/
def Iss.usrc (c : Iss) (code : BitVec 8) : Word :=
  if code.toNat < 64 then c.uni code.toNat else if code = 0xFE then c.lit else 0

/-- Predicate n in lane l, as read at issue. -/
def Iss.pred (c : Iss) (n l : Nat) : Bool := c.W.pAt c.fr n l

/-! ## Results -/

/-- Write a 32-bit result to a destination code: 0xFC discards (Table 3.8). -/
def Warp.putV (W : Warp) (fr lat : Nat) (code : BitVec 8) (m : Mask) (f : Nat → Word) : Warp :=
  if code.toNat < 0xF8 then W.writeV fr lat code.toNat m f else W

/-- Write a 64-bit result to a pair; 0xFC discards it whole (R72). -/
def Warp.putV64 (W : Warp) (fr lat : Nat) (code : BitVec 8) (m : Mask) (f : Nat → Dword) : Warp :=
  if code.toNat < 0xF8 then
    (W.writeV fr lat code.toNat m (fun l => lo32 (f l))).writeV fr lat (code.toNat + 1) m (fun l => hi32 (f l))
  else W

/-- Write a uniform result; 0xFC discards (R70). -/
def Warp.putW (W : Warp) (fr lat : Nat) (code : BitVec 8) (x : Word) : Warp :=
  if code.toNat < 64 then W.writeW fr lat code.toNat x else W

/-- Push a result into the latches: b2 to b3, b1 to b2, b0 to b1, and 0 in the lanes that do not execute (R77). -/
def Warp.push (W : Warp) (m : Mask) (f : Nat → Word) : Warp :=
  { W with latches := (((List.range 32).map (fun l => if m.getLsbD l then f l else 0)) :: W.latches).take 4 }

end Sys2Proof.Machine
end

