-- ==== Sys2Proof/Machine/Flags.lean ====
section
/-!
DEFINITION. The flags of the machine: the sticky floating-point flags %fx (Table 1.2, R15) and the predicates a compare
writes (R105, Table 4.5).
-/
namespace Sys2Proof.Machine

/-- Table 1.2. -/
def fxNV : BitVec 5 := 0x01
def fxDZ : BitVec 5 := 0x02
def fxOF : BitVec 5 := 0x04
def fxUF : BitVec 5 := 0x08
def fxNX : BitVec 5 := 0x10

/-- OR raised exceptions into the %fx of the lanes that execute, unless NF = 1 (R15). -/
def Warp.raiseFx (W : Warp) (m : Mask) (nf : Bool) (f : Nat → BitVec 5) : Warp :=
  if nf then W
  else W.mapThreads (fun l t => if m.getLsbD l then { t with fx := t.fx ||| f l } else t)

/-- The integer relations of Table 4.5 on exact integers; 6 and 7 are no relation. -/
def intRel (rel : Nat) (a b : Int) : Bool :=
  match rel with
  | 0 => decide (a = b)
  | 1 => decide (a ≠ b)
  | 2 => decide (a < b)
  | 3 => decide (a ≤ b)
  | 4 => decide (a > b)
  | _ => decide (a ≥ b)

/-- ICMP and WCMP: CC[3] is the type, CC[2:0] the relation (R105). -/
def icmp32 (cc : BitVec 4) (a b : Word) : Bool :=
  if cc.getLsbD 3 then intRel (cc.toNat % 8) a.toInt b.toInt else intRel (cc.toNat % 8) a.toNat b.toNat

def icmp64 (cc : BitVec 4) (a b : Dword) : Bool :=
  if cc.getLsbD 3 then intRel (cc.toNat % 8) a.toInt b.toInt else intRel (cc.toNat % 8) a.toNat b.toNat

/-- What a compare pushes: 0xFFFF_FFFF for true, 0 for false (R105). -/
def maskWord (b : Bool) : Word := if b then 0xFFFFFFFF else 0

end Sys2Proof.Machine
end

