-- ==== Sys2Proof/Machine/Float.lean ====
section
/-!
DEFINITION. Number formats and arithmetic (02_thread_numbers.md): the formats of Table 2.1, exact values, rounding (R33 to
R36), NaNs and invalid operations (R37 to R40), block scaling (R43 to R46). Codes are natural numbers below 2^bits.
-/
namespace Sys2Proof.Machine

/-! ## Formats and exact values (R28 to R31) -/

/-- What a format's top exponent pattern encodes (Table 2.2). -/
inductive Specials where
  /-- infinity and NaNs -/
  | ieee
  /-- E4M3: one NaN per sign, no infinity -/
  | nanOnly
  /-- ordinary values only -/
  | none
  deriving DecidableEq, Repr

/-- A binary floating-point format (Table 2.1): widths of E and M, and the bias. -/
structure Fmt where
  eb : Nat
  m : Nat
  bias : Nat
  spec : Specials
  deriving DecidableEq, Repr

def fp32 : Fmt := ⟨8, 23, 127, .ieee⟩
def fp16 : Fmt := ⟨5, 10, 15, .ieee⟩
def bf16 : Fmt := ⟨8, 7, 127, .ieee⟩
def e4m3 : Fmt := ⟨4, 3, 7, .nanOnly⟩
def e5m2 : Fmt := ⟨5, 2, 15, .ieee⟩
def e2m3 : Fmt := ⟨2, 3, 1, .none⟩
def e3m2 : Fmt := ⟨3, 2, 3, .none⟩
def e2m1 : Fmt := ⟨2, 1, 1, .none⟩
def acc56 : Fmt := ⟨8, 47, 127, .ieee⟩

def Fmt.bits (f : Fmt) : Nat := 1 + f.eb + f.m
/-- The exponent of the smallest normal. -/
def Fmt.emin (f : Fmt) : Int := 1 - (f.bias : Int)
def Fmt.emax (f : Fmt) : Nat := 2 ^ f.eb - 1
/-- The code of the largest finite magnitude (Table 2.1). -/
def Fmt.maxMag (f : Fmt) : Nat :=
  match f.spec with
  | .ieee => f.emax * 2 ^ f.m - 1
  | .nanOnly => 2 ^ (f.eb + f.m) - 2
  | .none => 2 ^ (f.eb + f.m) - 1
/-- The code of infinity. -/
def Fmt.infMag (f : Fmt) : Nat := f.emax * 2 ^ f.m
/-- The canonical NaN, sign + (Table 2.2). -/
def Fmt.nanMag (f : Fmt) : Nat :=
  match f.spec with
  | .ieee => f.emax * 2 ^ f.m + 2 ^ (f.m - 1)
  | .nanOnly => 2 ^ (f.eb + f.m) - 1
  | .none => 0
/-- A code from a sign and a magnitude. -/
def Fmt.signed (f : Fmt) (s : Bool) (mag : Nat) : Nat := b2n s * 2 ^ (f.eb + f.m) + mag

/-- An exact value: a NaN with its sign and mantissa, an infinity, or ± n × 2^e (n = 0 a signed zero). -/
inductive FVal where
  | nan (s : Bool) (mant : Nat)
  | inf (s : Bool)
  | fin (s : Bool) (n : Nat) (e : Int)
  deriving DecidableEq, Repr

def Fmt.sgn (f : Fmt) (x : Nat) : Bool := x.testBit (f.eb + f.m)
def Fmt.exp (f : Fmt) (x : Nat) : Nat := x / 2 ^ f.m % 2 ^ f.eb
def Fmt.man (f : Fmt) (x : Nat) : Nat := x % 2 ^ f.m
def Fmt.mag (f : Fmt) (x : Nat) : Nat := x % 2 ^ (f.eb + f.m)

def Fmt.isNan (f : Fmt) (x : Nat) : Bool :=
  match f.spec with
  | .ieee => f.exp x == f.emax && f.man x != 0
  | .nanOnly => f.mag x == 2 ^ (f.eb + f.m) - 1
  | .none => false
/-- A NaN whose quiet bit is 0 (Table 2.2; E4M3 has none). -/
def Fmt.isSnan (f : Fmt) (x : Nat) : Bool := f.spec == .ieee && f.isNan x && !(f.man x).testBit (f.m - 1)
def Fmt.isSub (f : Fmt) (x : Nat) : Bool := f.exp x == 0 && f.man x != 0
def Fmt.quiet (f : Fmt) (x : Nat) : Nat := if f.spec == .ieee then x ||| 2 ^ (f.m - 1) else x

/-- decode(fmt, code, none) of R43: the value of a code under R28. -/
def Fmt.value (f : Fmt) (x : Nat) : FVal :=
  if f.isNan x then .nan (f.sgn x) (f.man x)
  else if f.spec == .ieee && f.exp x == f.emax then .inf (f.sgn x)
  else if f.exp x = 0 then .fin (f.sgn x) (f.man x) (f.emin - f.m)
  else .fin (f.sgn x) (2 ^ f.m + f.man x) ((f.exp x : Int) - f.bias - f.m)

/-! ## Rounding (R32 to R36) -/

/-- The four modes (R32). -/
inductive RMode where
  | rne | rz | ru | rd
  deriving DecidableEq, Repr

/-- The integer next to n / 2^k chosen by the mode (R33), for a magnitude of sign s; `sticky` says that the exact value
lies strictly above n and below n + 1. Also whether it differs from the exact value. -/
def roundInt (mode : RMode) (s : Bool) (n k : Nat) (sticky : Bool) : Nat × Bool :=
  let q := n / 2 ^ k
  let rem := n % 2 ^ k
  let inexact := rem != 0 || sticky
  let up :=
    match mode with
    | .rne => k != 0 && (decide (2 ^ (k - 1) < rem) || (rem == 2 ^ (k - 1) && (sticky || q % 2 == 1)))
    | .rz => false
    | .ru => inexact && !s
    | .rd => inexact && s
  (q + b2n up, inexact)

/-- The overflow results of Table 2.3. -/
def overflowMag (f : Fmt) (mode : RMode) (s sat : Bool) : Nat :=
  if sat then f.maxMag
  else match f.spec with
  | .none => f.maxMag
  | .nanOnly => f.nanMag
  | .ieee =>
    match mode with
    | .rne => f.infMag
    | .rz => f.maxMag
    | .ru => if s then f.maxMag else f.infMag
    | .rd => if s then f.infMag else f.maxMag

/-- A code and the flags raised on the way. -/
abbrev Coded := Nat × BitVec 5

/-- round(f, mode, x) for x = ± (n + δ) × 2^e, where 0 < δ < 1 if sticky and δ = 0 otherwise (R33), with overflow (R34),
.sat, and the flags OF, UF, NX (R36: tiny after rounding, and inexact). A zero keeps its sign. A sticky n must hold more
bits than the significand. -/
def roundTo (f : Fmt) (mode : RMode) (sat s : Bool) (n : Nat) (e : Int) (sticky : Bool) : Coded :=
  if n = 0 then (f.signed s 0, 0)
  else
    let lg : Int := (Nat.log2 n : Int) + e
    let ex := max lg f.emin
    let u := ex - f.m
    let shift := u - e
    let (n1, k) := if shift < 0 then (n * 2 ^ (-shift).toNat, 0) else (n, shift.toNat)
    let (q, inexact) := roundInt mode s n1 k sticky
    let mag := (u + f.m + f.bias).toNat * 2 ^ f.m + q - 2 ^ f.m
    if f.maxMag < mag || (f.emax : Int) < u + f.m + f.bias then
      (f.signed s (overflowMag f mode s sat), fxOF ||| fxNX)
    else
      -- rounded to the same precision with the exponent unbounded, it stays below the smallest normal
      let tiny := decide (lg < f.emin) &&
        (decide (lg < f.emin - 1) ||
          (let sh := lg - f.m - e
           let (n2, k2) := if sh < 0 then (n * 2 ^ (-sh).toNat, 0) else (n, sh.toNat)
           decide ((roundInt mode s n2 k2 sticky).1 < 2 ^ (f.m + 1))))
      (f.signed s mag, (if inexact then fxNX else 0) ||| (if inexact && tiny then fxUF else 0))

/-- Exact addition of finite values: the sign of an exact zero sum is + but in RD (R109), and that of like zeros. -/
def addExact (mode : RMode) (s1 : Bool) (n1 : Nat) (e1 : Int) (s2 : Bool) (n2 : Nat) (e2 : Int) : Bool × Nat × Int :=
  let e := min e1 e2
  let a : Int := (n1 * 2 ^ (e1 - e).toNat : Nat)
  let b : Int := (n2 * 2 ^ (e2 - e).toNat : Nat)
  let x := (if s1 then -a else a) + (if s2 then -b else b)
  if x = 0 then (if s1 == s2 then s1 else mode == .rd, 0, e)
  else (decide (x < 0), x.natAbs, e)

/-! ## Operations on FP32, FP16 and BF16 operands (R37, R38, R42) -/

/-- The first NaN of the operands, made quiet, and NV for a signalling one (R37). -/
def nanOf (f : Fmt) (xs : List Nat) : Option Coded :=
  (xs.find? f.isNan).map (fun x => (f.quiet x, if xs.any f.isSnan then fxNV else 0))

/-- The canonical NaN of an invalid operation. -/
def invalid (f : Fmt) : Coded := (f.nanMag, fxNV)

def fAdd (f : Fmt) (mode : RMode) (a b : Nat) : Coded :=
  match nanOf f [a, b] with
  | some r => r
  | none =>
    match f.value a, f.value b with
    | .inf s, .inf t => if s = t then (f.signed s f.infMag, 0) else invalid f
    | .inf s, _ => (f.signed s f.infMag, 0)
    | _, .inf t => (f.signed t f.infMag, 0)
    | .fin s n e, .fin t k d =>
      let r := addExact mode s n e t k d
      roundTo f mode false r.1 r.2.1 r.2.2 false
    | _, _ => invalid f

def fMul (f : Fmt) (mode : RMode) (a b : Nat) : Coded :=
  match nanOf f [a, b] with
  | some r => r
  | none =>
    match f.value a, f.value b with
    | .inf s, .inf t => (f.signed (s != t) f.infMag, 0)
    | .inf s, .fin t k _ => if k = 0 then invalid f else (f.signed (s != t) f.infMag, 0)
    | .fin s n _, .inf t => if n = 0 then invalid f else (f.signed (s != t) f.infMag, 0)
    | .fin s n e, .fin t k d => roundTo f mode false (s != t) (n * k) (e + d) false
    | _, _ => invalid f

/-- The product a × b is ∞ × 0. -/
def infTimesZero (f : Fmt) (a b : Nat) : Bool :=
  match f.value a, f.value b with
  | .inf _, .fin _ k _ => k == 0
  | .fin _ n _, .inf _ => n == 0
  | _, _ => false

/-- a × b + c with one rounding; ∞ × 0 raises NV even where c is a NaN, and then returns c's NaN (R37). -/
def fFma (f : Fmt) (mode : RMode) (a b c : Nat) : Coded :=
  match nanOf f [a, b, c] with
  | some r => (r.1, r.2 ||| (if infTimesZero f a b then fxNV else 0))
  | none =>
    if infTimesZero f a b then invalid f
    else match f.value a, f.value b, f.value c with
    | .fin s n e, .fin t k d, .fin v j g =>
      let r := addExact mode (s != t) (n * k) (e + d) v j g
      roundTo f mode false r.1 r.2.1 r.2.2 false
    | .fin _ _ _, .fin _ _ _, .inf v => (f.signed v f.infMag, 0)
    | _, _, .inf v =>
      if (f.sgn a != f.sgn b) == v then (f.signed v f.infMag, 0) else invalid f
    | _, _, _ => (f.signed (f.sgn a != f.sgn b) f.infMag, 0)

/-- The order of two non-NaN codes, −0 below +0 (R38), as a signed rank. -/
def fRank (f : Fmt) (x : Nat) : Int := if f.sgn x then -1 - (f.mag x : Int) else f.mag x

def fMin (f : Fmt) (a b : Nat) : Coded :=
  match nanOf f [a, b] with
  | some r => r
  | none => (if fRank f a ≤ fRank f b then a else b, 0)

def fMax (f : Fmt) (a b : Nat) : Coded :=
  match nanOf f [a, b] with
  | some r => r
  | none => (if fRank f a ≤ fRank f b then b else a, 0)

/-- FCMP (Table 4.9): the relation CC, and NV (R38, R110). −0 and +0 compare equal. -/
def fCmp (cc : Nat) (a b : Nat) : Bool × BitVec 5 :=
  let f := fp32
  let un := f.isNan a || f.isNan b
  let snan := f.isSnan a || f.isSnan b
  let val (x : Nat) : Int := if f.sgn x then -(f.mag x : Int) else f.mag x
  let r :=
    match cc with
    | 0 => !un && decide (val a = val b)
    | 1 => un || decide (val a ≠ val b)
    | 2 => !un && decide (val a < val b)
    | 3 => !un && decide (val a ≤ val b)
    | 4 => !un && decide (val a > val b)
    | 5 => !un && decide (val a ≥ val b)
    | 6 => un
    | 7 => !un
    | 8 => !un && decide (val a < val b)
    | 9 => !un && decide (val a ≤ val b)
    | 10 => !un && decide (val a > val b)
    | _ => !un && decide (val a ≥ val b)
  (r, if snan || (un && decide (8 ≤ cc)) then fxNV else 0)

/-- FCLASS (Table 4.10). -/
def fClass (x : Nat) : Nat × BitVec 5 :=
  let f := fp32
  let bit :=
    if f.isNan x then (if f.isSnan x then 8 else 9)
    else if f.mag x = f.infMag then (if f.sgn x then 0 else 7)
    else if f.mag x = 0 then (if f.sgn x then 3 else 4)
    else if f.isSub x then (if f.sgn x then 2 else 5)
    else if f.sgn x then 1 else 6
  (2 ^ bit, if f.isSnan x then fxNV else 0)

/-! ## Conversions (R35, R39, R40, R113 to R117) -/

/-- The float formats of Table 4.11 by type code. -/
def fmtOf (t : Nat) : Fmt :=
  match t with
  | 0 => bf16
  | 1 => fp16
  | 2 => e4m3
  | 3 => e5m2
  | 4 => e2m3
  | 5 => e3m2
  | 6 => e2m1
  | _ => fp32

/-- A NaN of sign s and mantissa `mant` of a source in a target: the payload moves high-aligned, but an E4M3 NaN becomes a wider
format's canonical NaN (R39); formats without NaN give the code 0 and NV (R40). -/
def nanTo (src f : Fmt) (s : Bool) (mant : Nat) : Coded :=
  match f.spec with
  | .none => (0, fxNV)
  | .nanOnly => (f.signed s f.nanMag, 0)
  | .ieee =>
    if src.spec == .ieee || decide (f.bits ≤ src.bits) then
      let m := if src.m ≤ f.m then mant * 2 ^ (f.m - src.m) else mant / 2 ^ (src.m - f.m)
      (f.quiet (f.signed s (f.infMag + m)), 0)
    else (f.signed s f.nanMag, 0)

/-- An infinity in a target (R40). -/
def infTo (f : Fmt) (s : Bool) : Coded :=
  match f.spec with
  | .ieee => (f.signed s f.infMag, 0)
  | _ => (f.signed s f.maxMag, fxOF ||| fxNX)

/-- A value in a target format: R33 with NaN and infinity under R39 and R40. -/
def valTo (src f : Fmt) (mode : RMode) (sat : Bool) : FVal → Coded
  | .nan s mant => nanTo src f s mant
  | .inf s => infTo f s
  | .fin s n e => roundTo f mode sat s n e false

/-- Float to float (R115): signalling NaNs raise NV; .ftz acts on subnormal inputs and results (R35). -/
def cvtFF (st dt : Nat) (mode : RMode) (sat ftz : Bool) (x : Nat) : Coded :=
  let sf := fmtOf st
  let df := fmtOf dt
  if ftz && sf.isSub x then (df.signed (sf.sgn x) 0, 0)
  else
    let r := valTo sf df mode sat (sf.value x)
    let nv := if sf.isSnan x then fxNV else 0
    if ftz && df.isSub r.1 then (df.signed (df.sgn r.1) 0, r.2 ||| fxUF ||| fxNX ||| nv) else (r.1, r.2 ||| nv)

/-- An integer type's width and sign (Table 4.11). -/
def intSigned (t : Nat) : Bool := t == 7 || t == 0x11 || t == 0x12 || t == 0x13
def intWidth (t : Nat) : Nat :=
  if t = 7 || t = 0x14 then 8 else if t = 0x11 || t = 0x15 then 16 else if t = 0x12 || t = 0x16 then 32 else 64
def intMin (t : Nat) : Int := if intSigned t then -((2 ^ (intWidth t - 1) : Nat) : Int) else 0
def intMax (t : Nat) : Int := if intSigned t then (2 ^ (intWidth t - 1) : Nat) - 1 else (2 ^ intWidth t : Nat) - 1
/-- The integer a code of a type stands for. -/
def intValue (t x : Nat) : Int := if intSigned t then sextN (intWidth t) x else (x % 2 ^ intWidth t : Nat)

/-- Float to integer (R40): rounded by the mode, clamped with NV, NaN gives 0 and NV; NX when inexact within range. -/
def cvtFI (v : FVal) (dt : Nat) (mode : RMode) : Coded :=
  let code (x : Int) : Nat := modN (intWidth dt) x
  match v with
  | .nan _ _ => (0, fxNV)
  | .inf s => (code (if s then intMin dt else intMax dt), fxNV)
  | .fin s n e =>
    let (q, inexact) := if e < 0 then roundInt mode s n (-e).toNat false else (n * 2 ^ e.toNat, false)
    let x : Int := if s then -(q : Int) else q
    if x < intMin dt then (code (intMin dt), fxNV)
    else if intMax dt < x then (code (intMax dt), fxNV)
    else (code x, if inexact then fxNX else 0)

/-- Integer to float (R40). -/
def cvtIF (x : Int) (dt : Nat) (mode : RMode) (sat : Bool) : Coded :=
  roundTo (fmtOf dt) mode sat (decide (x < 0)) x.natAbs 0 false

/-- Integer to integer (R115): modulo, or clamped with .sat. -/
def cvtII (x : Int) (dt : Nat) (sat : Bool) : Coded :=
  (modN (intWidth dt) (if sat then max (intMin dt) (min (intMax dt) x) else x), 0)

def isFloatType (t : Nat) : Bool := t < 7 || t == 0x10

/-- CVT of one element code (R115). -/
def cvt (st dt : Nat) (mode : RMode) (sat ftz : Bool) (x : Nat) : Coded :=
  if isFloatType st then
    if isFloatType dt then cvtFF st dt mode sat ftz x
    else cvtFI ((fmtOf st).value x) dt mode
  else if isFloatType dt then cvtIF (intValue st x) dt mode sat
  else cvtII (intValue st x) dt sat

/-- decode(fmt, code, scale) of R43 for the element types 0x00 to 0x07: a scale code of 0xFF gives the canonical NaN. -/
def decodeElem (t code : Nat) (scale : Option Nat) : FVal :=
  let v : FVal :=
    if t = 7 then (let x := sextN 8 code; .fin (decide (x < 0)) x.natAbs 0) else (fmtOf t).value code
  match scale with
  | none => v
  | some sc =>
    if sc = 0xFF then .nan false (2 ^ ((fmtOf t).m - 1))
    else match v with
    | .fin s n e => .fin s n (e + (sc : Int) - 127)
    | w => w

/-- RNE32 of a decoded element; a scale of 0xFF gives FP32's canonical NaN (R117, R119). -/
def elemTo32 (t code : Nat) (scale : Option Nat) : Coded :=
  if scale = some 0xFF then (fp32.nanMag, 0)
  else valTo (fmtOf t) fp32 .rne false (decodeElem t code scale)

/-! ## Block scaling (R44 to R46) -/

/-- Table 2.6. -/
def emaxOf (t : Nat) : Int :=
  match t with
  | 2 => 8
  | 3 => 15
  | 4 => 2
  | 5 => 4
  | _ => 2

/-- floor(log2 |x|) of a finite non-zero value. -/
def floorLog2 : FVal → Option Int
  | .fin _ n e => if n = 0 then none else some ((Nat.log2 n : Int) + e)
  | _ => none

def FVal.isFin : FVal → Bool
  | .fin _ _ _ => true
  | _ => false

/-- round_sat(f, RNE, x / 2^se). -/
def qcode (t : Nat) (se : Int) : FVal → Nat
  | .fin s n e => (roundTo (fmtOf t) .rne true s n (e - se) false).1
  | _ => 0

/-- |round(f, RNE, x / 2^se)| exceeds maxfin(f): the same with OF, before saturation. -/
def qover (t : Nat) (se : Int) : FVal → Bool
  | .fin s n e => (roundTo (fmtOf t) .rne true s n (e - se) false).2 &&& fxOF != 0
  | _ => false

/-- qblock of R45 for element type t; `raise` is mode RAISE. -/
def qblock (t : Nat) (raise : Bool) (xs : List FVal) : Nat × List Nat :=
  if xs.any (fun x => !x.isFin) then (0xFF, xs.map (fun _ => 0))
  else match xs.filterMap floorLog2 with
  | [] => (0, xs.map (fun _ => 0))
  | l :: ls =>
    let se0 := (ls.foldl max l) - emaxOf t
    let se1 := if se0 < -127 then -127 else se0
    if 127 < se1 then (254, xs.map (qcode t 127))
    else
      let se := if raise && xs.any (qover t se1) then se1 + 1 else se1
      ((se + 127).toNat, xs.map (qcode t se))

end Sys2Proof.Machine
end

