-- ==== Sys2Proof/Machine/FloatFn.lean ====
section
/-!
DEFINITION. The correctly rounded functions (R55, Table 2.8): division and roots exactly, from a quotient or root of many
bits and whether anything is left over; 2^x, log2 x, sin πx and cos πx by fixed-point series whose error is far below
what decides a rounding of FP32 (log 19), their exact cases being decided by R55's own terms.
-/
namespace Sys2Proof.Machine

/-! ## Division and roots -/

/-- The integer square root, by its bits from 2^k down. -/
def isqrtFrom (n : Nat) : Nat → Nat → Nat
  | 0, r => if (r + 1) * (r + 1) ≤ n then r + 1 else r
  | k + 1, r => isqrtFrom n k (if (r + 2 ^ (k + 1)) * (r + 2 ^ (k + 1)) ≤ n then r + 2 ^ (k + 1) else r)

def isqrt (n : Nat) : Nat := isqrtFrom n (Nat.log2 n / 2 + 1) 0

/-- RNE32 of (n × 2^e) / (k × 2^d). -/
def divRound (s : Bool) (n : Nat) (e : Int) (k : Nat) (d : Int) : Coded :=
  let sh := 64 + Nat.log2 k
  roundTo fp32 .rne false s (n * 2 ^ sh / k) (e - d - sh) (n * 2 ^ sh % k != 0)

def fDiv (a b : Nat) : Coded :=
  match nanOf fp32 [a, b] with
  | some r => r
  | none =>
    match fp32.value a, fp32.value b with
    | .inf _, .inf _ => invalid fp32
    | .inf s, .fin t _ _ => (fp32.signed (s != t) fp32.infMag, 0)
    | .fin s _ _, .inf t => (fp32.signed (s != t) 0, 0)
    | .fin s n e, .fin t k d =>
      if k = 0 then (if n = 0 then invalid fp32 else (fp32.signed (s != t) fp32.infMag, fxDZ))
      else divRound (s != t) n e k d
    | _, _ => invalid fp32

def fRcp (a : Nat) : Coded :=
  match nanOf fp32 [a] with
  | some r => r
  | none =>
    match fp32.value a with
    | .inf s => (fp32.signed s 0, 0)
    | .fin s n e => if n = 0 then (fp32.signed s fp32.infMag, fxDZ) else divRound s 1 0 n e
    | _ => invalid fp32

/-- n × 2^e with e even. -/
def evenExp (n : Nat) (e : Int) : Nat × Int := if e % 2 = 0 then (n, e) else (2 * n, e - 1)

def fSqrt (a : Nat) : Coded :=
  match nanOf fp32 [a] with
  | some r => r
  | none =>
    match fp32.value a with
    | .inf s => if s then invalid fp32 else (fp32.infMag, 0)
    | .fin s n e =>
      if n = 0 then (fp32.signed s 0, 0)
      else if s then invalid fp32
      else
        let (n1, e1) := evenExp n e
        let x := n1 * 2 ^ 128
        let r := isqrt x
        roundTo fp32 .rne false false r (e1 / 2 - 64) (r * r != x)
    | _ => invalid fp32

/-- 1 / sqrt(n × 2^e) = sqrt(2^256 / n) × 2^(-128 - e/2), e even. -/
def fRsq (a : Nat) : Coded :=
  match nanOf fp32 [a] with
  | some r => r
  | none =>
    match fp32.value a with
    | .inf s => if s then invalid fp32 else (0, 0)
    | .fin s n e =>
      if n = 0 then (fp32.signed s fp32.infMag, fxDZ)
      else if s then invalid fp32
      else
        let (n1, e1) := evenExp n e
        let r := isqrt (2 ^ 256 / n1)
        roundTo fp32 .rne false false r (-128 - e1 / 2) (r * r * n1 != 2 ^ 256)
    | _ => invalid fp32

/-! ## Fixed point: values below 2^3 with `fxP` fractional bits -/

/-- Fractional bits. -/
def fxP : Nat := 448
/-- floor(π × 2^448) and floor(ln 2 × 2^448). -/
def piFx : Nat := 2283431196591655772568293192637813162989505182201807620455461503647463674352091780948082810000813750461678719846639713479115845689692381
def ln2Fx : Nat := 503806212467287336944962318911413164331589999686332526750892113008874715004345470044877937781258350830018788825857087812047298226561348

def mulFx (a b : Nat) : Nat := a * b / 2 ^ fxP

/-- Σ x^k / k! from the term t = x^(k-1) / (k-1)! on, `fuel` terms. -/
def expSeries (x : Nat) : Nat → Nat → Nat → Nat → Nat
  | 0, _, _, sum => sum
  | fuel + 1, k, t, sum => let t' := mulFx t x / k; expSeries x fuel (k + 1) t' (sum + t')

/-- e^x for 0 ≤ x < 1. -/
def expFx (x : Nat) : Nat := expSeries x 100 1 (2 ^ fxP) (2 ^ fxP)

/-- Σ z^(2k+1) / (2k+1) from the power t = z^(2k+1) on. -/
def atanhSeries (z2 : Nat) : Nat → Nat → Nat → Nat → Nat
  | 0, _, _, sum => sum
  | fuel + 1, k, t, sum => atanhSeries z2 fuel (k + 2) (mulFx t z2) (sum + t / k)

/-- log2(num / den) for 1 ≤ num / den < 2. -/
def log2Fx (num den : Nat) : Nat :=
  let z := (num - den) * 2 ^ fxP / (num + den)
  2 * atanhSeries (mulFx z z) 150 1 z 0 * 2 ^ fxP / ln2Fx

/-- Σ (-1)^j x^(2j+k) / (2j+k)!, given its terms' signs by adding and subtracting in turn. -/
def altSum (x2 : Nat) : Nat → Nat → Nat → Bool → Int → Int
  | 0, _, _, _, acc => acc
  | fuel + 1, k, t, neg, acc =>
    altSum x2 fuel (k + 2) (mulFx t x2 / ((k + 1) * (k + 2))) (!neg) (if neg then acc - t else acc + t)

/-- sin x and cos x for 0 ≤ x < 2. -/
def sinFx (x : Nat) : Nat := (altSum (mulFx x x) 70 1 x false 0).toNat
def cosFx (x : Nat) : Nat := (altSum (mulFx x x) 70 0 (2 ^ fxP) false 0).toNat

/-- RNE32 of an irrational value whose fixed-point enclosure begins at lo - 2^16. -/
def roundFx (s : Bool) (lo : Nat) (e : Int) : Coded := roundTo fp32 .rne false s (lo - 2 ^ 16) (e - fxP) true

/-! ## FEX2, FLG2, FSINPI, FCOSPI -/

def fEx2 (a : Nat) : Coded :=
  match nanOf fp32 [a] with
  | some r => r
  | none =>
    match fp32.value a with
    | .inf s => (if s then 0 else fp32.infMag, 0)
    | .fin s n e =>
      if n = 0 then (0x3F800000, 0)
      else
        -- x = ip + fp / 2^k with 0 ≤ fp < 2^k; a magnitude of 2^9 and more is past both ends of Table 2.8
        let x : Int := if s then -(n : Int) else n
        let big := decide (9 ≤ (Nat.log2 n : Int) + e)
        let k := if e < 0 then (-e).toNat else 0
        let y : Int := if e < 0 then x else x * 2 ^ e.toNat
        let ip : Int := if big then (if s then -1000 else 1000) else y / 2 ^ k
        let fp : Nat := if big then 0 else (y % 2 ^ k).toNat
        if 128 ≤ ip then (fp32.infMag, fxOF ||| fxNX)
        else if ip < -150 then (0, fxUF ||| fxNX)
        else if fp = 0 then roundTo fp32 .rne false false 1 ip false
        else roundFx false (expFx (mulFx (fp * 2 ^ fxP / 2 ^ k) ln2Fx)) ip
    | _ => invalid fp32

def fLg2 (a : Nat) : Coded :=
  match nanOf fp32 [a] with
  | some r => r
  | none =>
    match fp32.value a with
    | .inf s => if s then invalid fp32 else (fp32.infMag, 0)
    | .fin s n e =>
      if n = 0 then (fp32.signed true fp32.infMag, fxDZ)
      else if s then invalid fp32
      else
        let lg := Nat.log2 n
        let ip : Int := (lg : Int) + e
        if n = 2 ^ lg then roundTo fp32 .rne false (decide (ip < 0)) ip.natAbs 0 false
        else
          let v : Int := ip * (2 ^ fxP : Nat) + (log2Fx n (2 ^ lg) : Nat)
          roundFx (decide (v < 0)) v.natAbs 0
    | _ => invalid fp32

/-- sin(πx) for x = n × 2^e > 0 not a multiple of 1/2, and cos(πx): reduced modulo 2 to a quadrant and a rest r / 2^k
below 1/2, exactly. -/
def quadrant (n : Nat) (e : Int) : Nat × Nat × Nat :=
  let k := if e < 0 then (-e).toNat else 0
  let y := if e < 0 then n else n * 2 ^ e.toNat
  let t := y % 2 ^ (k + 1)
  (2 * t / 2 ^ k, (2 * t) % 2 ^ k, k + 1)

/-- The rest r / 2^k times π, in fixed point. -/
def restPi (r k : Nat) : Nat := r * piFx / 2 ^ k

def fSinpi (a : Nat) : Coded :=
  match nanOf fp32 [a] with
  | some r => r
  | none =>
    match fp32.value a with
    | .inf _ => invalid fp32
    | .fin s n e =>
      if n = 0 || decide (0 ≤ e) then (fp32.signed s 0, 0)
      else
        let (q, r, k) := quadrant n e
        let neg := s != decide (2 ≤ q)
        if r = 0 then (if q % 2 = 0 then (fp32.signed s 0, 0) else (fp32.signed neg 0x3F800000, 0))
        else roundFx neg (if q % 2 = 0 then sinFx (restPi r k) else cosFx (restPi r k)) 0
    | _ => invalid fp32

def fCospi (a : Nat) : Coded :=
  match nanOf fp32 [a] with
  | some r => r
  | none =>
    match fp32.value a with
    | .inf _ => invalid fp32
    | .fin _ n e =>
      let (q, r, k) := quadrant n e
      let neg := q == 1 || q == 2
      if r = 0 then (if q % 2 = 1 then (0, 0) else (fp32.signed neg 0x3F800000, 0))
      else roundFx neg (if q % 2 = 0 then cosFx (restPi r k) else sinFx (restPi r k)) 0
    | _ => invalid fp32

end Sys2Proof.Machine
end

