-- ==== Sys2Proof/Decode.lean ====
section
/-!
DEFINITION. Decoding and encoding of instruction words, from Table 3.1 (the word), Tables 3.3 to 3.7 and R68 (the
formats), Tables 3.9 and 3.10 (dual words) and the opcode map, Tables 3.11 to 3.16. Decoding is total on any bytes: a
word of no assigned operation decodes to `unassignedOpcode`, and fewer than eight bytes are rejected by name.
-/
namespace Sys2Proof

/-- Why bytes are no instruction word. -/
inductive DecodeError where
  /-- fewer than the eight bytes of a word (R56) -/
  | truncated
  deriving DecidableEq, Repr

/-- A word from its payload fields and its low half-word (Table 3.1). -/
def wordOf (payload : BitVec 48) (dual : Bool) (c : Ctl) : BitVec 64 :=
  payload ++ (BitVec.ofBool dual ++ (c.wait ++ c.dist))

/-- The payload bits P[lo + n - 1 : lo] of a word. -/
def pbits (w : BitVec 64) (lo n : Nat) : BitVec n := w.extractLsb' (16 + lo) n

/-- The payload bit P[i] of a word. -/
def pbit (w : BitVec 64) (i : Nat) : Bool := w.getLsbD (16 + i)

def Ctl.ofWord (w : BitVec 64) : Ctl := ⟨w.extractLsb' 0 3, w.extractLsb' 3 12⟩

def FmtA.payload (f : FmtA) (op : BitVec 9) : BitVec 48 :=
  BitVec.ofBool f.xw ++ (BitVec.ofBool f.nf ++ (BitVec.ofBool f.nwb ++ (f.sc ++ (f.sb ++ (f.sa ++ (f.dst ++
    (BitVec.ofBool f.pneg ++ (f.pred ++ op))))))))

def FmtA.ofWord (w : BitVec 64) : FmtA :=
  ⟨Ctl.ofWord w, pbits w 9 3, pbit w 12, pbits w 13 8, pbits w 21 8, pbits w 29 8, pbits w 37 8,
    pbit w 45, pbit w 46, pbit w 47⟩

def FmtI.payload (f : FmtI) (op : BitVec 9) : BitVec 48 :=
  f.imm ++ (f.sa ++ (f.dst ++ (BitVec.ofBool f.pneg ++ (f.pred ++ op))))

def FmtI.ofWord (w : BitVec 64) : FmtI :=
  ⟨Ctl.ofWord w, pbits w 9 3, pbit w 12, pbits w 13 8, pbits w 21 8, pbits w 29 19⟩

def FmtM.payload (f : FmtM) (op : BitVec 9) : BitVec 48 :=
  BitVec.ofBool f.lu ++ (f.ep ++ (f.setf ++ (f.off ++ (f.base ++ (f.data ++
    (BitVec.ofBool f.pneg ++ (f.pred ++ op)))))))

def FmtM.ofWord (w : BitVec 64) : FmtM :=
  ⟨Ctl.ofWord w, pbits w 9 3, pbit w 12, pbits w 13 8, pbits w 21 8, pbits w 29 12, pbits w 41 4,
    pbits w 45 2, pbit w 47⟩

def FmtS.payload (f : FmtS) (op : BitVec 9) : BitVec 48 :=
  f.sub ++ (f.setf ++ (f.c ++ (f.b ++ (f.a ++ (BitVec.ofBool f.pneg ++ (f.pred ++ op))))))

def FmtS.ofWord (w : BitVec 64) : FmtS :=
  ⟨Ctl.ofWord w, pbits w 9 3, pbit w 12, pbits w 13 8, pbits w 21 8, pbits w 29 8, pbits w 37 4, pbits w 41 7⟩

def FmtX.payload (f : FmtX) (op : BitVec 9) : BitVec 48 :=
  f.res ++ (f.setf ++ (f.fmt ++ (BitVec.ofBool f.accd ++ (BitVec.ofBool f.negb ++ (BitVec.ofBool f.nega ++
    (BitVec.ofBool f.bsrc ++ (BitVec.ofBool f.asrc ++ (f.b ++ (f.a ++ (f.acc ++
      (BitVec.ofBool f.p12 ++ (f.pred ++ op))))))))))))

def FmtX.ofWord (w : BitVec 64) : FmtX :=
  ⟨Ctl.ofWord w, pbits w 9 3, pbit w 12, pbits w 13 3, pbits w 16 8, pbits w 24 8, pbit w 32, pbit w 33,
    pbit w 34, pbit w 35, pbit w 36, pbits w 37 4, pbits w 41 4, pbits w 45 3⟩

def FmtL.payload (f : FmtL) (op : BitVec 9) : BitVec 48 := f.top ++ (f.lit ++ (f.pred ++ op))

def FmtL.ofWord (w : BitVec 64) : FmtL := ⟨Ctl.ofWord w, pbits w 9 3, pbits w 12 32, pbits w 44 4⟩

def Half.bits (h : Half) : BitVec 24 := h.sb ++ (h.sa ++ (h.dst ++ h.hop))

/-- Half k of a dual word: P[24k + 23 : 24k] (R73). -/
def Half.ofWord (w : BitVec 64) (k : Nat) : Half :=
  ⟨pbits w (24 * k) 6, pbits w (24 * k + 6) 6, pbits w (24 * k + 12) 6, pbits w (24 * k + 18) 6⟩

/-- The opcode of a full word, OP = P[8:0] (R66). -/
def opcode (w : BitVec 64) : Nat := (pbits w 0 9).toNat

/-- Format A rows of group 0 (Table 3.11). -/
def rowsA0 : List (Nat × (FmtA → Instr)) :=
  [(0x000, .iadd),
   (0x001, .isub),
   (0x002, .iadd3),
   (0x003, .imul),
   (0x004, .imulhS32),
   (0x005, .imulhN32),
   (0x006, .imad),
   (0x007, .imadwS32),
   (0x008, .imadwN32),
   (0x009, .iminS32),
   (0x00A, .iminN32),
   (0x00B, .imaxS32),
   (0x00C, .imaxN32),
   (0x00D, .iabs),
   (0x00E, .shl),
   (0x00F, .shr),
   (0x010, .sar),
   (0x011, .rot),
   (0x012, .andR),
   (0x013, .orR),
   (0x014, .xorR),
   (0x015, .notR),
   (0x016, .blut),
   (0x017, .popc),
   (0x018, .clz),
   (0x019, .brev),
   (0x01A, .bfeN32),
   (0x01B, .bfeS32),
   (0x01C, .bfi),
   (0x01D, .sel),
   (0x01E, .lea),
   (0x01F, .icmp)]

/-- Format A rows of group 1 (Table 3.12). -/
def rowsA1 : List (Nat × (FmtA → Instr)) :=
  [(0x040, .fadd),
   (0x041, .faddRz),
   (0x042, .faddRu),
   (0x043, .faddRd),
   (0x044, .fmul),
   (0x045, .fmulRz),
   (0x046, .fmulRu),
   (0x047, .fmulRd),
   (0x048, .ffma),
   (0x049, .ffmaRz),
   (0x04A, .ffmaRu),
   (0x04B, .ffmaRd),
   (0x04C, .fmin),
   (0x04D, .fmax),
   (0x04E, .fcmp),
   (0x04F, .fclass),
   (0x050, .frcp),
   (0x051, .frsq),
   (0x052, .fsqrt),
   (0x053, .fdiv),
   (0x054, .fex2),
   (0x055, .flg2),
   (0x056, .fsinpi),
   (0x057, .fcospi),
   (0x058, .hadd2F16),
   (0x059, .hmul2F16),
   (0x05A, .hfma2F16),
   (0x05B, .hadd2Bf16),
   (0x05C, .hmul2Bf16),
   (0x05D, .hfma2Bf16)]

/-- Format A rows of groups 2, 3 and 5 (Tables 3.13 and 3.15). -/
def rowsA2 : List (Nat × (FmtA → Instr)) :=
  [(0x080, .cvt),
   (0x081, .cvtRz),
   (0x082, .cvtRu),
   (0x083, .cvtRd),
   (0x084, .pack),
   (0x085, .unpack),
   (0x086, .qblk),
   (0x087, .dqblk),
   (0x0C1, fun f => if f.sc.getLsbD 0 then .brxRel f else .brx f),
   (0x0CD, fun f => if f.sc == 1 then .psetAll f else .pset f),
   (0x0CE, .plop),
   (0x0CF, .mov),
   (0x0D8, .wadd),
   (0x0D9, .wsub),
   (0x0DA, .wmul),
   (0x0DB, .wand),
   (0x0DC, .wor),
   (0x0DD, .wxor),
   (0x0DE, .wshl),
   (0x0DF, .wshr),
   (0x0E0, .wmov),
   (0x0E1, .wcmp),
   (0x140, .xlane),
   (0x141, .pcons),
   (0x142, .peers),
   (0x143, .red),
   (0x144, .redF32),
   (0x145, .scan),
   (0x146, .scanF32)]

/-- Format I rows (Tables 3.11 and 3.13). -/
def rowsI : List (Nat × (FmtI → Instr)) :=
  [(0x020, .iaddImm),
   (0x021, .imulImm),
   (0x022, .andImm),
   (0x023, .orImm),
   (0x024, .xorImm),
   (0x025, .shlImm),
   (0x026, .shrImm),
   (0x027, .sarImm),
   (0x028, .icmpImm),
   (0x0C0, .bra),
   (0x0C2, .call),
   (0x0C9, .trap),
   (0x0D0, .movi),
   (0x0E2, .waddImm),
   (0x0E3, .wmovImm)]

/-- Format M rows (Table 3.14). -/
def rowsM : List (Nat × (FmtM → Instr)) :=
  [(0x100, .ldLane .n8),
   (0x101, .ldLane .s8),
   (0x102, .ldLane .n16),
   (0x103, .ldLane .s16),
   (0x104, .ldLane .w32),
   (0x105, .ldLane .w64),
   (0x106, .ldLane .w128),
   (0x107, .ldUniform .n8),
   (0x108, .ldUniform .s8),
   (0x109, .ldUniform .n16),
   (0x10A, .ldUniform .s16),
   (0x10B, .ldUniform .w32),
   (0x10C, .ldUniform .w64),
   (0x10D, .ldUniform .w128),
   (0x10E, .stLane .w8),
   (0x10F, .stLane .w16),
   (0x110, .stLane .w32),
   (0x111, .stLane .w64),
   (0x112, .stLane .w128),
   (0x113, .stUniform .w8),
   (0x114, .stUniform .w16),
   (0x115, .stUniform .w32),
   (0x116, .stUniform .w64),
   (0x117, .stUniform .w128),
   (0x118, .lda false),
   (0x119, .lda true),
   (0x11A, .str false),
   (0x11B, .str true),
   (0x11C, .lds .n8),
   (0x11D, .lds .s8),
   (0x11E, .lds .n16),
   (0x11F, .lds .s16),
   (0x120, .lds .w32),
   (0x121, .lds .w64),
   (0x122, .lds .w128),
   (0x123, .sts .w8),
   (0x124, .sts .w16),
   (0x125, .sts .w32),
   (0x126, .sts .w64),
   (0x127, .sts .w128),
   (0x128, .ldfrag),
   (0x129, .stfrag),
   (0x12A, .pref)]

/-- Format S rows of groups 3 and 4 (Tables 3.13 and 3.14); the forms of one opcode are told apart by the field
their chapter names. -/
def rowsS0 : List (Nat × (FmtS → Instr)) :=
  [(0x0C3, fun f => if f.sub == 1 then .retH f else .ret f),
   (0x0C4, .exit),
   (0x0C5, .yield),
   (0x0C6, .rep),
   (0x0C8, .nop),
   (0x0CA, .brk),
   (0x0CB, .rdsr),
   (0x0CC, .wrsr),
   (0x0D1, .ldix),
   (0x0D2, .stix),
   (0x0D3, .rng4),
   (0x0D4, .rdtime),
   (0x0D5, fun f => if f.sub == 1 then .movwFirst f else .movwLane f),
   (0x0D6, .movwToLane),
   (0x12B, fun f => if f.sub == 1 then .fenceSig f else .fenceFull f),
   (0x12C, .atom),
   (0x12D, .atoms)]

/-- Format S rows of groups 5 and 6 (Table 3.15). -/
def rowsS1 : List (Nat × (FmtS → Instr)) :=
  [(0x147, .elect),
   (0x148, .bar),
   (0x149, fun f => if f.sub.extractLsb' 0 2 == 0 then .nbarArrive f
      else if f.sub.extractLsb' 0 2 == 1 then .nbarWait f else .nbarSync f),
   (0x14A, .gbar),
   (0x14B, .monitor),
   (0x14C, .waitm),
   (0x180, .mshape),
   (0x185, .attn),
   (0x186, .pgseal),
   (0x187, .psel),
   (0x188, .topk),
   (0x189, .mergek),
   (0x18A, .nextt)]

/-- Format S rows of group 7 (Table 3.16). -/
def rowsS2 : List (Nat × (FmtS → Instr)) :=
  [(0x1C0, .ckick),
   (0x1C1, .cbset),
   (0x1C2, .cbwait),
   (0x1C3, .cqfence),
   (0x1C4, .tdep),
   (0x1C5, fun f => if f.a.getLsbD 7 then .tcpyWait f else .tcpy f),
   (0x1C6, fun f => if f.a.getLsbD 7 then .ttakWait f else .ttak f),
   (0x1C8, .sxinit),
   (0x1C9, .sxapp),
   (0x1CA, .sxqry),
   (0x1CB, .sxtrim),
   (0x1CC, .sxsave),
   (0x1CD, .sxload),
   (0x1D0, .dsweep),
   (0x1D1, .pgrecall),
   (0x1D2, .pgpin),
   (0x1D3, .pgunpin),
   (0x1D4, .pgdemote),
   (0x1D8, .launch),
   (0x1DC, .ctokw),
   (0x1DD, .ctokp)]

/-- Format X rows (Table 3.15). -/
def rowsX : List (Nat × (FmtX → Instr)) :=
  [(0x181, .mma),
   (0x182, .mrd),
   (0x183, .mwr),
   (0x184, .mzero)]

/-- All format A rows. -/
def rowsA : List (Nat × (FmtA → Instr)) := rowsA0 ++ rowsA1 ++ rowsA2

/-- All format S rows. -/
def rowsS : List (Nat × (FmtS → Instr)) := rowsS0 ++ rowsS1 ++ rowsS2

/-- The opcode of LIT, the one word of format L (R68). -/
def opLit : Nat := 0x0C7

/-- A full word (DUAL = 0), by the opcode map (R87). -/
def decodeFull (w : BitVec 64) : Instr :=
  let op := opcode w
  match rowsA.lookup op with
  | some k => k (FmtA.ofWord w)
  | none =>
  match rowsI.lookup op with
  | some k => k (FmtI.ofWord w)
  | none =>
  match rowsM.lookup op with
  | some k => k (FmtM.ofWord w)
  | none =>
  match rowsS.lookup op with
  | some k => k (FmtS.ofWord w)
  | none =>
  match rowsX.lookup op with
  | some k => k (FmtX.ofWord w)
  | none => if op == opLit then .lit (FmtL.ofWord w) else .unassignedOpcode w

/-- A dual word (DUAL = 1), by Table 3.10. -/
def decodeDual (w : BitVec 64) : Instr :=
  let h0 := Half.ofWord w 0
  let h1 := Half.ofWord w 1
  if assignedHop h0 && assignedHop h1 then .dualWord (Ctl.ofWord w) h0 h1 else .unassignedOpcode w

/-- The instruction of a 64-bit word. -/
def decodeWord (w : BitVec 64) : Instr := if w.getLsbD 15 then decodeDual w else decodeFull w

/-- A 64-bit word from eight bytes, little-endian (R5, R56). -/
def wordOfBytes (b0 b1 b2 b3 b4 b5 b6 b7 : BitVec 8) : BitVec 64 :=
  b7 ++ (b6 ++ (b5 ++ (b4 ++ (b3 ++ (b2 ++ (b1 ++ b0))))))

/-- The first instruction of a list of bytes, and the bytes after it. -/
def decode : List (BitVec 8) → Except DecodeError (Instr × List (BitVec 8))
  | b0 :: b1 :: b2 :: b3 :: b4 :: b5 :: b6 :: b7 :: rest =>
    .ok (decodeWord (wordOfBytes b0 b1 b2 b3 b4 b5 b6 b7), rest)
  | _ => .error .truncated

/-- The bytes of a word as they are stored, lowest address first (R56). -/
def bytesOfWord (w : BitVec 64) : List (BitVec 8) :=
  [w.extractLsb' 0 8, w.extractLsb' 8 8, w.extractLsb' 16 8, w.extractLsb' 24 8,
   w.extractLsb' 32 8, w.extractLsb' 40 8, w.extractLsb' 48 8, w.extractLsb' 56 8]

/-- The instruction this decoder reads from an instruction whose lowest `nbits` bits are `w`, bit 0 being the least
significant bit of the first word; the bits above `nbits` are zero. -/
def decodeTableWord (nbits w : Nat) : Option Instr :=
  match decode (bytesOfWord (BitVec.ofNat 64 (w % 2 ^ nbits))) with
  | .ok (i, _) => some i
  | .error _ => none

/-- The opcode offset of a load suffix within its seven opcodes (Table 3.14). -/
def LoadKind.index : LoadKind → Nat
  | .n8 => 0
  | .s8 => 1
  | .n16 => 2
  | .s16 => 3
  | .w32 => 4
  | .w64 => 5
  | .w128 => 6

/-- The opcode offset of a store suffix within its five opcodes (Table 3.14). -/
def StoreKind.index : StoreKind → Nat
  | .w8 => 0
  | .w16 => 1
  | .w32 => 2
  | .w64 => 3
  | .w128 => 4

def encA (op : Nat) (f : FmtA) : Option (BitVec 64) := some (wordOf (f.payload (BitVec.ofNat 9 op)) false f.ctl)
def encI (op : Nat) (f : FmtI) : Option (BitVec 64) := some (wordOf (f.payload (BitVec.ofNat 9 op)) false f.ctl)
def encM (op : Nat) (f : FmtM) : Option (BitVec 64) := some (wordOf (f.payload (BitVec.ofNat 9 op)) false f.ctl)
def encS (op : Nat) (f : FmtS) : Option (BitVec 64) := some (wordOf (f.payload (BitVec.ofNat 9 op)) false f.ctl)
def encX (op : Nat) (f : FmtX) : Option (BitVec 64) := some (wordOf (f.payload (BitVec.ofNat 9 op)) false f.ctl)

/-- The word of an instruction; none for the steps that are no word of a program. -/
def encode : Instr → Option (BitVec 64)
  | .iadd f => encA 0x000 f
  | .isub f => encA 0x001 f
  | .iadd3 f => encA 0x002 f
  | .imul f => encA 0x003 f
  | .imulhS32 f => encA 0x004 f
  | .imulhN32 f => encA 0x005 f
  | .imad f => encA 0x006 f
  | .imadwS32 f => encA 0x007 f
  | .imadwN32 f => encA 0x008 f
  | .iminS32 f => encA 0x009 f
  | .iminN32 f => encA 0x00A f
  | .imaxS32 f => encA 0x00B f
  | .imaxN32 f => encA 0x00C f
  | .iabs f => encA 0x00D f
  | .shl f => encA 0x00E f
  | .shr f => encA 0x00F f
  | .sar f => encA 0x010 f
  | .rot f => encA 0x011 f
  | .andR f => encA 0x012 f
  | .orR f => encA 0x013 f
  | .xorR f => encA 0x014 f
  | .notR f => encA 0x015 f
  | .blut f => encA 0x016 f
  | .popc f => encA 0x017 f
  | .clz f => encA 0x018 f
  | .brev f => encA 0x019 f
  | .bfeN32 f => encA 0x01A f
  | .bfeS32 f => encA 0x01B f
  | .bfi f => encA 0x01C f
  | .sel f => encA 0x01D f
  | .lea f => encA 0x01E f
  | .icmp f => encA 0x01F f
  | .iaddImm f => encI 0x020 f
  | .imulImm f => encI 0x021 f
  | .andImm f => encI 0x022 f
  | .orImm f => encI 0x023 f
  | .xorImm f => encI 0x024 f
  | .shlImm f => encI 0x025 f
  | .shrImm f => encI 0x026 f
  | .sarImm f => encI 0x027 f
  | .icmpImm f => encI 0x028 f
  | .fadd f => encA 0x040 f
  | .faddRz f => encA 0x041 f
  | .faddRu f => encA 0x042 f
  | .faddRd f => encA 0x043 f
  | .fmul f => encA 0x044 f
  | .fmulRz f => encA 0x045 f
  | .fmulRu f => encA 0x046 f
  | .fmulRd f => encA 0x047 f
  | .ffma f => encA 0x048 f
  | .ffmaRz f => encA 0x049 f
  | .ffmaRu f => encA 0x04A f
  | .ffmaRd f => encA 0x04B f
  | .fmin f => encA 0x04C f
  | .fmax f => encA 0x04D f
  | .fcmp f => encA 0x04E f
  | .fclass f => encA 0x04F f
  | .frcp f => encA 0x050 f
  | .frsq f => encA 0x051 f
  | .fsqrt f => encA 0x052 f
  | .fdiv f => encA 0x053 f
  | .fex2 f => encA 0x054 f
  | .flg2 f => encA 0x055 f
  | .fsinpi f => encA 0x056 f
  | .fcospi f => encA 0x057 f
  | .hadd2F16 f => encA 0x058 f
  | .hmul2F16 f => encA 0x059 f
  | .hfma2F16 f => encA 0x05A f
  | .hadd2Bf16 f => encA 0x05B f
  | .hmul2Bf16 f => encA 0x05C f
  | .hfma2Bf16 f => encA 0x05D f
  | .cvt f => encA 0x080 f
  | .cvtRz f => encA 0x081 f
  | .cvtRu f => encA 0x082 f
  | .cvtRd f => encA 0x083 f
  | .pack f => encA 0x084 f
  | .unpack f => encA 0x085 f
  | .qblk f => encA 0x086 f
  | .dqblk f => encA 0x087 f
  | .bra f => encI 0x0C0 f
  | .brx f => encA 0x0C1 f
  | .brxRel f => encA 0x0C1 f
  | .call f => encI 0x0C2 f
  | .ret f => encS 0x0C3 f
  | .retH f => encS 0x0C3 f
  | .exit f => encS 0x0C4 f
  | .yield f => encS 0x0C5 f
  | .rep f => encS 0x0C6 f
  | .repIteration _ _ => none
  | .lit f => some (wordOf (f.payload 0x0C7) false f.ctl)
  | .nop f => encS 0x0C8 f
  | .trap f => encI 0x0C9 f
  | .brk f => encS 0x0CA f
  | .rdsr f => encS 0x0CB f
  | .wrsr f => encS 0x0CC f
  | .pset f => encA 0x0CD f
  | .psetAll f => encA 0x0CD f
  | .plop f => encA 0x0CE f
  | .mov f => encA 0x0CF f
  | .movi f => encI 0x0D0 f
  | .ldix f => encS 0x0D1 f
  | .stix f => encS 0x0D2 f
  | .rng4 f => encS 0x0D3 f
  | .rdtime f => encS 0x0D4 f
  | .movwLane f => encS 0x0D5 f
  | .movwFirst f => encS 0x0D5 f
  | .movwToLane f => encS 0x0D6 f
  | .wadd f => encA 0x0D8 f
  | .wsub f => encA 0x0D9 f
  | .wmul f => encA 0x0DA f
  | .wand f => encA 0x0DB f
  | .wor f => encA 0x0DC f
  | .wxor f => encA 0x0DD f
  | .wshl f => encA 0x0DE f
  | .wshr f => encA 0x0DF f
  | .wmov f => encA 0x0E0 f
  | .wcmp f => encA 0x0E1 f
  | .waddImm f => encI 0x0E2 f
  | .wmovImm f => encI 0x0E3 f
  | .dualWord c h0 h1 => some (wordOf (h1.bits ++ h0.bits) true c)
  | .ldLane k f => encM (0x100 + k.index) f
  | .ldUniform k f => encM (0x107 + k.index) f
  | .stLane k f => encM (0x10E + k.index) f
  | .stUniform k f => encM (0x113 + k.index) f
  | .lda w f => encM (if w then 0x119 else 0x118) f
  | .str w f => encM (if w then 0x11B else 0x11A) f
  | .lds k f => encM (0x11C + k.index) f
  | .sts k f => encM (0x123 + k.index) f
  | .ldfrag f => encM 0x128 f
  | .stfrag f => encM 0x129 f
  | .pref f => encM 0x12A f
  | .fenceFull f => encS 0x12B f
  | .fenceSig f => encS 0x12B f
  | .atom f => encS 0x12C f
  | .atoms f => encS 0x12D f
  | .xlane f => encA 0x140 f
  | .pcons f => encA 0x141 f
  | .peers f => encA 0x142 f
  | .red f => encA 0x143 f
  | .redF32 f => encA 0x144 f
  | .scan f => encA 0x145 f
  | .scanF32 f => encA 0x146 f
  | .elect f => encS 0x147 f
  | .bar f => encS 0x148 f
  | .nbarArrive f => encS 0x149 f
  | .nbarWait f => encS 0x149 f
  | .nbarSync f => encS 0x149 f
  | .gbar f => encS 0x14A f
  | .monitor f => encS 0x14B f
  | .waitm f => encS 0x14C f
  | .monTimeout _ _ => none
  | .mshape f => encS 0x180 f
  | .mma f => encX 0x181 f
  | .mrd f => encX 0x182 f
  | .mwr f => encX 0x183 f
  | .mzero f => encX 0x184 f
  | .attn f => encS 0x185 f
  | .pgseal f => encS 0x186 f
  | .psel f => encS 0x187 f
  | .topk f => encS 0x188 f
  | .mergek f => encS 0x189 f
  | .selectorOperation _ => none
  | .nextt f => encS 0x18A f
  | .ckick f => encS 0x1C0 f
  | .cbset f => encS 0x1C1 f
  | .cbwait f => encS 0x1C2 f
  | .cqfence f => encS 0x1C3 f
  | .copyRequest _ _ => none
  | .tdep f => encS 0x1C4 f
  | .tcpy f => encS 0x1C5 f
  | .tcpyWait f => encS 0x1C5 f
  | .ttak f => encS 0x1C6 f
  | .ttakWait f => encS 0x1C6 f
  | .tupleSliceServe _ => none
  | .tupleReply _ => none
  | .tupleTimeout _ => none
  | .regionDrain _ _ => none
  | .sxinit f => encS 0x1C8 f
  | .sxapp f => encS 0x1C9 f
  | .sxqry f => encS 0x1CA f
  | .sxtrim f => encS 0x1CB f
  | .sxsave f => encS 0x1CC f
  | .sxload f => encS 0x1CD f
  | .sxUnitPerform _ => none
  | .dsweep f => encS 0x1D0 f
  | .pgrecall f => encS 0x1D1 f
  | .pgpin f => encS 0x1D2 f
  | .pgunpin f => encS 0x1D3 f
  | .pgdemote f => encS 0x1D4 f
  | .demotionEngineOp _ => none
  | .slotRetirePush _ => none
  | .launch f => encS 0x1D8 f
  | .ctokw f => encS 0x1DC f
  | .ctokp f => encS 0x1DD f
  | .faultRecordWrite _ => none
  | .memRequestPerform _ _ _ => none
  | .atomSlicePerform _ _ => none
  | .operationComplete _ => none
  | .epochBoundary => none
  | .patrolScrub _ => none
  | .warpFree _ _ => none
  | .launchDispatch => none
  | .blockPlacement _ => none
  | .captureMigration _ => none
  | .restore => none
  | .preemptCapture _ => none
  | .preemptForcedReset _ => none
  | .cmdPreempt _ => none
  | .cmdResume _ => none
  | .cmdReset _ => none
  | .cmdUnload _ _ => none
  | .cmdUnloadForced _ _ => none
  | .cmdInvalidate _ _ => none
  | .qwrWrite _ _ => none
  | .predDeadlineWrite _ _ _ => none
  | .faultRetry _ _ => none
  | .faultFatal _ _ => none
  | .memcfgLock _ _ => none
  | .nrseedWrite _ _ => none
  | .sxhWrite _ _ _ _ => none
  | .mrExtend _ => none
  | .attestRequest _ _ => none
  | .recoveryReboot _ => none
  | .keySlotLoad _ _ => none
  | .registerWrite _ _ => none
  | .hostMemoryAccess _ => none
  | .peerStore _ _ _ _ => none
  | .peerDeposit _ _ _ => none
  | .eventRecordWrite _ => none
  | .moduleReset => none
  | .thermalTrip => none
  | .throttle _ => none
  | .debuggerResume _ => none
  | .softError _ => none
  | .unassignedOpcode w => some w
  | .instructionFetchFault => none

end Sys2Proof
end

