-- ==== Sys2Proof/Machine/Shapes.lean ====
section
/-!
DEFINITION. What each word names and what its fields allow, from the word's bits alone: the checks of R86 steps 1 and 2
(R65 to R72, R96, and each instruction's own field table), and the registers it reads and writes, on which the bank rule
(R76), the chain rules (R77 to R79), the bounds (R12, R69, R140, R265) and HAZARD (R64) are tested.
-/
namespace Sys2Proof.Machine

/-- How a word uses one of its operand fields. -/
inductive Fld where
  /-- a 32-bit lane source, Table 3.8 -/
  | r1 (c : BitVec 8)
  /-- a 64-bit lane source (R13, R72) -/
  | r2 (c : BitVec 8)
  /-- k consecutive lane registers as one source, their first a multiple of `al` -/
  | rk (c : BitVec 8) (k al : Nat)
  /-- k consecutive lane registers as a format X fragment, which does not count under the bank rule (R227) -/
  | rf (c : BitVec 8) (k al : Nat)
  /-- a 32-bit lane destination -/
  | d1 (c : BitVec 8)
  /-- a 64-bit lane destination (R72) -/
  | d2 (c : BitVec 8)
  /-- k consecutive lane registers as a destination -/
  | dk (c : BitVec 8) (k al : Nat)
  /-- a uniform source of a W-form: w0–w63, 0xFC, 0xFE (R70) -/
  | ws (c : BitVec 8)
  /-- a uniform destination of a W-form: w0–w63, 0xFC -/
  | wd (c : BitVec 8)
  /-- k consecutive uniform registers as a source, w0–w63 only, their first a multiple of `al` -/
  | uk (c : BitVec 8) (k al : Nat)
  /-- k consecutive uniform registers as a destination -/
  | vk (c : BitVec 8) (k al : Nat)
  /-- predicate read and written -/
  | p (n : Nat)
  | pd (n : Nat)

def Fld.legal : Fld → Bool
  | .r1 c => c != 0xFF
  | .r2 c => decide (c.toNat < 0xF8) && decide (c.toNat % 2 = 0) || (decide (0xFC ≤ c.toNat) && c != 0xFF)
  | .rk c k al => decide (c.toNat < 0xF8) && decide (c.toNat % al = 0) && decide (c.toNat + k ≤ 248)
  | .rf c _ al => decide (c.toNat < 0xF8) && decide (c.toNat % al = 0)
  | .d1 c => decide (c.toNat < 0xF8) || c == 0xFC
  | .d2 c => decide (c.toNat < 0xF8) && decide (c.toNat % 2 = 0)
  | .dk c _ al => decide (c.toNat < 0xF8) && decide (c.toNat % al = 0)
  | .ws c => decide (c.toNat < 64) || c == 0xFC || c == 0xFE
  | .wd c => decide (c.toNat < 64) || c == 0xFC
  | .uk c _ al => decide (c.toNat < 64) && decide (c.toNat % al = 0)
  | .vk c _ al => decide (c.toNat < 64) && decide (c.toNat % al = 0)
  | .p _ => true
  | .pd _ => true

/-- n, n + 1, … -/
def seqFrom (n k : Nat) : List Nat := (List.range k).map (n + ·)

/-- The lane registers a field names (R12: every register of a pair, quad or block). -/
def Fld.lanes : Fld → List Nat
  | .r1 c => if c.toNat < 0xF8 then [c.toNat] else []
  | .r2 c => if c.toNat < 0xF8 then [c.toNat, c.toNat + 1] else []
  | .rk c k _ => seqFrom c.toNat k
  | .rf c k _ => seqFrom c.toNat k
  | .d1 c => if c.toNat < 0xF8 then [c.toNat] else []
  | .d2 c => if c.toNat < 0xF8 then [c.toNat, c.toNat + 1] else []
  | .dk c k _ => seqFrom c.toNat k
  | _ => []

/-- The uniform registers a field names. -/
def Fld.unis : Fld → List Nat
  | .ws c => if c.toNat < 64 then [c.toNat] else []
  | .wd c => if c.toNat < 64 then [c.toNat] else []
  | .uk c k _ => seqFrom c.toNat k
  | .vk c k _ => seqFrom c.toNat k
  | _ => []

/-- The register whose bank a source field counts for (R76): its own, or that of its first register. -/
def Fld.bank : Fld → List Nat
  | .r1 c => if c.toNat < 0xF8 then [c.toNat % 4] else []
  | .r2 c => if c.toNat < 0xF8 then [c.toNat % 4] else []
  | .rk c _ _ => [c.toNat % 4]
  | _ => []

def Fld.isDst : Fld → Bool
  | .d1 _ => true
  | .d2 _ => true
  | .dk _ _ _ => true
  | .wd _ => true
  | .vk _ _ _ => true
  | .pd _ => true
  | _ => false

/-- The registers a field names, as locations. -/
def Fld.locs (f : Fld) : List Loc :=
  f.lanes.map Loc.lane ++ f.unis.map Loc.uni ++ (match f with
    | .p n => [Loc.pred n]
    | .pd n => if n = 7 then [] else [Loc.pred n]
    | _ => [])

/-- The latches a field reads. -/
def Fld.latches : Fld → List Nat
  | .r1 c => if 0xF8 ≤ c.toNat && c.toNat < 0xFC then [c.toNat - 0xF8] else []
  | _ => []

/-- The field names the literal. -/
def Fld.lit : Fld → Bool
  | .r1 c => c == 0xFE
  | .r2 c => c == 0xFE
  | .ws c => c == 0xFE
  | _ => false

/-- One full word, or one half of a dual word. -/
structure Piece where
  legal : Bool
  flds : List Fld

def Piece.ok (q : Piece) : Bool := q.legal && q.flds.all Fld.legal
def Piece.reads (q : Piece) : List Loc := (q.flds.filter (fun f => !f.isDst)).flatMap Fld.locs
def Piece.writes (q : Piece) : List Loc := (q.flds.filter Fld.isDst).flatMap Fld.locs

/-- What the issue of a word needs to know of it. -/
structure Shape where
  /-- one piece, or the two halves of a dual word -/
  pieces : List Piece
  /-- a word that may consume a literal (R82): format A or S, no transfer of control -/
  consumer : Bool := true
  /-- chain-eligible (R78), and how often it pushes (R77) -/
  eligible : Bool := false
  pushes : Nat := 0
  /-- LIT -/
  isLit : Bool := false
  /-- of group MXN or SXM (R88) -/
  mig : Bool := false
  /-- tile named by ACC (R140), barrier named by NBAR (R265) -/
  tile : Option Nat := none
  bar : Option Nat := none
  setf : BitVec 4 := 15

def Shape.flds (h : Shape) : List Fld := h.pieces.flatMap (·.flds)
def Shape.latches (h : Shape) : List Nat := h.flds.flatMap Fld.latches
def Shape.lit (h : Shape) : Bool := h.flds.any Fld.lit
def Shape.reads (h : Shape) : List Loc := h.pieces.flatMap Piece.reads
def Shape.writes (h : Shape) : List Loc := h.pieces.flatMap Piece.writes

/-- The bank rule holds (R76): no bank supplies more than two source operands. -/
def Shape.bankOk (h : Shape) : Bool :=
  let bs := h.flds.flatMap Fld.bank
  (List.range 4).all (fun b => decide ((bs.filter (· == b)).length ≤ 2))

/-- The predicate a full word reads through PRED (R65). -/
def predFld (pred : BitVec 3) : List Fld := if pred = 7 then [] else [.p pred.toNat]

/-- PRED and PNEG allowed (R65): anything but 7 with PNEG = 1; `once` asks for 7 and 0. -/
def predOk (pred : BitVec 3) (pneg once : Bool) : Bool :=
  if once then pred == 7 && !pneg else !(pred == 7 && pneg)

/-- SB of format A as a source (R69). -/
def sbSrc1 (f : FmtA) : Fld := if f.xw then .uk f.sb 1 1 else .r1 f.sb
def sbSrc2 (f : FmtA) : Fld := if f.xw then .uk f.sb 2 2 else .r2 f.sb

/-- A format A word of groups 0 to 2 or MOV that writes a 32-bit lane register and pushes it: `nf` says that NF may be
1, `xw` that XW may (R96). NWB asks for DST = 0xFC. -/
def aluShape (f : FmtA) (legal xw nf : Bool) (srcs : List Fld) : Shape :=
  { pieces := [⟨legal && predOk f.pred f.pneg false && (xw || !f.xw) && (nf || !f.nf) && (!f.nwb || f.dst == 0xFC),
      predFld f.pred ++ .d1 f.dst :: srcs⟩]
    eligible := true
    pushes := 1 }

/-- The same with a pair as destination: NWB must be 0. -/
def aluShape64 (f : FmtA) (legal xw nf : Bool) (srcs : List Fld) : Shape :=
  { pieces := [⟨legal && predOk f.pred f.pneg false && (xw || !f.xw) && (nf || !f.nf) && !f.nwb,
      predFld f.pred ++ .d2 f.dst :: srcs⟩]
    eligible := true
    pushes := 1 }

/-- A compare: a predicate as destination, NWB 0 (R105, R110). -/
def cmpShape (f : FmtA) (legal nf : Bool) (srcs : List Fld) : Shape :=
  { pieces := [⟨legal && predOk f.pred f.pneg false && (nf || !f.nf) && !f.nwb && f.sc == 0,
      predFld f.pred ++ .pd (f.dst.toNat % 8) :: srcs⟩]
    eligible := true
    pushes := 1 }

/-- Two 32-bit sources, SC = 0. -/
def two (f : FmtA) (nf : Bool) : Shape := aluShape f (f.sc == 0) true nf [.r1 f.sa, sbSrc1 f]
/-- One 32-bit source, SB = SC = 0, XW = 0. -/
def one (f : FmtA) (nf : Bool) : Shape := aluShape f (f.sb == 0 && f.sc == 0) false nf [.r1 f.sa]
/-- Three 32-bit sources. -/
def three (f : FmtA) (nf : Bool) : Shape := aluShape f true true nf [.r1 f.sa, sbSrc1 f, .r1 f.sc]

/-- IADD and ISUB (Table 4.2). -/
def addShape (f : FmtA) : Shape :=
  if f.sc == 1 then aluShape64 f true true false [.r2 f.sa, sbSrc2 f]
  else aluShape f (f.sc == 0 || f.sc == 2) true false [.r1 f.sa, sbSrc1 f]

/-- ICMP (Table 4.4). -/
def icmpShape (f : FmtA) : Shape :=
  cmpShape f (decide (bitsN f.dst.toNat 5 3 < 6)) false
    (if f.dst.getLsbD 7 then [.r2 f.sa, sbSrc2 f] else [.r1 f.sa, sbSrc1 f])

/-- A format I word of group 0, or MOVI. -/
def immShape (f : FmtI) (legal : Bool) (srcs : List Fld) : Shape :=
  { pieces := [⟨legal && predOk f.pred f.pneg false, predFld f.pred ++ .d1 f.dst :: srcs⟩]
    consumer := false
    eligible := true
    pushes := 1 }

/-- A float type of 16 or 8 bits, or INT8, that CVT allows (R113, R114: not 0x04–0x06). -/
def cvtTypeOk (t : Nat) : Bool := t < 4 || t == 7 || (0x10 ≤ t && t ≤ 0x17)
def cvtFloat (t : Nat) : Bool := t < 4 || t == 0x10
/-- The width of a type in a register (Table 4.11). -/
def typeWidth (t : Nat) : Nat :=
  if t = 0 || t = 1 || t = 0x11 || t = 0x15 then 16
  else if t = 6 then 4
  else if t < 8 || t = 0x14 then 8
  else if t = 0x13 || t = 0x17 then 64 else 32
def typeSlots (t : Nat) : Nat := if typeWidth t = 16 then 2 else if typeWidth t = 8 then 4 else 1

def cvtShape (f : FmtA) : Shape :=
  let dt := f.sb.toNat % 32
  let st := f.sc.toNat % 32
  let ftz := f.sb.getLsbD 6
  let legal := !f.sb.getLsbD 7 && !f.sc.getLsbD 7 && cvtTypeOk dt && cvtTypeOk st &&
    decide (bitsN f.sc.toNat 6 5 < typeSlots st) && (!ftz || (cvtFloat dt && cvtFloat st))
  let src := if typeWidth st = 64 then [Fld.r2 f.sa] else [Fld.r1 f.sa]
  -- an integer to integer conversion raises no flag (R115), so NF must be 0 there (R96)
  let nf := cvtFloat dt || cvtFloat st
  if typeWidth dt = 64 then aluShape64 f legal false nf src else aluShape f legal false nf src

def packShape (f : FmtA) : Shape :=
  let w := typeWidth (f.sc.toNat % 8)
  let pos := bitsN f.sc.toNat 5 3
  aluShape f (!f.sc.getLsbD 7 && decide (pos < 16 / w)) false true [.r1 f.sa, .r1 f.sb, .r1 f.dst]

/-- UNPACK; NF = 1 is allowed in every form (log 51). -/
def unpackShape (f : FmtA) : Shape :=
  let w := typeWidth (f.sc.toNat % 8)
  let slot := bitsN f.sc.toNat 5 3
  let scaled := f.sc.getLsbD 6
  aluShape f (!f.sc.getLsbD 7 && decide (slot < 32 / w) && (scaled || f.sb == 0)) false true
    (if scaled then [.r1 f.sa, .r1 f.sb] else [.r1 f.sa])

/-- QBLK (its MODE in SC[3]) and DQBLK (SC[7:3] = 0). -/
def qblkShape (f : FmtA) (mode : Bool) : Shape :=
  let fmt := f.sc.toNat % 8
  aluShape f (f.sb == 0 && decide (f.sc.toNat < (if mode then 16 else 8)) && decide (2 ≤ fmt) && decide (fmt ≤ 6))
    false false [.r1 f.sa]

/-- A format A word that pushes nothing and writes what `flds` says; NWB, NF and XW must be 0. -/
def plainA (f : FmtA) (legal once : Bool) (flds : List Fld) : Shape :=
  { pieces := [⟨legal && predOk f.pred f.pneg once && !f.nwb && !f.nf && !f.xw, predFld f.pred ++ flds⟩] }

/-- A W-form of format A: once for the warp, SC = 0 (Table 4.6). -/
def wShape (f : FmtA) (legal : Bool) (flds : List Fld) : Shape := plainA f (legal && f.sc == 0) true flds

/-- A format S word; SETF as given. -/
def sShape (f : FmtS) (legal once : Bool) (flds : List Fld) : Shape :=
  { pieces := [⟨legal && predOk f.pred f.pneg once, predFld f.pred ++ flds⟩]
    setf := f.setf }

/-- The special registers of Table 4.14: number, width, readable, writable. -/
def srWidth (n : Nat) : Option Nat :=
  if n = 0x02 || n = 0x07 || n = 0x0A || n = 0x19 || n = 0x1B || n = 0x1D then some 64
  else if n ≤ 0x0B || (0x10 ≤ n && n ≤ 0x13) || (0x18 ≤ n && n ≤ 0x1D) then some 32 else none
def srWritable (n : Nat) : Bool := n == 0x10 || n == 0x11 || n == 0x12 || n == 0x13 || n == 0x1D

/-- SETF of a flagged word: 0–11 (R61); `opt` allows 15 too. -/
def flagOk (setf : BitVec 4) (opt : Bool) : Bool := decide (setf.toNat < 12) || (opt && setf == 15)

/-- A half of a dual word (Table 3.10): its sources and its legality. -/
def halfPiece (h : Half) (same : Bool) : Piece :=
  let n := h.hop.toNat
  let r (x : BitVec 6) : Fld := .r1 (x.setWidth 8)
  let d : Fld := .d1 (h.dst.setWidth 8)
  if n = 0x08 then ⟨!same && h.sb == 0, [d, r h.sa]⟩
  else if n = 0x09 then ⟨!same, [d, r h.sa, r h.sb, .p 0]⟩
  else if n < 0x10 then ⟨!same, [d, r h.sa, r h.sb]⟩
  else if n < 0x18 then ⟨!same, [d, r h.sa]⟩
  else ⟨!same && decide (n = 0x18) && h.sa == 0, [d]⟩

def dualShape (h0 h1 : Half) : Shape :=
  { pieces := [halfPiece h0 (h0.dst == h1.dst), halfPiece h1 (h0.dst == h1.dst)]
    consumer := false
    eligible := true
    pushes := 2 }


/-- A collective (R164): XW and NWB are 0, NF only where flags can rise; no push. -/
def collShape (f : FmtA) (legal nf : Bool) (flds : List Fld) : Shape :=
  { pieces := [⟨legal && predOk f.pred f.pneg false && !f.nwb && !f.xw && (nf || !f.nf), predFld f.pred ++ flds⟩] }

/-- PCONS (R167). -/
def pconsShape (f : FmtA) : Shape :=
  let mask := f.sc == 3
  collShape f (decide (f.sa.toNat < 16) && f.sb == 0 && decide (f.sc.toNat < 4) && (mask || decide (f.dst.toNat < 8)))
    false ((if mask then .d1 f.dst else .pd f.dst.toNat) :: [.p (f.sa.toNat % 8)])

/-- PEERS (R168). -/
def peersShape (f : FmtA) : Shape :=
  let one := f.sc.getLsbD 0
  let pd := bitsN f.sc.toNat 4 2
  collShape f (f.sb == 0 && decide (f.sc.toNat < 32) && (one || pd == 0)) false
    ([.d1 f.dst, if f.sc.getLsbD 1 then .r2 f.sa else .r1 f.sa] ++ (if one then [.pd pd] else []))

/-- RED, RED.f32, SCAN, SCAN.f32 (R169, Table 6.1). -/
def redShape (f : FmtA) (scan f32 : Bool) : Shape :=
  collShape f (f.sb == 0 && decide (f.sc.toNat < 16) && (scan || !f.sc.getLsbD 3) &&
    (!f32 || decide (f.sc.toNat % 8 < 3))) f32 [.d1 f.dst, .r1 f.sa]

/-- Bytes of an access, by suffix (R173). -/
def loadSize (k : LoadKind) : Nat :=
  match k with
  | .n8 => 1
  | .s8 => 1
  | .n16 => 2
  | .s16 => 2
  | .w32 => 4
  | .w64 => 8
  | .w128 => 16

def storeSize (k : StoreKind) : Nat :=
  match k with
  | .w8 => 1
  | .w16 => 2
  | .w32 => 4
  | .w64 => 8
  | .w128 => 16

/-- DATA of a load of s bytes as a destination: 0xFC discards. -/
def dataDst (c : BitVec 8) (s : Nat) : List Fld :=
  if c = 0xFC then [] else if s ≤ 4 then [.d1 c] else if s = 8 then [.d2 c] else [.dk c 4 4]

/-- DATA of a store of s bytes as a source: 0xFC stores zero. -/
def dataSrc (c : BitVec 8) (s : Nat) : List Fld :=
  if c = 0xFC then [] else if s ≤ 4 then [.r1 c] else if s = 8 then [.r2 c] else [.rk c 4 4]

/-- DATA names a lane register or 0xFC (R173). -/
def dataOk (c : BitVec 8) : Bool := decide (c.toNat < 0xF8) || c == 0xFC

/-- A lane register, and no other code of Table 3.8. -/
def laneOnly (c : BitVec 8) : Bool := decide (c.toNat < 0xF8)

/-- A format M word (R172, Table 6.2): `flagged` asks for SETF 0–11. -/
def mShape (f : FmtM) (legal once flagged lu ep : Bool) (flds : List Fld) : Shape :=
  { pieces := [⟨legal && predOk f.pred f.pneg once && flagOk f.setf (!flagged) && (lu || !f.lu) && (ep || f.ep == 0),
      predFld f.pred ++ flds⟩]
    consumer := false
    setf := f.setf }

def ldShape (s : Nat) (f : FmtM) (uni : Bool) : Shape :=
  mShape f (dataOk f.data && (uni || dataOk f.base)) false true true true
    ((if uni then .uk f.base 2 2 else .r2 f.base) :: dataDst f.data s)

def stShape (s : Nat) (f : FmtM) (uni : Bool) : Shape :=
  mShape f (dataOk f.data && (uni || dataOk f.base)) false false false true
    ((if uni then .uk f.base 2 2 else .r2 f.base) :: dataSrc f.data s)

/-- ATOM and ATOMS (R192, Table 6.8). The pair of a 32-bit cas, as its quad of 64 bits, is one of lane registers: 0xFC and 0xFE are
ILLEGAL there (DEDUCED, log 51). -/
def atomShape (f : FmtS) (scratch : Bool) : Shape :=
  let op := f.sub.toNat % 16
  let w64 := f.sub.getLsbD 6
  let posted := f.a == 0xFC
  sShape f (decide (op < 12) && !(w64 && decide (10 ≤ op)) && (!scratch || bitsN f.sub.toNat 5 4 == 0) &&
      laneOnly f.b && (op != 9 || laneOnly f.c) && flagOk f.setf posted) false
    ((if posted then [] else if w64 then [.d2 f.a] else [.d1 f.a]) ++
      [if scratch then .r1 f.b else .r2 f.b,
        if op = 9 then (if w64 then .rk f.c 4 4 else .r2 f.c) else if w64 then .r2 f.c else .r1 f.c])

/-- A uniform register, or 0xFC, which names none. -/
def uniOr (c : BitVec 8) (fld : Fld) : List Fld := if c = 0xFC then [] else [fld]

/-- A uniform destination that 0xFC may discard. -/
def optDst (c : BitVec 8) : List Fld := if c = 0xFC then [] else [.vk c 1 1]

/-- A format X word (Tables 7.3 and 7.5). -/
def xShape (f : FmtX) (legal : Bool) (flds : List Fld) : Shape :=
  { pieces := [⟨legal && f.pred == 7 && !f.p12 && f.res == 0, flds⟩]
    consumer := false
    tile := some f.acc.toNat
    setf := f.setf }

/-- An operand of MMA: a fragment of 24 registers, or a descriptor pair (Table 7.3). -/
def mmaFld (scr : Bool) (x : BitVec 8) : Fld := if scr then .uk x 2 2 else .rf x 24 4

def mmaShape (f : FmtX) : Shape :=
  { xShape f ((flagOk f.setf false || (f.setf == 15 && !f.asrc && !f.bsrc)) && decide (f.fmt.toNat < 12) &&
      (f.fmt != 6 || (!f.nega && !f.negb)) && (decide (f.fmt.toNat < 7) || (f.asrc && f.bsrc)) &&
      (f.asrc || decide (f.a.toNat ≤ 0xE0)) && (f.bsrc || decide (f.b.toNat ≤ 0xE0)))
      [mmaFld f.asrc f.a, mmaFld f.bsrc f.b] with
    mig := decide (7 ≤ f.fmt.toNat) }

/-- Registers per lane of the lane form of a tile (Table 7.5). -/
def tileRegs (fmt : Nat) : Nat := if fmt = 0 || fmt = 3 then 8 else 4

/-- MRD, MWR and MZERO: the fields all three hold at zero. -/
def tileShape (f : FmtX) (legal : Bool) (flds : List Fld) : Shape :=
  xShape f (legal && f.b == 0 && !f.asrc && !f.bsrc && !f.nega && !f.negb && decide (f.fmt.toNat < 4)) flds


/-- A tuple word (R331, Table 12.3): its status register, its handle, its timeout if it names one, and w16–w31, none of
them among w16–w31 or the status register twice. -/
def tupleShape (f : FmtS) (reads : Bool) (legal : Bool) (timeout : List Fld) : Shape :=
  let a := f.a &&& 0x3F
  let named := f.b.toNat :: timeout.flatMap Fld.unis
  sShape f (legal && flagOk f.setf false && !f.a.getLsbD 6 &&
      (a.toNat :: named).all (fun n => !(decide (16 ≤ n) && decide (n < 32))) && !named.contains a.toNat) true
    ([.vk a 1 1, .uk f.b 1 1] ++ timeout ++ [.uk 16 16 16] ++ (if reads then [.vk 16 16 16] else []))

/-- An SX word (R425, Table 16.4): its status and result registers, and the other uniform registers it names, which differ
from them. -/
def sxShape (f : FmtS) (opt legal : Bool) (results others : List Nat) (flds : List Fld) : Shape :=
  { sShape f (legal && (flagOk f.setf false || (opt && f.setf == 15 && f.a == 0xFC)) && f.sub == 0 &&
      (f.a == 0xFC || results.all (fun n => !others.contains n))) true flds with
    mig := true }
/-- The shape of a word; a step that is no word of a program has none. What MOVW's lane source may be, and 0xFC where a quad is named,
are logs 51 and 35; that a dual word that is ILLEGAL as a REP target has both halves at fault is log 51 (DEDUCED). -/
def shapeOf : Instr → Option Shape
  | .iadd f => some (addShape f)
  | .isub f => some (addShape f)
  | .iadd3 f => some (three f false)
  | .imul f => some (two f false)
  | .imulhS32 f => some (two f false)
  | .imulhN32 f => some (two f false)
  | .imad f => some (three f false)
  | .imadwS32 f => some (aluShape64 f true true false [.r1 f.sa, sbSrc1 f, .r2 f.sc])
  | .imadwN32 f => some (aluShape64 f true true false [.r1 f.sa, sbSrc1 f, .r2 f.sc])
  | .iminS32 f => some (two f false)
  | .iminN32 f => some (two f false)
  | .imaxS32 f => some (two f false)
  | .imaxN32 f => some (two f false)
  | .iabs f => some (one f false)
  | .shl f => some (two f false)
  | .shr f => some (two f false)
  | .sar f => some (two f false)
  | .rot f => some (two f false)
  | .andR f => some (two f false)
  | .orR f => some (two f false)
  | .xorR f => some (two f false)
  | .notR f => some (one f false)
  | .blut f => some (aluShape f true true false [.r1 f.sa, sbSrc1 f, .r1 f.dst])
  | .popc f => some (one f false)
  | .clz f => some (one f false)
  | .brev f => some (one f false)
  | .bfeN32 f => some (two f false)
  | .bfeS32 f => some (two f false)
  | .bfi f => some (three f false)
  | .sel f => some (aluShape f (decide (f.sc.toNat < 16)) true false [.r1 f.sa, sbSrc1 f, .p (f.sc.toNat % 8)])
  | .lea f => some (aluShape64 f (decide (f.sc.toNat < 32)) true false [.r2 f.sa, sbSrc1 f])
  | .icmp f => some (icmpShape f)
  | .iaddImm f => some (immShape f true [.r1 f.sa])
  | .imulImm f => some (immShape f true [.r1 f.sa])
  | .andImm f => some (immShape f true [.r1 f.sa])
  | .orImm f => some (immShape f true [.r1 f.sa])
  | .xorImm f => some (immShape f true [.r1 f.sa])
  | .shlImm f => some (immShape f true [.r1 f.sa])
  | .shrImm f => some (immShape f true [.r1 f.sa])
  | .sarImm f => some (immShape f true [.r1 f.sa])
  | .icmpImm f => some
    { pieces := [⟨predOk f.pred f.pneg false && !f.dst.getLsbD 7 && decide (bitsN f.dst.toNat 5 3 < 6),
        predFld f.pred ++ [.pd (f.dst.toNat % 8), .r1 f.sa]⟩]
      consumer := false
      eligible := true
      pushes := 1 }
  | .fadd f => some (aluShape f (decide (f.sc.toNat < 16)) true true [.r1 f.sa, sbSrc1 f])
  | .faddRz f => some (aluShape f (decide (f.sc.toNat < 16)) true true [.r1 f.sa, sbSrc1 f])
  | .faddRu f => some (aluShape f (decide (f.sc.toNat < 16)) true true [.r1 f.sa, sbSrc1 f])
  | .faddRd f => some (aluShape f (decide (f.sc.toNat < 16)) true true [.r1 f.sa, sbSrc1 f])
  | .fmul f => some (aluShape f (decide (f.sc.toNat < 16)) true true [.r1 f.sa, sbSrc1 f])
  | .fmulRz f => some (aluShape f (decide (f.sc.toNat < 16)) true true [.r1 f.sa, sbSrc1 f])
  | .fmulRu f => some (aluShape f (decide (f.sc.toNat < 16)) true true [.r1 f.sa, sbSrc1 f])
  | .fmulRd f => some (aluShape f (decide (f.sc.toNat < 16)) true true [.r1 f.sa, sbSrc1 f])
  | .ffma f => some (three f true)
  | .ffmaRz f => some (three f true)
  | .ffmaRu f => some (three f true)
  | .ffmaRd f => some (three f true)
  | .fmin f => some (two f true)
  | .fmax f => some (two f true)
  | .fcmp f => some (cmpShape f (decide (bitsN f.dst.toNat 6 3 < 12) && !f.dst.getLsbD 7) true [.r1 f.sa, sbSrc1 f])
  | .fclass f => some (one f true)
  | .frcp f => some (one f true)
  | .frsq f => some (one f true)
  | .fsqrt f => some (one f true)
  | .fdiv f => some (two f true)
  | .fex2 f => some (one f true)
  | .flg2 f => some (one f true)
  | .fsinpi f => some (one f true)
  | .fcospi f => some (one f true)
  | .hadd2F16 f => some (two f true)
  | .hmul2F16 f => some (two f true)
  | .hfma2F16 f => some (three f true)
  | .hadd2Bf16 f => some (two f true)
  | .hmul2Bf16 f => some (two f true)
  | .hfma2Bf16 f => some (three f true)
  | .cvt f => some (cvtShape f)
  | .cvtRz f => some (cvtShape f)
  | .cvtRu f => some (cvtShape f)
  | .cvtRd f => some (cvtShape f)
  | .pack f => some (packShape f)
  | .unpack f => some (unpackShape f)
  | .qblk f => some (qblkShape f true)
  | .dqblk f => some (qblkShape f false)
  | .bra f => some
    { pieces := [⟨predOk f.pred f.pneg false && f.dst == 0 && f.sa == 0, predFld f.pred⟩], consumer := false }
  | .brx f => some
    { plainA f (f.dst == 0 && f.sb == 0 && f.sc == 0) false [.r2 f.sa] with consumer := false }
  | .brxRel f => some
    { plainA f (f.dst == 0 && f.sb == 0 && f.sc == 1) false [.r1 f.sa] with consumer := false }
  | .call f => some
    { pieces := [⟨predOk f.pred f.pneg false && f.sa == 0, predFld f.pred ++ [.d2 f.dst]⟩], consumer := false }
  | .ret f => some
    { sShape f (f.setf == 15 && f.b == 0 && f.c == 0 && f.sub == 0 && laneOnly f.a) false [.r2 f.a] with consumer := false }
  | .retH f => some
    { sShape f (f.setf == 15 && f.a == 0 && f.b == 0 && f.c == 0 && f.sub == 1) true [] with consumer := false }
  | .exit f => some (sShape f (f.setf == 15 && f.a == 0 && f.b == 0 && f.c == 0 && f.sub == 0) false [])
  | .yield f => some (sShape f (f.setf == 15 && f.a == 0 && f.b == 0 && f.c == 0 && f.sub == 0) false [])
  | .rep f => some (sShape f (f.setf == 15 && f.sub == 0 && decide (f.a.toNat < 64) && decide (f.b.toNat < 16) &&
      (f.c == 1 || f.c == 2)) true [])
  | .repIteration _ target => some
    { pieces := if target.getLsbD 15 then [⟨false, []⟩, ⟨false, []⟩] else [⟨false, []⟩]
      consumer := false }
  | .lit f => some
    { pieces := [⟨f.pred == 7 && f.top == 0, []⟩]
      consumer := false
      eligible := true
      isLit := true }
  | .nop f => some (sShape f (f.setf == 15 && f.a == 0 && f.b == 0 && f.c == 0 && f.sub == 0) true [])
  | .trap f => some
    { pieces := [⟨predOk f.pred f.pneg false && f.dst == 0 && f.sa == 0, predFld f.pred⟩], consumer := false }
  | .brk f => some (sShape f (f.setf == 15 && f.a == 0 && f.b == 0 && f.c == 0 && f.sub == 0) true [])
  | .rdsr f => some (sShape f (f.setf == 15 && f.c == 0 && f.sub == 0 && (srWidth f.b.toNat).isSome) false
      ((if srWidth f.b.toNat = some 64 then .d2 f.a else .d1 f.a) ::
        (if f.b = 0x11 then (List.range 7).map Fld.p else [])))
  | .wrsr f => some (sShape f (f.setf == 15 && f.a == 0 && f.sub == 0 && srWritable f.b.toNat) false
      ((if srWidth f.b.toNat = some 64 then .r2 f.c else .r1 f.c) ::
        (if f.b = 0x11 then (List.range 7).map Fld.pd else [])))
  | .pset f => some (plainA f (f.sb == 0 && f.sc == 0 && decide (f.dst.toNat < 8)) false [.pd f.dst.toNat, .r1 f.sa])
  | .psetAll f => some (plainA f (f.sb == 0 && f.sc == 1 && f.dst == 0) false (.r1 f.sa :: (List.range 7).map Fld.pd))
  | .plop f => some (plainA f (decide (f.dst.toNat < 8) && decide (f.sa.toNat < 16) && decide (f.sb.toNat < 16) &&
      decide (f.sc.toNat < 3)) false [.pd f.dst.toNat, .p (f.sa.toNat % 8), .p (f.sb.toNat % 8)])
  | .mov f => some (if f.sc == 1 then aluShape64 f (f.sb == 0) false false [.r2 f.sa]
      else aluShape f (f.sb == 0 && f.sc == 0) false false [.r1 f.sa])
  | .movi f => some (immShape f (f.sa == 0) [])
  | .ldix f => some (sShape f (f.setf == 15 && f.c == 0 && decide (f.sub.toNat < 2)) false [.d1 f.a])
  | .stix f => some (sShape f (f.setf == 15 && f.c == 0 && decide (f.sub.toNat < 2)) false [.r1 f.a])
  | .rng4 f => some (sShape f (f.setf == 15 && f.sub == 0) false [.dk f.a 4 4, .rk f.b 4 4, .r2 f.c])
  | .rdtime f => some (sShape f (f.setf == 15 && f.b == 0 && f.c == 0 && f.sub == 0) false [.d2 f.a])
  | .movwLane f => some (sShape f (f.setf == 15 && f.sub == 0 && decide (f.c.toNat < 32) && (f.b.toNat < 0xF8 || f.b == 0xFC || f.b == 0xFD)) true [.vk f.a 1 1, .r1 f.b])
  | .movwFirst f => some (sShape f (f.setf == 15 && f.sub == 1 && f.c == 0 && (f.b.toNat < 0xF8 || f.b == 0xFC || f.b == 0xFD)) true [.vk f.a 1 1, .r1 f.b])
  | .movwToLane f => some (sShape f (f.setf == 15 && f.sub == 0 && f.c == 0) false [.d1 f.a, .uk f.b 1 1])
  | .wadd f => some (wShape f true [.wd f.dst, .ws f.sa, .ws f.sb])
  | .wsub f => some (wShape f true [.wd f.dst, .ws f.sa, .ws f.sb])
  | .wmul f => some (wShape f true [.wd f.dst, .ws f.sa, .ws f.sb])
  | .wand f => some (wShape f true [.wd f.dst, .ws f.sa, .ws f.sb])
  | .wor f => some (wShape f true [.wd f.dst, .ws f.sa, .ws f.sb])
  | .wxor f => some (wShape f true [.wd f.dst, .ws f.sa, .ws f.sb])
  | .wshl f => some (wShape f true [.wd f.dst, .ws f.sa, .ws f.sb])
  | .wshr f => some (wShape f true [.wd f.dst, .ws f.sa, .ws f.sb])
  | .wmov f => some (wShape f (f.sb == 0) [.wd f.dst, .ws f.sa])
  | .wcmp f => some (wShape f (!f.dst.getLsbD 7 && decide (bitsN f.dst.toNat 5 3 < 6))
      [.pd (f.dst.toNat % 8), .ws f.sa, .ws f.sb])
  | .waddImm f => some
    { pieces := [⟨predOk f.pred f.pneg true, [.wd f.dst, .ws f.sa]⟩], consumer := false }
  | .wmovImm f => some
    { pieces := [⟨predOk f.pred f.pneg true && f.sa == 0, [.wd f.dst]⟩], consumer := false }
  | .dualWord _ h0 h1 => some (dualShape h0 h1)
  | .ldLane k f => some (ldShape (loadSize k) f false)
  | .ldUniform k f => some (ldShape (loadSize k) f true)
  | .stLane k f => some (stShape (storeSize k) f false)
  | .stUniform k f => some (stShape (storeSize k) f true)
  | .lda w64 f => some (mShape f (dataOk f.data && laneOnly f.base) false true false true (.r2 f.base :: dataDst f.data (if w64 then 8 else 4)))
  | .str w64 f => some (mShape f (dataOk f.data && laneOnly f.base) false false false true (.r2 f.base :: dataSrc f.data (if w64 then 8 else 4)))
  | .lds k f => some (mShape f (dataOk f.data && dataOk f.base) false true false false (.r1 f.base :: dataDst f.data (loadSize k)))
  | .sts k f => some (mShape f (dataOk f.data && dataOk f.base) false false false false (.r1 f.base :: dataSrc f.data (storeSize k)))
  | .ldfrag f => some (mShape f (!f.ep.getLsbD 1) true true false true [.uk f.base 2 2, .dk f.data 4 4])
  | .stfrag f => some (mShape f (!f.ep.getLsbD 1) true false false true [.uk f.base 2 2, .rk f.data 4 4])
  | .pref f => some (mShape f (decide (f.data.toNat < 2) && laneOnly f.base && f.setf == 15) false false false true [.r2 f.base])
  | .fenceFull f => some (sShape f (decide (f.sub.toNat < 2) && flagOk f.setf true && f.a == 0 && f.b == 0 && f.c == 0) true [])
  | .fenceSig f => some (sShape f (decide (f.sub.toNat < 2) && flagOk f.setf true && f.a == 0 && f.b == 0 && f.c == 0) true [])
  | .atom f => some (atomShape f false)
  | .atoms f => some (atomShape f true)
  | .xlane f => some (collShape f (decide (bitsN f.sc.toNat 4 2 < 6) && decide (f.sc.toNat < 32)) false [.d1 f.dst, .r1 f.sa, .r1 f.sb])
  | .pcons f => some (pconsShape f)
  | .peers f => some (peersShape f)
  | .red f => some (redShape f false false)
  | .redF32 f => some (redShape f false true)
  | .scan f => some (redShape f true false)
  | .scanF32 f => some (redShape f true true)
  | .elect f => some (sShape f (f.setf == 15 && decide (f.a.toNat < 8) && f.c == 0 && f.sub == 0) false [.pd f.a.toNat, .wd f.b])
  | .bar f => some (sShape f (f.setf == 15 && f.a == 0 && f.b == 0 && f.c == 0 && f.sub == 0) true [])
  | .nbarArrive f => some
    { sShape f (f.setf == 15 && decide (f.a.toNat < 16) && f.c == 0 && f.sub == 0) true (uniOr f.b (.uk f.b 1 1)) with bar := some f.a.toNat }
  | .nbarWait f => some
    { sShape f (f.setf == 15 && decide (f.a.toNat < 16) && f.b == 0 && f.c == 0 && f.sub == 1) true [] with bar := some f.a.toNat }
  | .nbarSync f => some
    { sShape f (f.setf == 15 && decide (f.a.toNat < 16) && f.c == 0 && f.sub == 2) true (uniOr f.b (.uk f.b 1 1)) with bar := some f.a.toNat }
  | .gbar f => some (sShape f (f.setf == 15 && f.a == 0 && f.b == 0 && f.c == 0 && f.sub == 0) true [])
  | .monitor f => some (sShape f (flagOk f.setf true && f.a == 0 && f.c == 0 && f.sub == 0 && laneOnly f.b) false [.r2 f.b])
  | .waitm f => some (sShape f (f.setf == 15 && f.a == 0 && f.c == 0 && f.sub == 0) false (uniOr f.b (.uk f.b 1 1)))
  | .monTimeout _ _ => none
  | .mshape f => some (sShape f (f.setf == 15 && f.a == 0 && f.c == 0 && f.sub == 0) true [.uk f.b 1 1])
  | .mma f => some (mmaShape f)
  | .mrd f => some (tileShape f (flagOk f.setf false) [.dk f.a (tileRegs f.fmt.toNat) 4])
  | .mwr f => some (tileShape f (flagOk f.setf true && !f.accd) [.rf f.a (tileRegs f.fmt.toNat) 4])
  | .mzero f => some (tileShape f (flagOk f.setf true && !f.accd && f.a == 0 && f.fmt == 0) [])
  | .attn f => some (sShape f (flagOk f.setf false && f.a == 0 && f.c == 0 && f.sub.toNat % 4 != 3 && decide (f.sub.toNat < 16)) true [.uk f.b 8 8])
  | .pgseal f => some (sShape f ((flagOk f.setf false || (f.setf == 15 && f.a == 0xFC)) && f.c == 0 && decide (f.sub.toNat < 3)) true (optDst f.a ++ [.uk f.b 2 2]))
  | .psel f => some (sShape f (flagOk f.setf false && f.sub == 0) true (optDst f.a ++ [.uk f.b 8 8] ++ optDst f.c))
  | .topk f => some (sShape f (flagOk f.setf false && f.sub == 0) true (optDst f.a ++ [.uk f.b 8 8] ++ optDst f.c))
  | .mergek f => some (sShape f (flagOk f.setf false && f.sub == 0) true (optDst f.a ++ [.uk f.b 8 8] ++ optDst f.c))
  | .selectorOperation _ => none
  | .nextt f => some (sShape f (flagOk f.setf false && f.b == 0 && f.c == 0 && f.sub == 0) true [.vk f.a 1 1])
  | .ckick f => some (sShape f ((flagOk f.setf false || (f.setf == 15 && f.a == 0xFC)) && f.c == 0 && f.sub == 0) true (optDst f.a ++ [.uk f.b 1 1]))
  | .cbset f => some (sShape f (flagOk f.setf true && f.a == 0 && f.sub == 0) true [.uk f.b 1 1, .uk f.c 1 1])
  | .cbwait f => some (sShape f (flagOk f.setf false && f.c == 0 && f.sub == 0) true ((if f.a = 0xFC then [] else [.vk f.a 2 2]) ++ [.uk f.b 1 1]))
  | .cqfence f => some (sShape f (flagOk f.setf true && f.a == 0 && f.b == 0 && f.c == 0 && f.sub != 0 && decide (f.sub.toNat < 16)) true [])
  | .copyRequest _ _ => none
  | .tdep f => some (tupleShape f false (f.sub == 0 && f.c == 0 && !f.a.getLsbD 7) [])
  | .tcpy f => some (tupleShape f true (f.c == 0) [])
  | .tcpyWait f => some (tupleShape f true true (uniOr f.c (.uk f.c 1 1)))
  | .ttak f => some (tupleShape f true (f.c == 0) [])
  | .ttakWait f => some (tupleShape f true true (uniOr f.c (.uk f.c 1 1)))
  | .tupleSliceServe _ => none
  | .tupleReply _ => none
  | .tupleTimeout _ => none
  | .regionDrain _ _ => none
  | .sxinit f => some (sxShape f true (f.c == 0) [f.a.toNat] [f.b.toNat, f.b.toNat + 1] (optDst f.a ++ [.uk f.b 2 2]))
  | .sxapp f => some (sxShape f true true [f.a.toNat] [f.b.toNat, f.b.toNat + 1] (optDst f.a ++ [.uk f.b 2 2, .rk f.c 1 1]))
  | .sxqry f => some (sxShape f false true [f.a.toNat, f.a.toNat + 1] [f.b.toNat, f.b.toNat + 1] [.vk f.a 2 2, .uk f.b 2 2, .dk f.c 1 1])
  | .sxtrim f => some (sxShape f true (f.c == 0) [f.a.toNat] [f.b.toNat, f.b.toNat + 1] (optDst f.a ++ [.uk f.b 2 2]))
  | .sxsave f => some (sxShape f false (f.b != f.c && f.b.toNat != f.c.toNat + 1) [f.a.toNat] [f.b.toNat, f.c.toNat, f.c.toNat + 1] (optDst f.a ++ [.uk f.b 1 1, .uk f.c 2 2]))
  | .sxload f => some (sxShape f false (f.b != f.c && f.b.toNat != f.c.toNat + 1) [f.a.toNat] [f.b.toNat, f.c.toNat, f.c.toNat + 1] (optDst f.a ++ [.uk f.b 1 1, .uk f.c 2 2]))
  | .sxUnitPerform _ => none
  | .dsweep f => some (sShape f (flagOk f.setf false && f.c == 0 && f.sub == 0) true (optDst f.a ++ [.uk f.b 2 2]))
  | .pgrecall f => some (sShape f (flagOk f.setf false && f.sub == 0) true (optDst f.a ++ [.uk f.b 2 2, .uk f.c 2 2]))
  | .pgpin f => some (sShape f (flagOk f.setf false && f.c == 0 && f.sub == 0) true (optDst f.a ++ [.uk f.b 2 2]))
  | .pgunpin f => some (sShape f (flagOk f.setf false && f.c == 0 && f.sub == 0) true (optDst f.a ++ [.uk f.b 2 2]))
  | .pgdemote f => some (sShape f (flagOk f.setf false && f.sub == 0) true (optDst f.a ++ [.uk f.b 2 2, .uk f.c 2 2]))
  | .demotionEngineOp _ => none
  | .slotRetirePush _ => none
  | .launch f => some (sShape f (flagOk f.setf false && f.sub == 0) true [.vk f.a 1 1, .uk f.b 2 2, .uk f.c 1 1])
  | .ctokw f => some (sShape f (f.setf == 15 && f.a == 0 && f.b == 0 && f.c == 0 && f.sub == 0) true [])
  | .ctokp f => some (sShape f (flagOk f.setf true && f.a == 0 && f.b == 0 && f.c == 0 && f.sub == 0) true [])
  | .faultRecordWrite _ => none
  | .memRequestPerform _ _ _ => none
  | .atomSlicePerform _ _ => none
  | .operationComplete _ => none
  | .epochBoundary => none
  | .patrolScrub _ => none
  | .warpFree _ _ => none
  | .launchDispatch => none
  | .blockPlacement _ => none
  | .captureMigration _ => none
  | .restore => none
  | .preemptCapture _ => none
  | .preemptForcedReset _ => none
  | .cmdPreempt _ => none
  | .cmdResume _ => none
  | .cmdReset _ => none
  | .cmdUnload _ _ => none
  | .cmdUnloadForced _ _ => none
  | .cmdInvalidate _ _ => none
  | .qwrWrite _ _ => none
  | .predDeadlineWrite _ _ _ => none
  | .faultRetry _ _ => none
  | .faultFatal _ _ => none
  | .memcfgLock _ _ => none
  | .nrseedWrite _ _ => none
  | .sxhWrite _ _ _ _ => none
  | .mrExtend _ => none
  | .attestRequest _ _ => none
  | .recoveryReboot _ => none
  | .keySlotLoad _ _ => none
  | .registerWrite _ _ => none
  | .hostMemoryAccess _ => none
  | .peerStore _ _ _ _ => none
  | .peerDeposit _ _ _ => none
  | .eventRecordWrite _ => none
  | .moduleReset => none
  | .thermalTrip => none
  | .throttle _ => none
  | .debuggerResume _ => none
  | .softError _ => none
  | .unassignedOpcode w => some
    { pieces := if w.getLsbD 15 then
        [⟨assignedHop (Half.ofWord w 0), []⟩, ⟨assignedHop (Half.ofWord w 1), []⟩] else [⟨false, []⟩]
      consumer := false }
  | .instructionFetchFault => none

end Sys2Proof.Machine
end

