-- ==== Sys2Proof/Machine/Issue.lean ====
section
/-!
DEFINITION. Issuing one word: the head run (R20), fetching (R128), readiness (R149), breakpoints (R161), the checks of
R86 in order, and what every issued word does besides its own effect (R20, R21, R57 to R61, R77, R80).
-/
namespace Sys2Proof.Machine

/-! ## The head run (R20) -/

/-- A thread's key (Y, PC) as one number. -/
def Thread.key (t : Thread) : Nat := b2n t.y * 2 ^ 52 + t.pc.toNat

def Warp.eligibleLanes (W : Warp) : List Nat :=
  (List.range 32).filter (fun l => (W.thread l).status == .eligible)

/-- The head run by R20, and its PC; none when no thread is eligible. -/
def Warp.headRun (W : Warp) : Option (Mask × BitVec 52) :=
  match W.eligibleLanes with
  | [] => none
  | l :: ls =>
    let kmin := ls.foldl (fun k l => min k (W.thread l).key) (W.thread l).key
    some (maskOf (fun l => (W.thread l).status == .eligible && (W.thread l).key == kmin),
      BitVec.ofNat 52 (kmin % 2 ^ 52))

/-! ## Fetching (R56, R128) -/

/-- What a fetch finds. -/
inductive Fetch where
  | word (w : BitVec 64)
  | fault
  | prot
  | poison
  deriving DecidableEq, Repr

/-- The word at an address, fetched for a core in a context. -/
def State.fetch (s : State) (core ctx : Nat) (pc : BitVec 52) : Fetch :=
  match s.access (some (coreCluster core)) ctx pc.toNat .fetch with
  | .mem loc =>
    if s.mem.poisoned loc 8 || s.mem.bad.contains (loc / 16) then .poison else .word (BitVec.ofNat 64 (s.mem.readN loc 8))
  | .fault => .fault
  | _ => .prot

/-- A fetch fills its line (R300, R301). -/
def State.fetchFill (s : State) (core ctx : Nat) (pc : BitVec 52) : State :=
  match s.access (some (coreCluster core)) ctx pc.toNat .fetch with
  | .mem loc => s.fill loc 8
  | _ => s

/-- The fetch of a PC waits in a die's HBM4E, the word or a table entry of its walk (R296). -/
def State.fetchHeld (s : State) (core ctx : Nat) (pc : BitVec 52) : Bool :=
  s.walkHeld ctx pc.toNat ||
    (match s.access (some (coreCluster core)) ctx pc.toNat .fetch with
    | .mem loc => s.heldLoc loc
    | _ => false)

/-- The instruction at an address, if it can be fetched. -/
def State.peek (s : State) (core ctx : Nat) (pc : BitVec 52) : Option Instr :=
  match s.fetch core ctx pc with
  | .word w => some (decodeWord w)
  | _ => none

def latchesRead (i : Instr) : Bool := ((shapeOf i).map (fun h => !h.latches.isEmpty)).getD false
def isLit (i : Instr) : Bool := ((shapeOf i).map (·.isLit)).getD false

/-- The word at `pc` reads a latch, or is a LIT whose consumer does: it continues a chain open before it (R78, R80). -/
def State.continuesChain (s : State) (core ctx : Nat) (pc : BitVec 52) : Bool :=
  match s.peek core ctx pc with
  | none => false
  | some i => latchesRead i || (isLit i && ((s.peek core ctx (pc + 8)).map (fun j =>
      latchesRead j && ((shapeOf j).map (fun h => h.lit && h.consumer)).getD false)).getD false)

/-- The run and address the warp must issue next, if it is bound: after LIT (R82), in an open chain (R80), or between
the iterations of a REP sequence, whose PC is the REP word's (R84). -/
def State.boundRun (s : State) (B : Block) (W : Warp) : Option (Mask × BitVec 52) :=
  match W.rep with
  | some r => some (r.run, (W.thread ((lowestLane r.run).getD 0)).pc)
  | none =>
    match W.prev with
    | some p =>
      if p.lit.isSome || (p.eligible && s.continuesChain W.core B.ctx (p.addr + 8)) then some (p.run, p.addr + 8)
      else none
    | none => none

/-- The run that issues next, and its PC. -/
def State.runOf (s : State) (B : Block) (W : Warp) : Option (Mask × BitVec 52) :=
  match s.boundRun B W with
  | some r => some r
  | none => W.headRun

/-! ## Readiness (R149) -/

def ctlOf (i : Instr) : Option Ctl :=
  match i with
  | .repIteration _ t => some (Ctl.ofWord t)
  | _ => (encode i).map Ctl.ofWord

/-- Tests 1 to 3 of R149 and R61: the distance has passed, the WAIT flags are zero, the SETF counter is below 63. -/
def Warp.ready (W : Warp) (now : Nat) (c : Ctl) (setf : BitVec 4) : Bool :=
  (match W.lastIssue with
    | none => true
    | some t => decide (t + max c.dist.toNat 1 ≤ now)) &&
  (List.range 12).all (fun n => !c.wait.getLsbD n || decide (tget 0 W.flags n = 0)) &&
  (decide (12 ≤ setf.toNat) || decide (tget 0 W.flags setf.toNat < 63))

/-- The warp must run on to its chain's end although its block has been frozen, halted or aborted (R80, R82, R148, R162,
R350). -/
def State.runsOn (s : State) (B : Block) (W : Warp) : Bool := W.rep.isNone && (s.boundRun B W).isSome

/-- The warp may issue at all: its block runs, or its open chain does; it is there; no fault record holds it (R144, R177);
no ended timeout's trap comes first, as it does before any word but those of an open chain (R82, R215). -/
def State.mayIssue (s : State) (B : Block) (W : Warp) : Bool :=
  (B.halt.isNone || s.runsOn B W) && !W.freed && W.held.isEmpty && (!s.overdue W || s.runsOn B W)

/-- A thread's record makes an arrival wait: pending, or registered in a phase that is not complete (R266). -/
def ArrRec.outstanding (r : ArrRec) (q : BitVec 16) (m : Mask) : Bool :=
  decide (r.pend &&& m ≠ 0) || (decide (r.reg &&& m ≠ 0) && r.phase == q)

/-! ## Results of a meaning -/

/-- What a word's own effect comes to. -/
inductive Res where
  | ok (s : State)
  /-- a precise trap: cause, %trapaddr, %trapaux; the word has no effect (R25) -/
  | trap (cause addr : Nat) (aux : Mask)
  /-- a precise trap of a word that met an error in storage: the state changes by what the slices or the error counters do -/
  | trapIn (f : State → State) (cause addr : Nat) (aux : Mask)
  /-- a trap its definition places after its effect (TRAP, BRK): the threads that trap, all resuming after the word -/
  | trapAfter (cause addr : Nat) (aux run : Mask)
  /-- the word does not issue; the state takes fault records (R177) -/
  | hold (f : State → State)
  /-- the unit cannot take the word now (R149 test 5): nothing happens -/
  | stall
  /-- MIGRATE (R349) -/
  | migrate

/-- POISON; what %trapaddr and %trapaux then hold is not stated: free (log 24). -/
def poisonTrap (fr : Nat) (f : State → State) : Res := .trapIn f causePoison (Config.freeNat 160 fr 0) (Config.freeWord 160 fr 0)

/-- A meaning: the effect, and what differs per lane for words that reach a register by number (R123). -/
structure Meaning where
  body : Iss → State → Res
  /-- REG_BOUNDS by value: %trapaddr and the faulting lanes -/
  bounds : Iss → Option (Nat × Mask) := fun _ => none
  dynReads : Iss → List Loc := fun _ => []
  dynWrites : Iss → List Loc := fun _ => []
  /-- the lanes whose registers the word reads (R160) -/
  readMask : Iss → Mask := fun c => c.exec

/-- Where a word stands: its own address and its threads' PC, and the iteration when it is a REP target (R84). -/
structure Site where
  addr : BitVec 52
  pc : BitVec 52
  iter : Option Nat

/-! ## The checks of R86 -/

/-- The HALF, DUALW and BOTH bits of %traphalf for the pieces that fail (Table 5.3): 0 for a full word. -/
def halfCode (bad : List Bool) : BitVec 3 :=
  match bad with
  | [true, false] => 2
  | [false, true] => 3
  | [_, _] => 6
  | _ => 0

/-- The declared distances move on (R59): a result that is due is forgotten, and with it, in the lanes it wrote, every older
result of its register (R60). -/
def ageAll (d : Nat) : List Early → List Early
  | [] => []
  | e :: r =>
    if e.op.isSome then e :: ageAll d r
    else if e.left ≤ d then (ageAll d r).filterMap (Early.cut e.loc e.wrote)
    else { e with left := e.left - d } :: ageAll d r

def Warp.advanceEarly (W : Warp) (dist : Nat) : Warp := { W with early := ageAll (max dist 1) W.early }

/-- The word is bound to follow the warp's previous word: same run, next address. -/
def PrevWord.follows (p : PrevWord) (run : Mask) (addr : BitVec 52) : Bool := p.run == run && p.addr + 8 == addr

/-- The chain the word continues, if any: the previous word's, when this one reads a latch or is a LIT whose consumer
does (R78). -/
def State.chainOf (s : State) (B : Block) (W : Warp) (h : Shape) (run : Mask) (addr : BitVec 52) : Option PrevWord :=
  match W.prev with
  | none => none
  | some p =>
    if p.follows run addr && p.eligible &&
      (!h.latches.isEmpty || (h.isLit && s.continuesChain W.core B.ctx addr)) then some p else none

/-- R78 and R79 hold of a word that would continue this chain, or reads no latch. -/
def chainOk (chain : Option PrevWord) (h : Shape) : Bool :=
  match chain with
  | none => h.latches.isEmpty
  | some p =>
    h.eligible && h.latches.all (fun n => decide (n + 1 ≤ p.pushes)) &&
      (h.latches.isEmpty || decide (p.words + 1 ≤ 8)) &&
      !(h.writes.any (fun l => p.reads.contains l))

/-- R82: a word after LIT names the literal and may consume it; a word that names the literal follows a LIT. -/
def litOk (W : Warp) (h : Shape) (run : Mask) (addr : BitVec 52) : Bool :=
  match W.prev with
  | none => !h.lit
  | some p =>
    if p.lit.isSome && p.follows run addr then h.lit && h.consumer else !h.lit

/-- The lowest of the out-of-bounds registers a piece names (R12, R26, R69): a lane register by its number, a uniform
register as 0x100 + its number. -/
def Piece.outOf (q : Piece) (a u : Nat) : List Nat :=
  (q.flds.flatMap Fld.lanes).filter (fun n => decide (a ≤ n)) ++
  ((q.flds.flatMap Fld.unis).filter (fun n => decide (u ≤ n))).map (0x100 + ·)

/-- A location's code in %trapaddr (R26, R64): of a uniform register 0x100 + its number, as R26 has it for REG_BOUNDS (log
18); a predicate has none. -/
def Loc.trapCode : Loc → Option Nat
  | .lane n => some n
  | .uni n => some (0x100 + n)
  | .pred _ => none

/-- The locations among `ls` whose ALU result is not yet due. A producer counts whatever lanes it wrote, and a reader whatever
lanes it reads: the test is by register (DEDUCED, log 51). -/
def Warp.tooEarly (W : Warp) (ls : List Loc) : List Loc :=
  ls.filter (fun l => W.early.any (fun e => e.loc == l && e.op.isNone))

/-- The locations among `ls` of flagged operations for whose flag no word has yet waited (R64, log 61). -/
def Warp.unwritten (W : Warp) (ls : List Loc) : List Loc := ls.filter (fun l => W.unwaited.any (fun p => p.2 == l))

/-- HAZARD's %trapaddr for a list of offending locations: the lowest register code; free for predicates alone (log 18). -/
def hazardAddr (fr : Nat) (ls : List Loc) : Nat :=
  match ls.filterMap Loc.trapCode with
  | [] => Config.freeNat 64 fr 0
  | c :: cs => cs.foldl min c

/-- The word reads a register with a double-bit error (R160). -/
def Warp.readsBad (W : Warp) (m : Mask) (ls : List Loc) : Bool :=
  ls.any (fun l => match l with
    | .lane n => (lanesOf m).any (fun k => W.badV.contains (vKey n k))
    | .uni n => W.badW.contains n
    | .pred _ => false)

/-- A write of a register takes its error away. -/
def Warp.clearBad (W : Warp) (m : Mask) (ls : List Loc) : Warp :=
  { W with
    badV := W.badV.filter (fun k => !(ls.contains (.lane (k / 32)) && m.getLsbD (k % 32)))
    badW := W.badW.filter (fun k => !ls.contains (.uni k))
    weakV := W.weakV.filter (fun k => !(ls.contains (.lane (k / 32)) && m.getLsbD (k % 32)))
    weakW := W.weakW.filter (fun k => !ls.contains (.uni k)) }

/-- Single-bit errors of the registers a word reads are corrected and counted (R160). -/
def Warp.heal (W : Warp) (m : Mask) (ls : List Loc) : Warp :=
  let metV (k : Nat) : Bool := ls.contains (.lane (k / 32)) && m.getLsbD (k % 32)
  let metW (k : Nat) : Bool := ls.contains (.uni k)
  { W with
    fixed := W.fixed + (W.weakV.filter metV).length + (W.weakW.filter metW).length
    weakV := W.weakV.filter (fun k => !metV k)
    weakW := W.weakW.filter (fun k => !metW k) }

/-- A failed check: the cause, the failing pieces, %trapaddr and %trapaux. -/
abbrev Failure := Nat × BitVec 3 × Nat × Mask

/-- Steps 1 to 7 of R86 for a word at a site. Of a dual word that is ILLEGAL as it follows a LIT, or as a REP target, both halves
are recorded; of a word that reaches a register by number, a field that names a register beyond the limits comes before the indexes
(DEDUCED, log 51). -/
def checkWord (c : Iss) (h : Shape) (mn : Meaning) (chain : Option PrevWord) (addr : BitVec 52) :
    Except Failure Bool :=
  let illegal := h.pieces.map (fun q => !q.ok)
  if illegal.any id then .error (causeIllegal, halfCode illegal, 0, 0)
  else if !litOk c.W h c.run addr then .error (causeIllegal, halfCode (h.pieces.map fun _ => true), 0, 0)
  else if !h.bankOk then .error (causeBank, halfCode (h.pieces.map fun _ => true), 0, 0)
  else if !chainOk chain h then .error (causeChain, halfCode (h.pieces.map fun _ => true), 0, 0)
  else if h.mig && coreClass c.W.core = 1 then .ok true
  else
    let overs := (c.W.rep.map (·.overs)).getD []
    let outs := h.pieces.map (fun q => q.outOf c.B.a c.B.u ++ overs)
    match h.tile, h.bar with
    | some t, _ =>
      if c.B.nacc ≤ t then .error (causeRegBounds, 0, t, c.run)
      else if outs.any (fun o => !o.isEmpty) then
        .error (causeRegBounds, halfCode (outs.map (fun o => !o.isEmpty)), minOr 0 outs.flatten, c.run)
      else .ok false
    | _, some id =>
      if c.B.nbars ≤ id then .error (causeRegBounds, 0, id, c.run)
      else if outs.any (fun o => !o.isEmpty) then
        .error (causeRegBounds, halfCode (outs.map (fun o => !o.isEmpty)), minOr 0 outs.flatten, c.run)
      else .ok false
    | none, none =>
      if outs.any (fun o => !o.isEmpty) then
        .error (causeRegBounds, halfCode (outs.map (fun o => !o.isEmpty)), minOr 0 outs.flatten, c.run)
      else match mn.bounds c with
        | some (n, m) => .error (causeRegBounds, 0, n, m)
        | none => .ok false

/-- Step 7 of R86: HAZARD, in checked mode (R64). -/
def State.hazard (s : State) (c : Iss) (h : Shape) (mn : Meaning) : Option Failure :=
  if !((s.launch? c.B.launch).map Launch.checked).getD false then none
  else
    let bad (q : Piece) (dr dw : List Loc) : List Loc :=
      c.W.tooEarly (q.reads ++ dr) ++ c.W.unwritten (q.reads ++ dr ++ q.writes ++ dw)
    let bads := h.pieces.map (fun q => bad q (mn.dynReads c) (mn.dynWrites c))
    if bads.any (fun b => !b.isEmpty) then
      some (causeHazard, halfCode (bads.map (fun b => !b.isEmpty)), hazardAddr c.fr bads.flatten, c.run)
    else none

/-! ## What issue does -/

/-- The threads of the run move on, marks clear (R20, R21), distances advance, the flag counts (R61), the cycle is
noted (R57). `next` is the PC the run's threads take. -/
def Warp.begin (W : Warp) (run : Mask) (next : BitVec 52) (dist : Nat) (setf : BitVec 4) (now : Nat) : Warp :=
  let W1 := W.mapThreads (fun l t =>
    if run.getLsbD l then { t with pc := next, y := false } else if t.status == TStatus.eligible then { t with y := false }
    else t)
  let W2 := W1.advanceEarly dist
  { W2 with
    flags := if setf.toNat < 12 then tset 0 W2.flags setf.toNat (tget 0 W2.flags setf.toNat + 1) else W2.flags
    lastIssue := some now }

/-- The record the next word's chain and literal rules are tested against (R78 to R82). The head of a chain that a LIT's consumer
opens is the consumer: a trap inside it resumes there, where the consumer without its LIT is ILLEGAL (DEDUCED, log 51). -/
def nextPrev (chain : Option PrevWord) (h : Shape) (run : Mask) (addr : BitVec 52) (lit : Option Word) : PrevWord :=
  match chain with
  | some p => ⟨run, addr, h.eligible, p.head, p.words + 1, p.pushes + h.pushes, p.reads ++ h.reads, lit⟩
  | none => ⟨run, addr, h.eligible, addr, 1, h.pushes, h.reads, lit⟩

/-- The address a trapping run goes back to: the REP word (its threads' PC), the chain's head (R81), the LIT before a
consumer (R82), else the word. -/
def resumeAt (W : Warp) (chain : Option PrevWord) (run : Mask) (st : Site) : BitVec 52 :=
  match chain with
  | some p => p.head
  | none =>
    match W.prev with
    | some p => if p.lit.isSome && p.follows run st.addr then p.head else st.pc
    | none => st.pc

/-- The lanes of the run whose predicate is true (R65), the predicate being read at issue. -/
def Warp.execMask (W : Warp) (fr : Nat) (run : Mask) (pred : BitVec 3) (pneg : Bool) : Mask :=
  if pred = 7 then run else maskOf (fun l => run.getLsbD l && (W.pAt fr pred.toNat l != pneg))

/-- The PRED and PNEG of a word; words without one act under 7 and 0. -/
def predOf (i : Instr) : BitVec 3 × Bool :=
  match encode i with
  | none => (7, false)
  | some w =>
    if w.getLsbD 15 then (7, false)
    else match i with
      | .lit _ => (7, false)
      | _ => (pbits w 9 3, pbit w 12)

/-! ## Breakpoints (R161) -/

/-- A breakpoint that matches a word about to issue: the half matched. `iter` is the REP iteration, `full` says that the
word is a full one. -/
def bpMatch (bp : Breakpoint) (ctx : Nat) (addr : BitVec 52) (dual : Bool) (iter : Option Nat) : Option Bool :=
  let c := bp.ctl.toNat
  if !bitN c 0 then none
  else if bitsN bp.addr.toNat 51 3 * 8 != addr.toNat then none
  else if bitN c 17 && bitsN c 23 18 != ctx then none
  else if !(match iter with
    | none => true
    | some i => bitN c 10 || bitsN c 16 11 == i) then none
  else
    let hsel := bitsN c 9 8
    if hsel = 0 then some false
    else if dual && hsel = 1 then some false
    else if dual && hsel = 2 then some true else none

/-- The addresses of the words of the chain that would open at a word (R80), with the words. -/
def State.chainAhead (s : State) (core ctx : Nat) (pc : BitVec 52) : Nat → List (BitVec 52 × Instr)
  | 0 => []
  | n + 1 =>
    match s.peek core ctx pc with
    | none => []
    | some i =>
      (pc, i) :: (if s.continuesChain core ctx (pc + 8) && ((shapeOf i).map (·.eligible)).getD false
        then s.chainAhead core ctx (pc + 8) n else [])

def isDual : Instr → Bool
  | .dualWord _ _ _ => true
  | .unassignedOpcode w => w.getLsbD 15
  | .repIteration _ t => t.getLsbD 15
  | _ => false

/-- The breakpoint match before a word issues: the matched word, half and iteration. A chain's words are matched before
its head issues, at the chain boundary; the break-skip record suppresses its own match. -/
def State.breakAt (s : State) (B : Block) (W : Warp) (i : Instr) (st : Site) (inChain : Bool) :
    Option (BitVec 52 × Bool × Nat × Bool) :=
  let bps := (s.core W.core).bps
  let resumes := match i with
    | .rep _ => W.repc != 0
    | _ => false
  if inChain || resumes || bps.all (fun b => !bitN b.ctl.toNat 0) then none
  else
    let words := match st.iter with
      | some _ => [(st.addr, i)]
      | none => match s.chainAhead W.core B.ctx st.addr 8 with
        | [] => [(st.addr, i)]
        | _ :: r => (st.addr, i) :: r
    (words.findSome? (fun aw => bps.findSome? (fun b =>
      (bpMatch b B.ctx aw.1 (isDual aw.2) st.iter).bind (fun half =>
        let it := st.iter.getD 0
        if W.skip = ⟨true, aw.1, half, BitVec.ofNat 6 it⟩ then none else some (aw.1, half, it, isDual aw.2)))))

/-- BREAK at a match: the skip record is set on entry to the debugger or the handler (R161). -/
def State.takeBreak (s : State) (b w : Nat) (run : Mask) (resume : BitVec 52) (m : BitVec 52 × Bool × Nat × Bool) :
    State :=
  let t : Trap := ⟨causeBreak, m.1, (if m.2.2.2 then (if m.2.1 then 3 else 2) else 0), m.2.2.1, run, run, resume, resume⟩
  let enters := s.debugger || (((s.warp? b w).map (fun W => W.handler == 0)).getD false)
  let s1 := s.modWarp b w (fun W => { W.unmarked with
    skip := if enters then ⟨true, m.1, m.2.1, BitVec.ofNat 6 m.2.2.1⟩ else W.skip })
  s1.takeTrap b w t

/-! ## One word -/

/-- After an iteration that completed without a trap, %repc counts down, and the sequence ends with the last (R84). -/
def Warp.afterIteration (W : Warp) (iter : Option Nat) : Warp :=
  match iter with
  | none => W
  | some _ => { W with repc := W.repc - 1, rep := if W.repc = 1 then none else W.rep }

/-- The iteration index (A + 1) - %repc (R84); free when a program has written more into %repc than the sequence has
iterations (log 20). -/
def Warp.iteration (W : Warp) (fr : Nat) (f : FmtS) : Nat :=
  if W.repc.toNat ≤ f.a.toNat + 1 then f.a.toNat + 1 - W.repc.toNat else Config.freeNat 84 fr 0 % 64

/-- Where the warp's next word stands, and where its threads go: a REP target is issued with its threads at the REP
word, and the last iteration sends them past both (R84). -/
def Warp.site (W : Warp) (fr : Nat) (pc : BitVec 52) : Site × BitVec 52 :=
  match W.rep with
  | none => (⟨pc, pc, none⟩, pc + 8)
  | some r => (⟨pc + 8, pc, some (W.iteration fr r.word)⟩, if W.repc = 1 then pc + 16 else pc)

/-- A warp raised MIGRATE: the block freezes for one capture, which is the pre-emption's if one has begun (R350, R358). -/
def Block.freezeMig (B : Block) : Block :=
  { B with mig := true, halt := if B.captured || B.aborted then B.halt else some (.capture 0) }

/-- What a word's meaning reads (`W1` is its warp after issue has begun). -/
def State.issFor (s : State) (i : Instr) (B : Block) (W W1 : Warp) (run : Mask) (st : Site) : Iss :=
  ⟨B.uid, W.idx, B, W1, run, W1.execMask s.fresh run (predOf i).1 (predOf i).2, st.addr,
    (W.prev.bind (·.lit)).getD 0, s.fresh⟩

/-- The warp as the word's meaning finds it: single-bit errors of what it reads are corrected, the registers it writes lose their
errors, the chain goes on with it, and a
break-skip record of its own address is spent (R160, R78, R161). -/
def Warp.taking (W : Warp) (c : Iss) (h : Shape) (mn : Meaning) (chain : Option PrevWord) (st : Site) (lit : Option Word) :
    Warp :=
  { ((c.W.heal (mn.readMask c) (h.reads ++ mn.dynReads c)).clearBad c.exec (h.writes ++ mn.dynWrites c)) with
    prev := some (nextPrev chain h c.run st.addr lit)
    skip := if W.skip.valid && W.skip.addr == st.addr then { W.skip with valid := false } else W.skip }

/-- MIGRATE: one capture of the whole block; the threads keep the word's (or chain's) address (R349). -/
def State.takeMigrate (s : State) (b w : Nat) (run : Mask) (addr resume : BitVec 52) : State :=
  (s.modWarp b w (fun W => ((W.chosen addr).quiesce run).modThreads run (fun t => { t with pc := resume }))).modBlock b
    Block.freezeMig

/-- A word has taken effect: an iteration of REP counts down (R84). -/
def State.close (s : State) (b w : Nat) (iter : Option Nat) : State :=
  match iter with
  | none => s
  | some n => s.modWarp b w (fun V => V.afterIteration (some n))

/-- What becomes of the state when a word's own effect comes to `r`; `V` is its warp as the meaning found it. -/
def State.finish (s : State) (c : Iss) (V : Warp) (st : Site) (next resume : BitVec 52) (half : BitVec 3) (r : Res) : State :=
  match r with
  | .ok s' => s'.close c.b c.w st.iter
  | .trap cause addr aux =>
    (s.modWarp c.b c.w (Warp.chosen st.addr)).takeTrap c.b c.w ⟨cause, st.addr, half, addr, aux, c.run, resume, resume⟩
  | .trapIn f cause addr aux =>
    (f (s.modWarp c.b c.w (Warp.chosen st.addr))).takeTrap c.b c.w ⟨cause, st.addr, half, addr, aux, c.run, resume, resume⟩
  | .trapAfter cause addr aux m =>
    (s.setWarp c.b V).takeTrap c.b c.w ⟨cause, st.addr, 0, addr, aux, m, next, st.pc⟩
  | .hold f => (f (s.modWarp c.b c.w (Warp.chosen st.addr))).modWarp c.b c.w (fun W => (W.quiesce c.run).modThreads c.run (fun t => { t with pc := resume }))
  | .stall => s
  | .migrate => s.takeMigrate c.b c.w c.run st.addr resume

/-- Issue a word of the current warp: a word that is not ready does not issue; a breakpoint or a failed check traps;
otherwise the word takes effect whole. -/
def issueAt (i : Instr) (h : Shape) (c : Ctl) (mn : Meaning) (B : Block) (W : Warp) (run : Mask) (st : Site)
    (next : BitVec 52) (lit : Option Word) (s : State) : State :=
  let now := s.clockOf W.core
  if !(s.mayIssue B W && W.ready now c h.setf) then s
  else
    let chain := s.chainOf B W h run st.addr
    let resume := resumeAt W chain run st
    match s.breakAt B W i st chain.isSome with
    | some m => s.takeBreak B.uid W.idx run resume m
    | none =>
      let iss := s.issFor i B W ((W.heard c.wait).begin run next c.dist.toNat h.setf now) run st
      let trap (f : Failure) : State :=
        (s.modWarp B.uid W.idx (Warp.chosen st.addr)).takeTrap B.uid W.idx
          ⟨f.1, st.addr, f.2.1, f.2.2.1, f.2.2.2, run, resume, resume⟩
      let dualHalf : BitVec 3 := if isDual i then 2 else 0
      match checkWord { iss with W := { iss.W with prev := W.prev } } h mn chain st.addr with
      | .error f => trap f
      | .ok true => s.takeMigrate B.uid W.idx run st.addr resume
      | .ok false =>
        match s.hazard iss h mn with
        | some f => trap f
        | none =>
          let bad := h.pieces.map (fun q => iss.W.readsBad (mn.readMask iss) (q.reads ++ mn.dynReads iss))
          if bad.any id then
            (trap (causePoison, halfCode bad, Config.freeNat 160 s.fresh 0, Config.freeWord 160 s.fresh 0)).count 2
              (coreDie W.core)
          else
            let V := W.taking iss h mn chain st lit
            s.finish iss V st next resume dualHalf (mn.body { iss with W := V } (s.setWarp B.uid V))

/-- The block and the warp whose word `exec` issues. -/
def State.current (s : State) : Option (Block × Warp) :=
  s.cur.bind (fun r => (s.block? r.blk).bind (fun B => (B.warp? r.warp).map (fun W => (B, W))))

/-- Issue a word by its meaning. A step with no warp to issue it, or none of whose threads may run, does nothing (R20). -/
def issueLit (i : Instr) (lit : Option Word) (mn : Meaning) (s : State) : Host.Outcome State Fault Refusal :=
  match s.current, shapeOf i, ctlOf i with
  | some (B, W), some h, some c =>
    match s.runOf B W with
    | none => .next s
    | some (run, pc) => .next (issueAt i h c mn B W run (W.site s.fresh pc).1 (W.site s.fresh pc).2 lit s)
  | _, _, _ => .next s

def issueM (i : Instr) (mn : Meaning) (s : State) : Host.Outcome State Fault Refusal := issueLit i none mn s

/-- Issue a word whose meaning is just its effect. -/
def issue (i : Instr) (body : Iss → State → Res) (s : State) : Host.Outcome State Fault Refusal :=
  issueM i { body := body } s

/-- The meaning of a word that only changes its warp. -/
def onWarp (f : Iss → Warp) (c : Iss) (s : State) : Res := .ok (s.setWarp c.b (f c))

end Sys2Proof.Machine
end

