-- ==== Sys2Proof/Machine/MemOps.lean ====
section
/-!
DEFINITION. What the memory words share: scratch (R153 to R156), rotation (R159), descriptors (R187), the checks of Table
6.3, fault records for held words (R177), entering an operation of a warp (R61, R178), and the order in which a warp's
memory words are performed (R179, R309).
-/
namespace Sys2Proof.Machine

/-! ## Scratch (R153 to R156, R160) -/

/-- The allocation a warp's scratch accesses reach: its own share's, or its block's (R260). -/
def State.allocOf (s : State) (b w : Nat) : Option Alloc :=
  s.allocs.find? (fun a => a.owner == b && decide (a.first ≤ w) && decide (w < a.first + a.count))

/-- The declared bytes of a warp's scratch; 0 when it has none. -/
def State.scratchSize (s : State) (b w : Nat) : Nat := ((s.allocOf b w).map Alloc.size).getD 0

/-- A byte of an allocation; nothing written reads as 0 (R154). -/
def Alloc.byte (a : Alloc) (x : Nat) : Byte := tget 0 a.bytes x
def Alloc.read (a : Alloc) (x n : Nat) : List Byte := (List.range n).map (fun i => a.byte (x + i))
def Alloc.readN (a : Alloc) (x n : Nat) : Nat := ofLeBytes (a.read x n)

/-- A 32-bit word of the n bytes from x up has a double-bit error (R160). -/
def Alloc.isBad (a : Alloc) (x n : Nat) : Bool := a.bad.any (fun k => decide (k * 4 < x + n) && decide (x < k * 4 + 4))

/-- Write bytes; a 32-bit word written whole loses its error. -/
def Alloc.write (a : Alloc) (x : Nat) (bs : List Byte) : Alloc :=
  { a with
    bytes := tsetMany 0 a.bytes x bs
    past := (wordsOf x bs.length).map (fun w => (w, a.readN w 4)) ++ a.past
    bad := a.bad.filter (fun k => !(decide (x ≤ k * 4) && decide (k * 4 + 4 ≤ x + bs.length)))
    weak := a.weak.filter (fun k => !(decide (x ≤ k * 4) && decide (k * 4 + 4 ≤ x + bs.length))) }

/-- The scratch a reader finds that read at any moments since (R232, R252). -/
def Alloc.asOf (a : Alloc) (fr since : Nat) : Alloc :=
  { a with bytes := (seenSince a.past since fr (fun w => a.readN w 4)).foldl (fun t e =>
      tsetMany 0 t e.1 (leBytes 4 e.2)) a.bytes }

def State.modAlloc (s : State) (id : Nat) (f : Alloc → Alloc) : State :=
  { s with allocs := s.allocs.map (fun a => if a.id = id then f a else a) }

/-- Bytes of a page of an allocation, from address x up, go to its backing page (R153, R157). A backing page that does not
translate takes none; the allocation's own copy stands (log 54). -/
def State.pageWrite (s : State) (a : Alloc) (p : SttPage) (x : Nat) (bs : List Byte) : State :=
  let lo := max x (4096 * p.vpn)
  let hi := min (x + bs.length) (4096 * p.vpn + 4096)
  if hi ≤ lo then s
  else match s.writeVa none a.ctx (4096 * p.back.toNat + lo % 4096) ((bs.drop (lo - x)).take (hi - lo)) with
    | .ok s1 => s1
    | .error _ => s

/-- The bytes of a page that lie within the declared allocation (R154, R156). -/
def Alloc.pageLen (a : Alloc) (p : SttPage) : Nat := min 4096 (a.size - 4096 * p.vpn)

/-- The units that n bytes of a context's memory cover whole lose their poison: they have been written (R300). -/
def State.unpoisonVa (s : State) (cl : Option Nat) (ctx va n : Nat) : State :=
  match s.locsOf cl ctx va .write n with
  | .ok ls => { s with mem := (runsOf (ls.map (fun l => (l, 0)))).foldl (fun m r => m.unpoison r.1 r.2.length) s.mem }
  | .error _ => s

/-- The backing addresses, and how many bytes there, of those of n bytes from x up that lie in spill pages (R153). -/
def Alloc.spills (a : Alloc) (x n : Nat) : List (Nat × Nat) :=
  (a.pages.filter (fun p => p.pin.isNone)).filterMap (fun p =>
    let lo := max x (4096 * p.vpn)
    let hi := min (x + n) (4096 * p.vpn + 4096)
    if hi ≤ lo then none else some (4096 * p.back.toNat + lo % 4096, hi - lo))

/-- An access to n bytes of an allocation waits for the memory of its spill pages (R296). -/
def State.allocHeld (s : State) (a : Alloc) (x n : Nat) : Bool := s.anyHeld a.ctx (a.spills x n)

/-- The slices fill the lines of n bytes of an allocation's spill pages (R300). -/
def State.allocFill (s : State) (a : Alloc) (x n : Nat) : State :=
  (a.spills x n).foldl (fun s e => s.fillVa none a.ctx e.1 e.2) s

/-- Some of n bytes of an allocation lies in a poisoned unit of a spill page's memory (R300). -/
def State.allocPoison (s : State) (a : Alloc) (x n : Nat) : Bool :=
  (a.spills x n).any (fun e => s.vaPoisoned none a.ctx e.1 e.2)

/-- The backing pages of an allocation: address and bytes. -/
def Alloc.backing (a : Alloc) : List (Nat × Nat) := a.pages.map (fun p => (4096 * p.back.toNat, a.pageLen p))

/-- A write of an allocation: a pinned page holds it in the core, a spill page in its backing page (R153). -/
def State.allocWrite (s : State) (id x : Nat) (bs : List Byte) : State :=
  match s.allocs.find? (fun a => a.id == id) with
  | none => s
  | some a => (a.pages.filter (fun p => p.pin.isNone)).foldl (fun s p => s.pageWrite a p x bs)
      (s.modAlloc id (fun a => a.write x bs))

/-- The zeros of a new allocation's spill pages are written to their backing pages (R154). -/
def State.zeroSpills (s : State) (a : Alloc) : State :=
  (a.pages.filter (fun p => p.pin.isNone)).foldl (fun s p =>
    s.pageWrite a p (4096 * p.vpn) (List.replicate (a.pageLen p) 0)) s

/-- Single-bit errors of the scratch words among n bytes that a core's access reads are corrected and counted (R160). -/
def State.allocHeal (s : State) (alloc core x n : Nat) : State :=
  match s.allocs.find? (fun a => a.id == alloc) with
  | none => s
  | some a =>
    let met (k : Nat) : Bool := decide (k * 4 < x + n) && decide (x < k * 4 + 4)
    let c := tget 0 s.tel.corrected core + (a.weak.filter met).length
    ({ s with tel := { s.tel with corrected := tset 0 s.tel.corrected core c } } : State).modAlloc a.id (fun a =>
      { a with weak := a.weak.filter (fun k => !met k) })

/-- A pinned page is written back to its backing page (R157). Its words are read, so that a single-bit error is corrected and counted,
and a double-bit error counted (R160, R454). Of the last page only the declared bytes are written (DESIGN CHOICE, log 54). -/
def State.pageBack (s : State) (a : Alloc) (p : SttPage) : State :=
  match p.pin with
  | none => s
  | some pin =>
    let x := 4096 * p.vpn
    let n := a.pageLen p
    let s1 := s.allocHeal a.id pin.1 x n
    let s2 := (a.bad.filter (fun k => decide (x ≤ 4 * k) && decide (4 * k < x + n))).foldl (fun s _ => s.count 2 (coreDie pin.1)) s1
    (s2.fillVa none a.ctx (4096 * p.back.toNat + n / 128 * 128) (n % 128)).pageWrite a p x (a.read x n)

/-- The pinned pages of an allocation are written back. -/
def State.writeBack (s : State) (a : Alloc) : State := a.pages.foldl (fun s p => s.pageBack a p) s

/-- An allocation filled from its backing pages, as far as they translate (R157). A word that had a double-bit error when it was
written back still has it, and one filled from a poisoned unit has one (DESIGN CHOICE, log 54). -/
def State.filledFrom (s : State) (a : Alloc) : Alloc :=
  a.pages.foldl (fun a p =>
    let va := 4096 * p.back.toNat
    match s.readVa none a.ctx va (a.pageLen p) with
    | .ok bs => { a with
        bytes := tsetMany 0 a.bytes (4096 * p.vpn) bs
        bad := (a.bad ++ ((List.range (ceilDiv bs.length 4)).filter (fun i =>
          s.vaPoisoned none a.ctx (va + 4 * i) (min 4 (bs.length - 4 * i)))).map (1024 * p.vpn + ·)).eraseDups }
    | .error _ => a) a

/-- The slices fill the lines of an allocation's backing pages. -/
def State.backFill (s : State) (a : Alloc) : State := a.backing.foldl (fun s e => s.fillVa none a.ctx e.1 e.2) s

/-- The backing pages of some allocations wait for their memory (R296). -/
def State.backHeld (s : State) (as : List Alloc) : Bool := as.any (fun a => s.anyHeld a.ctx a.backing)

/-- Whole 16-byte units of n bytes of an allocation's spill pages have been written (R300). -/
def State.allocUnpoison (s : State) (a : Alloc) (x n : Nat) : State :=
  (a.spills x n).foldl (fun s e => s.unpoisonVa none a.ctx e.1 e.2) s

def State.scrRead (s : State) (b w x n : Nat) : List Byte :=
  match s.allocOf b w with
  | some a => a.read x n
  | none => List.replicate n 0

/-- Whole 16-byte units of n bytes of a warp's scratch have been written (R300). -/
def State.scrClear (s : State) (b w x n : Nat) : State :=
  match s.allocOf b w with
  | some a => s.allocUnpoison a x n
  | none => s

/-- A write of a warp's scratch; the slices fill the lines of spill pages. -/
def State.scrWrite (s : State) (b w x : Nat) (bs : List Byte) : State :=
  match s.allocOf b w with
  | some a => (s.allocFill a x bs.length).allocWrite a.id x bs
  | none => s

/-- Some of n bytes of a warp's scratch can not be read: a double-bit error (R160), or a poisoned unit of a spill page (R300). -/
def State.scrBad (s : State) (b w x n : Nat) : Bool :=
  ((s.allocOf b w).map (fun a => a.isBad x n || s.allocPoison a x n)).getD false

/-- An access to n bytes of a warp's scratch waits (R296). -/
def State.scrHeld (s : State) (b w x n : Nat) : Bool := ((s.allocOf b w).map (fun a => s.allocHeld a x n)).getD false

/-- R159: the byte offset x of row `row` under rotation code c. -/
def rotate (c row x : Nat) : Nat :=
  if c = 0 then x
  else Nat.xor x ((row % 2 ^ (c % 4 + 1)) * 2 ^ (c / 4 + 2))

/-! ## Scratch descriptors (R187, Table 6.5) -/

structure Desc where
  pitch : Nat
  base : Nat
  fmt : Nat
  rot : Nat
  tpitch : Nat
  deriving DecidableEq, Repr

def Desc.of (lo hi : Word) : Desc :=
  ⟨bitsN lo.toNat 31 20, bitsN lo.toNat 19 0, bitsN hi.toNat 19 16, bitsN hi.toNat 15 12, bitsN hi.toNat 11 0⟩

/-- The descriptor's fields are valid; otherwise the word that reads it is ILLEGAL. -/
def Desc.ok (d : Desc) : Bool :=
  (decide (d.fmt < 4) || d.fmt == 7) && d.base % 16 == 0 && d.pitch % 16 == 0 && d.pitch != 0

/-- FMT selects 16-bit elements. -/
def Desc.wide (d : Desc) : Bool := decide (d.fmt < 2)

/-- An exact scratch address as a 32-bit one (log 22). -/
def scrAddr (x : Int) : Nat := modN 32 x

/-- Byte x of row t of the stored tile at origin o (R188). -/
def Desc.at (d : Desc) (o : Int) (t x : Nat) : Nat := scrAddr (o + t * d.pitch + (rotate d.rot t x : Nat))

/-- The lowest of some scratch bytes that lies at or beyond an allocation (R468). -/
def firstBeyond (size : Nat) (xs : List Nat) : Option Nat :=
  match xs.filter (fun x => decide (size ≤ x)) with
  | [] => none
  | x :: r => some (r.foldl min x)

/-! ## Entering an operation -/

/-- The flag SETF names, if any (R61). -/
def setfOf (x : BitVec 4) : Option Nat := if x.toNat < 12 then some x.toNat else none

/-- Enter an operation of the issuing warp, whose flagged registers are `locs`. -/
def State.enter (s : State) (c : Iss) (kind : OpKind) (setf : BitVec 4) (parts : List Part) (reqs : List AtomReq)
    (locs : List Loc) : State :=
  let id := s.nextUid
  let op : Op := ⟨id, kind, setfOf setf, c.pc, parts, reqs, false⟩
  ({ s with nextUid := id + 1 } : State).setWarp c.b
    { c.W.awaitWrites id (setfOf setf) locs with ops := c.W.ops ++ [op] }

/-! ## Table 6.3 -/

/-- The lanes of some (lane, address) pairs for which p holds, as a mask. -/
def failMask (xs : List (Nat × Nat)) (p : Nat → Bool) : Mask := maskOf (fun l => xs.any (fun e => e.1 == l && p e.2))

/-- The first lane's address for which p holds. -/
def failAddr (xs : List (Nat × Nat)) (p : Nat → Bool) : Nat := ((xs.find? (fun e => p e.2)).map (·.2)).getD 0

def failAt (cause : Nat) (xs : List (Nat × Nat)) (p : Nat → Bool) : Res := .trap cause (failAddr xs p) (failMask xs p)

/-- A store or atomic of n bytes at a VA touches a shared window of the launch (R364). -/
def Launch.inWindow (L : Launch) (va n : Nat) : Bool :=
  L.windows.any (fun w => decide (w.1 < va + n) && decide (va < w.1 + w.2))

/-- Where one address of a memory word leads: a location, or the PA of a peer aperture. -/
def accessPa : Access → Option Nat
  | .mem loc => some loc
  | .peer port off => some (0x40000000000 + port * 2 ^ 36 + off)
  | _ => none

/-- The checks of Table 6.3 on (lane, EA) pairs for accesses of n bytes (`align` for the alignment asked for): the word's
fate, or each lane's place; it waits for a walk that an unlocked die holds (R296). `tokened` says that check 6 applies; `kind` is the fault record's. -/
def State.checkGlobal (s : State) (c : Iss) (n align : Nat) (need : Need) (kind : Nat) (tokened : Bool)
    (xs : List (Nat × Nat)) : Except Res (List (Nat × Nat × Nat)) :=
  let acc (va : Nat) : Access := s.access (some (coreCluster c.W.core)) c.B.ctx va need
  if xs.any (fun e => decide (2 ^ 52 ≤ e.2)) then .error (failAt causeMemProt xs (fun a => decide (2 ^ 52 ≤ a)))
  else if xs.any (fun e => e.2 % align != 0) then .error (failAt causeMisalign xs (fun a => a % align != 0))
  else if xs.any (fun e => s.walkHeld c.B.ctx e.2) then .error .stall
  else if xs.any (fun e => acc e.2 == .fault) then
    let bad := xs.filter (fun e => acc e.2 == .fault)
    let t : TrapRegs := ⟨BitVec.ofNat 8 causeMemFault, c.pc, 0, BitVec.ofNat 64 (failAddr bad (fun _ => true)),
      failMask bad (fun _ => true), 0⟩
    .error (.hold (fun s => s.holdOn c.B c.w kind (bad.map (·.2)) t))
  else if xs.any (fun e => (accessPa (acc e.2)).isNone) then
    .error (failAt causeMemProt xs (fun a => (accessPa (acc a)).isNone))
  else
    let guarded (a : Nat) : Bool := tokened && s.isDet c.B && !s.holdsToken c.B c.w &&
      ((s.launch? c.B.launch).map (fun L => L.inWindow a n)).getD false
    if xs.any (fun e => guarded e.2) then .error (failAt causeCtok xs guarded)
    else .ok (xs.map (fun e => (e.1, e.2, (accessPa (acc e.2)).getD 0)))

/-- The checks of Table 6.3 on (lane, address) pairs for scratch accesses of n bytes. -/
def State.checkScratch (s : State) (c : Iss) (n : Nat) (xs : List (Nat × Nat)) : Option Res :=
  let size := s.scratchSize c.b c.w
  if xs.any (fun e => e.2 % n != 0) then some (failAt causeMisalign xs (fun a => a % n != 0))
  else if xs.any (fun e => decide (size < e.2 + n)) then
    some (failAt causeScratch xs (fun a => decide (size < a + n)))
  else none

/-- Keep the translations of these addresses in the cluster's TLB (R400). -/
def State.keepAll (s : State) (c : Iss) (vas : List Nat) : State :=
  vas.foldl (fun s va => s.tlbKeep (coreCluster c.W.core) c.B.ctx va
    (s.translate (some (coreCluster c.W.core)) c.B.ctx va)) s

/-! ## Units of an access (R305) -/

/-- Offset and length of the units of an access of n bytes: one, or its 4-byte words. -/
def unitsOf (n : Nat) (whole : Bool) : List (Nat × Nat) :=
  if whole || n ≤ 4 then [(0, n)] else (List.range (n / 4)).map (fun i => (4 * i, 4))

/-! ## The order of a warp's memory words (R179, R309) -/

def OpKind.acquires : OpKind → Bool
  | .load _ _ acq _ => acq
  | .atom _ ord _ _ => ord % 2 == 1
  | _ => false

def OpKind.releases : OpKind → Bool
  | .store rel => rel
  | .atom _ ord _ _ => decide (2 ≤ ord)
  | _ => false

def OpKind.syncs (k : OpKind) : Bool := k.acquires || k.releases

/-- Its parts lie in scratch. -/
def OpKind.scratch : OpKind → Bool
  | .lds _ _ => true
  | .sts => true
  | .ldfrag _ _ _ _ => true
  | .stfrag => true
  | .atoms _ _ _ => true
  | .cbset _ _ => true
  | .cbwait _ _ _ => true
  | .ckick _ _ _ => true
  | _ => false

/-- A store or a posted atomic, for which FENCE.sig and CKICK wait (R185, R203). -/
def OpKind.isStore : OpKind → Bool
  | .store _ => true
  | .sts => true
  | .stfrag => true
  | .atom _ _ _ dst => dst.isNone
  | .atoms _ _ dst => dst.isNone
  | _ => false

/-- The bytes of an operation not yet performed, as (place, length). -/
def Op.pending (o : Op) (w64 : Bool) : List (Nat × Nat) :=
  (o.parts.filter (fun p => !p.done)).map (fun p => (p.pa, p.len)) ++
  (o.reqs.filter (fun r => !r.done)).map (fun r => (r.pa, if w64 then 8 else 4))

def Op.w64 (o : Op) : Bool :=
  match o.kind with
  | .atom _ _ w _ => w
  | .atoms _ w _ => w
  | _ => false

def overlaps (x n y m : Nat) : Bool := decide (x < y + m) && decide (y < x + n)

/-- The lanes an operation has still to perform something for. -/
def Op.pendingLanes (o : Op) : List Nat :=
  (o.parts.filter (fun p => !p.done)).map (·.lane) ++
  ((o.reqs.filter (fun r => !r.done)).flatMap (fun r => r.lanes.map (·.1)))

/-- An earlier operation, after those of `before`, lets n bytes at x of operation o, for these lanes, be performed. -/
def Op.allows (o : Op) (lanes : List Nat) (x n : Nat) (before : List Op) (y : Op) : Bool :=
  !y.kind.isMem ||
  ((y.performed || !(y.kind.acquires || o.kind.releases || (match y.kind with
      | .fence _ => true
      | .monitor _ => true
      | _ => false))) &&
    (match y.kind with
      | .fence _ => before.all (fun z => !z.kind.isMem || z.performed)
      | _ => true) &&
    (!(o.kind.syncs && y.kind.syncs) || y.performed || y.pendingLanes.all (fun l => !lanes.contains l)) &&
    (o.kind.scratch != y.kind.scratch || (y.pending y.w64).all (fun e => !overlaps x n e.1 e.2)))

/-- Check every earlier operation in turn, with those before it. -/
def allowsAll (o : Op) (lanes : List Nat) (x n : Nat) : List Op → List Op → Bool
  | _, [] => true
  | before, y :: rest => o.allows lanes x n before y && allowsAll o lanes x n (before ++ [y]) rest

/-- R179 and R309 let operation o perform n bytes at x for these lanes. -/
def Warp.mayPerform (W : Warp) (o : Op) (lanes : List Nat) (x n : Nat) : Bool :=
  allowsAll o lanes x n [] (W.opsBefore o.id)

/-! ## An engine's reads and writes, word by word (R305) -/

/-- Bytes from an address up, cut into naturally aligned 4-byte words (R305); `n` bounds their number. -/
def wordPieces : Nat → Nat → List Byte → List (Nat × List Byte)
  | _, _, [] => []
  | 0, _, _ => []
  | n + 1, a, b :: bs =>
    let k := 4 - a % 4
    (a, (b :: bs).take k) :: wordPieces n (a + k) ((b :: bs).drop k)

/-- All the words of some bytes. -/
def piecesOf (a : Nat) (bs : List Byte) : List (Nat × List Byte) := wordPieces (bs.length + 1) a bs

/-- Words joined again where one follows another. -/
def joinPieces (ps : List (Nat × List Byte)) : List (Nat × List Byte) :=
  runsOf (ps.flatMap (fun p => p.2.zipIdx.map (fun x => (p.1 + x.2, x.1))))

/-- The machine as an engine finds it that read at any moments since memory had replaced so many words (R305, log 62). -/
def State.asOf (s : State) (since : Nat) : State := { s with mem := s.mem.asOf s.fresh since }

/-- The same of the scratch of a warp. -/
def State.scrAsOf (s : State) (b w since : Nat) : State :=
  match s.allocOf b w with
  | some a => s.modAlloc a.id (fun a => a.asOf s.fresh since)
  | none => s

/-- The words a warp's scratch allocation has replaced so far. -/
def State.scrPast (s : State) (b w : Nat) : Nat := ((s.allocOf b w).map (fun a => a.past.length)).getD 0

/-! ## A CBWAIT's first moment (R206, R208) -/

def objArmed (x : Nat) : Bool := bitN x 55
def objErr (x : Nat) : Bool := bitN x 63
def Alloc.obj (a : Alloc) (addr : Nat) : Nat := a.readN addr 8

/-- A CBWAIT of the warp that finds its object with ARMED = 0 or ERR = 1 for the first time keeps it, unless the object can
not be read at its address (R160, R300). -/
def Warp.notice (W : Warp) (a : Option Alloc) (bad : Nat → Bool) : Warp :=
  { W with ops := W.ops.map (fun o => match o.kind, a with
    | .cbwait d addr none, some a =>
      if (!objArmed (a.obj addr) || objErr (a.obj addr)) && !bad addr && W.mayPerform o [0] addr 8 then
        { o with kind := .cbwait d addr (some (a.obj addr)) } else o
    | _, _ => o) }

/-- After a step that may have changed a block's scratch. -/
def State.noticeWaits (s : State) (b : Nat) : State :=
  s.modBlock b (fun B => { B with warps := B.warpList.map (fun W => W.notice (s.allocOf b W.idx)
    (fun x => s.scrBad b W.idx x 8 || s.scrHeld b W.idx x 8)) })

/-- The warp an operation belongs to. -/
def State.opOwner (s : State) (id : Nat) : Option (Block × Warp × Op) :=
  s.blocks.findSome? (fun B => B.warps.findSome? (fun W => (W.op? id).map (fun o => (B, W, o))))

end Sys2Proof.Machine
end

