-- ==== Sys2Proof/Machine/Memory.lean ====
section
/-!
DEFINITION. Group 4 at issue (R172 to R196): addresses, checks, and the operation each word enters. What the operation
does at the home slice or in scratch is `Perform`'s.
-/
namespace Sys2Proof.Machine

/-! ## Effective addresses (R174) -/

/-- (base + sext(OFF12) × s) mod 2⁶⁴, per lane. -/
def eaOf (base : Nat → Dword) (off : BitVec 12) (n : Nat) (l : Nat) : Nat :=
  (dword ((base l).toNat + off.toInt * n)).toNat

/-- (base + sext(OFF12) × s) mod 2³². -/
def scrEaOf (base : Nat → Word) (off : BitVec 12) (n : Nat) (l : Nat) : Nat :=
  (word ((base l).toNat + off.toInt * n)).toNat

/-- The lane base: a pair, or zero for 0xFC. -/
def laneBase (f : FmtM) (c : Iss) (l : Nat) : Dword := c.src64 f.base l
/-- The uniform base. -/
def uniBase (f : FmtM) (c : Iss) (_ : Nat) : Dword := c.uni64 f.base.toNat

/-- The executing lanes with their addresses. -/
def laneAddrs (c : Iss) (ea : Nat → Nat) : List (Nat × Nat) := (lanesOf c.exec).map (fun l => (l, ea l))

/-! ## Registers of an access -/

/-- The register a load writes first; none for 0xFC. -/
def dstReg (x : BitVec 8) : Option Nat := if x.toNat < 0xF8 then some x.toNat else none

/-- The registers n bytes of data fill. -/
def dataRegs (d : Option Nat) (n : Nat) : List Loc :=
  match d with
  | none => []
  | some r => (List.range ((n + 3) / 4)).map (fun i => .lane (r + i))

/-- The bytes a store of n bytes takes from DATA in a lane; 0xFC stores zero. -/
def storeBytes (c : Iss) (x : BitVec 8) (n l : Nat) : List Byte :=
  match dstReg x with
  | none => List.replicate n 0
  | some r => ((List.range ((n + 3) / 4)).flatMap (fun i => leBytes 4 (c.W.vAt c.fr (r + i) l).toNat)).take n

/-- The parts of loads of n bytes. -/
def loadParts (xs : List (Nat × Nat × Nat)) (n : Nat) (whole : Bool) : List Part :=
  xs.flatMap (fun e => (unitsOf n whole).map (fun u => ⟨e.1, u.1, e.2.1 + u.1, e.2.2 + u.1, u.2, [], false⟩))

/-- The parts of stores of n bytes. -/
def storeParts (xs : List (Nat × Nat × Nat)) (n : Nat) (whole : Bool) (bytes : Nat → List Byte) : List Part :=
  xs.flatMap (fun e => (unitsOf n whole).map (fun u =>
    ⟨e.1, u.1, e.2.1 + u.1, e.2.2 + u.1, u.2, (bytes e.1).drop u.1 |>.take u.2, false⟩))

/-! ## Global loads and stores (R172 to R183) -/

/-- A global load. -/
def loadGlobal (k : LoadKind) (f : FmtM) (acq : Bool) (base : Iss → Nat → Dword) (c : Iss) (s : State) : Res :=
  let n := loadSize k
  match s.checkGlobal c n n .read kindRead false (laneAddrs c (eaOf (base c) f.off n)) with
  | .error r => r
  | .ok xs =>
    let d := dstReg f.data
    .ok ((s.enter c (.load k d acq f.lu) f.setf (loadParts xs n acq) [] (dataRegs d n)).keepAll c
      (xs.map (fun e => e.2.1)))

/-- A global store. -/
def storeGlobal (n : Nat) (f : FmtM) (rel : Bool) (base : Iss → Nat → Dword) (c : Iss) (s : State) : Res :=
  match s.checkGlobal c n n .write kindWrite true (laneAddrs c (eaOf (base c) f.off n)) with
  | .error r => r
  | .ok xs =>
    .ok ((s.enter c (.store rel) f.setf (storeParts xs n rel (storeBytes c f.data n)) [] []).keepAll c
      (xs.map (fun e => e.2.1)))

def execLdLane (k : LoadKind) (f : FmtM) (s : State) : Host.Outcome State Fault Refusal :=
  issue (.ldLane k f) (loadGlobal k f false (laneBase f)) s

def execLdUniform (k : LoadKind) (f : FmtM) (s : State) : Host.Outcome State Fault Refusal :=
  issue (.ldUniform k f) (loadGlobal k f false (uniBase f)) s

def execStLane (k : StoreKind) (f : FmtM) (s : State) : Host.Outcome State Fault Refusal :=
  issue (.stLane k f) (storeGlobal (storeSize k) f false (laneBase f)) s

def execStUniform (k : StoreKind) (f : FmtM) (s : State) : Host.Outcome State Fault Refusal :=
  issue (.stUniform k f) (storeGlobal (storeSize k) f false (uniBase f)) s

/-- R183: loads with acquire order, of 4 or 8 bytes at one instant (R305). -/
def execLda (w64 : Bool) (f : FmtM) (s : State) : Host.Outcome State Fault Refusal :=
  issue (.lda w64 f) (loadGlobal (if w64 then .w64 else .w32) f true (laneBase f)) s

/-- R183: stores with release order. -/
def execStr (w64 : Bool) (f : FmtM) (s : State) : Host.Outcome State Fault Refusal :=
  issue (.str w64 f) (storeGlobal (if w64 then 8 else 4) f true (laneBase f)) s

/-- R184: no effect a program can see; with LEVEL = 0 the line's words may stand in L1 from now on. A lane that fails a
check is dropped. -/
def execPref (f : FmtM) (s : State) : Host.Outcome State Fault Refusal :=
  issue (.pref f) (fun c s =>
    .ok ((laneAddrs c (eaOf (laneBase f c) f.off 128)).foldl (fun (s : State) e =>
      if f.data.getLsbD 0 then s
      else match s.access (some (coreCluster c.W.core)) c.B.ctx e.2 .read with
        | .mem loc =>
          if s.heldLoc loc || s.walkHeld c.B.ctx e.2 then s
          else
            let s := s.fill loc 1
            { s with mem := (wordsOf (lineOf loc * 128) 128).foldl (fun m w =>
              if m.ownerOf w = some c.W.core then m else m.l1Fill c.W.core w) s.mem }
        | _ => s) s)) s

/-! ## Scratch (R186) -/

def execLds (k : LoadKind) (f : FmtM) (s : State) : Host.Outcome State Fault Refusal :=
  issue (.lds k f) (fun c s =>
    let n := loadSize k
    let xs := laneAddrs c (scrEaOf (c.src f.base) f.off n)
    match s.checkScratch c n xs with
    | some r => r
    | none =>
      let d := dstReg f.data
      .ok (s.enter c (.lds k d) f.setf (loadParts (xs.map (fun e => (e.1, e.2, e.2))) n false) [] (dataRegs d n))) s

def execSts (k : StoreKind) (f : FmtM) (s : State) : Host.Outcome State Fault Refusal :=
  issue (.sts k f) (fun c s =>
    let n := storeSize k
    let xs := laneAddrs c (scrEaOf (c.src f.base) f.off n)
    match s.checkScratch c n xs with
    | some r => r
    | none =>
      .ok (s.enter c .sts f.setf (storeParts (xs.map (fun e => (e.1, e.2, e.2))) n false (storeBytes c f.data n)) []
        [])) s

/-! ## Fragments (R187 to R189) -/

/-- Byte k of the 16 bytes lane l holds, as a byte 32 t + x of the stored tile (Table 6.6). -/
def fragByte (wide trans : Bool) (l k : Nat) : Nat :=
  if wide then
    if trans then (8 * (l / 16) + k / 2) * 32 + 2 * (l % 16) + k % 2
    else (l % 16) * 32 + 16 * (l / 16) + k
  else if trans then k * 32 + l
  else (l % 16) * 32 + 16 * (l / 16) + k

/-- The tile's origin O = BASE + sext(OFF12) × TPITCH × 16 (R188). -/
def tileOrigin (d : Desc) (off : BitVec 12) : Int := d.base + off.toInt * (d.tpitch * 16 : Nat)

/-- The scratch address of byte j = 32 t + x of a stored tile. -/
def tileAt (d : Desc) (o : Int) (j : Nat) : Nat := d.at o (j / 32) (j % 32)

/-- The stored tile an LDFRAG or STFRAG names, or its fate. -/
def fragTile (f : FmtM) (c : Iss) (s : State) : Except Res (Desc × Int) :=
  let d := Desc.of (c.uni f.base.toNat) (c.uni (f.base.toNat + 1))
  let o := tileOrigin d f.off
  if !d.ok then .error (.trap causeIllegal 0 0)
  else match firstBeyond (s.scratchSize c.b c.w) ((List.range 512).map (tileAt d o)) with
    | some a => .error (.trap causeScratch a c.run)
    | none => .ok (d, o)

def execLdfrag (f : FmtM) (s : State) : Host.Outcome State Fault Refusal :=
  issue (.ldfrag f) (fun c s =>
    match fragTile f c s with
    | .error r => r
    | .ok (d, o) =>
      let r := f.data.toNat
      .ok (s.enter c (.ldfrag r d.wide (f.ep.getLsbD 0) c.exec) f.setf
        ((List.range 128).map (fun i => ⟨0, 4 * i, 0, tileAt d o (4 * i), 4, [], false⟩)) []
        (dataRegs (some r) 16))) s

/-- The bytes of the stored tile that the lanes' fragments make: lane l's byte k goes to tile byte fragByte l k. -/
def tileBytes (c : Iss) (r : Nat) (wide trans : Bool) : Tab Byte :=
  (List.range 32).foldl (fun t l =>
    let bs := (List.range 4).flatMap (fun i => leBytes 4 (c.W.vAt c.fr (r + i) l).toNat)
    (List.range 16).foldl (fun t k => tset 0 t (fragByte wide trans l k) (nth 0 bs k)) t) []

def execStfrag (f : FmtM) (s : State) : Host.Outcome State Fault Refusal :=
  issueM (.stfrag f)
    { body := fun c s =>
        match fragTile f c s with
        | .error r => r
        | .ok (d, o) =>
          let t := tileBytes c f.data.toNat d.wide (f.ep.getLsbD 0)
          .ok (s.enter c .stfrag f.setf
            ((List.range 128).map (fun i => ⟨0, 4 * i, 0, tileAt d o (4 * i), 4, tgetMany 0 t (4 * i) 4, false⟩)) [] [])
      readMask := fun _ => BitVec.allOnes 32 } s

/-! ## Fences (R185) -/

def execFenceFull (f : FmtS) (s : State) : Host.Outcome State Fault Refusal :=
  issue (.fenceFull f) (fun c s => .ok (s.enter c (.fence true) f.setf [] [] [])) s

def execFenceSig (f : FmtS) (s : State) : Host.Outcome State Fault Refusal :=
  issue (.fenceSig f) (fun c s => .ok (s.enter c (.fence false) f.setf [] [] [])) s

/-! ## Atomics (R192 to R196, Table 6.8) -/

/-- The operand of an atomic in a lane, and the new value of a cas. -/
def atomOperand (f : FmtS) (c : Iss) (l : Nat) : Nat × Nat :=
  let w64 := f.sub.getLsbD 6
  let n := f.c.toNat
  if f.sub.toNat % 16 = 9 then
    if w64 then
      ((pair64 (c.W.vAt c.fr n l) (c.W.vAt c.fr (n + 1) l)).toNat,
        (pair64 (c.W.vAt c.fr (n + 2) l) (c.W.vAt c.fr (n + 3) l)).toNat)
    else ((c.W.vAt c.fr n l).toNat, (c.W.vAt c.fr (n + 1) l).toNat)
  else if w64 then ((c.src64 f.c l).toNat, 0) else ((c.src f.c l).toNat, 0)

/-- The requests of an ATOM: one for the lanes that name one address. -/
def groupLanes (op : Nat × Nat × Nat → Nat × Nat) : List (Nat × Nat × Nat) → List AtomReq
  | [] => []
  | e :: rest =>
    let gs := groupLanes op rest
    let me : Nat × Nat × Nat := (e.1, op e)
    match gs.find? (fun g => g.va == e.2.1) with
    | some g => { g with lanes := me :: g.lanes } :: gs.filter (fun h => h.va != e.2.1)
    | none => ⟨e.2.1, e.2.2, [me], false⟩ :: gs

def execAtom (f : FmtS) (s : State) : Host.Outcome State Fault Refusal :=
  issue (.atom f) (fun c s =>
    let w64 := f.sub.getLsbD 6
    let n := if w64 then 8 else 4
    match s.checkGlobal c n n .rmw kindAtomic true (laneAddrs c (fun l => (c.src64 f.b l).toNat)) with
    | .error r => r
    | .ok xs =>
      let d := dstReg f.a
      .ok ((s.enter c (.atom (f.sub.toNat % 16) (bitsN f.sub.toNat 5 4) w64 d) f.setf []
        (groupLanes (fun e => atomOperand f c e.1) xs) (dataRegs d n)).keepAll c (xs.map (fun e => e.2.1)))) s

/-- R196: lane by lane, ascending. -/
def execAtoms (f : FmtS) (s : State) : Host.Outcome State Fault Refusal :=
  issue (.atoms f) (fun c s =>
    let w64 := f.sub.getLsbD 6
    let n := if w64 then 8 else 4
    let xs := laneAddrs c (fun l => (c.src f.b l).toNat)
    match s.checkScratch c n xs with
    | some r => r
    | none =>
      let d := dstReg f.a
      .ok (s.enter c (.atoms (f.sub.toNat % 16) w64 d) f.setf []
        (xs.map (fun e => ⟨e.2, e.2, [(e.1, atomOperand f c e.1)], false⟩)) (dataRegs d n))) s

/-! ## Monitor (R212, R213, R215) -/

/-- R213: the address of the lowest executing lane, checked as a 1-byte load; the watch is registered at the home slice
when the operation is performed. -/
def execMonitor (f : FmtS) (s : State) : Host.Outcome State Fault Refusal :=
  issue (.monitor f) (fun c s =>
    match lowestLane c.exec with
    | none => .ok (s.enter c (.monitor 0) f.setf [] [] [])
    | some l =>
      let va := (c.src64 f.b l).toNat
      match s.checkGlobal c 1 1 .read kindRead false [(l, va)] with
      | .error r => r
      | .ok xs =>
        let s1 := s.keepAll c [va]
        .ok (s1.enter { c with W := { c.W with
              mon := { c.W.mon with armed := true, line := BitVec.ofNat 45 (va / 128), trig := false, watch := none } } }
          (.monitor (va / 128)) f.setf (loadParts xs 1 true) [] [])) s

/-- R215: continue, or park the executing threads, with a timeout of B cycles if it is not 0. -/
def execWaitm (f : FmtS) (s : State) : Host.Outcome State Fault Refusal :=
  issue (.waitm f) (fun c s =>
    let W := c.W
    if c.exec = 0 then .ok s
    else if !W.mon.armed || W.mon.trig then .ok (s.setWarp c.b { W with mon := { W.mon with armed := false } })
    else
      let n := if f.b = 0xFC then 0 else (c.uni f.b.toNat).toNat
      .ok (s.setWarp c.b { (W.modThreads c.exec (fun t => { t with status := .parked .waitm })) with
        mon := { W.mon with deadline := if n = 0 then W.mon.deadline else some (s.clockOf W.core + n) } })) s

end Sys2Proof.Machine
end

