-- ==== Sys2Proof/Machine/Perform.lean ====
section
/-!
DEFINITION. Performing memory words at the home slices and in scratch (R178, R303 to R305, R193 to R196, R213), with what
they do to ownership and signatures (R314 to R317), poison (R300, R160) and the ports (R447, R449).
-/
namespace Sys2Proof.Machine

/-! ## Values -/

/-- The register value of a load's unit at offset `off`: 8- and 16-bit loads extend (R173). -/
def loadValue (k : LoadKind) (bs : List Byte) : Nat :=
  match k with
  | .s8 => modN 32 (sextN 8 (ofLeBytes bs))
  | .s16 => modN 32 (sextN 16 (ofLeBytes bs))
  | _ => ofLeBytes bs

/-- Write a loaded unit to its registers in a lane, 32 bits at a time. -/
def Warp.loadInto (W : Warp) (fr id : Nat) (d : Option Nat) (lane off n x : Nat) : Warp :=
  match d with
  | none => W
  | some r => (List.range ((n + 3) / 4)).foldl (fun W i =>
      W.flagWrite fr id (.lane (r + off / 4 + i)) lane (BitVec.ofNat 32 (x / 2 ^ (32 * i)))) W

/-- Mark a part performed, with the bytes it read. -/
def Op.didPart (o : Op) (i : Nat) (bs : List Byte) : Op :=
  { o with parts := o.parts.modify i (fun p => { p with done := true, data := bs }) }

def Op.didReq (o : Op) (i : Nat) : Op := { o with reqs := o.reqs.modify i (fun r => { r with done := true }) }

/-! ## What reads at the slices do to the core's L1 -/

/-- A slice read that is no LD: a copy of the words that the core does not own must not be read older afterwards (R310),
so it is dropped. -/
def MemSt.refresh (m : MemSt) (core loc n : Nat) : MemSt :=
  (wordsOf loc n).foldl (fun m w => if m.ownerOf w = some core then m else m.l1Drop core w) m

/-- An LD that misses fills its line's words as they stand (R304); a word the core owns is already there. -/
def MemSt.l1FillLine (m : MemSt) (core loc : Nat) : MemSt :=
  (wordsOf (lineOf loc * 128) 128).foldl (fun m w =>
    if m.ownerOf w = some core && (m.l1Get core w).isSome then m else m.l1Fill core w) m

/-- The bytes of n bytes at a location as the core's L1 holds them, if it holds all of them. -/
def MemSt.l1Read (m : MemSt) (core loc n : Nat) : Option (List Byte) :=
  if (wordsOf loc n).all (fun w => (m.l1Get core w).isSome) then
    some ((List.range n).map (fun i =>
      BitVec.ofNat 8 (((m.l1Get core (loc + i)).getD 0).toNat / 2 ^ (8 * ((loc + i) % 4)))))
  else none

/-- An operation ends in a trap of its word (R160, R249, R300): nothing more of it is performed, and the block aborts. -/
def State.abortOp (s : State) (B : Block) (W : Warp) (o : Op) (cause addr : Nat) (aux : Word) : State :=
  (s.setWarp B.uid (W.modOp o.id (fun o => { o with done := true }))).abortBlock B.uid W.idx
    ⟨BitVec.ofNat 8 cause, o.pc, 0, BitVec.ofNat 64 addr, aux, 0⟩

/-- POISON of an operation of a warp; %trapaddr and %trapaux are free (log 24). -/
def State.poisonOp (s : State) (B : Block) (W : Warp) (o : Op) : State :=
  s.abortOp B W o causePoison (Config.freeNat 160 s.fresh o.id) (Config.freeWord 160 s.fresh o.id)

/-- POISON of an operation that has met a double-bit error in core storage, which is counted on its die (R160, R454). -/
def State.poisonCore (s : State) (B : Block) (W : Warp) (o : Op) : State :=
  (s.count 2 (coreDie W.core)).poisonOp B W o

/-- What a read of n bytes of a warp's scratch does besides: lines of spill pages are filled, and single-bit errors corrected. -/
def State.scrHeal (s : State) (b w core x n : Nat) : State :=
  match s.allocOf b w with
  | none => s
  | some a => (s.allocFill a x n).allocHeal a.id core x n

/-- What a read of n bytes of a warp's scratch that can not be read does besides: a double-bit error is counted on the core's die
(R160, R454), a poisoned unit of a spill page by its slice (R300). -/
def State.scrMeets (s : State) (b w core x n : Nat) : State :=
  match s.allocOf b w with
  | none => s
  | some a => if a.isBad x n then (s.allocFill a x n).count 2 (coreDie core) else s.allocFill a x n

/-- POISON of an operation that meets scratch it can not read. -/
def State.poisonScr (s : State) (B : Block) (W : Warp) (o : Op) (x n : Nat) : State :=
  (s.scrMeets B.uid W.idx W.core x n).poisonOp B W o

/-- A part of a store to a warp's scratch, with which the store has written its whole 16-byte unit or not (R300). -/
def State.scrStore (s : State) (b w x : Nat) (bs : List Byte) (whole : Bool) : State :=
  let s1 := s.scrWrite b w x bs
  if whole then s1.scrClear b w (x / 16 * 16) 16 else s1

/-- The warp's signature takes in the lines it accesses (R315, R319). -/
def Warp.touch (W : Warp) (loc n : Nat) : Warp := { W with sig := (linesOf loc n).foldl Sig.add W.sig }

/-! ## Global loads and stores -/

/-- One unit of a global load. -/
def State.performLoad (s : State) (B : Block) (W : Warp) (o : Op) (k : LoadKind) (d : Option Nat) (acq fromL1 : Bool)
    (i : Nat) (p : Part) : State :=
  let hit := if fromL1 && !acq then s.mem.l1Read W.core p.pa p.len else none
  match hit with
  | some bs =>
    s.setWarp B.uid (((W.loadInto s.fresh o.id d p.lane p.off p.len (loadValue k bs)).touch p.pa p.len).modOp o.id
      (fun o => o.didPart i bs))
  | none =>
    let s1 := s.fill p.pa p.len
    let m := s1.mem
    if m.poisoned p.pa p.len then s1.poisonOp B W o
    else
      let bs := m.read p.pa p.len
      let m1 := if acq then m.refresh W.core p.pa p.len else m.l1FillLine W.core p.pa
      let s2 : State := { s1 with mem := m1 }
      let s3 := s2.setWarp B.uid (((W.loadInto s.fresh o.id d p.lane p.off p.len (loadValue k bs)).touch p.pa
        p.len).modOp o.id (fun o => o.didPart i bs))
      if acq then s3.acquire B.uid W.idx (m.attached (lineOf p.pa)) else s3

/-- The port a peer aperture's place names. -/
def isPeer (pa : Nat) : Bool := decide (0x40000000000 ≤ pa)

/-- Stores of one warp to one port leave in issue order (R447). -/
def Warp.portFree (W : Warp) (o : Op) (pa : Nat) : Bool :=
  !isPeer pa || (W.opsBefore o.id).all (fun y => y.parts.all (fun q => q.done || !isPeer q.pa || q.pa / 2 ^ 36 != pa / 2 ^ 36))

/-- A store accepted by a port (R447, R449): it leaves as it is, or acts on the warp's stage for that port when the peer's
window takes deposits, which the peer decides (free, log 23). -/
def State.portStore (s : State) (B : Block) (w : Nat) (pa : Nat) (bs : List Byte) (rel : Bool) : State :=
  let port := pa / 2 ^ 36 % 8
  let off := pa % 2 ^ 36
  if !Config.freeBit 449 s.fresh (port * 16 + off / 2 ^ 32) then
    { s with peers := { s.peers with sent := s.peers.sent ++ [⟨port, off, bs, rel, false⟩] } }
  else
    let gran := off / 64
    let lost (s : State) : State :=
      { s with peers := { s.peers with pstage := tset 0 s.peers.pstage port (incSat32 (tget 0 s.peers.pstage port)) } }
    let mine (g : Stage) : Bool := g.blk == B.uid && g.warp == w && g.port == port
    let old := s.peers.stages.find? mine
    let others := s.peers.stages.filter (fun g => !mine g)
    let stale := (old.map (fun g => g.gran != gran)).getD false
    let s1 := if stale then lost s else s
    let held : Tab Byte := if stale then [] else (old.map (·.bytes)).getD []
    if rel && !(bs.length == 8 && off % 64 == 56) then
      lost { s1 with peers := { s1.peers with
        stages := if stale || old.isNone then others else ⟨B.uid, w, port, gran, held⟩ :: others } }
    else
      let full := tsetMany 0 held (off % 64) bs
      if rel then
        { s1 with peers := { s1.peers with
            stages := others
            sent := s1.peers.sent ++ [⟨port, gran * 64, tgetMany 0 full 0 64, true, true⟩] } }
      else { s1 with peers := { s1.peers with stages := ⟨B.uid, w, port, gran, full⟩ :: others } }

/-- With this part performed the word's lanes have together stored the part's whole 16-byte unit (R300). -/
def Op.wholeUnit (o : Op) (i : Nat) (p : Part) : Bool :=
  let u := p.pa / 16 * 16
  (List.range 16).all (fun k => (o.didPart i p.data).parts.any (fun q =>
    q.done && decide (q.pa ≤ u + k) && decide (u + k < q.pa + q.len)))

/-- One unit of a global store. -/
def State.performStore (s : State) (B : Block) (W : Warp) (o : Op) (rel : Bool) (i : Nat) (p : Part) : State :=
  let s1 := s.setWarp B.uid (W.modOp o.id (fun o => o.didPart i p.data))
  if isPeer p.pa then s1.portStore B W.idx p.pa p.data rel
  else
    let s2 := s1.fill p.pa p.len
    let s3 : State := if o.wholeUnit i p then { s2 with mem := s2.mem.unpoison (p.pa / 16 * 16) 16 } else s2
    s3.warpWrite B.uid W.idx p.pa p.data rel

/-! ## Scratch -/

def State.performLds (s : State) (B : Block) (W : Warp) (o : Op) (k : LoadKind) (d : Option Nat) (i : Nat) (p : Part) :
    State :=
  if s.scrBad B.uid W.idx p.pa p.len then s.poisonScr B W o p.pa p.len
  else
    let bs := s.scrRead B.uid W.idx p.pa p.len
    (s.scrHeal B.uid W.idx W.core p.pa p.len).setWarp B.uid ((W.loadInto s.fresh o.id d p.lane p.off p.len (loadValue k bs)).modOp o.id (fun o => o.didPart i bs))

def State.performSts (s : State) (B : Block) (W : Warp) (o : Op) (i : Nat) (p : Part) : State :=
  (s.setWarp B.uid (W.modOp o.id (fun o => o.didPart i p.data))).scrStore B.uid W.idx p.pa p.data (o.wholeUnit i p)

/-- One 4-byte word of a stored tile; with the last one the fragments are written (R188, R189). -/
def State.performLdfrag (s : State) (B : Block) (W : Warp) (o : Op) (r : Nat) (wide trans : Bool) (lanes : Mask) (i : Nat)
    (p : Part) : State :=
  if s.scrBad B.uid W.idx p.pa p.len then s.poisonScr B W o p.pa p.len
  else
    let bs := s.scrRead B.uid W.idx p.pa p.len
    let o1 := o.didPart i bs
    let W1 := W.modOp o.id (fun _ => o1)
    let s := s.scrHeal B.uid W.idx W.core p.pa p.len
    if o1.parts.all (·.done) then
      let tile := o1.parts.flatMap (·.data)
      s.setWarp B.uid ((lanesOf lanes).foldl (fun W l =>
        W.loadInto s.fresh o.id (some r) l 0 16
          (ofLeBytes ((List.range 16).map (fun k => nth 0 tile (fragByte wide trans l k))))) W1)
    else s.setWarp B.uid W1

/-! ## Atomics (R192 to R196, R322, R323) -/

/-- The new value of Table 6.8 for width w. -/
def atomNew (op w old c c2 : Nat) : Nat :=
  let sx (x : Nat) : Int := sextN w x
  match op with
  | 0 => (old + c) % 2 ^ w
  | 1 => if sx old ≤ sx c then old else c
  | 2 => min old c
  | 3 => if sx old ≤ sx c then c else old
  | 4 => max old c
  | 5 => Nat.land old c
  | 6 => Nat.lor old c
  | 7 => Nat.xor old c
  | 8 => c
  | 9 => if old = c then c2 else old
  | 10 => if c ≤ old then 0 else (old + 1) % 2 ^ w
  | _ => (fAdd fp32 .rne old c).1

/-- Lane by lane, each against the value the one before left (R195, R196): the old values and the final one. -/
def atomEach (op w : Nat) : Nat → List (Nat × Nat × Nat) → List (Nat × Nat) × Nat
  | old, [] => ([], old)
  | old, (l, c, c2) :: r =>
    let q := atomEach op w (atomNew op w old c c2) r
    ((l, old) :: q.1, q.2)

/-- The partial sums S[i] of a combined fadd (R194). -/
def faddSums : Nat → List Nat → List Nat
  | _, [] => []
  | acc, c :: r => let s := (fAdd fp32 .rne acc c).1; s :: faddSums s r

/-- A request: old values by lane, and the value the word gets (R194). A group of one fadd lane is Table 6.8's. -/
def atomGroup (op w old : Nat) (lanes : List (Nat × Nat × Nat)) : List (Nat × Nat) × Nat :=
  if op != 11 then atomEach op w old lanes
  else
    match lanes with
    | [] => ([], old)
    | (l, c, _) :: r =>
      let sums := c :: faddSums c (r.map (fun e => e.2.1))
      let add (s : Nat) : Nat := (fAdd fp32 .rne old s).1
      ((l, old) :: (r.zip sums).map (fun e => (e.1.1, add e.2)), add (sums.getLast?.getD c))

/-- Write the old values to the destination in their lanes. -/
def Warp.atomInto (W : Warp) (fr id : Nat) (d : Option Nat) (n : Nat) (olds : List (Nat × Nat)) : Warp :=
  olds.foldl (fun W e => W.loadInto fr id d e.1 0 n e.2) W

/-- An ATOM request at its home slice: one RMW, with its order (R316, R317). -/
def State.performAtom (s : State) (B : Block) (W : Warp) (o : Op) (op ord : Nat) (w64 : Bool) (d : Option Nat) (i : Nat)
    (r : AtomReq) : State :=
  let n := if w64 then 8 else 4
  let s1 := s.fill r.pa n
  let m := s1.mem
  if m.poisoned r.pa n then s1.poisonOp B W o
  else
    let q := atomGroup op (8 * n) (m.readN r.pa n) r.lanes
    let g := m.attached (lineOf r.pa)
    let s2 := s1.setWarp B.uid ((W.atomInto s.fresh o.id d n q.1).modOp o.id (fun o => o.didReq i))
    let s3 := s2.warpWrite B.uid W.idx r.pa (leBytes n q.2) (decide (2 ≤ ord))
    if ord % 2 = 1 then s3.acquire B.uid W.idx g else s3

/-- One lane of an ATOMS in scratch. -/
def State.atomsLane (s : State) (B : Block) (W : Warp) (o : Op) (op : Nat) (w64 : Bool) (d : Option Nat) (i : Nat)
    (r : AtomReq) : State :=
  let n := if w64 then 8 else 4
  if s.scrBad B.uid W.idx r.pa n then s.poisonScr B W o r.pa n
  else
    let q := atomEach op (8 * n) (ofLeBytes (s.scrRead B.uid W.idx r.pa n)) r.lanes
    ((s.scrHeal B.uid W.idx W.core r.pa n).setWarp B.uid ((W.atomInto s.fresh o.id d n q.1).modOp o.id (fun o => o.didReq i))).scrWrite B.uid W.idx r.pa
      (leBytes n q.2)

/-- ATOMS in scratch: lane by lane in ascending order in one step, each acting on what the one before left; a lane that meets an
error ends it (R160, R196). -/
def State.performAtoms (s : State) (B : Block) (o : Op) (op : Nat) (w64 : Bool) (d : Option Nat) (w : Nat) : State :=
  o.reqs.zipIdx.foldl (fun s r => match s.warp? B.uid w with
    | some W => if ((W.op? o.id).map (·.done)).getD true then s else s.atomsLane B W o op w64 d r.2 r.1
    | none => s) s

/-! ## Monitor (R212, R213) -/

/-- Lines a home slice watches now. -/
def State.watchedAt (s : State) (slice : Nat) : List Nat :=
  (((s.blocks.filter (fun B => !B.restoring)).flatMap (fun B => B.warps.filterMap (fun W => W.mon.watch))).filter
    (fun line => homeSlice (line * 128) == slice)).eraseDups

/-- The watch is registered at the home slice, or TRIG := 1 when the slice has no free watch. A MONITOR that a later one
of the warp has replaced registers nothing. -/
def State.performMonitor (s : State) (B : Block) (W : Warp) (o : Op) (i : Nat) (p : Part) : State :=
  let W1 := (W.touch p.pa 1).modOp o.id (fun o => o.didPart i [])
  let line := lineOf p.pa
  let later := (W.ops.dropWhile (fun y => y.id != o.id)).drop 1
  if later.any (fun y => match y.kind with
      | .monitor _ => !y.parts.isEmpty
      | _ => false) then s.setWarp B.uid W1
  else
    let ls := s.watchedAt (homeSlice p.pa)
    let s0 := s.fill p.pa 1
    let s1 : State := { s0 with mem := s0.mem.refresh W.core p.pa 1 }
    if ls.contains line || decide (ls.length < 64) then
      s1.setWarp B.uid { W1 with mon := { W1.mon with watch := some line } }
    else (s1.setWarp B.uid W1).trigger B.uid W.idx line

end Sys2Proof.Machine
end

