-- ==== Sys2Proof/Machine/Copy.lean ====
section
/-!
DEFINITION. The copy engine (R197 to R211, R458): the queue words at issue, their completion, and a request from its start
to its end.
-/
namespace Sys2Proof.Machine

/-! ## The words at issue (R203, R205, R208) -/

/-- A scratch address checked before any effect: MISALIGN, then SCRATCH_BOUNDS by the lowest byte beyond (R203, R468). -/
def State.checkObject (s : State) (c : Iss) (addr n : Nat) : Option Res :=
  if addr % n != 0 then some (.trap causeMisalign addr c.run)
  else (firstBeyond (s.scratchSize c.b c.w) ((List.range n).map (addr + ·))).map (fun a => .trap causeScratch a c.run)

/-- The scratch bytes an operation of the engine's interface touches, for the order of R179. -/
def scrPart (addr n : Nat) : List Part := [⟨0, 0, addr, addr, n, [], false⟩]

def uniDst (x : BitVec 8) : Option Nat := if x.toNat < 64 then some x.toNat else none

def execCkick (f : FmtS) (s : State) : Host.Outcome State Fault Refusal :=
  issue (.ckick f) (fun c s =>
    let addr := (c.uni f.b.toNat).toNat
    match s.checkObject c addr 64 with
    | some r => r
    | none =>
      let d := uniDst f.a
      .ok (s.enter c (.ckick d addr (s.holdsToken c.B c.w)) f.setf (scrPart addr 64) [] ((d.toList).map Loc.uni))) s

def execCbset (f : FmtS) (s : State) : Host.Outcome State Fault Refusal :=
  issue (.cbset f) (fun c s =>
    let addr := (c.uni f.b.toNat).toNat
    match s.checkObject c addr 8 with
    | some r => r
    | none => .ok (s.enter c (.cbset addr (c.uni f.c.toNat).toNat) f.setf (scrPart addr 8) [] [])) s

def execCbwait (f : FmtS) (s : State) : Host.Outcome State Fault Refusal :=
  issue (.cbwait f) (fun c s =>
    let addr := (c.uni f.b.toNat).toNat
    match s.checkObject c addr 8 with
    | some r => r
    | none =>
      let d := uniDst f.a
      .ok ((s.enter c (.cbwait d addr none) f.setf (scrPart addr 8) []
        (d.toList.flatMap (fun n => [Loc.uni n, Loc.uni (n + 1)]))).noticeWaits c.b)) s

def execCqfence (f : FmtS) (s : State) : Host.Outcome State Fault Refusal :=
  issue (.cqfence f) (fun c s => .ok (s.enter c (.cqfence f.sub.toNat false) f.setf [] [] [])) s

/-! ## Barrier objects (R206, R207, Table 6.12) -/

def objCount (x : Nat) : Int := sextN 32 x

/-- The object with COUNT, ARMED and the rest as they were. -/
def objWith (x : Nat) (count : Int) (armed : Bool) : Nat :=
  x / 2 ^ 56 * 2 ^ 56 + b2n armed * 2 ^ 55 + bitsN x 54 32 * 2 ^ 32 + modN 32 count

/-- ERR := 1; CODE := e if CODE = 0; ARMED := 0. -/
def objFail (e x : Nat) : Nat :=
  2 ^ 63 + (if bitsN x 62 56 = 0 then e else bitsN x 62 56) * 2 ^ 56 + x % 2 ^ 55

def codeXlate : Nat := 1
def codeProt : Nat := 2
def codeBaddesc : Nat := 3
def codeOverrun : Nat := 5
def codePoison : Nat := 6

/-- COUNT takes an exact value in 32 bits; the armed object is released at 0 and overrun below it. -/
def objSettle (x : Nat) (count : Int) (armed : Bool) : Nat :=
  let y := objWith x count armed
  if !armed then y
  else if objCount y = 0 then objWith y count false
  else if objCount y < 0 then objFail codeOverrun y else y

/-- CBSET with count n. -/
def objSet (n x : Nat) : Nat := objSettle x (objCount x + (n : Int)) true

/-- k tile bytes counted in one step. -/
def objCountDown (k x : Nat) : Nat := objSettle x (objCount x - (k : Int)) (objArmed x)

/-- T tile bytes are counted in steps whose sizes are not architectural: an armed count that lies below T may or may not
meet 0 on its way, which is free. -/
def countSteps (fr t x : Nat) : List Nat :=
  let n := (objCount x).toNat
  if t = 0 then []
  else if objArmed x && decide (0 < n) && decide (n < t) && Config.freeBit 207 fr 0 then [n, t - n] else [t]

/-- One step of a core's scratch unit on an object: a single-bit error of it is corrected; one with a double-bit error keeps it, for
the warp that reads it (R160, log 68). A CBWAIT of the block may find the object it waits for (R208). -/
def State.objStep (s : State) (core alloc addr : Nat) (f : Nat → Nat) : State :=
  match s.allocs.find? (fun a => a.id == alloc) with
  | none => s
  | some a =>
    ((((s.allocFill a addr 8).allocHeal alloc core addr 8).allocWrite alloc addr (leBytes 8 (f (a.obj addr)))).modAlloc alloc
      (fun b => { b with bad := a.bad })).noticeWaits a.owner

/-- T tile bytes counted on an object. -/
def State.objCountAll (s : State) (core alloc addr t : Nat) : State :=
  match s.allocs.find? (fun a => a.id == alloc) with
  | none => s
  | some a => (countSteps s.fresh t (a.obj addr)).foldl (fun s k => s.objStep core alloc addr (objCountDown k)) s

/-! ## Records and descriptors (R198 to R202, Tables 6.9 and 6.10) -/

/-- Dword i of a record. -/
def dwordAt (bs : List Byte) (i : Nat) : Nat := ofLeBytes ((bs.drop (8 * i)).take 8)

/-- A request record's fields. -/
structure CopyRec where
  scale : Nat
  dfmt : Nat
  conv : Nat
  trans : Bool
  rot : Nat
  pitch : Nat
  saddr : Nat
  queue : Nat
  dir : Nat
  tdesc : Nat
  org : List Int
  box : List Nat
  bar : Nat
  scl : Nat
  reserved : Bool
  deriving DecidableEq, Repr

def CopyRec.of (bs : List Byte) : CopyRec :=
  let d := dwordAt bs
  { scale := bitsN (d 0) 63 56, dfmt := bitsN (d 0) 55 52, conv := bitsN (d 0) 51 50, trans := bitN (d 0) 49
    rot := bitsN (d 0) 47 44, pitch := bitsN (d 0) 43 32, saddr := bitsN (d 0) 31 12, queue := bitsN (d 0) 11 10
    dir := bitsN (d 0) 9 8, tdesc := bitsN (d 1) 51 0
    org := [sextN 32 (d 2), sextN 32 (d 2 / 2 ^ 32), sextN 32 (d 3), sextN 32 (d 3 / 2 ^ 32), sextN 32 (d 4)]
    box := [bitsN (d 5) 15 0, bitsN (d 5) 31 16, bitsN (d 5) 47 32, bitsN (d 5) 63 48, bitsN (d 6) 15 0]
    bar := bitsN (d 6) 35 16, scl := bitsN (d 7) 19 0
    reserved := bitN (d 0) 48 || bitsN (d 0) 7 0 != 0 || bitsN (d 1) 63 52 != 0 || bitsN (d 4) 63 32 != 0 ||
      bitsN (d 6) 63 36 != 0 || bitsN (d 7) 63 20 != 0 }

def CopyRec.boxN (r : CopyRec) (n : Nat) : Nat := nth 1 r.box n

/-- The bits of a scratch element (R200). -/
def tileBits (dfmt : Nat) : Nat :=
  if dfmt < 2 then 16 else if dfmt = 4 || dfmt = 5 then 6 else if dfmt = 6 then 4 else 8

def CopyRec.width (r : CopyRec) : Nat := if r.trans then r.boxN 1 else r.boxN 0
def CopyRec.rowBytes (r : CopyRec) : Nat := ceilDiv (r.width * tileBits r.dfmt) 8
def CopyRec.rows (r : CopyRec) : Nat :=
  (if r.trans then r.boxN 0 else r.boxN 1) * (r.boxN 2 * (r.boxN 3 * r.boxN 4))
def CopyRec.tileBytes (r : CopyRec) : Nat := r.rowBytes * r.rows

/-- The scratch address of byte x of a row (R159, R200). -/
def CopyRec.byteAt (r : CopyRec) (row x : Nat) : Nat := r.saddr + row * r.pitch + rotate r.rot row x

/-- Some tile byte lies beyond the allocation. -/
def CopyRec.beyond (r : CopyRec) (size : Nat) : Bool :=
  decide (size ≤ r.saddr + (r.rows - 1) * r.pitch) ||
  (List.range r.rows).any (fun row => (List.range r.rowBytes).any (fun x => decide (size ≤ r.byteAt row x)))

/-- CKICK's status (Table 6.11). -/
def CopyRec.check (r : CopyRec) (size : Nat) : Nat :=
  if r.reserved || decide (2 ≤ r.dir) || (r.conv != 0 && r.dir == 1) || (r.scale == 0xFF && r.conv == 1) ||
      decide (8 ≤ r.dfmt) || r.tdesc % 64 != 0 || r.pitch % 16 != 0 || r.pitch == 0 || r.saddr % 16 != 0 ||
      r.box.contains 0 || decide (r.pitch < r.rowBytes) || r.beyond size then 1
  else if r.bar % 8 != 0 || decide (size < r.bar + 8) || (decide (2 ≤ r.conv) && decide (size ≤ r.scl)) then 2
  else 0

/-- A tensor descriptor's fields; extents and strides at or beyond RANK stand as 1 and 0. -/
structure TDesc where
  rank : Nat
  fmt : Nat
  addr : Nat
  ext : List Nat
  strd : List Nat
  deriving DecidableEq, Repr

def TDesc.of (bs : List Byte) : TDesc :=
  let d := dwordAt bs
  let rank := bitsN (d 0) 58 56
  let lim (n v w : Nat) : Nat := if n < rank then v else w
  { rank := rank, fmt := bitsN (d 0) 55 52, addr := bitsN (d 0) 51 0
    ext := [lim 0 (bitsN (d 1) 31 0) 1, lim 1 (bitsN (d 1) 63 32) 1, lim 2 (bitsN (d 2) 31 0) 1,
      lim 3 (bitsN (d 2) 63 32) 1, lim 4 (bitsN (d 3) 31 0) 1]
    strd := [0, lim 1 (bitsN (d 4) 47 0) 0, lim 2 (bitsN (d 5) 47 0) 0, lim 3 (bitsN (d 6) 47 0) 0,
      lim 4 (bitsN (d 7) 47 0) 0] }

/-- Bytes of a tensor element. -/
def TDesc.size (t : TDesc) : Nat := if t.fmt < 2 then 2 else 1

/-- The request can use the descriptor (R198, R201, R202). -/
def TDesc.ok (t : TDesc) (r : CopyRec) : Bool :=
  decide (1 ≤ t.rank) && decide (t.rank ≤ 5) && (decide (t.fmt < 4) || t.fmt == 7) && t.addr % 16 == 0 &&
  t.strd.all (fun x => x % 16 == 0) &&
  (if r.conv = 0 then r.dfmt == t.fmt else decide (t.fmt < 2) && decide (2 ≤ r.dfmt) && decide (r.dfmt ≤ 6))

/-! ## Box elements (R200) -/

/-- One element of the box: where it stands in scratch, and its tensor element's address if it is inside. -/
structure BoxElem where
  row : Nat
  col : Nat
  va : Option Nat
  deriving DecidableEq, Repr

def boxElem (r : CopyRec) (t : TDesc) (i : List Nat) : BoxElem :=
  let n (k : Nat) : Nat := nth 0 i k
  let c (k : Nat) : Int := nth 0 r.org k + (n k : Int)
  let hi := n 2 + r.boxN 2 * (n 3 + r.boxN 3 * n 4)
  let inside := (List.range 5).all (fun k => decide (0 ≤ c k) && decide (c k < ((nth 1 t.ext k : Nat) : Int)))
  let off (k : Nat) : Nat := (c k).toNat * (if k = 0 then t.size else nth 0 t.strd k)
  { row := if r.trans then n 0 + r.boxN 0 * hi else n 1 + r.boxN 1 * hi
    col := if r.trans then n 1 else n 0
    va := if inside then some ((t.addr + off 0 + off 1 + off 2 + off 3 + off 4) % 2 ^ 64) else none }

/-- The elements of the box. -/
def boxElems (r : CopyRec) (t : TDesc) : List BoxElem :=
  (List.range (r.boxN 4)).flatMap (fun i4 => (List.range (r.boxN 3)).flatMap (fun i3 =>
    (List.range (r.boxN 2)).flatMap (fun i2 => (List.range (r.boxN 1)).flatMap (fun i1 =>
      (List.range (r.boxN 0)).map (fun i0 => boxElem r t [i0, i1, i2, i3, i4])))))

/-- Some byte of the tensor, from dimension n down, lies in [lo, hi); `base` is the offset of the dimensions above. -/
def tensorMeets (t : TDesc) (lo hi : Nat) : Nat → Nat → Bool
  | 0, base => decide (0 < nth 1 t.ext 0) && decide (base < hi) && decide (lo < base + nth 1 t.ext 0 * t.size)
  | n + 1, base =>
    let st := nth 0 t.strd (n + 1)
    let ex := nth 1 t.ext (n + 1)
    let span := nth 1 t.ext 0 * t.size +
      ((List.range n).map (fun k => (nth 1 t.ext (k + 1) - 1) * nth 0 t.strd (k + 1))).foldl (· + ·) 0
    if ex = 0 then false
    else if st = 0 then tensorMeets t lo hi n base
    else
      let first := (lo + st - (base + span)) / st
      let last := min (ex - 1) ((hi - 1 - base) / st)
      decide (base < hi) && (List.range (last + 1 - first)).any (fun k => tensorMeets t lo hi n (base + (first + k) * st))

/-- The tensor overlaps a shared window of the launch (R211). -/
def State.tensorInWindow (s : State) (launch : Nat) (t : TDesc) : Bool :=
  ((s.launch? launch).map (fun L => L.windows.any (fun w => decide (0 < w.2) &&
    tensorMeets t w.1 (w.1 + w.2) 4 t.addr))).getD false

/-! ## Moving a box -/

/-- The error an engine's access meets, and the address it meets it at. -/
abbrev CopyErr := Nat × Nat

/-- Read n bytes of a context's memory as the engine does. -/
def State.copyRead (s : State) (cl : Option Nat) (ctx va n : Nat) : Except CopyErr Nat :=
  match s.readVa cl ctx va n with
  | .error e => .error (if e.1 then codeXlate else codeProt, e.2)
  | .ok bs => if s.vaPoisoned cl ctx va n then .error (codePoison, va) else .ok (ofLeBytes bs)

/-- The error one fault among several is reported as: the first met, which the order of the bytes decides (free). -/
def pickErr (fr : Nat) (es : List CopyErr) : Option CopyErr :=
  match es with
  | [] => none
  | e :: r => some (nth e (e :: r) (Config.freeNat 209 fr 0 % (r.length + 1)))

/-- The scratch codes of a DIR = 0 request's elements, with the computed scale (R201, R202). -/
def copyCodes (r : CopyRec) (t : TDesc) (vals : List (Option Nat)) : Nat × List Nat :=
  let x (v : Option Nat) : FVal := (v.map (fmtOf t.fmt).value).getD (.fin false 0 0)
  match r.conv with
  | 0 => (0, vals.map (·.getD 0))
  | 1 => (0, vals.map (fun v => (valTo (fmtOf t.fmt) (fmtOf r.dfmt) .rne true
      (match x v with
        | .fin sg n e => .fin sg n (e - ((r.scale : Int) - 127))
        | y => y)).1))
  | k => qblock r.dfmt (k == 3) (vals.map x)

/-- Byte x of a row, from the codes of its elements. -/
def rowByte (d : Nat) (code : Nat → Nat) (width x : Nat) : Byte :=
  let first := 8 * x / d
  let last := (8 * x + 7) / d
  let bits := ((List.range (last + 1 - first)).map (fun k =>
    if first + k < width then code (first + k) % 2 ^ d * 2 ^ (k * d) else 0)).foldl (· + ·) 0
  BitVec.ofNat 8 (bits / 2 ^ (8 * x - first * d))

/-- A 4-byte word of the destination has been written before the error stops the request (free, R209). -/
def wroteBefore (fr addr : Nat) : Bool := Config.freeBit 209 fr (1 + addr / 4)

/-- The lines of the bytes at some addresses, as far as they translate. -/
def State.linesOfVas (s : State) (cl : Option Nat) (ctx : Nat) (vas : List Nat) : List Nat :=
  ((vas.map (· / 128)).eraseDups).filterMap (fun l => match s.access cl ctx (128 * l) .read with
    | .mem loc => some (lineOf loc)
    | _ => none)

/-- The 16-byte units that some bytes cover whole. -/
def wholeUnits (outs : List (Nat × List Byte)) : List Nat :=
  (joinPieces outs).flatMap (fun w => (List.range ((w.1 + w.2.length) / 16 - (w.1 + 15) / 16)).map ((w.1 + 15) / 16 + ·))

/-- DIR = 0: global to scratch. The codes, and for a computed scale its byte, from what the elements read; the row bytes that an
element which could not be read is part of are not written. -/
def copyIn (r : CopyRec) (t : TDesc) (cl : Option Nat) (ctx : Nat) (s : State) : CopyRun × Option Byte :=
  let els := boxElems r t
  let vals := els.map (fun e => e.va.map (fun va => s.copyRead cl ctx va t.size))
  let errs := vals.filterMap (fun v => match v with
    | some (.error e) => some e
    | _ => none)
  let good := vals.map (fun v => match v with
    | some (.ok x) => some x
    | _ => none)
  let q := copyCodes r t good
  let d := tileBits r.dfmt
  let table : Tab Nat := (els.zip q.2).foldl (fun m e => tset 0 m (e.1.row * r.width + e.1.col) e.2) []
  let failed := (els.zip vals).filterMap (fun e => match e.2 with
    | some (.error _) => some (e.1.row, e.1.col)
    | _ => none)
  let byte (row x : Nat) : Nat × Byte :=
    (r.byteAt row x, rowByte d (fun col => tget 0 table (row * r.width + col)) r.width x)
  let all := (List.range r.rows).flatMap (fun row => (List.range r.rowBytes).map (fun x => (row, x)))
  let ready (rx : Nat × Nat) : Bool := failed.all (fun f =>
    f.1 != rx.1 || decide (f.2 * d + d ≤ 8 * rx.2) || decide (8 * rx.2 + 8 ≤ f.2 * d))
  let put := match errs with
    | [] => all
    | _ => if 2 ≤ r.conv then [] else all.filter (fun rx => ready rx && wroteBefore s.fresh (r.byteAt rx.1 rx.2))
  let outs := (runsOf (put.map (fun rx => byte rx.1 rx.2))).flatMap (fun w => piecesOf w.1 w.2)
  (⟨outs, 0, pickErr s.fresh errs, s.linesOfVas cl ctx (els.filterMap (·.va)), wholeUnits outs⟩,
    if 2 ≤ r.conv && errs.isEmpty then some (BitVec.ofNat 8 q.1) else none)

/-- The first byte of a tile element in its row. -/
def CopyRec.elemByte (r : CopyRec) (e : BoxElem) : Nat := e.col * tileBits r.dfmt / 8

/-- The scratch addresses of a tile element's bytes. -/
def CopyRec.elemAt (r : CopyRec) (e : BoxElem) : List Nat :=
  (List.range ((e.col * tileBits r.dfmt + tileBits r.dfmt - 1) / 8 + 1 - r.elemByte e)).map (fun k =>
    r.byteAt e.row (r.elemByte e + k))

/-- The bits of a tile element in scratch, or the error of reading it. -/
def State.copyElem (s : State) (r : CopyRec) (a : Alloc) (e : BoxElem) : Except CopyErr Nat :=
  if (r.elemAt e).any (fun x => a.isBad x 1 || s.allocPoison a x 1) then .error (codePoison, e.va.getD 0)
  else .ok (ofLeBytes ((r.elemAt e).map a.byte) / 2 ^ (e.col * tileBits r.dfmt - 8 * r.elemByte e) % 2 ^ tileBits r.dfmt)

/-- DIR = 1: scratch to global. Of a request that an error stops, the elements outside the tensor are not counted (log 38). -/
def copyOut (r : CopyRec) (t : TDesc) (cl : Option Nat) (ctx launch alloc : Nat) (token : Bool) (s : State) : CopyRun :=
  match s.allocs.find? (fun a => a.id == alloc) with
  | none => ⟨[], 0, none, [], []⟩
  | some a =>
    let barred := !token && ((s.launch? launch).map Launch.det).getD false && s.tensorInWindow launch t
    let inWin (va : Nat) : Bool := ((s.launch? launch).map (fun L => L.inWindow va t.size)).getD false
    let els := (boxElems r t).filterMap (fun e => e.va.map (fun va => (va, s.copyElem r a e)))
    let go (va : Nat) (x : Except CopyErr Nat) : Except CopyErr (List (Nat × Byte)) :=
      match x with
      | .error e => .error e
      | .ok v =>
        match s.locsOf cl ctx va .write t.size with
        | .error e => .error (if e.1 then codeXlate else codeProt, e.2)
        | .ok ls => .ok (ls.zip (leBytes t.size v))
    let rs := els.map (fun e => (e.1, go e.1 e.2))
    let errs := (if barred then [(codeProt, t.addr)] else []) ++ rs.filterMap (fun x => match x.2 with
      | .error e => some e
      | .ok _ => none)
    let put := rs.filterMap (fun x => match x.2 with
      | .error _ => none
      | .ok w =>
        if errs.isEmpty || (wroteBefore s.fresh ((w.head?.map (·.1)).getD 0) && !(barred && inWin x.1)) then some w else none)
    let outs := (runsOf put.flatten).flatMap (fun w => piecesOf w.1 w.2)
    ⟨outs, if errs.isEmpty then r.tileBytes - sumNat (outs.map (·.2.length)) else 0, pickErr s.fresh errs,
      (outs.map (fun w => lineOf w.1)).eraseDups, wholeUnits outs⟩

/-- The machine as the request's reads found it, each word at some moment since it could start (R204, R305). -/
def State.copyView (s : State) (q : CopyReq) : State :=
  (s.asOf q.since.1).modAlloc q.alloc (fun a => a.asOf s.fresh q.since.2)

/-- What reading some bytes of an allocation does besides: lines of spill pages are filled, single-bit errors corrected, and
double-bit errors counted on the core's die (R160, R300, R454). -/
def State.allocReads (s : State) (core : Nat) (a : Alloc) (xs : List Nat) : State :=
  let ws := (xs.map (· / 4)).eraseDups
  let s1 := ws.foldl (fun s w => (s.allocFill a (4 * w) 4).allocHeal a.id core (4 * w) 4) s
  (a.bad.filter ws.contains).foldl (fun s _ => s.count 2 (coreDie core)) s1

/-- The inside elements of a request's box, once its descriptor can be read and used. -/
def State.copyElems (s : State) (cl : Option Nat) (q : CopyReq) : List BoxElem :=
  let r := CopyRec.of q.record
  match s.readVa cl q.ctx r.tdesc 64 with
  | .error _ => []
  | .ok bs => if (TDesc.of bs).ok r then (boxElems r (TDesc.of bs)).filter (·.va.isSome) else []

/-- The slices fill the lines a request reads, and a core's scratch corrects and counts (R300, R160). -/
def State.copyFill (s : State) (core : Nat) (q : CopyReq) : State :=
  let r := CopyRec.of q.record
  let cl := some (coreCluster core)
  let s1 := s.fillVa cl q.ctx r.tdesc 64
  let els := s1.copyElems cl q
  if r.dir = 0 then (s1.linesOfVas cl q.ctx (els.filterMap (·.va))).foldl (fun s l => s.fill (128 * l) 1) s1
  else match s.allocs.find? (fun a => a.id == q.alloc) with
    | none => s1
    | some a => s1.allocReads core a (els.flatMap r.elemAt)

/-- A request's reads are over (R209): the descriptor has been read once, and what is to be written is known, with the byte of a
computed scale. -/
def State.copyPlan (s : State) (core : Nat) (q : CopyReq) : CopyRun × Option Byte :=
  let r := CopyRec.of q.record
  let cl := some (coreCluster core)
  let fail (e : CopyErr) : CopyRun × Option Byte := (⟨[], 0, some e, [], []⟩, none)
  let with' (x : CopyRun × Option Byte) : CopyRun × Option Byte :=
    ({ x.1 with lines := s.linesOfVas cl q.ctx [r.tdesc] ++ x.1.lines }, x.2)
  let v := s.copyView q
  match v.readVa cl q.ctx r.tdesc 64 with
  | .error e => fail (if e.1 then codeXlate else codeProt, e.2)
  | .ok bs =>
    let t := TDesc.of bs
    if s.vaPoisoned cl q.ctx r.tdesc 64 then fail (codePoison, r.tdesc)
    else if !t.ok r then with' (fail (codeBaddesc, r.tdesc))
    else if r.dir = 0 then with' (copyIn r t cl q.ctx v) else with' (copyOut r t cl q.ctx q.launch q.alloc q.token v, none)

/-- Write one run of destination bytes: in scratch, or performed at the slices. -/
def State.copyPut (s : State) (q : CopyReq) (w : Nat × List Byte) : State :=
  if (CopyRec.of q.record).dir = 0 then
    match s.allocs.find? (fun a => a.id == q.alloc) with
    | none => s
    | some a => ((s.allocFill a w.1 w.2.length).allocWrite q.alloc w.1 w.2).noticeWaits a.owner
  else (s.fill w.1 w.2.length).writeLoc w.1 w.2

/-- A 16-byte unit of the destination has been written whole: its poison goes (R300). -/
def State.copyClear (s : State) (q : CopyReq) (u : Nat) : State :=
  if (CopyRec.of q.record).dir = 0 then
    match s.allocs.find? (fun a => a.id == q.alloc) with
    | none => s
    | some a => s.allocUnpoison a (16 * u) 16
  else { s with mem := s.mem.unpoison (16 * u) 16 }

/-- The units that the request has written whole once some words are written and others left. -/
def CopyRun.cleared (run : CopyRun) (now left : List (Nat × List Byte)) : List Nat :=
  run.units.filter (fun u => now.any (fun w => w.1 / 16 == u) && !left.any (fun w => w.1 / 16 == u))

/-- k tile bytes of the request have been written or performed: the object counts them, and its waiter will acquire what the request
has read and written so far with what its acceptance carried (R207, R210, R308). -/
def State.copyCount (s : State) (core : Nat) (q : CopyReq) (run : CopyRun) (k : Nat) : State :=
  let bar := (CopyRec.of q.record).bar
  (s.objCountAll core q.alloc bar k).modAlloc q.alloc (fun a => { a with
    objSig := tset Sig.empty a.objSig bar (run.lines.foldl Sig.add ((tget Sig.empty a.objSig bar).or q.sig)) })

/-- The reads are over, and a computed scale is written before any tile byte (R202). -/
def State.copyBegin (s : State) (core : Nat) (q : CopyReq) : State × CopyRun :=
  let s1 := s.copyFill core q
  let p := s1.copyPlan core q
  (match p.2 with
    | some b => s1.allocWrite q.alloc (CopyRec.of q.record).scl [b]
    | none => s1, p.1)

/-- A request goes on to its completion (R204, R207, R209): what is left is written and counted, or the object takes the error. -/
def State.copyEnd (s : State) (core : Nat) (q : CopyReq) (run : CopyRun) : State :=
  let s1 := (run.cleared run.outs []).foldl (fun s u => s.copyClear q u)
    ((joinPieces run.outs).foldl (fun s w => s.copyPut q w) s)
  let s2 := s1.copyCount core q run (sumNat (run.outs.map (·.2.length)) + run.outside)
  match run.err with
  | none => s2
  | some e =>
    (s2.objStep core q.alloc (CopyRec.of q.record).bar (objFail e.1)).modCore core (fun c =>
      { c with copyLog := c.copyLog ++ [(e.2, q.addr)] })

/-- A request from its start to its completion. -/
def State.runCopy (s : State) (core : Nat) (q : CopyReq) : State :=
  match q.run with
  | some run => s.copyEnd core q run
  | none => (s.copyBegin core q).1.copyEnd core q (s.copyBegin core q).2

/-! ## Queues (R197, R204, R205) -/

def copyQueueRoom (q : List CopyEntry) : Bool := decide (q.length < 16)

/-- The numbers of the fences in a queue. -/
def fencesOf (q : List CopyEntry) : List Nat := q.filterMap (fun e => match e with
  | .fence o _ => some o
  | _ => none)

/-- A queue holds a request before the entry of fence `op`. -/
def waitsBehind (op : Nat) : List CopyEntry → Bool
  | [] => false
  | .fence o _ :: r => o != op && waitsBehind op r
  | .request _ :: r => (fencesOf r).contains op

/-- Fences before which no request of their queues is left go. -/
def clearFences (qs : List (List CopyEntry)) : List (List CopyEntry) :=
  let done := (qs.flatMap fencesOf).filter (fun o => qs.all (fun q => !waitsBehind o q))
  qs.map (fun q => q.filter (fun e => match e with
    | .fence o _ => !done.contains o
    | _ => true))

/-- The requests that no fence bars can start: those that one barred until now start from here on (R204, R205). -/
def State.openQueue (s : State) (old new : List CopyEntry) : List CopyEntry :=
  let free := (old.takeWhile (fun e => match e with
    | .fence _ _ => false
    | _ => true)).length
  new.mapIdx (fun i e => match e with
    | .request q => if free ≤ i then
        .request { q with since := (s.mem.past.length,
          ((s.allocs.find? (fun a => a.id == q.alloc)).map (fun a => a.past.length)).getD 0) } else e
    | .fence _ _ => e)

/-- The queues of a core after a change, fences that are over gone. -/
def State.setQueues (s : State) (core : Nat) (qs : List (List CopyEntry)) : State :=
  let new := clearFences qs
  s.modCore core (fun c => { c with copyQ := (qs.zip new).map (fun x => s.openQueue x.1 x.2) })

/-- A word of the destination, or the object, waits in a die's HBM4E (R296). -/
def State.copyPutHeld (s : State) (q : CopyReq) (w : Nat × List Byte) : Bool :=
  !s.hbmReady && (((s.allocs.find? (fun a => a.id == q.alloc)).map (fun a =>
    (decide ((CopyRec.of q.record).dir = 0) && s.allocHeld a w.1 w.2.length) || s.allocHeld a (CopyRec.of q.record).bar 8)).getD false ||
    ((CopyRec.of q.record).dir != 0 && !w.2.isEmpty && s.heldLoc w.1))

/-- What a request reads waits so: its descriptor, an element in memory or the walk of one, or its tile's spill pages. -/
def State.copyReadHeld (s : State) (core : Nat) (q : CopyReq) : Bool :=
  let r := CopyRec.of q.record
  !s.hbmReady && (s.vaHeld q.ctx r.tdesc 64 ||
    (s.copyElems (some (coreCluster core)) q).any (fun e =>
      if r.dir = 0 then s.vaHeld q.ctx (e.va.getD 0) 2 else s.walkHeld q.ctx (e.va.getD 0)) ||
    ((s.allocs.find? (fun a => a.id == q.alloc)).map (fun a =>
      s.allocHeld a r.saddr (r.rows * r.pitch) || (decide (2 ≤ r.conv) && s.allocHeld a r.scl 1))).getD false)

/-- The rest of a request waits so. -/
def State.copyHeld (s : State) (core : Nat) (q : CopyReq) : Bool :=
  !s.hbmReady && (match q.run with
  | some run => run.outs.any (s.copyPutHeld q) || s.copyPutHeld q (0, [])
  | none => s.copyReadHeld core q || (let run := (s.copyBegin core q).2; run.outs.any (s.copyPutHeld q) || s.copyPutHeld q (0, [])))

/-- COPY_REQUEST: the request at the head of a queue, if no fence bars it: to its completion, or only to the end of its reads or
one 4-byte word of its destination (R204, R305). -/
def execCopyRequest (core : Nat) (turn : CopyTurn) (s : State) : Host.Outcome State Fault Refusal :=
  let queue := turn.queue
  match nth [] (s.core core).copyQ queue with
  | .request q :: rest =>
    let own (s : State) : State := ((s.allocs.find? (fun a => a.id == q.alloc)).map (fun a => s.noticeWaits a.owner)).getD s
    let keep (s : State) (run : CopyRun) : State := own (s.modCore core (fun c =>
      { c with copyQ := setNth c.copyQ queue (.request { q with run := some run } :: rest) }))
    if s.tripped then .next s
    else match turn.only, q.run with
    | none, _ =>
      if s.copyHeld core q then .next s
      else
        let s1 := s.runCopy core q
        .next (own (s1.setQueues core (setNth (s1.core core).copyQ queue rest)))
    | some 0, none =>
      if s.copyReadHeld core q then .next s else .next (keep (s.copyBegin core q).1 (s.copyBegin core q).2)
    | some (i + 1), some run =>
      match run.outs[i]? with
      | none => .next s
      | some w =>
        if s.copyPutHeld q w then .next s
        else
          let run1 := { run with outs := run.outs.eraseIdx i }
          let s1 := (run.cleared [w] run1.outs).foldl (fun s u => s.copyClear q u) (s.copyPut q w)
          .next (keep (s1.copyCount core q run w.2.length) run1)
    | _, _ => .next s
  | _ => .next s

/-! ## Completion of the queue words -/

/-- CKICK's completion (R203, R316): when every earlier memory word of the warp but a CBWAIT, which only waits, has been performed and
the queue has an entry free, the record is read and checked; the acceptance carries the warp's signature. -/
def State.completeCkick (s : State) (B : Block) (W : Warp) (o : Op) (d : Option Nat) (addr : Nat) (token : Bool) :
    Option State :=
  match s.allocOf B.uid W.idx with
  | none => none
  | some a =>
    if (W.opsBefore o.id).any (fun y => match y.kind with
        | .cbwait _ _ _ => false
        | k => k.isMem && !y.performed) || !W.mayPerform o [0] addr 64 || s.scrHeld B.uid W.idx addr 64 then none
    else if s.scrBad B.uid W.idx addr 64 then some (s.poisonScr B W o addr 64)
    else
      let s := s.scrHeal B.uid W.idx W.core addr 64
      let bytes := a.read addr 64
      let r := CopyRec.of bytes
      if !copyQueueRoom (nth [] (s.core W.core).copyQ r.queue) then none
      else
        let st := r.check a.size
        let W1 := match d with
          | none => W
          | some n => W.flagWrite s.fresh o.id (.uni n) 0 (BitVec.ofNat 32 st)
        let s1 := s.setWarp B.uid W1
        some (if st != 0 then s1
          else s1.modCore W.core (fun c => { c with copyQ := c.copyQ.modify r.queue (fun q =>
            q ++ [.request ⟨B.ctx, B.launch, a.id, (B.uid, W.idx), bytes, addr, W.sig, token,
              (s.mem.past.length, a.past.length), none⟩]) }))

def State.completeCbset (s : State) (B : Block) (W : Warp) (o : Op) (addr n : Nat) : Option State :=
  match s.allocOf B.uid W.idx with
  | none => none
  | some a =>
    if !W.mayPerform o [0] addr 8 || s.scrHeld B.uid W.idx addr 8 then none
    else if s.scrBad B.uid W.idx addr 8 then some (s.poisonScr B W o addr 8)
    else some (s.objStep W.core a.id addr (objSet n))

/-- CBWAIT falls when ARMED = 0 or ERR = 1, and its register pair receives the object as it stood at the first such moment; with
ERR = 0 the warp acquires what the requests wrote (R208, R210). -/
def State.completeCbwait (s : State) (B : Block) (W : Warp) (o : Op) (d : Option Nat) (addr : Nat) (seen : Option Nat) :
    Option State :=
  match s.allocOf B.uid W.idx with
  | none => none
  | some a =>
    if !W.mayPerform o [0] addr 8 || (seen.isNone && s.scrHeld B.uid W.idx addr 8) then none
    else if seen.isNone && s.scrBad B.uid W.idx addr 8 then some (s.poisonScr B W o addr 8)
    else
      let x := seen.getD (a.obj addr)
      if objArmed x && !objErr x then none
      else
        let s := s.scrHeal B.uid W.idx W.core addr 8
        let W1 := match d with
          | none => W
          | some n => (W.flagWrite s.fresh o.id (.uni n) 0 (BitVec.ofNat 32 x)).flagWrite s.fresh o.id (.uni (n + 1)) 0
              (BitVec.ofNat 32 (x / 2 ^ 32))
        let s1 := s.setWarp B.uid W1
        some (if objErr x then s1 else s1.acquire B.uid W.idx (tget Sig.empty a.objSig addr))

/-- CQFENCE: first its entries, when every named queue has room; then, no request left before them, its end. -/
def State.completeCqfence (s : State) (B : Block) (W : Warp) (o : Op) (mask : Nat) (entered : Bool) :
    Option (State × Bool) :=
  let qs := (s.core W.core).copyQ
  let named := (List.range 4).filter (fun q => mask.testBit q)
  if !entered then
    if named.all (fun q => copyQueueRoom (nth [] qs q)) then
      let qs1 := qs.mapIdx (fun i q => if mask.testBit i then q ++ [.fence o.id mask] else q)
      some ((s.setQueues W.core qs1).setWarp B.uid
        (W.modOp o.id (fun o => { o with kind := .cqfence mask true })), false)
    else none
  else if qs.any (fun q => (fencesOf q).contains o.id) then none
  else some (s, true)

end Sys2Proof.Machine
end

