-- ==== Sys2Proof/Machine/Matrix.lean ====
section
/-!
DEFINITION. The matrix unit (R47 to R51, R219 to R239): MSHAPE, MMA, MRD, MWR and MZERO at issue and at completion.
-/
namespace Sys2Proof.Machine

/-! ## Accumulation in ACC56 (R47, R50, R51) -/

/-- A term added to a partial: a NaN as its ACC56 code with its origin key (0 for a generated NaN), or a value. -/
inductive Term where
  | nan (code key : Nat)
  | val (v : FVal)
  deriving DecidableEq, Repr

/-- RNE56(p + t), with the NaN of lower key kept (R51). A partial is its code and its key. -/
def accAdd (p : Nat × Nat) : Term → Nat × Nat
  | .nan code key =>
    if !acc56.isNan p.1 || (key != 0 && (p.2 == 0 || decide (key < p.2))) then (code, key) else p
  | .val v =>
    if acc56.isNan p.1 then p
    else match acc56.value p.1, v with
    | .inf s, .inf t => if s = t then (p.1, 0) else (acc56.nanMag, 0)
    | .inf _, _ => (p.1, 0)
    | _, .inf t => (acc56.signed t acc56.infMag, 0)
    | .fin s n e, .fin t k d =>
      let r := addExact .rne s n e t k d
      ((roundTo acc56 .rne false r.1 r.2.1 r.2.2 false).1, 0)
    | _, _ => p

/-- The product of two element values that are no NaNs, exact; ∞ × 0 is a generated NaN. -/
def prodTerm : FVal → FVal → Term
  | .inf s, .inf t => .val (.inf (s != t))
  | .inf s, .fin t k _ => if k = 0 then .nan acc56.nanMag 0 else .val (.inf (s != t))
  | .fin s n _, .inf t => if n = 0 then .nan acc56.nanMag 0 else .val (.inf (s != t))
  | .fin s n e, .fin t k d => .val (.fin (s != t) (n * k) (e + d))
  | _, _ => .nan acc56.nanMag 0

/-- E + O read out in a format (R48, R51): one rounding; of two NaNs the lower-keyed; a generated one as canonical. -/
def readOut (f : Fmt) (e o : Nat × Nat) : Nat :=
  let nan (p : Nat × Nat) : Nat :=
    if p.2 = 0 then f.nanMag else (valTo acc56 f .rne false (acc56.value p.1)).1
  match acc56.isNan e.1, acc56.isNan o.1 with
  | true, true => nan (if o.2 != 0 && (e.2 == 0 || decide (o.2 < e.2)) then o else e)
  | true, false => nan e
  | false, true => nan o
  | false, false =>
    match acc56.value e.1, acc56.value o.1 with
    | .inf s, .inf t => if s = t then (infTo f s).1 else f.nanMag
    | .inf s, _ => (infTo f s).1
    | _, .inf t => (infTo f t).1
    | .fin s n d, .fin t k g =>
      let r := addExact .rne s n d t k g
      (roundTo f .rne false r.1 r.2.1 r.2.2 false).1
    | _, _ => f.nanMag

/-- The integer read-out (R49): (E + O) mod 2⁵⁶, signed, saturated to 32 bits. -/
def readOutInt (e o : Nat) : Nat :=
  let x := sextN 56 (e + o)
  modN 32 (if x < -(2 ^ 31 : Nat) then -(2 ^ 31 : Nat) else if (2 ^ 31 : Nat) - 1 < x then (2 ^ 31 : Nat) - 1 else x)

/-! ## Tiles (R219) -/

def Partial.zero : Partial := ⟨0, 0⟩
def accKey (tile i j o : Nat) : Nat := 512 * tile + 2 * (16 * i + j) + o
def Warp.partialAt (W : Warp) (tile i j o : Nat) : Nat × Nat :=
  let p := tget Partial.zero W.acc (accKey tile i j o)
  (p.val.toNat, p.key.toNat)

def Warp.setPartial (W : Warp) (tile i j o : Nat) (p : Nat × Nat) : Warp :=
  { W with
    acc := tset Partial.zero W.acc (accKey tile i j o) ⟨BitVec.ofNat 56 p.1, BitVec.ofNat 64 p.2⟩
    badAcc := W.badAcc.filter (· != accKey tile i j o)
    weakAcc := W.weakAcc.filter (· != accKey tile i j o) }

/-- The elements of a tile. -/
def tileElems : List (Nat × Nat) := (List.range 16).flatMap (fun i => (List.range 16).map (fun j => (i, j)))

/-- E := +0, O := +0, no origin, in every element. -/
def Warp.clearTile (W : Warp) (tile : Nat) : Warp :=
  { tileElems.foldl (fun W e => (W.setPartial tile e.1 e.2 0 (0, 0)).setPartial tile e.1 e.2 1 (0, 0)) W with
    ordinal := tset 0 W.ordinal tile 0 }

/-! ## The shape record (R221, R222, R224, Table 7.1) -/

def shapeM (x : Word) : Nat := bitsN x.toNat 4 0
def shapeN (x : Word) : Nat := bitsN x.toNat 9 5
def shapeK (x : Word) : Nat := bitsN x.toNat 18 10
def shapeAStep (x : Word) : Nat := 2 ^ bitsN x.toNat 20 19
def shapeBStep (x : Word) : Nat := 2 ^ bitsN x.toNat 22 21
def shapeAOff (x : Word) : Nat := bitsN x.toNat 24 23
def shapeBOff (x : Word) : Nat := bitsN x.toNat 26 25

def shapeRecordOk (x : Word) : Bool :=
  bitsN x.toNat 31 27 == 0 && bitsN x.toNat 20 19 != 3 && bitsN x.toNat 22 21 != 3 &&
  decide (1 ≤ shapeM x) && decide (shapeM x ≤ 16) && decide (1 ≤ shapeN x) && decide (shapeN x ≤ 16) &&
  decide (1 ≤ shapeK x) && decide (shapeK x ≤ 384) && decide (shapeAOff x < shapeAStep x) &&
  decide (shapeBOff x < shapeBStep x)

def execMshape (f : FmtS) (s : State) : Host.Outcome State Fault Refusal :=
  issue (.mshape f) (fun c s =>
    let x := c.uni f.b.toNat
    if shapeRecordOk x then .ok (s.setWarp c.b { c.W with shape := x }) else .trap causeIllegal 0 0) s

/-! ## Formats (R223, R89, Tables 3.17 and 7.2) -/

/-- The element format codes of A and B. -/
def mmaFmts (fmt : Nat) : Nat × Nat :=
  match fmt with
  | 0 => (0, 0)
  | 1 => (1, 1)
  | 2 => (2, 2)
  | 3 => (2, 3)
  | 4 => (3, 2)
  | 5 => (3, 3)
  | 6 => (7, 7)
  | 7 => (4, 4)
  | 8 => (4, 5)
  | 9 => (5, 4)
  | 10 => (5, 5)
  | _ => (6, 6)

def mmaWidth (fmt : Nat) : Nat := tileBits (mmaFmts fmt).1
def mmaK (fmt : Nat) : Nat := 1536 / mmaWidth fmt
def mmaMx (fmt : Nat) : Bool := decide (7 ≤ fmt)
def mmaRowBytes (fmt : Nat) : Nat := 192 + (if mmaMx fmt then mmaK fmt / 32 else 0)

/-! ## MMA at issue (R225 to R228) -/

/-- Stored row i of a fragment from register r (R225). -/
def fragRow (c : Iss) (r i : Nat) : Nat :=
  ofLeBytes ((List.range 6).flatMap (fun k => (List.range 2).flatMap (fun h => (List.range 4).flatMap (fun q =>
    leBytes 4 (c.W.vAt c.fr (r + 4 * k + q) (i + 16 * h)).toNat))))

def fragRows (c : Iss) (r : Nat) : List Nat := (List.range 16).map (fragRow c r)

/-- The address of byte x of stored row i of a scratch operand (R226). -/
def Desc.rowByte (d : Desc) (i x : Nat) : Nat := d.base + i * d.pitch + rotate d.rot i x

/-- Every rotated byte of the rows read lies below PITCH. -/
def Desc.rowsFit (d : Desc) (n bytes : Nat) : Bool :=
  (List.range n).all (fun i => (List.range bytes).all (fun x => decide (rotate d.rot i x < d.pitch)))

/-- The 4-byte words of n stored rows; `first` numbers the rows. -/
def Desc.parts (d : Desc) (first n bytes : Nat) : List Part :=
  (List.range n).flatMap (fun i => (List.range (bytes / 4)).map (fun k =>
    ⟨first + i, 4 * k, 0, d.rowByte i (4 * k), 4, [], false⟩))

/-- R227. All 32 lanes of a fragment are read, those of rows at or beyond MEXT or NEXT too, for the errors of R160 (DEDUCED,
log 51: R230 against R224). -/
def execMma (f : FmtX) (s : State) : Host.Outcome State Fault Refusal :=
  issueM (.mma f)
    { body := fun c s =>
        let fmt := f.fmt.toNat
        let sh := c.W.shape
        let bytes := mmaRowBytes fmt
        let desc (x : BitVec 8) : Desc := Desc.of (c.uni x.toNat) (c.uni (x.toNat + 1))
        let da := desc f.a
        let db := desc f.b
        let bad := (f.asrc && !(da.ok && da.rowsFit (shapeM sh) bytes)) ||
          (f.bsrc && !(db.ok && db.rowsFit (shapeN sh) bytes)) ||
          (mmaMx fmt && (bitsN sh.toNat 22 19 != 0 || bitsN sh.toNat 26 23 != 0))
        if bad then .trap causeIllegal 0 0
        else
          let parts := (if f.asrc then da.parts 0 (shapeM sh) bytes else []) ++
            (if f.bsrc then db.parts 16 (shapeN sh) bytes else [])
          match firstBeyond (s.scratchSize c.b c.w) (parts.flatMap (fun p => (List.range 4).map (p.pa + ·))) with
          | some a => .trap causeScratch a c.run
          | none =>
            .ok (s.enter c (.mma ⟨fmt, f.accd, f.nega, f.negb, f.acc.toNat, sh,
                if f.asrc then none else some (fragRows c f.a.toNat),
                if f.bsrc then none else some (fragRows c f.b.toNat)⟩) f.setf parts [] [])
      readMask := fun _ => BitVec.allOnes 32 } s

/-! ## MRD, MWR and MZERO at issue (R233 to R236) -/

def execMrd (f : FmtX) (s : State) : Host.Outcome State Fault Refusal :=
  issue (.mrd f) (fun c s =>
    let r := f.a.toNat
    .ok (s.enter c (.mread f.acc.toNat f.fmt.toNat r f.accd c.run) f.setf [] []
      ((List.range (tileRegs f.fmt.toNat)).map (fun q => .lane (r + q))))) s

/-- The partial E that MWR gives element (i, j), from the lane form (R234, R236): an input NaN ranks first (R50). -/
def mwrPartial (c : Iss) (fmt r i j : Nat) : Partial :=
  let l := i + 16 * (j / 8)
  let q := j % 8
  let x := if fmt = 0 || fmt = 3 then (c.W.vAt c.fr (r + q) l).toNat
    else (c.W.vAt c.fr (r + q / 2) l).toNat / 65536 ^ (q % 2) % 65536
  if fmt = 3 then ⟨BitVec.ofNat 56 (modN 56 (sextN 32 x)), 0⟩
  else
    let g := if fmt = 0 then fp32 else if fmt = 1 then bf16 else fp16
    ⟨BitVec.ofNat 56 (valTo g acc56 .rne false (g.value x)).1, if g.isNan x then BitVec.ofNat 64 (2 ^ 63) else 0⟩

def execMwr (f : FmtX) (s : State) : Host.Outcome State Fault Refusal :=
  issueM (.mwr f)
    { body := fun c s =>
        .ok (s.enter c (.mwrite f.acc.toNat (tileElems.map (fun e => mwrPartial c f.fmt.toNat f.a.toNat e.1 e.2)))
          f.setf [] [] [])
      readMask := fun _ => BitVec.allOnes 32 } s

def execMzero (f : FmtX) (s : State) : Host.Outcome State Fault Refusal :=
  issue (.mzero f) (fun c s => .ok (s.enter c (.mwrite f.acc.toNat []) f.setf [] [] [])) s

/-! ## Completion (R229 to R232, R235, R236) -/

/-- The tile a matrix operation names. -/
def OpKind.tile : OpKind → Option Nat
  | .mma m => some m.tile
  | .mread t _ _ _ _ => some t
  | .mwrite t _ => some t
  | _ => none

/-- Every earlier format X word on the tile has been performed (R231). -/
def Warp.tileFree (W : Warp) (o : Op) : Bool := (W.opsBefore o.id).all (fun y => y.kind.tile != o.kind.tile || y.done)

/-- Every earlier scratch store, STFRAG and ATOMS has been performed (R232). -/
def Warp.scratchStored (W : Warp) (o : Op) : Bool :=
  (W.opsBefore o.id).all (fun y => y.performed || !(match y.kind with
    | .sts => true
    | .stfrag => true
    | .atoms _ _ _ => true
    | _ => false))

/-- One 4-byte word of a scratch operand is read. -/
def State.performMmaPart (s : State) (B : Block) (W : Warp) (o : Op) (i : Nat) (p : Part) : State :=
  if s.scrHeld B.uid W.idx p.pa p.len then s
  else if s.scrBad B.uid W.idx p.pa p.len then s.poisonScr B W o p.pa p.len
  else (s.scrHeal B.uid W.idx W.core p.pa p.len).setWarp B.uid
    (W.modOp o.id (fun o => o.didPart i (s.scrRead B.uid W.idx p.pa p.len)))

/-- The stored rows of a scratch operand, from its parts. -/
def rowsOfParts (parts : List Part) (first n : Nat) : List Nat :=
  (List.range n).map (fun i => ofLeBytes ((parts.filter (fun p => p.lane == first + i)).flatMap (·.data)))

/-- One element value of an operand (R224) with its NaN code, negated under R47 where it lies within the extents, a
NaN too (log 65). -/
def mmaElem (fmt t : Nat) (step off kext : Nat) (neg : Bool) (row k : Nat) : Term :=
  let w := mmaWidth fmt
  let p := step * k + off
  if decide (kext ≤ k) || decide (mmaK fmt ≤ p) then .val (.fin false 0 0)
  else
    let code := row / 2 ^ (p * w) % 2 ^ w
    let scale := if mmaMx fmt then some (row / 2 ^ (1536 + 8 * (p / 32)) % 256) else none
    match decodeElem t code scale with
    | .nan s m => .nan (valTo (fmtOf t) acc56 .rne false (.nan (s != neg) m)).1 0
    | .inf s => .val (.inf (s != neg))
    | .fin s n e => .val (.fin (s != neg) n e)

/-- The term of one k: an element NaN with its origin key, A before B (R50), or the product. -/
def mmaTerm (base k : Nat) : Term → Term → Term
  | .nan a _, _ => .nan a (base + 2 * k)
  | _, .nan b _ => .nan b (base + 2 * k + 1)
  | .val a, .val b => prodTerm a b

/-- E and O of one element after K products (R47). -/
def mmaChain (base : Nat) (a b : List Term) (e o : Nat × Nat) : (Nat × Nat) × (Nat × Nat) :=
  ((a.zip b).foldl (fun (st : Nat × (Nat × Nat) × (Nat × Nat)) ab =>
    let t := mmaTerm base st.1 ab.1 ab.2
    if st.1 % 2 = 0 then (st.1 + 1, accAdd st.2.1 t, st.2.2) else (st.1 + 1, st.2.1, accAdd st.2.2 t)) (0, e, o)).2

/-- The exact integer of an INT8 element. -/
def Term.int : Term → Int
  | .val (.fin s n _) => if s then -(n : Int) else n
  | _ => 0

/-- E and O of one element after K integer products (R49). -/
def mmaChainInt (a b : List Term) (e o : Nat) : Nat × Nat :=
  let ps := (a.zip b).map (fun ab => ab.1.int * ab.2.int)
  let part (par : Nat) : Int := ((ps.zipIdx.filter (fun p => p.2 % 2 == par)).map (·.1)).foldl (· + ·) 0
  (modN 56 ((e : Int) + part 0), modN 56 ((o : Int) + part 1))

/-- The tile's ordinal for this MMA: counted from the last clearing of the tile, saturating (R50, R352). -/
def Warp.nextOrdinal (W : Warp) (m : MmaOp) : Nat :=
  if m.accd then 1 else min (tget 0 W.ordinal m.tile + 1) (2 ^ 53 - 1)

/-- The tile after an MMA (R229). -/
def Warp.runMma (W : Warp) (m : MmaOp) (rowsA rowsB : List Nat) : Warp :=
  let ord := W.nextOrdinal m
  let base := 2 ^ 63 + ord * 2 ^ 10
  let fs := mmaFmts m.fmt
  let ks := List.range (mmaK m.fmt)
  let sh := m.shape
  let as := (rowsA.take (shapeM sh)).map (fun row =>
    ks.map (mmaElem m.fmt fs.1 (shapeAStep sh) (shapeAOff sh) (shapeK sh) m.nega row))
  let bs := (rowsB.take (shapeN sh)).map (fun row =>
    ks.map (mmaElem m.fmt fs.2 (shapeBStep sh) (shapeBOff sh) (shapeK sh) m.negb row))
  let W1 := as.zipIdx.foldl (fun W ai => bs.zipIdx.foldl (fun W bj =>
    let e := if m.accd then (0, 0) else W.partialAt m.tile ai.2 bj.2 0
    let o := if m.accd then (0, 0) else W.partialAt m.tile ai.2 bj.2 1
    let r := if m.fmt = 6 then
        (let q := mmaChainInt ai.1 bj.1 e.1 o.1
         ((q.1, 0), (q.2, 0)))
      else mmaChain base ai.1 bj.1 e o
    (W.setPartial m.tile ai.2 bj.2 0 r.1).setPartial m.tile ai.2 bj.2 1 r.2) W) W
  { W1 with ordinal := tset 0 W1.ordinal m.tile ord }

/-- A partial the word reads has a double-bit error (R160). -/
def Warp.tileBad (W : Warp) (tile rows cols : Nat) : Bool :=
  W.badAcc.any (fun k => k / 512 == tile && decide (k % 512 / 32 < rows) && decide (k % 32 / 2 < cols))

/-- Single-bit errors of the partials a word reads are corrected and counted (R160). -/
def Warp.healTile (W : Warp) (tile rows cols : Nat) : Warp :=
  let met (k : Nat) : Bool := k / 512 == tile && decide (k % 512 / 32 < rows) && decide (k % 32 / 2 < cols)
  { W with fixed := W.fixed + (W.weakAcc.filter met).length, weakAcc := W.weakAcc.filter (fun k => !met k) }

/-- MMA's completion: every scratch word read, every earlier word on the tile performed. -/
def State.completeMma (s : State) (B : Block) (W : Warp) (o : Op) (m : MmaOp) : Option State :=
  if !(o.parts.all (·.done) && W.tileFree o) then none
  else if !m.accd && W.tileBad m.tile (shapeM m.shape) (shapeN m.shape) then some (s.poisonCore B W o)
  else some (s.setWarp B.uid ((if m.accd then W else W.healTile m.tile (shapeM m.shape) (shapeN m.shape)).runMma m (m.rowsA.getD (rowsOfParts o.parts 0 (shapeM m.shape)))
    (m.rowsB.getD (rowsOfParts o.parts 16 (shapeN m.shape)))))

/-- The value of register r + q of lane l in the lane form (R234, R235). -/
def Warp.mrdValue (W : Warp) (tile fmt l q : Nat) : Word :=
  let i := l % 16
  let rd (j : Nat) : Nat :=
    let e := W.partialAt tile i j 0
    let o := W.partialAt tile i j 1
    if fmt = 3 then readOutInt e.1 o.1
    else readOut (if fmt = 0 then fp32 else if fmt = 1 then bf16 else fp16) e o
  let j := 8 * (l / 16)
  if fmt = 0 || fmt = 3 then BitVec.ofNat 32 (rd (j + q))
  else BitVec.ofNat 32 (rd (j + 2 * q) + 65536 * rd (j + 2 * q + 1))

/-- MRD's completion. -/
def State.completeMrd (s : State) (B : Block) (W : Warp) (o : Op) (tile fmt dst : Nat) (accd : Bool) (lanes : Mask) :
    Option State :=
  if !W.tileFree o then none
  else if W.tileBad tile 16 16 then some (s.poisonCore B W o)
  else
    let W := W.healTile tile 16 16
    let W1 := (lanesOf lanes).foldl (fun W1 l => (List.range (tileRegs fmt)).foldl (fun W1 q =>
      W1.flagWrite s.fresh o.id (.lane (dst + q)) l (W.mrdValue tile fmt l q)) W1) W
    some (s.setWarp B.uid (if accd then W1.clearTile tile else W1))

/-- MWR's and MZERO's completion. -/
def State.completeMwr (s : State) (B : Block) (W : Warp) (o : Op) (tile : Nat) (vals : List Partial) : Option State :=
  if !W.tileFree o then none
  else
    let W0 := W.clearTile tile
    some (s.setWarp B.uid ((tileElems.zip vals).foldl (fun W e =>
      W.setPartial tile e.1.1 e.1.2 0 (e.2.val.toNat, e.2.key.toNat)) W0))

end Sys2Proof.Machine
end

