-- ==== Sys2Proof/Machine/Pages.lean ====
section
/-!
DEFINITION. What attention, sealing, selection and aging share: engine reads and writes of global memory with the status
they give, page-table entries and snapshots (R242, R243, R469), pages and their values (R240, R241), summary vectors (R244,
R257), and sums of terms through two partials (R47, R250).
-/
namespace Sys2Proof.Machine

/-! ## Engine accesses (R299, R300, R321, R402) -/

/-- What an engine's access failed with: 1 no translation, 2 no permission, 4 poison; and the address. -/
abbrev EngErr := Nat × Nat

def errOf (e : Bool × Nat) : EngErr := (if e.1 then 1 else 2, e.2)

/-- Read n bytes of a context's memory. -/
def State.engRead (s : State) (cl : Option Nat) (ctx va n : Nat) : Except EngErr (List Byte) :=
  match s.readVa cl ctx va n with
  | .error e => .error (errOf e)
  | .ok bs => if s.vaPoisoned cl ctx va n then .error (4, va) else .ok bs

def State.engReadN (s : State) (cl : Option Nat) (ctx va n : Nat) : Except EngErr Nat := (s.engRead cl ctx va n).map ofLeBytes

/-- Write bytes of a context's memory. -/
def State.engWrite (s : State) (cl : Option Nat) (ctx va : Nat) (bs : List Byte) : Except EngErr State :=
  match s.writeVa cl ctx va bs with
  | .error e => .error (errOf e)
  | .ok s' => .ok s'

/-- Write words of a context's memory; the units they write whole lose their poison (R300). -/
def State.engWriteAll (s : State) (cl : Option Nat) (ctx : Nat) (ps : List (Nat × List Byte)) : Except EngErr State :=
  (joinPieces ps).foldlM (fun s r => s.engWrite cl ctx r.1 r.2) s

/-- The lines n bytes of a context's memory lie on. -/
def State.linesAt (s : State) (cl : Option Nat) (ctx va n : Nat) : List Nat :=
  ((List.range ((va + n + 127) / 128 - va / 128)).filterMap (fun i =>
    match s.access cl ctx (max va ((va / 128 + i) * 128)) .read with
    | .mem loc => some (lineOf loc)
    | _ => none)).eraseDups

/-! ## Entries (R242, R243, R469, Table 8.2) -/

def Snap.kaddr (e : Snap) : Nat := bitsN e.d0 63 20 * 256
def Snap.vaddr (e : Snap) : Nat := bitsN e.d1 63 20 * 256
def Snap.tag (e : Snap) : Nat := bitsN e.d0 5 4
def Snap.tier (e : Snap) : Nat := bitsN e.d0 3 3
def Snap.pin (e : Snap) : Bool := bitN e.d0 2
def Snap.sealed (e : Snap) : Bool := bitN e.d0 1
def Snap.valid (e : Snap) : Bool := bitN e.d0 0
def Snap.gen (e : Snap) : Nat := bitsN e.d2 47 32
def Snap.mass (e : Snap) : Nat := bitsN e.d2 31 0
def Snap.kscale (e : Snap) : Nat := bitsN e.d3 7 0
def Snap.vscale (e : Snap) : Nat := bitsN e.d3 15 8

/-- FLAGS agree with dword 0. -/
def Snap.flagsOk (e : Snap) : Bool := bitsN e.d1 5 0 == bitsN e.d0 5 0

/-- Every reserved bit is zero. -/
def Snap.reservedOk (e : Snap) : Bool :=
  bitsN e.d0 19 6 == 0 && bitsN e.d1 19 6 == 0 && bitsN e.d2 63 48 == 0 && bitsN e.d3 23 16 == 0

/-- Where the summary vector lies (R244). -/
def Snap.summary (e : Snap) : Nat := modN 64 (((e.va / 64 * 64 : Nat) : Int) + sextN 40 (bitsN e.d3 63 24) * 64)

/-- The entry at a location as it stands. -/
def MemSt.snapAt (m : MemSt) (va loc : Nat) : Snap :=
  ⟨va, loc, m.readN loc 8, m.readN (loc + 8) 8, m.readN (loc + 16) 8, m.readN (loc + 24) 8⟩

/-- One 32-byte read at the entry's home slice. -/
def State.snapshot (s : State) (cl : Option Nat) (ctx va : Nat) : Except EngErr Snap :=
  match s.access cl ctx va .read with
  | .fault => .error (1, va)
  | .mem loc =>
    if s.mem.poisoned loc 32 || s.mem.bad.contains (loc / 16) || s.mem.bad.contains (loc / 16 + 1) then .error (4, va)
    else .ok (s.mem.snapAt va loc)
  | _ => .error (2, va)

def State.addReader (s : State) (e : Snap) (id : Nat) : State :=
  { s with kv := { s.kv with readers := ⟨e.loc, e.gen, id⟩ :: s.kv.readers } }

/-- Every reader of an operation retires. -/
def State.retireReaders (s : State) (id : Nat) : State :=
  { s with kv := { s.kv with readers := s.kv.readers.filter (fun r => r.id != id) } }

/-! ## Pages (R240, R241, Table 8.1) -/

/-- The element type of a tag. -/
def tagType (tag : Nat) : Nat :=
  match tag with
  | 0 => 0
  | 1 => 2
  | 2 => 4
  | _ => 6

def tagWidth (tag : Nat) : Nat := tileBits (tagType tag)
def rowBytesOf (tag d : Nat) : Nat := d * tagWidth tag / 8 + (if 2 ≤ tag then d / 32 else 0)
def pageBytes (tag d : Nat) : Nat := 32 * rowBytesOf tag d

/-- The value of element i of a row. -/
def rowElem (tag d scale : Nat) (row : List Byte) : List FVal :=
  let bits := ofLeBytes (row.take (d * tagWidth tag / 8))
  (List.range d).map (fun i => decodeElem (tagType tag) (bits / 2 ^ (i * tagWidth tag) % 2 ^ tagWidth tag)
    (if tag = 0 then none else if tag = 1 then some scale
     else some ((nth 0 row (d * tagWidth tag / 8 + i / 32)).toNat)))

/-- The 32 token rows of a page. -/
def pageRows (tag d scale : Nat) (bytes : List Byte) : List (List FVal) :=
  (List.range 32).map (fun t => rowElem tag d scale ((bytes.drop (t * rowBytesOf tag d)).take (rowBytesOf tag d)))

/-- Read a page of a snapshot: its K page, or its V page. -/
def State.readPage (s : State) (cl : Option Nat) (ctx : Nat) (e : Snap) (v : Bool) (d : Nat) :
    Except EngErr (List (List FVal)) :=
  (s.engRead cl ctx (if v then e.vaddr else e.kaddr) (pageBytes e.tag d)).map
    (pageRows e.tag d (if v then e.vscale else e.kscale))

/-! ## Summaries (R244, R257) -/

/-- A finite or infinite value as a sign and a magnitude to compare. -/
def magLt (n : Nat) (e : Int) (k : Nat) (d : Int) : Bool :=
  let m := min e d
  decide (n * 2 ^ (e - m).toNat < k * 2 ^ (d - m).toNat)

/-- a < b, −0 below +0 (R38); no NaN. -/
def fvLt : FVal → FVal → Bool
  | .inf s, .inf t => s && !t
  | .inf s, _ => s
  | _, .inf t => !t
  | .fin s n e, .fin t k d =>
    if s && !t then true
    else if !s && t then false
    else if s then magLt k d n e else magLt n e k d
  | _, _ => false

/-- Lower and upper bound of one key dimension, rounded outwards to BF16. -/
def boundsOf (col : List FVal) : Nat × Nat :=
  if col.any (fun v => match v with
    | .nan _ _ => true
    | _ => false) then (bf16.nanMag, bf16.nanMag)
  else
    match col with
    | [] => (0, 0)
    | v :: r =>
      let lo := r.foldl (fun a b => if fvLt b a then b else a) v
      let hi := r.foldl (fun a b => if fvLt a b then b else a) v
      ((valTo fp32 bf16 .rd false lo).1, (valTo fp32 bf16 .ru false hi).1)

/-- The summary vector of a K page: D lower bounds, then D upper bounds. -/
def summaryOf (d : Nat) (rows : List (List FVal)) : List Byte :=
  let b := (List.range d).map (fun i => boundsOf (rows.map (fun r => nth (.fin false 0 0) r i)))
  b.flatMap (fun x => leBytes 2 x.1) ++ b.flatMap (fun x => leBytes 2 x.2)

/-! ## Sums of products (R47, R250) -/

/-- An element value of a format as a term. -/
def termOf (t : Nat) : FVal → Term
  | .nan s m => .nan (valTo (fmtOf t) acc56 .rne false (.nan s m)).1 0
  | v => .val v

/-- The two-partial sum of terms by their indices: even to E, odd to O; read out by RNE32. -/
def chain2 (ts : List (Nat × Term)) : Nat :=
  let r := ts.foldl (fun (st : (Nat × Nat) × (Nat × Nat)) it =>
    if it.1 % 2 = 0 then (accAdd st.1 it.2, st.2) else (st.1, accAdd st.2 it.2)) ((0, 0), (0, 0))
  readOut fp32 r.1 r.2

/-- A product of term index k, its NaN origin by k, A before B (R50, R51). -/
def prodAt (k : Nat) (a b : Term) : Nat × Term := (k, mmaTerm (2 ^ 63) k a b)

end Sys2Proof.Machine
end

