-- ==== Sys2Proof/Machine/Attention.lean ====
section
/-!
DEFINITION. ATTN and PGSEAL (R245 to R257): checks and snapshots at issue, the online softmax, mass adds, sealing.
-/
namespace Sys2Proof.Machine

def dimOf (sub : BitVec 7) : Nat := 64 * 2 ^ (sub.toNat % 4)

/-! ## ATTN at issue (R246 to R248) -/

/-- The parameter block (Table 8.4). -/
structure AttnBlock where
  table : Nat
  npg : Nat
  rows : Nat
  qaddr : Nat
  laddr : Nat
  saddr : Nat
  scale : Nat
  qpitch : Nat
  qpos : Nat
  reserved : Bool
  deriving DecidableEq, Repr

def AttnBlock.of (w : Nat → Nat) : AttnBlock :=
  { table := w 0 + 2 ^ 32 * bitsN (w 1) 19 0, npg := bitsN (w 2) 27 24 + 1, rows := bitsN (w 2) 23 20 + 1
    qaddr := bitsN (w 2) 19 0, laddr := bitsN (w 3) 19 0, saddr := bitsN (w 4) 19 0, scale := w 5
    qpitch := bitsN (w 6) 11 0, qpos := bitsN (w 7) 25 0
    reserved := bitsN (w 1) 31 20 != 0 || bitsN (w 2) 31 28 != 0 || bitsN (w 3) 31 20 != 0 || bitsN (w 4) 31 20 != 0 ||
      bitsN (w 6) 31 12 != 0 || bitsN (w 7) 31 26 != 0 }

/-- Bytes between state rows (R247). -/
def stateStride (d : Nat) : Nat := 16 + 4 * d

/-- 4-byte parts of a row in scratch. -/
def rowParts (lane addr n : Nat) : List Part :=
  (List.range (n / 4)).map (fun k => ⟨lane, 4 * k, 0, addr + 4 * k, 4, [], false⟩)

/-- The scratch words an ATTN reads after issue: query rows, and state rows unless INIT. -/
def attnParts (b : AttnBlock) (d : Nat) (init : Bool) : List Part :=
  (List.range b.rows).flatMap (fun r => rowParts r (b.qaddr + r * b.qpitch) (2 * d)) ++
  (if init then [] else (List.range b.rows).flatMap (fun r => rowParts (16 + r) (b.saddr + r * stateStride d) (stateStride d)))

/-- Every byte the scratch check covers, as (start, length). -/
def attnSpans (b : AttnBlock) (d : Nat) : List (Nat × Nat) :=
  (List.range b.rows).map (fun r => (b.qaddr + r * b.qpitch, 2 * d)) ++
  [(b.laddr, 4 * b.npg), (b.saddr, b.rows * stateStride d)]

/-- The lowest byte of some spans at or beyond the allocation. -/
def spansBeyond (size : Nat) (spans : List (Nat × Nat)) : Option Nat :=
  match spans.filter (fun x => decide (size < x.1 + x.2)) with
  | [] => none
  | xs => some (minOr 0 (xs.map (fun x => max x.1 size)))

/-- The fate of an entry the word lists: a snapshot, or the KV_FAULT or POISON it raises (Table 8.6). -/
def snapTest (fr : Nat) (acceptInvalid : Bool) : Except EngErr Snap → Except Res Snap
  | .error (4, _) => .error (poisonTrap fr id)
  | .error (1, va) => .error (.trap causeKv va 4)
  | .error (_, va) => .error (.trap causeKv va 5)
  | .ok e =>
    if !e.valid then (if acceptInvalid then .ok e else .error (.trap causeKv e.va 1))
    else if !e.flagsOk then .error (.trap causeKv e.va 2)
    else if !e.reservedOk then .error (.trap causeKv e.va 3) else .ok e

/-- Snapshot every listed entry, in list order; the first failure decides. -/
def State.snapAll (s : State) (cl : Option Nat) (ctx table : Nat) : List Nat → Except Res (List (Option (Nat × Snap)))
  | [] => .ok []
  | n :: r =>
    if n = 0xFFFFFFFF then (s.snapAll cl ctx table r).map (none :: ·)
    else match snapTest s.fresh false (s.snapshot cl ctx (table + 32 * n)) with
    | .error e => .error e
    | .ok e => (s.snapAll cl ctx table r).map (some (n, e) :: ·)

/-- The slices fill the lines of listed entries. -/
def State.fillEntries (s : State) (cl : Option Nat) (ctx table : Nat) (list : List Nat) : State :=
  (list.filter (· != 0xFFFFFFFF)).foldl (fun s n => s.fillVa cl ctx (table + 32 * n) 32) s

/-- Every earlier scratch store, STFRAG and ATOMS of the warp has been performed (R252). -/
def Warp.scratchSettled (W : Warp) : Bool :=
  W.ops.all (fun y => y.performed || !(match y.kind with
    | .sts => true
    | .stfrag => true
    | .atoms _ _ _ => true
    | _ => false))

/-- The list of an ATTN, or an entry it lists, waits in a die's HBM4E (R296). -/
def State.attnHeld (s : State) (c : Iss) (b : AttnBlock) : Bool :=
  !s.hbmReady && (s.scrHeld c.b c.w b.laddr (4 * b.npg) ||
    s.anyHeld c.B.ctx ((((List.range b.npg).map (fun j => ofLeBytes (s.scrRead c.b c.w (b.laddr + 4 * j) 4))).filter
      (· != 0xFFFFFFFF)).map (fun n => (b.table + 32 * n, 32))))

/-- R248. The list is read when the warp's earlier scratch stores have been performed; until then the word is held. -/
def attnBody (f : FmtS) (c : Iss) (s : State) : Res :=
  let b := AttnBlock.of (fun i => (c.uni (f.b.toNat + i)).toNat)
  let d := dimOf f.sub
  let init := f.sub.getLsbD 2
  let mis := [(b.table, 32), (b.qaddr, 16), (b.laddr, 4), (b.saddr, 16)].filter (fun x => x.1 % x.2 != 0)
  if b.reserved || decide (b.qpitch < 2 * d) || b.qpitch % 16 != 0 then .trap causeIllegal 0 0
  else if !mis.isEmpty then .trap causeMisalign (minOr 0 (mis.map (·.1))) c.run
  else match spansBeyond (s.scratchSize c.b c.w) (attnSpans b d) with
  | some a => .trap causeScratch a c.run
  | none =>
    if !c.W.scratchSettled || s.attnHeld c b then .stall
    else if s.scrBad c.b c.w b.laddr (4 * b.npg) then poisonTrap c.fr (fun s => s.scrMeets c.b c.w c.W.core b.laddr (4 * b.npg))
    else
      let list := (List.range b.npg).map (fun j => ofLeBytes (s.scrRead c.b c.w (b.laddr + 4 * j) 4))
      match s.snapAll (some (coreCluster c.W.core)) c.B.ctx b.table list with
      | .error (.trapIn _ cause addr aux) =>
        .trapIn (fun s => s.fillEntries (some (coreCluster c.W.core)) c.B.ctx b.table list) cause addr aux
      | .error r => r
      | .ok slots =>
        if coreClass c.W.core = 1 && slots.any (fun x => match x with
            | some (_, e) => decide (2 ≤ e.tag)
            | none => false) then .migrate
        else
          let id := s.nextUid
          let s0 := (s.scrHeal c.b c.w c.W.core b.laddr (4 * b.npg)).fillEntries (some (coreCluster c.W.core)) c.B.ctx b.table list
          let s1 := s0.enter c (.attn ⟨d, init, f.sub.getLsbD 3, b.rows, b.qpos, b.scale, b.saddr, slots, 0,
            s.mem.past.length, []⟩) f.setf (attnParts b d init) [] []
          .ok (slots.foldl (fun (s : State) x => match x with
            | some (_, e) => (s.addReader e id).acquire c.b c.w (s.mem.attached (lineOf e.loc))
            | none => s) s1)

def execAttn (f : FmtS) (s : State) : Host.Outcome State Fault Refusal := issue (.attn f) (attnBody f) s

/-! ## The arithmetic (R250) -/

def negInf : Nat := 0xFF800000

/-- RNE32(a − b). -/
def fSub (a b : Nat) : Nat := (fAdd fp32 .rne a (if fp32.isNan b then b else Nat.xor b 0x80000000)).1

/-- One row of the state: m, l, and the outputs. -/
structure AttnRow where
  m : Nat
  l : Nat
  o : List Nat
  deriving DecidableEq, Repr

/-- dot(r, t). -/
def dotOf (q : List Term) (k : List Term) : Nat :=
  chain2 (((q.zip k).zipIdx).map (fun x => prodAt x.2 x.1.1 x.1.2))

/-- One page applied to one row: the new row and its (mnew, rs), or the row as it was when the page is skipped. -/
def attnPage (q : List Term) (kt vt : List (List Term)) (scale : Nat) (us : List Nat) (d : Nat) (row : AttnRow) :
    AttnRow × Option (Nat × Nat) :=
  let ss := us.map (fun t => (fMul fp32 .rne (dotOf q (nth [] kt t)) scale).1)
  match ss with
  | [] => (row, none)
  | s0 :: rest =>
    let pm := rest.foldl (fun a b => (fMax fp32 a b).1) s0
    if pm = negInf then (row, none)
    else
      let mnew := (fMax fp32 row.m pm).1
      let alpha := if row.m = negInf then 0 else (fEx2 (fSub row.m mnew)).1
      let pb := ss.map (fun x => termOf 0 (bf16.value (valTo fp32 bf16 .rne false (fp32.value (fEx2 (fSub x mnew)).1)).1))
      let one : Term := .val (.fin false 1 0)
      let rs := chain2 ((us.zip pb).map (fun x => prodAt x.1 x.2 one))
      let pv (i : Nat) : Nat := chain2 ((us.zip pb).map (fun x => prodAt x.1 x.2 (nth one (nth [] vt x.1) i)))
      let upd (x add : Nat) : Nat := (fAdd fp32 .rne (fMul fp32 .rne x alpha).1 add).1
      (⟨mnew, upd row.l rs, (List.range d).map (fun i => upd (nth 0 row.o i) (pv i))⟩, some (mnew, rs))

/-- The tokens of page n that query row r attends to. -/
def attended (n qpos r : Nat) : List Nat := (List.range 32).filter (fun t => decide (32 * n + t ≤ qpos + r))

/-- The state rows after every slot, and each slot's reference values by row; a fault in the reads of page data, which are whole
pages (log 67), stops. -/
def State.attnRun (s : State) (cl : Option Nat) (ctx : Nat) (a : AttnOp) (qs : List (List Term)) (rows : List AttnRow) :
    List (Option (Nat × Snap)) → Except EngErr (List AttnRow × List (List (Option (Nat × Nat))))
  | [] => .ok (rows, [])
  | none :: r => (s.attnRun cl ctx a qs rows r).map (fun x => (x.1, [] :: x.2))
  | some (n, e) :: r =>
    if (List.range a.rows).all (fun i => (attended n a.qpos i).isEmpty) then
      (s.attnRun cl ctx a qs rows r).map (fun x => (x.1, [] :: x.2))
    else
      match s.readPage cl ctx e false a.d, s.readPage cl ctx e true a.d with
      | .error x, _ => .error x
      | _, .error x => .error x
      | .ok k, .ok v =>
        let kt := k.map (fun row => row.map (termOf (tagType e.tag)))
        let vt := v.map (fun row => row.map (termOf (tagType e.tag)))
        let out := rows.zipIdx.map (fun x => attnPage (nth [] qs x.2) kt vt a.scale (attended n a.qpos x.2) a.d x.1)
        (s.attnRun cl ctx a qs (out.map (·.1)) r).map (fun x => (x.1, out.map (·.2) :: x.2))

/-- The bytes of a row's parts as read. -/
def partBytes (o : Op) (lane : Nat) : List Byte := (o.parts.filter (fun p => p.lane == lane)).flatMap (·.data)

def AttnRow.bytes (r : AttnRow) : List Byte := leBytes 4 r.m ++ leBytes 4 r.l ++ leBytes 8 0 ++ r.o.flatMap (leBytes 4)

/-- A state row of Table 8.5. -/
def AttnRow.of (d : Nat) (bs : List Byte) : AttnRow :=
  let w (i : Nat) : Nat := ofLeBytes ((bs.drop (4 * i)).take 4)
  ⟨w 0, w 1, (List.range d).map (fun i => w (4 + i))⟩

/-! ## Mass (R251) -/

/-- floor(x × 2²⁰), clamped to 32 bits; x is no NaN unless the shares' sum is, and then nothing is added. -/
def massOf (x : Nat) : Nat :=
  match fp32.value x with
  | .fin false n e =>
    let k := e + 20
    min (if 0 ≤ k then n * 2 ^ k.toNat else n / 2 ^ (-k).toNat) 0xFFFFFFFF
  | .inf false => 0xFFFFFFFF
  | _ => 0

/-- The share of one slot. -/
def massShare (rows : List AttnRow) (refs : List (Option (Nat × Nat))) : Nat :=
  massOf ((rows.zip refs).foldl (fun x rr =>
    match rr.2, fp32.value rr.1.l with
    | some (mp, rs), .fin false n _ =>
      if n = 0 then x
      else
        let c := (fDiv (fMul fp32 .rne rs (fEx2 (fSub mp rr.1.m)).1).1 rr.1.l).1
        if fp32.isNan c then x else (fAdd fp32 .rne x c).1
    | _, _ => x) 0)

/-! ## ATTN after issue (R249, R252, R253) -/

/-- One 4-byte scratch word of an engine's operand is read (R232, R252, R273). -/
def State.performScratchPart (s : State) (B : Block) (W : Warp) (o : Op) (i : Nat) (p : Part) : State := s.performMmaPart B W o i p

/-- The pages an ATTN reads: addresses and bytes. -/
def AttnOp.reads (a : AttnOp) : List (Nat × Nat) :=
  a.slots.flatMap (fun x => match x with
    | some (n, e) =>
      if (List.range a.rows).all (fun i => (attended n a.qpos i).isEmpty) then []
      else [(e.kaddr, pageBytes e.tag a.d), (e.vaddr, pageBytes e.tag a.d)]
    | none => [])

/-- The engine has read the pages, each word at some moment since issue, and its readers retire; it computes the state, which
is still to be written; the mass adds become the operation's requests (R243, R250, R252). -/
def State.performAttn (s : State) (B : Block) (W : Warp) (o : Op) (a : AttnOp) : State :=
  if a.stage != 0 || !o.parts.all (·.done) || s.anyHeld B.ctx a.reads then s
  else
    let cl := some (coreCluster W.core)
    let qs := (List.range a.rows).map (fun r =>
      let bs := partBytes o r
      (List.range a.d).map (fun i => termOf 0 (bf16.value (ofLeBytes ((bs.drop (2 * i)).take 2)))))
    let rows := (List.range a.rows).map (fun r =>
      if a.init then ⟨negInf, 0, List.replicate a.d 0⟩ else AttnRow.of a.d (partBytes o (16 + r)))
    let s0 := a.reads.foldl (fun s x => s.fillVa cl B.ctx x.1 x.2) s
    match (s.asOf a.since).attnRun cl B.ctx a qs rows a.slots with
    | .error (4, _) => s0.poisonOp B W o
    | .error (k, va) => s.abortOp B W o causeKv va (if k = 1 then 4 else 5)
    | .ok (out, refs) =>
      let adds : List AtomReq := if !a.mass then [] else (a.slots.zip refs).filterMap (fun x =>
        match x.1 with
        | none => none
        | some (_, e) =>
          let q := massShare out x.2
          if q = 0 then none else some ⟨e.va + 16, 0, [(0, q, 0)], false⟩)
      let outs := out.zipIdx.flatMap (fun x => piecesOf (a.saddr + x.2 * stateStride a.d) x.1.bytes)
      (s0.retireReaders o.id).setWarp B.uid (W.modOp o.id (fun o =>
        { o with kind := .attn { a with stage := 1, outs := outs }, reqs := adds }))

/-- One 4-byte word of the state is written before the rest. -/
def State.attnOut (s : State) (B : Block) (W : Warp) (o : Op) (a : AttnOp) (i : Nat) : State :=
  match a.outs[i]? with
  | none => s
  | some p => if s.scrHeld B.uid W.idx p.1 p.2.length then s else (s.scrWrite B.uid W.idx p.1 p.2).modWarp B.uid W.idx (fun W => W.modOp o.id (fun o =>
      { o with kind := .attn { a with outs := a.outs.eraseIdx i } }))

/-- One mass add at the entry's home slice: a saturating RMW on MASS as it then stands. -/
def State.performMass (s : State) (B : Block) (W : Warp) (o : Op) (i : Nat) (r : AtomReq) : State :=
  if s.vaHeld B.ctx r.va 4 then s
  else match s.access (some (coreCluster W.core)) B.ctx r.va .rmw with
  | .mem loc =>
    let s := s.fill loc 4
    if s.mem.poisoned loc 4 then s.poisonOp B W o
    else
      let q := (r.lanes.map (·.2.1)).foldl (· + ·) 0
      (s.setWarp B.uid (W.modOp o.id (fun o => o.didReq i))).writeLoc loc (leBytes 4 (min (s.mem.readN loc 4 + q) 0xFFFFFFFF))
  | .fault => s.abortOp B W o causeKv r.va 4
  | _ => s.abortOp B W o causeKv r.va 5

/-- ATTN's completion: every mass add is acknowledged, and what is left of the state is written (R252, R253). -/
def State.completeAttn (s : State) (B : Block) (W : Warp) (o : Op) (a : AttnOp) : Option State :=
  if a.stage = 0 || !o.reqs.all (·.done) || a.outs.any (fun p => s.scrHeld B.uid W.idx p.1 p.2.length) then none
  else some ((((joinPieces a.outs).foldl (fun s r => s.scrWrite B.uid W.idx r.1 r.2) s).scrClear B.uid W.idx a.saddr
    (a.rows * stateStride a.d)).retireReaders o.id)

/-! ## PGSEAL (R257) -/

/-- R467: bits 63:52 first, then alignment. -/
def checkVa (c : Iss) (va align : Nat) : Option Res :=
  if 2 ^ 52 ≤ va then some (.trap causeMemProt va c.run)
  else if va % align != 0 then some (.trap causeMisalign va c.run) else none

def execPgseal (f : FmtS) (s : State) : Host.Outcome State Fault Refusal :=
  issue (.pgseal f) (fun c s =>
    let va := (c.uni64 f.b.toNat).toNat
    match checkVa c va 32 with
    | some r => r
    | none =>
      let d := uniDst f.a
      .ok (s.enter c (.pgseal ⟨va, dimOf f.sub, d, none, none, none, 0, []⟩) f.setf [] [] (d.toList.map Loc.uni))) s

/-- Part 0: the snapshot, with its reader, or the early verdict. -/
def State.sealSnap (s : State) (B : Block) (W : Warp) (o : Op) (p : SealOp) : State :=
  let put (s : State) (q : SealOp) : State := s.setWarp B.uid (W.modOp o.id (fun o => { o with kind := .pgseal q }))
  if p.snap.isSome || p.status.isSome || s.vaHeld B.ctx p.va 32 then s
  else
  let s := s.fillVa (some (coreCluster W.core)) B.ctx p.va 32
  match snapTest s.fresh true (s.snapshot (some (coreCluster W.core)) B.ctx p.va) with
  | .error (.trap cause addr aux) => s.abortOp B W o cause addr aux
  | .error (.trapIn _ _ _ _) => s.poisonOp B W o
  | .error _ => s
  | .ok e =>
    if !e.valid then put s { p with status := some 1 }
    else if e.sealed then put s { p with status := some 2 }
    else (put s { p with snap := some e, since := s.mem.past.length }).addReader e o.id

/-- Part 1: the page has been read, each word at some moment since the snapshot, and its summary is to be written. -/
def State.sealWrite (s : State) (B : Block) (W : Warp) (o : Op) (p : SealOp) : State :=
  match p.snap, p.wrote with
  | some e, none =>
    let cl := some (coreCluster W.core)
    let fail (x : EngErr) : State :=
      if x.1 = 4 then s.poisonOp B W o else s.abortOp B W o causeKv x.2 (if x.1 = 1 then 4 else 5)
    if s.vaHeld B.ctx e.kaddr (pageBytes e.tag p.d) then s
    else
    let s := s.fillVa cl B.ctx e.kaddr (pageBytes e.tag p.d)
    match (s.asOf p.since).readPage cl B.ctx e false p.d with
    | .error x => fail x
    | .ok rows =>
      let lines := lineOf e.loc :: (s.linesAt cl B.ctx e.kaddr (pageBytes e.tag p.d) ++ s.linesAt cl B.ctx e.summary (4 * p.d))
      let g := lines.foldl Sig.add (W.sig.or (s.mem.attached (lineOf e.loc)))
      s.setWarp B.uid (W.modOp o.id (fun o =>
        { o with kind := .pgseal { p with wrote := some g, outs := piecesOf e.summary (summaryOf p.d rows) } }))
  | _, _ => s

/-- One 4-byte word of the summary is written before the rest. -/
def State.sealOut (s : State) (B : Block) (W : Warp) (o : Op) (p : SealOp) (i : Nat) : State :=
  match p.outs[i]? with
  | none => s
  | some q =>
    if s.vaHeld B.ctx q.1 q.2.length then s
    else match s.engWrite (some (coreCluster W.core)) B.ctx q.1 q.2 with
    | .error _ => s
    | .ok s1 => s1.modWarp B.uid W.idx (fun W => W.modOp o.id (fun o =>
        { o with kind := .pgseal { p with outs := p.outs.eraseIdx i } }))

/-- Set SEALED in dword 0 and in FLAGS, if GEN, VALID and SEALED stand unchanged: the state and the status. The update is a release:
a wake it causes acquires the signature (R216, R316). -/
def State.sealSet (s : State) (cl : Option Nat) (ctx : Nat) (e : Snap) (g : Sig) : Except EngErr (State × Nat) :=
  match s.access cl ctx e.va .rmw with
  | .mem loc =>
    let now := s.mem.snapAt e.va loc
    if s.mem.poisoned loc 32 then .error (4, e.va)
    else if now.gen = e.gen && now.valid && !now.sealed then
      .ok (({ s with mem := s.mem.attach (lineOf loc) g } : State).writeLoc loc
        (leBytes 8 (now.d0 ||| 2) ++ leBytes 8 (now.d1 ||| 2)), 0)
    else .ok (s, 2)
  | .fault => .error (1, e.va)
  | _ => .error (2, e.va)

/-- PGSEAL's completion: what is left of the summary, the update at the home slice, and the status. A fault is KV_FAULT, its
reader retired (R243, R249); the words of the summary that earlier turns wrote stay then, and those left are dropped (DESIGN CHOICE,
log 68). -/
def State.completeSeal (s : State) (B : Block) (W : Warp) (o : Op) (p : SealOp) : Option State :=
  let fin (s : State) (st : Nat) : State :=
    let s1 := match p.dst with
      | none => s
      | some n => s.modWarp B.uid W.idx (fun W => W.flagWrite s.fresh o.id (.uni n) 0 (BitVec.ofNat 32 st))
    s1.retireReaders o.id
  match p.status, p.snap, p.wrote with
  | some st, _, _ => some (fin s st)
  | none, some e, some g =>
    let cl := some (coreCluster W.core)
    if s.anyHeld B.ctx ((e.va, 32) :: p.outs.map (fun q => (q.1, q.2.length))) then none
    else match (s.engWriteAll cl B.ctx p.outs).bind (fun s1 =>
        ((s1.unpoisonVa cl B.ctx e.summary (4 * p.d)).fillVa cl B.ctx e.va 32).sealSet cl B.ctx e g) with
    | .error x =>
      let s1 := s.retireReaders o.id
      some (if x.1 = 4 then s1.poisonOp B W o else s1.abortOp B W o causeKv x.2 (if x.1 = 1 then 4 else 5))
    | .ok (s1, st) => some (fin s1 st)
  | _, _, _ => none

end Sys2Proof.Machine
end

