-- ==== Sys2Proof/Machine/Cluster.lean ====
section
/-!
DEFINITION. Barriers (R262 to R270), the grid barrier (R366 to R368), the commit token's words (R361 to R363), monitor
timeouts (R215) and NEXTT (R283 to R288, R384 to R386).
-/
namespace Sys2Proof.Machine

/-- CTOK_FAULT of a word for which the spec states neither %trapaddr nor %trapaux: free (log 24). -/
def ctokTrap (fr : Nat) : Res := .trap causeCtok (Config.freeNat 160 fr 1) (Config.freeWord 160 fr 1)

/-! ## BAR and NBAR -/

/-- The threads of a mask arrive at barrier id (0 the block's). -/
def Warp.arriveAt (W : Warp) (id : Nat) (m : Mask) : Warp :=
  { W with brec := tset ArrRec.none W.brec id (W.arrive (W.brecAt id) m) }

def Warp.parkAt (W : Warp) (m : Mask) (k : ParkKind) : Warp :=
  W.modThreads m (fun t => { t with status := .parked k })

/-- R264. -/
def execBar (f : FmtS) (s : State) : Host.Outcome State Fault Refusal :=
  issue (.bar f) (fun c s =>
    .ok ((s.setWarp c.b ((c.W.arriveAt 0 c.run).parkAt c.run (.bar 0))).settleBarrier c.b 0)) s

/-- The count an arrival offers (Table 9.1): the block's warps for 0xFC. -/
def nbarCount (f : FmtS) (c : Iss) : Nat := if f.b = 0xFC then c.B.warps.length else (c.uni f.b.toNat).toNat

/-- R266, R267: the arrival of the run at a named barrier, parking at it for the sync form. -/
def nbarArriveBody (f : FmtS) (park : Bool) (c : Iss) (s : State) : Res :=
  let id := 1 + f.a.toNat
  let bar := nth Barrier.reset c.B.barriers id
  let n := nbarCount f c
  if n = 0 || decide (c.B.warps.length < n) then .trap causeIllegal 0 0
  else if (c.W.brecAt id).outstanding bar.q c.run then .stall
  else if bar.n != 0 && bar.n != n then
    .trap causeBarMismatch (f.a.toNat + 2 ^ 8 * bar.n + 2 ^ 16 * n) c.run
  else
    let s1 := s.modBlock c.b (fun B => { B with barriers := setNth B.barriers id { bar with n := n } })
    let W1 := c.W.arriveAt id c.run
    .ok ((s1.setWarp c.b (if park then W1.parkAt c.run (.bar id) else W1)).settleBarrier c.b id)

def execNbarArrive (f : FmtS) (s : State) : Host.Outcome State Fault Refusal :=
  issue (.nbarArrive f) (nbarArriveBody f false) s

def execNbarSync (f : FmtS) (s : State) : Host.Outcome State Fault Refusal :=
  issue (.nbarSync f) (nbarArriveBody f true) s

/-- R266: a thread whose registered phase is complete goes on with its record at none; every other parks. A phase is not over
until the memory words its registrations release are performed (R269, log 26). -/
def execNbarWait (f : FmtS) (s : State) : Host.Outcome State Fault Refusal :=
  issue (.nbarWait f) (fun c s =>
    let id := 1 + f.a.toNat
    let bar := nth Barrier.reset c.B.barriers id
    let r := c.W.brecAt id
    let ended : Mask := if r.phase = bar.q then 0 else c.run &&& r.reg &&& ~~~r.pend
    let go : Mask := if bar.closing.any (fun x => x.q == r.phase) then 0 else ended
    let s1 := s.modBlock c.b (fun B => { B with barriers := setNth B.barriers id { bar with
      closing := bar.closing.map (fun x => if x.q = r.phase then { x with wakes := x.wakes ++ [(c.w, ended)] } else x) } })
    let W1 := { c.W with brec := tset ArrRec.none c.W.brec id { r with reg := r.reg &&& ~~~go } }
    .ok (s1.setWarp c.b (W1.parkAt (c.run &&& ~~~go) (.bar id)))) s

/-! ## GBAR (R367) -/

def execGbar (f : FmtS) (s : State) : Host.Outcome State Fault Refusal :=
  issue (.gbar f) (fun c s =>
    if !((s.launch? c.B.launch).map Launch.coop).getD false then .trap causeIllegal 0 0
    else
      let W1 := { c.W with grec := c.W.arrive c.W.grec c.run }
      .ok ((s.setWarp c.b (W1.parkAt c.run .gbar)).settleGrid c.b)) s

/-! ## CTOKW and CTOKP (R362, R363) -/

def execCtokw (f : FmtS) (s : State) : Host.Outcome State Fault Refusal :=
  issue (.ctokw f) (fun c s =>
    if !s.isDet c.B || s.holdsToken c.B c.w then .ok s
    else if s.tokenAt c.B c.w then
      let g := ((s.launch? c.B.launch).map (fun L => L.token.sig)).getD Sig.empty
      .ok ((s.modLaunch c.B.launch (fun L => { L with token := { L.token with held := true } })).acquire c.b c.w g)
    else .ok (s.setWarp c.b (c.W.parkAt c.run .token))) s

def execCtokp (f : FmtS) (s : State) : Host.Outcome State Fault Refusal :=
  issue (.ctokp f) (fun c s =>
    if !s.isDet c.B then
      .ok (if (setfOf f.setf).isNone then s
        else (s.enter c .pass f.setf [] [] []).modWarp c.b c.w (fun W => W.modOp s.nextUid (fun y => { y with done := true })))
    else if !s.holdsToken c.B c.w then .trap causeCtok 0 c.run
    else .ok (s.enterPass c.b c.w (setfOf f.setf) c.pc)) s

/-! ## MON_TIMEOUT (R215) -/

/-- Each group of timed-out threads that stand at one word raises the trap, the group of the lowest lane first. -/
def State.timeOut (s : State) (b w : Nat) : Nat → Mask → State
  | 0, _ => s
  | fuel + 1, m =>
    match lowestLane m, s.warp? b w with
    | some l, some W =>
      let pc := (W.thread l).pc
      let g := maskOf (fun k => m.getLsbD k && (W.thread k).pc == pc)
      let W1 := W.modThreads g (fun t => { t with status := .eligible })
      let s1 := (s.setWarp b W1).takeTrap b w
        ⟨causeMonTimeout, pc - 8, 0, W.mon.line.toNat * 128, g, g, pc, pc - 8⟩
      s1.timeOut b w fuel (m &&& ~~~g)
    | _, _ => s

/-- MON_TIMEOUT (R215): the monitor is disarmed and the timed-out threads trap, unless a chain is open (R82). A run that parks behind
an active handler is not timed out again (log 55). -/
def execMonTimeout (blk warp : Nat) (s : State) : Host.Outcome State Fault Refusal :=
  match s.block? blk with
  | none => .next s
  | some B =>
    match B.warp? warp with
    | none => .next s
    | some W =>
      if !s.overdue W || B.halt.isSome || s.runsOn B W then .next s
      else
        let m := W.maskWhere (fun t => t.status == .parked .waitm)
        .next ((s.setWarp blk { W with mon := { W.mon with armed := false, deadline := none } }).timeOut blk warp 32 m)

/-! ## NEXTT (R283 to R288, R384 to R386) -/

def execNextt (f : FmtS) (s : State) : Host.Outcome State Fault Refusal :=
  issue (.nextt f) (fun c s =>
    let mode := ((s.launch? c.B.launch).map Launch.schedMode).getD 0
    if s.isDet c.B && mode == 1 && !s.holdsToken c.B c.w then ctokTrap c.fr
    else .ok (s.enter c (.draw f.a.toNat) f.setf [] [] [.uni f.a.toNat])) s

/-- DONE. -/
def tileDone : Nat := 0xFFFFFFFF

def Launch.schedtab (L : Launch) : Nat := bitsN (nth 0 L.record 14).toNat 51 0
def Launch.entryOf (L : Launch) (core : Nat) : Nat := L.schedtab + 16 * core

/-- A draw's outcome: the id, or POISON. -/
abbrev Draw := State × Option Nat

/-- An access that fails: DONE, the address in telemetry (log 27). -/
def State.drawFault (s : State) (ctx va : Nat) : Draw := (s.logVa ctx va, some tileDone)

/-- Tile mode (R285, R384): the id at LIST + 4 × CUR, and CUR advanced. -/
def State.drawTile (s : State) (L : Launch) (core : Nat) : Draw :=
  let e := L.entryOf core
  let s := s.fillVa none L.ctx e 16
  match s.engReadN none L.ctx e 8, s.engReadN none L.ctx (e + 8) 8 with
  | .error (4, _), _ => (s, none)
  | _, .error (4, _) => (s, none)
  | .error x, _ => s.drawFault L.ctx x.2
  | _, .error x => s.drawFault L.ctx x.2
  | .ok d0, .ok d1 =>
    let list := bitsN d0 51 0
    let count := bitsN d1 31 0
    let cur := bitsN d1 63 32
    let put (s : State) (n : Nat) : Except EngErr State := s.engWrite none L.ctx (e + 12) (leBytes 4 n)
    let s := if count ≤ cur then s else s.fillVa none L.ctx (list + 4 * cur) 4
    if count ≤ cur then (s, some tileDone)
    else match s.engReadN none L.ctx (list + 4 * cur) 4 with
      | .error (4, _) => (s, none)
      | .error x =>
        match put s count with
        | .ok s' => s'.drawFault L.ctx x.2
        | .error _ => s.drawFault L.ctx x.2
      | .ok id =>
        match put s (cur + 1) with
        | .ok s' => (s', some id)
        | .error x => s.drawFault L.ctx x.2

/-- The range [lo, hi) of a core, as one number (R385). -/
def rangeOf (lo hi : Nat) : List Byte := leBytes 4 lo ++ leBytes 4 hi

/-- The first core with a range of two or more: the victim, its range (R286). -/
def State.victim (s : State) (L : Launch) : List Nat → Option (Nat × Nat × Nat)
  | [] => none
  | v :: r =>
    match s.engReadN none L.ctx (L.entryOf v) 8 with
    | .ok d => if bitsN d 31 0 + 2 ≤ bitsN d 63 32 then some (v, bitsN d 31 0, bitsN d 63 32) else s.victim L r
    | .error _ => s.victim L r

/-- The lines of the ranges a draw may look at are filled (R300). -/
def State.fillRanges (s : State) (L : Launch) (cores : List Nat) : State :=
  cores.foldl (fun s v => s.fillVa none L.ctx (L.entryOf v) 8) s

/-- Range mode (R286). -/
def State.drawRange (s : State) (L : Launch) (core : Nat) : Draw :=
  let e := L.entryOf core
  let s := s.fillRanges L [core]
  match s.engReadN none L.ctx e 8 with
  | .error (4, _) => (s, none)
  | .error x => s.drawFault L.ctx x.2
  | .ok d =>
    let lo := bitsN d 31 0
    let hi := bitsN d 63 32
    let put (s : State) (c lo hi : Nat) : Except EngErr State := s.engWrite none L.ctx (L.entryOf c) (rangeOf lo hi)
    if lo < hi then
      match put s core (lo + 1) hi with
      | .ok s' => (s', some lo)
      | .error x => s.drawFault L.ctx x.2
    else
      let others := L.rangeCores.filter (fun v => decide (core < v)) ++ L.rangeCores.filter (fun v => decide (v < core))
      let s := s.fillRanges L others
      match s.victim L others with
      | none => (s, some tileDone)
      | some (v, vlo, vhi) =>
        let m := vlo + ceilDiv (vhi - vlo) 2
        match (put s v vlo m).bind (fun s' => put s' core (m + 1) vhi) with
        | .ok s' => (s', some m)
        | .error x => s.drawFault L.ctx x.2

/-- The memory that a draw of a core touches: addresses and bytes. -/
def State.drawTouches (s : State) (L : Launch) (core : Nat) : List (Nat × Nat) :=
  let e := L.entryOf core
  match L.schedMode with
  | 1 => (e, 16) :: (match s.engReadN none L.ctx e 8, s.engReadN none L.ctx (e + 8) 8 with
    | .ok d0, .ok d1 => if bitsN d1 31 0 ≤ bitsN d1 63 32 then [] else [(bitsN d0 51 0 + 4 * bitsN d1 63 32, 4)]
    | _, _ => [])
  | 2 => (e, 8) :: L.rangeCores.map (fun v => (L.entryOf v, 8))
  | _ => []

/-- NEXTT's completion: one id is drawn from the schedule core's cursor and goes to wA. The draws of one warp are made in
issue order (R293). -/
def State.completeDraw (s : State) (B : Block) (W : Warp) (o : Op) (dst : Nat) : Option State :=
  if (W.opsBefore o.id).any (fun y => match y.kind with
      | .draw _ => true
      | _ => false) || ((s.launch? B.launch).map (fun L => s.anyHeld L.ctx (s.drawTouches L B.sched))).getD false then none
  else
    let r : Draw := match s.launch? B.launch with
      | none => (s, some tileDone)
      | some L => match L.schedMode with
        | 1 => s.drawTile L B.sched
        | 2 => s.drawRange L B.sched
        | _ => (s, some tileDone)
    match r with
    | (_, none) => some (s.poisonOp B W o)
    | (s1, some id) => some (s1.modWarp B.uid W.idx (fun W => W.flagWrite s.fresh o.id (.uni dst) 0 (BitVec.ofNat 32 id)))

end Sys2Proof.Machine
end

