-- ==== Sys2Proof/Machine/Epoch.lean ====
section
/-!
DEFINITION. Epochs (R318): what a boundary does to every signature on the part and to the words of the L1s.
-/
namespace Sys2Proof.Machine

def Op.shift (o : Op) : Op :=
  match o.kind with
  | .pgseal p => { o with kind := .pgseal { p with wrote := p.wrote.map Sig.shift } }
  | _ => o

def Warp.shift (W : Warp) : Warp := { W with sig := W.sig.shift, ops := W.ops.map Op.shift }

def Block.shift (B : Block) : Block :=
  { B with warps := B.warps.map Warp.shift, barriers := B.barriers.map (fun b => { b with
    sig := b.sig.shift, closing := b.closing.map (fun c => { c with sig := c.sig.shift }) }) }

/-- A table of signatures, shifted; an empty one is not listed. -/
def shiftTab (t : Tab Sig) : Tab Sig := (t.map (fun e => (e.1, e.2.shift))).filter (fun e => e.2 != Sig.empty)

def KvEngine.shift (g : KvEngine) : KvEngine :=
  { g with
    queue := g.queue.map (fun r => { r with sig := r.sig.shift })
    phase := match g.phase with
      | .swap e k v sum d3 x => .swap e k v sum d3 x.shift
      | p => p }

def CopyEntry.shift : CopyEntry → CopyEntry
  | .request q => .request { q with sig := q.sig.shift }
  | .fence o m => .fence o m

/-- Every signature on the part: previous := current, current := empty; an L1 word not owned outlives one boundary only. -/
def State.shiftAll (s : State) : State :=
  { s with
    blocks := s.blocks.map Block.shift
    images := s.images.map (fun m => { m with blk := m.blk.shift })
    allocs := s.allocs.map (fun a => { a with objSig := shiftTab a.objSig })
    launches := s.launches.map (fun L => { L with
      gridSig := L.gridSig.shift, snapSig := L.snapSig.shift, token := { L.token with sig := L.token.sig.shift } })
    cores := s.cores.map (fun e => (e.1, { e.2 with copyQ := e.2.copyQ.map (fun q => q.map CopyEntry.shift) }))
    kv := { s.kv with engines := s.kv.engines.map KvEngine.shift }
    tup := { s.tup with
      sent := s.tup.sent.map (fun r => { r with sig := r.sig.shift })
      stored := s.tup.stored.map (fun u => { u with sig := u.sig.shift })
      replies := s.tup.replies.map (fun r => { r with sig := r.sig.shift }) }
    peers := { s.peers with psig := shiftTab s.peers.psig }
    mem := { s.mem with
      lineSig := shiftTab s.mem.lineSig
      l1 := (s.mem.l1.filter (fun e => s.mem.ownerOf e.loc == some e.core || e.age == 0)).map (fun e =>
        if s.mem.ownerOf e.loc = some e.core then e else { e with age := 1 }) } }

/-- n boundaries pass; after two, more change nothing. -/
def State.passEpochs (n : Nat) (s : State) : State :=
  let s1 : State := { s with epoch := s.epoch + n }
  match n with
  | 0 => s
  | 1 => s1.shiftAll
  | _ => s1.shiftAll.shiftAll

end Sys2Proof.Machine
end

