-- ==== Sys2Proof/Machine/KvAge.lean ====
section
/-!
DEFINITION. Key-value page aging (R403 to R419, R461, R469, R470): the KV words at issue and at completion, the demotion
engines step by step, and the retirement of old slots.
-/
namespace Sys2Proof.Machine

/-! ## Statuses (Table 15.4) -/

def kvOk : Nat := 0
def kvBadrec : Nat := 3
def kvNotvalid : Nat := 5
def kvBadentry : Nat := 6
def kvPinned : Nat := 7
def kvUnsealed : Nat := 8
def kvNostep : Nat := 9
def kvExhausted : Nat := 10
def kvChanged : Nat := 11
def kvBadpool : Nat := 12

/-! ## The words at issue (R407, R408) -/

/-- Every earlier store and posted atomic of the warp has been performed. -/
def Warp.storesDone (W : Warp) : Bool := W.ops.all (fun y => !y.kind.isStore || y.performed)

def State.engine (s : State) (die : Nat) : KvEngine := nth KvEngine.reset s.kv.engines die

def State.modEngine (s : State) (die : Nat) (f : KvEngine → KvEngine) : State :=
  { s with kv := { s.kv with engines := s.kv.engines.modify die f } }

/-- The engine of the core's die has a free place in its queue (R408). -/
def State.kvRoom (s : State) (core : Nat) : Bool := decide ((s.engine (coreDie core)).queue.length < 16)

/-- A KV word: its checks, then, once its wait is over and its engine has room, its operation. -/
def kvBody (f : FmtS) (op : Nat) (c : Iss) (s : State) : Res :=
  let va := (c.uni64 f.b.toNat).toNat
  let pool := if op = 1 || op = 4 then (c.uni64 f.c.toNat).toNat else 0
  let die := coreDie c.W.core
  match checkVa c va (if op = 0 then 64 else 32) with
  | some r => r
  | none =>
    match checkVa c pool 64 with
    | some r => r
    | none =>
      let queued := op = 0 || op = 1 || op = 4
      if !c.W.storesDone || (queued && !s.kvRoom c.W.core) then .stall
      else
        let id := s.nextUid
        let d := uniDst f.a
        let s1 := s.enter c (.kv op d va pool none) f.setf [] [] (d.toList.map Loc.uni)
        .ok (if queued then s1.modEngine die (fun g => { g with queue := g.queue ++ [⟨id, op, c.B.ctx, va, pool, c.W.sig⟩] })
          else s1)

def execDsweep (f : FmtS) (s : State) : Host.Outcome State Fault Refusal := issue (.dsweep f) (kvBody f 0) s
def execPgrecall (f : FmtS) (s : State) : Host.Outcome State Fault Refusal := issue (.pgrecall f) (kvBody f 1) s
def execPgpin (f : FmtS) (s : State) : Host.Outcome State Fault Refusal := issue (.pgpin f) (kvBody f 2) s
def execPgunpin (f : FmtS) (s : State) : Host.Outcome State Fault Refusal := issue (.pgunpin f) (kvBody f 3) s
def execPgdemote (f : FmtS) (s : State) : Host.Outcome State Fault Refusal := issue (.pgdemote f) (kvBody f 4) s

/-! ## Pools and rings (R404, R405) -/

/-- The pool descriptor as read: D and MODE, or BADPOOL (Table 15.2). -/
def State.poolOf (s : State) (ctx pool : Nat) : Except EngErr (Nat × Bool) :=
  match s.engRead none ctx pool 256 with
  | .error e => .error e
  | .ok bs =>
    let d := dwordAt bs
    let reserved := bitsN (d 0) 63 3 != 0 || (List.range 6).any (fun i => d (2 + i) != 0) ||
      (List.range 6).any (fun i => d (26 + i) != 0)
    let rings := (List.range 9).all (fun r => bitsN (d (8 + 2 * r)) 63 52 == 0 && !bitN (d (8 + 2 * r)) 5 &&
      decide (4 ≤ d (8 + 2 * r) % 32) && decide (d (8 + 2 * r) % 32 ≤ 20))
    if reserved || d 0 % 4 = 3 || !rings then .error (kvBadpool, 0)
    else .ok (64 * 2 ^ (d 0 % 4), bitN (d 0) 2)

/-- RING and RSIZE of a ring's control, and the address of its HEAD. -/
def State.ringCtl (s : State) (ctx pool ring : Nat) : Except EngErr (Nat × Nat × Nat) :=
  (s.engReadN none ctx (pool + 64 + 16 * ring) 8).map (fun x =>
    (bitsN x 51 6 * 64, x % 32, pool + 72 + 16 * ring))

/-- The address of slot word i. -/
def slotWordAt (base rsize i : Nat) : Nat := base + 8 * (i % 2 ^ rsize)

/-- A ring's control dwords, and the n slot words at its HEAD, as far as they can be read: addresses and bytes. -/
def State.ringReads (s : State) (ctx pool ring n : Nat) : List (Nat × Nat) :=
  (pool + 64 + 16 * ring, 16) :: (match s.ringCtl ctx pool ring with
    | .error _ => []
    | .ok (base, rsize, head) => match s.engReadN none ctx head 4 with
      | .error _ => []
      | .ok h => (List.range n).map (fun i => (slotWordAt base rsize ((h + i) % 2 ^ 32), 8)))

/-- The address of the slot word at a position of a ring, if its control can be read. -/
def State.slotAt (s : State) (ctx pool ring t : Nat) : List (Nat × Nat) :=
  match s.ringCtl ctx pool ring with
  | .error _ => []
  | .ok (base, rsize, _) => [(slotWordAt base rsize t, 8)]

/-- The slices fill the lines of some memory of a context. -/
def State.fillVas (s : State) (ctx : Nat) (l : List (Nat × Nat)) : State := l.foldl (fun s x => s.fillVa none ctx x.1 x.2) s

/-- Pop n slots as one step at the ring's home slice; none when the ring is exhausted. -/
def State.pop (s : State) (ctx pool ring n : Nat) : Except EngErr (Option (List Nat) × State) := do
  let (base, rsize, head) ← s.ringCtl ctx pool ring
  let h ← s.engReadN none ctx head 4
  let ws ← (List.range n).mapM (fun i => s.engReadN none ctx (slotWordAt base rsize ((h + i) % 2 ^ 32)) 8)
  if ws.any (fun w => bitN w 0 && bitsN w 63 52 != 0) then
    .error (2, slotWordAt base rsize ((h + ((List.range n).find? (fun i => bitsN (nth 0 ws i) 63 52 != 0)).getD 0) % 2 ^ 32))
  else if ws.all (fun w => bitN w 0) then
    let s1 ← ((List.range n).zip ws).foldlM (fun (s : State) iw =>
      s.engWrite none ctx (slotWordAt base rsize ((h + iw.1) % 2 ^ 32)) (leBytes 8 (iw.2 - iw.2 % 2))) s
    let s2 ← s1.engWrite none ctx head (leBytes 4 (h + n))
    .ok (some (ws.map (fun w => bitsN w 51 6 * 64)), s2)
  else .ok (none, s)

/-- Add 1, staying at the greatest 32-bit value, to a counter of the pool. -/
def State.bumpPool (s : State) (ctx va : Nat) : Except EngErr State := do
  let x ← s.engReadN none ctx va 4
  s.engWrite none ctx va (leBytes 4 (min (x + 1) 0xFFFFFFFF))

/-- The first half of a push: a position reserved by an add of 1 to TAIL. -/
def State.pushTail (s : State) (ctx pool ring : Nat) : Except EngErr (Nat × State) := do
  let (_, _, head) ← s.ringCtl ctx pool ring
  let t ← s.engReadN none ctx (head + 4) 4
  let s1 ← s.engWrite none ctx (head + 4) (leBytes 4 (t + 1))
  .ok (t, s1)

/-- Its second half: the slot word at the position; the slot is dropped and counted when that is full. -/
def State.pushWord (s : State) (ctx pool ring t slot : Nat) : Except EngErr State := do
  let (base, rsize, _) ← s.ringCtl ctx pool ring
  let at' := slotWordAt base rsize t
  let old ← s.engReadN none ctx at' 8
  if bitN old 0 then s.bumpPool ctx (pool + 12)
  else s.engWrite none ctx at' (leBytes 8 (bitsN slot 51 6 * 64 + 1))

/-- The memory that the next half of a push touches. -/
def State.pushTouches (s : State) (ctx pool ring : Nat) : Option Nat → List (Nat × Nat)
  | none => s.ringReads ctx pool ring 0
  | some t => (pool + 12, 4) :: s.ringReads ctx pool ring 0 ++ s.slotAt ctx pool ring t

/-- The next half of the pushes of some slots (ring and address), in order: what is left of them, the position reserved for the
first, and the fault met, by which that push is dropped. -/
def State.pushStep (s : State) (ctx pool : Nat) (slots : List (Nat × Nat)) (pos : Option Nat) :
    State × List (Nat × Nat) × Option Nat × Option EngErr :=
  match slots with
  | [] => (s, [], none, none)
  | (ring, slot) :: rest =>
    let s := s.fillVas ctx (s.pushTouches ctx pool ring pos)
    match pos with
    | none =>
      match s.pushTail ctx pool ring with
      | .error e => (s, rest, none, some e)
      | .ok (t, s1) => (s1, slots, some t, none)
    | some t =>
      match s.pushWord ctx pool ring t slot with
      | .error e => (s, rest, none, some e)
      | .ok s1 => (s1, rest, none, none)

/-! ## The new pages of a demotion (R412) -/

/-- A row's bytes from its element codes and scale bytes. -/
def rowOfCodes (w : Nat) (codes scales : List Nat) : List Byte :=
  leBytes (codes.length * w / 8) ((codes.zipIdx.map (fun x => x.1 % 2 ^ w * 2 ^ (x.2 * w))).foldl (· + ·) 0) ++
  scales.flatMap (leBytes 1)

def FVal.isNanV : FVal → Bool
  | .nan _ _ => true
  | _ => false

/-- Codes merged back: each NaN takes its own code, the rest the quantised ones in order. -/
def mergeCodes : List FVal → List Nat → List Nat
  | [], _ => []
  | .nan sg _ :: r, q => (if sg then 0xFF else 0x7F) :: mergeCodes r q
  | _ :: r, [] => 0 :: mergeCodes r []
  | _ :: r, x :: q => x :: mergeCodes r q

/-- Cut a list into pieces of n. -/
def chunks {α : Type} (n : Nat) (l : List α) : List (List α) :=
  (List.range (l.length / n)).map (fun i => (l.drop (i * n)).take n)

/-- BF16 to E4M3: one block over the page, its NaNs set aside, an infinity counted as ±448 × 2¹²⁷. -/
def quantPage (raise : Bool) (d : Nat) (rows : List (List FVal)) : Nat × List Byte :=
  let xs := rows.flatten
  let q := qblock 2 raise ((xs.filter (fun v => !v.isNanV)).map (fun v => match v with
    | .inf sg => .fin sg 448 127
    | w => w))
  (q.1, (chunks d (mergeCodes xs q.2)).flatMap (fun cs => rowOfCodes 8 cs []))

/-- To an MX format: the 32-element blocks of each row. -/
def quantRows (tag : Nat) (raise : Bool) (rows : List (List FVal)) : List Byte :=
  rows.flatMap (fun row =>
    let qs := (chunks 32 row).map (qblock (tagType tag) raise)
    rowOfCodes (tagWidth tag) (qs.flatMap (·.2)) (qs.map (·.1)))

/-- The new page in a tag: its scale code (0 for the MX tags) and its bytes. -/
def quantTo (tag : Nat) (raise : Bool) (d : Nat) (rows : List (List FVal)) : Nat × List Byte :=
  if tag = 1 then quantPage raise d rows else (0, quantRows tag raise rows)

/-! ## Steps (R411, R413 to R415) -/

/-- The tier and tag a step leads to (Table 15.6; R414 for a recall). -/
def kvTarget (op : Nat) (e : Snap) : Nat × Nat :=
  if op = 1 then (0, e.tag) else if e.tag < 3 then (0, e.tag + 1) else (1, 3)

def kvRing (op : Nat) (e : Snap) : Nat := 4 * (kvTarget op e).1 + (kvTarget op e).2

/-- The step changes the format. -/
def kvDemotes (op : Nat) (e : Snap) : Bool := (kvTarget op e).2 != e.tag

/-- What a step has popped and not swapped in. -/
def poppedSlots (op : Nat) (e : Snap) (k v : Nat) (sum : Option Nat) : List (Nat × Nat) :=
  [(kvRing op e, k), (kvRing op e, v)] ++ (sum.map (fun x => (8, x))).toList

/-- The bytes a step writes, by 4-byte word, with the new dword 3 (R412, R413 step 3). A recall leaves dword 3 as it is (R414); the
scales of tags 2 and 3 are 0. A summary more than 2^45 bytes from the entry has its offset modulo 2^40 (log 64). -/
def State.kvPlan (s : State) (ctx op : Nat) (e : Snap) (k v : Nat) (sum : Option Nat) (d : Nat) (raise : Bool) :
    Except EngErr (List (Nat × List Byte) × Nat) :=
  let tag := (kvTarget op e).2
  match sum with
  | some sm => do
    let kr ← s.readPage none ctx e false d
    let vr ← s.readPage none ctx e true d
    let kq := quantTo tag raise d kr
    let vq := quantTo tag raise d vr
    let off := modN 40 (((sm : Int) - (e.va / 64 * 64 : Nat)) / 64)
    .ok (piecesOf k kq.2 ++ piecesOf v vq.2 ++ piecesOf sm (summaryOf d (pageRows tag d kq.1 kq.2)),
      off * 2 ^ 24 + (if tag = 1 then vq.1 * 256 + kq.1 else 0))
  | none => do
    let n := pageBytes e.tag d
    let kb ← s.engRead none ctx e.kaddr n
    let vb ← s.engRead none ctx e.vaddr n
    .ok (piecesOf k kb ++ piecesOf v vb, if op = 1 || tag < 2 then e.d3 else e.d3 / 2 ^ 24 * 2 ^ 24)

/-- The swap at the entry's home slice (R413 step 4): done, or the entry has changed. It is a release: a wake it causes acquires the
signature (R216, R316). -/
def State.kvSwap (s : State) (ctx op : Nat) (e : Snap) (k v d3 : Nat) (g : Sig) : Except EngErr (State × Bool) :=
  match s.access none ctx e.va .rmw with
  | .mem loc =>
    let now := s.mem.snapAt e.va loc
    if s.mem.poisoned loc 32 then .error (4, e.va)
    else if now.d0 = e.d0 && now.d1 = e.d1 && now.d3 = e.d3 && now.gen = e.gen then
      let t := kvTarget op e
      let fl := t.2 * 16 + t.1 * 8 + e.d0 % 8
      let bs := leBytes 8 (k / 256 * 2 ^ 20 + fl) ++ leBytes 8 (v / 256 * 2 ^ 20 + fl) ++
        leBytes 8 (bitsN now.d2 63 48 * 2 ^ 48 + (e.gen + 1) % 65536 * 2 ^ 32 + now.mass) ++ leBytes 8 d3
      .ok (({ s with mem := s.mem.attach (lineOf loc) g } : State).writeLoc loc bs, true)
    else .ok (s, false)
  | .fault => .error (1, e.va)
  | _ => .error (2, e.va)

/-! ## The engine (R408, R410, R413) -/

/-- The sweep record's fields (Table 15.5). -/
def recDw (g : KvEngine) (i : Nat) : Nat := nth 0 g.record i
def KvEngine.hi (g : KvEngine) : Nat := bitsN (recDw g 2) 63 32
def KvEngine.wprot (g : KvEngine) : Nat := bitsN (recDw g 3) 27 8
/-- T1 to T4, by tag. -/
def KvEngine.threshold (g : KvEngine) (tag : Nat) : Nat :=
  match tag with
  | 0 => bitsN (recDw g 4) 31 0
  | 1 => bitsN (recDw g 4) 63 32
  | 2 => bitsN (recDw g 5) 31 0
  | _ => bitsN (recDw g 5) 63 32

/-- The record breaks Table 15.5. -/
def sweepBad (d : Nat → Nat) : Bool :=
  let lo := bitsN (d 2) 31 0
  let hi := bitsN (d 2) 63 32
  bitsN (d 0) 63 52 != 0 || bitsN (d 1) 63 52 != 0 || bitsN (d 3) 63 28 != 0 || bitsN (d 3) 7 5 != 0 || d 6 != 0 ||
  d 7 != 0 || decide (hi ≤ lo) || decide (2 ^ 20 < hi - lo) || d 0 % 32 != 0 || d 1 % 64 != 0

/-- The counter of a step's result. -/
def KvCounts.step (c : KvCounts) (e : Snap) (status : Nat) : KvCounts :=
  if status = kvExhausted then { c with exhausted := c.exhausted + 1 }
  else if status = kvChanged then { c with changed := c.changed + 1 }
  else match e.tag with
  | 0 => { c with dem1 := c.dem1 + 1 }
  | 1 => { c with dem2 := c.dem2 + 1 }
  | 2 => { c with dem3 := c.dem3 + 1 }
  | _ => { c with moved := c.moved + 1 }

/-- The engine's next phase. -/
def State.kvGo (s : State) (die : Nat) (p : KvPhase) : State := s.modEngine die (fun g => { g with phase := p })

/-- A sweep goes on to its next entry. -/
def State.kvNext (s : State) (die : Nat) (f : KvCounts → KvCounts) : State :=
  s.modEngine die (fun g => { g with phase := .entry, page := g.page + 1, counts := f g.counts })

/-- A step has ended with OK, EXHAUSTED or CHANGED: its readers retire. A recall is none of the steps counted (R411, R454). -/
def State.kvStepEnd (s : State) (die : Nat) (r : KvReq) (e : Snap) (status : Nat) : State :=
  let s0 := s.retireReaders r.id
  let s1 := if status = kvOk && r.op != 1 then s0.count 6 (4 * die + e.tag) else s0
  if r.op = 0 then s1.kvNext die (fun c => c.step e status) else s1.kvGo die (.finish status 0)

/-- The pool a request's steps use. -/
def kvPool (g : KvEngine) (r : KvReq) : Nat := if r.op = 0 then bitsN (recDw g 1) 51 0 else r.pool

/-- The pool is read, each word at some moment since, and checked. -/
def State.kvReadPool (s : State) (die : Nat) (r : KvReq) (since : Nat) : State :=
  let va := kvPool (s.engine die) r
  let s := s.fillVa none r.ctx va 256
  match (s.asOf since).poolOf r.ctx va with
  | .error e => s.kvGo die (.finish e.1 e.2)
  | .ok (d, raise) => s.modEngine die (fun g => { g with phase := .entry, d := d, raise := raise })

/-- Dwords 0 to 7 of the sweep record are read, each word at some moment since, and checked; the pool is next. -/
def State.kvRecord (s : State) (die : Nat) (r : KvReq) (since : Nat) : State :=
  let s := s.fillVa none r.ctx r.va 64
  match (s.asOf since).engRead none r.ctx r.va 64 with
  | .error e => s.kvGo die (.finish e.1 e.2)
  | .ok bs =>
    let d := dwordAt bs
    let s1 := s.modEngine die (fun g => { g with record := (List.range 8).map d, page := bitsN (d 2) 31 0 })
    s1.kvGo die (if sweepBad d then .finish kvBadrec 0 else .pool)

/-- The operation begins: the record and the pool are read and checked. -/
def State.kvStart (s : State) (die : Nat) (r : KvReq) : State :=
  if r.op != 0 then s.kvReadPool die r s.mem.past.length
  else
    let s1 := s.kvRecord die r s.mem.past.length
    if (s1.engine die).phase = .pool then s1.kvReadPool die r s1.mem.past.length else s1

/-- The next entry of a sweep, or the entry of a PGDEMOTE or PGRECALL (R410, R470). -/
def State.kvEntry (s : State) (die : Nat) (g : KvEngine) (r : KvReq) : State :=
  if r.op = 0 && decide (g.hi ≤ g.page) then s.kvGo die (.finish kvOk 0)
  else
    let va := if r.op = 0 then bitsN (recDw g 0) 51 0 + 32 * g.page else r.va
    let s := (s.fillVa none r.ctx va 32).modEngine die (fun g => { g with since := s.mem.past.length })
    match s.snapshot none r.ctx va with
    | .error e => s.kvGo die (.finish e.1 e.2)
    | .ok e =>
      let s1 := if r.op = 0 then s.modEngine die (fun g => { g with counts := { g.counts with visited := g.counts.visited + 1 } })
        else s
      if !e.valid then
        if r.op = 0 then s1.kvNext die (fun c => { c with invalid := c.invalid + 1 }) else s1.kvGo die (.finish kvNotvalid 0)
      else if !(e.flagsOk && e.reservedOk) then s1.kvGo die (.finish kvBadentry 0)
      else
        let s2 := s1.addReader e r.id
        let stop (st : Nat) : State := (s2.retireReaders r.id).kvGo die (.finish st 0)
        if r.op = 0 then s2.kvGo die (.decay e)
        else if r.op = 4 && e.pin then stop kvPinned
        else if r.op = 4 && !e.sealed then stop kvUnsealed
        else if r.op = 4 && e.tier == 1 then stop kvNostep
        else if r.op = 1 && e.tier == 0 then stop kvNostep
        else s2.kvGo die (.pop e)

/-- The decay of MASS as it then stands, and the sweep's test of the entry (R410, R411). -/
def State.kvDecay (s : State) (die : Nat) (g : KvEngine) (r : KvReq) (e : Snap) : State :=
  match s.access none r.ctx (e.va + 16) .rmw with
  | .mem loc =>
    let s := s.fill loc 4
    if s.mem.poisoned loc 4 then (s.retireReaders r.id).kvGo die (.finish 4 (e.va + 16))
    else
      let m := s.mem.readN loc 4 / 2 ^ (recDw g 3 % 32)
      let s1 := s.writeLoc loc (leBytes 4 m)
      if e.pin || !e.sealed || decide (g.hi ≤ g.page + g.wprot) then
        (s1.retireReaders r.id).kvNext die (fun c => { c with prot := c.prot + 1 })
      else if e.tier == 0 && decide (m < g.threshold e.tag) then s1.kvGo die (.pop e)
      else (s1.retireReaders r.id).kvNext die (fun c => { c with nostep := c.nostep + 1 })
  | .fault => (s.retireReaders r.id).kvGo die (.finish 1 (e.va + 16))
  | _ => (s.retireReaders r.id).kvGo die (.finish 2 (e.va + 16))

/-- What a step has popped is back: the pool counts it where `bump` says so, and a fault met ends the operation (R410, R413,
R470). -/
def State.kvBackEnd (s : State) (die : Nat) (g : KvEngine) (r : KvReq) (e : Snap) (err : Option EngErr) (bump : Bool)
    (status : Nat) : State :=
  match err with
  | some x => (s.retireReaders r.id).kvGo die (.finish x.1 x.2)
  | none =>
    let s := if bump then s.fillVa none r.ctx (kvPool g r + 8) 4 else s
    match (if bump then s.bumpPool r.ctx (kvPool g r + 8) else .ok s) with
    | .error x => (s.retireReaders r.id).kvGo die (.finish x.1 x.2)
    | .ok s1 => s1.kvStepEnd die r e status

/-- A step ends without a swap: what it has popped goes back, push by push (R405). -/
def State.kvBack (s : State) (die : Nat) (g : KvEngine) (r : KvReq) (e : Snap) (slots : List (Nat × Nat)) (err : Option EngErr)
    (bump : Bool) (status : Nat) : State :=
  match slots with
  | [] => s.kvBackEnd die g r e err bump status
  | _ => s.kvGo die (.back e slots none err bump status)

/-- The next half of a push of such slots: one that meets a fault is left out, and the first fault is what the operation ends with
(R410, R470). -/
def State.kvPush (s : State) (die : Nat) (g : KvEngine) (r : KvReq) (e : Snap) (slots : List (Nat × Nat)) (pos : Option Nat)
    (err : Option EngErr) (bump : Bool) (status : Nat) : State :=
  match s.pushStep r.ctx (kvPool g r) slots pos with
  | (s1, [], _, x) => s1.kvBackEnd die g r e (err <|> x) bump status
  | (s1, rest, p, x) => s1.kvGo die (.back e rest p (err <|> x) bump status)

/-- A fault in a step: what it has popped goes back, and the operation ends with the fault it met first. -/
def State.kvFail (s : State) (die : Nat) (g : KvEngine) (r : KvReq) (e : Snap) (popped : List (Nat × Nat)) (x : EngErr) : State :=
  (s.retireReaders r.id).kvBack die g r e popped (some x) false 0

/-- A step ends without a swap and without a fault: EXHAUSTED or CHANGED. -/
def State.kvSkip (s : State) (die : Nat) (g : KvEngine) (r : KvReq) (e : Snap) (popped : List (Nat × Nat)) (bump : Bool)
    (status : Nat) : State :=
  s.kvBack die g r e popped none bump status

def State.kvPop (s : State) (die : Nat) (g : KvEngine) (r : KvReq) (e : Snap) : State :=
  let pool := kvPool g r
  let s := s.fillVas r.ctx (s.ringReads r.ctx pool (kvRing r.op e) 2)
  match s.pop r.ctx pool (kvRing r.op e) 2 with
  | .error x => s.kvFail die g r e [] x
  | .ok (none, s1) => s1.kvSkip die g r e [] true kvExhausted
  | .ok (some ws, s1) =>
    let k := nth 0 ws 0
    let v := nth 0 ws 1
    let bad := ws.filter (fun w => w % 256 != 0)
    if !bad.isEmpty then
      s1.kvFail die g r e ((ws.filter (fun w => w % 256 == 0)).map (fun w => (kvRing r.op e, w))) (kvBadpool, 0)
    else s1.kvGo die (if kvDemotes r.op e then .popSum e k v else .write e k v none)

def State.kvPopSum (s : State) (die : Nat) (g : KvEngine) (r : KvReq) (e : Snap) (k v : Nat) : State :=
  let pool := kvPool g r
  let back := poppedSlots r.op e k v none
  let s := s.fillVas r.ctx (s.ringReads r.ctx pool 8 1)
  match s.pop r.ctx pool 8 1 with
  | .error x => s.kvFail die g r e back x
  | .ok (none, s1) => s1.kvSkip die g r e back true kvExhausted
  | .ok (some ws, s1) => s1.kvGo die (.write e k v (some (nth 0 ws 0)))

/-- The pages a step reads, and those it writes with the summary: addresses and bytes. -/
def kvReads (e : Snap) (d : Nat) : List (Nat × Nat) := [(e.kaddr, pageBytes e.tag d), (e.vaddr, pageBytes e.tag d)]
def kvWrites (op : Nat) (e : Snap) (k v : Nat) (sum : Option Nat) (d : Nat) : List (Nat × Nat) :=
  [(k, pageBytes (kvTarget op e).2 d), (v, pageBytes (kvTarget op e).2 d)] ++ (sum.map (fun x => (x, 4 * d))).toList

/-- The pages have been read, each word at some moment since the snapshot; what is to be written is known. -/
def State.kvCompute (s : State) (die : Nat) (g : KvEngine) (r : KvReq) (e : Snap) (k v : Nat) (sum : Option Nat) : State :=
  let s := s.fillVas r.ctx (kvReads e g.d)
  match (s.asOf g.since).kvPlan r.ctx r.op e k v sum g.d g.raise with
  | .error x => s.kvFail die g r e (poppedSlots r.op e k v sum) x
  | .ok (outs, d3) => s.kvGo die (.store e k v sum d3 outs)

/-- What is left of the new pages and the summary is written; the swap will release it, with what the step has read (R310, R413
step 3). -/
def State.kvStore (s : State) (die : Nat) (g : KvEngine) (r : KvReq) (e : Snap) (k v : Nat) (sum : Option Nat) (d3 : Nat)
    (outs : List (Nat × List Byte)) : State :=
  match s.engWriteAll none r.ctx outs with
  | .error x => s.kvFail die g r e (poppedSlots r.op e k v sum) x
  | .ok s1 =>
    let ws := kvWrites r.op e k v sum g.d
    let s2 := ws.foldl (fun s x => s.unpoisonVa none r.ctx x.1 x.2) s1
    let lines := lineOf e.loc :: ((kvPool g r, 256) :: kvReads e g.d ++ ws).flatMap (fun x => s2.linesAt none r.ctx x.1 x.2)
    s2.kvGo die (.swap e k v sum d3 (lines.foldl Sig.add r.sig))

/-- The engine's step after the pops: it reads, computes and writes. -/
def State.kvCopy (s : State) (die : Nat) (g : KvEngine) (r : KvReq) (e : Snap) (k v : Nat) (sum : Option Nat) : State :=
  let s1 := s.kvCompute die g r e k v sum
  match (s1.engine die).phase with
  | .store e k v sum d3 outs => s1.kvStore die g r e k v sum d3 outs
  | _ => s1

def State.kvSwapIn (s : State) (die : Nat) (g : KvEngine) (r : KvReq) (e : Snap) (k v : Nat) (sum : Option Nat) (d3 : Nat)
    (sig : Sig) : State :=
  let s := s.fillVa none r.ctx e.va 32
  match s.kvSwap r.ctx r.op e k v d3 sig with
  | .error x => s.kvFail die g r e (poppedSlots r.op e k v sum) x
  | .ok (s1, false) => s1.kvSkip die g r e (poppedSlots r.op e k v sum) false kvChanged
  | .ok (s1, true) =>
    let old := 4 * e.tier + e.tag
    let slots := [(old, e.kaddr), (old, e.vaddr)] ++ (if sum.isSome then [(8, e.summary)] else [])
    let s2 := s1.kvStepEnd die r e kvOk
    { s2 with kv := { s2.kv with retire := s2.kv.retire ++ [⟨e.loc, e.gen, r.ctx, kvPool g r, slots, none⟩] } }

/-- The sweep report (dwords 8 to 15). -/
def KvEngine.report (g : KvEngine) (status va : Nat) : List Byte :=
  let c := g.counts
  let idx := if status = kvOk then 0 else g.page
  let two (hi lo : Nat) : List Byte := leBytes 4 lo ++ leBytes 4 hi
  two idx status ++ leBytes 8 va ++ two c.invalid c.visited ++ two c.nostep c.prot ++ two c.dem2 c.dem1 ++
  two c.moved c.dem3 ++ two c.changed c.exhausted ++ leBytes 8 0

/-- A status that comes of a fault, whose address is logged (R408). -/
def kvFaults (status : Nat) : Bool := status == 1 || status == 2 || status == 4

/-- The words of a sweep's report. -/
def KvEngine.reportWords (g : KvEngine) (r : KvReq) (status va : Nat) : List (Nat × List Byte) := piecesOf (r.va + 64) (g.report status va)

/-- The operation ends: what is left of a sweep's report, the telemetry, the verdict for the warp's status register. A report that
cannot be written is logged too, and a sweep that had met no fault ends with that one (log 39). -/
def State.kvEnd (s : State) (die : Nat) (r : KvReq) (status va : Nat) (outs : List (Nat × List Byte)) : State :=
  let s0 := s.retireReaders r.id
  let s1 := if kvFaults status then s0.logVa r.ctx va else s0
  let (s2, status) : State × Nat := if r.op != 0 then (s1, status)
    else match s1.engWriteAll none r.ctx outs with
    | .error e => (s1.logVa r.ctx e.2, if status = kvOk then e.1 else status)
    | .ok s' => (s'.unpoisonVa none r.ctx (r.va + 64) 64, status)
  let s3 := s2.modEngine die (fun g => { KvEngine.reset with queue := g.queue.tail })
  match s3.opOwner r.id with
  | none => s3
  | some (B, W, _) => s3.setWarp B.uid (W.modOp r.id (fun o => match o.kind with
      | .kv op d a p _ => { o with kind := .kv op d a p (some status) }
      | _ => o))

def State.kvFinish (s : State) (die : Nat) (g : KvEngine) (r : KvReq) (status va : Nat) : State :=
  s.kvEnd die r status va (g.reportWords r status va)

/-- The memory that the engine's next step touches: addresses and bytes. -/
def State.kvTouches (s : State) (g : KvEngine) (r : KvReq) : List (Nat × Nat) :=
  let pool := kvPool g r
  match g.phase with
  | .start => if r.op != 0 then [(r.pool, 256)]
    else (r.va, 64) :: (match s.engReadN none r.ctx (r.va + 8) 8 with
      | .ok x => [(bitsN x 51 0, 256)]
      | .error _ => [])
  | .reading _ => [(r.va, 64)]
  | .pool => [(pool, 256)]
  | .poolAt _ => [(pool, 256)]
  | .entry => if r.op = 0 && decide (g.hi ≤ g.page) then []
    else [(if r.op = 0 then bitsN (recDw g 0) 51 0 + 32 * g.page else r.va, 32)]
  | .decay e => [(e.va + 16, 4)]
  | .pop e => (pool + 8, 4) :: s.ringReads r.ctx pool (kvRing r.op e) 2
  | .popSum _ _ _ => s.ringReads r.ctx pool 8 1
  | .write e k v sum => kvReads e g.d ++ kvWrites r.op e k v sum g.d
  | .store e k v sum _ _ => kvWrites r.op e k v sum g.d
  | .swap e _ _ _ _ _ => [(e.va, 32)]
  | .back _ slots pos _ _ _ => (pool + 8, 4) :: (match slots with
    | x :: _ => s.pushTouches r.ctx pool x.1 pos
    | [] => [])
  | .finish _ _ => if r.op = 0 then [(r.va + 64, 64)] else []
  | .report _ _ _ => [(r.va + 64, 64)]

/-- DEMOTION_ENGINE_OP: the engine of a die takes its next step in the operation at the head of its queue; it waits for memory that
is held (R296). -/
def execDemotionEngineOp (die : Nat) (s : State) : Host.Outcome State Fault Refusal :=
  let g := s.engine die
  match g.queue with
  | [] => .next s
  | r :: _ =>
    if s.tripped || s.anyHeld r.ctx (s.kvTouches g r) then .next s
    else match g.phase with
    | .start => .next (s.kvStart die r)
    | .reading since => .next (s.kvRecord die r since)
    | .pool => .next (s.kvReadPool die r s.mem.past.length)
    | .poolAt since => .next (s.kvReadPool die r since)
    | .back e slots pos err bump st => .next (s.kvPush die g r e slots pos err bump st)
    | .report st va outs => .next (s.kvEnd die r st va outs)
    | .entry => .next (s.kvEntry die g r)
    | .decay e => .next (s.kvDecay die g r e)
    | .pop e => .next (s.kvPop die g r e)
    | .popSum e k v => .next (s.kvPopSum die g r e k v)
    | .write e k v sum => .next (s.kvCopy die g r e k v sum)
    | .store e k v sum d3 outs => .next (s.kvStore die g r e k v sum d3 outs)
    | .swap e k v sum d3 sig => .next (s.kvSwapIn die g r e k v sum d3 sig)
    | .finish st va => .next (s.kvFinish die g r st va)

/-- What an engine does of a step word by word (R305): part 0 begins the reads of the record or the pool, ends those of the pages, or
begins the report; the parts after it write single 4-byte words. -/
def State.kvPart (s : State) (id i : Nat) : State :=
  match (List.range 4).find? (fun d => ((s.engine d).queue.head?.map (·.id)) == some id) with
  | none => s
  | some die =>
    let g := s.engine die
    let put (r : KvReq) (outs : List (Nat × List Byte)) (j : Nat) (next : List (Nat × List Byte) → KvPhase) : State :=
      match outs[j]? with
      | none => s
      | some p =>
        if s.vaHeld r.ctx p.1 p.2.length then s
        else match s.engWrite none r.ctx p.1 p.2 with
        | .error _ => s
        | .ok s1 => s1.kvGo die (next (outs.eraseIdx j))
    match g.queue with
    | [] => s
    | r :: _ =>
      match i, g.phase with
      | 0, .start => s.kvGo die (if r.op != 0 then .poolAt s.mem.past.length else .reading s.mem.past.length)
      | 0, .pool => s.kvGo die (.poolAt s.mem.past.length)
      | 0, .write e k v sum => if s.anyHeld r.ctx (kvReads e g.d) then s else s.kvCompute die g r e k v sum
      | 0, .finish st va => if r.op = 0 then s.kvGo die (.report st va (g.reportWords r st va)) else s
      | j + 1, .store e k v sum d3 outs => put r outs j (.store e k v sum d3)
      | j + 1, .report st va outs => put r outs j (.report st va)
      | _, _ => s

/-- SLOT_RETIRE_PUSH: the old slots of one step go back, every reader of their generation having retired: the next half of the next
slot's push (R405, R413, R461). One that meets a fault is logged, and its slot dropped. -/
def execSlotRetirePush (entry : Nat) (s : State) : Host.Outcome State Fault Refusal :=
  match s.kv.retire[entry]? with
  | none => .next s
  | some r =>
    let touches := match r.slots with
      | x :: _ => s.pushTouches r.ctx r.pool x.1 r.pos
      | [] => []
    if s.tripped || s.kv.readers.any (fun x => x.ent == r.ent && x.gen == r.gen) || s.anyHeld r.ctx touches then .next s
    else
      let (s1, slots, pos, err) := s.pushStep r.ctx r.pool r.slots r.pos
      let s2 := match err with
        | some e => s1.logVa r.ctx e.2
        | none => s1
      .next { s2 with kv := { s2.kv with retire := match slots with
        | [] => s2.kv.retire.eraseIdx entry
        | _ => setNth s2.kv.retire entry { r with slots := slots, pos := pos } } }

/-! ## Completion (R408, R416) -/

/-- PGPIN and PGUNPIN at the entry's home slice: the state and the status. -/
def State.pinEntry (s : State) (ctx va : Nat) (on : Bool) : State × Nat :=
  let s := s.fillVa none ctx va 32
  match s.snapshot none ctx va with
  | .error e => (s.logVa ctx e.2, e.1)
  | .ok e =>
    if !e.valid then (s, kvNotvalid)
    else if !(e.flagsOk && e.reservedOk) then (s, kvBadentry)
    else
      match s.access none ctx va .rmw with
      | .mem loc =>
        let put (d : Nat) : Nat := if on then d ||| 4 else d - (d / 4 % 2) * 4
        (s.writeLoc loc (leBytes 8 (put e.d0) ++ leBytes 8 (put e.d1)), kvOk)
      | .fault => (s.logVa ctx va, 1)
      | _ => (s.logVa ctx va, 2)

/-- A KV word's completion: its status goes to wA. -/
def State.completeKv (s : State) (B : Block) (W : Warp) (o : Op) (op : Nat) (dst : Option Nat) (va : Nat)
    (status : Option Nat) : Option State :=
  let fin (s : State) (st : Nat) : State :=
    match dst with
    | none => s
    | some n => s.modWarp B.uid W.idx (fun W => W.flagWrite s.fresh o.id (.uni n) 0 (BitVec.ofNat 32 st))
  if op = 2 || op = 3 then
    if s.vaHeld B.ctx va 32 then none else
    let r := s.pinEntry B.ctx va (op == 2)
    some (fin r.1 r.2)
  else status.map (fin s)

end Sys2Proof.Machine
end

