-- ==== Sys2Proof/Machine/Integer.lean ====
section
/-!
DEFINITION. Group 0: integer and logic (R98 to R105, Tables 4.1 to 4.5).
-/
namespace Sys2Proof.Machine

/-! ## The shape of a lane word -/

/-- The effect of a word that writes and pushes a 32-bit result per lane (R77, R95); 4 or another latency. -/
def putPush (lat : Nat) (dst : BitVec 8) (g : Iss → Nat → Word) : Iss → State → Res :=
  onWarp (fun c => (c.W.push c.exec (g c)).putV c.fr lat dst c.exec (g c))

/-- The same for a 64-bit result: the low 32 bits are pushed. -/
def putPush64 (lat : Nat) (dst : BitVec 8) (g : Iss → Nat → Dword) : Iss → State → Res :=
  onWarp (fun c => (c.W.push c.exec (fun l => lo32 (g c l))).putV64 c.fr lat dst c.exec (g c))

/-- The effect of a compare: a predicate, and the pushed mask (R105). -/
def cmpPush (lat : Nat) (dst : BitVec 8) (g : Iss → Nat → Bool) : Iss → State → Res :=
  onWarp (fun c => (c.W.push c.exec (fun l => maskWord (g c l))).writeP lat (dst.toNat % 8) c.exec (g c))

/-- Two 32-bit sources SA and SB. -/
def alu2 (f : FmtA) (g : Word → Word → Word) : Iss → State → Res :=
  putPush 4 f.dst (fun c l => g (c.src f.sa l) (c.srcB f l))

def alu1 (f : FmtA) (g : Word → Word) : Iss → State → Res := putPush 4 f.dst (fun c l => g (c.src f.sa l))

def alu3 (f : FmtA) (g : Word → Word → Word → Word) : Iss → State → Res :=
  putPush 4 f.dst (fun c l => g (c.src f.sa l) (c.srcB f l) (c.src f.sc l))

/-- SA and the extended IMM19 (R100): sign-extended, or zero-extended. -/
def aluS (f : FmtI) (g : Word → Word → Word) : Iss → State → Res :=
  putPush 4 f.dst (fun c l => g (c.src f.sa l) (f.imm.signExtend 32))

def aluZ (f : FmtI) (g : Word → Word → Word) : Iss → State → Res :=
  putPush 4 f.dst (fun c l => g (c.src f.sa l) (f.imm.setWidth 32))

/-! ## The functions of Table 4.1 -/

/-- An exact value clamped to the signed 32-bit range (Table 4.2, SAT). -/
def clampS32 (x : Int) : Word := word (max (-2147483648) (min 2147483647 x))

def imulhS (a b : Word) : Word := word (a.toInt * b.toInt / 2 ^ 32)
def imulhN (a b : Word) : Word := word ((a.toNat * b.toNat / 2 ^ 32 : Nat) : Int)
def iminS (a b : Word) : Word := if a.toInt ≤ b.toInt then a else b
def iminN (a b : Word) : Word := if a.toNat ≤ b.toNat then a else b
def imaxS (a b : Word) : Word := if a.toInt ≤ b.toInt then b else a
def imaxN (a b : Word) : Word := if a.toNat ≤ b.toNat then b else a
def iabs32 (a : Word) : Word := word a.toInt.natAbs
def shl32 (a b : Word) : Word := if b.toNat < 32 then a <<< b.toNat else 0
def shr32 (a b : Word) : Word := if b.toNat < 32 then a >>> b.toNat else 0
def sar32 (a b : Word) : Word := a.sshiftRight (min b.toNat 31)
def rot32 (a b : Word) : Word := a.rotateLeft (b.toNat % 32)

/-- The word whose bit i is f i. -/
def ofBits32 (f : Nat → Bool) : Word := maskOf f

def popc32 (a : Word) : Word := BitVec.ofNat 32 ((List.range 32).filter (fun i => a.getLsbD i)).length
/-- Leading zero bits; 32 for 0. -/
def clz32 (a : Word) : Word :=
  BitVec.ofNat 32 (((List.range 32).takeWhile (fun i => !a.getLsbD (31 - i))).length)
def brev32 (a : Word) : Word := ofBits32 (fun i => a.getLsbD (31 - i))

/-- R101: entry idx = a + 2 b + 4 c of the table, bit by bit. -/
def blut32 (t : BitVec 8) (a b c : Word) : Word :=
  ofBits32 (fun i => t.getLsbD (b2n (a.getLsbD i) + 2 * b2n (b.getLsbD i) + 4 * b2n (c.getLsbD i)))

/-- The position and length fields of BFE and BFI (R102). -/
def bfPos (x : Word) : Nat := bitsN x.toNat 7 0
def bfLen (x : Word) : Nat := min (bitsN x.toNat 15 8) 32

/-- The bit the extraction takes at field index i: bits past 31 are 0, or the sign. -/
def bfeBit (signed : Bool) (a x : Word) (i : Nat) : Bool :=
  let j := bfPos x + i
  if j < 32 then a.getLsbD j else signed && a.getLsbD 31

def bfe32 (signed : Bool) (a x : Word) : Word :=
  if bfLen x = 0 then 0
  else ofBits32 (fun i => if i < bfLen x then bfeBit signed a x i else signed && bfeBit signed a x (bfLen x - 1))

def bfi32 (a b x : Word) : Word :=
  ofBits32 (fun k => if bfPos x ≤ k && k < bfPos x + bfLen x then b.getLsbD (k - bfPos x) else a.getLsbD k)

/-! ## Register forms -/

def execIadd (f : FmtA) (s : State) : Host.Outcome State Fault Refusal :=
  issue (.iadd f)
    (if f.sc = 1 then putPush64 4 f.dst (fun c l => c.src64 f.sa l + c.srcB64 f l)
     else if f.sc = 2 then alu2 f (fun a b => clampS32 (a.toInt + b.toInt))
     else alu2 f (· + ·)) s

def execIsub (f : FmtA) (s : State) : Host.Outcome State Fault Refusal :=
  issue (.isub f)
    (if f.sc = 1 then putPush64 4 f.dst (fun c l => c.src64 f.sa l - c.srcB64 f l)
     else if f.sc = 2 then alu2 f (fun a b => clampS32 (a.toInt - b.toInt))
     else alu2 f (· - ·)) s

def execIadd3 (f : FmtA) (s : State) : Host.Outcome State Fault Refusal :=
  issue (.iadd3 f) (alu3 f (fun a b c => a + b + c)) s

def execImul (f : FmtA) (s : State) : Host.Outcome State Fault Refusal := issue (.imul f) (alu2 f (· * ·)) s

def execImulhS32 (f : FmtA) (s : State) : Host.Outcome State Fault Refusal := issue (.imulhS32 f) (alu2 f imulhS) s

def execImulhN32 (f : FmtA) (s : State) : Host.Outcome State Fault Refusal := issue (.imulhN32 f) (alu2 f imulhN) s

def execImad (f : FmtA) (s : State) : Host.Outcome State Fault Refusal :=
  issue (.imad f) (alu3 f (fun a b c => a * b + c)) s

def execImadwS32 (f : FmtA) (s : State) : Host.Outcome State Fault Refusal :=
  issue (.imadwS32 f) (putPush64 4 f.dst (fun c l =>
    dword ((c.src f.sa l).toInt * (c.srcB f l).toInt + ((c.src64 f.sc l).toNat : Int)))) s

def execImadwN32 (f : FmtA) (s : State) : Host.Outcome State Fault Refusal :=
  issue (.imadwN32 f) (putPush64 4 f.dst (fun c l =>
    dword (((c.src f.sa l).toNat * (c.srcB f l).toNat + (c.src64 f.sc l).toNat : Nat) : Int))) s

def execIminS32 (f : FmtA) (s : State) : Host.Outcome State Fault Refusal := issue (.iminS32 f) (alu2 f iminS) s

def execIminN32 (f : FmtA) (s : State) : Host.Outcome State Fault Refusal := issue (.iminN32 f) (alu2 f iminN) s

def execImaxS32 (f : FmtA) (s : State) : Host.Outcome State Fault Refusal := issue (.imaxS32 f) (alu2 f imaxS) s

def execImaxN32 (f : FmtA) (s : State) : Host.Outcome State Fault Refusal := issue (.imaxN32 f) (alu2 f imaxN) s

def execIabs (f : FmtA) (s : State) : Host.Outcome State Fault Refusal := issue (.iabs f) (alu1 f iabs32) s

def execShl (f : FmtA) (s : State) : Host.Outcome State Fault Refusal := issue (.shl f) (alu2 f shl32) s

def execShr (f : FmtA) (s : State) : Host.Outcome State Fault Refusal := issue (.shr f) (alu2 f shr32) s

def execSar (f : FmtA) (s : State) : Host.Outcome State Fault Refusal := issue (.sar f) (alu2 f sar32) s

def execRot (f : FmtA) (s : State) : Host.Outcome State Fault Refusal := issue (.rot f) (alu2 f rot32) s

def execAndR (f : FmtA) (s : State) : Host.Outcome State Fault Refusal := issue (.andR f) (alu2 f (· &&& ·)) s

def execOrR (f : FmtA) (s : State) : Host.Outcome State Fault Refusal := issue (.orR f) (alu2 f (· ||| ·)) s

def execXorR (f : FmtA) (s : State) : Host.Outcome State Fault Refusal := issue (.xorR f) (alu2 f (· ^^^ ·)) s

def execNotR (f : FmtA) (s : State) : Host.Outcome State Fault Refusal := issue (.notR f) (alu1 f (~~~ ·)) s

/-- R101: the third input is the old value of DST; zero where DST is 0xFC. -/
def execBlut (f : FmtA) (s : State) : Host.Outcome State Fault Refusal :=
  issue (.blut f) (putPush 4 f.dst (fun c l => blut32 f.sc (c.src f.sa l) (c.srcB f l) (c.src f.dst l))) s

def execPopc (f : FmtA) (s : State) : Host.Outcome State Fault Refusal := issue (.popc f) (alu1 f popc32) s

def execClz (f : FmtA) (s : State) : Host.Outcome State Fault Refusal := issue (.clz f) (alu1 f clz32) s

def execBrev (f : FmtA) (s : State) : Host.Outcome State Fault Refusal := issue (.brev f) (alu1 f brev32) s

def execBfeN32 (f : FmtA) (s : State) : Host.Outcome State Fault Refusal := issue (.bfeN32 f) (alu2 f (bfe32 false)) s

def execBfeS32 (f : FmtA) (s : State) : Host.Outcome State Fault Refusal := issue (.bfeS32 f) (alu2 f (bfe32 true)) s

def execBfi (f : FmtA) (s : State) : Host.Outcome State Fault Refusal := issue (.bfi f) (alu3 f bfi32) s

/-- R104: a where the selected predicate holds, else b. -/
def execSel (f : FmtA) (s : State) : Host.Outcome State Fault Refusal :=
  issue (.sel f) (putPush 4 f.dst (fun c l =>
    if c.pred (f.sc.toNat % 8) l != f.sc.getLsbD 3 then c.src f.sa l else c.srcB f l)) s

/-- R103. -/
def execLea (f : FmtA) (s : State) : Host.Outcome State Fault Refusal :=
  issue (.lea f) (putPush64 4 f.dst (fun c l =>
    let b := c.srcB f l
    let e : Dword := if f.sc.getLsbD 4 then b.signExtend 64 else b.setWidth 64
    c.src64 f.sa l + e <<< (f.sc.toNat % 16))) s

/-- The condition field of a predicate destination (Table 4.4). -/
def ccOf (dst : BitVec 8) : BitVec 4 := dst.extractLsb' 3 4

def execIcmp (f : FmtA) (s : State) : Host.Outcome State Fault Refusal :=
  issue (.icmp f) (cmpPush 4 f.dst (fun c l =>
    if f.dst.getLsbD 7 then icmp64 (ccOf f.dst) (c.src64 f.sa l) (c.srcB64 f l)
    else icmp32 (ccOf f.dst) (c.src f.sa l) (c.srcB f l))) s

/-! ## Immediate forms (Table 4.3) -/

def execIaddImm (f : FmtI) (s : State) : Host.Outcome State Fault Refusal := issue (.iaddImm f) (aluS f (· + ·)) s

def execImulImm (f : FmtI) (s : State) : Host.Outcome State Fault Refusal := issue (.imulImm f) (aluS f (· * ·)) s

def execAndImm (f : FmtI) (s : State) : Host.Outcome State Fault Refusal := issue (.andImm f) (aluZ f (· &&& ·)) s

def execOrImm (f : FmtI) (s : State) : Host.Outcome State Fault Refusal := issue (.orImm f) (aluZ f (· ||| ·)) s

def execXorImm (f : FmtI) (s : State) : Host.Outcome State Fault Refusal := issue (.xorImm f) (aluZ f (· ^^^ ·)) s

def execShlImm (f : FmtI) (s : State) : Host.Outcome State Fault Refusal := issue (.shlImm f) (aluZ f shl32) s

def execShrImm (f : FmtI) (s : State) : Host.Outcome State Fault Refusal := issue (.shrImm f) (aluZ f shr32) s

def execSarImm (f : FmtI) (s : State) : Host.Outcome State Fault Refusal := issue (.sarImm f) (aluZ f sar32) s

def execIcmpImm (f : FmtI) (s : State) : Host.Outcome State Fault Refusal :=
  issue (.icmpImm f) (cmpPush 4 f.dst (fun c l => icmp32 (ccOf f.dst) (c.src f.sa l) (f.imm.signExtend 32))) s

end Sys2Proof.Machine
end

