-- ==== Sys2Proof/Machine/Control.lean ====
section
/-!
DEFINITION. Control flow, special registers, predicates, moves, indexed registers, time and random numbers: the format A,
I, L and S words of group 3 but for the W-forms, REP's target and dual words (R82 to R84, R120 to R136).
-/
namespace Sys2Proof.Machine

/-! ## Transfers of control -/

/-- The threads of a mask go to an address. -/
def Warp.goto (W : Warp) (m : Mask) (f : Nat → BitVec 52) : Warp :=
  W.mapThreads (fun l t => if m.getLsbD l then { t with pc := f l } else t)

/-- PC + 8 + 8 × sext(IMM19) (R124), modulo 2⁵²: R124 has no test of the target (DEDUCED, log 51). -/
def branchTarget (pc : BitVec 52) (imm : BitVec 19) : BitVec 52 := pc + 8 + (imm.signExtend 52 <<< 3)

def execBra (f : FmtI) (s : State) : Host.Outcome State Fault Refusal :=
  issue (.bra f) (onWarp (fun c => c.W.goto c.exec (fun _ => branchTarget c.pc f.imm))) s

/-- R125: the return address goes to the pair DST, then the branch is taken. -/
def execCall (f : FmtI) (s : State) : Host.Outcome State Fault Refusal :=
  issue (.call f) (onWarp (fun c =>
    (c.W.putV64 c.fr 4 f.dst c.exec (fun _ => (c.pc + 8).setWidth 64)).goto c.exec
      (fun _ => branchTarget c.pc f.imm))) s

/-- Branch to a 64-bit target per lane, with the tests of R127: bits 63:52 first, then bits 2:0; the deciding test is the
first that any executing lane fails (R467). -/
def branchTo (g : Iss → Nat → Dword) (c : Iss) (s : State) : Res :=
  let high := maskOf (fun l => c.exec.getLsbD l && (g c l).extractLsb' 52 12 != 0)
  let low := maskOf (fun l => c.exec.getLsbD l && (g c l).extractLsb' 0 3 != 0)
  match lowestLane high, lowestLane low with
  | some l, _ => .trap causeMemProt (g c l).toNat high
  | none, some l => .trap causeMisalign (g c l).toNat low
  | none, none => .ok (s.setWarp c.b (c.W.goto c.exec (fun l => (g c l).setWidth 52)))

def execBrx (f : FmtA) (s : State) : Host.Outcome State Fault Refusal :=
  issue (.brx f) (branchTo (fun c l => c.src64 f.sa l)) s

/-- R126: PC + 8 + 8 × s(a). -/
def execBrxRel (f : FmtA) (s : State) : Host.Outcome State Fault Refusal :=
  issue (.brxRel f) (branchTo (fun c l => dword ((c.pc.toNat : Int) + 8 + 8 * (c.src f.sa l).toInt))) s

def execRet (f : FmtS) (s : State) : Host.Outcome State Fault Refusal :=
  issue (.ret f) (branchTo (fun c l => c.src64 f.a l)) s

/-- R136. -/
def execRetH (f : FmtS) (s : State) : Host.Outcome State Fault Refusal :=
  issue (.retH f) (fun c s =>
    if c.W.handler = 0 || c.run &&& ~~~c.W.handler ≠ 0 then .trap causeIllegal 0 0
    else if c.W.trap.ret.extractLsb' 0 3 ≠ 0 then .trap causeMisalign c.W.trap.ret.toNat c.run
    else .ok (s.setWarp c.b ((c.W.goto c.run (fun _ => c.W.trap.ret)).leaveHandler c.run))) s

/-- R19: the executing threads exit; what follows is `afterExit`. -/
def execExit (f : FmtS) (s : State) : Host.Outcome State Fault Refusal :=
  issue (.exit f) (fun c s =>
    .ok ((s.setWarp c.b (c.W.modThreads c.exec (fun t => { t with status := .exited }))).afterExit c.b c.w c.exec c.pc)) s

/-- R22. -/
def execYield (f : FmtS) (s : State) : Host.Outcome State Fault Refusal :=
  issue (.yield f) (onWarp (fun c => c.W.modThreads c.exec (fun t => { t with y := true }))) s

def execNop (f : FmtS) (s : State) : Host.Outcome State Fault Refusal := issue (.nop f) (fun _ s => .ok s) s

/-- R82: the literal is held for the consumer. -/
def execLit (f : FmtL) (s : State) : Host.Outcome State Fault Refusal :=
  issueLit (.lit f) (some f.lit) { body := fun _ s => .ok s } s

/-- R83, R84: a nonzero %repc resumes a sequence; the run's PC stays at the REP word. -/
def execRep (f : FmtS) (s : State) : Host.Outcome State Fault Refusal :=
  issue (.rep f) (onWarp (fun c =>
    { c.W.goto c.run (fun _ => c.pc) with
      repc := if c.W.repc = 0 then BitVec.ofNat 7 (f.a.toNat + 1) else c.W.repc
      rep := some ⟨c.run, f, []⟩ })) s

/-! ## Traps by a word -/

/-- R133: USER for the threads whose predicate is true; NOP when there is none. -/
def execTrap (f : FmtI) (s : State) : Host.Outcome State Fault Refusal :=
  issue (.trap f) (fun c s =>
    if c.exec = 0 then .ok s else .trapAfter causeUser f.imm.toNat c.exec c.exec) s

/-- R134. -/
def execBrk (f : FmtS) (s : State) : Host.Outcome State Fault Refusal :=
  issue (.brk f) (fun c _ => .trapAfter causeBreak 0 c.run c.run) s

/-! ## Special registers (Table 4.14) -/

/-- The thread's logical id: %block × T + local index (R374). -/
def State.logId (s : State) (B : Block) (w l : Nat) : Nat :=
  let l0 := ((s.launch? B.launch).map (fun L => laneExtent L.record)).getD 32
  B.logid * (B.warps.length * l0) + (w * l0 + l)

/-- A special register as lane l reads it. -/
def State.readSr (s : State) (c : Iss) (n l : Nat) : Dword :=
  let t := c.W.thread l
  let nat (x : Nat) : Dword := BitVec.ofNat 64 x
  match n with
  | 0x00 => nat l
  | 0x01 => nat c.w
  | 0x02 => nat c.B.logid
  | 0x03 => nat c.W.core
  | 0x04 => nat (coreCluster c.W.core)
  | 0x05 => nat (coreDie c.W.core)
  | 0x06 => nat (coreClass c.W.core)
  | 0x07 => nat (s.clockOf c.W.core)
  | 0x08 => nat c.B.ctx
  | 0x09 => nat c.B.migcount
  | 0x0A => nat (s.logId c.B c.w l)
  | 0x0B => nat c.W.subp
  | 0x10 => t.fx.setWidth 64
  | 0x11 => nat (((List.range 8).map (fun k => b2n (c.pred k l) * 2 ^ k)).foldl (· + ·) 0)
  | 0x12 => nat (t.ix0.toNat + 256 * t.ix1.toNat)
  | 0x13 => c.W.repc.setWidth 64
  | 0x18 => c.W.trap.cause.setWidth 64
  | 0x19 => c.W.trap.pc.setWidth 64
  | 0x1A => c.W.trap.half.setWidth 64
  | 0x1B => c.W.trap.addr
  | 0x1C => c.W.trap.aux.setWidth 64
  | _ => c.W.trap.ret.setWidth 64

/-- R130: RDSR has latency 4. -/
def execRdsr (f : FmtS) (s : State) : Host.Outcome State Fault Refusal :=
  issue (.rdsr f) (fun c s => .ok (s.setWarp c.b (
    if srWidth f.b.toNat = some 64 then c.W.putV64 c.fr 4 f.a c.exec (s.readSr c f.b.toNat)
    else c.W.putV c.fr 4 f.a c.exec (fun l => lo32 (s.readSr c f.b.toNat l))))) s

/-- R130: a per-lane register in each executing lane; a per-warp one once, from the lowest executing lane. -/
def writeSr (n : Nat) (src : BitVec 8) (c : Iss) : Warp :=
  let lanes (g : Word → Thread → Thread) : Warp :=
    c.W.mapThreads (fun l t => if c.exec.getLsbD l then g (c.src src l) t else t)
  match n with
  | 0x10 => lanes (fun x t => { t with fx := x.setWidth 5 })
  | 0x11 => (List.range 7).foldl (fun W k => W.writeP 0 k c.exec (fun l => (c.src src l).getLsbD k)) c.W
  | 0x12 => lanes (fun x t => { t with ix0 := x.extractLsb' 0 8, ix1 := x.extractLsb' 8 8 })
  | _ =>
    match lowestLane c.exec with
    | none => c.W
    | some l =>
      if n = 0x13 then { c.W with repc := (c.src src l).setWidth 7 }
      else { c.W with trap := { c.W.trap with ret := (c.src64 src l).setWidth 52 } }

def execWrsr (f : FmtS) (s : State) : Host.Outcome State Fault Refusal :=
  issue (.wrsr f) (onWarp (writeSr f.b.toNat f.c)) s

/-! ## Predicates and moves (R120 to R122) -/

def execPset (f : FmtA) (s : State) : Host.Outcome State Fault Refusal :=
  issue (.pset f) (onWarp (fun c => c.W.writeP 4 f.dst.toNat c.exec (fun l => c.src f.sa l != 0))) s

def execPsetAll (f : FmtA) (s : State) : Host.Outcome State Fault Refusal :=
  issue (.psetAll f) (onWarp (fun c =>
    (List.range 7).foldl (fun W k => W.writeP 4 k c.exec (fun l => (c.src f.sa l).getLsbD k)) c.W)) s

/-- A predicate operand: its number in bits 2:0, inverted by bit 3 (R121). -/
def Iss.predArg (c : Iss) (x : BitVec 8) (l : Nat) : Bool := c.pred (x.toNat % 8) l != x.getLsbD 3

def execPlop (f : FmtA) (s : State) : Host.Outcome State Fault Refusal :=
  issue (.plop f) (onWarp (fun c => c.W.writeP 4 f.dst.toNat c.exec (fun l =>
    let a := c.predArg f.sa l
    let b := c.predArg f.sb l
    if f.sc = 0 then a && b else if f.sc = 1 then a || b else a != b))) s

def execMov (f : FmtA) (s : State) : Host.Outcome State Fault Refusal :=
  issue (.mov f) (if f.sc = 1 then putPush64 4 f.dst (fun c l => c.src64 f.sa l)
    else putPush 4 f.dst (fun c l => c.src f.sa l)) s

def execMovi (f : FmtI) (s : State) : Host.Outcome State Fault Refusal :=
  issue (.movi f) (putPush 4 f.dst (fun _ _ => f.imm.signExtend 32)) s

/-! ## Indexed registers (R123) -/

/-- The register number lane l reaches. -/
def ixReg (base : BitVec 8) (sub : BitVec 7) (c : Iss) (l : Nat) : Nat :=
  base.toNat + (if sub = 0 then (c.W.thread l).ix0 else (c.W.thread l).ix1).toNat

/-- REG_BOUNDS by value: the number of the lowest faulting lane and the faulting lanes. -/
def ixBounds (base : BitVec 8) (sub : BitVec 7) (c : Iss) : Option (Nat × Mask) :=
  let m := maskOf (fun l => c.exec.getLsbD l && (decide (c.B.a ≤ ixReg base sub c l) || decide (247 < ixReg base sub c l)))
  (lowestLane m).map (fun l => (ixReg base sub c l, m))

def execLdix (f : FmtS) (s : State) : Host.Outcome State Fault Refusal :=
  issueM (.ldix f)
    { body := onWarp (fun c => c.W.putV c.fr 4 f.a c.exec (fun l => c.W.vAt c.fr (ixReg f.b f.sub c l) l))
      bounds := ixBounds f.b f.sub
      dynReads := fun c => (lanesOf c.exec).map (fun l => .lane (ixReg f.b f.sub c l)) } s

def execStix (f : FmtS) (s : State) : Host.Outcome State Fault Refusal :=
  issueM (.stix f)
    { body := onWarp (fun c => (lanesOf c.exec).foldl (fun W l =>
        W.writeV c.fr 4 (ixReg f.b f.sub c l) (BitVec.ofNat 32 (2 ^ l)) (fun _ => c.src f.a l)) c.W)
      bounds := ixBounds f.b f.sub
      dynWrites := fun c => (lanesOf c.exec).map (fun l => .lane (ixReg f.b f.sub c l)) } s

/-! ## Random numbers and time (R131, R132) -/

def execRng4 (f : FmtS) (s : State) : Host.Outcome State Fault Refusal :=
  issue (.rng4 f) (onWarp (fun c =>
    let b := f.b.toNat
    let r (l : Nat) : Word × Word × Word × Word :=
      philox (c.W.vAt c.fr b l) (c.W.vAt c.fr (b + 1) l) (c.W.vAt c.fr (b + 2) l) (c.W.vAt c.fr (b + 3) l)
        (lo32 (c.src64 f.c l)) (hi32 (c.src64 f.c l))
    let a := f.a.toNat
    ((((c.W.writeV c.fr 12 a c.exec (fun l => (r l).1)).writeV c.fr 12 (a + 1) c.exec (fun l => (r l).2.1)).writeV
      c.fr 12 (a + 2) c.exec (fun l => (r l).2.2.1)).writeV c.fr 12 (a + 3) c.exec (fun l => (r l).2.2.2)))) s

def execRdtime (f : FmtS) (s : State) : Host.Outcome State Fault Refusal :=
  issue (.rdtime f) (fun c s =>
    .ok (s.setWarp c.b (c.W.putV64 c.fr 4 f.a c.exec (fun _ => BitVec.ofNat 64 s.time)))) s

end Sys2Proof.Machine
end

