-- ==== Sys2Proof/Machine/FloatOps.lean ====
section
/-!
DEFINITION. Group 1, floating point (R109 to R112, R55, Tables 4.7 to 4.10), and group 2, conversions (R113 to R119).
-/
namespace Sys2Proof.Machine

/-! ## The shape of a floating-point word -/

/-- The effect of a word that writes and pushes a 32-bit result per lane and raises flags into %fx unless NF = 1. -/
def fpPush (lat : Nat) (dst : BitVec 8) (nf : Bool) (g : Iss → Nat → Coded) : Iss → State → Res :=
  onWarp (fun c =>
    let r (l : Nat) : Word := BitVec.ofNat 32 (g c l).1
    ((c.W.push c.exec r).putV c.fr lat dst c.exec r).raiseFx c.exec nf (fun l => (g c l).2))

/-- The same for a 64-bit result. -/
def fpPush64 (lat : Nat) (dst : BitVec 8) (nf : Bool) (g : Iss → Nat → Coded) : Iss → State → Res :=
  onWarp (fun c =>
    let r (l : Nat) : Dword := BitVec.ofNat 64 (g c l).1
    ((c.W.push c.exec (fun l => lo32 (r l))).putV64 c.fr lat dst c.exec r).raiseFx c.exec nf (fun l => (g c l).2))

def fp1 (lat : Nat) (f : FmtA) (g : Nat → Coded) : Iss → State → Res :=
  fpPush lat f.dst f.nf (fun c l => g (c.src f.sa l).toNat)

def fp2 (lat : Nat) (f : FmtA) (g : Nat → Nat → Coded) : Iss → State → Res :=
  fpPush lat f.dst f.nf (fun c l => g (c.src f.sa l).toNat (c.srcB f l).toNat)

def fp3 (lat : Nat) (f : FmtA) (g : Nat → Nat → Nat → Coded) : Iss → State → Res :=
  fpPush lat f.dst f.nf (fun c l => g (c.src f.sa l).toNat (c.srcB f l).toNat (c.src f.sc l).toNat)

/-- Table 4.8: |x| first, then the sign inverted. -/
def signMod (abs neg : Bool) (x : Nat) : Nat :=
  let y := if abs then x % 2 ^ 31 else x
  if neg then (if y.testBit 31 then y - 2 ^ 31 else y + 2 ^ 31) else y

/-- FADD and FMUL under their modifier byte. -/
def fpMod (f : FmtA) (g : Nat → Nat → Coded) : Iss → State → Res :=
  fp2 6 f (fun a b => g (signMod (f.sc.getLsbD 2) (f.sc.getLsbD 0) a) (signMod (f.sc.getLsbD 3) (f.sc.getLsbD 1) b))

/-! ## FP32 (R109 to R111) -/

def execFadd (f : FmtA) (s : State) : Host.Outcome State Fault Refusal := issue (.fadd f) (fpMod f (fAdd fp32 .rne)) s
def execFaddRz (f : FmtA) (s : State) : Host.Outcome State Fault Refusal := issue (.faddRz f) (fpMod f (fAdd fp32 .rz)) s
def execFaddRu (f : FmtA) (s : State) : Host.Outcome State Fault Refusal := issue (.faddRu f) (fpMod f (fAdd fp32 .ru)) s
def execFaddRd (f : FmtA) (s : State) : Host.Outcome State Fault Refusal := issue (.faddRd f) (fpMod f (fAdd fp32 .rd)) s
def execFmul (f : FmtA) (s : State) : Host.Outcome State Fault Refusal := issue (.fmul f) (fpMod f (fMul fp32 .rne)) s
def execFmulRz (f : FmtA) (s : State) : Host.Outcome State Fault Refusal := issue (.fmulRz f) (fpMod f (fMul fp32 .rz)) s
def execFmulRu (f : FmtA) (s : State) : Host.Outcome State Fault Refusal := issue (.fmulRu f) (fpMod f (fMul fp32 .ru)) s
def execFmulRd (f : FmtA) (s : State) : Host.Outcome State Fault Refusal := issue (.fmulRd f) (fpMod f (fMul fp32 .rd)) s
def execFfma (f : FmtA) (s : State) : Host.Outcome State Fault Refusal := issue (.ffma f) (fp3 6 f (fFma fp32 .rne)) s
def execFfmaRz (f : FmtA) (s : State) : Host.Outcome State Fault Refusal := issue (.ffmaRz f) (fp3 6 f (fFma fp32 .rz)) s
def execFfmaRu (f : FmtA) (s : State) : Host.Outcome State Fault Refusal := issue (.ffmaRu f) (fp3 6 f (fFma fp32 .ru)) s
def execFfmaRd (f : FmtA) (s : State) : Host.Outcome State Fault Refusal := issue (.ffmaRd f) (fp3 6 f (fFma fp32 .rd)) s
def execFmin (f : FmtA) (s : State) : Host.Outcome State Fault Refusal := issue (.fmin f) (fp2 6 f (fMin fp32)) s
def execFmax (f : FmtA) (s : State) : Host.Outcome State Fault Refusal := issue (.fmax f) (fp2 6 f (fMax fp32)) s

/-- R110: a predicate, the pushed mask, and NV. -/
def execFcmp (f : FmtA) (s : State) : Host.Outcome State Fault Refusal :=
  issue (.fcmp f) (onWarp (fun c =>
    let r (l : Nat) : Bool × BitVec 5 := fCmp (bitsN f.dst.toNat 6 3) (c.src f.sa l).toNat (c.srcB f l).toNat
    ((c.W.push c.exec (fun l => maskWord (r l).1)).writeP 6 (f.dst.toNat % 8) c.exec (fun l => (r l).1)).raiseFx
      c.exec f.nf (fun l => (r l).2))) s

def execFclass (f : FmtA) (s : State) : Host.Outcome State Fault Refusal := issue (.fclass f) (fp1 6 f fClass) s

/-! ## Correctly rounded functions (R55) -/

def execFrcp (f : FmtA) (s : State) : Host.Outcome State Fault Refusal := issue (.frcp f) (fp1 12 f fRcp) s
def execFrsq (f : FmtA) (s : State) : Host.Outcome State Fault Refusal := issue (.frsq f) (fp1 12 f fRsq) s
def execFsqrt (f : FmtA) (s : State) : Host.Outcome State Fault Refusal := issue (.fsqrt f) (fp1 12 f fSqrt) s
def execFdiv (f : FmtA) (s : State) : Host.Outcome State Fault Refusal := issue (.fdiv f) (fp2 12 f fDiv) s
def execFex2 (f : FmtA) (s : State) : Host.Outcome State Fault Refusal := issue (.fex2 f) (fp1 12 f fEx2) s
def execFlg2 (f : FmtA) (s : State) : Host.Outcome State Fault Refusal := issue (.flg2 f) (fp1 12 f fLg2) s
def execFsinpi (f : FmtA) (s : State) : Host.Outcome State Fault Refusal := issue (.fsinpi f) (fp1 12 f fSinpi) s
def execFcospi (f : FmtA) (s : State) : Host.Outcome State Fault Refusal := issue (.fcospi f) (fp1 12 f fCospi) s

/-! ## Packed pairs (R42, R112) -/

/-- The two 16-bit elements computed independently, their flags ORed. -/
def packed (g : Nat → Coded) : Coded :=
  ((g 0).1 % 65536 + 65536 * ((g 1).1 % 65536), (g 0).2 ||| (g 1).2)

/-- Element e of a packed register. -/
def half16 (x e : Nat) : Nat := x / 65536 ^ e % 65536

def packed2 (g : Nat → Nat → Coded) (a b : Nat) : Coded := packed (fun e => g (half16 a e) (half16 b e))
def packed3 (g : Nat → Nat → Nat → Coded) (a b c : Nat) : Coded :=
  packed (fun e => g (half16 a e) (half16 b e) (half16 c e))

def execHadd2F16 (f : FmtA) (s : State) : Host.Outcome State Fault Refusal :=
  issue (.hadd2F16 f) (fp2 6 f (packed2 (fAdd fp16 .rne))) s
def execHmul2F16 (f : FmtA) (s : State) : Host.Outcome State Fault Refusal :=
  issue (.hmul2F16 f) (fp2 6 f (packed2 (fMul fp16 .rne))) s
def execHfma2F16 (f : FmtA) (s : State) : Host.Outcome State Fault Refusal :=
  issue (.hfma2F16 f) (fp3 6 f (packed3 (fFma fp16 .rne))) s
def execHadd2Bf16 (f : FmtA) (s : State) : Host.Outcome State Fault Refusal :=
  issue (.hadd2Bf16 f) (fp2 6 f (packed2 (fAdd bf16 .rne))) s
def execHmul2Bf16 (f : FmtA) (s : State) : Host.Outcome State Fault Refusal :=
  issue (.hmul2Bf16 f) (fp2 6 f (packed2 (fMul bf16 .rne))) s
def execHfma2Bf16 (f : FmtA) (s : State) : Host.Outcome State Fault Refusal :=
  issue (.hfma2Bf16 f) (fp3 6 f (packed3 (fFma bf16 .rne))) s

/-! ## Conversions (R114 to R119) -/

/-- CVT (R114, R115): the slot SEL of SA at the source's width, or the pair SA. -/
def cvtBody (f : FmtA) (mode : RMode) : Iss → State → Res :=
  let dt := f.sb.toNat % 32
  let st := f.sc.toNat % 32
  let sel := bitsN f.sc.toNat 6 5
  let conv (c : Iss) (l : Nat) : Coded :=
    let x := if typeWidth st = 64 then (c.src64 f.sa l).toNat
      else (c.src f.sa l).toNat / 2 ^ (sel * typeWidth st) % 2 ^ typeWidth st
    cvt st dt mode (f.sb.getLsbD 5) (f.sb.getLsbD 6) x
  if typeWidth dt = 64 then fpPush64 6 f.dst f.nf conv else fpPush 6 f.dst f.nf conv

def execCvt (f : FmtA) (s : State) : Host.Outcome State Fault Refusal := issue (.cvt f) (cvtBody f .rne) s
def execCvtRz (f : FmtA) (s : State) : Host.Outcome State Fault Refusal := issue (.cvtRz f) (cvtBody f .rz) s
def execCvtRu (f : FmtA) (s : State) : Host.Outcome State Fault Refusal := issue (.cvtRu f) (cvtBody f .ru) s
def execCvtRd (f : FmtA) (s : State) : Host.Outcome State Fault Refusal := issue (.cvtRd f) (cvtBody f .rd) s

/-- x with its slot i of w bits holding v. -/
def putSlot (w i x v : Nat) : Nat := x - (x / 2 ^ (i * w) % 2 ^ w) * 2 ^ (i * w) + (v % 2 ^ w) * 2 ^ (i * w)

/-- R116: two codes into slots 2 POS and 2 POS + 1 of the old DST. -/
def execPack (f : FmtA) (s : State) : Host.Outcome State Fault Refusal :=
  issue (.pack f) (fpPush 6 f.dst f.nf (fun c l =>
    let t := f.sc.toNat % 8
    let w := typeWidth t
    let pos := bitsN f.sc.toNat 5 3
    let a := cvt 0x10 t .rne (f.sc.getLsbD 6) false (c.src f.sa l).toNat
    let b := cvt 0x10 t .rne (f.sc.getLsbD 6) false (c.src f.sb l).toNat
    (putSlot w (2 * pos + 1) (putSlot w (2 * pos) (c.src f.dst l).toNat a.1) b.1, a.2 ||| b.2))) s

/-- R117. -/
def execUnpack (f : FmtA) (s : State) : Host.Outcome State Fault Refusal :=
  issue (.unpack f) (fpPush 6 f.dst f.nf (fun c l =>
    let t := f.sc.toNat % 8
    let w := typeWidth t
    let code := (c.src f.sa l).toNat / 2 ^ (bitsN f.sc.toNat 5 3 * w) % 2 ^ w
    let r := elemTo32 t code (if f.sc.getLsbD 6 then some ((c.src f.sb l).toNat % 256) else none)
    (r.1, r.2 ||| (if t != 7 && (fmtOf t).isSnan code then fxNV else 0)))) s

/-- R118: one block of the 32 lanes, absent lanes counting as +0. -/
def execQblk (f : FmtA) (s : State) : Host.Outcome State Fault Refusal :=
  issue (.qblk f) (putPush 12 f.dst (fun c l =>
    let r := qblock (f.sc.toNat % 8) (f.sc.getLsbD 3) ((List.range 32).map (fun k =>
      if c.exec.getLsbD k then fp32.value (c.src f.sa k).toNat else .fin false 0 0))
    BitVec.ofNat 32 (nth 0 r.2 l + 256 * r.1))) s

/-- R119. -/
def execDqblk (f : FmtA) (s : State) : Host.Outcome State Fault Refusal :=
  issue (.dqblk f) (putPush 12 f.dst (fun c l =>
    let a := (c.src f.sa l).toNat
    BitVec.ofNat 32 (elemTo32 (f.sc.toNat % 8) (a % 256) (some (bitsN a 15 8))).1)) s

end Sys2Proof.Machine
end

