-- ==== Sys2Proof/Machine/Collective.lean ====
section
/-!
DEFINITION. Warp collectives (R164 to R171, R52 to R54): the executing lanes exchange values; source lanes are read as they
stand (R165).
-/
namespace Sys2Proof.Machine

/-! ## XLANE (R166) -/

/-- The lane that lane i reads under mode, width 2^wl and index b; its own outside the segment. -/
def xlaneSource (mode wl i b : Nat) : Nat :=
  let w := 2 ^ wl
  let base := i - i % w
  match mode with
  | 0 => if b < w then base + b else i
  | 1 => if b ≤ i - base then i - b else i
  | 2 => if b < base + w - i then i + b else i
  | _ => if b < w then Nat.xor i b else i

def xlaneFrom (f : FmtA) (c : Iss) (l : Nat) : Nat :=
  xlaneSource (f.sc.toNat % 4) (bitsN f.sc.toNat 4 2) l (c.src f.sb l).toNat

def execXlane (f : FmtA) (s : State) : Host.Outcome State Fault Refusal :=
  issueM (.xlane f)
    { body := onWarp (fun c => c.W.putV c.fr 6 f.dst c.exec (fun l => c.src f.sa (xlaneFrom f c l)))
      readMask := fun c => c.exec ||| maskOf (fun j => (lanesOf c.exec).any (fun l => xlaneFrom f c l == j)) } s

/-! ## PCONS and PEERS (R167, R168) -/

/-- The executing lanes in which pa' is true. -/
def consMask (f : FmtA) (c : Iss) : Mask := maskOf (fun l => c.exec.getLsbD l && c.predArg f.sa l)

def execPcons (f : FmtA) (s : State) : Host.Outcome State Fault Refusal :=
  issue (.pcons f) (onWarp (fun c =>
    let m := consMask f c
    let pd (v : Bool) : Warp := c.W.writeP 6 f.dst.toNat c.exec (fun _ => v)
    match f.sc.toNat with
    | 0 => pd (m == c.exec)
    | 1 => pd (m != 0)
    | 2 => pd (m == c.exec || m == 0)
    | _ => c.W.putV c.fr 6 f.dst c.exec (fun _ => m))) s

/-- The lanes of E whose value equals lane i's. -/
def peersMask (f : FmtA) (c : Iss) (i : Nat) : Mask :=
  let v (l : Nat) : Dword := if f.sc.getLsbD 1 then c.src64 f.sa l else (c.src f.sa l).setWidth 64
  maskOf (fun l => c.exec.getLsbD l && v l == v i)

def execPeers (f : FmtA) (s : State) : Host.Outcome State Fault Refusal :=
  issue (.peers f) (onWarp (fun c =>
    if f.sc.getLsbD 0 then
      let all := (lanesOf c.exec).all (fun l => peersMask f c l == c.exec)
      (c.W.putV c.fr 12 f.dst c.exec (fun _ => if all then c.exec else 0)).writeP 12 (bitsN f.sc.toNat 4 2) c.exec
        (fun _ => all)
    else c.W.putV c.fr 12 f.dst c.exec (peersMask f c))) s

/-! ## Reductions and scans (R52 to R54, R169, R170, Table 6.1) -/

/-- The integer operation OP and its identity. -/
def redOp (op : Nat) (a b : Word) : Word :=
  match op with
  | 0 => a + b
  | 1 => iminS a b
  | 2 => iminN a b
  | 3 => imaxS a b
  | 4 => imaxN a b
  | 5 => a &&& b
  | 6 => a ||| b
  | _ => a ^^^ b

def redId (op : Nat) : Word :=
  match op with
  | 1 => 0x7FFFFFFF
  | 2 => 0xFFFFFFFF
  | 3 => 0x80000000
  | 5 => 0xFFFFFFFF
  | _ => 0

/-- The integer reduction over the lanes of a mask. -/
def redInt (op : Nat) (c : Iss) (sa : BitVec 8) (m : Mask) : Word :=
  ((lanesOf m).map (c.src sa)).foldl (redOp op) (redId op)

/-- The floating-point operation (R53). -/
def redFp (op : Nat) (a b : Nat) : Coded :=
  match op with
  | 0 => fAdd fp32 .rne a b
  | 1 => fMin fp32 a b
  | _ => fMax fp32 a b

/-- One level of the tree of R52: an absent child passes the other through; flags gather. -/
def treeLevel (op : Nat → Nat → Coded) : List (Option Coded) → List (Option Coded)
  | a :: b :: r =>
    (match a, b with
      | some x, some y => (let z := op x.1 y.1; some (z.1, x.2 ||| y.2 ||| z.2))
      | some x, none => some x
      | none, y => y) :: treeLevel op r
  | r => r

/-- tree(op, x, present) over 32 lanes, with the flags raised at its nodes. -/
def treeOf (op : Nat → Nat → Coded) (xs : List (Option Coded)) : Option Coded :=
  ((treeLevel op (treeLevel op (treeLevel op (treeLevel op (treeLevel op xs))))).head?).join

/-- R53: the lowest lane's NaN made quiet, else the tree; none when no lane is present. -/
def redF32 (op : Nat) (c : Iss) (sa : BitVec 8) (m : Mask) : Option Coded :=
  let xs := (List.range 32).map (fun l => if m.getLsbD l then some ((c.src sa l).toNat, (0 : BitVec 5)) else none)
  (treeOf (redFp op) xs).map (fun r =>
    match xs.find? (fun x => (x.map (fun y => fp32.isNan y.1)).getD false) with
    | some (some x) => (fp32.quiet x.1, r.2)
    | _ => r)

/-- The lanes of E up to lane i, or before it in the exclusive form. -/
def prefixMask (e : Mask) (excl : Bool) (i : Nat) : Mask :=
  maskOf (fun j => e.getLsbD j && (decide (j < i) || (!excl && j == i)))

def execRed (f : FmtA) (s : State) : Host.Outcome State Fault Refusal :=
  issue (.red f) (onWarp (fun c => c.W.putV c.fr 12 f.dst c.exec (fun _ => redInt f.sc.toNat c f.sa c.exec))) s

def execRedF32 (f : FmtA) (s : State) : Host.Outcome State Fault Refusal :=
  issue (.redF32 f) (onWarp (fun c =>
    match redF32 f.sc.toNat c f.sa c.exec with
    | none => c.W
    | some r => (c.W.putV c.fr 12 f.dst c.exec (fun _ => BitVec.ofNat 32 r.1)).raiseFx c.exec f.nf (fun _ => r.2))) s

def execScan (f : FmtA) (s : State) : Host.Outcome State Fault Refusal :=
  issue (.scan f) (onWarp (fun c => c.W.putV c.fr 12 f.dst c.exec (fun l =>
    redInt (f.sc.toNat % 8) c f.sa (prefixMask c.exec (f.sc.getLsbD 3) l)))) s

/-- The identities of SCAN.excl.f32 (R54): +0, +∞ and −∞; they raise nothing. -/
def scanF32At (f : FmtA) (c : Iss) (l : Nat) : Coded :=
  let op := f.sc.toNat % 8
  (redF32 op c f.sa (prefixMask c.exec (f.sc.getLsbD 3) l)).getD
    (if op = 0 then 0 else if op = 1 then 0x7F800000 else 0xFF800000, 0)

def execScanF32 (f : FmtA) (s : State) : Host.Outcome State Fault Refusal :=
  issue (.scanF32 f) (onWarp (fun c =>
    (c.W.putV c.fr 12 f.dst c.exec (fun l => BitVec.ofNat 32 (scanF32At f c l).1)).raiseFx c.exec f.nf
      (fun l => (scanF32At f c l).2))) s

/-! ## ELECT (R171) -/

def execElect (f : FmtS) (s : State) : Host.Outcome State Fault Refusal :=
  issue (.elect f) (onWarp (fun c =>
    match lowestLane c.exec with
    | none => c.W.putW c.fr 6 f.b 0xFFFFFFFF
    | some e => (c.W.writeP 6 f.a.toNat c.exec (fun l => l == e)).putW c.fr 6 f.b (BitVec.ofNat 32 e))) s

end Sys2Proof.Machine
end

