-- ==== Sys2Proof/Machine/Uniform.lean ====
section
/-!
DEFINITION. Uniform instructions: the W-forms (R106, R107, Table 4.6) and MOVW (R108).
-/
namespace Sys2Proof.Machine

/-- A uniform result of two uniform sources, written once for the warp with latency 4. -/
def wAlu (f : FmtA) (g : Word → Word → Word) : Iss → State → Res :=
  onWarp (fun c => c.W.putW c.fr 4 f.dst (g (c.usrc f.sa) (c.usrc f.sb)))

def execWadd (f : FmtA) (s : State) : Host.Outcome State Fault Refusal := issue (.wadd f) (wAlu f (· + ·)) s
def execWsub (f : FmtA) (s : State) : Host.Outcome State Fault Refusal := issue (.wsub f) (wAlu f (· - ·)) s
def execWmul (f : FmtA) (s : State) : Host.Outcome State Fault Refusal := issue (.wmul f) (wAlu f (· * ·)) s
def execWand (f : FmtA) (s : State) : Host.Outcome State Fault Refusal := issue (.wand f) (wAlu f (· &&& ·)) s
def execWor (f : FmtA) (s : State) : Host.Outcome State Fault Refusal := issue (.wor f) (wAlu f (· ||| ·)) s
def execWxor (f : FmtA) (s : State) : Host.Outcome State Fault Refusal := issue (.wxor f) (wAlu f (· ^^^ ·)) s
def execWshl (f : FmtA) (s : State) : Host.Outcome State Fault Refusal := issue (.wshl f) (wAlu f shl32) s
def execWshr (f : FmtA) (s : State) : Host.Outcome State Fault Refusal := issue (.wshr f) (wAlu f shr32) s

def execWmov (f : FmtA) (s : State) : Host.Outcome State Fault Refusal :=
  issue (.wmov f) (onWarp (fun c => c.W.putW c.fr 4 f.dst (c.usrc f.sa))) s

/-- R107: the result goes to pd in every thread of the issuing run. -/
def execWcmp (f : FmtA) (s : State) : Host.Outcome State Fault Refusal :=
  issue (.wcmp f) (onWarp (fun c =>
    c.W.writeP 4 (f.dst.toNat % 8) c.run (fun _ => icmp32 (ccOf f.dst) (c.usrc f.sa) (c.usrc f.sb)))) s

def execWaddImm (f : FmtI) (s : State) : Host.Outcome State Fault Refusal :=
  issue (.waddImm f) (onWarp (fun c => c.W.putW c.fr 4 f.dst (c.usrc f.sa + f.imm.signExtend 32))) s

def execWmovImm (f : FmtI) (s : State) : Host.Outcome State Fault Refusal :=
  issue (.wmovImm f) (onWarp (fun c => c.W.putW c.fr 4 f.dst (f.imm.signExtend 32))) s

/-- R108: the register of lane C as it stands, in the run or not. -/
def execMovwLane (f : FmtS) (s : State) : Host.Outcome State Fault Refusal :=
  issueM (.movwLane f)
    { body := onWarp (fun c => c.W.putW c.fr 4 f.a (c.src f.b f.c.toNat))
      readMask := fun _ => BitVec.ofNat 32 (2 ^ f.c.toNat) } s

/-- R108: the lowest-numbered lane of the issuing run. -/
def execMovwFirst (f : FmtS) (s : State) : Host.Outcome State Fault Refusal :=
  issueM (.movwFirst f)
    { body := onWarp (fun c => c.W.putW c.fr 4 f.a (c.src f.b ((lowestLane c.run).getD 0)))
      readMask := fun c => BitVec.ofNat 32 (2 ^ (lowestLane c.run).getD 0) } s

def execMovwToLane (f : FmtS) (s : State) : Host.Outcome State Fault Refusal :=
  issue (.movwToLane f) (onWarp (fun c => c.W.putV c.fr 4 f.a c.exec (fun _ => c.uni f.b.toNat))) s

end Sys2Proof.Machine
end

