-- ==== Sys2Proof/Machine/Rep.lean ====
section
/-!
DEFINITION. The target of REP (R83 to R85): its legality, its stepped fields, and one iteration.
-/
namespace Sys2Proof.Machine

/-- Field k of a full word of format A, I or M: DST or DATA, SA or BASE, SB, SC (Tables 3.3 to 3.5). -/
def wordField (t : BitVec 64) (k : Nat) : Nat := t.toNat / 2 ^ (29 + 8 * k) % 256

/-- The word with field k holding v. -/
def setField (t : BitVec 64) (k v : Nat) : BitVec 64 :=
  BitVec.ofNat 64 (t.toNat - wordField t k * 2 ^ (29 + 8 * k) + v * 2 ^ (29 + 8 * k))

/-- How many of these fields a target's format has; none if it is no word of format A, I or M, or transfers control or
traps (R83). -/
def targetFields (t : BitVec 64) : Nat :=
  let op := opcode t
  if t.getLsbD 15 || op == 0x0C0 || op == 0x0C1 || op == 0x0C2 || op == 0x0C9 then 0
  else if (rowsA.lookup op).isSome then 4
  else if (rowsI.lookup op).isSome || (rowsM.lookup op).isSome then 2
  else 0

/-- The stepped fields: those the mask B names. -/
def steppedFields (f : FmtS) : List Nat := (List.range 8).filter (fun k => f.b.getLsbD k)

def shapeLanes (t : BitVec 64) : List Nat := ((shapeOf (decodeWord t)).map (fun h => h.flds.flatMap Fld.lanes)).getD []
def shapeUnis (t : BitVec 64) : List Nat := ((shapeOf (decodeWord t)).map (fun h => h.flds.flatMap Fld.unis)).getD []

/-- Field k names a lane register: the lane registers of the word follow it. -/
def isLaneField (t : BitVec 64) (k : Nat) : Bool :=
  (shapeLanes (setField t k 0xF4)).count 0xF4 != (shapeLanes (setField t k 0xF0)).count 0xF4

/-- Field k names a uniform register. -/
def isUniField (t : BitVec 64) (k : Nat) : Bool :=
  (shapeUnis (setField t k 60)).count 60 != (shapeUnis (setField t k 56)).count 60

/-- R83 holds of a target under a REP word, and its register codes are legal as encoded (R86 step 2). -/
def targetOk (f : FmtS) (t : BitVec 64) : Bool :=
  targetFields t != 0 &&
  (steppedFields f).all (fun k => decide (k < targetFields t) && decide (wordField t k < 0xF8)) &&
  ((shapeOf (decodeWord t)).map (fun h => h.pieces.all Piece.ok)).getD false

/-- One stepped field: the word and the register codes formed beyond any register; none if a modifier byte outgrows its
field (log 20). A register number past its file is never read as a code: until step 6 of R86 the field holds a register
of the same bank and alignment. -/
def stepField (f : FmtS) (i : Nat) (t0 : BitVec 64) (acc : Option (BitVec 64 × List Nat)) (k : Nat) :
    Option (BitVec 64 × List Nat) :=
  acc.bind (fun (t, overs) =>
    let v := wordField t0 k + i * f.c.toNat
    if isLaneField t0 k then
      if 247 < v then some (setField t k (v % 8), overs ++ [v]) else some (setField t k v, overs)
    else if isUniField t0 k then
      if 63 < v then some (setField t k (v % 8), overs ++ [0x100 + v]) else some (setField t k v, overs)
    else if 255 < v then none else some (setField t k v, overs))

/-- The target of iteration i. -/
def steppedTarget (f : FmtS) (t : BitVec 64) (i : Nat) : Option (BitVec 64 × List Nat) :=
  (steppedFields f).foldl (stepField f i t) (some (t, []))

/-- Issue a target: a word of format A, I or M. -/
def runTarget (i : Instr) (s : State) : Host.Outcome State Fault Refusal :=
  match i with
  | .iadd f => execIadd f s
  | .isub f => execIsub f s
  | .iadd3 f => execIadd3 f s
  | .imul f => execImul f s
  | .imulhS32 f => execImulhS32 f s
  | .imulhN32 f => execImulhN32 f s
  | .imad f => execImad f s
  | .imadwS32 f => execImadwS32 f s
  | .imadwN32 f => execImadwN32 f s
  | .iminS32 f => execIminS32 f s
  | .iminN32 f => execIminN32 f s
  | .imaxS32 f => execImaxS32 f s
  | .imaxN32 f => execImaxN32 f s
  | .iabs f => execIabs f s
  | .shl f => execShl f s
  | .shr f => execShr f s
  | .sar f => execSar f s
  | .rot f => execRot f s
  | .andR f => execAndR f s
  | .orR f => execOrR f s
  | .xorR f => execXorR f s
  | .notR f => execNotR f s
  | .blut f => execBlut f s
  | .popc f => execPopc f s
  | .clz f => execClz f s
  | .brev f => execBrev f s
  | .bfeN32 f => execBfeN32 f s
  | .bfeS32 f => execBfeS32 f s
  | .bfi f => execBfi f s
  | .sel f => execSel f s
  | .lea f => execLea f s
  | .icmp f => execIcmp f s
  | .iaddImm f => execIaddImm f s
  | .imulImm f => execImulImm f s
  | .andImm f => execAndImm f s
  | .orImm f => execOrImm f s
  | .xorImm f => execXorImm f s
  | .shlImm f => execShlImm f s
  | .shrImm f => execShrImm f s
  | .sarImm f => execSarImm f s
  | .icmpImm f => execIcmpImm f s
  | .fadd f => execFadd f s
  | .faddRz f => execFaddRz f s
  | .faddRu f => execFaddRu f s
  | .faddRd f => execFaddRd f s
  | .fmul f => execFmul f s
  | .fmulRz f => execFmulRz f s
  | .fmulRu f => execFmulRu f s
  | .fmulRd f => execFmulRd f s
  | .ffma f => execFfma f s
  | .ffmaRz f => execFfmaRz f s
  | .ffmaRu f => execFfmaRu f s
  | .ffmaRd f => execFfmaRd f s
  | .fmin f => execFmin f s
  | .fmax f => execFmax f s
  | .fcmp f => execFcmp f s
  | .fclass f => execFclass f s
  | .frcp f => execFrcp f s
  | .frsq f => execFrsq f s
  | .fsqrt f => execFsqrt f s
  | .fdiv f => execFdiv f s
  | .fex2 f => execFex2 f s
  | .flg2 f => execFlg2 f s
  | .fsinpi f => execFsinpi f s
  | .fcospi f => execFcospi f s
  | .hadd2F16 f => execHadd2F16 f s
  | .hmul2F16 f => execHmul2F16 f s
  | .hfma2F16 f => execHfma2F16 f s
  | .hadd2Bf16 f => execHadd2Bf16 f s
  | .hmul2Bf16 f => execHmul2Bf16 f s
  | .hfma2Bf16 f => execHfma2Bf16 f s
  | .cvt f => execCvt f s
  | .cvtRz f => execCvtRz f s
  | .cvtRu f => execCvtRu f s
  | .cvtRd f => execCvtRd f s
  | .pack f => execPack f s
  | .unpack f => execUnpack f s
  | .qblk f => execQblk f s
  | .dqblk f => execDqblk f s
  | .pset f => execPset f s
  | .psetAll f => execPsetAll f s
  | .plop f => execPlop f s
  | .mov f => execMov f s
  | .movi f => execMovi f s
  | .wadd f => execWadd f s
  | .wsub f => execWsub f s
  | .wmul f => execWmul f s
  | .wand f => execWand f s
  | .wor f => execWor f s
  | .wxor f => execWxor f s
  | .wshl f => execWshl f s
  | .wshr f => execWshr f s
  | .wmov f => execWmov f s
  | .wcmp f => execWcmp f s
  | .waddImm f => execWaddImm f s
  | .wmovImm f => execWmovImm f s
  | .ldLane k f => execLdLane k f s
  | .ldUniform k f => execLdUniform k f s
  | .stLane k f => execStLane k f s
  | .stUniform k f => execStUniform k f s
  | .lda w64 f => execLda w64 f s
  | .str w64 f => execStr w64 f s
  | .lds k f => execLds k f s
  | .sts k f => execSts k f s
  | .ldfrag f => execLdfrag f s
  | .stfrag f => execStfrag f s
  | .pref f => execPref f s
  | .xlane f => execXlane f s
  | .pcons f => execPcons f s
  | .peers f => execPeers f s
  | .red f => execRed f s
  | .redF32 f => execRedF32 f s
  | .scan f => execScan f s
  | .scanF32 f => execScanF32 f s
  | _ => .next s

/-- R84: issue the target once with its fields stepped, or as ILLEGAL. The count goes down when it completes. -/
def execRepIteration (rep : FmtS) (target : BitVec 64) (s : State) : Host.Outcome State Fault Refusal :=
  match s.current with
  | none => .next s
  | some (B, W) =>
    match W.rep with
    | none => .next s
    | some r =>
      match (if targetOk rep target then steppedTarget rep target (W.iteration s.fresh rep) else none) with
      | none => issue (.repIteration rep target) (fun _ s => .ok s) s
      | some (t, overs) => runTarget (decodeWord t) (s.setWarp B.uid { W with rep := some { r with overs := overs } })

end Sys2Proof.Machine
end

