-- ==== Sys2Proof/Machine/Selector.lean ====
section
/-!
DEFINITION. The selector (R271 to R282): PSEL, TOPK and MERGEK at issue, and the selector's steps in the operation at the
head of its cluster's queue.
-/
namespace Sys2Proof.Machine

/-! ## Order of values (R276, R282) -/

/-- A number whose order is that of FP32 values that are not NaN, with −0 and +0 alike. -/
def fpKey (x : Nat) : Int := if fp32.sgn x then -(fp32.mag x : Int) else fp32.mag x

/-- A pair of an index and a value. -/
abbrev RankPair := Nat × Nat

/-- (i, x) ranks before (j, y); among equal values the lower index first, or the higher when `newest` (R276, R282). -/
def ranksBefore (newest : Bool) (p q : RankPair) : Bool :=
  let tie := if newest then decide (q.1 < p.1) else decide (p.1 < q.1)
  match fp32.isNan p.2, fp32.isNan q.2 with
  | true, false => true
  | false, true => false
  | true, true => tie
  | false, false => decide (fpKey q.2 < fpKey p.2) || (fpKey p.2 == fpKey q.2 && tie)

/-- Insert a pair into a ranked list. -/
def rankInsert (newest : Bool) (p : RankPair) : List RankPair → List RankPair
  | [] => [p]
  | q :: r => if ranksBefore newest p q then p :: q :: r else q :: rankInsert newest p r

/-- The first k pairs of a list in rank order. -/
def rankTop (newest : Bool) (k : Nat) (ps : List RankPair) : List RankPair :=
  ps.foldl (fun acc p => (rankInsert newest p acc).take k) []

/-- The sentinel (R276). -/
def sentinel : RankPair := (0xFFFFFFFF, 0xFF800000)

/-- A list of pairs filled up with sentinels to n elements. -/
def padPairs (n : Nat) (ps : List RankPair) : List RankPair := ps ++ List.replicate (n - ps.length) sentinel

/-! ## Parameter blocks (Table 9.3) -/

/-- The fields of a parameter block that one of the three words names. -/
structure SelBlock where
  /-- a value outside its range, or a non-zero bit marked 0 -/
  illegal : Bool
  /-- addresses with their alignments -/
  addrs : List (Nat × Nat)
  /-- scratch spans: start, length -/
  spans : List (Nat × Nat)

/-- Word i of the parameters. -/
def selW (p : List Nat) (i : Nat) : Nat := nth 0 p i

def pselD (p : List Nat) : Nat := 64 * 2 ^ bitsN (selW p 1) 29 28
def pselLo (p : List Nat) : Nat := selW p 3
def pselHi (p : List Nat) : Nat := selW p 4
def pselTable (p : List Nat) : Nat := bitsN (selW p 1) 19 0 * 2 ^ 32 + selW p 0
/-- The numbers of sinks and recents (R279). -/
def pselSinks (p : List Nat) : Nat := min (bitsN (selW p 1) 23 20) (pselHi p - pselLo p)
def pselRecents (p : List Nat) : Nat := min (bitsN (selW p 1) 27 24) (pselHi p - pselLo p - pselSinks p)
def pselSlots (p : List Nat) : Nat := pselSinks p + selW p 7 + pselRecents p

def scrAddrBad (x : Nat) : Bool := bitsN x 31 20 != 0
def rangeBad (x lo hi : Nat) : Bool := decide (x < lo) || decide (hi < x)

def selBlock (op : Nat) (p : List Nat) : SelBlock :=
  let w := selW p
  match op with
  | 0 =>
    { illegal := bitsN (w 1) 31 30 != 0 || bitsN (w 1) 29 28 == 3 || scrAddrBad (w 2) || decide (w 4 ≤ w 3) ||
        decide (2 ^ 20 < w 4 - w 3) || scrAddrBad (w 5) || scrAddrBad (w 6) || rangeBad (w 7) 1 4096
      addrs := [(pselTable p, 32), (w 2, 16), (w 5, 4), (w 6, 4)]
      spans := [(w 2, 2 * pselD p), (w 5, 4 * pselSlots p), (w 6, 4 * pselSlots p)] }
  | 1 =>
    { illegal := scrAddrBad (w 0) || rangeBad (w 2) 1 65536 || rangeBad (w 3) 1 65536 || w 4 != 0 || scrAddrBad (w 5) ||
        scrAddrBad (w 6) || w 7 != 0 || decide (0xFFFFFFFE < w 1 + w 2 - 1)
      addrs := [(w 0, 4), (w 5, 4), (w 6, 4)]
      spans := [(w 0, 4 * w 2), (w 5, 4 * w 3), (w 6, 4 * w 3)] }
  | _ =>
    { illegal := scrAddrBad (w 0) || scrAddrBad (w 1) || rangeBad (w 2) 0 65536 || rangeBad (w 3) 1 65536 ||
        scrAddrBad (w 4) || scrAddrBad (w 5) || rangeBad (w 6) 0 65536 || w 7 != 0
      addrs := [(w 0, 4), (w 1, 4), (w 4, 4), (w 5, 4)]
      spans := [(w 0, 4 * w 2), (w 1, 4 * w 2), (w 4, 4 * w 6), (w 5, 4 * w 6), (w 0, 4 * w 3), (w 1, 4 * w 3)] }

/-! ## At issue (R271 to R273) -/

def State.selQueue (s : State) (cl : Nat) : List Nat := tget [] s.selq cl

/-- The checks of R272 in order, then a place in the queue of 32. -/
def selBody (op : Nat) (f : FmtS) (c : Iss) (s : State) : Res :=
  let p := (List.range 8).map (fun i => (c.uni (f.b.toNat + i)).toNat)
  let b := selBlock op p
  let mis := b.addrs.filter (fun x => x.1 % x.2 != 0)
  let cl := coreCluster c.W.core
  if b.illegal then .trap causeIllegal 0 0
  else if !mis.isEmpty then .trap causeMisalign (minOr 0 (mis.map (·.1))) c.run
  else match spansBeyond (s.scratchSize c.b c.w) (b.spans.filter (fun x => x.2 != 0)) with
  | some a => .trap causeScratch a c.run
  | none =>
    if 32 ≤ (s.selQueue cl).length then .stall
    else
      let d := uniDst f.a
      let n := uniDst f.c
      let s1 := s.enter c (.select ⟨op, d, n, p, 0, if op = 0 then pselLo p else 0, [], [], none, none⟩) f.setf [] []
        ((d.toList ++ n.toList).map Loc.uni)
      .ok { s1 with selq := tset [] s1.selq cl (s.selQueue cl ++ [s.nextUid]) }

def execPsel (f : FmtS) (s : State) : Host.Outcome State Fault Refusal := issue (.psel f) (selBody 0 f) s
def execTopk (f : FmtS) (s : State) : Host.Outcome State Fault Refusal := issue (.topk f) (selBody 1 f) s
def execMergek (f : FmtS) (s : State) : Host.Outcome State Fault Refusal := issue (.mergek f) (selBody 2 f) s

/-! ## Bounds (R281) -/

def FVal.isZero : FVal → Bool
  | .fin _ n _ => n == 0
  | _ => false

def FVal.isInf : FVal → Bool
  | .inf _ => true
  | _ => false

def FVal.isNan : FVal → Bool
  | .nan _ _ => true
  | _ => false

/-- The exact product of two values neither of which is NaN, no infinity times zero. -/
def fvMul : FVal → FVal → FVal
  | .fin s n e, .fin t k d => .fin (s != t) (n * k) (e + d)
  | .inf s, .fin t _ _ => .inf (s != t)
  | .fin s _ _, .inf t => .inf (s != t)
  | .inf s, .inf t => .inf (s != t)
  | v, _ => v

/-- One dimension's term; none for an invalid one. -/
def boundTerm (q lo hi : FVal) : Option FVal :=
  if q.isNan then none
  else if q.isZero then some (.fin false 0 0)
  else if lo.isNan || hi.isNan then none
  else if q.isInf && (lo.isZero || hi.isZero) then none
  else
    let a := fvMul q hi
    let b := fvMul q lo
    some (if fvLt a b then b else a)

/-- An exact sum of finite values, in units of 2^-300, below every BF16 product. -/
def exactSum (ts : List FVal) : Int :=
  (ts.map (fun t => match t with
    | .fin s n e => (if s then -1 else 1) * ((n * 2 ^ (e + 300).toNat : Nat) : Int)
    | _ => 0)).foldl (· + ·) 0

/-- The bound of a page, as an FP32 code. -/
def boundOf (qs los his : List FVal) : Nat :=
  let ts := (qs.zip (los.zip his)).map (fun x => boundTerm x.1 x.2.1 x.2.2)
  if ts.any Option.isNone then fp32.nanMag
  else
    let vs := ts.filterMap id
    let pos := vs.any (fun v => v == .inf false)
    let neg := vs.any (fun v => v == .inf true)
    if pos && neg then fp32.nanMag
    else if pos then fp32.infMag
    else if neg then fp32.signed true fp32.infMag
    else
      let x := exactSum vs
      (roundTo fp32 .rne false (decide (x < 0)) x.natAbs (-300) false).1

/-- BF16 values from bytes. -/
def bf16s (n : Nat) (bs : List Byte) : List FVal :=
  (List.range n).map (fun i => bf16.value (ofLeBytes ((bs.drop (2 * i)).take 2)))

/-! ## The selector's steps (R273, R274, R277 to R282) -/

/-- The output arrays of an operation: scratch addresses and bytes. -/
def SelOp.outSpans (x : SelOp) : List (Nat × Nat) :=
  let w := selW x.p
  if x.op = 0 then [(w 5, 4 * pselSlots x.p), (w 6, 4 * pselSlots x.p)]
  else if x.op = 1 then [(w 5, 4 * w 3), (w 6, 4 * w 3)] else [(w 0, 4 * w 3), (w 1, 4 * w 3)]

/-- The input arrays of TOPK and MERGEK, or PSEL's query. -/
def SelOp.inSpans (x : SelOp) : List (Nat × Nat) :=
  let w := selW x.p
  if x.op = 0 then [(w 2, 2 * pselD x.p)]
  else if x.op = 1 then [(w 0, 4 * w 2)] else [(w 0, 4 * w 2), (w 1, 4 * w 2), (w 4, 4 * w 6), (w 5, 4 * w 6)]

/-- What reading some spans of a warp's scratch does besides (R160, R300). -/
def State.selHeal (s : State) (B : Block) (W : Warp) (spans : List (Nat × Nat)) : State :=
  (spans.filter (fun x => x.2 != 0)).foldl (fun s x => s.scrHeal B.uid W.idx W.core x.1 x.2) s

/-- An operation ends: what is left of its outputs, status and count; its readers retire, and it leaves the queue. A fault's
address goes to telemetry, an error met in scratch is counted (R160, R274). -/
def State.selEnd (s : State) (cl : Nat) (B : Block) (W : Warp) (o : Op) (x : SelOp) (r : SelRes) : State :=
  let s0 := match r.va with
    | some a => s.logVa B.ctx a
    | none => s
  let s1 := (joinPieces r.outs).foldl (fun s w => s.scrWrite B.uid W.idx w.1 w.2)
    (if r.core then s0.count 2 (coreDie W.core) else s0)
  let s1 := if r.status = 0 then x.outSpans.foldl (fun s w => s.scrClear B.uid W.idx w.1 w.2) s1 else s1
  let put (n : Option Nat) (v : Nat) (W : Warp) : Warp :=
    match n with
    | none => W
    | some r => W.flagWrite s.fresh o.id (.uni r) 0 (BitVec.ofNat 32 v)
  let s2 := s1.modWarp B.uid W.idx (fun W =>
    (put x.cnt r.count (put x.dst r.status W)).modOp o.id (fun o => { o with done := true }))
  ({ s2 with selq := tset [] s2.selq cl (s2.selQueue cl).tail } : State).retireReaders o.id

/-- A status other than OK: no output byte and a count of 0, with the address a fault is logged with (R274). -/
def SelRes.fail (status : Nat) (va : Option Nat) (core : Bool := false) : SelRes := ⟨status, 0, va, core, []⟩

/-- The lowest scratch word among n bytes that can not be read (log 63: an error in scratch is logged with its scratch address): one
with a double-bit error, or in a poisoned unit of a spill page. -/
def State.scrBadAt (s : State) (b w x n : Nat) : Option Nat :=
  (s.allocOf b w).bind (fun a =>
    if !(a.isBad x n || s.allocPoison a x n) then none
    else match ((List.range ((x + n + 3) / 4 - x / 4)).map (fun i => 4 * (x / 4 + i))).filter (fun k =>
        a.isBad k 4 || s.allocPoison a k 4) with
      | [] => none
      | k :: r => some (r.foldl min k))

/-- That word has an error in the core's storage, which is counted (R454). -/
def State.scrCore (s : State) (b w x : Nat) : Bool := ((s.allocOf b w).map (fun a => a.isBad x 4)).getD false

def elems (f : RankPair → Nat) (ps : List RankPair) : List Byte := ps.flatMap (fun p => leBytes 4 (f p))

/-- The two output arrays of a list, by 4-byte word. -/
def pairWrites (iaddr vaddr : Nat) (ps : List RankPair) : List (Nat × List Byte) :=
  piecesOf iaddr (elems (·.1) ps) ++ piecesOf vaddr (elems (·.2) ps)

/-- 32-bit elements of a scratch array. -/
def State.scrWords (s : State) (b w addr n : Nat) : List Nat :=
  (List.range n).map (fun i => ofLeBytes (s.scrRead b w (addr + 4 * i) 4))

/-- TOPK (R277). -/
def State.topkRes (s : State) (B : Block) (W : Warp) (x : SelOp) : SelRes :=
  let w := selW x.p
  match s.scrBadAt B.uid W.idx (w 0) (4 * w 2) with
  | some a => .fail 4 (some a) (s.scrCore B.uid W.idx a)
  | none =>
    let ps := ((s.scrWords B.uid W.idx (w 0) (w 2)).zipIdx).map (fun e => (w 1 + e.2, e.1))
    let n := min (w 3) (w 2)
    ⟨0, n, none, false, pairWrites (w 5) (w 6) (padPairs (w 3) (rankTop false n ps))⟩

/-- MERGEK (R278). -/
def State.mergekRes (s : State) (B : Block) (W : Warp) (x : SelOp) : SelRes :=
  let w := selW x.p
  let bad (a n : Nat) : Option Nat := if n = 0 then none else s.scrBadAt B.uid W.idx a (4 * n)
  match [bad (w 0) (w 2), bad (w 1) (w 2), bad (w 4) (w 6), bad (w 5) (w 6)].filterMap id with
  | a :: _ => .fail 4 (some a) (s.scrCore B.uid W.idx a)
  | [] =>
    let list (ia va n : Nat) : List RankPair := (s.scrWords B.uid W.idx ia n).zip (s.scrWords B.uid W.idx va n)
    let n := min (w 3) (w 2 + w 6)
    ⟨0, n, none, false, pairWrites (w 0) (w 1) (padPairs (w 3)
      (rankTop false n (list (w 0) (w 1) (w 2) ++ list (w 4) (w 5) (w 6))))⟩

/-- A page number is a sink or a recent one (R279). -/
def pselFixed (p : List Nat) (n : Nat) : Bool :=
  decide (n < pselLo p + pselSinks p) || decide (pselHi p ≤ n + pselRecents p)

/-- PSEL's next snapshot (R280): an entry with VALID = 1 has a reader from then on (R243). After the last, summaries are read. -/
def State.pselSnap (s : State) (cl : Nat) (B : Block) (W : Warp) (o : Op) (x : SelOp) : State :=
  let va := pselTable x.p + 32 * x.next
  let s := s.fillVa (some cl) B.ctx va 32
  match s.snapshot (some cl) B.ctx va with
  | .error e => s.selEnd cl B W o x (.fail e.1 (some e.2))
  | .ok e =>
    if e.valid && !(e.flagsOk && e.reservedOk) then s.selEnd cl B W o x (.fail 3 (some va))
    else
      let last := decide (pselHi x.p ≤ x.next + 1)
      let y := { x with
        snaps := if e.valid then x.snaps ++ [(x.next, e)] else x.snaps
        stage := if last then 1 else 0
        next := if last then 0 else x.next + 1
        begun := if last then some (s.mem.past.length, s.scrPast B.uid W.idx) else none }
      let s1 := s.setWarp B.uid (W.modOp o.id (fun o => { o with kind := .select y }))
      (if e.valid then s1.addReader e o.id else s1).acquire B.uid W.idx (s.mem.attached (lineOf e.loc))

/-- The ranked pages (R279). -/
def SelOp.ranked (x : SelOp) : List (Nat × Snap) := x.snaps.filter (fun e => e.2.sealed && !pselFixed x.p e.1)

/-- What the operation reads, it reads at moments since its reads could begin (R252, R305). -/
def State.selView (s : State) (B : Block) (W : Warp) (x : SelOp) : State :=
  match x.begun with
  | none => s
  | some (m, a) => (s.asOf m).scrAsOf B.uid W.idx a

/-- PSEL's next bound (R281). -/
def State.pselBound (s : State) (cl : Nat) (B : Block) (W : Warp) (o : Op) (x : SelOp) (n : Nat) (e : Snap) : State :=
  let d := pselD x.p
  let q := selW x.p 2
  match s.scrBadAt B.uid W.idx q (2 * d) with
  | some a => (s.selHeal B W x.inSpans).selEnd cl B W o x (.fail 4 (some a) (s.scrCore B.uid W.idx a))
  | none =>
    let s := (s.selHeal B W x.inSpans).fillVa (some cl) B.ctx e.summary (4 * d)
    let v := s.selView B W x
    match v.engRead (some cl) B.ctx e.summary (4 * d) with
    | .error r => s.selEnd cl B W o x (.fail r.1 (some r.2))
    | .ok bs =>
      let b := boundOf (bf16s d (v.scrRead B.uid W.idx q (2 * d))) (bf16s d bs) (bf16s d (bs.drop (2 * d)))
      s.setWarp B.uid (W.modOp o.id (fun o =>
        { o with kind := .select { x with next := x.next + 1, bounds := x.bounds ++ [(n, b)] } }))

/-- PSEL's output (R282). -/
def State.pselRes (s : State) (B : Block) (W : Warp) (x : SelOp) : SelRes :=
  let p := x.p
  match s.scrBadAt B.uid W.idx (selW p 2) (2 * pselD p) with
  | some a => .fail 4 (some a) (s.scrCore B.uid W.idx a)
  | none =>
    let inf (ns : List (Nat × Snap)) : List RankPair := ns.map (fun e => (e.1, fp32.infMag))
    let sinks := inf (x.snaps.filter (fun e => decide (e.1 < pselLo p + pselSinks p)))
    let recents := inf (x.snaps.filter (fun e => !decide (e.1 < pselLo p + pselSinks p) &&
      decide (pselHi p ≤ e.1 + pselRecents p)))
    let out := sinks ++ rankTop true (selW p 7) x.bounds ++ recents
    ⟨0, out.length, none, false, pairWrites (selW p 5) (selW p 6) (padPairs (pselSlots p) out)⟩

/-- Every input has been read: what the operation comes to. -/
def State.selRes (s : State) (B : Block) (W : Warp) (x : SelOp) : SelRes :=
  if x.op = 1 then (s.selView B W x).topkRes B W x
  else if x.op = 2 then (s.selView B W x).mergekRes B W x else s.pselRes B W x

/-- The operation's reads may begin: it heads its cluster's queue, and the warp's earlier scratch stores have been performed
(R252, R273). -/
def State.selReady (s : State) (cl id : Nat) (W : Warp) : Bool :=
  (s.selQueue cl).head? == some id && ({ W with ops := W.opsBefore id } : Warp).scratchSettled

/-- The next thing left to read: a snapshot, a summary, or none. -/
inductive SelNext where
  | snap
  | bound (n : Nat) (e : Snap)
  | out
  deriving DecidableEq, Repr

def SelOp.next' (x : SelOp) : SelNext :=
  if x.op != 0 then .out
  else if x.stage = 0 then .snap
  else match x.ranked[x.next]? with
    | some (n, e) => .bound n e
    | none => .out

/-- The next step of an operation waits for memory that is held (R296): an entry, a summary, or the spill pages of its scratch. -/
def State.selHeld (s : State) (B : Block) (W : Warp) (x : SelOp) : Bool :=
  !s.hbmReady && ((match x.next' with
    | .snap => s.vaHeld B.ctx (pselTable x.p + 32 * x.next) 32
    | .bound _ e => s.vaHeld B.ctx e.summary (4 * pselD x.p)
    | .out => x.outSpans.any (fun y => s.scrHeld B.uid W.idx y.1 y.2)) ||
    (x.next' != .snap && x.inSpans.any (fun y => s.scrHeld B.uid W.idx y.1 y.2)))

/-- What the operation comes to, once its inputs have been read: single-bit errors of them are corrected (R160). -/
def State.selFinish (s : State) (cl : Nat) (B : Block) (W : Warp) (o : Op) (x : SelOp) : State :=
  match x.ended with
  | some r => s.selEnd cl B W o x r
  | none => (s.selHeal B W x.inSpans).selEnd cl B W o x (s.selRes B W x)

/-- SELECTOR_OPERATION: the selector of a cluster goes on with the operation at the head of its queue; it reads scratch
when the warp's earlier scratch stores have been performed (R252). -/
def execSelectorOperation (cluster : Nat) (s : State) : Host.Outcome State Fault Refusal :=
  match s.selQueue cluster with
  | [] => .next s
  | id :: rest =>
    match s.opOwner id with
    | none => .next { s with selq := tset [] s.selq cluster rest }
    | some (B, W, o) =>
      match o.kind with
      | .select x =>
        if !({ W with ops := W.opsBefore id } : Warp).scratchSettled || s.selHeld B W x || s.tripped then .next s
        else match x.next' with
          | .snap => .next (s.pselSnap cluster B W o x)
          | .bound n e => .next (s.pselBound cluster B W o x n e)
          | .out => .next ((s.selFinish cluster B W o x).noticeWaits B.uid)
      | _ => .next { s with selq := tset [] s.selq cluster rest }

/-- What a selector may do word by word (R252, R273, R305): part 0 begins TOPK's or MERGEK's reads; part 1 ends an operation's
reads; the parts after it write single 4-byte words of the output. -/
def State.selPart (s : State) (B : Block) (W : Warp) (o : Op) (x : SelOp) (i : Nat) : State :=
  let put (s : State) (y : SelOp) : State := s.modWarp B.uid W.idx (fun W => W.modOp o.id (fun o => { o with kind := .select y }))
  if !s.selReady (coreCluster W.core) o.id W || x.next' != .out || s.selHeld B W x then s
  else if i = 0 then
    (if x.begun.isSome then s else put s { x with begun := some (s.mem.past.length, s.scrPast B.uid W.idx) })
  else if i = 1 then (if x.ended.isSome then s else put (s.selHeal B W x.inSpans) { x with ended := some (s.selRes B W x) })
  else match x.ended with
    | none => s
    | some r =>
      match r.outs[i - 2]? with
      | none => s
      | some p => put (s.scrWrite B.uid W.idx p.1 p.2) { x with ended := some { r with outs := r.outs.eraseIdx (i - 2) } }

end Sys2Proof.Machine
end

