-- ==== Sys2Proof/Machine/Tuples.lean ====
section
/-!
DEFINITION. Tuple space (R326 to R345): the tuple words at issue, the home slices' service of requests, replies, timeouts
and regions being destroyed.
-/
namespace Sys2Proof.Machine

/-! ## The end of an operation (R61) -/

/-- An operation of a warp has completed: its flag falls, its registers hold their values, it is gone; what waited for it
may go on. -/
def State.finishOp (s : State) (b w : Nat) (o : Op) : State :=
  ((s.modWarp b w (fun W => { W.landed o.id with
    flags := match o.setf with
      | some f => tset 0 W.flags f (tget 0 W.flags f - 1)
      | none => W.flags
    ops := W.ops.filter (fun y => y.id != o.id) })).noticeWaits b).settle b w

/-! ## At issue (R329, R331, R332, R345) -/

/-- A tuple word; in deterministic mode it needs the token, and the blocking forms are refused. -/
def tupleBody (kind : Nat) (blocking : Bool) (f : FmtS) (c : Iss) (s : State) : Res :=
  if s.isDet c.B && (blocking || !s.holdsToken c.B c.w) then ctokTrap c.fr
  else
    let dst := f.a.toNat % 64
    let req : TupReq :=
      { id := s.nextUid, src := some (c.b, c.w), ctx := c.B.ctx, handle := (c.uni f.b.toNat).toNat
        fields := (List.range 8).map (fun i => c.uni64 (16 + 2 * i)), kind := kind, mask := f.sub.toNat
        blocking := blocking
        timeout := if blocking && f.c != 0xFC then (c.uni f.c.toNat).toNat else 0
        sig := Sig.empty, port := none }
    let regs := Loc.uni dst :: (if kind = 0 then [] else (List.range 16).map (fun i => Loc.uni (16 + i)))
    let parked : Mask := if blocking then c.run else 0
    let s1 := (s.enter c (.tuple dst parked) f.setf [] [] regs).modWarp c.b c.w (fun W => W.modThreads parked
      (fun t => { t with status := .parked .tuple }))
    .ok { s1 with tup := { s1.tup with sent := s1.tup.sent ++ [req] } }

def execTdep (f : FmtS) (s : State) : Host.Outcome State Fault Refusal := issue (.tdep f) (tupleBody 0 false f) s
def execTcpy (f : FmtS) (s : State) : Host.Outcome State Fault Refusal := issue (.tcpy f) (tupleBody 1 false f) s
def execTcpyWait (f : FmtS) (s : State) : Host.Outcome State Fault Refusal := issue (.tcpyWait f) (tupleBody 1 true f) s
def execTtak (f : FmtS) (s : State) : Host.Outcome State Fault Refusal := issue (.ttak f) (tupleBody 2 false f) s
def execTtakWait (f : FmtS) (s : State) : Host.Outcome State Fault Refusal := issue (.ttakWait f) (tupleBody 2 true f) s

/-! ## Regions (R326 to R328, R330) -/

/-- The home slice of a (handle, tag) pair. -/
def tupleSlice (handle tag : Nat) : Nat :=
  let x := Nat.xor tag (handle * 2 ^ 32)
  xorAll ((List.range 10).map (fun i => bitsN x (7 * i + 6) (7 * i)))

def TupReq.tag (r : TupReq) : Nat := (nth 0 r.fields 0).toNat
def TupReq.slice (r : TupReq) : Nat := tupleSlice r.handle r.tag

/-- The region table entry of a handle's index, in a context. -/
def State.regionVa (s : State) (ctx handle : Nat) : Nat :=
  bitsN (tget 0 s.host.creg ctx).toNat 51 5 * 32 + 32 * bitsN handle 11 0

/-- A region table entry. -/
structure Region where
  d0 : Nat
  d1 : Nat
  d2 : Nat
  d3 : Nat
  deriving DecidableEq, Repr

def Region.valid (r : Region) : Bool := bitN r.d0 0
def Region.drain (r : Region) : Bool := bitN r.d0 1
def Region.store (r : Region) : Nat := bitsN r.d0 51 12 * 4096
def Region.gen (r : Region) : Nat := bitsN r.d1 39 26
def Region.cap (r : Region) : Nat := bitsN r.d1 25 0
def Region.count (r : Region) : Nat := bitsN r.d2 25 0
def Region.reservedOk (r : Region) : Bool :=
  bitsN r.d0 63 52 == 0 && bitsN r.d0 11 2 == 0 && bitsN r.d1 63 40 == 0 && bitsN r.d2 63 26 == 0 && r.d3 == 0

/-- The handle is live (R327). -/
def Region.live (r : Region) (ctx handle : Nat) : Bool :=
  bitsN handle 31 26 == ctx && r.valid && !r.drain && r.gen == bitsN handle 25 12 && r.reservedOk &&
  decide (1 ≤ r.cap) && decide (r.cap ≤ 2 ^ 24)

def State.regionOf (s : State) (ctx handle : Nat) : Except EngErr Region :=
  (s.engRead none ctx (s.regionVa ctx handle) 32).map (fun bs => ⟨dwordAt bs 0, dwordAt bs 1, dwordAt bs 2, dwordAt bs 3⟩)

/-- COUNT := n. -/
def State.setCount (s : State) (ctx handle : Nat) (n : Nat) : Except EngErr State :=
  s.engWrite none ctx (s.regionVa ctx handle + 16) (leBytes 4 n)

/-- The region of a handle's index in a context: the handles of other generations are the region's old ones. -/
def sameRegion (ctx handle other : Nat) : Bool :=
  bitsN other 31 26 == ctx && bitsN other 11 0 == bitsN handle 11 0

/-- A region that is destroyed (R341): with VALID = 0, or once its entry is used again under another generation, the tuples of
handles that were its own are discarded and COUNT counts those left. A fault of the entry's write leaves COUNT as it is. -/
def State.discard (s : State) (ctx handle : Nat) (g : Region) : State :=
  let gone (u : Stored) : Bool := sameRegion ctx handle u.handle && !(g.valid && g.gen == bitsN u.handle 25 12)
  let left := s.tup.stored.filter (fun u => !gone u)
  if left.length = s.tup.stored.length && (g.valid || g.count == 0) then s
  else
    let s1 : State := { s with tup := { s.tup with stored := left } }
    match s1.setCount ctx handle (left.filter (fun u => sameRegion ctx handle u.handle)).length with
    | .ok s2 => s2
    | .error _ => s1

/-- A memory page that the backing store's accesses may meet a fault in (R328, R334): POISON's code for each unit of it with an
uncorrectable error, TUPLE_FAULT's for a page that cannot be reached; with the VA. -/
def State.pageFaults (s : State) (ctx va : Nat) : List (Nat × Nat) :=
  match s.access none ctx va .rmw true with
  | .mem loc => (s.mem.poison ++ s.mem.bad).filterMap (fun u =>
      if 16 * u / 4096 = loc / 4096 then some (causePoison, va + 16 * u % 4096) else none)
  | _ => [(causeTuple, va)]

/-- The slice's request for a region's entry waits (R296). -/
def State.regionHeld (s : State) (ctx handle : Nat) : Bool := s.vaHeld ctx (s.regionVa ctx handle) 32

/-- A request's access to its region's backing store waits (R296): which pages it touches is the device's, so it may wait when some
page is held, and does when all are (free, log 34). -/
def State.storeHeld (s : State) (ctx : Nat) (r : Region) : Bool :=
  !s.hbmReady && (let ps := (List.range (ceilDiv (r.cap * 128) 4096)).map (fun i => s.vaHeld ctx (r.store + 4096 * i) 4096)
    ps.any id && (ps.all id || Config.freeBit 296 s.fresh 0))

/-- A request waits for its region's memory. -/
def State.serviceHeld (s : State) (r : TupReq) : Bool :=
  s.regionHeld r.ctx r.handle || (match s.regionOf r.ctx r.handle with
    | .ok g => g.live r.ctx r.handle && s.storeHeld r.ctx g
    | .error _ => false)

/-- What a slice may meet in a region's backing store. -/
def State.storeFaults (s : State) (ctx : Nat) (r : Region) : List (Nat × Nat) :=
  (List.range (ceilDiv (r.cap * 128) 4096)).flatMap (fun i => s.pageFaults ctx (r.store + 4096 * i))

/-! ## Service (R335 to R338) -/

/-- A tuple matches a pattern (R329). -/
def tupleMatches (u pattern : List Dword) (mask : Nat) : Bool :=
  nth 0 u 0 == nth 0 pattern 0 &&
  (List.range 7).all (fun i => !mask.testBit i || nth 0 u (i + 1) == nth 0 pattern (i + 1))

def State.modTup (s : State) (f : TupSt → TupSt) : State := { s with tup := f s.tup }

/-- A reply sets out. A remote deposit gets none: what is not OK counts in its port's DROP (R449). -/
def State.reply (s : State) (r : TupReq) (status : Nat) (u : Option Stored) (fault : Option (Nat × Nat)) : State :=
  match r.port with
  | some p =>
    if status = 0 && fault.isNone then s
    else { s with peers := { s.peers with pdrop := tset 0 s.peers.pdrop p (incSat32 (tget 0 s.peers.pdrop p)) } }
  | none => s.modTup (fun t => { t with
      replies := t.replies ++ [⟨r.id, status, u.map (·.fields), (u.map (·.sig)).getD Sig.empty, fault⟩] })

/-- Free a parked request's entry. -/
def State.unpark (s : State) (p : Parked) : State :=
  s.modTup (fun t => { t with parked := t.parked.filter (fun q => q.req.id != p.req.id) })

/-- The cycle count of a slice's die. -/
def State.sliceClock (s : State) (slice : Nat) : Nat := (s.die (slice / 32)).clock

/-- The parked requests of a slice whose timeout ended before this cycle are withdrawn first (R340). -/
def State.expire (s : State) (slice : Nat) : State :=
  (s.tup.parked.filter (fun p => p.slice == slice && (match p.deadline with
    | some d => decide (d < s.sliceClock slice)
    | none => false))).foldl (fun s p => (s.unpark p).reply p.req 2 none none) s

/-- The key of a (region, tag)'s deposit sequence number. -/
def seqKey (r : TupReq) : Nat := r.handle * 2 ^ 64 + r.tag

/-- The oldest of some stored tuples. -/
def oldest : List Stored → Option Stored
  | [] => none
  | u :: r => some (r.foldl (fun a b => if b.seq < a.seq then b else a) u)

/-- One effect of a request on its region (R337). -/
inductive TupEff where
  | seq
  | answer (p : Parked) (u : Stored)
  | remove (u : Stored)
  | put (u : Stored)
  | count (n : Nat)
  deriving DecidableEq, Repr

/-- A request's service: its effects in their order, then its reply, or it parks. -/
structure TupPlan where
  effects : List TupEff
  status : Nat
  tuple : Option Stored
  parks : Bool
  deriving DecidableEq, Repr

/-- TCPY or TTAK arriving on a live handle (R337). -/
def TupSt.readPlan (t : TupSt) (r : TupReq) (g : Region) : TupPlan :=
  match oldest (t.stored.filter (fun u => u.handle == r.handle && tupleMatches u.fields r.fields r.mask)) with
  | some u => ⟨if r.kind = 2 then [.remove u, .count (g.count - 1)] else [], 0, some u, false⟩
  | none =>
    if !r.blocking then ⟨[], 1, none, false⟩
    else if 64 ≤ (t.parked.filter (fun p => p.slice == r.slice)).length then ⟨[], 4, none, false⟩
    else ⟨[], 0, none, true⟩

/-- A parked request among others in ascending park number. -/
def insertParked (p : Parked) : List Parked → List Parked
  | [] => [p]
  | q :: r => if p.num ≤ q.num then p :: q :: r else q :: insertParked p r

/-- The parked requests of a kind that a deposit meets, in ascending park number. -/
def TupSt.met (t : TupSt) (r : TupReq) (kind : Nat) : List Parked :=
  (t.parked.filter (fun p => p.req.kind == kind && p.req.handle == r.handle &&
    tupleMatches r.fields p.req.fields p.req.mask)).foldr insertParked []

/-- TDEP arriving on a live handle, with the signature its tuple carries (R337). -/
def TupSt.depositPlan (t : TupSt) (r : TupReq) (g : Region) (sig : Sig) : TupPlan :=
  let takes := t.met r 2
  if takes.isEmpty && g.count == g.cap then ⟨[], 3, none, false⟩
  else
    let u : Stored := ⟨r.handle, r.fields, tget 0 t.dseq (seqKey r), sig⟩
    let last := match takes with
      | k :: _ => [.answer k u]
      | [] => [.put u, .count (g.count + 1)]
    ⟨.seq :: (t.met r 1).map (fun p => .answer p u) ++ last, 0, none, false⟩

/-- An effect takes place. -/
def State.tupEff (s : State) (r : TupReq) : TupEff → Except EngErr State
  | .seq => .ok (s.modTup (fun t => { t with dseq := tset 0 t.dseq (seqKey r) (tget 0 t.dseq (seqKey r) + 1) }))
  | .answer p u => .ok ((s.unpark p).reply p.req 0 (some u) none)
  | .remove u => .ok (s.modTup (fun t => { t with stored := t.stored.erase u }))
  | .put u => .ok (s.modTup (fun t => { t with stored := t.stored ++ [u] }))
  | .count n => s.setCount r.ctx r.handle n

/-- Effects up to the first that faults. -/
def State.tupEffs (s : State) (r : TupReq) : List TupEff → State × Option EngErr
  | [] => (s, none)
  | e :: es =>
    match s.tupEff r e with
    | .ok s1 => s1.tupEffs r es
    | .error x => (s, some x)

/-- A request parks with the slice's next park number; a timeout that is not 0 starts (R335, R337, R340). -/
def State.parkTuple (s : State) (r : TupReq) : State :=
  let n := tget 0 s.tup.pseq r.slice
  let p : Parked := ⟨r, r.slice, n, if r.timeout = 0 then none else some (s.sliceClock r.slice + r.timeout)⟩
  s.modTup (fun t => { t with parked := t.parked ++ [p], pseq := tset 0 t.pseq r.slice (n + 1) })

/-- The trap a fault of the slice's own access raises (R334). -/
def tupleFault (e : EngErr) : Nat × Nat := (if e.1 = 4 then causePoison else causeTuple, e.2)

/-- A fault is logged and reported (R334); an uncorrectable error has filled its line (R300). -/
def State.tupleBad (s : State) (r : TupReq) (e : Nat × Nat) : State :=
  ((if e.1 = causePoison then s.fillVa none r.ctx e.2 1 else s).logVa r.ctx e.2).reply r 0 none (some e)

/-- A request's service: one RMW of its region. A fault in the backing store may be met after any of the operation's effects;
whether one is, which, and where is free (R334). -/
def State.serve (s : State) (r : TupReq) (sig : Sig) : State :=
  match s.regionOf r.ctx r.handle with
  | .error e => s.tupleBad r (tupleFault e)
  | .ok g =>
    if !g.live r.ctx r.handle then s.reply r 5 none none
    else
      let plan := if r.kind = 0 then s.tup.depositPlan r g sig else s.tup.readPlan r g
      let faults := s.storeFaults r.ctx g
      let met := !faults.isEmpty && Config.freeBit 334 s.fresh 0
      let n := if met then Config.freeNat 334 s.fresh 2 % (plan.effects.length + 1) else plan.effects.length
      match s.tupEffs r (plan.effects.take n) with
      | (s1, some e) => s1.tupleBad r (tupleFault e)
      | (s1, none) =>
        if met then s1.tupleBad r (nth (0, 0) faults (Config.freeNat 334 s.fresh 1 % faults.length))
        else if plan.parks then s1.parkTuple r
        else s1.reply r plan.status plan.tuple none

/-! ## Arrival at a slice (R339, Table 12.6) -/

/-- The die from which a route from die s to another die h enters h (R294): s itself, or the corner between. -/
def lastHop (s h : Nat) : Nat := if s + h = 3 then (if s = 0 || h = 0 then 1 else 3) else s

/-- The port of die h's slices for a source on die s, whose own port on its die is `own`. -/
def arrivalPort (own s h : Nat) : Nat := if s = h then own else if Nat.xor (lastHop s h) h = 1 then 10 else 11

/-- The port a request arrives on: its warp's cluster, or port 12 of die 0 for a remote deposit (R449). -/
def State.tuplePort (s : State) (r : TupReq) : Nat :=
  match r.src with
  | none => arrivalPort 12 0 (r.slice / 32)
  | some (b, w) =>
    let core := ((s.warp? b w).map (·.core)).getD 0
    arrivalPort (coreLocal core / 4) (coreDie core) (r.slice / 32)

/-- The slice can perform a request of a port in this cycle: in one cycle ports are served in ascending order, each once; the
timeout unit withdraws every request whose time ends in the cycle (R339, R340). -/
def State.portOpen (s : State) (slice port : Nat) : Bool :=
  match tget none s.tup.served slice with
  | none => true
  | some (c, p) => c != s.sliceClock slice || decide (p < port) || (port == 13 && p == 13)

/-- The slice performs a request of a port in this cycle. -/
def State.atPort (s : State) (slice port : Nat) : State :=
  s.modTup (fun t => { t with served := tset none t.served slice (some (s.sliceClock slice, port)) })

/-- The warp of a request has performed everything a deposit releases (R342, R316). -/
def State.releaseDone (s : State) (r : TupReq) : Bool :=
  match r.src with
  | none => true
  | some (b, w) =>
    match s.warp? b w with
    | none => true
    | some W => r.kind != 0 || (W.opsBefore r.id).all (fun y => !y.kind.isMem || y.performed)

/-- A parked tuple request whose timeout has not ended. -/
def State.parkedNow (s : State) (id : Nat) : Option Parked :=
  s.tup.parked.find? (fun p => p.req.id == id && (match p.deadline with
    | some d => decide (s.sliceClock p.slice < d)
    | none => true))

/-- The slice performs the withdrawal that the core of a block being captured sends for a parked request: the entry is freed, and the
block keeps the request with its remaining timeout (R344). -/
def State.withdraw (s : State) (p : Parked) (b : Nat) : State :=
  let left := (p.deadline.map (fun d => d - s.sliceClock p.slice)).getD 0
  ((((s.atPort p.slice (s.tuplePort p.req)).expire p.slice).unpark p).modBlock b (fun B =>
    { B with withdrawn := B.withdrawn ++ [(p.req, left)] }))

/-- The block is frozen for a capture. -/
def Block.frozen (B : Block) : Bool :=
  match B.halt with
  | some (.capture _) => true
  | _ => false

/-- TUPLE_SLICE_SERVE: a request is performed at its home slice, once its port may be served; the tuples of a destroyed region are
discarded first. Two of one warp to one slice are performed in issue order (R343). Of a parked request it is the withdrawal that its
block's capture sends, which its source's earlier requests to the slice precede (R339, R344). -/
def execTupleSliceServe (req : Nat) (s : State) : Host.Outcome State Fault Refusal :=
  match s.tup.sent.find? (fun r => r.id == req) with
  | none =>
    match s.parkedNow req with
    | none => .next s
    | some p =>
      match p.req.src with
      | none => .next s
      | some (b, _) =>
        if ((s.block? b).map Block.frozen).getD false && !s.tup.sent.any (fun q => q.src == p.req.src && q.slice == p.slice) &&
            s.portOpen p.slice (s.tuplePort p.req) && !s.tripped then .next (s.withdraw p b)
        else .next s
  | some r =>
    let earlier := s.tup.sent.takeWhile (fun q => q.id != req)
    let port := s.tuplePort r
    if earlier.any (fun q => q.src == r.src && q.port == r.port && q.slice == r.slice) || !s.releaseDone r ||
        !s.portOpen r.slice port || s.serviceHeld r || s.tripped then .next s
    else
      let sig := match r.src with
        | some (b, w) => ((s.warp? b w).map (·.sig)).getD Sig.empty
        | none => r.sig
      let s1 := (((s.modTup (fun t => { t with sent := t.sent.filter (fun q => q.id != req) })).atPort r.slice port).expire
        r.slice).fillVa none r.ctx (s.regionVa r.ctx r.handle) 32
      let s2 := match s1.regionOf r.ctx r.handle with
        | .ok g => s1.discard r.ctx r.handle g
        | .error _ => s1
      .next (s2.serve r sig)

/-! ## Replies (R332, R334, R342) -/

/-- The operation of a tuple word takes a result: status, tuple, waking the threads it parked, flag falling. -/
def State.tupleLand (s : State) (B : Block) (W : Warp) (o : Op) (dst : Nat) (parked : Mask) (q : TupReply) : State :=
  match q.fault with
  | some (cause, va) =>
    s.abortOp B W o cause va (Config.freeWord 160 s.fresh o.id)
  | none =>
    let put (W : Warp) (n : Nat) (x : Word) : Warp := W.flagWrite s.fresh o.id (.uni n) 0 x
    let W1 := match q.fields with
      | some fs => fs.zipIdx.foldl (fun W e => put (put W (16 + 2 * e.2) (lo32 e.1)) (17 + 2 * e.2) (hi32 e.1)) W
      | none => W
    let W2 := put W1 dst (BitVec.ofNat 32 q.status)
    let W3 := W2.modThreads parked (fun t => if t.status = .parked .tuple then { t with status := .eligible } else t)
    let s1 := s.setWarp B.uid W3
    let s2 := if q.fields.isSome then s1.acquire B.uid W.idx q.sig else s1
    s2.finishOp B.uid W.idx o

/-- TUPLE_REPLY. -/
def execTupleReply (req : Nat) (s : State) : Host.Outcome State Fault Refusal :=
  match s.tup.replies.find? (fun q => q.id == req) with
  | none => .next s
  | some q =>
    let s1 := s.modTup (fun t => { t with replies := t.replies.filter (fun p => p.id != req) })
    match s1.opOwner req with
    | some (B, W, o) =>
      match o.kind with
      | .tuple dst parked => .next (s1.tupleLand B W o dst parked q)
      | _ => .next s1
    | none => .next s1

/-! ## Timeouts and destroyed regions (R340, R341) -/

/-- TUPLE_TIMEOUT: the timeout unit's withdrawal on port 13. -/
def execTupleTimeout (req : Nat) (s : State) : Host.Outcome State Fault Refusal :=
  match s.tup.parked.find? (fun p => p.req.id == req) with
  | none => .next s
  | some p =>
    match p.deadline with
    | some d =>
      if s.sliceClock p.slice < d || !s.portOpen p.slice 13 || s.tripped then .next s
      else .next (((s.atPort p.slice 13).unpark p).reply p.req 2 none none)
    | none => .next s

/-- REGION_DRAIN: a slice withdraws the parked requests whose timeouts have ended (R340) and answers those of region (4,096 × context + index) whose handle is no longer live; the
tuples of a destroyed region are discarded and COUNT counts none of them. -/
def execRegionDrain (slice region : Nat) (s : State) : Host.Outcome State Fault Refusal :=
  let ctx := region / 4096
  if s.regionHeld ctx (region % 4096) || s.tripped then .next s
  else match s.regionOf ctx (region % 4096) with
  | .error _ => .next s
  | .ok g =>
    let s := s.expire slice
    let s1 := (s.tup.parked.filter (fun p => p.slice == slice && sameRegion ctx region p.req.handle &&
      !g.live p.req.ctx p.req.handle)).foldl (fun s p => (s.unpark p).reply p.req 5 none none) s
    .next (s1.discard ctx (region % 4096) g)

end Sys2Proof.Machine
end

