-- ==== Sys2Proof/Machine/Suffix.lean ====
section
/-!
DEFINITION. Suffix matching (R420 to R433): the SX words at issue, a unit's service of one word, and its handle entries.
-/
namespace Sys2Proof.Machine

/-! ## At issue (R425, R426) -/

/-- An SX word leaves issue once every earlier memory word of its warp is performed. -/
def sxEnter (op : Nat) (f : FmtS) (arg : Nat) (handle : Nat) (locs : List Loc) (c : Iss) (s : State) : Res :=
  if !c.W.memIds.isEmpty then .stall
  else
    let d := uniDst f.a
    let x : SxOp :=
      { op := op, dst := d, handle := handle, arg := arg
        toks := if op = 1 then (List.range 32).map (fun l => c.src f.c l) else []
        reg := f.c.toNat, lanes := c.run, begun := none }
    .ok (s.enter c (.sx x) f.setf [] [] (d.toList.map Loc.uni ++ locs))

/-- The words whose operands are the pair w(B), w(B+1): a handle and a number. -/
def sxPair (op : Nat) (f : FmtS) (locs : List Loc) (c : Iss) (s : State) : Res :=
  sxEnter op f (c.uni (f.b.toNat + 1)).toNat (c.uni f.b.toNat).toNat locs c s

/-- SXSAVE and SXLOAD: an image VA in the pair C. -/
def sxImage (op : Nat) (f : FmtS) (c : Iss) (s : State) : Res :=
  let va := (c.uni64 f.c.toNat).toNat
  match checkVa c va 64 with
  | some r => r
  | none => sxEnter op f va (c.uni f.b.toNat).toNat [] c s

def execSxinit (f : FmtS) (s : State) : Host.Outcome State Fault Refusal := issue (.sxinit f) (sxPair 0 f []) s
def execSxapp (f : FmtS) (s : State) : Host.Outcome State Fault Refusal :=
  issueM (.sxapp f) { body := sxPair 1 f [], readMask := fun _ => BitVec.allOnes 32 } s
def execSxqry (f : FmtS) (s : State) : Host.Outcome State Fault Refusal :=
  issue (.sxqry f) (sxPair 2 f [.uni (f.a.toNat + 1), .lane f.c.toNat]) s
def execSxtrim (f : FmtS) (s : State) : Host.Outcome State Fault Refusal := issue (.sxtrim f) (sxPair 3 f []) s
def execSxsave (f : FmtS) (s : State) : Host.Outcome State Fault Refusal := issue (.sxsave f) (sxImage 4 f) s
def execSxload (f : FmtS) (s : State) : Host.Outcome State Fault Refusal := issue (.sxload f) (sxImage 5 f) s

/-! ## Handles (R421, R422) -/

/-- The key of the entry a handle names: unit and index. -/
def sxKey (handle : Nat) : Nat := 65536 * bitsN handle 25 25 + bitsN handle 15 0

def State.sxEntry (s : State) (key : Nat) : SxEntry := tget SxEntry.reset s.sx.entries key
def State.sxIndex (s : State) (key : Nat) : SxIndex := tget SxIndex.reset s.sx.index key
def State.setSxIndex (s : State) (key : Nat) (h : SxIndex) : State :=
  { s with sx := { s.sx with index := tset SxIndex.reset s.sx.index key h } }

def SxEntry.valid (e : SxEntry) : Bool := e.d0.getLsbD 0
def SxEntry.area (e : SxEntry) : Nat := bitsN e.d0.toNat 51 12 * 4096
def SxEntry.ctx (e : SxEntry) : Nat := bitsN e.d1.toNat 31 26
def SxEntry.wmax (e : SxEntry) : Nat := bitsN e.d1.toNat 22 0

/-- The handle is live for a word of this context. -/
def SxEntry.live (e : SxEntry) (ctx handle : Nat) : Bool :=
  bitsN handle 31 26 == ctx && e.valid && bitsN e.d1.toNat 40 32 == bitsN handle 24 16 &&
  bitsN e.d0.toNat 63 52 == 0 && bitsN e.d0.toNat 11 1 == 0 && bitsN e.d1.toNat 63 41 == 0 &&
  bitsN e.d1.toNat 25 23 == 0 && e.d2 == 0 && e.d3 == 0

/-- The memory pages of the index area, with where each lies. -/
def State.areaPages (s : State) (e : SxEntry) : List (Nat × Access) :=
  (List.range (ceilDiv (32 * e.wmax + 4096) 4096)).map (fun i =>
    (e.area + 4096 * i, s.access none e.ctx (e.area + 4096 * i) .rmw))

/-- Writes counted in the area: the unit itself writes nothing there that the model holds. -/
def State.areaWrites (s : State) (e : SxEntry) : Nat :=
  ((s.areaPages e).map (fun p => match p.2 with
    | .mem loc => tget 0 s.mem.wcount (loc / 4096)
    | _ => 0)).foldl (· + ·) 0

/-- What a unit may meet in the area: the code of `EngErr` and the address. -/
def State.areaFaults (s : State) (e : SxEntry) : List EngErr :=
  (s.areaPages e).filterMap (fun p => match p.2 with
    | .fault => some (1, p.1)
    | .mem loc =>
      if s.mem.poisoned loc 4096 || s.mem.bad.any (fun u => u / 256 == loc / 4096) then some (4, p.1) else none
    | _ => some (2, p.1))

/-! ## The proposal (R424) -/

/-- The tokens from local position i, n of them. -/
def sxSlice (c : List Word) (i n : Nat) : List Word := (c.drop i).take n

/-- The largest j below k at which an L-token match of the suffix ends; positions count from E. -/
def sxMatchAt (c : List Word) (l : Nat) : Nat → Option Nat
  | 0 => none
  | k + 1 =>
    if l ≤ k + 1 && sxSlice c (k + 1 - l) l == sxSlice c (c.length - l) l then some k else sxMatchAt c l k

/-- (L, proposal) for the longest match, L at most l. -/
def sxPropose (c : List Word) (dmax : Nat) : Nat → Nat × List Word
  | 0 => (0, [])
  | l + 1 =>
    match (if l + 1 ≤ c.length then sxMatchAt c (l + 1) (c.length - 1) else none) with
    | some j => (l + 1, sxSlice c (j + 1) (min (j + dmax) (c.length - 1) - j))
    | none => sxPropose c dmax l

/-! ## One word at its unit (R427 to R431) -/

/-- What a word comes to: the index state, the memory, and what its warp receives. -/
inductive SxRes where
  | bad (status : Nat)
  | ok (h : SxIndex) (s : State)
  | query (l : Nat) (prop : List Word)
  | fault (e : EngErr) (s : State)

/-- The image of an index state (Table 16.6). -/
def SxIndex.image (h : SxIndex) : List Byte :=
  leBytes 8 (0x0001 * 2 ^ 32 + 0x58534958) ++ leBytes 8 h.n ++ leBytes 8 h.e ++ leBytes 8 h.w ++ leBytes 32 0 ++
  h.toks.flatMap (fun t => leBytes 4 t.toNat)

def sxTok (bs : List Byte) (i : Nat) : Word := BitVec.ofNat 32 (ofLeBytes ((bs.drop (4 * i)).take 4))

/-- n, E and W of an image's header, if it passes SXLOAD's tests. -/
def sxHeader (e : SxEntry) (bs : List Byte) : Option (Nat × Nat × Nat) :=
  let d := dwordAt bs
  let n := bitsN (d 1) 39 0
  let fl := bitsN (d 2) 39 0
  let w := bitsN (d 3) 22 0
  if bitsN (d 0) 31 0 != 0x58534958 || bitsN (d 0) 47 32 != 1 || bitsN (d 0) 63 48 != 0 || bitsN (d 1) 63 40 != 0 ||
      bitsN (d 2) 63 40 != 0 || bitsN (d 3) 63 23 != 0 || d 4 != 0 || d 5 != 0 || d 6 != 0 || d 7 != 0 || w == 0 ||
      decide (e.wmax < w) || decide (n < fl) || decide (w < n - fl) then none
  else some (n, fl, w)

/-- SXLOAD: the header, its tests, the tokens. -/
def State.sxLoad (s : State) (ctx : Nat) (e : SxEntry) (va : Nat) : SxRes :=
  match s.engRead none ctx va 64 with
  | .error x => .fault x s
  | .ok bs =>
    match sxHeader e bs with
    | none => .bad 3
    | some (n, fl, w) =>
      match s.engRead none ctx (va + 64) (4 * (n - fl)) with
      | .error x => .fault x s
      | .ok ts => .ok ⟨n, fl, w, (List.range (n - fl)).map (sxTok ts), s.areaWrites e⟩ s

/-- The bytes of tokens that SXLOAD reads after a header. -/
def State.sxTokenBytes (s : State) (ctx : Nat) (e : SxEntry) (va : Nat) : Nat :=
  match s.engRead none ctx va 64 with
  | .error _ => 0
  | .ok bs => ((sxHeader e bs).map (fun x => 4 * (x.1 - x.2.1))).getD 0

/-- SXSAVE: what is left of the image is written; one that faults may have left any part of it written (R430). -/
def State.sxSave (s : State) (ctx : Nat) (h : SxIndex) (va : Nat) (outs : List (Nat × List Byte)) : SxRes :=
  match s.engWriteAll none ctx outs with
  | .ok s1 => .ok h (s1.unpoisonVa none ctx va h.image.length)
  | .error x => .fault x s

/-- The words of the image an SXSAVE has still to write. -/
def SxOp.left (x : SxOp) (h : SxIndex) : List (Nat × List Byte) :=
  match x.begun with
  | some b => b.2
  | none => piecesOf x.arg h.image

/-- The machine as an SXLOAD finds it, each word at some moment since the unit began it (R305). -/
def State.sxView (s : State) (x : SxOp) : State := s.asOf ((x.begun.map (·.1)).getD s.mem.past.length)

/-- The image's bytes that a word reads or writes: address and number, each. -/
def State.sxTouches (s : State) (ctx : Nat) (e : SxEntry) (h : SxIndex) (x : SxOp) : List (Nat × Nat) :=
  match x.op with
  | 4 => (x.left h).map (fun p => (p.1, p.2.length))
  | 5 => [(x.arg, 64), (x.arg + 64, (s.sxView x).sxTokenBytes ctx e x.arg)]
  | _ => []

/-- The unit's accesses to its index area wait (R296): which pages a word touches is the device's, so it may wait when some page is
held, and does when all are (free, log 34). -/
def State.areaHeld (s : State) (e : SxEntry) : Bool :=
  !s.hbmReady && (let ps := (List.range (ceilDiv (32 * e.wmax + 4096) 4096)).map (fun i => s.vaHeld e.ctx (e.area + 4096 * i) 4096)
    ps.any id && (ps.all id || Config.freeBit 296 s.fresh 1))

def State.sxRun (s : State) (ctx : Nat) (e : SxEntry) (h : SxIndex) (x : SxOp) : SxRes :=
  match x.op with
  | 0 => if x.arg = 0 || decide (e.wmax < x.arg) then .bad 2 else .ok ⟨0, 0, x.arg, [], s.areaWrites e⟩ s
  | 1 =>
    if decide (32 < x.arg) || decide (2 ^ 40 ≤ h.n + x.arg) then .bad 2
    else
      let n := h.n + x.arg
      let fl := max h.e (n - h.w)
      .ok { h with n := n, e := fl, toks := (h.toks ++ x.toks.take x.arg).drop (fl - h.e) } s
  | 2 =>
    if 16 < x.arg then .bad 2
    else if s.areaWrites e != h.seen then
      let l := Config.freeNat 423 s.fresh 0 % 65
      let p := Config.freeNat 423 s.fresh 1 % (x.arg + 1)
      .query l ((List.range p).map (fun i => Config.freeWord 423 s.fresh (2 + i)))
    else
      let r := sxPropose h.toks x.arg (min 64 (h.n - 1))
      .query r.1 r.2
  | 3 => if h.n - h.e < x.arg then .bad 2
    else .ok { h with n := h.n - x.arg, toks := h.toks.take (h.toks.length - x.arg) } s
  | 4 => s.sxSave ctx h x.arg (x.left h)
  | _ => match (s.sxView x).sxLoad ctx e x.arg with
    | .ok h1 _ => .ok h1 s
    | .fault y _ => .fault y s
    | r => r

/-- The reply: status, result and proposal, in its warp as it now stands. -/
def State.sxReply (s : State) (B : Block) (W : Warp) (o : Op) (x : SxOp) (status : Nat) (q : Option (Nat × List Word)) :
    State :=
  let W := (s.warp? B.uid W.idx).getD W
  let uni (W : Warp) (n v : Nat) : Warp := W.flagWrite s.fresh o.id (.uni n) 0 (BitVec.ofNat 32 v)
  let W1 := match x.dst with
    | none => W
    | some d => uni W d status
  let W2 := match q, x.dst with
    | some (l, prop), some d =>
      (lanesOf x.lanes).foldl (fun (W : Warp) (i : Nat) => W.flagWrite s.fresh o.id (.lane x.reg) i (nth 0xFFFFFFFF prop i))
        (uni W1 (d + 1) (l + prop.length * 2 ^ 16))
    | _, _ => W1
  s.setWarp B.uid (W2.modOp o.id (fun o => { o with done := true }))

/-- SX_FAULT or POISON, with the address in %trapaddr, when the reply arrives (R430); POISON's %trapaux is free (log 24). -/
def State.sxFault (s : State) (B : Block) (W : Warp) (o : Op) (e : EngErr) : State :=
  if e.1 = 4 then (s.fillVa none B.ctx e.2 1).abortOp B W o causePoison e.2 (Config.freeWord 160 s.fresh o.id)
  else s.abortOp B W o causeSx e.2 (BitVec.ofNat 32 e.1)

/-- A unit performs one word whole. A word on a live handle that passes BADARG may meet a fault in the index area, the index state
changed or not; which is free (R430; log 50). It waits while its image or its area is held (R296). -/
def State.sxPerform (s : State) (B : Block) (W : Warp) (o : Op) (x : SxOp) : State :=
  let key := sxKey x.handle
  let e := s.sxEntry key
  if !e.live B.ctx x.handle then s.sxReply B W o x 1 none
  else
    let h := s.sxIndex key
    let ts := s.sxTouches B.ctx e h x
    let s0 := ts.foldl (fun s t => s.fillVa none B.ctx t.1 t.2) s
    if s.anyHeld B.ctx ts then s
    else match s0.sxRun B.ctx e h x with
    | .fault f s1 => s1.sxFault B W o f
    | r =>
      let (s1, st, q) : State × Nat × Option (Nat × List Word) := match r with
        | .ok h1 s1 => (s1.setSxIndex key h1, 0, none)
        | .query l p => (s0, 0, some (l, p))
        | .bad st => (s0, st, none)
        | _ => (s0, 0, none)
      if st ≠ 2 && s.areaHeld e then s
      else match (if st = 2 then [] else s.areaFaults e) with
      | [] => s1.sxReply B W o x st q
      | f :: fs =>
        if !Config.freeBit 430 s.fresh 0 then s1.sxReply B W o x st q
        else
          let g := nth f (f :: fs) (Config.freeNat 430 s.fresh 1 % (fs.length + 1))
          if x.op = 5 || Config.freeBit 430 s.fresh 3 then s0.sxFault B W o g else s1.sxFault B W o g

/-- A word may be served: the warp's earlier words on its handle have been, and the unit is in no other word on it (R431). -/
def State.sxMay (s : State) (W : Warp) (id : Nat) (x : SxOp) : Bool :=
  !s.tripped &&
  !((W.opsBefore id).any (fun y => match y.kind with
    | .sx z => !y.done && sxKey z.handle == sxKey x.handle
    | _ => false)) &&
  !(s.blocks.any (fun B => B.warps.any (fun V => V.ops.any (fun y => match y.kind with
    | .sx z => y.id != id && !y.done && z.begun.isSome && sxKey z.handle == sxKey x.handle
    | _ => false))))

/-- SX_UNIT_PERFORM: the words of one warp on one handle arrive in issue order. -/
def execSxUnitPerform (op : Nat) (s : State) : Host.Outcome State Fault Refusal :=
  match s.opOwner op with
  | none => .next s
  | some (B, W, o) =>
    match o.kind with
    | .sx x => if o.done || !s.sxMay W op x then .next s else .next (s.sxPerform B W o x)
    | _ => .next s

/-- What a unit does of SXSAVE and SXLOAD word by word (R305, R430): part 0 begins the word on a live handle; the parts after it
write single 4-byte words of SXSAVE's image. -/
def State.sxPart (s : State) (B : Block) (W : Warp) (o : Op) (x : SxOp) (i : Nat) : State :=
  let put (s : State) (y : SxOp) : State := s.modWarp B.uid W.idx (fun W => W.modOp o.id (fun o => { o with kind := .sx y }))
  if !s.sxMay W o.id x || !(s.sxEntry (sxKey x.handle)).live B.ctx x.handle || decide (x.op < 4) then s
  else match i, x.begun with
  | 0, none => if s.areaHeld (s.sxEntry (sxKey x.handle)) then s else put s { x with begun := some (s.mem.past.length,
      if x.op = 4 then piecesOf x.arg (s.sxIndex (sxKey x.handle)).image else []) }
  | k + 1, some b =>
    match b.2[k]? with
    | none => s
    | some p =>
      if s.vaHeld B.ctx p.1 p.2.length then s
      else match (s.fillVa none B.ctx p.1 p.2.length).engWrite none B.ctx p.1 p.2 with
      | .error _ => s
      | .ok s1 => put s1 { x with begun := some (b.1, b.2.eraseIdx k) }
  | _, _ => s

/-! ## Handle entries (R422) -/

def SxEntry.bytes (e : SxEntry) : List Byte :=
  leBytes 8 e.d0.toNat ++ leBytes 8 e.d1.toNat ++ leBytes 8 e.d2.toNat ++ leBytes 8 e.d3.toNat

/-- What the host reads of an entry: reserved bits read as 0 (R6), though the handle's check sees them as written (R421; log 69). -/
def SxEntry.shown (e : SxEntry) : SxEntry :=
  ⟨e.d0 &&& 0x000FFFFFFFFFF001, e.d1 &&& 0x000001FFFC7FFFFF, 0, 0⟩

def SxEntry.of (bs : List Byte) : SxEntry :=
  let d (i : Nat) : Dword := BitVec.ofNat 64 (dwordAt bs i)
  ⟨d 0, d 1, d 2, d 3⟩

/-- SXH_WRITE: bytes of an entry; VALID going to 1 sets the index state. In RECOVERY the window does not answer (R450). -/
def execSxhWrite (unit : Bool) (handle : BitVec 16) (offset : BitVec 5) (bytes : List (BitVec 8)) (s : State) :
    Host.Outcome State Fault Refusal :=
  let key := 65536 * b2n unit + handle.toNat
  let e := s.sxEntry key
  let old := e.bytes
  let n := offset.toNat
  let e1 := SxEntry.of ((old.take n ++ bytes ++ old.drop (n + bytes.length)).take 32)
  let s1 : State := { s with sx := { s.sx with entries := tset SxEntry.reset s.sx.entries key e1 } }
  if s.trust.bootstat = bootRecovery then .next s
  else .next (if !e.valid && e1.valid then s1.setSxIndex key ⟨0, 0, e1.wmax, [], s1.areaWrites e1⟩ else s1)

end Sys2Proof.Machine
end

