-- ==== Sys2Proof/Machine/Select.lean ====
section
/-!
DEFINITION. Choosing the warp that issues on a sub-partition (R149, R150), what a turn does before its agent moves, and
the placement of one word for the next step to fetch.
-/
namespace Sys2Proof.Machine

/-- n more milliseconds in a bin of a histogram, which stays at the greatest value (R454). -/
def addBin (t : Tab Dword) (key n : Nat) : Tab Dword := tset 0 t key (BitVec.ofNat 64 (min ((tget 0 t key).toNat + n) (2 ^ 64 - 1)))

/-- n milliseconds among the bins of a die from bin b down, as its temperature was: not stated, so each bin takes a free
part and the last the rest (log 33). -/
def residency (fr die : Nat) : Nat → Nat → Tab Dword → Tab Dword
  | 0, n, t => addBin t (16 * die) n
  | b + 1, n, t =>
    let k := Config.freeNat 454 fr (16 * die + b) % (n + 1)
    residency fr die b (n - k) (addBin t (16 * die + b + 1) k)

/-- The histograms of the dies after the whole milliseconds that pass (R454). -/
def TelSt.pass (t : TelSt) (fr ms : Nat) : TelSt :=
  if ms = 0 then t else { t with hist := [0, 1, 2, 3].foldl (fun h d => residency fr d 15 ms h) t.hist }

/-- Abort records and signals that waited for their memory go on (R296), and the slices do what no step of the model names, unless the module has
tripped (R371). -/
def State.background (s : State) : State :=
  if s.tripped then s
  else
    let s1 := if s.host.abtHeld.isEmpty then s else s.flushAborts
    (if s1.host.sigHeld.isEmpty then s1 else s1.flushSignals).slicesAct

/-- Time passes (R130, R131): the dies' clocks count, unless the module has tripped (R371), the time base and the
histograms count, and the fresh-value counter and the schedule move on; the epoch boundaries passed are brought (R318), but for
one that is this turn's own step. What waits for nothing else goes on (`background`). -/
def State.beginTurn (s : State) (t : Turn) : State :=
  let adv (d n : Nat) (s : State) : State :=
    if s.tripped then s else s.modDie d (fun x => { x with clock := x.clock + n })
  let s1 := adv 0 t.ticks.d0 (adv 1 t.ticks.d1 (adv 2 t.ticks.d2 (adv 3 t.ticks.d3 s)))
  let now := s.time + t.ticks.ns
  let passed := now / 65536 - s.epoch
  (({ s1 with
    time := now, fresh := s.fresh + 1, schedule := s.schedule.tail
    tel := s.tel.pass s.fresh (now / 1000000 - s.time / 1000000) } : State).passEpochs
      (if t.act = .event .epochBoundary then passed - 1 else passed)).background

/-- What a warp would issue next: an instruction, or the fetch fault of its PC; nothing while its fetch is held (R296). -/
def State.nextWord (s : State) (B : Block) (W : Warp) : Option Instr :=
  match s.runOf B W with
  | none => none
  | some (_, pc) =>
    match W.rep with
    | some r =>
      if s.fetchHeld W.core B.ctx (pc + 8) then none
      else match s.fetch W.core B.ctx (pc + 8) with
      | .word t => some (.repIteration r.word t)
      | _ => some .instructionFetchFault
    | none =>
      if s.fetchHeld W.core B.ctx pc then none
      else match s.fetch W.core B.ctx pc with
      | .word x => some (decodeWord x)
      | _ => some .instructionFetchFault

/-- The word whose DIST, WAIT and SETF an instruction waits by: a REP target's own (R84). -/
def issuedWord : Instr → Instr
  | .repIteration _ t => decodeWord t
  | i => i

/-- The word whose effect an issue has: a REP target with its fields stepped (R84). -/
def Warp.effective (W : Warp) (fr : Nat) (i : Instr) : Instr :=
  match i with
  | .repIteration rep t => ((steppedTarget rep t (W.iteration fr rep)).map (fun x => decodeWord x.1)).getD i
  | i => i

/-- Some walk of a global memory word waits in a die's HBM4E (R296), so that the load-store unit does not take the word. -/
def State.walksWait (s : State) (c : Iss) (i : Instr) : Bool :=
  let waits (n : Nat) (need : Need) (tokened : Bool) (xs : List (Nat × Nat)) : Bool :=
    match s.checkGlobal c n n need kindRead tokened xs with
    | .error .stall => true
    | _ => false
  !s.hbmReady && (match i with
    | .ldLane k f => waits (loadSize k) .read false (laneAddrs c (eaOf (laneBase f c) f.off (loadSize k)))
    | .ldUniform k f => waits (loadSize k) .read false (laneAddrs c (eaOf (uniBase f c) f.off (loadSize k)))
    | .stLane k f => waits (storeSize k) .write true (laneAddrs c (eaOf (laneBase f c) f.off (storeSize k)))
    | .stUniform k f => waits (storeSize k) .write true (laneAddrs c (eaOf (uniBase f c) f.off (storeSize k)))
    | .lda w64 f => waits (if w64 then 8 else 4) .read false (laneAddrs c (eaOf (laneBase f c) f.off (if w64 then 8 else 4)))
    | .str w64 f => waits (if w64 then 8 else 4) .write true (laneAddrs c (eaOf (laneBase f c) f.off (if w64 then 8 else 4)))
    | .atom f => waits (if f.sub.getLsbD 6 then 8 else 4) .rmw true (laneAddrs c (fun l => (c.src64 f.b l).toNat))
    | .monitor f => waits 1 .read false (((lowestLane c.exec).map (fun l => (l, (c.src64 f.b l).toNat))).toList)
    | _ => false)

/-- Test 5 of R149, as far as it is architectural: an NBAR arrive or sync waits until no thread of its run has an arrival
outstanding there (R266); a selector word for a place in its cluster's queue (R273); a KV word for its warp's earlier stores, and for
a place in its engine's queue (R408); an SX word for its warp's memory words (R426); ATTN for its warp's scratch stores (R252); and
any word that reads memory at issue for that memory (R296). -/
def State.unitAccepts (s : State) (c : Iss) (i : Instr) : Bool :=
  let nbar (f : FmtS) : Bool :=
    !(c.W.brecAt (1 + f.a.toNat % 16)).outstanding (nth Barrier.reset c.B.barriers (1 + f.a.toNat % 16)).q c.run
  let selq : Bool := decide ((s.selQueue (coreCluster c.W.core)).length < 32)
  match i with
  | .nbarArrive f => nbar f
  | .nbarSync f => nbar f
  | .psel _ => selq
  | .topk _ => selq
  | .mergek _ => selq
  | .dsweep _ => c.W.storesDone && s.kvRoom c.W.core
  | .pgrecall _ => c.W.storesDone && s.kvRoom c.W.core
  | .pgdemote _ => c.W.storesDone && s.kvRoom c.W.core
  | .pgpin _ => c.W.storesDone
  | .pgunpin _ => c.W.storesDone
  | .sxinit _ => c.W.memIds.isEmpty
  | .sxapp _ => c.W.memIds.isEmpty
  | .sxqry _ => c.W.memIds.isEmpty
  | .sxtrim _ => c.W.memIds.isEmpty
  | .sxsave _ => c.W.memIds.isEmpty
  | .sxload _ => c.W.memIds.isEmpty
  | .attn f => c.W.scratchSettled && !s.attnHeld c (AttnBlock.of (fun i => (c.uni (f.b.toNat + i)).toNat))
  | i => !s.walksWait c i

/-- The warp's next word passes every test of R149. -/
def State.warpReady (s : State) (B : Block) (W : Warp) : Bool :=
  s.mayIssue B W &&
  (match s.nextWord B W, s.runOf B W with
    | some i, some (run, pc) =>
      let j := issuedWord i
      match ctlOf j, shapeOf j with
      | some c, some h =>
        let now := s.clockOf W.core
        let at' := W.site s.fresh pc
        W.ready now c h.setf && s.unitAccepts
          (s.issFor j B W ((W.heard c.wait).begin run at'.2 c.dist.toNat h.setf now) run at'.1) (W.effective s.fresh i)
      | some c, none => W.ready (s.clockOf W.core) c 15
      | none, _ => true
    | _, _ => false)

/-- The resident warps of a sub-partition, with their blocks, in ascending slot order. -/
def State.subpWarps (s : State) (core subp : Nat) : List (Block × Warp) :=
  (List.range 16).filterMap (fun k =>
    s.blocks.findSome? (fun B => (B.warps.find? (fun W =>
      W.core == core && W.slot == 4 * k + subp && !W.freed)).map (fun W => (B, W))))

/-- The warp `cur` must issue next: an open chain whose next word continues it, or a word after LIT (R150). -/
def State.locked (s : State) (core subp : Nat) : Option (Block × Warp) :=
  (s.subp (core * 4 + subp)).cur.bind (fun bw => (s.block? bw.1).bind (fun B => (B.warp? bw.2).bind (fun W =>
    if W.core == core && W.subp == subp && (B.halt.isNone || s.runsOn B W) && W.rep.isNone && (s.boundRun B W).isSome then some (B, W)
    else none)))

/-- The warp R150 selects, if any. -/
def State.selectWarp (s : State) (core subp : Nat) : Option (Block × Warp) :=
  match s.locked core subp with
  | some (B, W) => if s.warpReady B W then some (B, W) else none
  | none =>
    let sp := s.subp (core * 4 + subp)
    let c := (s.subpWarps core subp).filter (fun bw => s.warpReady bw.1 bw.2)
    match c.find? (fun bw => s.holdsToken bw.1 bw.2.idx) with
    | some bw => some bw
    | none =>
      match c.find? (fun bw => sp.cur == some (bw.1.uid, bw.2.idx) && decide (sp.g < 16)) with
      | some bw => some bw
      | none =>
        match c.find? (fun bw => decide (sp.slot < bw.2.slot)) with
        | some bw => some bw
        | none => c.head?

/-- Make a warp the sub-partition's current warp (R150): the latches, and the chain, of the previous one are lost. -/
def State.makeCurrent (s : State) (core subp : Nat) (B : Block) (W : Warp) : State :=
  let k := core * 4 + subp
  let sp := s.subp k
  if sp.cur = some (B.uid, W.idx) then s.modSubp k (fun x => { x with g := x.g + 1, slot := W.slot })
  else
    let s1 := match sp.cur with
      | some bw => s.modWarp bw.1 bw.2 (fun V =>
          if V.subpKey = k then { V with prev := none, latches := [] } else V)
      | none => s
    s1.modSubp k (fun _ => ⟨some (B.uid, W.idx), 1, W.slot⟩)

/-- What the fetch of an address from s leaves in the state u: the translation kept by the TLB, the line filled. -/
def State.fetched (s : State) (core ctx : Nat) (pc : BitVec 52) (u : State) : State :=
  (u.tlbKeep (coreCluster core) ctx pc.toNat (s.translate (some (coreCluster core)) ctx pc.toNat)).fetchFill core ctx pc

/-- Select a word on a sub-partition: the instruction, and the state in which its warp issues it, its word fetched. A core that is none of R3, or a module that has tripped, issues nothing. -/
def State.selectWord (s : State) (core subp : Nat) : Option (Instr × State) :=
  if !coreIdValid core || decide (4 ≤ subp) || s.tripped then none
  else
    match s.selectWarp core subp with
    | none => none
    | some (B, W) =>
      match s.nextWord B W, s.runOf B W with
      | some i, some (_, pc) =>
        let s1 := s.fetched core B.ctx (if W.rep.isSome then pc + 8 else pc) (s.makeCurrent core subp B W)
        some (i, { s1 with cur := some ⟨B.uid, W.idx⟩ })
      | _, _ => none

/-! ## Placing one word -/

def Warp.reset (idx core slot : Nat) (entry : BitVec 52) (lanes : Nat) (param : Nat) : Warp :=
  { idx := idx, core := core, slot := slot
    threads := Vector.ofFn (fun l =>
      { Thread.reset with pc := entry, status := if l.val < lanes then .eligible else .exited })
    v := []
    w := tset 0 (tset 0 [] 0 (BitVec.ofNat 32 param)) 1 (BitVec.ofNat 32 (param / 2 ^ 32))
    flags := [], latches := [], acc := [], ordinal := [], shape := 0x00060210, repc := 0
    trap := ⟨0, 0, 0, 0, 0, 0⟩, handler := 0, skip := ⟨false, 0, false, 0⟩
    mon := ⟨false, 0, false, none, none⟩, sig := Sig.empty, brec := [], grec := ArrRec.none
    ops := [], early := [], unwaited := [], prev := none, rep := none, lastIssue := none, held := []
    heldTrap := ⟨0, 0, 0, 0, 0, 0⟩, freed := false
    badV := [], badW := [], badAcc := [], weakV := [], weakW := [], weakAcc := [], fixed := 0 }

/-- The VA, and PA, at which `placeWord` stores its word. -/
def placedAt : Nat := 0x10000

/-- Table entries of `placeWord`: level 0 to level 1 to level 2, whose entry 0 is a leaf of 1 GiB at PA 0 with R, W, X. -/
def placedTables : List (Nat × Nat) := [(0x1000, 0x2001), (0x2000, 0x3001), (0x3000, 0x20F)]

def State.placeWord (s : State) (bytes : List Byte) : State :=
  let m0 := placedTables.foldl (fun m e => m.write e.1 (leBytes 8 e.2)) s.mem
  let m1 := m0.write placedAt (bytes ++ leBytes (8 - bytes.length) 0)
  let uid := s.nextUid
  let record : List Dword := [0, 0x0003000000000000, 0x010000000000001F, 0x0000000013000000] ++ List.replicate 12 0
  let L : Launch :=
    { uid := uid, num := 0, queue := 0, ctx := 0, prio := 0, record := record, onlyN := false, text := 0, windows := [],
      blocks := 1, placed := 1, freed := [], aborted := 0, counter := none, rangeCores := [], gridSig := Sig.empty,
      token := ⟨none, false, Sig.empty⟩, ladder := none, suspended := false, snap := none, snapSig := Sig.empty, memberDie := none }
  let B : Block :=
    { uid := uid + 1, launch := uid, ctx := 0, logid := 0, a := 248, u := 64, nacc := 8, nbars := 16, scope := 2,
      scratch := 4096, warps := [Warp.reset 0 0 0 (BitVec.ofNat 52 placedAt) 32 0], cores := [0], slots := [(0, 0)],
      barriers := List.replicate 17 Barrier.reset, sched := 0, migcount := 0, mig := false, garr := false, gphase := 0,
      halt := none, withdrawn := [] }
  let A : Alloc := ⟨uid + 2, uid + 1, 0, 1, 4096, [], [], [⟨0, some (0, 0), 0⟩], [(0, 0)], 0, [], [], []⟩
  { s with
    mem := m1
    host := { s.host with cpt := tset 0 s.host.cpt 0 0x1001 }
    dies := s.dies.modify 0 (fun x => { x with lock := true })
    launches := L :: s.launches
    blocks := [B]
    allocs := A :: s.allocs
    nextUid := uid + 3
    schedule := [⟨⟨1, 1, 1, 1, 1⟩, .issue 0 0⟩] }

end Sys2Proof.Machine
end

