-- ==== Sys2Proof/Machine/Placement.lean ====
section
/-!
DEFINITION. Seating blocks on clusters: admission (R139, R258 to R260, R471), warp slots (R138), block slots, scratch pages
and their pins (R153, R154), new blocks (R145, R374, Table 5.2), and the order of R380.
-/
namespace Sys2Proof.Machine

/-! ## What a core's residents hold (R138, R139, Table 5.1) -/

/-- Block slots, scratch translation entries, and per sub-partition the warps, warp-registers and tiles in use. -/
structure CoreUse where
  slots : Nat
  stt : Nat
  warps : List Nat
  lanes : List Nat
  tiles : List Nat
  deriving DecidableEq, Repr

def CoreUse.empty : CoreUse := ⟨0, 0, [0, 0, 0, 0], [0, 0, 0, 0], [0, 0, 0, 0]⟩

/-- The warps resident on a core, with their blocks. -/
def State.onCore (s : State) (core : Nat) : List (Block × Warp) :=
  s.blocks.flatMap (fun B => (B.warps.filter (fun W => W.core == core && !W.freed)).map (fun W => (B, W)))

/-- The block slots in use on a core. -/
def State.blockSlots (s : State) (core : Nat) : List Nat :=
  s.blocks.flatMap (fun B => (B.slots.filter (fun x => x.1 == core)).map (·.2))

/-- The scratch translation entries of a core: each allocation held there, with its slot (R155). -/
def State.sttAllocs (s : State) (core : Nat) : List (Nat × Alloc) :=
  s.allocs.filterMap (fun a => (a.slots.find? (fun x => x.1 == core)).map (fun x => (x.2, a)))

def State.coreUse (s : State) (core : Nat) : CoreUse :=
  let ws := s.onCore core
  let per (f : Block × Warp → Nat) : List Nat :=
    (List.range 4).map (fun p => sumNat ((ws.filter (fun x => x.2.subp == p)).map f))
  ⟨(s.blockSlots core).length, sumNat ((s.sttAllocs core).map (fun x => x.2.pages.length)),
    per (fun _ => 1), per (fun x => x.1.a), per (fun x => x.1.nacc)⟩

/-! ## What a block asks for -/

/-- Warps, lane and tile allotments, whether its level is bound to the cluster domain, its scratch scope, virtual pages per
allocation, and the warps (first, count) of each core-scope allocation of an earlier placement. -/
structure Wants where
  warps : Nat
  a : Nat
  nacc : Nat
  cluster : Bool
  scope : Nat
  pages : Nat
  ranges : Option (List (Nat × Nat))
  deriving DecidableEq, Repr

/-- Contiguous shares of w warps on c cores: (first warp, count) (R258). -/
def sharesOf (w c : Nat) : List (Nat × Nat) :=
  (List.range c).map (fun i => (i * (w / c) + min i (w % c), w / c + if i < w % c then 1 else 0))

/-- Two runs of warps meet. -/
def meets (x y : Nat × Nat) : Bool := decide (x.1 < y.1 + y.2) && decide (y.1 < x.1 + x.2)

/-- How many of the block's allocations a share's warps reach (R260, R471). -/
def Wants.allocs (n : Wants) (share : Nat × Nat) : Nat :=
  match n.scope with
  | 0 => 0
  | 1 => (n.ranges.map (fun rs => (rs.filter (meets share)).length)).getD 1
  | _ => 1

def regsPerSub (cls : Nat) : Nat := if cls = 0 then 1024 else 768
def slotsPerSub (cls : Nat) : Nat := if cls = 0 then 16 else 12

/-- The conditions of R139 for one share on one core, and the core after it. -/
def CoreUse.take (cls : Nat) (u : CoreUse) (n : Wants) (share : Nat × Nat) : Option CoreUse :=
  let k := n.allocs share
  let add (l : List Nat) (per : Nat) : List Nat := l.mapIdx (fun (p x : Nat) => x + ((share.2 + 3 - p) / 4) * per)
  let v : CoreUse := ⟨u.slots + max 1 k, u.stt + k * n.pages, add u.warps 1, add u.lanes n.a, add u.tiles n.nacc⟩
  if v.slots ≤ 16 && v.stt ≤ 256 && v.warps.all (fun x => decide (x ≤ slotsPerSub cls)) &&
      v.lanes.all (fun x => decide (x ≤ regsPerSub cls)) && v.tiles.all (fun x => decide (x ≤ 8)) then some v
  else none

/-- The sets of c cluster positions in lexicographic order (R258). -/
def coreSets : Nat → List (List Nat)
  | 1 => [[0], [1], [2], [3]]
  | 2 => [[0, 1], [0, 2], [0, 3], [1, 2], [1, 3], [2, 3]]
  | _ => [[0, 1, 2], [0, 1, 3], [0, 2, 3], [1, 2, 3]]

/-- One share of a seating: cluster position, first warp, count. -/
abbrev Seat := Nat × Nat × Nat

/-- Admit shares on positions, all or none. -/
def takeAll (cls : Nat) (n : Wants) : List CoreUse → List Seat → Option (List CoreUse)
  | us, [] => some us
  | us, (p, first, count) :: r =>
    match (nth CoreUse.empty us p).take cls n (first, count) with
    | none => none
    | some u => takeAll cls n (setNth us p u) r

/-- The seats of R258 in a cluster whose cores hold `us`: the smallest number of cores, and the first set of that many;
with what the cores hold after. -/
def seatIn (cls : Nat) (us : List CoreUse) (n : Wants) : Option (List Seat × List CoreUse) :=
  let most := if n.cluster then (if cls = 0 then 2 else 3) else 1
  (List.range (min most n.warps)).findSome? (fun i =>
    (coreSets (i + 1)).findSome? (fun ps =>
      let seats := (ps.zip (sharesOf n.warps (i + 1))).map (fun x => (x.1, x.2.1, x.2.2))
      (takeAll cls n us seats).map (fun us' => (seats, us'))))

def emptyCluster : List CoreUse := List.replicate 4 CoreUse.empty

/-- How many blocks of one need a cluster takes as it stands; 64 block slots bound it. -/
def roomIn (cls : Nat) (n : Wants) : Nat → List CoreUse → Nat
  | 0, _ => 0
  | fuel + 1, us =>
    match seatIn cls us n with
    | some (_, us') => 1 + roomIn cls n fuel us'
    | none => 0

/-- An empty cluster of a class admits one block. -/
def fitsClass (cls : Nat) (n : Wants) : Bool := (seatIn cls emptyCluster n).isSome

def State.clusterUse (s : State) (cl : Nat) : List CoreUse := (clusterCores cl).map s.coreUse

def clusterClass (cl : Nat) : Nat := dieClass (clusterDie cl)

/-! ## A launch's blocks (R373, R374) -/

/-- Bits hi down to lo of a record's dword. -/
def recBits (r : List Dword) (i hi lo : Nat) : Nat := bitsN (nth 0 r i).toNat hi lo

/-- The index of the block level: the first with DOM 2 or more. -/
def blockLevel (levels : List Nat) : Nat := (levels.takeWhile (fun l => decide (levelDom l < 2))).length

/-- Threads per block, and blocks. -/
def threadsPerBlock (levels : List Nat) : Nat := prodNat ((levels.take (blockLevel levels)).map levelExt)
def blockCount (levels : List Nat) : Nat := prodNat ((levels.drop (blockLevel levels)).map levelExt)

/-- Virtual pages of a declared allocation (R153). -/
def pagesOf (scratch : Nat) : Nat := ceilDiv scratch 4096

/-- The scope of a launch's blocks. -/
def scopeOf (r : List Dword) : Nat := levelScope (nth 0 (levelsOf r) (blockLevel (levelsOf r)))

def needOf (r : List Dword) : Wants :=
  let lv := levelsOf r
  { warps := warpsPerBlock r, a := recBits r 6 63 56, nacc := recBits r 6 47 44
    cluster := levelDom (nth 0 lv (blockLevel lv)) == 3
    scope := scopeOf r, pages := if scopeOf r = 0 then 0 else pagesOf (recBits r 6 20 0), ranges := none }

/-- Blocks in a member of each die-bound level, outermost first (R375). -/
def memberSizes (levels : List Nat) : List Nat :=
  ((levels.zipIdx.filter (fun x => levelDom x.1 == 4)).reverse).map (fun x =>
    prodNat (((levels.take x.2).drop (blockLevel levels)).map levelExt))

/-- The clusters a launch may use (MINCLS, R348, R259). -/
def clustersFor (onlyN : Bool) : List Nat := allClusters.filter (fun cl => !onlyN || clusterClass cl == 0)

/-- Blocks of one need that the empty clusters among some take. -/
def emptyRoom (n : Wants) (cls : List Nat) : Nat := sumNat (cls.map (fun cl => roomIn (clusterClass cl) n 64 emptyCluster))

/-- Blocks of one need that each die takes when it is empty. -/
def emptyRooms (onlyN : Bool) (n : Wants) : List Nat :=
  (List.range 4).map (fun d => emptyRoom n ((clustersFor onlyN).filter (fun cl => clusterDie cl == d)))

/-- The groups of blocks, in ascending %block, that each go to one die, as (groups, blocks of each): of the members of the die-bound
levels, outermost first, as many as the dies' rooms hold whole; what no single die can admit is divided at the next level in, and at
last block by block (R375). -/
def groupAll : List Nat → List Nat → Nat → List (Nat × Nat)
  | [], _, blocks => [(blocks, 1)]
  | m :: r, rooms, blocks =>
    let g := min (blocks / m) (sumNat (rooms.map (· / m)))
    (g, m) :: groupAll r (rooms.map (· % m)) (blocks - g * m)

/-- The groups of a launch: a cooperative grid's members all have to find room at once; another's go one after the other, each to a
die that, empty, admits it. -/
def groupsOf (coop : Bool) (rooms levels : List Nat) (blocks : Nat) : List (Nat × Nat) :=
  if coop then groupAll (memberSizes levels) rooms blocks
  else match (memberSizes levels).find? (fun m => rooms.any (fun x => decide (m ≤ x))) with
    | some m => [(blocks / m, m)]
    | none => [(blocks, 1)]

/-- The size of the group of block k, and whether the block is its first. -/
def groupAt : List (Nat × Nat) → Nat → Nat × Bool
  | [], _ => (1, true)
  | (g, m) :: r, k => if k < g * m then (m, k % m == 0) else groupAt r (k - g * m)

/-! ## Seating (R138, R145, R153, R471) -/

/-- The lowest free slot of sub-partition p. -/
def freeSlot (used : List Nat) (p : Nat) : Nat :=
  (((List.range 16).map (fun k => 4 * k + p)).find? (fun x => !used.contains x)).getD p

/-- Slots for n warps of a share, warp j in sub-partition j mod 4. -/
def slotsFor (used : List Nat) : Nat → Nat → List Nat
  | 0, _ => []
  | n + 1, j => let x := freeSlot used (j % 4); x :: slotsFor (x :: used) n (j + 1)

/-- k of the free block slots of a core; which, the spec does not say (free). -/
def takeSlots (fr core : Nat) : Nat → List Nat → List Nat
  | 0, _ => []
  | k + 1, used =>
    let free := (List.range 16).filter (fun x => !used.contains x)
    let x := nth 0 free (Config.freeNat 139 fr (64 * core + k) % max 1 free.length)
    x :: takeSlots fr core k (x :: used)

/-- The physical scratch pages of a core. -/
def physPages (core : Nat) : Nat := if coreClass core = 0 then 64 else 48

/-- Pin pages in ascending order, each to the lowest free physical page of the first core that has one (R153). -/
def pinPages (order : List Nat) : List (Nat × Nat) → List SttPage → List SttPage
  | _, [] => []
  | used, p :: r =>
    match order.findSome? (fun c => ((List.range (physPages c)).find? (fun k => !used.contains (c, k))).map (fun k => (c, k))) with
    | some x => { p with pin := some x } :: pinPages order (x :: used) r
    | none => { p with pin := none } :: pinPages order used r

def State.pinned (s : State) : List (Nat × Nat) := s.allocs.flatMap (fun a => a.pages.filterMap (·.pin))

/-- A share on its core: core, first warp, count. -/
abbrev Share := Nat × Nat × Nat

def sharesAt (cl : Nat) (seats : List Seat) : List Share := seats.map (fun x => (nth 0 (clusterCores cl) x.1, x.2.1, x.2.2))

/-- Give the block's warps their cores and slots. -/
def State.seatWarps (s : State) (B : Block) (shares : List Share) : Block :=
  let place : List (Nat × Nat × Nat) := shares.flatMap (fun x =>
    ((slotsFor ((s.onCore x.1).map (fun y => y.2.slot)) x.2.2 0).zipIdx).map (fun y => (x.2.1 + y.2, x.1, y.1)))
  { B with
    cores := shares.map (·.1)
    warps := B.warps.map (fun W => match place.find? (fun x => x.1 == W.idx) with
      | some x => { W with core := x.2.1, slot := x.2.2 }
      | none => W) }

/-- The block slots of a share's core, and which of the allocations (by place in the list) carries which (R471). -/
def State.slotPlan (s : State) (allocs : List Alloc) (x : Share) : List (Nat × Option Nat) :=
  let here := (allocs.zipIdx.filter (fun a => meets (a.1.first, a.1.count) (x.2.1, x.2.2))).map (·.2)
  let ks := takeSlots s.fresh x.1 (max 1 here.length) (s.blockSlots x.1)
  match here with
  | [] => ks.map (fun k => (k, none))
  | _ => (ks.zip here).map (fun e => (e.1, some e.2))

/-- Pin the allocations' pages, in order, each starting at the core that holds its lowest-indexed warp. -/
def pinAllocs (cl : Nat) (B : Block) : List (Nat × Nat) → List Alloc → List Alloc
  | _, [] => []
  | used, a :: r =>
    let own := ((B.warps[a.first]?).map (·.core)).getD (nth 0 (clusterCores cl) 0)
    let ps := pinPages (own :: (clusterCores cl).filter (· != own)) used a.pages
    { a with pages := ps } :: pinAllocs cl B (ps.filterMap (·.pin) ++ used) r

/-- The allocations of a block, in ascending order of their first warps. -/
def State.allocsOf (s : State) (b : Nat) : List Alloc := s.allocs.filter (fun a => a.owner == b)

/-- The write-back of a block's pinned pages waits for their memory (R296). -/
def State.pinsHeld (s : State) (b : Nat) : Bool :=
  s.backHeld ((s.allocsOf b).map (fun a => { a with pages := a.pages.filter (fun p => p.pin.isSome) }))

/-- Pin a seated block's pages (R153). -/
def State.pinBlock (s : State) (b : Nat) : State :=
  match s.block? b with
  | none => s
  | some B =>
    let ps := pinAllocs (coreCluster ((B.cores.head?).getD 0)) B s.pinned (s.allocsOf b)
    { s with allocs := s.allocs.map (fun a => (ps.find? (fun x => x.id == a.id)).getD a) }

/-- Seat a block and its allocations on a cluster, their pages not yet pinned. -/
def State.seat (s : State) (B : Block) (allocs : List Alloc) (cl : Nat) (seats : List Seat) : State :=
  let shares := sharesAt cl seats
  let plan := shares.map (fun x => (x.1, s.slotPlan allocs x))
  let B1 := { s.seatWarps B shares with slots := plan.flatMap (fun e => e.2.map (fun k => (e.1, k.1))) }
  let as1 := allocs.mapIdx (fun (i : Nat) (a : Alloc) =>
    { a with slots := plan.flatMap (fun e => (e.2.filter (fun k => k.2 == some i)).map (fun k => (e.1, k.1))) })
  { s with blocks := s.blocks ++ [B1], allocs := s.allocs ++ as1 }

/-- The core's L1 keeps only words it owns (R383). -/
def State.l1Fresh (s : State) (cores : List Nat) : State :=
  cores.foldl (fun s c => { s with mem := s.mem.l1Invalidate c (fun _ => true) }) s

/-- The allocations of a new block: one for each share, or one for the block (R260). -/
def newAllocs (uid ctx : Nat) (n : Wants) (size : Nat) (seats : List Seat) : List Alloc :=
  let one (i first count : Nat) : Alloc :=
    let id := uid + 1 + i
    ⟨id, uid, first, count, size, [], [],
      (List.range n.pages).map (fun vpn => ⟨vpn, none, Config.backingPage (256 * id + vpn)⟩), [], ctx, [], [], []⟩
  match n.scope with
  | 0 => []
  | 1 => seats.mapIdx (fun (i : Nat) (x : Seat) => one i x.2.1 x.2.2)
  | _ => [one 0 0 n.warps]

/-- A new block (Tables 1.1 and 5.2, R145). PC[2:0] is 0 (R10), whatever TEXTOFF (log 66). -/
def newBlock (uid : Nat) (L : Launch) (logid : Nat) (sched : Nat) : Block :=
  let r := L.record
  { uid := uid, launch := L.uid, ctx := L.ctx, logid := logid
    a := recBits r 6 63 56, u := recBits r 6 55 48, nacc := recBits r 6 47 44, nbars := recBits r 6 43 39
    scope := scopeOf r, scratch := recBits r 6 20 0
    warps := (List.range (warpsPerBlock r)).map (fun i =>
      Warp.reset i 0 0 (BitVec.ofNat 52 ((L.text + recBits r 1 31 0) / 8 * 8)) (laneExtent r) (recBits r 7 51 0))
    cores := [], slots := [], barriers := List.replicate 17 Barrier.reset
    sched := sched, migcount := 0, mig := false, garr := false, gphase := 0, halt := none, withdrawn := [] }

/-- Place the launch's next block on a cluster; at the first placement the token is at the first warp (R360). -/
def State.placeOne (s : State) (l : Nat) (cl : Nat) (seats : List Seat) : State :=
  match s.launch? l with
  | none => s
  | some L =>
    let uid := s.nextUid
    let shares := sharesAt cl seats
    let B := newBlock uid L L.placed (((shares.map (·.1)).head?).getD 0)
    let s0 := (s.seat B (newAllocs uid L.ctx (needOf L.record) B.scratch seats) cl seats).pinBlock uid
    let s1 := ((s0.allocs.filter (fun a => a.owner == uid)).foldl State.zeroSpills s0).l1Fresh (shares.map (·.1))
    ({ s1 with nextUid := uid + 4 } : State).modLaunch l (fun L => { L with
      placed := L.placed + 1
      memberDie := some (clusterDie cl)
      token := if L.det && L.placed == 0 then ⟨some (0, 0), false, Sig.empty⟩ else L.token })

/-! ## Which block next (R359, R375, R380, R382) -/

/-- What each permitted cluster holds. -/
abbrev Uses := List (Nat × List CoreUse)

def State.usesFor (s : State) (L : Launch) : Uses := (clustersFor L.onlyN).map (fun cl => (cl, s.clusterUse cl))

/-- The clusters that admit block k, with its seats (R258), under R375: a group begins on a die that, empty, admits it, with room for
it now when all its blocks are placed at once; the group's others follow on `die`, the previous block's. -/
def choices (n : Wants) (gs : List (Nat × Nat)) (rooms : List Nat) (whole : Bool) (k : Nat) (die : Option Nat) (us : Uses) :
    List (Nat × List Seat × List CoreUse) :=
  let g := groupAt gs k
  let ok (cl : Nat) : Bool :=
    if g.1 = 1 then true
    else if g.2 then
      decide (g.1 ≤ nth 0 rooms (clusterDie cl)) && (!whole || decide (g.1 ≤ sumNat ((us.filter (fun e =>
        clusterDie e.1 == clusterDie cl)).map (fun e => roomIn (clusterClass e.1) n 64 e.2))))
    else die == some (clusterDie cl)
  us.filterMap (fun e => if ok e.1 then (seatIn (clusterClass e.1) e.2 n).map (fun r => (e.1, r.1, r.2)) else none)

/-- Seats for the next `count` blocks, each on a cluster chosen freely among those that admit it (R380). -/
def planFrom (fr : Nat) (n : Wants) (gs : List (Nat × Nat)) (rooms : List Nat) (whole : Bool) :
    Nat → Nat → Option Nat → Uses → Option (List (Nat × List Seat))
  | 0, _, _, _ => some []
  | count + 1, k, die, us =>
    match choices n gs rooms whole k die us with
    | [] => none
    | c :: cs =>
      let x := nth c (c :: cs) (Config.freeNat 380 fr k % (cs.length + 1))
      (planFrom fr n gs rooms whole count (k + 1) (some (clusterDie x.1))
        (us.map (fun e => if e.1 = x.1 then (e.1, x.2.2) else e))).map (fun r => (x.1, x.2.1) :: r)

/-- In deterministic mode a block's cluster is architectural (R380): a function of the record and the block, open otherwise (free, log
41), and such that an empty part admits the block there, or all blocks of a cooperative grid together. -/
def detPlan (key : Nat) (n : Wants) (gs : List (Nat × Nat)) (rooms : List Nat) (empty : Uses) (coop : Bool) (blocks k : Nat) :
    Option (List (Nat × List Seat)) :=
  if coop then planFrom key n gs rooms true blocks 0 none empty
  else
    let m := (groupAt gs k).1
    (planFrom key n gs rooms false 1 (k / m * m) none empty).bind (fun p =>
      planFrom key n gs rooms false 1 k ((p.head?).map (fun x => clusterDie x.1)) empty)

/-- The seats of R258 for blocks on given clusters as they stand. In a deterministic launch with schedule tables (`tile`) a block waits
until its first core, whose cursor its tiles come from (R284, R365), is the one that an empty part gives it (log 41). -/
def seatAll (n : Wants) (tile : Bool) : List (Nat × List Seat) → Uses → Option (List (Nat × List Seat))
  | [], _ => some []
  | (cl, plan) :: r, us =>
    match (us.lookup cl).bind (fun u => seatIn (clusterClass cl) u n) with
    | none => none
    | some (seats, u) =>
      if tile && (seats.head?).map (·.1) != (plan.head?).map (·.1) then none
      else (seatAll n tile r (us.map (fun e => if e.1 = cl then (cl, u) else e))).map (fun x => (cl, seats) :: x)

/-- Where the launch's next block goes, or all its blocks when it is cooperative. -/
def State.planNext (s : State) (L : Launch) : Option (List (Nat × List Seat)) :=
  let n := needOf L.record
  let rooms := emptyRooms L.onlyN n
  let gs := groupsOf L.coop rooms (levelsOf L.record) L.blocks
  if L.det then
    (detPlan (L.record.foldl (fun a d => a * 2 ^ 64 + d.toNat) 0) n gs rooms ((clustersFor L.onlyN).map (fun cl => (cl, emptyCluster)))
      L.coop L.blocks L.placed).bind (fun plan => seatAll n (L.schedMode == 1) plan (s.usesFor L))
  else planFrom s.fresh n gs rooms L.coop (if L.coop then L.blocks else 1) L.placed L.memberDie (s.usesFor L)

/-- The lowest free grid-barrier counter (R366). -/
def State.freeCounter (s : State) : Option Nat := (List.range 64).find? (fun n => !(tget 0 s.host.gbc n).getLsbD 63)

/-- The launch waits for the placement of a block. -/
def Launch.waits (L : Launch) : Bool := decide (L.placed < L.blocks) && !L.suspended && L.snap.isNone

/-- A block of the launch can be placed as things stand. -/
def State.canPlace (s : State) (L : Launch) : Bool :=
  L.waits && (!L.coop || L.counter.isSome || s.freeCounter.isSome) && (s.planNext L).isSome

/-- Launch M comes before launch L in the order of R380. -/
def State.precedes (s : State) (M L : Launch) : Bool :=
  let rank (q : Nat) : Nat := (q + 127 - s.host.lastQueue) % 128
  decide (L.prio < M.prio) || (M.prio == L.prio && decide (rank M.queue < rank L.queue))

/-- The launch of an image, and its priority. -/
def State.imagePrio (s : State) (m : Image) : Nat := ((s.launch? m.blk.launch).map Launch.prio).getD 0

def State.imageSuspended (s : State) (m : Image) : Bool := ((s.launch? m.blk.launch).map Launch.suspended).getD false

/-- The restore queue: images waiting, in the order of R354, but for those of suspended launches. -/
def State.restoreQueue (s : State) : List Image := s.images.filter (fun m => m.queued && !s.imageSuspended m)

/-- A waiting restore, or a launch that comes before and can place a block, goes first (R354, R380). -/
def State.mustWait (s : State) (L : Launch) : Bool :=
  s.restoreQueue.any (fun m => decide (L.prio ≤ s.imagePrio m)) ||
  s.launches.any (fun M => s.precedes M L && s.canPlace M)

/-- The grid-barrier counter of a cooperative launch: held, or taken now. -/
def State.takeCounter (s : State) (L : Launch) : Option State :=
  if !L.coop || L.counter.isSome then some s
  else s.freeCounter.map (fun n =>
    ({ s with host := { s.host with gbc := tset 0 s.host.gbc n (gbcOf L.ctx 0 0 L.blocks) } } : State).modLaunch L.uid
      (fun L => { L with counter := some n }))

/-! ## Pre-emption by a launch that finds no room (R389) -/

/-- The levels of the launches whose blocks are resident in a context. -/
def State.residentPrios (s : State) (ctx : Nat) : List Nat :=
  (s.blocks.filter (fun B => B.ctx == ctx)).filterMap (fun B => (s.launch? B.launch).map Launch.prio)

/-- A context's pre-emption begins: each of its launches with a block unplaced or resident stops placing, and its ladder
starts unless nothing of it is resident (R390). -/
def State.preempt (s : State) (ctx : Nat) : State :=
  { s with launches := s.launches.map (fun L =>
      if L.ctx = ctx then
        { L with
          suspended := true
          ladder := match L.ladder with
            | some x => some { x with resume := false }
            | none => if s.blocks.any (fun B => B.launch == L.uid) then some ⟨s.time, false⟩ else none }
      else L) }

def maxNat : List Nat → Nat := List.foldl max 0

/-- The context to pre-empt for a level: all its resident blocks at lower levels; the lowest level first, then the
highest context number. One at a time. -/
def State.victimCtx (s : State) (prio : Nat) : Option Nat :=
  let lower (c : Nat) : Bool := !(s.residentPrios c).isEmpty && (s.residentPrios c).all (fun p => decide (p < prio))
  let cs := (List.range 64).filter lower
  if cs.any (fun c => s.launches.any (fun L => L.ctx == c && L.ladder.isSome)) then none
  else
    match cs with
    | [] => none
    | c :: r => some (r.foldl (fun b x =>
        if maxNat (s.residentPrios x) ≤ maxNat (s.residentPrios b) then x else b) c)

def State.autoPreempt (s : State) (L : Launch) : State :=
  if !(tget 0 s.host.qctl L.queue).getLsbD 4 then s
  else match s.victimCtx L.prio with
    | some c => s.preempt c
    | none => s

/-! ## BLOCK_PLACEMENT -/

/-- A block placed since this state was waits for the memory of its spill pages, which its zeros go to (R154, R296). -/
def State.spillsHeld (s t : State) : Bool := t.allocs.any (fun a => decide (s.nextUid ≤ a.owner) && s.allocHeld a 0 a.size)

/-- BLOCK_PLACEMENT: the launch's next block is placed, or every block of a cooperative grid in one step. -/
def execBlockPlacement (launch : Nat) (s : State) : Host.Outcome State Fault Refusal :=
  match s.launch? launch with
  | none => .next s
  | some L =>
    if !L.waits || s.mustWait L then .next s
    else match s.takeCounter L with
      | none => .next s
      | some s1 =>
        match s1.planNext L with
        | none => .next (s1.autoPreempt L)
        | some plan =>
          let s2 := plan.foldl (fun s e => s.placeOne launch e.1 e.2) s1
          if s.spillsHeld s2 then .next s else .next { s2 with host := { s2.host with lastQueue := L.queue } }

end Sys2Proof.Machine
end

