-- ==== Sys2Proof/Machine/Launches.lean ====
section
/-!
DEFINITION. Launches: LAUNCH (R387), a record's dispatch and checks (R372 to R388, R396, R397, Table 14.3), the batch-table
snapshot (R440, R441), and completion (R377).
-/
namespace Sys2Proof.Machine

/-! ## What the command processor reads -/

/-- n bytes of a context's memory as the command processor reads them; it has no POISON status, so a poisoned or
uncorrectable byte reads as a free one (log 29). Its readers fill the lines it reads first (`State.fillVa`). -/
def State.cpRead (s : State) (ctx va n : Nat) : Except (Bool × Nat) (List Byte) :=
  (s.readVa none ctx va n).map (fun bs => bs.mapIdx (fun (i : Nat) (b : Byte) =>
    if s.vaPoisoned none ctx (va + i) 1 then Config.freeByte 300 s.fresh i else b))

def dwordsOf (bs : List Byte) : List Dword := (List.range (bs.length / 8)).map (fun i => BitVec.ofNat 64 (dwordAt bs i))

/-! ## Queues (R379, R380, Table 14.4) -/

def State.qctl (s : State) (q : Nat) : Nat := (tget 0 s.host.qctl q).toNat
def queueCtx (ctl : Nat) : Nat := bitsN ctl 17 12
def queueSize (ctl : Nat) : Nat := bitsN ctl 11 8
def queuePrio (ctl : Nat) : Nat := bitsN ctl 7 5
def queueDev (ctl : Nat) : Bool := bitN ctl 3

/-- EN = 1 and a size the queue enables with. -/
def queueOn (ctl : Nat) : Bool := bitN ctl 0 && decide (4 ≤ queueSize ctl) && decide (queueSize ctl ≤ 12)

def State.qrd (s : State) (q : Nat) : Nat := (tget 0 s.host.qrd q).toNat
def State.qwr (s : State) (q : Nat) : Nat := (tget 0 s.host.qwr q).toNat

/-- Records between RD and WR, modulo 2³². -/
def State.queued (s : State) (q : Nat) : Nat := (s.qwr q + 2 ^ 32 - s.qrd q) % 2 ^ 32

/-- The VA of the slot of record number i. -/
def State.slotVa (s : State) (q i : Nat) : Nat :=
  bitsN (tget 0 s.host.qbase q).toNat 51 7 * 128 + 128 * (i % 2 ^ queueSize (s.qctl q))

/-! ## LAUNCH (R387) -/

def execLaunch (f : FmtS) (s : State) : Host.Outcome State Fault Refusal :=
  issue (.launch f) (fun c s =>
    let va := (c.uni64 f.b.toNat).toNat
    match checkVa c va 128 with
    | some r => r
    | none =>
      if s.isDet c.B && !s.holdsToken c.B c.w then ctokTrap c.fr
      else .ok (s.enter c (.launch f.a.toNat va (c.uni f.c.toNat).toNat) f.setf [] [] [.uni f.a.toNat])) s

/-- The status, with the record in the queue when it is QUEUED. -/
def State.enqueue (s : State) (ctx va q : Nat) : State × Nat :=
  let ctl := s.qctl q
  let status (e : Bool × Nat) : Nat := if e.1 then 3 else 4
  if decide (127 < q) || !queueOn ctl || !queueDev ctl || queueCtx ctl != ctx then (s, 2)
  else if s.queued q = 2 ^ queueSize ctl then (s, 1)
  else match s.cpRead ctx va 128 with
    | .error e => (s, status e)
    | .ok bs =>
      match s.writeVa none ctx (s.slotVa q (s.qwr q)) bs with
      | .error e => (s, status e)
      | .ok s1 => ({ s1 with host := { s1.host with qwr := tset 0 s1.host.qwr q (inc32 (tget 0 s1.host.qwr q)) } }, 0)

/-- LAUNCH's accesses wait (R296): those to its record and to the queue's slot, where it makes them. -/
def State.enqueueHeld (s : State) (ctx va q : Nat) : Bool :=
  let ctl := s.qctl q
  !(decide (127 < q) || !queueOn ctl || !queueDev ctl || queueCtx ctl != ctx || s.queued q == 2 ^ queueSize ctl) &&
    s.anyHeld ctx [(va, 128), (s.slotVa q (s.qwr q), 128)]

/-- LAUNCH's completion, once every earlier access of the warp is performed (a pending CBWAIT is a wait, no access, and is
carried by a capture, R350); in deterministic mode after every earlier LAUNCH of the warp. -/
def State.completeLaunch (s : State) (B : Block) (W : Warp) (o : Op) (dst va q : Nat) : Option State :=
  if (W.opsBefore o.id).any (fun y => match y.kind with
      | .cbwait _ _ _ => false
      | .launch _ _ _ => s.isDet B
      | k => k.isMem && !y.performed) || s.enqueueHeld B.ctx va q then none
  else
    let r := (s.fillVa none B.ctx va 128).enqueue B.ctx va q
    some (r.1.modWarp B.uid W.idx (fun W => W.flagWrite s.fresh o.id (.uni dst) 0 (BitVec.ofNat 32 r.2)))

/-! ## Completion (R377) -/

/-- The completion signal: the status dword, then SIGVAL; a faulting write is dropped and logged. -/
def State.signal (s : State) (ctx sigaddr : Nat) (sigval : Dword) (status aborted : Nat) : State :=
  if sigaddr = 0 || sigaddr % 16 != 0 || decide (2 ^ 52 ≤ sigaddr) then s
  else
    (s.signalWrite ctx (sigaddr + 8) (leBytes 8 (status + aborted * 2 ^ 32))).signalWrite ctx sigaddr (leBytes 8 sigval.toNat)

/-- A launch leaves: its signal is written, its grid-barrier counter released (R366). -/
def State.endLaunch (s : State) (L : Launch) (status : Nat) : State :=
  let s1 := s.signal L.ctx (nth 0 L.record 10).toNat (nth 0 L.record 11) status L.aborted
  let s2 : State := match L.counter with
    | some n => { s1 with host := { s1.host with gbc := tset 0 s1.host.gbc n 0 } }
    | none => s1
  { s2 with launches := s2.launches.filter (fun x => x.uid != L.uid) }

/-- Complete the launch if every block has been placed and every warp of every block is free. -/
def State.checkDone (s : State) (l : Nat) : State :=
  match s.launch? l with
  | none => s
  | some L =>
    if L.placed = L.blocks && L.freed.length = L.blocks then s.endLaunch L (if L.aborted = 0 then 0 else 6) else s

/-! ## The record (Tables 14.1 and 14.2, R373) -/

/-- The levels are valid (R373). -/
def levelsOk (lv : List Nat) (scratch : Nat) : Bool :=
  let b := blockLevel lv
  let t := threadsPerBlock lv
  let warps := prodNat ((lv.filter (fun l => levelDom l == 1)).map levelExt)
  lv.all (fun l => bitsN l 31 29 == 0 && levelScope l != 3 && decide (levelDom l < 6)) &&
  lv.zipIdx.all (fun x => (levelDom x.1 == 0) == (x.2 == 0)) &&
  decide (levelExt (nth 0 lv 0) ≤ 32) &&
  (lv.zip (lv.drop 1)).all (fun x => decide (levelDom x.1 ≤ levelDom x.2)) &&
  (lv.filter (fun l => levelDom l == 2 || levelDom l == 3)).length == 1 &&
  decide (1 ≤ t) && decide (t ≤ 4096) && decide (warps ≤ 128) &&
  lv.zipIdx.all (fun x => x.2 == b || levelScope x.1 == 0) &&
  (levelScope (nth 0 lv b) != 0 || scratch == 0) &&
  decide (prodNat (lv.map levelExt) < 2 ^ 52)

/-- The record with level k replaced. -/
def setLevel (r : List Dword) (k lev : Nat) : List Dword :=
  let d := (nth 0 r (2 + k / 2)).toNat
  r.set (2 + k / 2) (BitVec.ofNat 64 (if k % 2 = 0 then d / 2 ^ 32 * 2 ^ 32 + lev else d % 2 ^ 32 + lev * 2 ^ 32))

/-- The outermost level. -/
def outer (r : List Dword) : Nat := recBits r 1 51 48 - 1

/-- The record with the outermost extent n. -/
def withExtent (r : List Dword) (n : Nat) : List Dword :=
  setLevel r (outer r) (levelOf r (outer r) / 2 ^ 24 * 2 ^ 24 + (n - 1))

def recIndir (r : List Dword) : Bool := recBits r 1 57 57 == 1
def recSched (r : List Dword) : Nat := recBits r 1 59 58
def recNwin (r : List Dword) : Nat := recBits r 9 59 56
def recBatch (r : List Dword) : Nat := recBits r 12 51 0

/-- SIGADDR passes step 2 (R376). -/
def sigOk (r : List Dword) : Bool := recBits r 10 63 52 == 0 && recBits r 10 51 0 % 16 == 0

/-- Step 2 of R376: reserved bits, ranges, alignments, levels, DET with SCHED = 2. -/
def recordOk (r : List Dword) : Bool :=
  let b := recBits r
  let va (i : Nat) : Nat := b i 51 0
  [0, 7, 8, 10, 12, 13, 14].all (fun i => b i 63 52 == 0) &&
  b 1 55 52 == 0 && b 1 47 32 == 0 && b 6 38 21 == 0 && b 9 63 60 == 0 && b 9 55 52 == 0 && b 15 63 0 == 0 &&
  recSched r != 3 && decide (2 ≤ b 1 51 48) && decide (b 1 51 48 ≤ 8) &&
  (List.range 8).all (fun k => decide (k < b 1 51 48) || levelOf r k == 0) &&
  b 6 63 56 % 8 == 0 && decide (8 ≤ b 6 63 56) && decide (b 6 63 56 ≤ 248) &&
  b 6 55 48 % 8 == 0 && decide (8 ≤ b 6 55 48) && decide (b 6 55 48 ≤ 64) &&
  decide (b 6 47 44 ≤ 8) && decide (b 6 43 39 ≤ 16) && decide (b 6 20 0 ≤ 1048576) && decide (recNwin r ≤ 8) &&
  va 0 % 64 == 0 && b 1 31 0 % 8 == 0 && va 8 % 8 == 0 && (recNwin r == 0 || va 9 % 16 == 0) && sigOk r &&
  (!recIndir r || va 13 % 4 == 0) && (recSched r == 0 || (va 14 % 16 == 0 && va 14 != 0)) &&
  levelsOk (levelsOf (if recIndir r then withExtent r 1 else r)) (b 6 20 0) &&
  !(b 1 62 62 == 1 && recSched r == 2)

/-! ## The code object (R396, R397, Table 14.6) -/

/-- The resources of two dwords in the layout of record dword 6, field by field: A, U, NACC, NBARS, SCRATCH. -/
def resources (d : Nat) : List Nat := [bitsN d 63 56, bitsN d 55 48, bitsN d 47 44, bitsN d 43 39, bitsN d 20 0]

/-- R397: the header is well formed and covers the record. The alignment of TEXTOFF is not stated, and none is asked: PC[2:0] is 0 whatever it is (R10, log 66). -/
def codeOk (h r : List Dword) : Bool :=
  let b := recBits h
  let res := resources (nth 0 r 6).toNat
  b 0 31 0 == 0x314F4348 && b 0 47 32 == 1 && b 0 63 48 == 0 && b 1 63 16 == 0 && b 1 7 3 == 0 && b 7 63 0 == 0 &&
  decide (b 1 15 8 ≤ 1) && b 1 0 0 == 1 &&
  decide (recBits r 1 31 0 < b 3 63 32) &&
  (res.zip (resources (nth 0 h 2).toNat)).all (fun x => decide (x.2 ≤ x.1)) &&
  (b 1 15 8 == 1 ||
    ((res.zip [128, 32, 4, 8, 131072]).all (fun x => decide (x.1 ≤ x.2)) &&
      decide (threadsPerBlock (levelsOf r) ≤ 1024)))

/-- The launch's image size (R353). -/
def imageSize (r : List Dword) : Nat :=
  let w := warpsPerBlock r
  512 + w * (2048 + 8192 * recBits r 6 47 44 + 128 * recBits r 6 63 56) + 2720 +
    3 * (8 + 8 * pagesOf (recBits r 6 20 0)) + 16 * w + 96 * w

/-- What the checks establish: the record with its extents, the classes (R348), the text section's address, the windows,
the cores with ranges, the batch table's NENT and SNAP. -/
structure Checked where
  record : List Dword
  onlyN : Bool
  text : Nat
  windows : List (Nat × Nat)
  rangeCores : List Nat
  batch : Option (Nat × Nat)

/-- A read of the command processor at one step of R376: XLATE for any fault. -/
def State.stepRead (s : State) (ctx va n : Nat) : Except Nat (List Dword) :=
  match s.cpRead ctx va n with
  | .ok bs => .ok (dwordsOf bs)
  | .error _ => .error 5

def allCores : List Nat := (List.range 256).filter coreIdValid

/-- Step 6: the schedule table, checked under R384; the cores whose range is not empty (R385). -/
def State.checkSched (s : State) (ctx : Nat) (r : List Dword) : Except Nat (List Nat) :=
  if recSched r = 0 then .ok []
  else (s.stepRead ctx (recBits r 14 51 0) 4096).bind (fun t =>
    let e (c hi lo i : Nat) : Nat := recBits t (2 * c + i) hi lo
    if recSched r = 1 then
      (if allCores.all (fun c => e c 51 0 0 % 4 == 0 && e c 63 32 1 == 0) then .ok [] else .error 1)
    else .ok (allCores.filter (fun c => decide (e c 31 0 0 < e c 63 32 0))))

/-- Step 5: the window table (R372). -/
def State.checkWindows (s : State) (ctx : Nat) (r : List Dword) : Except Nat (List (Nat × Nat)) :=
  if recNwin r = 0 then .ok []
  else (s.stepRead ctx (recBits r 9 51 0) (16 * recNwin r)).bind (fun t =>
    let ws := (List.range (recNwin r)).map (fun i => (recBits t (2 * i) 51 0, recBits t (2 * i + 1) 63 0))
    if (List.range (recNwin r)).all (fun i => recBits t (2 * i) 63 52 == 0) && ws.all (fun w => w.2 != 0) then .ok ws
    else .error 1)

/-- Step 7: the extent at GRIDADDR; none for an extent of 0 (R388). -/
def State.checkIndir (s : State) (ctx : Nat) (r : List Dword) : Except Nat (Option (List Dword)) :=
  if !recIndir r then .ok (some r)
  else match s.cpRead ctx (recBits r 13 51 0) 4 with
    | .error _ => .error 5
    | .ok bs =>
      let n := ofLeBytes bs
      if n = 0 then .ok none
      else if 2 ^ 24 < n then .error 1
      else
        let r1 := withExtent r n
        if levelsOk (levelsOf r1) (recBits r 6 20 0) then .ok (some r1) else .error 1

/-- Step 8: the batch table's header (R440); a table that is not aligned is refused as a bad one (log 31). -/
def State.checkBatch (s : State) (ctx : Nat) (r : List Dword) : Except Nat (Option (Nat × Nat)) :=
  if recBatch r = 0 then .ok none
  else (s.stepRead ctx (recBatch r) 64).bind (fun h =>
    let b := recBits h
    if recBatch r % 64 == 0 && b 1 63 52 == 0 && b 1 51 0 % 64 == 0 && decide (b 0 63 32 ≤ 65536) &&
        (List.range 5).all (fun i => b (3 + i) 63 0 == 0) then .ok (some (b 0 63 32, b 1 51 0))
    else .error 1)

/-- The launch's classes (MINCLS, R348) for a code object that needs MXN or SXM. -/
def State.confined (s : State) (ctx : Nat) (r : List Dword) (mx : Bool) : Bool :=
  recBits r 1 60 60 == 1 || (mx && (recBits r 1 63 63 == 1 || recBits r 1 62 62 == 1 ||
    decide (bitsN (tget 0 s.host.cmslot ctx).toNat 31 12 * 4096 < imageSize r)))

/-- Step 9: R259, R348, R382. -/
def fits (r : List Dword) (mx onlyN : Bool) : Bool :=
  let n := needOf r
  (fitsClass 0 n || (!onlyN && !mx && fitsClass 1 n)) &&
  (recBits r 1 63 63 == 0 || decide (blockCount (levelsOf r) ≤ emptyRoom n (clustersFor onlyN)))

/-- Steps 2 to 9 of R376 for a record read; none when an extent of 0 completes the launch. -/
def State.checkRecord (s : State) (ctx : Nat) (r : List Dword) : Except Nat (Option Checked) :=
  if !recordOk r then .error 1
  else (s.stepRead ctx (recBits r 0 51 0) 64).bind (fun h =>
    if !codeOk h r then .error 2
    else if recSched r = 2 && !(tget 0 s.host.ccap ctx).getLsbD 0 then .error 3
    else (s.checkWindows ctx r).bind (fun ws => (s.checkSched ctx r).bind (fun cs =>
      (s.checkIndir ctx r).bind (fun r? =>
        match r? with
        | none => .ok none
        | some r1 => (s.checkBatch ctx r1).bind (fun bt =>
          let mx := recBits h 1 2 1 != 0
          let onlyN := s.confined ctx r1 mx
          if fits r1 mx onlyN then .ok (some ⟨r1, onlyN, recBits r 0 51 0 + recBits h 3 31 0, ws, cs, bt⟩)
          else .error 4)))))

/-- What the checks of a record read, as far as they go: addresses and bytes. -/
def State.recordReads (s : State) (ctx : Nat) (r : List Dword) : List (Nat × Nat) :=
  if !recordOk r then []
  else (recBits r 0 51 0, 64) :: match s.stepRead ctx (recBits r 0 51 0) 64 with
    | .error _ => []
    | .ok h =>
      if !codeOk h r || (recSched r == 2 && !(tget 0 s.host.ccap ctx).getLsbD 0) then []
      else (if recNwin r = 0 then [] else [(recBits r 9 51 0, 16 * recNwin r)]) ++ match s.checkWindows ctx r with
        | .error _ => []
        | .ok _ => (if recSched r = 0 then [] else [(recBits r 14 51 0, 4096)]) ++ match s.checkSched ctx r with
          | .error _ => []
          | .ok _ => (if recIndir r then [(recBits r 13 51 0, 4)] else []) ++ match s.checkIndir ctx r with
            | .ok (some r1) => if recBatch r1 = 0 then [] else [(recBatch r1, 64)]
            | _ => []

/-! ## Dispatch (R376, R380, R441) -/

/-- The queue's record may be dispatched: enabled, its context enabled, not empty, its memory not held, its previous launch placed,
and completed before a SERIAL one. -/
def State.dispatchable (s : State) (q : Nat) : Bool :=
  let ctl := s.qctl q
  queueOn ctl && (tget 0 s.host.cpt (queueCtx ctl)).getLsbD 0 && s.qrd q != s.qwr q &&
  !s.vaHeld (queueCtx ctl) (s.slotVa q (s.qrd q)) 128 &&
  !(s.launches.any (fun L => L.queue == q && decide (L.placed < L.blocks))) &&
  (!(s.launches.any (fun L => L.queue == q)) ||
    (match s.cpRead (queueCtx ctl) (s.slotVa q (s.qrd q)) 128 with
      | .ok bs => recBits (dwordsOf bs) 1 56 56 == 0
      | .error _ => true))

/-- SNAPBEG := SNAPBEG + 1, one RMW. -/
def State.beginSnap (s : State) (ctx batch : Nat) : Except (Bool × Nat) State :=
  (s.locsOf none ctx (batch + 16) .rmw 4).bind (fun _ => (s.cpRead ctx (batch + 16) 4).bind (fun bs =>
    s.writeVa none ctx (batch + 16) (leBytes 4 (ofLeBytes bs + 1))))

/-- A dispatched launch that waits only for placement takes its counter (R366). -/
def State.dispatched (s : State) (l : Nat) : State :=
  match s.launch? l with
  | none => s
  | some L => if L.snap.isSome then s else (s.takeCounter L).getD s

/-- One more entry of a snapshot, or its end: the read of SEL is an acquire, and the write of SNAPEND a release of every copy
(R316, R441). -/
def State.snapNext (s : State) (L : Launch) (i nent snap : Nat) : State :=
  let batch := recBatch L.record
  let done (s : State) : State := s.endLaunch L 5
  if nent ≤ i then
    let s0 : State := { s with mem := (s.linesAt none L.ctx (batch + 20) 4).foldl (fun m l => m.attach l (L.snapSig.add l)) s.mem }
    match (s.cpRead L.ctx (batch + 16) 4).bind (fun bs => s0.writeVa none L.ctx (batch + 20) bs) with
    | .error _ => done s
    | .ok s1 => (s1.modLaunch L.uid (fun L => { L with snap := none })).dispatched L.uid
  else
    let e := batch + 64 + 192 * i
    match s.cpRead L.ctx e 8 with
    | .error _ => done s
    | .ok sel =>
      match (s.cpRead L.ctx (e + 64 + 64 * (ofLeBytes sel % 2)) 64).bind (fun bs => s.writeVa none L.ctx (snap + 64 * i) bs) with
      | .error _ => done s
      | .ok s1 =>
        let sel := (s.linesAt none L.ctx e 8).foldl (fun g l => g.or (s.mem.attached l)) L.snapSig
        let g := (s.linesAt none L.ctx (snap + 64 * i) 64).foldl Sig.add sel
        s1.modLaunch L.uid (fun L => { L with snap := some (i + 1, nent, snap), snapSig := g })

/-- What a step of a snapshot reads and writes: addresses and bytes. -/
def State.snapTouches (s : State) (L : Launch) (i nent snap : Nat) : List (Nat × Nat) :=
  let batch := recBatch L.record
  if nent ≤ i then [(batch + 16, 8)]
  else
    let e := batch + 64 + 192 * i
    (e, 8) :: match s.cpRead L.ctx e 8 with
      | .ok sel => [(e + 64 + 64 * (ofLeBytes sel % 2), 64), (snap + 64 * i, 64)]
      | .error _ => []

/-- A record that is refused, or completed at once: its signal, if it has one; else telemetry has it. -/
def State.refuse (s : State) (ctx : Nat) (r : List Dword) (status : Nat) : State :=
  if sigOk r then s.signal ctx (recBits r 10 51 0) (nth 0 r 11) status 0 else s.logVa ctx (nth 0 r 10).toNat

/-- What the dispatch of a queue's next record reads and writes: addresses and bytes. -/
def State.dispatchTouches (s : State) (q : Nat) : List (Nat × Nat) :=
  let ctx := queueCtx (s.qctl q)
  (s.slotVa q (s.qrd q), 128) :: match s.cpRead ctx (s.slotVa q (s.qrd q)) 128 with
    | .ok bs => s.recordReads ctx (dwordsOf bs) ++ (match s.checkRecord ctx (dwordsOf bs) with
      | .ok (some k) => if k.batch.isSome then [(recBatch k.record + 16, 4)] else []
      | _ => [])
    | .error _ => []

/-- Dispatch the next record of a queue. The launch's number is free (log 30). -/
def State.dispatch (s : State) (q : Nat) : State :=
  let ctl := s.qctl q
  let ctx := queueCtx ctl
  let s1 : State := { s with host := { s.host with qrd := tset 0 s.host.qrd q (inc32 (tget 0 s.host.qrd q)) } }
  match s.cpRead ctx (s.slotVa q (s.qrd q)) 128 with
  | .error e => s1.logVa ctx e.2
  | .ok bs =>
    let r := dwordsOf bs
    match s.checkRecord ctx r with
    | .error st => s1.refuse ctx r st
    | .ok none => s1.refuse ctx r 0
    | .ok (some k) =>
      let uid := s.nextUid
      let L : Launch :=
        { uid := uid, num := Config.freeNat 376 s.fresh 0 % 2 ^ 32, queue := q, ctx := ctx, prio := queuePrio ctl
          record := k.record, onlyN := k.onlyN, text := k.text, windows := k.windows
          blocks := blockCount (levelsOf k.record), placed := 0, freed := [], aborted := 0, counter := none
          rangeCores := k.rangeCores, gridSig := Sig.empty, token := ⟨none, false, Sig.empty⟩, ladder := none
          suspended := false, snapSig := Sig.empty, snap := k.batch.map (fun b => (0, b.1, b.2)), memberDie := none }
      match (if k.batch.isNone then .ok s1 else s1.beginSnap ctx (recBatch k.record) : Except (Bool × Nat) State) with
      | .error _ => s1.refuse ctx r 5
      | .ok s2 => ({ s2 with launches := s2.launches ++ [L], nextUid := uid + 1 } : State).dispatched uid

/-- Access memory as the command processor does: wait while it is held (R296), else with the lines filled (R300). -/
def State.cpStep (s : State) (ctx : Nat) (touches : List (Nat × Nat)) (f : State → State) : State :=
  if s.anyHeld ctx touches then s else f (touches.foldl (fun s t => s.fillVa none ctx t.1 t.2) s)

/-- LAUNCH_DISPATCH: a snapshot under way goes on by one entry; else the next record of a queue that may dispatch; which
queue is not stated (free). -/
def execLaunchDispatch (s : State) : Host.Outcome State Fault Refusal :=
  if s.tripped then .next s
  else match s.launches.find? (fun L => L.snap.isSome) with
    | some L =>
      match L.snap with
      | some (i, nent, snap) => .next (s.cpStep L.ctx (s.snapTouches L i nent snap) (fun s => s.snapNext L i nent snap))
      | none => .next s
    | none =>
      match (List.range 128).filter s.dispatchable with
      | [] => .next s
      | q :: qs =>
        let k := nth q (q :: qs) (Config.freeNat 376 s.fresh 1 % (qs.length + 1))
        .next (s.cpStep (queueCtx (s.qctl k)) (s.dispatchTouches k) (fun s => s.dispatch k))

end Sys2Proof.Machine
end

