-- ==== Sys2Proof/Machine/Image.lean ====
section
/-!
DEFINITION. The canonical block image as bytes (R351 to R353, Tables 13.2 to 13.5). Signatures are held exactly here and
their coding is the device's, so their bytes are free (log 11).
-/
namespace Sys2Proof.Machine

/-! ## Thread words (Table 13.4) -/

def ParkKind.code : ParkKind → Nat
  | .waitm => 1
  | .tuple => 2
  | .bar _ => 3
  | .gbar => 4
  | .token => 5
  | .handler => 6

def TStatus.code : TStatus → Nat
  | .eligible => 0
  | .parked _ => 1
  | .exited => 2

def TStatus.pkind : TStatus → Nat
  | .parked k => k.code
  | _ => 0

def TStatus.pbar : TStatus → Nat
  | .parked (.bar id) => id
  | _ => 0

def Thread.image (t : Thread) (hm : Bool) : List Byte :=
  leBytes 8 (t.status.pbar * 2 ^ 59 + t.status.pkind * 2 ^ 56 + b2n hm * 2 ^ 55 + b2n t.y * 2 ^ 54 +
    t.status.code * 2 ^ 52 + t.pc.toNat) ++
  leBytes 8 (t.ix1.toNat * 2 ^ 24 + t.ix0.toNat * 2 ^ 16 + t.fx.toNat * 2 ^ 7 + t.preds.toNat)

/-! ## Warp records (Table 13.3, R352) -/

def zeros (n : Nat) : List Byte := List.replicate n 0

/-- n free bytes of a signature; `i` tells signatures apart. -/
def sigBytes (fr i n : Nat) : List Byte := (List.range n).map (fun k => Config.freeByte 351 fr (256 * i + k))

def ArrRec.image (r : ArrRec) : List Byte := leBytes 4 r.pend.toNat ++ leBytes 4 r.reg.toNat ++ leBytes 8 r.phase.toNat

/-- The fixed 2,048 bytes. -/
def Warp.imageFixed (W : Warp) (fr u : Nat) : List Byte :=
  let at0 := (List.range 32).flatMap (fun l => (W.thread l).image (W.handler.getLsbD l))
  let wregs := (List.range 64).flatMap (fun n => leBytes 4 (if n < u then (tget 0 W.w n).toNat else 0))
  let flags := (List.range 12).flatMap (fun n => leBytes 1 (tget 0 W.flags n))
  let t := W.trap
  let bs := W.skip
  at0 ++ wregs ++ flags ++ zeros 4 ++
  leBytes 8 (W.shape.toNat * 2 ^ 32 + W.repc.toNat) ++
  leBytes 8 (W.handler.toNat * 2 ^ 32 + t.cause.toNat) ++
  leBytes 8 t.pc.toNat ++ leBytes 8 t.addr.toNat ++ leBytes 8 (t.aux.toNat * 2 ^ 32 + t.half.toNat) ++
  leBytes 8 t.ret.toNat ++
  leBytes 8 (b2n bs.valid * 2 ^ 63 + b2n bs.half * 2 ^ 62 + bs.iter.toNat * 2 ^ 56 + bs.addr.toNat) ++
  leBytes 8 (b2n W.mon.armed * 2 ^ 63 + b2n W.mon.trig * 2 ^ 62 + W.mon.line.toNat * 2 ^ 7) ++
  leBytes 8 (W.mon.deadline.getD 0) ++ zeros 0x28 ++
  sigBytes fr W.idx 0x80 ++
  (List.range 17).flatMap (fun id => (W.brecAt id).image) ++ W.grec.image ++ zeros 0x2E0

def Warp.imageTiles (W : Warp) (nacc : Nat) : List Byte :=
  (List.range nacc).flatMap (fun t => (List.range 256).flatMap (fun e =>
    let p (o : Nat) : Partial := tget ⟨0, 0⟩ W.acc (512 * t + 2 * e + o)
    leBytes 8 (p 0).val.toNat ++ leBytes 8 (p 1).val.toNat ++ leBytes 8 (p 0).key.toNat ++ leBytes 8 (p 1).key.toNat))

def Warp.imageLanes (W : Warp) (a : Nat) : List Byte :=
  (List.range (32 * a)).flatMap (fun k => leBytes 4 (tget 0 W.v k).toNat)

def Warp.image (W : Warp) (fr : Nat) (B : Block) : List Byte :=
  W.imageFixed fr B.u ++ W.imageTiles B.nacc ++ W.imageLanes B.a

def warpRecordSize (nacc a : Nat) : Nat := 2048 + 8192 * nacc + 128 * a

/-! ## Sections (Table 13.5) -/

def Block.barImage (B : Block) (fr : Nat) : List Byte :=
  (List.range 17).flatMap (fun id =>
    if B.nbars < id then zeros 160
    else
      let b := nth Barrier.reset B.barriers id
      leBytes 8 (b.n * 2 ^ 16 + b.q.toNat) ++ zeros 8 ++ leBytes 16 (sumNat (b.regs.map (2 ^ ·))) ++
      sigBytes fr (200 + id) 128)

def Alloc.mapImage (a : Alloc) (scope : Nat) : List Byte :=
  leBytes 8 (if scope = 1 then a.first else 0) ++ a.pages.flatMap (fun p => leBytes 8 p.back.toNat)

/-- The carried copy words of a block, in issue order (Table 6.13). -/
def Block.copyOps (B : Block) : List (Nat × Op) :=
  let all := B.warps.flatMap (fun W => (W.ops.filter (fun o => match o.kind with
    | .ckick _ _ _ => true
    | .cqfence _ _ => true
    | _ => false)).map (fun o => (W.idx, o)))
  all.foldl (fun l x => (l.takeWhile (fun y => decide (y.2.id < x.2.id))) ++ x ::
    (l.dropWhile (fun y => decide (y.2.id < x.2.id)))) []

/-- WARP, A and SETF of a section entry. -/
def entryHead (warp : Nat) (o : Op) (a : Nat) : Nat := warp * 2 ^ 56 + a * 2 ^ 48 + (o.setf.getD 15) * 2 ^ 44

def copyImage (x : Nat × Op) : List Byte :=
  match x.2.kind with
  | .ckick d addr _ => leBytes 8 (entryHead x.1 x.2 (d.getD 0xFC) + addr) ++ zeros 8
  | .cqfence mask _ => leBytes 8 (entryHead x.1 x.2 0 + mask * 2 ^ 40 + 2 ^ 39) ++ zeros 8
  | _ => zeros 16

/-- A withdrawn request's entry: its A field is the word's, with BLK in bit 7 (Tables 12.3 and 13.5). -/
def tupleImage (B : Block) (x : TupReq × Nat) : List Byte :=
  let r := x.1
  let warp := (r.src.map (·.2)).getD 0
  let op := (B.warps[warp]?).bind (fun W => W.op? r.id)
  let dst := match op.map (·.kind) with
    | some (.tuple d _) => d
    | _ => 0
  let setf := (op.bind (·.setf)).getD 15
  leBytes 8 (warp * 2 ^ 56 + (128 * b2n r.blocking + dst) * 2 ^ 48 + setf * 2 ^ 44 + (if r.kind = 2 then 2 ^ 43 else 0) + r.mask * 2 ^ 36 + r.handle) ++
  leBytes 8 x.2 ++ r.fields.flatMap (fun f => leBytes 8 f.toNat) ++ zeros 16

/-! ## The whole image (Table 13.2) -/

/-- The image of a captured block with its allocations, its launch and its withdrawn tuple requests. -/
def imageBytes (fr : Nat) (B : Block) (allocs : List Alloc) (L : Launch) (cause : Nat) (tuples : List (TupReq × Nat)) :
    List Byte :=
  let copies := B.copyOps
  let offBar := 512 + B.warps.length * warpRecordSize B.nacc B.a
  let offMap := offBar + 2720
  let offCopy := offMap + sumNat (allocs.map (fun a => 8 + 8 * a.pages.length))
  let offTup := offCopy + 16 * copies.length
  let at' := match L.token.pos with
    | some (b, w) => if b = B.logid then some w else none
    | none => none
  let d0 := 2 ^ 32 + cause * 2 ^ 24 + b2n B.garr * 2 ^ 20 + b2n (at'.isSome && L.token.held) * 2 ^ 19 +
    b2n at'.isSome * 2 ^ 18 + b2n (B.mig || decide (0 < B.migcount)) * 2 ^ 16 + B.warps.length
  let d4 := B.a * 2 ^ 56 + B.u * 2 ^ 48 + B.nacc * 2 ^ 44 + B.nbars * 2 ^ 39 + B.scope * 2 ^ 37 + B.scratch
  let d5 := B.sched * 2 ^ 56 + (at'.getD 0) * 2 ^ 48 + B.gphase.toNat * 2 ^ 32 + allocs.length * 2 ^ 24 +
    copies.length * 2 ^ 16 + tuples.length * 2 ^ 8 + ((B.cores.head?).getD 0) % 256
  leBytes 8 d0 ++ leBytes 8 B.logid ++ leBytes 8 (recBits L.record 0 51 0) ++ leBytes 8 (L.num * 2 ^ 32 + B.migcount) ++
  leBytes 8 d4 ++ leBytes 8 d5 ++ leBytes 8 (offMap * 2 ^ 32 + offBar) ++ leBytes 8 (offTup * 2 ^ 32 + offCopy) ++
  (if at'.isSome then sigBytes fr 220 128 else zeros 128) ++ zeros 320 ++
  B.warps.flatMap (fun W => W.image fr B) ++ B.barImage fr ++ allocs.flatMap (fun a => a.mapImage B.scope) ++
  copies.flatMap copyImage ++ tuples.flatMap (tupleImage B)

/-- The bytes of an image (R353). -/
def imageLength (B : Block) (allocs : List Alloc) (tuples : Nat) : Nat :=
  512 + B.warps.length * warpRecordSize B.nacc B.a + 2720 + sumNat (allocs.map (fun a => 8 + 8 * a.pages.length)) +
    16 * B.copyOps.length + 96 * tuples

end Sys2Proof.Machine
end

