-- ==== Sys2Proof/Machine/Capture.lean ====
section
/-!
DEFINITION. Capture for migration and pre-emption (R217, R344, R349 to R352, R357, R358, R390), restore (R354 to R356),
context reset (R393), and the commands of Table 17.2.
-/
namespace Sys2Proof.Machine

/-! ## Capture (R350, Tables 6.13 and 13.1) -/

/-- An operation is carried: a copy word not accepted, a CBWAIT, a tuple request withdrawn; or it is a FENCE whose flag has
fallen, which only orders later words. Every other completes first. -/
def Block.carried (B : Block) (o : Op) : Bool :=
  match o.kind with
  | .ckick _ _ _ => true
  | .cqfence _ entered => !entered
  | .cbwait _ _ _ => true
  | .fence _ => o.done
  | .tuple _ _ => B.withdrawn.any (fun x => x.1.id == o.id)
  | _ => false

/-- The block can be written out: its chains have ended and its operations are complete or carried. -/
def State.capturable (s : State) (B : Block) : Bool :=
  B.warps.all (fun W => !s.runsOn B W && W.ops.all B.carried)

/-- A warp in an image: no latches, no chain, no watch that runs; its timeout's remaining cycles (R141, R212, R350). -/
def Warp.captured (W : Warp) (now : Nat) : Warp :=
  { W.quiesce (BitVec.allOnes 32) with
    latches := [], held := [], lastIssue := none, fixed := 0, weakV := [], weakW := [], weakAcc := []
    mon := { W.mon with deadline := W.mon.deadline.map (fun d => max 1 (d - now)) } }

/-- Where the image goes: the migration slot of the block's first core and slot (R355), or a place in the context's save
area, which the spec does not lay out (free, log 32). -/
def State.imageVa (s : State) (B : Block) (cause : Nat) : Nat :=
  let core := (B.cores.head?).getD 0
  let slot := minOr 0 ((B.slots.filter (fun x => x.1 == core)).map (·.2))
  if cause = 0 then
    bitsN (tget 0 s.host.cmig (2 * B.ctx + (coreDie core - 2))).toNat 51 12 * 4096 +
      (16 * coreLocal core + slot) * (bitsN (tget 0 s.host.cmslot B.ctx).toNat 31 12 * 4096)
  else bitsN (tget 0 s.host.csave B.ctx).toNat 51 12 * 4096 + Config.freeNat 355 s.fresh B.uid

/-- The image's memory, or that of the pinned pages' backing, is held (R296). -/
def State.captureHeld (s : State) (B : Block) (cause : Nat) : Bool :=
  s.vaHeld B.ctx (s.imageVa B cause) (imageLength B (s.allocsOf B.uid) B.withdrawn.length) || s.pinsHeld B.uid

/-- Write the image and take the block off its cluster. A fault in the image's memory is logged; the image stands
(log 32). -/
def State.capture (s : State) (B : Block) (cause : Nat) : State :=
  match s.launch? B.launch with
  | none => s
  | some L =>
    let now (W : Warp) : Nat := s.clockOf W.core
    let B1 := { B with halt := none, withdrawn := [], warps := B.warps.map (fun W => W.captured (now W)) }
    let tuples := B.withdrawn
    let va := s.imageVa B cause
    let s1 : State := match s.writeVa none B.ctx va (imageBytes s.fresh B1 (s.allocsOf B.uid) L cause tuples) with
      | .ok s' => s'
      | .error e => s.logVa B.ctx e.2
    let s1 := (B.warps.map Warp.healAll).foldl State.addFixed ((s1.allocsOf B.uid).foldl State.writeBack s1)
    let s2 : State := { s1 with
      tel := { s1.tel with captures := s1.tel.captures ++ [(B.uid, cause)] }
      allocs := s1.allocs.map (fun a => if a.owner = B.uid then
        { a with slots := [], pages := a.pages.map (fun p => { p with pin := none }) } else a)
      blocks := s1.blocks.filter (fun x => x.uid != B.uid)
      images := s1.images ++ [⟨{ B1 with cores := [], slots := [] }, cause, va, cause == 0, tuples⟩] }
    let core := (B.cores.head?).getD 0
    if cause = 0 then (s2.count 4 (2 * coreDie core)).raiseEvent (srcCore core) else s2

/-- CAPTURE_MIGRATION: a block frozen for migration is written out once it can be. -/
def execCaptureMigration (blk : Nat) (s : State) : Host.Outcome State Fault Refusal :=
  match s.block? blk with
  | none => .next s
  | some B =>
    if B.halt = some (.capture 0) && s.capturable B && !s.captureHeld B 0 then .next (s.capture B 0) else .next s

/-- The nanoseconds since a launch's ladder began have reached a deadline in microseconds. -/
def Launch.due (L : Launch) (now : Nat) (us : Word) : Bool :=
  match L.ladder with
  | some x => decide (x.since + 1000 * us.toNat ≤ now)
  | none => false

/-- The resident blocks of a launch. -/
def State.residentOf (s : State) (l : Nat) : List Block := s.blocks.filter (fun B => B.launch == l)

/-- Freeze for pre-emption: a block that runs, or that a debugger has halted (R163). -/
def Block.freezePre (B : Block) : Block :=
  match B.halt with
  | none => { B with halt := some (.capture 1) }
  | some .debugger => { B with halt := some (.capture 1) }
  | some _ => B

/-- A launch's ladder ends; a RESUME that came while it ran takes its effect (R391, log 42). -/
def State.ladderEnd (s : State) (launch : Nat) (x : Ladder) : State :=
  let s1 := s.modLaunch launch (fun L => { L with ladder := none, suspended := L.suspended && !x.resume })
  if x.resume then
    let enters (m : Image) : Bool := m.blk.launch == launch && !m.queued
    { s1 with images := s1.images.filter (fun m => !enters m) ++ (s1.images.filter enters).map (fun m => { m with queued := true }) }
  else s1

/-- PREEMPT_CAPTURE: from D1 on, every resident block of the launch is frozen and written out once it can be; the ladder
ends when none is resident (R390). -/
def execPreemptCapture (launch : Nat) (s : State) : Host.Outcome State Fault Refusal :=
  match s.launch? launch with
  | none => .next s
  | some L =>
    match L.ladder with
    | none => .next s
    | some x =>
      let s1 := if L.due s.time (nth 0 s.host.pred1 L.prio) then
          (s.residentOf launch).foldl (fun s B => s.modBlock B.uid Block.freezePre) s
        else s
      let s2 := (s1.residentOf launch).foldl (fun s B =>
        if B.halt = some (.capture 1) && s.capturable B && !s.captureHeld B 1 then s.capture B 1 else s) s1
      .next (if (s2.residentOf launch).isEmpty then s2.ladderEnd launch x else s2)

/-! ## Blocks that end without running (R358, R360, R398) -/

/-- A block is over: it counts in its launch's grid (R368), the token leaves it (R360), and the launch may complete. -/
def State.blockOver (s : State) (l logid : Nat) (sigs : List Sig) : State :=
  let s1 := s.modLaunch l (fun L => { L with freed := logid :: L.freed })
  let s2 : State := match (s1.launch? l).bind (fun L => L.counter) with
    | none => s1
    | some n =>
      let x := (tget 0 s1.host.gbc n).toNat
      let y := gbcOf (bitsN x 61 56) (gbcPhase x) (gbcArrived x) (gbcExpected x - 1)
      ({ s1 with host := { s1.host with gbc := tset 0 s1.host.gbc n y } } : State).gridCheck l
  let s3 := match (s2.launch? l).bind (fun L => L.token.pos) with
    | some (b, w) => if b = logid then s2.tokenPass l (nth Sig.empty sigs w) else s2
    | none => s2
  s3.checkDone l

/-- An image's block aborts with a cause: no warp of it runs again; its warp, %trappc, %trapaddr and %trapaux in the abort
record are not stated: free (log 24). -/
def State.abortImage (s : State) (m : Image) (cause : Nat) : State :=
  let B := m.blk
  let num := ((s.launch? B.launch).map Launch.num).getD 0
  let s1 : State := { s with images := s.images.filter (fun x => x.blk.uid != B.uid)
                             allocs := s.allocs.filter (fun a => a.owner != B.uid) }
  let fr (i : Nat) : Nat := Config.freeNat 398 s.fresh i
  ((s1.modLaunch B.launch (fun L => { L with aborted := L.aborted + 1 })).abortRecord B.ctx num cause B.logid
    (fr 0 % B.warps.length) (fr 1 % 2 ^ 52) (fr 2) (fr 3 % 2 ^ 32)).blockOver B.launch B.logid (B.warps.map (·.sig))

/-! ## Context reset (R393, R418) -/

/-- A write an outstanding operation has yet to make lands or not (free). -/
def State.landFree (s : State) (b w id : Nat) : State :=
  match (s.warp? b w).bind (fun W => W.op? id) with
  | none => s
  | some o =>
    let pick (i : Nat) : Bool := Config.freeBit 393 s.fresh (id * 1024 + i)
    let s1 := o.parts.zipIdx.foldl (fun (s : State) x =>
      match o.kind, s.block? b, s.warp? b w with
      | .store rel, some B, some W => if !x.1.done && pick x.2 && !s.heldLoc x.1.pa then s.performStore B W o rel x.2 x.1 else s
      | _, _, _ => s) s
    o.reqs.zipIdx.foldl (fun (s : State) x =>
      match o.kind, s.block? b, s.warp? b w with
      | .atom op ord w64 d, some B, some W =>
        if !x.1.done && pick (512 + x.2) && !s.heldLoc x.1.pa then s.performAtom B W o op ord w64 d x.2 x.1 else s
      | _, _, _ => s) s1

/-- What a demotion engine's operation in progress has popped, and not yet pushed back, with the entry. -/
def KvPhase.popped (op : Nat) : KvPhase → Option (Snap × List (Nat × Nat) × Option Nat)
  | .popSum e k v => some (e, poppedSlots op e k v none, none)
  | .write e k v sum => some (e, poppedSlots op e k v sum, none)
  | .store e k v sum _ _ => some (e, poppedSlots op e k v sum, none)
  | .swap e k v sum _ _ => some (e, poppedSlots op e k v sum, none)
  | .back e slots pos _ _ _ => some (e, slots, pos)
  | _ => none

/-- A demotion engine without a context's operations; what the one in progress has popped goes back, push by push, as old slots do
(R405, R418). -/
def State.dropKv (s : State) (ctx die : Nat) : State :=
  let g := s.engine die
  let keep := g.queue.filter (fun r => r.ctx != ctx)
  match g.queue with
  | [] => s
  | r :: _ =>
    if r.ctx != ctx then s.modEngine die (fun g => { g with queue := keep })
    else
      let s1 : State := match g.phase.popped r.op with
        | none => s
        | some (e, slots, pos) => { s with kv := { s.kv with retire := s.kv.retire ++ [⟨e.loc, e.gen, ctx, kvPool g r, slots, pos⟩] } }
      (s1.retireReaders r.id).modEngine die (fun _ => { KvEngine.reset with queue := keep })

/-- The context's requests, and the fences of words that are gone, leave a core's copy queues. -/
def dropCopies (ctx : Nat) (ids : List Nat) (qs : List (List CopyEntry)) : List (List CopyEntry) :=
  clearFences (qs.map (fun q => q.filter (fun e => match e with
    | .request q => q.ctx != ctx
    | .fence o _ => !ids.contains o)))

/-- A context is reset (R393): its blocks stop and are free, its queues are disabled, everything of it at the engines is
dropped, its images are discarded and its launches complete with RESET. -/
def State.contextReset (s : State) (ctx cause : Nat) : State :=
  let mine := s.blocks.filter (fun B => B.ctx == ctx)
  let ops := mine.flatMap (fun B => B.warps.flatMap (fun W => W.ops.map (fun o => (B.uid, W.idx, o.id))))
  let ids := ops.map (·.2.2)
  let uids := mine.map (·.uid) ++ ((s.images.filter (fun m => m.blk.ctx == ctx)).map (fun m => m.blk.uid))
  let s1 := ops.foldl (fun s x => s.landFree x.1 x.2.1 x.2.2) ((mine.flatMap (·.warps)).foldl State.addFixed s)
  let s2 := (List.range 4).foldl (fun s d => s.dropKv ctx d) s1
  let s3 := ids.foldl (fun s i => s.retireReaders i) s2
  let s4 : State := { s3 with
    blocks := s3.blocks.filter (fun B => B.ctx != ctx)
    images := s3.images.filter (fun m => m.blk.ctx != ctx)
    allocs := s3.allocs.filter (fun a => !uids.contains a.owner)
    faults := s3.faults.filter (fun f => f.ctx != ctx)
    selq := s3.selq.map (fun e => (e.1, e.2.filter (fun i => !ids.contains i))) |>.filter (fun e => !e.2.isEmpty)
    cores := s3.cores.map (fun e => (e.1, { e.2 with copyQ := dropCopies ctx ids e.2.copyQ }))
      |>.filter (fun e => e.2 != CoreSt.reset)
    peers := { s3.peers with stages := s3.peers.stages.filter (fun g => !uids.contains g.blk) }
    tup := { s3.tup with
      sent := s3.tup.sent.filter (fun r => !(r.ctx == ctx && r.src.isSome))
      parked := s3.tup.parked.filter (fun p => !(p.req.ctx == ctx && p.req.src.isSome))
      replies := s3.tup.replies.filter (fun r => !ids.contains r.id) }
    host := { s3.host with
      qctl := (List.range 128).foldl (fun t q =>
        if queueCtx (tget 0 t q).toNat = ctx then tset 0 t q (tget 0 t q &&& ~~~1) else t) s3.host.qctl
      creset := tset 0 s3.host.creset ctx (BitVec.ofNat 64 cause) } }
  ((s4.launches.filter (fun L => L.ctx == ctx)).foldl (fun s L => s.endLaunch L 7) s4).raiseIrq 2

/-- PREEMPT_FORCED_RESET: at D2, with a capture unfinished, the context is reset (R390). -/
def execPreemptForcedReset (launch : Nat) (s : State) : Host.Outcome State Fault Refusal :=
  match s.launch? launch with
  | none => .next s
  | some L =>
    if L.due s.time (nth 0 s.host.pred2 L.prio) && !(s.residentOf launch).isEmpty then .next (s.contextReset L.ctx 1)
    else .next s

/-! ## Restore (R354, R356) -/

/-- What a captured block asks for. -/
def State.needOfBlock (s : State) (B : Block) : Wants :=
  let L := s.launch? B.launch
  let r := ((L.map Launch.record).getD [])
  { needOf r with ranges := some ((s.allocsOf B.uid).map (fun a => (a.first, a.count))) }

/-- The clusters an image may use: class N only with MIG, else those of its launch. -/
def State.clustersOf (s : State) (B : Block) : List Nat :=
  clustersFor (B.mig || decide (0 < B.migcount) || ((s.launch? B.launch).map Launch.onlyN).getD false)

/-- Seats for some images, each on the lowest cluster that admits it, all at once or none. -/
def State.planImages (s : State) : List Image → Uses → Option (List (Image × Nat × List Seat))
  | [], _ => some []
  | m :: r, us =>
    let n := s.needOfBlock m.blk
    match (s.clustersOf m.blk).findSome? (fun cl => (us.lookup cl).bind (fun u =>
        (seatIn (clusterClass cl) u n).map (fun x => (cl, x.1, x.2)))) with
    | none => none
    | some (cl, seats, u) =>
      (s.planImages r (us.map (fun e => if e.1 = cl then (cl, u) else e))).map (fun x => (m, cl, seats) :: x)

/-- The images restored together with the head: all of a pre-empted cooperative or deterministic launch (R390). -/
def State.restoreGroup (s : State) (m : Image) : List Image :=
  match s.launch? m.blk.launch with
  | some L =>
    if m.cause = 1 && (L.coop || L.det) then s.images.filter (fun x => x.blk.launch == L.uid && x.queued) else [m]
  | none => [m]

/-- A warp comes back: its timeout counts on, its watch is registered again where its slice has room, TRIG := 1 (R212, R218). -/
def State.rewatch (s : State) (b w : Nat) (saved : Option Nat) : State :=
  match s.warp? b w with
  | none => s
  | some W =>
    let W1 := { W with mon := { W.mon with deadline := W.mon.deadline.map (· + s.clockOf W.core), watch := none } }
    match saved with
    | none => s.setWarp b W1
    | some line =>
      let ls := s.watchedAt (homeSlice (line * 128))
      let watch := if ls.contains line || decide (ls.length < 64) then some line else none
      (s.setWarp b { W1 with mon := { W1.mon with watch := watch } }).trigger b w line

/-- Step 1 of R356 for one image on its cluster: the block's shares are admitted. -/
def State.restoreSeat (s : State) (m : Image) (cl : Nat) (seats : List Seat) : State :=
  let b := m.blk.uid
  ({ s with
    images := s.images.filter (fun x => x.blk.uid != b)
    allocs := s.allocs.filter (fun a => a.owner != b) } : State).seat
      { m.blk with halt := some (.restoring m.cause), withdrawn := m.tuples } (s.allocsOf b) cl seats

/-- A copy request the block kicked is still queued. -/
def State.copiesLeft (s : State) (b : Nat) : Bool :=
  s.cores.any (fun c => c.2.copyQ.any (fun q => q.any (fun e => match e with
    | .request q => q.blk.1 == b
    | .fence _ _ => false)))

/-- The steps of R356 from step 2 on: its scratch is pinned and filled from the backing pages, its watches and withdrawn requests go
out again, its CBWAITs look at the restored objects. Its cores' L1s keep nothing older than what the block may no longer read, its
placement and its FENCE.full words among it (R310, R383, log 32). -/
def State.restoreFinish (s : State) (B : Block) (cause : Nat) : State :=
  let b := B.uid
  let s0 := (s.allocsOf b).foldl State.backFill (s.pinBlock b)
  let s1 : State := { s0 with allocs := s0.allocs.map (fun a => if a.owner = b then s0.filledFrom a else a) }
  let s2 := (s1.modBlock b (fun B => { B with
    halt := none, withdrawn := [], migcount := B.migcount + (if cause = 0 then 1 else 0)
    warps := B.warps.map (fun W => { W with mon := { W.mon with watch := none } }) })).l1Fresh B.cores
  let g := B.warps.foldl (fun g W => g.or W.sig) Sig.empty
  let s3 := B.warpList.foldl (fun s W => (s.acquire b W.idx g).rewatch b W.idx W.mon.watch) s2
  let s4 := s3.modTup (fun t => { t with sent := t.sent ++ B.withdrawn.map (fun x => { x.1 with timeout := x.2 }) })
  let s5 := match (s4.launch? B.launch) with
    | some L => match L.token.pos with
      | some (lb, lw) => if lb = B.logid && !L.token.held then s4.tokenArrive L (lb, lw) L.token.sig else s4
      | none => s4
    | none => s4
  (s5.noticeWaits b).count 4 (2 * coreDie ((B.cores.head?).getD 0) + 1)

/-- The restore of a seated block goes on, unless it waits for copy requests accepted before the capture (R356), or for the memory of
its backing pages (R296). -/
def State.restoreNext (s : State) (b : Nat) : State :=
  match s.block? b with
  | none => s
  | some B =>
    match B.halt with
    | some (.restoring cause) => if s.copiesLeft b || s.backHeld (s.allocsOf b) then s else s.restoreFinish B cause
    | _ => s

/-- POISON in the image's header, which system software may write (Table 13.2). -/
def State.imagePoison (s : State) (m : Image) : Bool :=
  match s.readVaN none m.blk.ctx m.va 8 with
  | some d => bitN d 21
  | none => false

/-- The bytes of an image. -/
def State.imageLen (s : State) (m : Image) : Nat := imageLength m.blk (s.allocsOf m.blk.uid) m.tuples.length

/-- An uncorrectable error lies in the image. -/
def State.imageBad (s : State) (m : Image) : Bool := s.vaPoisoned none m.blk.ctx m.va (s.imageLen m)

/-- The slices fill an image's lines (R300). -/
def State.imageFill (s : State) (m : Image) : State := s.fillVa none m.blk.ctx m.va (s.imageLen m)

/-- RESTORE: a restore under way goes on; else the image at the head of the restore queue is restored, when a permitted cluster admits
it and no new block of a higher level that may go goes first (R354, R356); an unloaded or spoiled image's block ends. -/
def execRestore (s : State) : Host.Outcome State Fault Refusal :=
  match s.blocks.filter Block.restoring with
  | B :: Bs => .next ((B :: Bs).foldl (fun s B => s.restoreNext B.uid) s)
  | [] =>
  match s.restoreQueue with
  | [] => .next s
  | m :: _ =>
    let group := s.restoreGroup m
    if s.launches.any (fun M => decide (s.imagePrio m < M.prio) && s.canPlace M && !s.mustWait M) ||
        group.any (fun x => s.vaHeld x.blk.ctx x.va (s.imageLen x)) then .next s
    else match group.find? s.imagePoison, group.find? s.imageBad with
      | some x, _ => .next (s.abortImage x causeUnloaded)
      | none, some x =>
        let s1 := (s.imageFill x).abortImage x causePoison
        .next (if x.cause = 1 then s1.contextReset x.blk.ctx 4 else s1)
      | none, none =>
        match s.planImages group (allClusters.map (fun cl => (cl, s.clusterUse cl))) with
        | none => .next s
        | some plan =>
          let s1 := plan.foldl (fun s e => (s.imageFill e.1).restoreSeat e.1 e.2.1 e.2.2) s
          .next (plan.foldl (fun s e => s.restoreNext e.1.blk.uid) s1)

/-! ## Commands (Table 17.2) -/

def State.result (s : State) (r : Nat) : State := { s with host := { s.host with cmdResult := BitVec.ofNat 8 r } }

/-- A command on an enabled context; else BADCTX and no other effect (R394). It is ignored in RECOVERY (R450), and while a command is
in progress (Table 17.2). -/
def State.command (s : State) (ctx : BitVec 6) (f : State → State) (r : Nat := 0) : Host.Outcome State Fault Refusal :=
  if s.trust.bootstat = bootRecovery || s.host.cmdBusy then .next s
  else if !(tget 0 s.host.cpt ctx.toNat).getLsbD 0 then .next (s.result 2) else .next ((f s).result r)

/-- CMD_PREEMPT (R389, R390). -/
def execCmdPreempt (ctx : BitVec 6) (s : State) : Host.Outcome State Fault Refusal :=
  s.command ctx (fun s => s.preempt ctx.toNat)

/-- CMD_RESUME (R391): captured images enter the restore queue in capture order; a launch may place blocks again, once its ladder has
ended (log 42). -/
def execCmdResume (ctx : BitVec 6) (s : State) : Host.Outcome State Fault Refusal :=
  s.command ctx (fun s =>
    let enters (m : Image) : Bool := m.blk.ctx == ctx.toNat && !m.queued
    { s with
      images := s.images.filter (fun m => !enters m) ++ (s.images.filter enters).map (fun m => { m with queued := true })
      launches := s.launches.map (fun L =>
        if L.ctx = ctx.toNat then { L with suspended := L.ladder.isSome, ladder := L.ladder.map (fun x => { x with resume := true }) }
        else L) })

/-- CMD_RESET (R393). -/
def execCmdReset (ctx : BitVec 6) (s : State) : Host.Outcome State Fault Refusal :=
  s.command ctx (fun s => s.contextReset ctx.toNat 3)

/-- The launch uses the code object. -/
def Launch.uses (L : Launch) (ctx code : Nat) : Bool := L.ctx == ctx && recBits L.record 0 51 0 == code

/-- CMD_UNLOAD (R398): each launch not yet complete holds a reference, its images among it. -/
def execCmdUnload (ctx : BitVec 6) (arg : BitVec 50) (s : State) : Host.Outcome State Fault Refusal :=
  s.command ctx id (if s.launches.any (fun L => L.uses ctx.toNat (4 * arg.toNat)) then 1 else 0)

/-- CMD_UNLOAD_FORCED (R398): the object's resident blocks abort with CODE_UNLOADED, and POISON is set in its images. What
the abort records besides the cause and the block is not stated: free (log 24). It waits while such an image's header is held (R296). -/
def execCmdUnloadForced (ctx : BitVec 6) (arg : BitVec 50) (s : State) : Host.Outcome State Fault Refusal :=
  let code := 4 * arg.toNat
  if s.images.any (fun m => ((s.launch? m.blk.launch).map (fun L => L.uses ctx.toNat code)).getD false && s.vaHeld m.blk.ctx m.va 8) then
    .next s
  else s.command ctx (fun s =>
    let using_ (l : Nat) : Bool := ((s.launch? l).map (fun L => L.uses ctx.toNat code)).getD false
    let s1 := (s.blocks.filter (fun B => using_ B.launch)).foldl (fun s B =>
      let fr (i : Nat) : Nat := Config.freeNat 398 s.fresh (8 * B.uid + i)
      s.abortBlock B.uid (fr 0 % B.warps.length)
        ⟨BitVec.ofNat 8 causeUnloaded, BitVec.ofNat 52 (fr 1), 0, BitVec.ofNat 64 (fr 2), BitVec.ofNat 32 (fr 3), 0⟩) s
    (s1.images.filter (fun m => using_ m.blk.launch)).foldl (fun s m =>
      match s.readVaN none m.blk.ctx m.va 8 with
      | none => s
      | some d =>
        match s.writeVa none m.blk.ctx m.va (leBytes 8 (d ||| 2 ^ 21)) with
        | .ok s' => s'
        | .error e => s.logVa m.blk.ctx e.2) s1)

/-- The VA lies in the pages of an INVALIDATE: from page `first` up, n of them, 0 meaning all. -/
def invalidates (first n va : Nat) : Bool := n == 0 || (decide (first ≤ va / 4096) && decide (va / 4096 < first + n))

/-- The operation has issued accesses in these pages that are not performed; their places are fixed. -/
def Op.issuedIn (o : Op) (first n : Nat) : Bool :=
  o.kind.isMem && !o.kind.scratch &&
    (o.parts.any (fun p => !p.done && invalidates first n p.va) || o.reqs.any (fun r => !r.done && invalidates first n r.va))

/-- The context's operations with such accesses. -/
def State.issuedOps (s : State) (ctx first n : Nat) : List Nat :=
  (s.blocks.filter (fun B => B.ctx == ctx)).flatMap (fun B => B.warps.flatMap (fun W =>
    (W.ops.filter (fun o => o.issuedIn first n)).map (·.id)))

/-- A copy request of the context has places fixed that it has still to write. -/
def State.copyIssued (s : State) (ctx : Nat) : Bool :=
  s.cores.any (fun c => c.2.copyQ.any (fun q => q.any (fun e => match e with
    | .request q => q.ctx == ctx && ((q.run.map (fun r => !r.outs.isEmpty)).getD false)
    | .fence _ _ => false)))

/-- INVALIDATE goes on, for accesses issued before it: it completes when they have been performed, and no access that ends later uses
the old tables. -/
def State.invalidate (s : State) (ctx first n : Nat) (ids : List Nat) : State :=
  let left := ids.filter (fun i => (s.issuedOps ctx first n).contains i)
  if left.isEmpty && !s.copyIssued ctx then
    ((({ s with host := { s.host with cmdBusy := false, cmdInv := none } } : State).settleTables ctx).result 0)
  else { s with host := { s.host with cmdBusy := true, cmdInv := some (ctx, first, n, left) } }

/-- CMD_INVALIDATE (R400): the TLBs keep nothing of the context's pages in the range, and the command completes once the accesses
issued before it have been performed; until then BUSY is set, and the event comes again for its next look (log 44). -/
def execCmdInvalidate (ctx : BitVec 6) (arg : BitVec 50) (s : State) : Host.Outcome State Fault Refusal :=
  let n := s.host.cmdlen.toNat
  let first := arg.toNat % 2 ^ 40
  match s.host.cmdInv with
  | some (c, f, k, ids) => if c = ctx.toNat && f = first then .next (s.invalidate c f k ids) else .next s
  | none =>
    if s.trust.bootstat = bootRecovery || s.host.cmdBusy then .next s
    else if !(tget 0 s.host.cpt ctx.toNat).getLsbD 0 then .next (s.result 2)
    else
      let s1 : State := { s with mem := { s.mem with tlb := s.mem.tlb.filter (fun e =>
        !(e.ctx / 64 == ctx.toNat && invalidates first n (4096 * e.vpn))) } }
      .next (s1.invalidate ctx.toNat first n (s.issuedOps ctx.toNat first n))

end Sys2Proof.Machine
end

