-- ==== Sys2Proof/Machine/Complete.lean ====
section
/-!
DEFINITION. The steps that carry a warp's issued operations to their end: requests performed at slices and in scratch
(R178, R303), atomics at their home slices (R193), completion (R61), the epoch boundary (R318) and warps that become free
(R146, R147, R360, R377).
-/
namespace Sys2Proof.Machine

/-! ## Requests performed (R178, R303, R304) -/

/-- Part `part` of an operation whose order lets it be performed. -/
def State.performPart (s : State) (B : Block) (W : Warp) (o : Op) (part : Nat) (p : Part) (fromL1 : Bool) : State :=
  match o.kind with
  | .load k d acq _ => s.performLoad B W o k d acq fromL1 part p
  | .store rel => s.performStore B W o rel part p
  | .lds k d => s.performLds B W o k d part p
  | .sts => s.performSts B W o part p
  | .ldfrag r wide tr lanes => s.performLdfrag B W o r wide tr lanes part p
  | .stfrag => s.performSts B W o part p
  | .monitor _ => s.performMonitor B W o part p
  | _ => s

/-- A request of a memory word: R179 and R309 let it go; at a port, stores leave in order (R447). ATOMS performs all its
lanes (R196). -/
def State.performMem (s : State) (B : Block) (W : Warp) (o : Op) (part : Nat) (fromL1 : Bool) : State :=
  match o.kind with
  | .atoms aop w64 d =>
    if o.reqs.any (fun r => r.done || !W.mayPerform o (r.lanes.map (·.1)) r.pa (if w64 then 8 else 4) ||
        s.scrHeld B.uid W.idx r.pa (if w64 then 8 else 4)) then s
    else s.performAtoms B o aop w64 d W.idx
  | _ =>
    match o.parts[part]? with
    | none => s
    | some p =>
      if p.done || !W.mayPerform o [p.lane] p.pa p.len || !W.portFree o p.pa ||
          (if o.kind.scratch then s.scrHeld B.uid W.idx p.pa p.len else s.heldLoc p.pa) then s
      else s.performPart B W o part p fromL1

/-- A read of an engine's operands, or the engine's own step that follows them: MMA and ATTN read scratch once the warp's
earlier scratch stores are performed (R232, R252); after ATTN's parts comes its computation; PGSEAL reads its entry, then the page. What
an engine then writes, it may write 4-byte word by word (R305): the parts that follow. -/
def State.performEngine (s : State) (B : Block) (W : Warp) (o : Op) (part : Nat) : State :=
  match o.kind with
  | .mma _ =>
    match o.parts[part]? with
    | some p => if p.done || !W.scratchStored o then s else s.performMmaPart B W o part p
    | none => s
  | .attn a =>
    match o.parts[part]? with
    | some p => if p.done || !W.scratchStored o then s else s.performScratchPart B W o part p
    | none => if part = o.parts.length then s.performAttn B W o a else s.attnOut B W o a (part - o.parts.length - 1)
  | .pgseal p => if part = 0 then s.sealSnap B W o p else if part = 1 then s.sealWrite B W o p
      else s.sealOut B W o p (part - 2)
  | .select x => s.selPart B W o x part
  | .sx x => s.sxPart B W o x part
  | .kv _ _ _ _ _ => s.kvPart o.id part
  | _ => s

/-- MEM_REQUEST_PERFORM: part `part` of operation `op`; an LD may be served from its core's L1 (R304). A package that has tripped makes
no request (R371). -/
def execMemRequestPerform (op part : Nat) (fromL1 : Bool) (s : State) : Host.Outcome State Fault Refusal :=
  match s.opOwner op with
  | none => .next s
  | some (B, W, o) =>
    if o.done || s.tripped then .next s
    else .next (((if o.kind.isMem then s.performMem B W o part fromL1 else s.performEngine B W o part).noticeWaits
      B.uid).settle B.uid W.idx)

/-- ATOM_SLICE_PERFORM: request `part` of an ATOM, or a MASS add of an ATTN (R193, R251). -/
def execAtomSlicePerform (op part : Nat) (s : State) : Host.Outcome State Fault Refusal :=
  match s.opOwner op with
  | none => .next s
  | some (B, W, o) =>
    match o.kind, o.reqs[part]? with
    | .atom aop ord w64 d, some r =>
      if o.done || r.done || s.heldLoc r.pa || s.tripped ||
          !W.mayPerform o (r.lanes.map (·.1)) r.pa (if w64 then 8 else 4) then .next s
      else .next (((s.performAtom B W o aop ord w64 d part r).noticeWaits B.uid).settle B.uid W.idx)
    | .attn _, some r =>
      if o.done || r.done || s.tripped then .next s else .next (s.performMass B W o part r)
    | _, _ => .next s

/-! ## Last use (R182) -/

/-- A byte of a dropped line takes one of the values it has held (free). -/
def MemSt.dropByte (fr : Nat) (m : MemSt) (loc : Nat) : MemSt :=
  let held := m.byte loc :: (m.past.filter (fun e => e.1 == loc / 4 * 4)).map (fun e =>
    BitVec.ofNat 8 (e.2 / 2 ^ (8 * (loc % 4))))
  let v := nth 0 held (Config.freeNat 182 fr loc % held.length)
  { m with bytes := tset memDefault m.bytes loc v, past := (loc / 4 * 4, m.readN (loc / 4 * 4) 4) :: m.past }

/-- A line is dropped from the L1 of the core and from its home slice, without write-back. -/
def MemSt.dropLine (fr core : Nat) (m : MemSt) (line : Nat) : MemSt :=
  let m1 := (List.range 128).foldl (fun m i => MemSt.dropByte fr m (128 * line + i)) m
  { m1 with
    l1 := m1.l1.filter (fun e => !(e.core == core && lineOf e.loc == line))
    owner := m1.owner.filter (fun e => lineOf e.1 != line) }

def State.lastUse (s : State) (core : Nat) (o : Op) : State :=
  let lines := ((o.parts.filter (fun p => !isPeer p.pa)).flatMap (fun p => linesOf p.pa p.len)).eraseDups
  { s with mem := lines.foldl (MemSt.dropLine s.fresh core) s.mem }

/-! ## Completion (R61, R185) -/

/-- FENCE: once every earlier store and posted atomic is performed its flag falls, and the full form's core keeps in its L1
only words it owns; it stays, to order later words after earlier ones, until every earlier memory word is performed. -/
def State.completeFence (s : State) (B : Block) (W : Warp) (o : Op) (full : Bool) : State :=
  let before := W.opsBefore o.id
  if !o.done && before.any (fun y => y.kind.isStore && !y.performed) then s
  else
    let s1 := if full && !o.done then s.l1Fresh [W.core] else s
    if before.all (fun y => !y.kind.isMem || y.performed) then s1.finishOp B.uid W.idx o
    else (s1.modWarp B.uid W.idx (fun W => { W.modOp o.id (fun o => { o with done := true, setf := none }) with
      flags := match o.setf with
        | some f => tset 0 W.flags f (tget 0 W.flags f - 1)
        | none => W.flags })).noticeWaits B.uid

/-- CQFENCE: its entries stand in their queues, or it is over. -/
def State.completeFenceQ (s : State) (B : Block) (W : Warp) (o : Op) (mask : Nat) (entered : Bool) : State :=
  match s.completeCqfence B W o mask entered with
  | none => s
  | some (s1, ended) => if ended then s1.finishOp B.uid W.idx o else s1

/-- What an operation does when it completes, if it can; none while it cannot. -/
def State.completes (s : State) (B : Block) (W : Warp) (o : Op) : Option State :=
  let whenPerformed (s : State) : Option State := if o.performed then some s else none
  match o.kind with
  | .load _ _ _ lu => whenPerformed (if lu then s.lastUse W.core o else s)
  | .ckick d addr token => s.completeCkick B W o d addr token
  | .cbset addr n => s.completeCbset B W o addr n
  | .cbwait d addr seen => s.completeCbwait B W o d addr seen
  | .mma m => s.completeMma B W o m
  | .mread tile fmt dst accd lanes => s.completeMrd B W o tile fmt dst accd lanes
  | .mwrite tile vals => s.completeMwr B W o tile vals
  | .attn a => s.completeAttn B W o a
  | .pgseal p => s.completeSeal B W o p
  | .draw dst => s.completeDraw B W o dst
  | .kv op d va _ status => s.completeKv B W o op d va status
  | .launch dst va q => s.completeLaunch B W o dst va q
  | .select _ => none
  | .tuple _ _ => none
  | .sx _ => none
  | .pass => none
  | .fence _ => none
  | .cqfence _ _ => none
  | _ => whenPerformed s

/-- OPERATION_COMPLETE: the operation has completed for every lane; its registers hold their values and its flag falls. -/
def execOperationComplete (op : Nat) (s : State) : Host.Outcome State Fault Refusal :=
  match s.opOwner op with
  | none => .next s
  | some (B, W, o) =>
    match o.kind with
    | .fence full => .next (s.completeFence B W o full)
    | .cqfence mask entered => .next (s.completeFenceQ B W o mask entered)
    | _ =>
      if s.tripped then .next s
      else if o.done then .next ((s.retireReaders o.id).finishOp B.uid W.idx o)
      else match s.completes B W o with
        | none => .next s
        | some s1 => .next (s1.finishOp B.uid W.idx o)

/-! ## The epoch boundary (R318) -/

/-- EPOCH_BOUNDARY: a boundary that the time base has passed is brought; a turn itself brings every other one it passes (`beginTurn`). -/
def execEpochBoundary (s : State) : Host.Outcome State Fault Refusal :=
  if s.time / 65536 ≤ s.epoch then .next s else .next (s.passEpochs 1)

/-! ## Warps that become free (R146, R147, R360, R368, R377) -/

/-- The warp has drained: its flags are zero, its operations are over, its copy requests too; a warp of an aborted block
has first reached the end of its chain (R148). -/
def State.drained (s : State) (B : Block) (W : Warp) : Bool :=
  W.flags.all (fun e => e.2 == 0) && W.ops.isEmpty && !(B.aborted && s.runsOn B W) &&
  !(s.cores.any (fun c => c.2.copyQ.any (fun q => q.any (fun e => match e with
    | .request q => q.blk == (B.uid, W.idx)
    | .fence _ _ => false))))

/-- The block's last warp is free: its scratch, barriers, translation entries and block slots are released, its pinned pages written back (R147, R157). -/
def State.releaseBlock (s : State) (B : Block) : State :=
  let s := B.warps.foldl State.addFixed ((s.allocsOf B.uid).foldl State.writeBack s)
  ({ s with
    blocks := s.blocks.filter (fun x => x.uid != B.uid)
    allocs := s.allocs.filter (fun a => a.owner != B.uid) } : State).blockOver B.launch B.logid (B.warps.map (·.sig))

/-- WARP_FREE: a drained warp whose threads have all exited, or whose block has aborted, becomes free. A token at it, or
held by it, passes on. The block's last warp waits while the memory of its pinned pages' backing is held (R296). -/
def execWarpFree (blk warp : Nat) (s : State) : Host.Outcome State Fault Refusal :=
  match s.block? blk with
  | none => .next s
  | some B =>
    match B.warp? warp with
    | none => .next s
    | some W =>
      if W.freed || !(B.halt.isNone || B.aborted) || !(W.allExited || B.aborted) || !s.drained B W then .next s
      else
        let s1 := s.setWarp blk { W with freed := true }
        let at' := ((s1.launch? B.launch).map (fun L => L.token.pos == some (B.logid, warp))).getD false
        let s2 := if at' then s1.tokenPass B.launch W.sig else s1
        match s2.block? blk with
        | none => .next s2
        | some B2 =>
          if !B2.warps.all (·.freed) then .next s2
          else if s2.pinsHeld blk then .next s else .next (s2.releaseBlock B2)

end Sys2Proof.Machine
end

