-- ==== Sys2Proof/Machine/Dual.lean ====
section
/-!
DEFINITION. Dual words (R73 to R75, Tables 3.9 and 3.10).
-/
namespace Sys2Proof.Machine

/-- The 32-bit result of a half and the flags it raises. -/
def halfValue (c : Iss) (h : Half) (l : Nat) : Coded :=
  let a := c.src (h.sa.setWidth 8) l
  let b := c.src (h.sb.setWidth 8) l
  let imm : Word := h.sb.setWidth 32
  let int (x : Word) : Coded := (x.toNat, 0)
  match h.hop.toNat with
  | 0x00 => int (a + b)
  | 0x01 => int (a - b)
  | 0x02 => int (a &&& b)
  | 0x03 => int (a ||| b)
  | 0x04 => int (a ^^^ b)
  | 0x05 => int (shl32 a b)
  | 0x06 => int (shr32 a b)
  | 0x07 => int (sar32 a b)
  | 0x08 => int a
  | 0x09 => int (if c.pred 0 l then a else b)
  | 0x0A => int (iminS a b)
  | 0x0B => int (imaxS a b)
  | 0x0C => fAdd fp32 .rne a.toNat b.toNat
  | 0x0D => fMul fp32 .rne a.toNat b.toNat
  | 0x0E => fMin fp32 a.toNat b.toNat
  | 0x0F => fMax fp32 a.toNat b.toNat
  | 0x10 => int (a + imm)
  | 0x11 => int (a - imm)
  | 0x12 => int (a &&& imm)
  | 0x13 => int (a ||| imm)
  | 0x14 => int (a ^^^ imm)
  | 0x15 => int (shl32 a imm)
  | 0x16 => int (shr32 a imm)
  | 0x17 => int (sar32 a imm)
  | _ => int imm

/-- Table 3.2: the floating-point halves have latency 6, the integer halves 4. -/
def halfLat (h : Half) : Nat := if 0x0C ≤ h.hop.toNat ∧ h.hop.toNat ≤ 0x0F then 6 else 4

/-- A half pushes and writes its result and raises its flags, its sources having been read from `c`. -/
def putHalf (c : Iss) (h : Half) (W : Warp) : Warp :=
  let r (l : Nat) : Word := BitVec.ofNat 32 (halfValue c h l).1
  ((W.push c.exec r).writeV c.fr (halfLat h) h.dst.toNat c.exec r).raiseFx c.exec false (fun l => (halfValue c h l).2)

/-- R74, R75: both halves read before either writes; half 0 pushes first. -/
def execDualWord (k : Ctl) (h0 h1 : Half) (s : State) : Host.Outcome State Fault Refusal :=
  issue (.dualWord k h0 h1) (onWarp (fun c => putHalf c h1 (putHalf c h0 c.W))) s

end Sys2Proof.Machine
end

