-- ==== Sys2Proof/Machine/Fetch.lean ====
section
/-!
DEFINITION. Words that cannot be executed: unassigned opcodes (R87) and fetches that fail (R128, R300).
-/
namespace Sys2Proof.Machine

/-- R87: the word reaches issue and is ILLEGAL, or, a dual word, its unassigned half is (R75). -/
def execUnassignedOpcode (w : BitVec 64) (s : State) : Host.Outcome State Fault Refusal :=
  issue (.unassignedOpcode w) (fun _ s => .ok s) s

/-- R128: the run that reaches the address is held on a fault record, or takes MEM_PROT; a poisoned unit raises POISON
(R300). What %trapaddr and %trapaux then hold is not stated: free (log 21). The word after a chain-eligible word stands outside its chain
when it can not be read: the run resumes at it, where a latch reader is then ILLEGAL.CHAIN (DEDUCED, log 51). -/
def execInstructionFetchFault (s : State) : Host.Outcome State Fault Refusal :=
  match s.current with
  | none => .next s
  | some (B, W) =>
    match s.runOf B W with
    | none => .next s
    | some (run, pc) =>
      if !s.mayIssue B W then .next s
      else
        let addr := if W.rep.isSome then pc + 8 else pc
        let resume := resumeAt W none run ⟨addr, pc, none⟩
        let trap (cause : Nat) : Trap := ⟨cause, addr, 0, Config.freeNat 128 s.fresh 0 % 2 ^ 64,
          Config.freeWord 128 s.fresh 1, run, resume, resume⟩
        let s1 := s.modWarp B.uid W.idx (Warp.chosen addr)
        match s.fetch W.core B.ctx addr with
        | .word _ => .next s
        | .prot => .next (s1.takeTrap B.uid W.idx (trap causeMemProt))
        | .poison => .next (s1.takeTrap B.uid W.idx (trap causePoison))
        | .fault =>
          .next ((s1.holdOn B W.idx kindFetch [addr.toNat] (trap causeMemFault).regs).modWarp B.uid W.idx
            (fun W => (W.quiesce run).modThreads run (fun t => { t with pc := resume })))

end Sys2Proof.Machine
end

