-- ==== Sys2Proof/Machine/HostPort.lean ====
section
/-!
DEFINITION. The fabric (chapter 17) and the host's registers: queues' WR (R379), deadlines (R389), verdicts on faults
(R401), hash masks and refresh (R296, R301), plain register writes (R444), the memory aperture (R443), peers (R446 to R449),
boot, measurement, attestation and keys (R450 to R453), events (R456), thermal events (R371), debuggers (R162) and errors
(R160, R300, R455).
-/
namespace Sys2Proof.Machine

/-! ## Queues and deadlines (R379, R389) -/

def State.modHost (s : State) (f : HostSt → HostSt) : State := { s with host := f s.host }

def word32 (x : Nat) : Dword := BitVec.ofNat 64 (x % 2 ^ 32)

/-- QWR_WRITE: ignored with DEV = 1, and in RECOVERY (R450); refused, with OVF := 1, when WR − RD would exceed the ring. -/
def execQwrWrite (queue : BitVec 7) (value : BitVec 64) (s : State) : Host.Outcome State Fault Refusal :=
  let q := queue.toNat
  let ctl := s.qctl q
  let v := value.toNat % 2 ^ 32
  if s.trust.bootstat = bootRecovery || queueDev ctl then .next s
  else if 2 ^ queueSize ctl < (v + 2 ^ 32 - s.qrd q) % 2 ^ 32 then
    .next (s.modHost (fun h => { h with qctl := tset 0 h.qctl q (BitVec.ofNat 64 (ctl ||| 2 ^ 18)) }))
  else .next (s.modHost (fun h => { h with qwr := tset 0 h.qwr q (word32 v) }))

/-- PRED_DEADLINE_WRITE: ignored when D2 would not exceed D1, and in RECOVERY (R450). -/
def execPredDeadlineWrite (second : Bool) (level : BitVec 3) (value : BitVec 32) (s : State) :
    Host.Outcome State Fault Refusal :=
  let p := level.toNat
  if s.trust.bootstat = bootRecovery then .next s
  else if second then
    if nth 0 s.host.pred1 p < value then .next (s.modHost (fun h => { h with pred2 := h.pred2.set p value })) else .next s
  else if value < nth 0 s.host.pred2 p then .next (s.modHost (fun h => { h with pred1 := h.pred1.set p value })) else .next s

/-! ## Fault records (R401) -/

/-- FAULT_RECORD_WRITE: the context's oldest waiting record goes to its ring, if there is room and its memory is not held (R296). -/
def execFaultRecordWrite (ctx : BitVec 6) (s : State) : Host.Outcome State Fault Refusal :=
  let c := ctx.toNat
  let cflt := (tget 0 s.host.cflt c).toNat
  let size := 2 ^ (cflt % 16 + 4)
  let wr := tget 0 s.host.fltWr c
  match s.faults.find? (fun f => f.ctx == c && f.id.isNone) with
  | none => .next s
  | some f =>
    let va := bitsN cflt 51 5 * 32 + 32 * (wr.toNat % size)
    if (wr.toNat + 2 ^ 32 - (tget 0 s.host.fltRd c).toNat) % 2 ^ 32 = size || s.vaHeld c va 32 || s.tripped then .next s
    else
      let bytes := leBytes 8 (f.page * 4096 + f.kind) ++ leBytes 8 (f.launch * 2 ^ 32 + f.core * 256 + f.slot) ++
        leBytes 8 wr.toNat ++ leBytes 8 0
      match s.writeVa none c va bytes with
      | .error e => .next (s.logVa c e.2)
      | .ok s1 =>
        let s2 : State := { s1 with faults := s1.faults.map (fun x =>
          if x.num = f.num then { x with id := some (BitVec.ofNat 32 wr.toNat) } else x) }
        .next ((s2.modHost (fun h => { h with fltWr := tset 0 h.fltWr c (inc32 wr) })).raiseIrq 0)

/-- The pending record an ID names. -/
def State.faultNamed (s : State) (ctx : Nat) (id : BitVec 32) : Option FaultRec :=
  s.faults.find? (fun f => f.ctx == ctx && f.id == some id)

/-- FAULT_RETRY: the words held on the record are issued again. -/
def execFaultRetry (ctx : BitVec 6) (id : BitVec 32) (s : State) : Host.Outcome State Fault Refusal :=
  match s.faultNamed ctx.toNat id with
  | none => .next s
  | some f =>
    .next { s with
      faults := s.faults.filter (fun x => x.num != f.num)
      blocks := s.blocks.map (fun B => { B with warps := B.warps.map (fun W =>
        { W with held := W.held.filter (fun h => h != (f.ctx, f.num)) }) }) }

/-- FAULT_FATAL: the blocks of the words held on the record abort with MEM_FAULT. -/
def execFaultFatal (ctx : BitVec 6) (id : BitVec 32) (s : State) : Host.Outcome State Fault Refusal :=
  match s.faultNamed ctx.toNat id with
  | none => .next s
  | some f =>
    let s1 : State := { s with faults := s.faults.filter (fun x => x.num != f.num) }
    .next (s1.blocks.foldl (fun s B =>
      match B.warps.find? (fun W => W.held.contains (f.ctx, f.num)) with
      | some W => s.abortBlock B.uid W.idx W.heldTrap
      | none => s) s1)

/-! ## Hash masks and refresh (R295, R296, R301, Table 10.2) -/

/-- Mask k is valid: its pivot bit set, the six other pivots, bits 6:0 and bits 51:37 clear. -/
def maskValid (k : Nat) (m : Dword) : Bool :=
  m.getLsbD (7 + k) && (List.range 7).all (fun j => j == k || !m.getLsbD (7 + j)) && bitsN m.toNat 6 0 == 0 &&
  bitsN m.toNat 51 37 == 0

/-- The lowest invalid mask. -/
def firstInvalid (ms : List Dword) : Option Nat := (List.range 7).find? (fun k => !maskValid k (nth 0 ms k))

/-- Setting LOCK. -/
def DieSt.tryLock (d : DieSt) : DieSt :=
  if d.lock then d
  else match firstInvalid d.hashm with
    | none => { d with lock := true, err := false }
    | some k => { d with err := true, badm := BitVec.ofNat 3 k }

/-- MEMCFG_LOCK: a write of MEMCFG; only LOCK can be written, not in RECOVERY (R450). -/
def execMemcfgLock (die : BitVec 2) (value : BitVec 64) (s : State) : Host.Outcome State Fault Refusal :=
  if s.trust.bootstat != bootRecovery && value.getLsbD 0 then .next (s.modDie die.toNat DieSt.tryLock) else .next s

/-- NRSEED_WRITE: the seed; every activate count starts again. In RECOVERY the window does not answer (R450). -/
def execNrseedWrite (die : BitVec 2) (value : BitVec 32) (s : State) : Host.Outcome State Fault Refusal :=
  if s.trust.bootstat = bootRecovery then .next s
  else .next (s.modDie die.toNat (fun d => { d with nrSeed := value, acts := [] }))

/-- MEMCFG as it reads. -/
def DieSt.memcfg (d : DieSt) : Nat := d.badm.toNat * 32 + b2n d.err * 16 + b2n d.lock

/-- The 64 bytes of HASHM0 to HASHM6 and MEMCFG (R450). -/
def DieSt.maskBytes (d : DieSt) : List Byte :=
  (List.range 7).flatMap (fun k => leBytes 8 (nth 0 d.hashm k).toNat) ++ leBytes 8 d.memcfg

/-! ## Plain register writes (R444) -/

/-- The bits hi down to lo of a value, in place. -/
def fieldOf (v : Dword) (hi lo : Nat) : Dword := BitVec.ofNat 64 (bitsN v.toNat hi lo * 2 ^ lo)

/-- QCTLn: OVF is cleared by writing 1 (Table 14.4). -/
def writeQctl (old v : Dword) : Dword :=
  fieldOf v 17 3 ||| fieldOf v 0 0 ||| (if v.getLsbD 18 then 0 else fieldOf old 18 18)

/-- BKCn: HSEL = 3 leaves the register as it is (Table 5.7). -/
def writeBkc (old : Word) (v : Dword) : Word :=
  if bitsN v.toNat 9 8 = 3 then old else BitVec.ofNat 32 (bitsN v.toNat 23 8 * 2 ^ 8 + v.toNat % 2)

def State.modBp (s : State) (core n : Nat) (f : Breakpoint → Breakpoint) : State :=
  s.modCore core (fun c => { c with bps := c.bps.modify n f })

/-- EVCTL: SIZE keeps its value while EN = 1 (R456). -/
def writeEvctl (old : Word) (v : Dword) : Word :=
  BitVec.ofNat 32 (bitsN v.toNat 7 7 * 2 ^ 7 + (if old.getLsbD 7 then bitsN old.toNat 4 0 else bitsN v.toNat 4 0))

/-- The key map or a key changes: the units it reaches hold unspecified bytes until written (R453). -/
def State.rekey (s : State) (reach : ScramOf) : State :=
  { s with mem := { s.mem with scram := ⟨s.fresh, [], reach⟩ :: s.mem.scram } }

/-- A write of 8 bytes at place i of a list of bytes. -/
def putBytes (bs : List Byte) (i : Nat) (v : Dword) : List Byte := bs.take (8 * i) ++ leBytes 8 v.toNat ++ bs.drop (8 * i + 8)

/-- What a plain write does. A write of BKAn or BKCn takes effect whether or not a debugger is attached: R161 lets only a debugger
make one, and says nothing of another's (DESIGN CHOICE, log 68). -/
def State.writeReg (s : State) (v : Dword) : HostReg → State
  | .qbase q => s.modHost (fun h => { h with qbase := tset 0 h.qbase q.toNat (fieldOf v 51 7) })
  | .qctl q => s.modHost (fun h => { h with qctl := tset 0 h.qctl q.toNat (writeQctl (tget 0 h.qctl q.toNat) v) })
  | .cpt c =>
    -- V changes only while the context has no launch (R394)
    let busy := s.launches.any (fun L => L.ctx == c.toNat)
    let old := tget 0 s.host.cpt c.toNat
    s.modHost (fun h => { h with cpt := tset 0 h.cpt c.toNat (fieldOf v 51 12 ||| fieldOf (if busy then old else v) 0 0) })
  | .creg c => s.modHost (fun h => { h with creg := tset 0 h.creg c.toNat (fieldOf v 51 5) })
  | .ccap c => s.modHost (fun h => { h with ccap := tset 0 h.ccap c.toNat (fieldOf v 0 0) })
  | .cmig c three => s.modHost (fun h => { h with cmig := tset 0 h.cmig (2 * c.toNat + b2n three) (fieldOf v 51 12) })
  | .cmslot c => s.modHost (fun h => { h with cmslot := tset 0 h.cmslot c.toNat (fieldOf v 31 12) })
  | .csave c => s.modHost (fun h => { h with csave := tset 0 h.csave c.toNat (fieldOf v 51 12) })
  | .cflt c => s.modHost (fun h => { h with cflt := tset 0 h.cflt c.toNat (fieldOf v 51 5 ||| fieldOf v 3 0) })
  | .cabt c => s.modHost (fun h => { h with cabt := tset 0 h.cabt c.toNat (fieldOf v 51 6 ||| fieldOf v 3 0) })
  | .abtrd c => s.modHost (fun h => { h with abtRd := tset 0 h.abtRd c.toNat (fieldOf v 31 0) })
  | .fltrd c => s.modHost (fun h => { h with fltRd := tset 0 h.fltRd c.toNat (fieldOf v 31 0) })
  | .hostirq => s.modHost (fun h => { h with hostirq := h.hostirq &&& ~~~(BitVec.ofNat 6 v.toNat) })
  | .irqaddr => s.modHost (fun h => { h with irqaddr := fieldOf v 51 0 })
  | .cmdlen => s.modHost (fun h => { h with cmdlen := BitVec.ofNat 32 v.toNat })
  | .hashm die k => s.modDie die.toNat (fun d => if d.lock then d else { d with hashm := d.hashm.set k.toNat (fieldOf v 51 0) })
  | .nrctl die => s.modDie die.toNat (fun d => { d with nrTest := v.getLsbD 8, nrP := BitVec.ofNat 4 v.toNat })
  | .bka core n => s.modBp core.toNat n.toNat (fun b => { b with addr := fieldOf v 51 3 })
  | .bkc core n => s.modBp core.toNat n.toNat (fun b => { b with ctl := writeBkc b.ctl v })
  | .pwin port n =>
    let k := 16 * port.toNat + n.toNat
    { s with peers := { s.peers with pwin := tset 0 s.peers.pwin k (fieldOf v 63 56 ||| fieldOf v 51 0) } }
  | .plen port n =>
    let k := 16 * port.toNat + n.toNat
    { s with peers := { s.peers with plen := tset 0 s.peers.plen k (fieldOf v 31 0) } }
  | .evbase => { s with tel := { s.tel with evbase := if s.tel.evctl.getLsbD 7 then s.tel.evbase else fieldOf v 51 5 } }
  | .evctl => { s with tel := { s.tel with evctl := writeEvctl s.tel.evctl v } }
  | .evrd => { s with tel := { s.tel with evrd := BitVec.ofNat 32 v.toNat } }
  | .keymapbase => ({ s with trust := { s.trust with keymap := v } } : State).rekey .moved
  | .nonce box i => { s with trust := { s.trust with boxes := s.trust.boxes.modify box.toNat (fun b =>
      { b with nonce := putBytes b.nonce i.toNat v, done := false }) } }
  | .mrext i => { s with trust := { s.trust with
      mrext := BitVec.ofNat 512 (ofLeBytes (putBytes (leBytes 64 s.trust.mrext.toNat) i.toNat v)) } }
  | .recovery i => { s with trust := { s.trust with recovery := tsetMany 0 s.trust.recovery (8 * i) (leBytes 8 v.toNat) } }
  | .other => s

/-- A register of the trust window, which alone answers in RECOVERY (R450). -/
def trustReg : HostReg → Bool
  | .keymapbase => true
  | .nonce _ _ => true
  | .mrext _ => true
  | .recovery _ => true
  | _ => false

/-- REGISTER_WRITE. -/
def execRegisterWrite (reg : HostReg) (value : BitVec 64) (s : State) : Host.Outcome State Fault Refusal :=
  if s.trust.bootstat = bootRecovery && !trustReg reg then .next s else .next (s.writeReg value reg)

/-! ## What the host reads of the register aperture (R443, Tables 5.6, 10.2, 14.4, 14.5, 14.8, 17.1 to 17.3, 17.7) -/

/-- One STT entry of a core. -/
def sttWord (slot : Nat) (p : SttPage) : Dword :=
  BitVec.ofNat 64 (2 ^ 63 + (match p.pin with
    | some (core, ppn) => 2 ^ 62 + (coreLocal core % 4) * 2 ^ 48 + ppn * 2 ^ 42
    | none => 0) + slot * 2 ^ 58 + p.vpn * 2 ^ 50 + p.back.toNat)

/-- The valid entries of a core's STT; where each stands in the table is not stated. -/
def State.stt (s : State) (core : Nat) : List Dword := (s.sttAllocs core).flatMap (fun x => x.2.pages.map (sttWord x.1))

/-- A register of the aperture as a read names it: one that the host can also write, one that it can only read, or an offset that
names none. -/
inductive HostView where
  | reg (r : HostReg)
  | qrd (q : Nat) | qwr (q : Nat)
  | pred (second : Bool) (level : Nat)
  | gbc (n : Nat)
  | abtlost (c : Nat) | abtwr (c : Nat) | fltwr (c : Nat)
  | cmdstat
  | creset (c : Nat)
  | memcfg (die : Nat) | nrseed (die : Nat)
  /-- dword i of entry `handle` of a suffix unit -/
  | sxh (unit handle i : Nat)
  | stt (core i : Nat)
  /-- entry i of a core's copy fault log: the address, or the record's -/
  | copyLog (core i : Nat) (record : Bool)
  | pdrop (port : Nat) | pstage (port : Nat)
  | bootstat
  /-- dword i of MRk -/
  | mr (k i : Nat)
  /-- dword i of a mailbox's report, and its DONE -/
  | report (box i : Nat) | mailDone (box : Nat)
  | life (group index : Nat)
  | hist (k : Nat)
  | evwr
  | none
  deriving DecidableEq, Repr

/-- Dword i of some bytes. -/
def bytesDword (bs : List Byte) (i : Nat) : Dword := BitVec.ofNat 64 (ofLeBytes ((bs.drop (8 * i)).take 8))

/-- What a writable register reads as; MREXT, CMDLEN and what is write-only reads 0. -/
def State.readReg (s : State) : HostReg → Dword
  | .qbase q => tget 0 s.host.qbase q.toNat
  | .qctl q => tget 0 s.host.qctl q.toNat
  | .cpt c => tget 0 s.host.cpt c.toNat
  | .creg c => tget 0 s.host.creg c.toNat
  | .ccap c => tget 0 s.host.ccap c.toNat
  | .cmig c three => tget 0 s.host.cmig (2 * c.toNat + b2n three)
  | .cmslot c => tget 0 s.host.cmslot c.toNat
  | .csave c => tget 0 s.host.csave c.toNat
  | .cflt c => tget 0 s.host.cflt c.toNat
  | .cabt c => tget 0 s.host.cabt c.toNat
  | .abtrd c => tget 0 s.host.abtRd c.toNat
  | .fltrd c => tget 0 s.host.fltRd c.toNat
  | .hostirq => s.host.hostirq.zeroExtend 64
  | .irqaddr => s.host.irqaddr
  | .hashm die k => nth 0 (s.die die.toNat).hashm k.toNat
  | .nrctl die => BitVec.ofNat 64 (b2n (s.die die.toNat).nrTest * 256 + (s.die die.toNat).nrP.toNat)
  | .bka core n => ((s.core core.toNat).bps[n.toNat]?.map (·.addr)).getD 0
  | .bkc core n => ((s.core core.toNat).bps[n.toNat]?.map (fun b => b.ctl.zeroExtend 64)).getD 0
  | .pwin port n => tget 0 s.peers.pwin (16 * port.toNat + n.toNat)
  | .plen port n => tget 0 s.peers.plen (16 * port.toNat + n.toNat)
  | .evbase => s.tel.evbase
  | .evctl => s.tel.evctl.zeroExtend 64
  | .evrd => s.tel.evrd.zeroExtend 64
  | .keymapbase => s.trust.keymap
  | .nonce box i => ((s.trust.boxes[box.toNat]?).map (fun b => bytesDword b.nonce i.toNat)).getD 0
  | .recovery i => BitVec.ofNat 64 (ofLeBytes (tgetMany 0 s.trust.recovery (8 * i) 8))
  | .cmdlen => 0
  | .mrext _ => 0
  | .other => 0

/-- A read of the trust window, which alone answers in RECOVERY (R450). -/
def HostView.trust : HostView → Bool
  | .reg r => trustReg r
  | .bootstat => true
  | .mr _ _ => true
  | .report _ _ => true
  | .mailDone _ => true
  | _ => false

/-- What a host read of the register aperture answers (R443): an offset that no window lists reads 0, and so does, in RECOVERY,
every register outside the trust window (log 45). -/
def State.hostReg (s : State) (v : HostView) : Dword :=
  if s.trust.bootstat = bootRecovery && !v.trust then 0
  else match v with
  | .reg r => s.readReg r
  | .qrd q => BitVec.ofNat 64 (s.qrd q)
  | .qwr q => tget 0 s.host.qwr q
  | .pred second p => (nth 0 (if second then s.host.pred2 else s.host.pred1) p).zeroExtend 64
  | .gbc n => tget 0 s.host.gbc n
  | .abtlost c => tget 0 s.host.abtLost c
  | .abtwr c => tget 0 s.host.abtWr c
  | .fltwr c => tget 0 s.host.fltWr c
  | .cmdstat => BitVec.ofNat 64 (b2n s.host.cmdBusy * 2 ^ 31 + s.host.cmdResult.toNat)
  | .creset c => tget 0 s.host.creset c
  | .memcfg d => BitVec.ofNat 64 (s.die d).memcfg
  | .nrseed d => (s.die d).nrSeed.zeroExtend 64
  | .sxh unit handle i => bytesDword (s.sxEntry (65536 * unit + handle)).shown.bytes i
  | .stt core i => nth 0 (s.stt core) i
  | .copyLog core i record => (((s.core core).copyLog[i]?).map (fun e => BitVec.ofNat 64 (if record then e.2 else e.1))).getD 0
  | .pdrop p => tget 0 s.peers.pdrop p
  | .pstage p => tget 0 s.peers.pstage p
  | .bootstat => s.trust.bootstat.zeroExtend 64
  | .mr k i => BitVec.ofNat 64 ((nth 0 s.trust.mr k).toNat / 2 ^ (64 * i))
  | .report b i => ((s.trust.boxes[b]?).map (fun m => bytesDword m.report i)).getD 0
  | .mailDone b => ((s.trust.boxes[b]?).map (fun m => BitVec.ofNat 64 (b2n m.done))).getD 0
  | .life g i => tget 0 s.tel.life (65536 * g + i)
  | .hist k => tget 0 s.tel.hist k
  | .evwr => s.tel.evwr.zeroExtend 64
  | .none => 0

/-! ## The memory aperture (R443) -/

/-- The bytes of a host write that name a location. -/
def hostRuns (pa : Nat) (bs : List Byte) : List (Nat × List Byte) :=
  runsOf (bs.zipIdx.filterMap (fun x => (location (pa + x.2)).map (fun loc => (loc, x.1))))

/-- Some of n bytes at an aperture offset wait for their die (R296). -/
def State.hostHeld (s : State) (pa n : Nat) : Bool := (List.range n).any (fun i => (location (pa + i)).any s.heldLoc)

/-- HOST_MEMORY_ACCESS: nothing before READY; a write is performed at its home slices, a read fills lines; both wait for a held die. -/
def execHostMemoryAccess (access : HostAccess) (s : State) : Host.Outcome State Fault Refusal :=
  if s.trust.bootstat != bootReady then .next s
  else match access with
    | .read pa n => .next (if s.hostHeld pa n then s else (List.range n).foldl (fun s i => match location (pa + i) with
        | some loc => s.fill loc 1
        | none => s) s)
    | .write pa bytes =>
      let runs := hostRuns pa bytes
      if s.hostHeld pa bytes.length then .next s
      else
        let s1 := runs.foldl (fun s r => (s.fill r.1 r.2.length).writeLoc r.1 r.2) s
        let entries := ((runs.flatMap (fun r => (List.range r.2.length).map (r.1 + ·))).filter (fun l =>
          s.inKeymap l && s.mem.byte l != s1.mem.byte l)).map (fun l => (l - s.trust.keymap.toNat) / 2)
        .next (if entries.isEmpty then s1 else s1.rekey (.entries entries.eraseDups))

/-- What a host read of n bytes at an aperture offset answers; none yet while it waits for a held die. -/
def State.hostRead (s : State) (pa n : Nat) : Option (List Byte) :=
  if s.trust.bootstat = bootReady && s.hostHeld pa n then none
  else some ((List.range n).map (fun i => match (if s.trust.bootstat = bootReady then location (pa + i) else none) with
    | some loc => s.mem.byte loc
    | none => 0))

/-! ## Inbound peer traffic (R447 to R449) -/

def State.peerDrop (s : State) (port : Nat) : State :=
  { s with peers := { s.peers with pdrop := tset 0 s.peers.pdrop port (incSat32 (tget 0 s.peers.pdrop port)) } }

def State.portSig (s : State) (port : Nat) : Sig := tget Sig.empty s.peers.psig port

/-- The window of an offset, when it is open and of a kind and the offset lies in it: its word. -/
def State.openWindow (s : State) (port offset : Nat) (deposit : Bool) : Option Dword :=
  let k := 16 * port + bitsN offset 35 32
  let w := tget 0 s.peers.pwin k
  if w.getLsbD 63 && w.getLsbD 62 == deposit && decide (offset % 2 ^ 32 < (tget 0 s.peers.plen k).toNat % 2 ^ 32) then some w
  else none

/-- PEER_STORE: performed through its window, once its memory is not held (R296), or dropped and counted. An STR attaches what its port has written in the same step
(R216, R316, log 45). -/
def execPeerStore (port : BitVec 3) (offset : BitVec 36) (bytes : List (BitVec 8)) (release : Bool) (s : State) :
    Host.Outcome State Fault Refusal :=
  let p := port.toNat
  if s.tripped then .next s
  else match s.openWindow p offset.toNat false with
    | none => .next (s.peerDrop p)
    | some w =>
      let ctx := bitsN w.toNat 61 56
      let va := bitsN w.toNat 51 0 + offset.toNat % 2 ^ 32
      if s.vaHeld ctx va bytes.length then .next s
      else match s.locsOf none ctx va .write bytes.length with
      | .error e => .next ((s.peerDrop p).logVa ctx e.2)
      | .ok ls =>
        let lines := (ls.map lineOf).eraseDups
        let g := lines.foldl Sig.add (s.portSig p)
        let s1 : State := { s with
          peers := { s.peers with psig := tset Sig.empty s.peers.psig p g }
          mem := if release then lines.foldl (fun m l => m.attach l g) s.mem else s.mem }
        .next ((runsOf (ls.zip bytes)).foldl (fun s r => (s.fill r.1 r.2.length).writeLoc r.1 r.2) s1)

/-- PEER_DEPOSIT: a TDEP of 64 bytes on the window's handle, which sets out for its home slice; or dropped. -/
def execPeerDeposit (port : BitVec 3) (offset : BitVec 36) (bytes : List (BitVec 8)) (s : State) :
    Host.Outcome State Fault Refusal :=
  let p := port.toNat
  if s.tripped then .next s
  else match s.openWindow p offset.toNat true with
    | none => .next (s.peerDrop p)
    | some w =>
      let ctx := bitsN w.toNat 61 56
      if !(tget 0 s.host.cpt ctx).getLsbD 0 then .next (s.peerDrop p)
      else
        let r : TupReq :=
          { id := s.nextUid, src := none, ctx := ctx, handle := bitsN w.toNat 31 0, fields := dwordsOf bytes, kind := 0
            mask := 0, blocking := false, timeout := 0, sig := s.portSig p, port := some p }
        .next { s with nextUid := s.nextUid + 1, tup := { s.tup with sent := s.tup.sent ++ [r] } }

/-! ## Measurement and attestation (R451, R452) -/

/-- A measurement register as its 64 bytes. -/
def mrBytes (x : BitVec 512) : List Byte := leBytes 64 x.toNat

/-- MRk := SHA-512(MRk ‖ d). -/
def TrustSt.extend (t : TrustSt) (k : Nat) (d : BitVec 512) : TrustSt :=
  { t with mr := t.mr.modify k (fun m => sha512 (mrBytes m ++ mrBytes d)) }

/-- MR_EXTEND: the host extends MR4 to MR7. -/
def execMrExtend (k : BitVec 64) (s : State) : Host.Outcome State Fault Refusal :=
  if 4 ≤ k.toNat && k.toNat ≤ 7 then .next { s with trust := s.trust.extend k.toNat s.trust.mrext } else .next s

/-- The firmware image that the module boots: the flash's own, or the one last taken from the recovery buffer (R450, log 69). -/
def TrustSt.imageBytes (t : TrustSt) : List Byte := (t.image.map (fun b => tgetMany 0 b 0 Config.recoveryBytes)).getD Config.flashImage

/-- Bytes 0 to 639 of a report (Table 17.5). -/
def State.reportBody (s : State) (nonce : List Byte) : List Byte :=
  leBytes 4 0x54415452 ++ leBytes 2 1 ++ zeros 2 ++ leBytes 8 Config.serialNumber.toNat ++
  leBytes 8 (Config.firmwareVersion s.trust.imageBytes).toNat ++ leBytes 8 (tget 0 s.tel.life (65536 * 7)).toNat ++
  nonce ++ s.trust.mr.flatMap mrBytes ++ leBytes 32 Config.identityKey.toNat ++ zeros 32

/-- ATTEST_REQUEST: GO in a mailbox; the firmware, when it runs, fills the report and sets DONE. -/
def execAttestRequest (box : BitVec 4) (value : BitVec 8) (s : State) : Host.Outcome State Fault Refusal :=
  if value != 1 || s.trust.bootstat != bootReady then .next s
  else .next { s with trust := { s.trust with boxes := s.trust.boxes.modify box.toNat (fun b =>
    let body := s.reportBody b.nonce
    { b with report := body ++ mrBytes (Config.attestationSignature body), done := true }) } }

/-! ## Boot (R450) -/

/-- The masks the firmware of an image writes on a die at the boot of step `fr`; its own choice, of valid ones. -/
def bootMasks (image : List Byte) (fr die : Nat) : List Dword :=
  let ms := (List.range 7).map (fun k => (Config.firmwareMask image fr die k).zeroExtend 64)
  if (firstInvalid ms).isNone then ms else DieSt.reset.hashm

/-- The machine after a module reset up to the end of boot, with the firmware image taken from the recovery buffer, if any: in RECOVERY,
or READY, as the image's key and signature verify or not. What was in memory is not stated to survive: it reads as after a change of
keys. -/
def State.boot (s : State) (image : Option (Tab Byte)) : State :=
  let t : TrustSt := { TrustSt.reset with image := image }
  let img := t.imageBytes
  let s0 : State := { State.reset with
    mem := { MemSt.reset with bytes := s.mem.bytes, past := s.mem.past, bad := s.mem.bad }
    tel := { TelSt.reset with life := s.tel.life, hist := s.tel.hist }
    debugger := s.debugger, nextUid := s.nextUid, fresh := s.fresh, schedule := s.schedule }
  if !Config.firmwareVerifies img then
    (({ s0 with trust := { t with bootstat := bootRecovery } } : State).count 7 1).raiseIrq 5
  else
    let dies := (List.range 4).map (fun d => ({ DieSt.reset with hashm := bootMasks img s.fresh d } : DieSt).tryLock)
    let t1 := (t.extend 0 (sha512 img)).extend 1
      (sha512 ((nth DieSt.reset dies 0).maskBytes ++ Config.firmwareConfiguration img))
    let s1 : State := { s0 with
      trust := { t1 with bootstat := bootReady, keymap := Config.firmwareKeymap img s.fresh }
      dies := dies }
    ((s1.rekey .moved).count 7 0).raiseIrq 5

/-- MODULE_RESET. -/
def execModuleReset (s : State) : Host.Outcome State Fault Refusal := .next (s.boot s.trust.image)

/-- RECOVERY_REBOOT: 4 written to BOOTSTAT in RECOVERY resets the module, which takes the new image from the recovery buffer. -/
def execRecoveryReboot (value : BitVec 32) (s : State) : Host.Outcome State Fault Refusal :=
  if value = 4 && s.trust.bootstat = bootRecovery then .next (s.boot (some s.trust.recovery)) else .next s

/-- KEY_SLOT_LOAD (R453): slot 0 is the firmware's. Whether a key that does not unwrap is loaded is not stated (free). -/
def execKeySlotLoad (slot : BitVec 10) (wrapped : List (BitVec 8)) (s : State) : Host.Outcome State Fault Refusal :=
  if slot = 0 || !Config.keyAuthenticates wrapped then .next s
  else .next (({ s with trust := { s.trust with keys := tset [] s.trust.keys slot.toNat wrapped } } : State).rekey
    (.slot slot.toNat s.trust.keymap.toNat s.mem.bytes))

/-! ## Events (R456, R457) -/

/-- EVENT_RECORD_WRITE: a source's oldest held event goes to the ring when there is room. The context in which EVBASE is
translated, and a source's SRC number, are not stated (free). -/
def execEventRecordWrite (source : Nat) (s : State) : Host.Outcome State Fault Refusal :=
  let t := s.tel
  let e := tget EvSource.reset t.sources source
  let size := 2 ^ (t.evctl.toNat % 32)
  let used := (t.evwr - t.evrd).toNat
  match e.held with
  | [] => .next s
  | r :: rest =>
    let ctx := Config.freeNat 456 0 0 % 64
    let va := t.evbase.toNat + 32 * (t.evwr.toNat % size)
    if !t.ringOn || t.ringFull || s.tripped || s.vaHeld ctx va 32 then .next s
    else
      let bytes := leBytes 8 ((Config.freeNat 456 0 (1 + source) % 65536) * 2 ^ 48 + r.seq % 2 ^ 48) ++ leBytes 8 r.time ++
        leBytes 8 r.code.toNat ++ leBytes 8 r.arg.toNat
      match s.writeVa none ctx va bytes with
      | .error x => .next (s.logVa ctx x.2)
      | .ok s1 =>
        let s2 : State := { s1 with tel := { s1.tel with
          evwr := t.evwr + 1
          sources := tset EvSource.reset s1.tel.sources source { e with held := rest } } }
        .next (if used = 0 then s2.raiseIrq 4 else s2)

/-! ## Power and cooling (R371) -/

/-- THERMAL_TRIP: every die stops, every context is reset with the cause THERMAL. -/
def execThermalTrip (s : State) : Host.Outcome State Fault Refusal :=
  let s1 := (List.range 64).foldl (fun s c => s.contextReset c 2) s
  let s2 := (List.range 4).foldl (fun s d => s.count 3 (2 * d + 1)) { s1 with tripped := true }
  .next (s2.raiseIrq 3)

/-- THROTTLE: a die's clock is lowered; timing only. -/
def execThrottle (die : BitVec 2) (s : State) : Host.Outcome State Fault Refusal :=
  .next ((s.modDie die.toNat (fun d => { d with throttled := true })).count 3 (2 * die.toNat))

/-! ## Debuggers (R162) -/

/-- DEBUGGER_RESUME. -/
def execDebuggerResume (blk : Nat) (s : State) : Host.Outcome State Fault Refusal :=
  .next (s.modBlock blk (fun B => if B.halt = some .debugger then { B with halt := none } else B))

/-! ## Errors and scrub (R160, R300, R455) -/

def addNat (l : List Nat) (x : Nat) : List Nat := if l.contains x then l else x :: l

/-- SOFT_ERROR: an error arises. A double-bit one stands until it is met or overwritten; a single-bit one until it is corrected, when
its word is read or its line filled, or it is scrubbed (R160, R300, R455). -/
def execSoftError (site : ErrorSite) (s : State) : Host.Outcome State Fault Refusal :=
  match site with
  | .laneReg blk warp reg lane double =>
    .next (if decide (reg < 248) && decide (lane < 32) then
      s.modWarp blk warp (fun W => if double then { W with badV := addNat W.badV (32 * reg + lane) }
        else { W with weakV := addNat W.weakV (32 * reg + lane) }) else s)
  | .uniReg blk warp reg double =>
    .next (if decide (reg < 64) then
      s.modWarp blk warp (fun W => if double then { W with badW := addNat W.badW reg }
        else { W with weakW := addNat W.weakW reg }) else s)
  | .partialOf blk warp tile elem odd double =>
    let k := 512 * tile + 2 * elem + b2n odd
    .next (if decide (tile < 8) && decide (elem < 256) then
      s.modWarp blk warp (fun W => if double then { W with badAcc := addNat W.badAcc k }
        else { W with weakAcc := addNat W.weakAcc k }) else s)
  | .scratch _ alloc word double =>
    .next (s.modAlloc alloc (fun a => if double then { a with bad := addNat a.bad word } else { a with weak := addNat a.weak word }))
  | .dram unit double =>
    .next { s with mem := if double then { s.mem with bad := addNat s.mem.bad unit }
      else { s.mem with weak := addNat s.mem.weak unit } }

/-- An uncorrectable error that scrub finds: counted on its die, and an event. -/
def State.scrubFound (s : State) (die src : Nat) : State := (s.count 2 die).raiseEvent src

/-- Scrub of a warp's storage on a core: a double-bit error is reported and stands; a single-bit one is corrected and counted. -/
def State.scrubWarp (s : State) (blk warp : Nat) (bad weak : Warp → Bool) (fix : Warp → Warp) : State :=
  match s.warp? blk warp with
  | none => s
  | some W =>
    let s1 := if weak W then s.modWarp blk warp (fun W => { fix W with fixed := W.fixed + 1 }) else s
    if bad W then s1.scrubFound (coreDie W.core) (srcCore W.core) else s1

/-- PATROL_SCRUB: one unit is read; an uncorrectable DRAM unit becomes poisoned, and core storage stays so until it is
read or written; a correctable one is corrected in place and counted. A held die's memory is not scrubbed, nor a tripped package. -/
def execPatrolScrub (site : ErrorSite) (s : State) : Host.Outcome State Fault Refusal :=
  if s.tripped then .next s
  else match site with
  | .laneReg blk warp reg lane _ =>
    let k := 32 * reg + lane
    .next (s.scrubWarp blk warp (fun W => W.badV.contains k) (fun W => W.weakV.contains k)
      (fun W => { W with weakV := W.weakV.filter (· != k) }))
  | .uniReg blk warp reg _ =>
    .next (s.scrubWarp blk warp (fun W => W.badW.contains reg) (fun W => W.weakW.contains reg)
      (fun W => { W with weakW := W.weakW.filter (· != reg) }))
  | .partialOf blk warp tile elem odd _ =>
    let k := 512 * tile + 2 * elem + b2n odd
    .next (s.scrubWarp blk warp (fun W => W.badAcc.contains k) (fun W => W.weakAcc.contains k)
      (fun W => { W with weakAcc := W.weakAcc.filter (· != k) }))
  | .scratch blk alloc word _ =>
    match s.block? blk, s.allocs.find? (fun a => a.id == alloc) with
    | some B, some a =>
      let c := (B.cores.head?).getD 0
      let s1 := s.allocHeal alloc c (4 * word) 4
      .next (if a.bad.contains word then s1.scrubFound (coreDie c) (srcCore c) else s1)
    | _, _ => .next s
  | .dram unit _ =>
    let loc := 16 * unit
    if s.heldLoc loc then .next s
    else
      let s1 := if locHbm loc then s.activate loc else s
      let s2 : State := if s.mem.weak.contains unit then
        (({ s1 with mem := { s1.mem with weak := s1.mem.weak.filter (· != unit) } } : State).countCorrected loc).raiseEvent
          (srcSlice (homeSlice loc)) else s1
      .next (if s.mem.bad.contains unit then
        ({ s2 with mem := { s2.mem with bad := s2.mem.bad.filter (· != unit), poison := addNat s2.mem.poison unit } } :
          State).scrubFound (locDie loc) (srcDie (locDie loc)) else s2)

end Sys2Proof.Machine
end

