-- ==== Sys2Proof/Machine/Dispatch.lean ====
section
/-!
DEFINITION. Which meaning each instruction has: one arm per constructor, each one direct call.
-/
namespace Sys2Proof.Machine

def exec (i : Instr) (s : State) : Host.Outcome State Fault Refusal :=
  match i with
  | .iadd f => Sys2Proof.Machine.execIadd f s
  | .isub f => Sys2Proof.Machine.execIsub f s
  | .iadd3 f => Sys2Proof.Machine.execIadd3 f s
  | .imul f => Sys2Proof.Machine.execImul f s
  | .imulhS32 f => Sys2Proof.Machine.execImulhS32 f s
  | .imulhN32 f => Sys2Proof.Machine.execImulhN32 f s
  | .imad f => Sys2Proof.Machine.execImad f s
  | .imadwS32 f => Sys2Proof.Machine.execImadwS32 f s
  | .imadwN32 f => Sys2Proof.Machine.execImadwN32 f s
  | .iminS32 f => Sys2Proof.Machine.execIminS32 f s
  | .iminN32 f => Sys2Proof.Machine.execIminN32 f s
  | .imaxS32 f => Sys2Proof.Machine.execImaxS32 f s
  | .imaxN32 f => Sys2Proof.Machine.execImaxN32 f s
  | .iabs f => Sys2Proof.Machine.execIabs f s
  | .shl f => Sys2Proof.Machine.execShl f s
  | .shr f => Sys2Proof.Machine.execShr f s
  | .sar f => Sys2Proof.Machine.execSar f s
  | .rot f => Sys2Proof.Machine.execRot f s
  | .andR f => Sys2Proof.Machine.execAndR f s
  | .orR f => Sys2Proof.Machine.execOrR f s
  | .xorR f => Sys2Proof.Machine.execXorR f s
  | .notR f => Sys2Proof.Machine.execNotR f s
  | .blut f => Sys2Proof.Machine.execBlut f s
  | .popc f => Sys2Proof.Machine.execPopc f s
  | .clz f => Sys2Proof.Machine.execClz f s
  | .brev f => Sys2Proof.Machine.execBrev f s
  | .bfeN32 f => Sys2Proof.Machine.execBfeN32 f s
  | .bfeS32 f => Sys2Proof.Machine.execBfeS32 f s
  | .bfi f => Sys2Proof.Machine.execBfi f s
  | .sel f => Sys2Proof.Machine.execSel f s
  | .lea f => Sys2Proof.Machine.execLea f s
  | .icmp f => Sys2Proof.Machine.execIcmp f s
  | .iaddImm f => Sys2Proof.Machine.execIaddImm f s
  | .imulImm f => Sys2Proof.Machine.execImulImm f s
  | .andImm f => Sys2Proof.Machine.execAndImm f s
  | .orImm f => Sys2Proof.Machine.execOrImm f s
  | .xorImm f => Sys2Proof.Machine.execXorImm f s
  | .shlImm f => Sys2Proof.Machine.execShlImm f s
  | .shrImm f => Sys2Proof.Machine.execShrImm f s
  | .sarImm f => Sys2Proof.Machine.execSarImm f s
  | .icmpImm f => Sys2Proof.Machine.execIcmpImm f s
  | .fadd f => Sys2Proof.Machine.execFadd f s
  | .faddRz f => Sys2Proof.Machine.execFaddRz f s
  | .faddRu f => Sys2Proof.Machine.execFaddRu f s
  | .faddRd f => Sys2Proof.Machine.execFaddRd f s
  | .fmul f => Sys2Proof.Machine.execFmul f s
  | .fmulRz f => Sys2Proof.Machine.execFmulRz f s
  | .fmulRu f => Sys2Proof.Machine.execFmulRu f s
  | .fmulRd f => Sys2Proof.Machine.execFmulRd f s
  | .ffma f => Sys2Proof.Machine.execFfma f s
  | .ffmaRz f => Sys2Proof.Machine.execFfmaRz f s
  | .ffmaRu f => Sys2Proof.Machine.execFfmaRu f s
  | .ffmaRd f => Sys2Proof.Machine.execFfmaRd f s
  | .fmin f => Sys2Proof.Machine.execFmin f s
  | .fmax f => Sys2Proof.Machine.execFmax f s
  | .fcmp f => Sys2Proof.Machine.execFcmp f s
  | .fclass f => Sys2Proof.Machine.execFclass f s
  | .frcp f => Sys2Proof.Machine.execFrcp f s
  | .frsq f => Sys2Proof.Machine.execFrsq f s
  | .fsqrt f => Sys2Proof.Machine.execFsqrt f s
  | .fdiv f => Sys2Proof.Machine.execFdiv f s
  | .fex2 f => Sys2Proof.Machine.execFex2 f s
  | .flg2 f => Sys2Proof.Machine.execFlg2 f s
  | .fsinpi f => Sys2Proof.Machine.execFsinpi f s
  | .fcospi f => Sys2Proof.Machine.execFcospi f s
  | .hadd2F16 f => Sys2Proof.Machine.execHadd2F16 f s
  | .hmul2F16 f => Sys2Proof.Machine.execHmul2F16 f s
  | .hfma2F16 f => Sys2Proof.Machine.execHfma2F16 f s
  | .hadd2Bf16 f => Sys2Proof.Machine.execHadd2Bf16 f s
  | .hmul2Bf16 f => Sys2Proof.Machine.execHmul2Bf16 f s
  | .hfma2Bf16 f => Sys2Proof.Machine.execHfma2Bf16 f s
  | .cvt f => Sys2Proof.Machine.execCvt f s
  | .cvtRz f => Sys2Proof.Machine.execCvtRz f s
  | .cvtRu f => Sys2Proof.Machine.execCvtRu f s
  | .cvtRd f => Sys2Proof.Machine.execCvtRd f s
  | .pack f => Sys2Proof.Machine.execPack f s
  | .unpack f => Sys2Proof.Machine.execUnpack f s
  | .qblk f => Sys2Proof.Machine.execQblk f s
  | .dqblk f => Sys2Proof.Machine.execDqblk f s
  | .bra f => Sys2Proof.Machine.execBra f s
  | .brx f => Sys2Proof.Machine.execBrx f s
  | .brxRel f => Sys2Proof.Machine.execBrxRel f s
  | .call f => Sys2Proof.Machine.execCall f s
  | .ret f => Sys2Proof.Machine.execRet f s
  | .retH f => Sys2Proof.Machine.execRetH f s
  | .exit f => Sys2Proof.Machine.execExit f s
  | .yield f => Sys2Proof.Machine.execYield f s
  | .rep f => Sys2Proof.Machine.execRep f s
  | .repIteration rep target => Sys2Proof.Machine.execRepIteration rep target s
  | .lit f => Sys2Proof.Machine.execLit f s
  | .nop f => Sys2Proof.Machine.execNop f s
  | .trap f => Sys2Proof.Machine.execTrap f s
  | .brk f => Sys2Proof.Machine.execBrk f s
  | .rdsr f => Sys2Proof.Machine.execRdsr f s
  | .wrsr f => Sys2Proof.Machine.execWrsr f s
  | .pset f => Sys2Proof.Machine.execPset f s
  | .psetAll f => Sys2Proof.Machine.execPsetAll f s
  | .plop f => Sys2Proof.Machine.execPlop f s
  | .mov f => Sys2Proof.Machine.execMov f s
  | .movi f => Sys2Proof.Machine.execMovi f s
  | .ldix f => Sys2Proof.Machine.execLdix f s
  | .stix f => Sys2Proof.Machine.execStix f s
  | .rng4 f => Sys2Proof.Machine.execRng4 f s
  | .rdtime f => Sys2Proof.Machine.execRdtime f s
  | .movwLane f => Sys2Proof.Machine.execMovwLane f s
  | .movwFirst f => Sys2Proof.Machine.execMovwFirst f s
  | .movwToLane f => Sys2Proof.Machine.execMovwToLane f s
  | .wadd f => Sys2Proof.Machine.execWadd f s
  | .wsub f => Sys2Proof.Machine.execWsub f s
  | .wmul f => Sys2Proof.Machine.execWmul f s
  | .wand f => Sys2Proof.Machine.execWand f s
  | .wor f => Sys2Proof.Machine.execWor f s
  | .wxor f => Sys2Proof.Machine.execWxor f s
  | .wshl f => Sys2Proof.Machine.execWshl f s
  | .wshr f => Sys2Proof.Machine.execWshr f s
  | .wmov f => Sys2Proof.Machine.execWmov f s
  | .wcmp f => Sys2Proof.Machine.execWcmp f s
  | .waddImm f => Sys2Proof.Machine.execWaddImm f s
  | .wmovImm f => Sys2Proof.Machine.execWmovImm f s
  | .dualWord c h0 h1 => Sys2Proof.Machine.execDualWord c h0 h1 s
  | .ldLane k f => Sys2Proof.Machine.execLdLane k f s
  | .ldUniform k f => Sys2Proof.Machine.execLdUniform k f s
  | .stLane k f => Sys2Proof.Machine.execStLane k f s
  | .stUniform k f => Sys2Proof.Machine.execStUniform k f s
  | .lda w64 f => Sys2Proof.Machine.execLda w64 f s
  | .str w64 f => Sys2Proof.Machine.execStr w64 f s
  | .lds k f => Sys2Proof.Machine.execLds k f s
  | .sts k f => Sys2Proof.Machine.execSts k f s
  | .ldfrag f => Sys2Proof.Machine.execLdfrag f s
  | .stfrag f => Sys2Proof.Machine.execStfrag f s
  | .pref f => Sys2Proof.Machine.execPref f s
  | .fenceFull f => Sys2Proof.Machine.execFenceFull f s
  | .fenceSig f => Sys2Proof.Machine.execFenceSig f s
  | .atom f => Sys2Proof.Machine.execAtom f s
  | .atoms f => Sys2Proof.Machine.execAtoms f s
  | .xlane f => Sys2Proof.Machine.execXlane f s
  | .pcons f => Sys2Proof.Machine.execPcons f s
  | .peers f => Sys2Proof.Machine.execPeers f s
  | .red f => Sys2Proof.Machine.execRed f s
  | .redF32 f => Sys2Proof.Machine.execRedF32 f s
  | .scan f => Sys2Proof.Machine.execScan f s
  | .scanF32 f => Sys2Proof.Machine.execScanF32 f s
  | .elect f => Sys2Proof.Machine.execElect f s
  | .bar f => Sys2Proof.Machine.execBar f s
  | .nbarArrive f => Sys2Proof.Machine.execNbarArrive f s
  | .nbarWait f => Sys2Proof.Machine.execNbarWait f s
  | .nbarSync f => Sys2Proof.Machine.execNbarSync f s
  | .gbar f => Sys2Proof.Machine.execGbar f s
  | .monitor f => Sys2Proof.Machine.execMonitor f s
  | .waitm f => Sys2Proof.Machine.execWaitm f s
  | .monTimeout blk warp => Sys2Proof.Machine.execMonTimeout blk warp s
  | .mshape f => Sys2Proof.Machine.execMshape f s
  | .mma f => Sys2Proof.Machine.execMma f s
  | .mrd f => Sys2Proof.Machine.execMrd f s
  | .mwr f => Sys2Proof.Machine.execMwr f s
  | .mzero f => Sys2Proof.Machine.execMzero f s
  | .attn f => Sys2Proof.Machine.execAttn f s
  | .pgseal f => Sys2Proof.Machine.execPgseal f s
  | .psel f => Sys2Proof.Machine.execPsel f s
  | .topk f => Sys2Proof.Machine.execTopk f s
  | .mergek f => Sys2Proof.Machine.execMergek f s
  | .selectorOperation cluster => Sys2Proof.Machine.execSelectorOperation cluster s
  | .nextt f => Sys2Proof.Machine.execNextt f s
  | .ckick f => Sys2Proof.Machine.execCkick f s
  | .cbset f => Sys2Proof.Machine.execCbset f s
  | .cbwait f => Sys2Proof.Machine.execCbwait f s
  | .cqfence f => Sys2Proof.Machine.execCqfence f s
  | .copyRequest core turn => Sys2Proof.Machine.execCopyRequest core turn s
  | .tdep f => Sys2Proof.Machine.execTdep f s
  | .tcpy f => Sys2Proof.Machine.execTcpy f s
  | .tcpyWait f => Sys2Proof.Machine.execTcpyWait f s
  | .ttak f => Sys2Proof.Machine.execTtak f s
  | .ttakWait f => Sys2Proof.Machine.execTtakWait f s
  | .tupleSliceServe req => Sys2Proof.Machine.execTupleSliceServe req s
  | .tupleReply req => Sys2Proof.Machine.execTupleReply req s
  | .tupleTimeout req => Sys2Proof.Machine.execTupleTimeout req s
  | .regionDrain slice region => Sys2Proof.Machine.execRegionDrain slice region s
  | .sxinit f => Sys2Proof.Machine.execSxinit f s
  | .sxapp f => Sys2Proof.Machine.execSxapp f s
  | .sxqry f => Sys2Proof.Machine.execSxqry f s
  | .sxtrim f => Sys2Proof.Machine.execSxtrim f s
  | .sxsave f => Sys2Proof.Machine.execSxsave f s
  | .sxload f => Sys2Proof.Machine.execSxload f s
  | .sxUnitPerform op => Sys2Proof.Machine.execSxUnitPerform op s
  | .dsweep f => Sys2Proof.Machine.execDsweep f s
  | .pgrecall f => Sys2Proof.Machine.execPgrecall f s
  | .pgpin f => Sys2Proof.Machine.execPgpin f s
  | .pgunpin f => Sys2Proof.Machine.execPgunpin f s
  | .pgdemote f => Sys2Proof.Machine.execPgdemote f s
  | .demotionEngineOp die => Sys2Proof.Machine.execDemotionEngineOp die s
  | .slotRetirePush entry => Sys2Proof.Machine.execSlotRetirePush entry s
  | .launch f => Sys2Proof.Machine.execLaunch f s
  | .ctokw f => Sys2Proof.Machine.execCtokw f s
  | .ctokp f => Sys2Proof.Machine.execCtokp f s
  | .faultRecordWrite ctx => Sys2Proof.Machine.execFaultRecordWrite ctx s
  | .memRequestPerform op part fromL1 => Sys2Proof.Machine.execMemRequestPerform op part fromL1 s
  | .atomSlicePerform op part => Sys2Proof.Machine.execAtomSlicePerform op part s
  | .operationComplete op => Sys2Proof.Machine.execOperationComplete op s
  | .epochBoundary => Sys2Proof.Machine.execEpochBoundary s
  | .patrolScrub site => Sys2Proof.Machine.execPatrolScrub site s
  | .warpFree blk warp => Sys2Proof.Machine.execWarpFree blk warp s
  | .launchDispatch => Sys2Proof.Machine.execLaunchDispatch s
  | .blockPlacement launch => Sys2Proof.Machine.execBlockPlacement launch s
  | .captureMigration blk => Sys2Proof.Machine.execCaptureMigration blk s
  | .restore => Sys2Proof.Machine.execRestore s
  | .preemptCapture launch => Sys2Proof.Machine.execPreemptCapture launch s
  | .preemptForcedReset launch => Sys2Proof.Machine.execPreemptForcedReset launch s
  | .cmdPreempt ctx => Sys2Proof.Machine.execCmdPreempt ctx s
  | .cmdResume ctx => Sys2Proof.Machine.execCmdResume ctx s
  | .cmdReset ctx => Sys2Proof.Machine.execCmdReset ctx s
  | .cmdUnload ctx arg => Sys2Proof.Machine.execCmdUnload ctx arg s
  | .cmdUnloadForced ctx arg => Sys2Proof.Machine.execCmdUnloadForced ctx arg s
  | .cmdInvalidate ctx arg => Sys2Proof.Machine.execCmdInvalidate ctx arg s
  | .qwrWrite queue value => Sys2Proof.Machine.execQwrWrite queue value s
  | .predDeadlineWrite second level value => Sys2Proof.Machine.execPredDeadlineWrite second level value s
  | .faultRetry ctx id => Sys2Proof.Machine.execFaultRetry ctx id s
  | .faultFatal ctx id => Sys2Proof.Machine.execFaultFatal ctx id s
  | .memcfgLock die value => Sys2Proof.Machine.execMemcfgLock die value s
  | .nrseedWrite die value => Sys2Proof.Machine.execNrseedWrite die value s
  | .sxhWrite unit handle offset bytes => Sys2Proof.Machine.execSxhWrite unit handle offset bytes s
  | .mrExtend k => Sys2Proof.Machine.execMrExtend k s
  | .attestRequest box value => Sys2Proof.Machine.execAttestRequest box value s
  | .recoveryReboot value => Sys2Proof.Machine.execRecoveryReboot value s
  | .keySlotLoad slot wrapped => Sys2Proof.Machine.execKeySlotLoad slot wrapped s
  | .registerWrite reg value => Sys2Proof.Machine.execRegisterWrite reg value s
  | .hostMemoryAccess access => Sys2Proof.Machine.execHostMemoryAccess access s
  | .peerStore port offset bytes release => Sys2Proof.Machine.execPeerStore port offset bytes release s
  | .peerDeposit port offset bytes => Sys2Proof.Machine.execPeerDeposit port offset bytes s
  | .eventRecordWrite source => Sys2Proof.Machine.execEventRecordWrite source s
  | .moduleReset => Sys2Proof.Machine.execModuleReset s
  | .thermalTrip => Sys2Proof.Machine.execThermalTrip s
  | .throttle die => Sys2Proof.Machine.execThrottle die s
  | .debuggerResume blk => Sys2Proof.Machine.execDebuggerResume blk s
  | .softError site => Sys2Proof.Machine.execSoftError site s
  | .unassignedOpcode w => Sys2Proof.Machine.execUnassignedOpcode w s
  | .instructionFetchFault => Sys2Proof.Machine.execInstructionFetchFault s

end Sys2Proof.Machine
end

