-- ==== Sys2Proof/Machine/Step.lean ====
section
/-!
DEFINITION. One step of the machine: the next turn passes its time (R130, R131), then its agent moves: a sub-partition
issues at most one word (R150), or one step of an engine, a slice, the command processor, the host or the outside
happens.
-/
namespace Sys2Proof.Machine

/-- The turn taken next: the first of the schedule, else a free one (log 2). -/
def State.nextTurn (s : State) : Turn :=
  match s.schedule with
  | t :: _ => t
  | [] => Config.turn s.fresh

/-- One step. -/
def step (s : State) : Host.Outcome State Fault Refusal :=
  let t := s.nextTurn
  let s1 := s.beginTurn t
  match t.act with
  | .event i => exec i { s1 with cur := none }
  | .issue core subp =>
    match s1.selectWord core subp with
    | none => .next { s1 with cur := none }
    | some (i, s2) => exec i s2

/-- The state in which the next step fetches and runs exactly the instruction whose lowest `nbits` bits are w: a context
whose first GiB is mapped by one leaf, die 0's masks locked, a launch with one block of one warp on core 0, that word at its PC, and a turn for
its sub-partition. It stands for loading and launching a program (log 5). -/
def State.withFetchWord (s : State) (nbits w : Nat) : State :=
  s.placeWord (leBytes 8 (w % 2 ^ nbits))

end Sys2Proof.Machine
end

