-- ==== Sys2Proof/Safety.lean ====
section
/-!
DEFINITION. What a safe run is, in the terms the claims use: a run of the machine that ends in no fault and no refusal, the
states a run can reach from another by steps, and the condition under which a word issues and takes its own effect.
-/
namespace Sys2Proof

/-- `t` is reached from `s` by some number of steps. -/
inductive Reaches : Machine.State → Machine.State → Prop where
  | refl (s : Machine.State) : Reaches s s
  | step (s t u : Machine.State) : Reaches s t → Machine.step t = .next u → Reaches s u

/-- The outcome is a next state. -/
def Completes (o : Host.Outcome Machine.State Machine.Fault Machine.Refusal) : Prop := ∃ t, o = .next t

/-- `k` steps from `s` end in a next state. -/
def SafeFor (k : Nat) (s : Machine.State) : Prop := ∃ t, core.run k s = .next t

namespace Machine

/-! ## A word at issue -/

/-- A word at issue: the block, the warp and the run it is issued for, the PC of the run, and the shape and the control
fields of the word. -/
structure Slot where
  B : Block
  W : Warp
  run : Mask
  pc : BitVec 52
  h : Shape
  k : Ctl

/-- Where the word stands, and where its threads go next. -/
def Slot.site (x : Slot) (s : State) : Site × BitVec 52 := x.W.site s.fresh x.pc

/-- The address the word has (R56, R84). -/
def Slot.addr (x : Slot) (s : State) : BitVec 52 := (x.site s).1.addr

/-- The chain the word continues (R78). -/
def Slot.chain (x : Slot) (s : State) : Option PrevWord := s.chainOf x.B x.W x.h x.run (x.addr s)

/-- The address a trap of the word leaves its threads at (R81, R82). -/
def Slot.resume (x : Slot) (s : State) : BitVec 52 := resumeAt x.W (x.chain s) x.run (x.site s).1

/-- The word's context once issue has begun: the threads of the run have moved on (R20, R21). -/
def Slot.begun (x : Slot) (s : State) (i : Instr) : Iss :=
  s.issFor i x.B x.W ((x.W.heard x.k.wait).begin x.run (x.site s).2 x.k.dist.toNat x.h.setf (s.clockOf x.W.core)) x.run (x.site s).1

/-- The context in which R86 tests the word. -/
def Slot.tested (x : Slot) (s : State) (i : Instr) : Iss :=
  { x.begun s i with W := { (x.begun s i).W with prev := x.W.prev } }

/-- The warp as the word's effect finds it. -/
def Slot.warp (x : Slot) (s : State) (i : Instr) (mn : Meaning) (lit : Option Word) : Warp :=
  x.W.taking (x.begun s i) x.h mn (x.chain s) (x.site s).1 lit

/-- What the word's effect reads: registers, the executing lanes, the literal (R59, R65, R82). -/
def Slot.ctx (x : Slot) (s : State) (i : Instr) (mn : Meaning) (lit : Option Word) : Iss :=
  { x.begun s i with W := x.warp s i mn lit }

/-- The state as the word's effect finds it. -/
def Slot.state (x : Slot) (s : State) (i : Instr) (mn : Meaning) (lit : Option Word) : State :=
  s.setWarp x.B.uid (x.warp s i mn lit)

/-- A word with no check of its own beyond its shape's: what a plain word asks of R86. -/
def plainCheck : Meaning := { body := fun _ s => .ok s }

/-- The same for a word that reads lanes beyond the executing ones (R160). -/
def readsLanes (m : Iss → Mask) : Meaning := { body := fun _ s => .ok s, readMask := m }

/-- The word `i` is at issue: it is the word of the current warp (R150), for the run and the address that issue next (R20,
R80, R82), and x describes it. -/
structure AtIssue (i : Instr) (s : State) (x : Slot) : Prop where
  current : s.current = some (x.B, x.W)
  shape : shapeOf i = some x.h
  ctl : ctlOf i = some x.k
  runs : s.runOf x.B x.W = some (x.run, x.pc)

/-- The word issues: its warp may issue (R17, R144, R177), its time has come (R57, R61, R62, R149), and no breakpoint
matches (R161). -/
structure Issues (i : Instr) (s : State) (x : Slot) : Prop extends AtIssue i s x where
  mayIssue : s.mayIssue x.B x.W = true
  ready : x.W.ready (s.clockOf x.W.core) x.k x.h.setf = true
  noBreak : s.breakAt x.B x.W i (x.site s).1 (x.chain s).isSome = none

/-- Nothing stands between the word `i` and its own effect: it issues, passes the checks of R86, needs no migration (R88),
and no register it reads is in error (R160). -/
structure Clear (i : Instr) (mn : Meaning) (s : State) (x : Slot) : Prop extends Issues i s x where
  checks : checkWord (x.tested s i) x.h mn (x.chain s) (x.addr s) = .ok false
  noHazard : s.hazard (x.begun s i) x.h mn = none
  sound : ∀ q ∈ x.h.pieces, (x.begun s i).W.readsBad (mn.readMask (x.begun s i)) (q.reads ++ mn.dynReads (x.begun s i)) = false

/-! ## What a word leaves -/

/-- The word's own warp at the end, its effect having left it as V: an iteration of REP counts down (R84). -/
def Slot.after (x : Slot) (s : State) (V : Warp) : Warp := V.afterIteration (x.site s).1.iter

/-- The state at the end, the word's effect having left it as t: an iteration of REP counts down (R84). -/
def Slot.closed (x : Slot) (s t : State) : State := t.close x.B.uid x.W.idx (x.site s).1.iter

/-- From s to t nothing changes but the word's own warp, which ends as V: no other warp, no other field of a block, no
byte of memory, nothing else of the machine. -/
structure Slot.Only (x : Slot) (s t : State) (V : Warp) : Prop where
  own : t.warp? x.B.uid x.W.idx = some V
  others : ∀ b w, ¬(b = x.B.uid ∧ w = x.W.idx) → t.warp? b w = s.warp? b w
  blocks : ∀ b, (t.block? b).map (fun B => { B with warps := [] }) = (s.block? b).map (fun B => { B with warps := [] })
  bytes : ∀ a, t.mem.byte a = s.mem.byte a
  rest : t = { s with blocks := t.blocks }

/-- An operation that is not complete writes a location (R63). -/
def Warp.flagged (W : Warp) (loc : Loc) : Bool := W.early.any (fun e => e.loc == loc && e.op.isSome)

/-- From W to V each 32-bit lane register n of lane l takes the value `val n l`, if there is one, and keeps what it held
otherwise. Where a flagged operation that is not complete has written it, either value may be left (R63). -/
def Warp.LanesTake (W V : Warp) (val : Nat → Nat → Option Word) : Prop :=
  ∀ n l, l < 32 → match val n l with
    | none => V.vRaw n l = W.vRaw n l
    | some y => V.vRaw n l = y ∨ (W.contested none (.lane n) l = true ∧ V.vRaw n l = W.vRaw n l)

/-- The same of uniform registers. -/
def Warp.UniTakes (W V : Warp) (val : Nat → Option Word) : Prop :=
  ∀ n, match val n with
    | none => V.wRaw n = W.wRaw n
    | some y => V.wRaw n = y ∨ (W.contested none (.uni n) 0 = true ∧ V.wRaw n = W.wRaw n)

/-- A 32-bit result to a destination code in the lanes of a mask; the code 0xFC discards it (Table 3.8). -/
def to32 (dst : BitVec 8) (m : Mask) (f : Nat → Word) (n l : Nat) : Option Word :=
  if dst.toNat < 0xF8 ∧ n = dst.toNat ∧ m.getLsbD l = true then some (f l) else none

/-- A 64-bit result to the pair of a destination code, the low half in the lower register (R5, R13). -/
def to64 (dst : BitVec 8) (m : Mask) (f : Nat → Dword) (n l : Nat) : Option Word :=
  if dst.toNat < 0xF8 ∧ m.getLsbD l = true then
    (if n = dst.toNat then some (lo32 (f l)) else if n = dst.toNat + 1 then some (hi32 (f l)) else none)
  else none

/-- A uniform result to a destination code; 0xFC discards it (R70). -/
def toUni (dst : BitVec 8) (y : Word) (n : Nat) : Option Word :=
  if dst.toNat < 64 ∧ n = dst.toNat then some y else none

/-- The latches after a push of f by the lanes of a mask: b0 takes it, 0 in the other lanes; b0 to b1, b1 to b2, b2 to b3
(R77). -/
def pushed (m : Mask) (f : Nat → Word) (old : List (List Word)) : List (List Word) :=
  (((List.range 32).map (fun l => if m.getLsbD l then f l else 0)) :: old).take 4

/-- Predicate n of a thread. -/
def Thread.pred (t : Thread) (n : Nat) : Bool := t.preds.getLsbD n

/-- The threads of V are those of W but for their predicates and their flags %fx. -/
def Warp.ThreadsKeep (W V : Warp) : Prop :=
  ∀ l, V.thread l = { W.thread l with preds := (V.thread l).preds, fx := (V.thread l).fx }

/-- Predicate n of thread l takes `val n l`, if there is one, and keeps what it held otherwise. -/
def Warp.PredsTake (W V : Warp) (val : Nat → Nat → Option Bool) : Prop :=
  ∀ n l, n < 7 → (V.thread l).preds.getLsbD n = (val n l).getD ((W.thread l).preds.getLsbD n)

/-- Flags f l are ORed into %fx of thread l (R15). -/
def Warp.FxTakes (W V : Warp) (f : Nat → BitVec 5) : Prop := ∀ l, (V.thread l).fx = (W.thread l).fx ||| f l

/-- A predicate result to predicate d in the lanes of a mask; p7 discards it (R14). -/
def toPred (d : Nat) (m : Mask) (f : Nat → Bool) (n l : Nat) : Option Bool :=
  if n = d ∧ m.getLsbD l = true then some (f l) else none

/-- The state after the word traps with none of its effect but that the marks of its run's selection are cleared (R20, R25): %trappc its address, %traphalf `half`, its threads resume
at the word, or the head of its chain, or the LIT before it. -/
def Slot.trapped (x : Slot) (s : State) (cause : Nat) (half : BitVec 3) (addr : Nat) (aux : Mask) : State :=
  (s.modWarp x.B.uid x.W.idx (Warp.chosen (x.addr s))).takeTrap x.B.uid x.W.idx ⟨cause, x.addr s, half, addr, aux, x.run, x.resume s, x.resume s⟩

/-- How many cycles of declared distance a result written to a location still wants (R57, R59); none where it is in place. -/
def Warp.due (W : Warp) (loc : Loc) : Option Nat :=
  (W.early.find? (fun e => e.loc == loc && e.op.isNone)).map (·.left)

/-- What a word does to the registers of its warp: the values lane registers, uniform registers and predicates take (none:
kept), the flags it raises in each thread's %fx, its pushes in order (lanes and values), and the locations it writes with
the latency of each. -/
structure Effect where
  lanes : Nat → Nat → Option Word := fun _ _ => none
  unis : Nat → Option Word := fun _ => none
  preds : Nat → Nat → Option Bool := fun _ _ => none
  fx : Nat → BitVec 5 := fun _ => 0
  push : List (Mask × (Nat → Word)) := []
  due : List (Loc × Nat) := []

/-- A 32-bit lane result that is not pushed. -/
def Effect.lane (lat : Nat) (dst : BitVec 8) (m : Mask) (y : Nat → Word) : Effect :=
  { lanes := to32 dst m y, due := if dst.toNat < 0xF8 then [(.lane dst.toNat, lat)] else [] }

/-- A 32-bit lane result that is pushed as well (R77). -/
def Effect.alu (lat : Nat) (dst : BitVec 8) (m : Mask) (y : Nat → Word) : Effect :=
  { Effect.lane lat dst m y with push := [(m, y)] }

/-- A 64-bit lane result that is not pushed. -/
def Effect.pair (lat : Nat) (dst : BitVec 8) (m : Mask) (y : Nat → Dword) : Effect :=
  { lanes := to64 dst m y
    due := if dst.toNat < 0xF8 then [(.lane dst.toNat, lat), (.lane (dst.toNat + 1), lat)] else [] }

/-- A 64-bit lane result whose low half is pushed (R77). -/
def Effect.alu64 (lat : Nat) (dst : BitVec 8) (m : Mask) (y : Nat → Dword) : Effect :=
  { Effect.pair lat dst m y with push := [(m, fun l => lo32 (y l))] }

/-- A predicate result (R14: p7 discards it). -/
def Effect.pred (lat d : Nat) (m : Mask) (y : Nat → Bool) : Effect :=
  { preds := toPred d m y, due := if d = 7 then [] else [(.pred d, lat)] }

/-- A uniform result (R70). -/
def Effect.uni (lat : Nat) (dst : BitVec 8) (y : Word) : Effect :=
  { unis := toUni dst y, due := if dst.toNat < 64 then [(.uni dst.toNat, lat)] else [] }

/-- Flags raised in the lanes of a mask, unless NF = 1 (R15). -/
def raised (m : Mask) (nf : Bool) (f : Nat → BitVec 5) (l : Nat) : BitVec 5 :=
  if nf = false ∧ m.getLsbD l = true then f l else 0

/-- V is W after an effect on its registers: nothing else of the warp differs but what it notes of values on their way. -/
structure Warp.Shows (W V : Warp) (e : Effect) : Prop where
  frame : V = { W with v := V.v, w := V.w, threads := V.threads, latches := V.latches, early := V.early }
  lanes : W.LanesTake V e.lanes
  unis : W.UniTakes V e.unis
  threads : W.ThreadsKeep V
  preds : W.PredsTake V e.preds
  fx : W.FxTakes V e.fx
  latches : V.latches = e.push.foldl (fun old p => pushed p.1 p.2 old) W.latches
  due : ∀ d ∈ e.due, V.due d.1 = some d.2

/-- The word `i` completes with the effect `e` of its context: the next state differs from s by the word's own warp alone,
and that warp from the one its issue left by the effect alone. -/
def Slot.Ends (x : Slot) (s : State) (i : Instr) (mn : Meaning) (e : Iss → Effect) : Prop :=
  ∃ t V, exec i s = .next t ∧ x.Only s t (x.after s V) ∧
    (x.ctx s i mn none).W.Shows V (e (x.ctx s i mn none))

/-! ## Words that enter an operation -/

/-- From s to t the word entered one operation of its warp, W being the warp without it: the operation stands last among
the warp's, the registers it will write are marked as on their way, and, beside what u says, nothing else of the machine
changes but the translations a TLB keeps: no other warp, no other field of a block, no byte of memory. -/
structure Slot.Enters (x : Slot) (s t : State) (W : Warp) (op : Op) (locs : List Loc) (u : State) : Prop where
  own : ∃ V, t.warp? x.B.uid x.W.idx = some (x.after s V) ∧ V = { W with ops := W.ops ++ [op], early := V.early, unwaited := V.unwaited } ∧
    ∀ loc ∈ locs, V.flagged loc = true ∧ (op.setf.getD 12, loc) ∈ V.unwaited
  others : ∀ b w, ¬(b = x.B.uid ∧ w = x.W.idx) → t.warp? b w = s.warp? b w
  blocks : ∀ b, (t.block? b).map (fun B => { B with warps := [] }) = (s.block? b).map (fun B => { B with warps := [] })
  bytes : ∀ a, t.mem.byte a = s.mem.byte a
  rest : t = { u with blocks := t.blocks, nextUid := s.nextUid + 1, mem := { s.mem with tlb := t.mem.tlb } }

/-- The operation a word enters. -/
def Slot.op (s : State) (c : Iss) (kind : OpKind) (setf : BitVec 4) (parts : List Part) (reqs : List AtomReq) : Op :=
  ⟨s.nextUid, kind, setfOf setf, c.pc, parts, reqs, false⟩

/-- The word `i` enters an operation with no parts and changes nothing else. -/
def Slot.Starts (x : Slot) (s : State) (i : Instr) (c : Iss) (kind : OpKind) (setf : BitVec 4) (locs : List Loc) : Prop :=
  ∃ t, exec i s = .next t ∧ x.Enters s t c.W (Slot.op s c kind setf [] []) locs s

/-- The operation's owner: the block and the warp that hold it. -/
structure Owns (s : State) (id : Nat) (B : Block) (W : Warp) (o : Op) : Prop where
  owner : s.opOwner id = some (B, W, o)
  block : s.block? B.uid = some B
  warp : s.warp? B.uid W.idx = some W

end Machine
end Sys2Proof
end

