-- ==== Sys2Proof/Certificates/Slice0/Obligations.lean ====
section
/-!
DEFINITION. The statements for the provers: what the words and the other steps of the machine do, from the numbered rules
of the spec.
-/
open Sys2Proof Sys2Proof.Machine

namespace Sys2Proof.Machine

/-! ## Group 0: integer and logic (Table 4.1) -/

/-- Table 4.1, R100 to R104 and R122 on exact integers and on bits: destination and result, per lane, of the words with a 32-bit
result. -/
def integerValue : Instr → Option (BitVec 8 × (Iss → Nat → Word))
  | .iadd f =>
    if f.sc = 0 then some (f.dst, fun c l => BitVec.ofNat 32 ((c.src f.sa l).toNat + (c.srcB f l).toNat))
    else if f.sc = 2 then some (f.dst, fun c l =>
      BitVec.ofInt 32 (max (-2147483648) (min 2147483647 ((c.src f.sa l).toInt + (c.srcB f l).toInt))))
    else none
  | .isub f =>
    if f.sc = 0 then some (f.dst, fun c l => BitVec.ofInt 32 ((c.src f.sa l).toNat - (c.srcB f l).toNat))
    else if f.sc = 2 then some (f.dst, fun c l =>
      BitVec.ofInt 32 (max (-2147483648) (min 2147483647 ((c.src f.sa l).toInt - (c.srcB f l).toInt))))
    else none
  | .iadd3 f => some (f.dst, fun c l =>
      BitVec.ofNat 32 ((c.src f.sa l).toNat + (c.srcB f l).toNat + (c.src f.sc l).toNat))
  | .imul f => some (f.dst, fun c l => BitVec.ofNat 32 ((c.src f.sa l).toNat * (c.srcB f l).toNat))
  | .imulhS32 f => some (f.dst, fun c l => BitVec.ofInt 32 ((c.src f.sa l).toInt * (c.srcB f l).toInt / 2 ^ 32))
  | .imulhN32 f => some (f.dst, fun c l => BitVec.ofNat 32 ((c.src f.sa l).toNat * (c.srcB f l).toNat / 2 ^ 32))
  | .imad f => some (f.dst, fun c l =>
      BitVec.ofNat 32 ((c.src f.sa l).toNat * (c.srcB f l).toNat + (c.src f.sc l).toNat))
  | .iminS32 f => some (f.dst, fun c l => BitVec.ofInt 32 (min (c.src f.sa l).toInt (c.srcB f l).toInt))
  | .iminN32 f => some (f.dst, fun c l => BitVec.ofNat 32 (min (c.src f.sa l).toNat (c.srcB f l).toNat))
  | .imaxS32 f => some (f.dst, fun c l => BitVec.ofInt 32 (max (c.src f.sa l).toInt (c.srcB f l).toInt))
  | .imaxN32 f => some (f.dst, fun c l => BitVec.ofNat 32 (max (c.src f.sa l).toNat (c.srcB f l).toNat))
  | .iabs f => some (f.dst, fun c l => BitVec.ofNat 32 (c.src f.sa l).toInt.natAbs)
  | .shl f => some (f.dst, fun c l => BitVec.ofNat 32 ((c.src f.sa l).toNat * 2 ^ (c.srcB f l).toNat))
  | .shr f => some (f.dst, fun c l => BitVec.ofNat 32 ((c.src f.sa l).toNat / 2 ^ (c.srcB f l).toNat))
  | .sar f => some (f.dst, fun c l => BitVec.ofInt 32 ((c.src f.sa l).toInt / 2 ^ (min (c.srcB f l).toNat 31)))
  | .rot f => some (f.dst, fun c l =>
      maskOf (fun i => (c.src f.sa l).getLsbD ((i + 32 - (c.srcB f l).toNat % 32) % 32)))
  | .andR f => some (f.dst, fun c l => maskOf (fun i => (c.src f.sa l).getLsbD i && (c.srcB f l).getLsbD i))
  | .orR f => some (f.dst, fun c l => maskOf (fun i => (c.src f.sa l).getLsbD i || (c.srcB f l).getLsbD i))
  | .xorR f => some (f.dst, fun c l => maskOf (fun i => (c.src f.sa l).getLsbD i != (c.srcB f l).getLsbD i))
  | .notR f => some (f.dst, fun c l => maskOf (fun i => !(c.src f.sa l).getLsbD i))
  | .blut f => some (f.dst, fun c l => maskOf (fun i => f.sc.getLsbD
      (b2n ((c.src f.sa l).getLsbD i) + 2 * b2n ((c.srcB f l).getLsbD i) + 4 * b2n ((c.src f.dst l).getLsbD i))))
  | .popc f => some (f.dst, fun c l =>
      BitVec.ofNat 32 ((List.range 32).countP (fun i => (c.src f.sa l).getLsbD i)))
  | .clz f => some (f.dst, fun c l =>
      if c.src f.sa l = 0 then 32 else BitVec.ofNat 32 (31 - (c.src f.sa l).toNat.log2))
  | .brev f => some (f.dst, fun c l => maskOf (fun i => (c.src f.sa l).getLsbD (31 - i)))
  | .bfeN32 f => some (f.dst, fun c l =>
      let pos := (c.srcB f l).toNat % 256
      let len := min ((c.srcB f l).toNat / 256 % 256) 32
      maskOf (fun i => decide (i < len) && decide (pos + i < 32) && (c.src f.sa l).getLsbD (pos + i)))
  | .bfeS32 f => some (f.dst, fun c l =>
      let pos := (c.srcB f l).toNat % 256
      let len := min ((c.srcB f l).toNat / 256 % 256) 32
      if len = 0 then 0 else maskOf (fun i => (c.src f.sa l).getLsbD (min (pos + min i (len - 1)) 31)))
  | .bfi f => some (f.dst, fun c l =>
      let pos := (c.src f.sc l).toNat % 256
      let len := min ((c.src f.sc l).toNat / 256 % 256) 32
      maskOf (fun k =>
        if pos ≤ k ∧ k < pos + len then (c.srcB f l).getLsbD (k - pos) else (c.src f.sa l).getLsbD k))
  | .sel f => some (f.dst, fun c l =>
      if c.pred (f.sc.toNat % 8) l = f.sc.getLsbD 3 then c.srcB f l else c.src f.sa l)
  | .iaddImm f => some (f.dst, fun c l => BitVec.ofInt 32 ((c.src f.sa l).toInt + f.imm.toInt))
  | .imulImm f => some (f.dst, fun c l => BitVec.ofInt 32 ((c.src f.sa l).toInt * f.imm.toInt))
  | .andImm f => some (f.dst, fun c l => maskOf (fun i => (c.src f.sa l).getLsbD i && f.imm.getLsbD i))
  | .orImm f => some (f.dst, fun c l => maskOf (fun i => (c.src f.sa l).getLsbD i || f.imm.getLsbD i))
  | .xorImm f => some (f.dst, fun c l => maskOf (fun i => (c.src f.sa l).getLsbD i != f.imm.getLsbD i))
  | .mov f => if f.sc = 0 then some (f.dst, fun c l => c.src f.sa l) else none
  | .movi f => some (f.dst, fun _ _ => BitVec.ofInt 32 f.imm.toInt)
  | .shlImm f => some (f.dst, fun c l => BitVec.ofNat 32 ((c.src f.sa l).toNat * 2 ^ f.imm.toNat))
  | .shrImm f => some (f.dst, fun c l => BitVec.ofNat 32 ((c.src f.sa l).toNat / 2 ^ f.imm.toNat))
  | .sarImm f => some (f.dst, fun c l => BitVec.ofInt 32 ((c.src f.sa l).toInt / 2 ^ (min f.imm.toNat 31)))
  | _ => none

/-- The words of groups 0 and 3 with a 64-bit result (R98, R99, R103, R122): destination and result on exact integers. -/
def pairValue : Instr → Option (BitVec 8 × (Iss → Nat → Dword))
  | .iadd f =>
    if f.sc = 1 then some (f.dst, fun c l => BitVec.ofNat 64 ((c.src64 f.sa l).toNat + (c.srcB64 f l).toNat)) else none
  | .isub f =>
    if f.sc = 1 then some (f.dst, fun c l => BitVec.ofInt 64 ((c.src64 f.sa l).toNat - (c.srcB64 f l).toNat)) else none
  | .imadwS32 f => some (f.dst, fun c l =>
      BitVec.ofInt 64 ((c.src f.sa l).toInt * (c.srcB f l).toInt + (c.src64 f.sc l).toInt))
  | .imadwN32 f => some (f.dst, fun c l =>
      BitVec.ofNat 64 ((c.src f.sa l).toNat * (c.srcB f l).toNat + (c.src64 f.sc l).toNat))
  | .lea f => some (f.dst, fun c l => BitVec.ofInt 64 ((c.src64 f.sa l).toInt +
      (if f.sc.getLsbD 4 then (c.srcB f l).toInt else (c.srcB f l).toNat) * 2 ^ (f.sc.toNat % 16)))
  | .mov f => if f.sc = 1 then some (f.dst, fun c l => c.src64 f.sa l) else none
  | _ => none

/-- The relations of Table 4.5 on exact integers: eq, ne, lt, le, gt, ge (6 and 7 are ILLEGAL, so no clear word has them). -/
def relates (rel : Nat) (a b : Int) : Bool :=
  (rel == 0 && a == b) || (rel == 1 && a != b) || (rel == 2 && decide (a < b)) || (rel == 3 && decide (a ≤ b)) ||
    (rel == 4 && decide (b < a)) || (decide (5 ≤ rel) && decide (b ≤ a))

/-- The test of an integer compare (R105, R107): DST[6] asks for signed numbers, DST[5:3] is the relation, DST[2:0] the
predicate. -/
def compareTest : Instr → Option (BitVec 8 × (Iss → Nat → Bool))
  | .icmp f => some (f.dst, fun c l =>
      if f.dst.getLsbD 7 then
        (if f.dst.getLsbD 6 then relates (f.dst.toNat / 8 % 8) (c.src64 f.sa l).toInt (c.srcB64 f l).toInt
         else relates (f.dst.toNat / 8 % 8) (c.src64 f.sa l).toNat (c.srcB64 f l).toNat)
      else if f.dst.getLsbD 6 then relates (f.dst.toNat / 8 % 8) (c.src f.sa l).toInt (c.srcB f l).toInt
      else relates (f.dst.toNat / 8 % 8) (c.src f.sa l).toNat (c.srcB f l).toNat)
  | .icmpImm f => some (f.dst, fun c l =>
      if f.dst.getLsbD 6 then relates (f.dst.toNat / 8 % 8) (c.src f.sa l).toInt f.imm.toInt
      else relates (f.dst.toNat / 8 % 8) (c.src f.sa l).toNat (f.imm.signExtend 32).toNat)
  | _ => none

/-! ## Uniform words (Table 4.6) -/

/-- R106, R108: destination and result, and the lane the word reads, of the words with a uniform result. -/
def uniformValue : Instr → Option (BitVec 8 × (Iss → Word) × Option (Iss → Nat))
  | .wadd f => some (f.dst, fun c => BitVec.ofNat 32 ((c.usrc f.sa).toNat + (c.usrc f.sb).toNat), none)
  | .wsub f => some (f.dst, fun c => BitVec.ofInt 32 ((c.usrc f.sa).toNat - (c.usrc f.sb).toNat), none)
  | .wmul f => some (f.dst, fun c => BitVec.ofNat 32 ((c.usrc f.sa).toNat * (c.usrc f.sb).toNat), none)
  | .wand f => some (f.dst, fun c => maskOf (fun i => (c.usrc f.sa).getLsbD i && (c.usrc f.sb).getLsbD i), none)
  | .wor f => some (f.dst, fun c => maskOf (fun i => (c.usrc f.sa).getLsbD i || (c.usrc f.sb).getLsbD i), none)
  | .wxor f => some (f.dst, fun c => maskOf (fun i => (c.usrc f.sa).getLsbD i != (c.usrc f.sb).getLsbD i), none)
  | .wshl f => some (f.dst, fun c => BitVec.ofNat 32 ((c.usrc f.sa).toNat * 2 ^ (c.usrc f.sb).toNat), none)
  | .wshr f => some (f.dst, fun c => BitVec.ofNat 32 ((c.usrc f.sa).toNat / 2 ^ (c.usrc f.sb).toNat), none)
  | .wmov f => some (f.dst, fun c => c.usrc f.sa, none)
  | .waddImm f => some (f.dst, fun c => BitVec.ofInt 32 ((c.usrc f.sa).toInt + f.imm.toInt), none)
  | .wmovImm f => some (f.dst, fun _ => BitVec.ofInt 32 f.imm.toInt, none)
  | .movwLane f => some (f.a, fun c => c.src f.b f.c.toNat, some (fun _ => f.c.toNat))
  | .movwFirst f => some (f.a, fun c => c.src f.b ((lowestLane c.run).getD 0), some (fun c => (lowestLane c.run).getD 0))
  | _ => none

/-- The meaning whose checks a word has that reads one lane's register, or none beyond the executing lanes. -/
def readsOne : Option (Iss → Nat) → Meaning
  | none => plainCheck
  | some k => readsLanes (fun c => BitVec.ofNat 32 (2 ^ k c))

/-! ## Predicates, moves, special registers -/

/-- R107, R120, R121: the mask written and the value each predicate takes. -/
def predicateValue : Instr → Option ((Iss → Mask) × (Nat → Bool) × (Iss → Nat → Nat → Bool))
  | .pset f => some (fun c => c.exec, fun n => n == f.dst.toNat, fun c _ l => c.src f.sa l != 0)
  | .psetAll f => some (fun c => c.exec, fun _ => true, fun c n l => (c.src f.sa l).getLsbD n)
  | .plop f => some (fun c => c.exec, fun n => n == f.dst.toNat, fun c _ l =>
      let a := c.pred (f.sa.toNat % 8) l != f.sa.getLsbD 3
      let b := c.pred (f.sb.toNat % 8) l != f.sb.getLsbD 3
      if f.sc = 0 then a && b else if f.sc = 1 then a || b else a != b)
  | .wcmp f => some (fun c => c.run, fun n => n == f.dst.toNat % 8, fun c _ _ =>
      if f.dst.getLsbD 6 then relates (f.dst.toNat / 8 % 8) (c.usrc f.sa).toInt (c.usrc f.sb).toInt
      else relates (f.dst.toNat / 8 % 8) (c.usrc f.sa).toNat (c.usrc f.sb).toNat)
  | _ => none

/-! ## Floating point and conversions (Tables 4.7 to 4.12) -/

/-- FADD and FMUL apply Table 4.8 to their operands: SC[2], SC[3] take the absolute value of a, b; SC[0], SC[1] then invert
the sign. -/
def modified (abs neg : Bool) (x : Word) : Nat :=
  let y : Word := if abs then x &&& 0x7FFFFFFF else x
  (if neg then y ^^^ 0x80000000 else y).toNat

def fpTwo (f : FmtA) (g : Nat → Nat → Coded) (c : Iss) (l : Nat) : Coded :=
  g (modified (f.sc.getLsbD 2) (f.sc.getLsbD 0) (c.src f.sa l)) (modified (f.sc.getLsbD 3) (f.sc.getLsbD 1) (c.srcB f l))

def fpThree (f : FmtA) (g : Nat → Nat → Nat → Coded) (c : Iss) (l : Nat) : Coded :=
  g (c.src f.sa l).toNat (c.srcB f l).toNat (c.src f.sc l).toNat

/-- Two packed 16-bit results with the flags of both (R112): element 0 in bits 15:0, element 1 in bits 31:16. -/
def inHalves (lo hi : Coded) : Coded := (lo.1 % 2 ^ 16 + 2 ^ 16 * (hi.1 % 2 ^ 16), lo.2 ||| hi.2)

def packedTwo (g : Nat → Nat → Coded) (a b : Word) : Coded :=
  inHalves (g (a.toNat % 2 ^ 16) (b.toNat % 2 ^ 16)) (g (a.toNat / 2 ^ 16) (b.toNat / 2 ^ 16))

def packedThree (g : Nat → Nat → Nat → Coded) (a b c : Word) : Coded :=
  inHalves (g (a.toNat % 2 ^ 16) (b.toNat % 2 ^ 16) (c.toNat % 2 ^ 16))
    (g (a.toNat / 2 ^ 16) (b.toNat / 2 ^ 16) (c.toNat / 2 ^ 16))

/-- The element of CVT's source that SEL names, or the pair for a 64-bit type (R114, R115). -/
def cvtSource (f : FmtA) (c : Iss) (l : Nat) : Nat :=
  let w := typeWidth (f.sc.toNat % 32)
  if w = 64 then (c.src64 f.sa l).toNat else (c.src f.sa l).toNat / 2 ^ (f.sc.toNat / 32 % 4 * w) % 2 ^ w

def cvtResult (mode : RMode) (f : FmtA) (c : Iss) (l : Nat) : Coded :=
  cvt (f.sc.toNat % 32) (f.sb.toNat % 32) mode (f.sb.getLsbD 5) (f.sb.getLsbD 6) (cvtSource f c l)

/-- Words of groups 1 and 2 with a 32-bit result: latency, destination, NF, and code with flags per lane. -/
def floatValue : Instr → Option (Nat × FmtA × (Iss → Nat → Coded))
  | .fadd f => some (6, f, fpTwo f (fAdd fp32 .rne))
  | .faddRz f => some (6, f, fpTwo f (fAdd fp32 .rz))
  | .faddRu f => some (6, f, fpTwo f (fAdd fp32 .ru))
  | .faddRd f => some (6, f, fpTwo f (fAdd fp32 .rd))
  | .fmul f => some (6, f, fpTwo f (fMul fp32 .rne))
  | .fmulRz f => some (6, f, fpTwo f (fMul fp32 .rz))
  | .fmulRu f => some (6, f, fpTwo f (fMul fp32 .ru))
  | .fmulRd f => some (6, f, fpTwo f (fMul fp32 .rd))
  | .ffma f => some (6, f, fpThree f (fFma fp32 .rne))
  | .ffmaRz f => some (6, f, fpThree f (fFma fp32 .rz))
  | .ffmaRu f => some (6, f, fpThree f (fFma fp32 .ru))
  | .ffmaRd f => some (6, f, fpThree f (fFma fp32 .rd))
  | .fmin f => some (6, f, fun c l => fMin fp32 (c.src f.sa l).toNat (c.srcB f l).toNat)
  | .fmax f => some (6, f, fun c l => fMax fp32 (c.src f.sa l).toNat (c.srcB f l).toNat)
  | .fclass f => some (6, f, fun c l => fClass (c.src f.sa l).toNat)
  | .frcp f => some (12, f, fun c l => fRcp (c.src f.sa l).toNat)
  | .frsq f => some (12, f, fun c l => fRsq (c.src f.sa l).toNat)
  | .fsqrt f => some (12, f, fun c l => fSqrt (c.src f.sa l).toNat)
  | .fdiv f => some (12, f, fun c l => fDiv (c.src f.sa l).toNat (c.srcB f l).toNat)
  | .fex2 f => some (12, f, fun c l => fEx2 (c.src f.sa l).toNat)
  | .flg2 f => some (12, f, fun c l => fLg2 (c.src f.sa l).toNat)
  | .fsinpi f => some (12, f, fun c l => fSinpi (c.src f.sa l).toNat)
  | .fcospi f => some (12, f, fun c l => fCospi (c.src f.sa l).toNat)
  | .hadd2F16 f => some (6, f, fun c l => packedTwo (fAdd fp16 .rne) (c.src f.sa l) (c.srcB f l))
  | .hmul2F16 f => some (6, f, fun c l => packedTwo (fMul fp16 .rne) (c.src f.sa l) (c.srcB f l))
  | .hfma2F16 f => some (6, f, fun c l => packedThree (fFma fp16 .rne) (c.src f.sa l) (c.srcB f l) (c.src f.sc l))
  | .hadd2Bf16 f => some (6, f, fun c l => packedTwo (fAdd bf16 .rne) (c.src f.sa l) (c.srcB f l))
  | .hmul2Bf16 f => some (6, f, fun c l => packedTwo (fMul bf16 .rne) (c.src f.sa l) (c.srcB f l))
  | .hfma2Bf16 f => some (6, f, fun c l => packedThree (fFma bf16 .rne) (c.src f.sa l) (c.srcB f l) (c.src f.sc l))
  | _ => none

/-- The conversions to one 32-bit register (R115 to R119): as above; QBLK and DQBLK raise nothing. -/
def convertValue : Instr → Option (Nat × FmtA × (Iss → Nat → Coded))
  | .cvt f => if typeWidth (f.sb.toNat % 32) = 64 then none else some (6, f, cvtResult .rne f)
  | .cvtRz f => if typeWidth (f.sb.toNat % 32) = 64 then none else some (6, f, cvtResult .rz f)
  | .cvtRu f => if typeWidth (f.sb.toNat % 32) = 64 then none else some (6, f, cvtResult .ru f)
  | .cvtRd f => if typeWidth (f.sb.toNat % 32) = 64 then none else some (6, f, cvtResult .rd f)
  | .pack f => some (6, f, fun c l =>
      let t := f.sc.toNat % 8
      let w := typeWidth t
      let a := cvt 0x10 t .rne (f.sc.getLsbD 6) false (c.src f.sa l).toNat
      let b := cvt 0x10 t .rne (f.sc.getLsbD 6) false (c.src f.sb l).toNat
      let slot (i v x : Nat) : Nat := (List.range 32).foldl (fun y k =>
        if (if i * w ≤ k ∧ k < i * w + w then v.testBit (k - i * w) else x.testBit k) then y + 2 ^ k else y) 0
      let pos := f.sc.toNat / 8 % 8
      (slot (2 * pos + 1) b.1 (slot (2 * pos) a.1 (c.src f.dst l).toNat), a.2 ||| b.2))
  | .unpack f => some (6, f, fun c l =>
      let t := f.sc.toNat % 8
      let w := typeWidth t
      let code := (c.src f.sa l).toNat / 2 ^ (f.sc.toNat / 8 % 8 * w) % 2 ^ w
      let r := elemTo32 t code (if f.sc.getLsbD 6 then some ((c.src f.sb l).toNat % 256) else none)
      (r.1, r.2 ||| (if t ≠ 7 ∧ (fmtOf t).isSnan code = true then fxNV else 0)))
  | .qblk f => some (12, f, fun c l =>
      let r := qblock (f.sc.toNat % 8) (f.sc.getLsbD 3) ((List.range 32).map (fun k =>
        if c.exec.getLsbD k then fp32.value (c.src f.sa k).toNat else .fin false 0 0))
      (nth 0 r.2 l + 256 * r.1, 0))
  | .dqblk f => some (12, f, fun c l =>
      ((elemTo32 (f.sc.toNat % 8) ((c.src f.sa l).toNat % 256) (some ((c.src f.sa l).toNat / 256 % 256))).1, 0))
  | _ => none

/-- The conversions to a pair (R113). -/
def convertPair : Instr → Option (FmtA × (Iss → Nat → Coded))
  | .cvt f => if typeWidth (f.sb.toNat % 32) = 64 then some (f, cvtResult .rne f) else none
  | .cvtRz f => if typeWidth (f.sb.toNat % 32) = 64 then some (f, cvtResult .rz f) else none
  | .cvtRu f => if typeWidth (f.sb.toNat % 32) = 64 then some (f, cvtResult .ru f) else none
  | .cvtRd f => if typeWidth (f.sb.toNat % 32) = 64 then some (f, cvtResult .rd f) else none
  | _ => none

/-- Table 4.14: the value of special register n in lane l, as a 64-bit number. -/
def specialRegister (s : State) (c : Iss) (n l : Nat) : Dword :=
  let nat (x : Nat) : Dword := BitVec.ofNat 64 x
  let t := c.W.thread l
  if n = 0x00 then nat l
  else if n = 0x01 then nat c.w
  else if n = 0x02 then nat c.B.logid
  else if n = 0x03 then nat c.W.core
  else if n = 0x04 then nat (c.W.core / 64 * 16 + c.W.core % 64 / 4)
  else if n = 0x05 then nat (c.W.core / 64)
  else if n = 0x06 then nat (if c.W.core / 64 < 2 then 0 else 1)
  else if n = 0x07 then nat (s.clockOf c.W.core)
  else if n = 0x08 then nat c.B.ctx
  else if n = 0x09 then nat c.B.migcount
  else if n = 0x0A then nat (s.logId c.B c.w l)
  else if n = 0x0B then nat (c.W.slot % 4)
  else if n = 0x10 then nat t.fx.toNat
  else if n = 0x11 then nat ((List.range 8).map (fun k => if c.pred k l then 2 ^ k else 0)).sum
  else if n = 0x12 then nat (t.ix0.toNat + 256 * t.ix1.toNat)
  else if n = 0x13 then nat c.W.repc.toNat
  else if n = 0x18 then nat c.W.trap.cause.toNat
  else if n = 0x19 then nat c.W.trap.pc.toNat
  else if n = 0x1A then nat c.W.trap.half.toNat
  else if n = 0x1B then c.W.trap.addr
  else if n = 0x1C then nat c.W.trap.aux.toNat
  else nat c.W.trap.ret.toNat

/-- The register number an indexed word reaches in lane l: the base plus ix0, or ix1 where SUB is not 0 (R123). -/
def indexedRegister (base : BitVec 8) (sub : BitVec 7) (c : Iss) (l : Nat) : Nat :=
  base.toNat + (if sub = 0 then (c.W.thread l).ix0 else (c.W.thread l).ix1).toNat

/-- The checks of LDIX and of STIX: the bounds by value, and the registers reached (R64, R123). -/
def ldixCheck (f : FmtS) : Meaning :=
  { body := fun _ s => .ok s
    bounds := ixBounds f.b f.sub
    dynReads := fun c => (lanesOf c.exec).map (fun l => .lane (ixReg f.b f.sub c l)) }

def stixCheck (f : FmtS) : Meaning :=
  { body := fun _ s => .ok s
    bounds := ixBounds f.b f.sub
    dynWrites := fun c => (lanesOf c.exec).map (fun l => .lane (ixReg f.b f.sub c l)) }

/-! ## Collectives (R164 to R171) -/

/-- R166: the lane XLANE reads. -/
def xlaneReads (f : FmtA) (c : Iss) (i : Nat) : Nat :=
  let w := 2 ^ (f.sc.toNat / 4 % 8)
  let base := i / w * w
  let b := (c.src f.sb i).toNat
  if f.sc.toNat % 4 = 0 then (if b < w then base + b else i)
  else if f.sc.toNat % 4 = 1 then (if base + b ≤ i then i - b else i)
  else if f.sc.toNat % 4 = 2 then (if i + b < base + w then i + b else i)
  else if b < w then i ^^^ b else i

/-- Table 6.1: the integer reduction of a list of numbers. -/
def reduced (op : Nat) (xs : List Word) : Word :=
  if op = 0 then BitVec.ofNat 32 (xs.map (·.toNat)).sum
  else if op = 1 then BitVec.ofInt 32 ((xs.map (·.toInt)).foldr min 2147483647)
  else if op = 2 then BitVec.ofNat 32 ((xs.map (·.toNat)).foldr min 4294967295)
  else if op = 3 then BitVec.ofInt 32 ((xs.map (·.toInt)).foldr max (-2147483648))
  else if op = 4 then BitVec.ofNat 32 ((xs.map (·.toNat)).foldr max 0)
  else if op = 5 then maskOf (fun i => xs.all (·.getLsbD i))
  else if op = 6 then maskOf (fun i => xs.any (·.getLsbD i))
  else maskOf (fun i => xs.countP (·.getLsbD i) % 2 == 1)

/-- R52: the tree over the lanes from lo up, 2^k of them: a node with one child passes it through; flags gather. -/
def laneTree (op : Nat → Nat → Coded) (x : Nat → Option Nat) : Nat → Nat → Option Coded
  | 0, lo => (x lo).map (fun v => (v, 0))
  | k + 1, lo =>
    match laneTree op x k lo, laneTree op x k (lo + 2 ^ k) with
    | some a, some b => some ((op a.1 b.1).1, a.2 ||| b.2 ||| (op a.1 b.1).2)
    | some a, none => some a
    | none, b => b

/-- R53: the operation of RED.f32. -/
def redOpF32 (op : Nat) : Nat → Nat → Coded :=
  if op = 0 then fAdd fp32 .rne else if op = 1 then fMin fp32 else fMax fp32

/-- R53: the NaN of the lowest lane that holds one, made quiet; else the tree. The flags are the tree's. -/
def reducedF32 (op : Nat) (x : Nat → Option Nat) : Option Coded :=
  (laneTree (redOpF32 op) x 5 0).map (fun r =>
    match (List.range 32).find? (fun l => match x l with
      | some v => fp32.isNan v
      | none => false) with
    | some l => (((x l).getD 0) ||| 2 ^ 22, r.2)
    | none => r)

/-- The value a lane contributes: that of the lanes of a mask alone. -/
def lanesIn (c : Iss) (sa : BitVec 8) (m : Nat → Bool) (l : Nat) : Option Nat :=
  if m l then some (c.src sa l).toNat else none

/-- R54: the lanes that count for lane i of a scan. -/
def scanLanes (c : Iss) (excl : Bool) (i j : Nat) : Bool :=
  c.exec.getLsbD j && (if excl then decide (j < i) else decide (j ≤ i))

/-- What the collective words do: the lanes they read beyond their own, and their effect (R166 to R171). -/
def collectiveEffect : Instr → Option (Meaning × (Iss → Effect))
  | .xlane f => some (readsLanes (fun c => c.exec ||| maskOf (fun j => (lanesOf c.exec).any (fun l => xlaneFrom f c l == j))),
      fun c => Effect.lane 6 f.dst c.exec (fun l => c.src f.sa (xlaneReads f c l)))
  | .pcons f => some (plainCheck, fun c =>
      let pa (l : Nat) : Bool := c.pred (f.sa.toNat % 8) l != f.sa.getLsbD 3
      let all := (List.range 32).all (fun l => !c.exec.getLsbD l || pa l)
      let any := (List.range 32).any (fun l => c.exec.getLsbD l && pa l)
      if f.sc = 0 then Effect.pred 6 f.dst.toNat c.exec (fun _ => all)
      else if f.sc = 1 then Effect.pred 6 f.dst.toNat c.exec (fun _ => any)
      else if f.sc = 2 then Effect.pred 6 f.dst.toNat c.exec (fun _ => all || !any)
      else Effect.lane 6 f.dst c.exec (fun _ => maskOf (fun l => c.exec.getLsbD l && pa l)))
  | .peers f => some (plainCheck, fun c =>
      let same (i l : Nat) : Bool :=
        if f.sc.getLsbD 1 then c.src64 f.sa l == c.src64 f.sa i else c.src f.sa l == c.src f.sa i
      if f.sc.getLsbD 0 then
        let all := (List.range 32).all (fun i => (List.range 32).all (fun l =>
          !(c.exec.getLsbD i && c.exec.getLsbD l) || same i l))
        let p := f.sc.toNat / 4 % 8
        { Effect.lane 12 f.dst c.exec (fun _ => if all then c.exec else 0) with
          preds := toPred p c.exec (fun _ => all)
          due := (if f.dst.toNat < 0xF8 then [(.lane f.dst.toNat, 12)] else []) ++ (if p = 7 then [] else [(.pred p, 12)]) }
      else Effect.lane 12 f.dst c.exec (fun i => maskOf (fun l => c.exec.getLsbD l && same i l)))
  | .red f => some (plainCheck, fun c =>
      Effect.lane 12 f.dst c.exec (fun _ => reduced f.sc.toNat ((lanesOf c.exec).map (c.src f.sa))))
  | .scan f => some (plainCheck, fun c =>
      Effect.lane 12 f.dst c.exec (fun i => reduced (f.sc.toNat % 8)
        (((List.range 32).filter (scanLanes c (f.sc.getLsbD 3) i)).map (c.src f.sa))))
  | .redF32 f => some (plainCheck, fun c =>
      match reducedF32 f.sc.toNat (lanesIn c f.sa c.exec.getLsbD) with
      | none => {}
      | some r => { Effect.lane 12 f.dst c.exec (fun _ => BitVec.ofNat 32 r.1) with
          fx := raised c.exec f.nf (fun _ => r.2) })
  | .scanF32 f => some (plainCheck, fun c =>
      let op := f.sc.toNat % 8
      let id : Nat := if op = 0 then 0 else if op = 1 then 0x7F800000 else 0xFF800000
      let r (i : Nat) : Coded := (reducedF32 op (lanesIn c f.sa (scanLanes c (f.sc.getLsbD 3) i))).getD (id, 0)
      { Effect.lane 12 f.dst c.exec (fun i => BitVec.ofNat 32 (r i).1) with
        fx := raised c.exec f.nf (fun i => (r i).2) })
  | .elect f => some (plainCheck, fun c =>
      match (List.range 32).find? c.exec.getLsbD with
      | none => Effect.uni 6 f.b 0xFFFFFFFF
      | some e => { Effect.uni 6 f.b (BitVec.ofNat 32 e) with
          preds := toPred f.a.toNat c.exec (fun l => l == e)
          due := (if f.b.toNat < 64 then [(.uni f.b.toNat, 6)] else []) ++
            (if f.a.toNat = 7 then [] else [(.pred f.a.toNat, 6)]) })
  | _ => none

/-! ## Dual words (R73 to R75) -/

/-- Table 3.10: result and flags of a half on its two sources, `p0` being the lane's predicate p0. -/
def halfResult (hop : Nat) (p0 : Bool) (a b : Word) : Coded :=
  let int (x : Word) : Coded := (x.toNat, 0)
  if hop = 0x00 ∨ hop = 0x10 then int (BitVec.ofNat 32 (a.toNat + b.toNat))
  else if hop = 0x01 ∨ hop = 0x11 then int (BitVec.ofInt 32 (a.toNat - b.toNat))
  else if hop = 0x02 ∨ hop = 0x12 then int (maskOf (fun i => a.getLsbD i && b.getLsbD i))
  else if hop = 0x03 ∨ hop = 0x13 then int (maskOf (fun i => a.getLsbD i || b.getLsbD i))
  else if hop = 0x04 ∨ hop = 0x14 then int (maskOf (fun i => a.getLsbD i != b.getLsbD i))
  else if hop = 0x05 ∨ hop = 0x15 then int (BitVec.ofNat 32 (a.toNat * 2 ^ b.toNat))
  else if hop = 0x06 ∨ hop = 0x16 then int (BitVec.ofNat 32 (a.toNat / 2 ^ b.toNat))
  else if hop = 0x07 ∨ hop = 0x17 then int (BitVec.ofInt 32 (a.toInt / 2 ^ (min b.toNat 31)))
  else if hop = 0x08 then int a
  else if hop = 0x09 then int (if p0 then a else b)
  else if hop = 0x0A then int (BitVec.ofInt 32 (min a.toInt b.toInt))
  else if hop = 0x0B then int (BitVec.ofInt 32 (max a.toInt b.toInt))
  else if hop = 0x0C then fAdd fp32 .rne a.toNat b.toNat
  else if hop = 0x0D then fMul fp32 .rne a.toNat b.toNat
  else if hop = 0x0E then fMin fp32 a.toNat b.toNat
  else if hop = 0x0F then fMax fp32 a.toNat b.toNat
  else int b

/-- A half in lane l: its sources are v[SA] and v[SB], or v[SA] and the immediate from half-opcode 0x10 on. -/
def halfAt (c : Iss) (h : Half) (l : Nat) : Coded :=
  halfResult h.hop.toNat (c.pred 0 l) (c.W.vAt c.fr h.sa.toNat l)
    (if 0x10 ≤ h.hop.toNat then BitVec.ofNat 32 h.sb.toNat else c.W.vAt c.fr h.sb.toNat l)

def halfLatency (h : Half) : Nat := if 0x0C ≤ h.hop.toNat ∧ h.hop.toNat ≤ 0x0F then 6 else 4

/-- Both halves read before either writes; half 0 is pushed first. -/
def dualEffect (h0 h1 : Half) (c : Iss) : Effect :=
  let r0 (l : Nat) : Word := BitVec.ofNat 32 (halfAt c h0 l).1
  let r1 (l : Nat) : Word := BitVec.ofNat 32 (halfAt c h1 l).1
  { lanes := fun n l => if c.run.getLsbD l = true then
      (if n = h1.dst.toNat then some (r1 l) else if n = h0.dst.toNat then some (r0 l) else none) else none
    fx := fun l => if c.run.getLsbD l = true then (halfAt c h0 l).2 ||| (halfAt c h1 l).2 else 0
    push := [(c.run, r0), (c.run, r1)]
    due := [(.lane h0.dst.toNat, halfLatency h0), (.lane h1.dst.toNat, halfLatency h1)] }

/-! ## Control flow (R124 to R127) -/

/-- The targets of the words that branch to an address of each lane (R126): 64-bit numbers. -/
def indirectTarget : Instr → Option (Iss → Nat → Dword)
  | .brx f => some (fun c l => c.src64 f.sa l)
  | .brxRel f => some (fun c l => BitVec.ofInt 64 (c.pc.toNat + 8 + 8 * (c.src f.sa l).toInt))
  | .ret f => some (fun c l => c.src64 f.a l)
  | _ => none

/-- The threads of V are those of W, but those of a mask stand at other addresses. -/
def ThreadsGo (W V : Warp) (m : Mask) (pc : Nat → BitVec 52) : Prop :=
  ∀ l, V.thread l = { W.thread l with pc := if m.getLsbD l = true then pc l else (W.thread l).pc }

end Sys2Proof.Machine

/-- Table 4.1, R98 to R104, R122, R77: the integer and logic words with a 32-bit result, and those with a 64-bit result, which push
the low half. -/
def Obligations.IntegerWords : Prop :=
  (∀ (s : State) (x : Slot) (i : Instr) (dst : BitVec 8) (g : Iss → Nat → Word),
    integerValue i = some (dst, g) → Clear i plainCheck s x →
    x.Ends s i plainCheck (fun c => Effect.alu 4 dst c.exec (g c))) ∧
  (∀ (s : State) (x : Slot) (i : Instr) (dst : BitVec 8) (g : Iss → Nat → Dword),
    pairValue i = some (dst, g) → Clear i plainCheck s x →
    x.Ends s i plainCheck (fun c => Effect.alu64 4 dst c.exec (g c)))

/-- R106, R108: the W-forms, MOVW from a lane and MOVW from the lowest lane of the run. R107, R120, R121: PSET, PSET of all, PLOP
and WCMP. -/
def Obligations.UniformAndPredicateWords : Prop :=
  (∀ (s : State) (x : Slot) (i : Instr) (dst : BitVec 8) (g : Iss → Word) (k : Option (Iss → Nat)),
    uniformValue i = some (dst, g, k) → Clear i (readsOne k) s x →
    x.Ends s i (readsOne k) (fun c => Effect.uni 4 dst (g c))) ∧
  (∀ (s : State) (x : Slot) (i : Instr) (m : Iss → Mask) (w : Nat → Bool) (g : Iss → Nat → Nat → Bool),
    predicateValue i = some (m, w, g) → Clear i plainCheck s x →
    x.Ends s i plainCheck (fun c => {
      preds := fun n l => if w n && (m c).getLsbD l then some (g c n l) else none
      due := ((List.range 7).filter w).map (fun n => (.pred n, 4)) }))

/-- The floating-point words complete with the code and the flags of their operation, pushed as well (R109, R55, R112, R77);
NF = 1 leaves %fx alone (R15). The values of FRCP, FRSQ, FSQRT and FDIV are stated by SpecialFunctions; that the model's series
for FEX2, FLG2, FSINPI and FCOSPI always gives the correctly rounded value that R55 asks for is its own choice (log 19,
PRESUMED). -/
def Obligations.FloatWords : Prop :=
  ∀ (s : State) (x : Slot) (i : Instr) (lat : Nat) (f : FmtA) (g : Iss → Nat → Coded),
    floatValue i = some (lat, f, g) → Clear i plainCheck s x →
    x.Ends s i plainCheck (fun c =>
      { Effect.alu lat f.dst c.exec (fun l => BitVec.ofNat 32 (g c l).1) with
        fx := raised c.exec f.nf (fun l => (g c l).2) })

/-- The conversions, PACK, UNPACK, QBLK and DQBLK (R113 to R119). -/
def Obligations.ConvertWords : Prop :=
  (∀ (s : State) (x : Slot) (i : Instr) (lat : Nat) (f : FmtA) (g : Iss → Nat → Coded),
    convertValue i = some (lat, f, g) → Clear i plainCheck s x →
    x.Ends s i plainCheck (fun c =>
      { Effect.alu lat f.dst c.exec (fun l => BitVec.ofNat 32 (g c l).1) with
        fx := raised c.exec f.nf (fun l => (g c l).2) })) ∧
  (∀ (s : State) (x : Slot) (i : Instr) (f : FmtA) (g : Iss → Nat → Coded),
    convertPair i = some (f, g) → Clear i plainCheck s x →
    x.Ends s i plainCheck (fun c =>
      { Effect.alu64 6 f.dst c.exec (fun l => BitVec.ofNat 64 (g c l).1) with
        fx := raised c.exec f.nf (fun l => (g c l).2) }))

/-- R105: an integer compare writes the predicate DST[2:0] and pushes the mask 0xFFFFFFFF or 0. R110: FCMP writes the
predicate DST[2:0], pushes the mask, and raises NV for a signalling NaN, or for any NaN under a signalling relation;
relations 0 to 7 are quiet, 8 to 11 signalling (Table 4.9); −0 and +0 compare equal. -/
def Obligations.Compares : Prop :=
  (∀ (s : State) (x : Slot) (i : Instr) (dst : BitVec 8) (g : Iss → Nat → Bool),
     compareTest i = some (dst, g) → Clear i plainCheck s x →
     x.Ends s i plainCheck (fun c => { Effect.pred 4 (dst.toNat % 8) c.exec (g c) with
       push := [(c.exec, fun l => if g c l then 0xFFFFFFFF else 0)] })) ∧
  (∀ (s : State) (x : Slot) (f : FmtA), Clear (.fcmp f) plainCheck s x →
     let nan (w : Word) : Bool := w.toNat / 2 ^ 23 % 256 == 255 && w.toNat % 2 ^ 23 != 0
     let snan (w : Word) : Bool := nan w && !w.getLsbD 22
     let val (w : Word) : Int := if w.getLsbD 31 then -((w.toNat % 2 ^ 31 : Nat) : Int) else (w.toNat : Int)
     let cc := f.dst.toNat / 8 % 16
     let test (a b : Word) : Bool :=
       let un := nan a || nan b
       if cc = 0 then !un && val a == val b
       else if cc = 1 then un || val a != val b
       else if cc = 6 then un
       else if cc = 7 then !un
       else !un && (if cc = 2 ∨ cc = 8 then decide (val a < val b) else if cc = 3 ∨ cc = 9 then decide (val a ≤ val b)
         else if cc = 4 ∨ cc = 10 then decide (val b < val a) else decide (val b ≤ val a))
     let nv (a b : Word) : BitVec 5 := if snan a || snan b || ((nan a || nan b) && decide (8 ≤ cc)) then 1 else 0
     x.Ends s (.fcmp f) plainCheck (fun c =>
       { Effect.pred 6 (f.dst.toNat % 8) c.exec (fun l => test (c.src f.sa l) (c.srcB f l)) with
         push := [(c.exec, fun l => if test (c.src f.sa l) (c.srcB f l) then 0xFFFFFFFF else 0)]
         fx := raised c.exec f.nf (fun l => nv (c.src f.sa l) (c.srcB f l)) }))

namespace Sys2Proof.Machine

/-- R28, R30: the value of a code that is no NaN, in units of the format's smallest subnormal, 2^(1 − bias − m); an infinity counts
as the power of two after the largest finite value. -/
def Fmt.units (f : Fmt) (x : Nat) : Int :=
  let e := x / 2 ^ f.m % 2 ^ f.eb
  let n : Nat := if e = 0 then x % 2 ^ f.m else (2 ^ f.m + x % 2 ^ f.m) * 2 ^ (e - 1)
  if x / 2 ^ (f.eb + f.m) % 2 = 1 then -(n : Int) else n

/-- R30: a code of a finite value: where the top exponent is special, one below it. -/
def Fmt.finite (f : Fmt) (x : Nat) : Bool :=
  decide (x < 2 ^ f.bits) && match f.spec with
    | .ieee => x / 2 ^ f.m % 2 ^ f.eb != 2 ^ f.eb - 1
    | .nanOnly => x % 2 ^ (f.eb + f.m) != 2 ^ (f.eb + f.m) - 1
    | .none => true

/-- The code of an infinity, by its sign. -/
def Fmt.infinity (f : Fmt) (neg : Bool) : Nat := (if neg then 2 ^ (f.eb + f.m) else 0) + (2 ^ f.eb - 1) * 2 ^ f.m

def signBit (f : Fmt) (x : Nat) : Bool := decide (x / 2 ^ (f.eb + f.m) % 2 = 1)

/-- R32 to R34, Table 2.3: in a format with infinities, r is the exact value N / D units, which is not 0, rounded once: RNE gives
the nearest, the power of two after the largest finite value standing for infinity, and of two as near the one of even mantissa; RZ
the nearest not beyond it toward zero; RU the least not below it, RD the greatest not above it, infinite where no finite value is. -/
def Fmt.Rounds (f : Fmt) (mode : RMode) (N : Int) (D r : Nat) : Prop :=
  (f.finite r ∨ r = f.infinity (decide (N < 0))) ∧ signBit f r = decide (N < 0) ∧
  (let at' (c : Nat) : Int := f.units c * D
   let below (c : Nat) : Prop := at' c ≤ N
   let above (c : Nat) : Prop := N ≤ at' c
   let greatest : Prop := if f.finite r then below r ∧ ∀ c, f.finite c → below c → f.units c ≤ f.units r
     else N < 0 ∧ ∀ c, f.finite c → ¬below c
   let least : Prop := if f.finite r then above r ∧ ∀ c, f.finite c → above c → f.units r ≤ f.units c
     else 0 < N ∧ ∀ c, f.finite c → ¬above c
   match mode with
   | .rne => ∀ c, (f.finite c ∨ c = f.infinity (decide (N < 0))) →
       (N - at' r).natAbs ≤ (N - at' c).natAbs ∧
         ((N - at' r).natAbs = (N - at' c).natAbs → f.units c ≠ f.units r → r % 2 = 0)
   | .rz => f.finite r ∧ if N < 0 then above r ∧ ∀ c, f.finite c → above c → f.units r ≤ f.units c
       else below r ∧ ∀ c, f.finite c → below c → f.units c ≤ f.units r
   | .ru => least
   | .rd => greatest)

/-- The mode rounds a value of this sign away from zero. -/
def RMode.away (mode : RMode) (N : Int) : Bool := (mode == .ru && decide (0 < N)) || (mode == .rd && decide (N < 0))

/-- R36: N / D units stay below the smallest normal, 2^m units, rounded to the same precision with the exponent unbounded. -/
def Fmt.Tiny (f : Fmt) (mode : RMode) (N : Int) (D : Nat) : Prop :=
  if mode = .rne then 4 * N.natAbs < (4 * 2 ^ f.m - 1) * D
  else if mode.away N then 2 * N.natAbs ≤ (2 * 2 ^ f.m - 1) * D
  else N.natAbs < 2 ^ f.m * D

/-- R36: the flags of a rounding that does not overflow: NX where it is not exact, and UF too where that is tiny. -/
def Fmt.InexactFlags (f : Fmt) (mode : RMode) (N : Int) (D r : Nat) (fx : BitVec 5) : Prop :=
  (f.units r * D = N → fx = 0) ∧ (f.units r * D ≠ N → (f.Tiny mode N D → fx = fxUF ||| fxNX) ∧ (¬f.Tiny mode N D → fx = fxNX))

/-- R34, R36: the flags of that rounding: OF and NX on overflow; else those of what is lost. -/
def Fmt.RoundFlags (f : Fmt) (mode : RMode) (N : Int) (D r : Nat) (fx : BitVec 5) : Prop :=
  let ovf : Prop := r = f.infinity (decide (N < 0)) ∨ (2 ^ f.m * 2 ^ (2 ^ f.eb - 2)) * D ≤ N.natAbs
  (ovf → fx = fxOF ||| fxNX) ∧ (¬ovf → f.InexactFlags mode N D r fx)

/-- R32, R109: an exact result N / D units, a zero having the sign `neg`. -/
def Fmt.Result (f : Fmt) (mode : RMode) (N : Int) (D : Nat) (neg : Bool) (r : Coded) : Prop :=
  if N = 0 then r = ((if neg then 2 ^ (f.eb + f.m) else 0), 0) else f.Rounds mode N D r.1 ∧ f.RoundFlags mode N D r.1 r.2

/-- The sign of an exact zero sum: that of both terms, or, where they differ, − in RD alone (R109). -/
def zeroSign (mode : RMode) (s t : Bool) : Bool := if s = t then s else mode == .rd

end Sys2Proof.Machine

/-- R33: a magnitude n × 2^−k under a mode. RNE gives an integer at distance at most one half, even if at exactly one half;
RZ the integer below; RU and RD the integer on their side. NX says whether anything was lost. R37: an FP32 operation with a
NaN operand returns the first NaN operand with its quiet bit set, and raises NV when an operand is a signalling NaN; FFMA
also raises it for ∞ × 0. R32 to R36, R109, Table 2.3: on finite operands FP32, FP16 and BF16 addition, multiplication and FMA
round the exact result once, subnormals honoured, with the flags of overflow, underflow and inexactness. -/
def Obligations.RoundingAndNans : Prop :=
  (∀ (mode : RMode) (s : Bool) (n k : Nat),
     let q := (roundInt mode s n k false).1
     ((roundInt mode s n k false).2 = true ↔ n ≠ q * 2 ^ k) ∧
     (match mode with
       | .rne => 2 * q * 2 ^ k ≤ 2 * n + 2 ^ k ∧ 2 * n ≤ 2 * q * 2 ^ k + 2 ^ k ∧
           ((2 * q * 2 ^ k = 2 * n + 2 ^ k ∨ 2 * n = 2 * q * 2 ^ k + 2 ^ k) → q % 2 = 0)
       | .rz => q * 2 ^ k ≤ n ∧ n < q * 2 ^ k + 2 ^ k
       | .ru => if s then q * 2 ^ k ≤ n ∧ n < q * 2 ^ k + 2 ^ k else n ≤ q * 2 ^ k ∧ q * 2 ^ k < n + 2 ^ k
       | .rd => if s then n ≤ q * 2 ^ k ∧ q * 2 ^ k < n + 2 ^ k else q * 2 ^ k ≤ n ∧ n < q * 2 ^ k + 2 ^ k)) ∧
  (let nan (w : Word) : Bool := w.toNat / 2 ^ 23 % 256 == 255 && w.toNat % 2 ^ 23 != 0
   let snan (w : Word) : Bool := nan w && !w.getLsbD 22
   let quiet (w : Word) : Nat := (w ||| 0x00400000).toNat
   let nv (b : Bool) : BitVec 5 := if b then 1 else 0
   (∀ (mode : RMode) (a b : Word), (nan a || nan b) = true →
     let r : Coded := (quiet (if nan a then a else b), nv (snan a || snan b))
     fAdd fp32 mode a.toNat b.toNat = r ∧ fMul fp32 mode a.toNat b.toNat = r ∧ fDiv a.toNat b.toNat = r ∧
       fMin fp32 a.toNat b.toNat = r ∧ fMax fp32 a.toNat b.toNat = r) ∧
   (∀ (mode : RMode) (a b d : Word), (nan a || nan b || nan d) = true →
     let inf (w : Word) : Bool := w.toNat % 2 ^ 31 == 0x7F800000
     let zero (w : Word) : Bool := w.toNat % 2 ^ 31 == 0
     fFma fp32 mode a.toNat b.toNat d.toNat =
       (quiet (if nan a then a else if nan b then b else d),
         nv (snan a || snan b || snan d || (inf a && zero b) || (zero a && inf b))))) ∧
  (∀ (f : Fmt) (mode : RMode) (a b c : Nat), (f = fp32 ∨ f = fp16 ∨ f = bf16) → f.finite a → f.finite b → f.finite c →
     let k := f.bias + f.m - 1
     let s := signBit f a
     let t := signBit f b
     f.Result mode (f.units a + f.units b) 1 (zeroSign mode s t) (fAdd f mode a b) ∧
     f.Result mode (f.units a * f.units b) (2 ^ k) (s != t) (fMul f mode a b) ∧
     f.Result mode (f.units a * f.units b + f.units c * (2 ^ k : Nat)) (2 ^ k) (zeroSign mode (s != t) (signBit f c))
       (fFma f mode a b c))

namespace Sys2Proof.Machine

/-- r is the FP32 code nearest to sqrt(N / D) units, of two as near the one of even mantissa. -/
def RootRounds (N D r : Nat) : Prop :=
  r < 0x7F800000 ∧ ∀ c, c < 0x7F800000 →
    let m : Int := fp32.units r + fp32.units c
    (fp32.units r < fp32.units c → 4 * (N : Int) ≤ m * m * D ∧ (4 * (N : Int) = m * m * D → r % 2 = 0)) ∧
    (fp32.units c < fp32.units r → m * m * D ≤ 4 * (N : Int) ∧ (m * m * D = 4 * (N : Int) → r % 2 = 0))

/-- The flags of a root: NX where its square is not N / D. -/
def rootFlags (N D r : Nat) : BitVec 5 := if fp32.units r * fp32.units r * D = (N : Int) then 0 else fxNX

end Sys2Proof.Machine

/-- R55, Table 2.8: the correctly rounded functions. FRCP and FDIV of finite operands round the exact quotient once, with the flags of
that; FSQRT and FRSQ of a positive one give the FP32 value nearest to the root, or to 1 over it, NX where that is not exact. A NaN
operand comes back quiet, NV for a signalling one (R37). Zeros, infinities and negative operands give the results of Table 2.8, a NaN
with NV or an infinity with DZ among them. Where 2^x, log2 x, sin πx or cos πx is rational the result is it: FEX2 of an integer, FLG2
of a power of two, FSINPI and FCOSPI of multiples of one half; FEX2 overflows from 128 on and gives 0 below −150. -/
def Obligations.SpecialFunctions : Prop :=
  let zero (s : Bool) : Nat := if s then 2 ^ 31 else 0
  let inf (s : Bool) : Nat := fp32.infinity s
  let bad : Coded := (0x7FC00000, fxNV)
  let one (s : Bool) : Coded := (zero s + 0x3F800000, 0)
  (∀ a : Word, a.toNat / 2 ^ 23 % 256 = 255 → a.toNat % 2 ^ 23 ≠ 0 →
    let r : Coded := ((a ||| 0x00400000).toNat, if a.getLsbD 22 then 0 else fxNV)
    fRcp a.toNat = r ∧ fRsq a.toNat = r ∧ fSqrt a.toNat = r ∧ fEx2 a.toNat = r ∧ fLg2 a.toNat = r ∧ fSinpi a.toNat = r ∧
      fCospi a.toNat = r) ∧
  (∀ s : Bool, fRcp (zero s) = (inf s, fxDZ) ∧ fRcp (inf s) = (zero s, 0) ∧ fRsq (zero s) = (inf s, fxDZ) ∧ fSqrt (zero s) = (zero s, 0) ∧
    fEx2 (zero s) = one false ∧ fLg2 (zero s) = (inf true, fxDZ) ∧ fSinpi (zero s) = (zero s, 0) ∧ fCospi (zero s) = one false ∧
    fSinpi (inf s) = bad ∧ fCospi (inf s) = bad) ∧
  (fRsq (inf false) = (0, 0) ∧ fSqrt (inf false) = (inf false, 0) ∧ fEx2 (inf false) = (inf false, 0) ∧ fLg2 (inf false) = (inf false, 0) ∧
    fRsq (inf true) = bad ∧ fSqrt (inf true) = bad ∧ fEx2 (inf true) = (0, 0) ∧ fLg2 (inf true) = bad) ∧
  (∀ a, fp32.finite a → fp32.units a < 0 → fRsq a = bad ∧ fSqrt a = bad ∧ fLg2 a = bad) ∧
  (∀ a, fp32.finite a → fp32.units a ≠ 0 →
    let u := fp32.units a
    fp32.Result .rne (if u < 0 then -(2 ^ 298) else 2 ^ 298) u.natAbs false (fRcp a) ∧
    (0 < u →
      (∃ q, fSqrt a = (q, rootFlags (u.toNat * 2 ^ 149) 1 q) ∧ RootRounds (u.toNat * 2 ^ 149) 1 q) ∧
      (∃ q, fRsq a = (q, rootFlags (2 ^ 447) u.toNat q) ∧ RootRounds (2 ^ 447) u.toNat q))) ∧
  (∀ s t : Bool, fDiv (zero s) (zero t) = bad ∧ fDiv (inf s) (inf t) = bad) ∧
  (∀ (a : Nat) (t : Bool), fp32.finite a →
    fDiv a (inf t) = (zero (signBit fp32 a != t), 0) ∧ fDiv (inf t) a = (inf (signBit fp32 a != t), 0) ∧
    (fp32.units a ≠ 0 → fDiv a (zero t) = (inf (signBit fp32 a != t), fxDZ))) ∧
  (∀ a b, fp32.finite a → fp32.finite b → fp32.units b ≠ 0 →
    fp32.Result .rne (fp32.units a * (if fp32.units b < 0 then -(2 ^ 149) else 2 ^ 149)) (fp32.units b).natAbs
      (signBit fp32 a != signBit fp32 b) (fDiv a b)) ∧
  (∀ a, fp32.finite a → let u := fp32.units a
    (128 * 2 ^ 149 ≤ u → fEx2 a = (inf false, fxOF ||| fxNX)) ∧ (u < -(150 * 2 ^ 149) → fEx2 a = (0, fxUF ||| fxNX)) ∧
    (∀ z : Int, -149 ≤ z → z < 128 → u = z * 2 ^ 149 → (fEx2 a).2 = 0 ∧ fp32.finite (fEx2 a).1 ∧ signBit fp32 (fEx2 a).1 = false ∧
      fp32.units (fEx2 a).1 = 2 ^ (z + 149).toNat) ∧
    (∀ j : Nat, u = 2 ^ j → (fLg2 a).2 = 0 ∧ fp32.finite (fLg2 a).1 ∧ signBit fp32 (fLg2 a).1 = decide (j < 149) ∧
      fp32.units (fLg2 a).1 = ((j : Int) - 149) * 2 ^ 149) ∧
    (u % 2 ^ 149 = 0 → fSinpi a = (zero (signBit fp32 a), 0) ∧ fCospi a = one (decide (u / 2 ^ 149 % 2 = 1))) ∧
    (u % 2 ^ 149 = 2 ^ 148 → fSinpi a = one (decide (u / 2 ^ 149 % 2 = 1)) ∧ fCospi a = (0, 0)))

namespace Sys2Proof.Machine

/-- The largest finite code of a format, and the NaN of E4M3 (Tables 2.1 and 2.2). -/
def Fmt.top (f : Fmt) : Nat :=
  match f.spec with
  | .ieee => (2 ^ f.eb - 1) * 2 ^ f.m - 1
  | .nanOnly => 2 ^ (f.eb + f.m) - 2
  | .none => 2 ^ (f.eb + f.m) - 1

/-- R34: N / D units, rounded with the exponent unbounded, exceed the largest finite value; that is `m` steps of the top binade's. -/
def Fmt.Overflows (f : Fmt) (mode : RMode) (N : Int) (D : Nat) : Prop :=
  let step := 2 ^ (if f.spec = .ieee then 2 ^ f.eb - 3 else 2 ^ f.eb - 2)
  let m := if f.spec = .nanOnly then 2 ^ (f.m + 1) - 2 else 2 ^ (f.m + 1) - 1
  if mode = .rne then (if m % 2 = 1 then (2 * m + 1) * step * D ≤ 2 * N.natAbs else (2 * m + 1) * step * D < 2 * N.natAbs)
  else if mode.away N then m * step * D < N.natAbs
  else (m + 1) * step * D ≤ N.natAbs

/-- Table 2.3. -/
def Fmt.overflow (f : Fmt) (mode : RMode) (neg sat : Bool) : Nat :=
  (if neg then 2 ^ (f.eb + f.m) else 0) +
  if sat then f.top else match f.spec with
    | .none => f.top
    | .nanOnly => f.top + 1
    | .ieee => if mode = .rne ∨ (mode = .ru ∧ neg = false) ∨ (mode = .rd ∧ neg = true) then f.top + 1 else f.top

/-- R32 to R36 in any format: N / D units become the code and the flags; `neg` is the sign of a zero. -/
def Fmt.Converts (f : Fmt) (mode : RMode) (sat : Bool) (N : Int) (D : Nat) (neg : Bool) (r : Coded) : Prop :=
  (N = 0 → r = ((if neg then 2 ^ (f.eb + f.m) else 0), 0)) ∧
  (N ≠ 0 → f.Overflows mode N D → r = (f.overflow mode (decide (N < 0)) sat, fxOF ||| fxNX)) ∧
  (N ≠ 0 → ¬f.Overflows mode N D → f.finite r.1 ∧ signBit f r.1 = decide (N < 0) ∧ f.InexactFlags mode N D r.1 r.2 ∧
    let at' (c : Nat) : Int := f.units c * D
    let greatest : Prop := at' r.1 ≤ N ∧ ∀ c, f.finite c → at' c ≤ N → f.units c ≤ f.units r.1
    let least : Prop := N ≤ at' r.1 ∧ ∀ c, f.finite c → N ≤ at' c → f.units r.1 ≤ f.units c
    match mode with
    | .rne => ∀ c, f.finite c → (N - at' r.1).natAbs ≤ (N - at' c).natAbs ∧
        ((N - at' r.1).natAbs = (N - at' c).natAbs → f.units c ≠ f.units r.1 → r.1 % 2 = 0)
    | .rz => if N < 0 then least else greatest
    | .ru => least
    | .rd => greatest)

/-- The float types of Table 4.11, and what a unit of each is: 2^(u − 149). -/
def floatType (t : Nat) : Prop := t < 7 ∨ t = 0x10
def Fmt.unitExp (f : Fmt) : Nat := 150 - f.bias - f.m

/-- The integer types of Table 4.11: signed or not, and the width. -/
def integerType (t : Nat) : Option (Bool × Nat) :=
  [(7, true, 8), (0x11, true, 16), (0x12, true, 32), (0x13, true, 64), (0x14, false, 8), (0x15, false, 16), (0x16, false, 32),
    (0x17, false, 64)].lookup t
def typeMin (s : Bool) (w : Nat) : Int := if s then -(2 ^ (w - 1)) else 0
def typeMax (s : Bool) (w : Nat) : Int := if s then 2 ^ (w - 1) - 1 else 2 ^ w - 1
def typeCode (w : Nat) (q : Int) : Nat := (q % 2 ^ w).toNat
def typeValue (s : Bool) (w x : Nat) : Int := if s = true ∧ 2 ^ (w - 1) ≤ x % 2 ^ w then (x % 2 ^ w : Nat) - 2 ^ w else (x % 2 ^ w : Nat)

/-- R33: the integer that a mode gives for N / D. -/
def RoundsInt (mode : RMode) (N : Int) (D : Nat) (q : Int) : Prop :=
  match mode with
  | .rne => 2 * (N - q * D).natAbs ≤ D ∧ (2 * (N - q * D).natAbs = D → q % 2 = 0)
  | .rz => (q * D).natAbs ≤ N.natAbs ∧ N.natAbs < (q * D).natAbs + D ∧ 0 ≤ q * N
  | .ru => N ≤ q * D ∧ q * D < N + D
  | .rd => q * D ≤ N ∧ N < q * D + D

/-- R39: a NaN of a format in another: the payload high-aligned and quiet; E4M3's own NaN there, and in a wider format than E4M3 its
canonical one; the code 0 where there is none (R40). -/
def nanIn (src f : Fmt) (x : Nat) : Nat :=
  let sign := if signBit src x then 2 ^ (f.eb + f.m) else 0
  let man := x % 2 ^ src.m
  let p := if src.m ≤ f.m then man * 2 ^ (f.m - src.m) else man / 2 ^ (src.m - f.m)
  let quiet := if p / 2 ^ (f.m - 1) % 2 = 1 then p else p + 2 ^ (f.m - 1)
  match f.spec with
  | .none => 0
  | .nanOnly => sign + f.top + 1
  | .ieee => sign + (f.top + 1) + if src.spec = .nanOnly ∧ src.bits < f.bits then 2 ^ (f.m - 1) else quiet

/-- Table 2.6. -/
def blockEmax (t : Nat) : Int := nth 0 [0, 0, 8, 15, 2, 4, 2] t

end Sys2Proof.Machine

/-- R32 to R36, R39, R40, R43, R45, R46, R113 to R119, Tables 2.3 and 4.11: what a conversion gives. Between float formats the exact
value is rounded once by the mode, an overflow giving Table 2.3's result or its .sat column; .ftz makes a subnormal operand or result
a zero (R35); an infinity stays one where there is one, else is the largest finite value with OF and NX; a NaN keeps its payload
high-aligned and turns quiet, is the canonical one of a format wider than E4M3's, or the code 0 with NV where there is none, NV too for
a signalling one. To an integer the value is rounded by the mode and clamped with NV, a NaN giving 0; from one it is rounded to the
format; between integers it is taken modulo, or clamped by .sat. A scaled element is the FP32 value nearest to it, and a scale of 0xFF
gives the canonical NaN. A quantised block has the scale of its greatest magnitude, one more in mode RAISE where an element would
overflow, and each element rounded to nearest at that scale and saturated; a block with a NaN or an infinity has the scale 0xFF and
codes 0. -/
def Obligations.ConversionsRound : Prop :=
  (∀ (st dt : Nat) (mode : RMode) (sat ftz : Bool) (x : Nat), floatType st → floatType dt → x < 2 ^ (fmtOf st).bits →
    let f := fmtOf st
    let g := fmtOf dt
    let zero (neg : Bool) : Nat := if neg then 2 ^ (g.eb + g.m) else 0
    let sub (f : Fmt) (c : Nat) : Bool := c / 2 ^ f.m % 2 ^ f.eb == 0 && c % 2 ^ f.m != 0
    (f.finite x →
      (ftz = true → sub f x = true → cvt st dt mode sat ftz x = (zero (signBit f x), 0)) ∧
      (ftz = false ∨ sub f x = false → ∃ r : Coded,
        g.Converts mode sat (f.units x * (2 ^ f.unitExp : Nat)) (2 ^ g.unitExp) (signBit f x) r ∧
        cvt st dt mode sat ftz x =
          if ftz = true ∧ sub g r.1 = true then (zero (signBit g r.1), r.2 ||| fxUF ||| fxNX) else r)) ∧
    (f.spec = .ieee → x % 2 ^ (f.eb + f.m) = f.top + 1 → cvt st dt mode sat ftz x =
      if g.spec = .ieee then (zero (signBit f x) + g.top + 1, 0) else (zero (signBit f x) + g.top, fxOF ||| fxNX)) ∧
    (f.isNan x = true → cvt st dt mode sat ftz x = (nanIn f g x,
      if g.spec = .none ∨ (f.spec = .ieee ∧ x / 2 ^ (f.m - 1) % 2 = 0) then fxNV else 0))) ∧
  (∀ (st dt : Nat) (mode : RMode) (sat ftz : Bool) (x : Nat) (s : Bool) (w : Nat), floatType st → integerType dt = some (s, w) →
    x < 2 ^ (fmtOf st).bits →
    let f := fmtOf st
    (f.finite x → ∃ q : Int, RoundsInt mode (f.units x) (2 ^ (149 - f.unitExp)) q ∧ cvt st dt mode sat ftz x =
      if q < typeMin s w then (typeCode w (typeMin s w), fxNV) else if typeMax s w < q then (typeCode w (typeMax s w), fxNV)
      else (typeCode w q, if q * (2 ^ (149 - f.unitExp) : Nat) = f.units x then 0 else fxNX)) ∧
    (f.spec = .ieee → x % 2 ^ (f.eb + f.m) = f.top + 1 → cvt st dt mode sat ftz x =
      (typeCode w (if signBit f x then typeMin s w else typeMax s w), fxNV)) ∧
    (f.isNan x = true → cvt st dt mode sat ftz x = (0, fxNV))) ∧
  (∀ (st dt : Nat) (mode : RMode) (sat ftz : Bool) (x : Nat) (s : Bool) (w : Nat), integerType st = some (s, w) →
    (floatType dt → (fmtOf dt).Converts mode sat (typeValue s w x * 2 ^ 149) (2 ^ (fmtOf dt).unitExp) false (cvt st dt mode sat ftz x)) ∧
    (∀ s' w', integerType dt = some (s', w') → cvt st dt mode sat ftz x =
      (typeCode w' (if sat then max (typeMin s' w') (min (typeMax s' w') (typeValue s w x)) else typeValue s w x), 0))) ∧
  (∀ (t code : Nat) (scale : Option Nat), t < 8 → code < 2 ^ (if t = 7 then 8 else (fmtOf t).bits) → (∀ k, scale = some k → k < 256) →
    let f := fmtOf t
    (scale = some 255 → elemTo32 t code scale = (0x7FC00000, 0)) ∧
    (∀ k, scale = some k ∧ k < 255 ∨ (scale = none ∧ k = 127) →
      (t = 7 → fp32.Result .rne (typeValue true 8 code * (2 ^ (149 + k) : Nat)) (2 ^ 127) false (elemTo32 t code scale)) ∧
      (t < 7 → f.finite code → fp32.Result .rne (f.units code * (2 ^ (f.unitExp + k) : Nat)) (2 ^ 127) (signBit f code)
        (elemTo32 t code scale)) ∧
      (t < 7 → f.spec = .ieee → code % 2 ^ (f.eb + f.m) = f.top + 1 → elemTo32 t code scale = (fp32.infinity (signBit f code), 0)) ∧
      (t < 7 → f.isNan code = true → elemTo32 t code scale = (nanIn f fp32 code, 0)))) ∧
  (∀ (t : Nat) (up : Bool) (xs : List Nat), 2 ≤ t → t < 7 → (∀ x ∈ xs, x < 2 ^ 32) →
    let f := fmtOf t
    let q := qblock t up (xs.map fp32.value)
    q.2.length = xs.length ∧
    ((∃ x ∈ xs, fp32.finite x = false) → q.1 = 0xFF ∧ ∀ c ∈ q.2, c = 0) ∧
    ((∀ x ∈ xs, fp32.finite x = true) → (∀ x ∈ xs, fp32.units x = 0) → q.1 = 0 ∧ ∀ c ∈ q.2, c = 0) ∧
    (∀ big, big ∈ xs → (∀ x ∈ xs, fp32.finite x = true) → (∀ x ∈ xs, (fp32.units x).natAbs ≤ (fp32.units big).natAbs) →
      fp32.units big ≠ 0 →
      let e0 : Int := max (Nat.log2 (fp32.units big).natAbs - 149 - blockEmax t) (-127)
      let den (e : Int) : Nat := 2 ^ (e + f.unitExp).toNat
      let more : Prop := up = true ∧ ∃ x ∈ xs, f.Overflows .rne (fp32.units x) (den e0)
      ∀ e : Int, (e = if 127 < e0 then 127 else e0) ∧ ¬(e0 ≤ 127 ∧ more) ∨ (e0 ≤ 127 ∧ more ∧ e = e0 + 1) →
        q.1 = (e + 127).toNat ∧ ∀ (k x c : Nat), xs[k]? = some x → q.2[k]? = some c →
          ∃ fx, f.Converts .rne true (fp32.units x) (den e) (signBit fp32 x) (c, fx)))

/-- R130, Table 4.14: RDSR reads a special register, of 32 or of 64 bits. R130: WRSR writes a per-lane special register in
each executing lane, and a per-warp one once, from the lowest executing lane; nothing else of the machine changes. -/
def Obligations.SpecialRegisters : Prop :=
  (∀ (s : State) (x : Slot) (f : FmtS), Clear (.rdsr f) plainCheck s x →
     x.Ends s (.rdsr f) plainCheck (fun c =>
       if srWidth f.b.toNat = some 64 then Effect.pair 4 f.a c.exec (specialRegister s c f.b.toNat)
       else Effect.lane 4 f.a c.exec (fun l => lo32 (specialRegister s c f.b.toNat l)))) ∧
  (∀ (s : State) (x : Slot) (f : FmtS), Clear (.wrsr f) plainCheck s x →
     let c := x.ctx s (.wrsr f) plainCheck none
     let n := f.b.toNat
     let low := (List.range 32).find? c.exec.getLsbD
     ∃ (t : State) (V : Warp), exec (.wrsr f) s = .next t ∧ x.Only s t (x.after s V) ∧
       V = { c.W with threads := V.threads, repc := V.repc, trap := { c.W.trap with ret := V.trap.ret }, early := V.early } ∧
       (∀ l, V.thread l = { c.W.thread l with
         fx := if n = 0x10 ∧ c.exec.getLsbD l = true then (c.src f.c l).setWidth 5 else (c.W.thread l).fx
         preds := if n = 0x11 ∧ c.exec.getLsbD l = true then (c.src f.c l).setWidth 7 else (c.W.thread l).preds
         ix0 := if n = 0x12 ∧ c.exec.getLsbD l = true then (c.src f.c l).extractLsb' 0 8 else (c.W.thread l).ix0
         ix1 := if n = 0x12 ∧ c.exec.getLsbD l = true then (c.src f.c l).extractLsb' 8 8 else (c.W.thread l).ix1 }) ∧
       (V.repc = match low with
         | some l => if n = 0x13 then (c.src f.c l).setWidth 7 else c.W.repc
         | none => c.W.repc) ∧
       (V.trap.ret = match low with
         | some l => if n = 0x1D then (c.src64 f.c l).setWidth 52 else c.W.trap.ret
         | none => c.W.trap.ret))

/-- R123: LDIX reads, and STIX writes, the lane register that each lane's index selects. R108, R131, R132: MOVW to the lanes;
RDTIME, the package time base in nanoseconds; RNG4, Philox4x32-10 of the counter in v[B] … v[B+3] under the key of the pair
C, to v[A] … v[A+3]. -/
def Obligations.IndexedMoveTimeRandom : Prop :=
  ((∀ (s : State) (x : Slot) (f : FmtS), Clear (.ldix f) (ldixCheck f) s x →
     x.Ends s (.ldix f) (ldixCheck f) (fun c =>
       Effect.lane 4 f.a c.exec (fun l => c.W.vAt c.fr (indexedRegister f.b f.sub c l) l))) ∧
   (∀ (s : State) (x : Slot) (f : FmtS), Clear (.stix f) (stixCheck f) s x →
     x.Ends s (.stix f) (stixCheck f) (fun c =>
       { lanes := fun n l =>
           if c.exec.getLsbD l = true ∧ n = indexedRegister f.b f.sub c l then some (c.src f.a l) else none
         due := (lanesOf c.exec).map (fun l => (.lane (indexedRegister f.b f.sub c l), 4)) }))) ∧
  (∀ (s : State) (x : Slot) (f : FmtS),
     (Clear (.movwToLane f) plainCheck s x →
       x.Ends s (.movwToLane f) plainCheck (fun c => Effect.lane 4 f.a c.exec (fun _ => c.W.wAt c.fr f.b.toNat))) ∧
     (Clear (.rdtime f) plainCheck s x →
       x.Ends s (.rdtime f) plainCheck (fun c => Effect.pair 4 f.a c.exec (fun _ => BitVec.ofNat 64 s.time))) ∧
     (Clear (.rng4 f) plainCheck s x →
       x.Ends s (.rng4 f) plainCheck (fun c =>
         let r (l : Nat) : Word × Word × Word × Word :=
           philox (c.W.vAt c.fr f.b.toNat l) (c.W.vAt c.fr (f.b.toNat + 1) l) (c.W.vAt c.fr (f.b.toNat + 2) l)
             (c.W.vAt c.fr (f.b.toNat + 3) l) (lo32 (c.src64 f.c l)) (hi32 (c.src64 f.c l))
         { lanes := fun n l => if c.exec.getLsbD l = true then
             (if n = f.a.toNat then some (r l).1 else if n = f.a.toNat + 1 then some (r l).2.1
              else if n = f.a.toNat + 2 then some (r l).2.2.1 else if n = f.a.toNat + 3 then some (r l).2.2.2 else none)
             else none
           due := (List.range 4).map (fun k => (.lane (f.a.toNat + k), 12)) })))

/-- R166 to R171, R52 to R54: the collectives. R73, R74, R75: a dual word. -/
def Obligations.CollectiveAndDualWords : Prop :=
  (∀ (s : State) (x : Slot) (i : Instr) (mn : Meaning) (e : Iss → Effect),
    collectiveEffect i = some (mn, e) → Clear i mn s x → x.Ends s i mn e) ∧
  (∀ (s : State) (x : Slot) (k : Ctl) (h0 h1 : Half), h0.dst ≠ h1.dst → Clear (.dualWord k h0 h1) plainCheck s x →
    x.Ends s (.dualWord k h0 h1) plainCheck (dualEffect h0 h1))

/-! ## The word at issue -/

/-- What issue does to the warp of every word before the word's own effect, and what the word reads (R20, R21, R56, R57, R61,
R65, R82): the threads of the run move on, to the next word outside REP; every eligible thread loses its yield mark; the flag
SETF counts; the cycle is noted; the word executes in the lanes of its run whose predicate holds; the literal is the one a
LIT just before it left; the flags it waits for have been waited for (R64); a single-bit error of a register is at most corrected
and counted (R160). No register, and nothing of the warp but what the statement lists, changes. R57, R61, R62, R149: a
word whose distance has not passed, or one of whose WAIT flags is not zero, or whose SETF flag counts 63, does not issue:
nothing happens. -/
def Obligations.WordBegins : Prop :=
  (∀ (s : State) (x : Slot) (i : Instr) (mn : Meaning) (lit : Option Word), Clear i mn s x →
     let c := x.ctx s i mn lit
     c.run = x.run ∧ c.pc = x.addr s ∧ c.lit = (x.W.prev.bind (·.lit)).getD 0 ∧
     (∀ l, c.exec.getLsbD l =
       (x.run.getLsbD l && ((predOf i).1 == 7 || c.W.pAt c.fr (predOf i).1.toNat l != (predOf i).2))) ∧
     (x.W.rep = none → x.addr s = x.pc ∧ (x.site s).2 = x.pc + 8) ∧
     (∀ l, c.W.thread l =
       if x.run.getLsbD l = true then { x.W.thread l with pc := (x.site s).2, y := false }
       else if (x.W.thread l).status = .eligible then { x.W.thread l with y := false }
       else x.W.thread l) ∧
     (∀ n, tget 0 c.W.flags n =
       if n = x.h.setf.toNat ∧ n < 12 then tget 0 x.W.flags n + 1 else tget 0 x.W.flags n) ∧
     c.W.lastIssue = some (s.clockOf x.W.core) ∧
     c.W = { x.W with
       threads := c.W.threads, flags := c.W.flags, lastIssue := c.W.lastIssue, early := c.W.early, prev := c.W.prev,
       unwaited := x.W.unwaited.filter (fun p => !x.k.wait.getLsbD p.1),
       skip := { x.W.skip with valid := x.W.skip.valid && x.W.skip.addr != x.addr s }, badV := c.W.badV, badW := c.W.badW,
       weakV := c.W.weakV, weakW := c.W.weakW, fixed := c.W.fixed } ∧
     (∀ n ∈ c.W.badV, n ∈ x.W.badV) ∧ (∀ n ∈ c.W.badW, n ∈ x.W.badW) ∧ (∀ n ∈ c.W.weakV, n ∈ x.W.weakV) ∧
     (∀ n ∈ c.W.weakW, n ∈ x.W.weakW)) ∧
  (∀ (s : State) (x : Slot) (i : Instr) (w : BitVec 64), encode i = some w → AtIssue i s x →
     ((∃ n, x.W.lastIssue = some n ∧ s.clockOf x.W.core < n + max x.k.dist.toNat 1) ∨
      (∃ n, n < 12 ∧ x.k.wait.getLsbD n = true ∧ tget 0 x.W.flags n ≠ 0) ∨
      (x.h.setf.toNat < 12 ∧ 63 ≤ tget 0 x.W.flags x.h.setf.toNat)) →
     exec i s = .next s)

/-- R86, steps 1 to 4, in order: an unassigned opcode or a field of a wrong value is ILLEGAL, as is a literal out of place
(R82); then the bank rule (R76); then the chain rules (R78, R79). The word has no effect, and %traphalf names the half; that it is
BOTH for a dual word after a LIT, and for a bank or chain fault of a dual word, is log 51 (DEDUCED). R87: the words of no assigned
opcode are ILLEGAL; with no handler that cause may go to, the block aborts (Table 3.18). -/
def Obligations.StaticChecks : Prop :=
  (∀ (s : State) (x : Slot) (i : Instr) (w : BitVec 64), encode i = some w → Issues i s x →
     let half := halfCode (x.h.pieces.map (fun q => !q.ok))
     let whole := halfCode (x.h.pieces.map (fun _ => true))
     if x.h.pieces.any (fun q => !q.ok) then exec i s = .next (x.trapped s causeIllegal half 0 0)
     else if litOk x.W x.h x.run (x.addr s) = false then exec i s = .next (x.trapped s causeIllegal whole 0 0)
     else if x.h.bankOk = false then exec i s = .next (x.trapped s causeBank whole 0 0)
     else if chainOk (x.chain s) x.h = false then exec i s = .next (x.trapped s causeChain whole 0 0)
     else True) ∧
  (∀ (s : State) (x : Slot) (w : BitVec 64), unassignedWord w = true → Issues (.unassignedOpcode w) s x →
     ∃ half, exec (.unassignedOpcode w) s = .next (x.trapped s causeIllegal half 0 0) ∧
       x.trapped s causeIllegal half 0 0 =
         ((s.modWarp x.B.uid x.W.idx (Warp.chosen (x.addr s))).modWarp x.B.uid x.W.idx (Warp.quiesce x.run)).abortBlock
           x.B.uid x.W.idx ⟨1, x.addr s, half, 0, 0, 0⟩)

namespace Sys2Proof.Machine

/-- From W to V a run whose word at `addr` was chosen does not go on: its threads stand at `pc`; no ALU result is in flight; the
chain, the literal and the REP sequence of its threads have ended; no eligible thread is marked; and a break-skip record of the
address is spent (R20, R60, R81, R85; the record: R161, log 59). -/
def Warp.Halts (W V : Warp) (run : Mask) (addr : BitVec 52) (pc : BitVec 52) : Prop :=
  V = { W with
    threads := V.threads, early := W.early.filter (fun e => e.op.isSome)
    prev := W.prev.filter (fun p => p.run &&& run == 0), rep := W.rep.filter (fun r => r.run &&& run == 0)
    skip := { W.skip with valid := W.skip.valid && W.skip.addr != addr } } ∧
  ∀ l, V.thread l = { W.thread l with
    pc := if run.getLsbD l = true then pc else (W.thread l).pc
    y := if (W.thread l).status = .eligible then false else (W.thread l).y }

end Sys2Proof.Machine

/-- R86 step 5, R88, R349: a word of group MXN or SXM that passes the checks before it and issues on class E changes nothing
but this: its threads stay at its address, or at the head of its chain, and its block freezes for migration. That the run counts
as selected, so that its marks clear, is log 59 (DEDUCED). -/
def Obligations.Migrates : Prop :=
  ∀ (s : State) (x : Slot) (i : Instr) (w : BitVec 64), encode i = some w → Issues i s x →
    x.h.pieces.all Piece.ok = true → litOk x.W x.h x.run (x.addr s) = true → x.h.bankOk = true →
    chainOk (x.chain s) x.h = true → x.h.mig = true → 128 ≤ x.W.core →
    ∃ V, exec i s = .next ((s.setWarp x.B.uid V).modBlock x.B.uid Block.freezeMig) ∧
      x.W.Halts V x.run (x.addr s) (x.resume s)

namespace Sys2Proof.Machine

/-- The word passes steps 1 to 5 of R86: its bits are legal, and its die has its group. -/
structure Slot.Legal (x : Slot) (s : State) : Prop where
  pieces : x.h.pieces.all Piece.ok = true
  lit : litOk x.W x.h x.run (x.addr s) = true
  bank : x.h.bankOk = true
  chain : chainOk (x.chain s) x.h = true
  group : x.h.mig = false ∨ x.W.core < 128

/-- The registers beyond the allotments that a word, or a half, names: those of its fields, and those that REP has stepped past the
last (R12, R69, R84). -/
def Slot.outs (x : Slot) (q : Piece) : List Nat := q.outOf x.B.a x.B.u ++ (x.W.rep.map (·.overs)).getD []

/-- The tile and the barrier that a word names are the block's (R140, R265). -/
structure Slot.Named (x : Slot) : Prop where
  tile : ∀ t, x.h.tile = some t → t < x.B.nacc
  bar : x.h.tile = none → ∀ id, x.h.bar = some id → id < x.B.nbars

/-- The lanes in which a word that reaches a register by number reaches one beyond the allotment, and that number (R123). -/
def Slot.indexBeyond (x : Slot) (s : State) (i : Instr) : Mask × (Nat → Nat) :=
  let c := x.begun s i
  let at' (f : FmtS) : Mask × (Nat → Nat) :=
    let n := indexedRegister f.b f.sub c
    (maskOf (fun l => c.exec.getLsbD l && (decide (x.B.a ≤ n l) || decide (247 < n l))), n)
  match i with
  | .ldix f => at' f
  | .stix f => at' f
  | _ => (0, fun _ => 0)

end Sys2Proof.Machine

/-- R12, R26, R69, R75, R84, R86 step 6, R123, R140, R265: a word that its die has and whose bits are legal raises REG_BOUNDS for its
run: for a tile at or beyond the block's tiles, or a barrier at or beyond its barriers, with that number in %trapaddr; for a lane
register at or beyond the allotment A, a uniform register at or beyond U, or a number that REP stepped past the last register, with the
lowest of them, %traphalf naming the half of a dual word; LDIX and STIX for the lanes whose index reaches beyond A, with the lowest such
lane's number (that a field beyond A comes before an index is log 51, DEDUCED). -/
def Obligations.RegisterBounds : Prop :=
  ∀ (s : State) (x : Slot) (i : Instr) (w : BitVec 64), encode i = some w → Issues i s x → x.Legal s →
    (∀ t, x.h.tile = some t → x.B.nacc ≤ t → exec i s = .next (x.trapped s causeRegBounds 0 t x.run)) ∧
    (∀ id, x.h.tile = none → x.h.bar = some id → x.B.nbars ≤ id → exec i s = .next (x.trapped s causeRegBounds 0 id x.run)) ∧
    (x.Named → (∀ n, (∃ q ∈ x.h.pieces, n ∈ x.outs q) → (∀ q ∈ x.h.pieces, ∀ m ∈ x.outs q, n ≤ m) →
      exec i s = .next (x.trapped s causeRegBounds (halfCode (x.h.pieces.map (fun q => !(x.outs q).isEmpty))) n x.run)) ∧
      ((∀ q ∈ x.h.pieces, x.outs q = []) → ∀ l, lowestLane (x.indexBeyond s i).1 = some l →
        exec i s = .next (x.trapped s causeRegBounds 0 ((x.indexBeyond s i).2 l) (x.indexBeyond s i).1)))

namespace Sys2Proof.Machine

/-- The word passes steps 1 to 6 of R86. -/
structure Slot.Passes (x : Slot) (s : State) (i : Instr) : Prop extends x.Legal s where
  named : x.Named
  outs : ∀ q ∈ x.h.pieces, x.outs q = []
  index : (x.indexBeyond s i).1 = 0

/-- The registers a word reaches by number, read and written (R123). -/
def Slot.reached (x : Slot) (s : State) (i : Instr) : List Loc × List Loc :=
  let c := x.begun s i
  let at' (f : FmtS) : List Loc := (lanesOf c.exec).map (fun l => .lane (indexedRegister f.b f.sub c l))
  match i with
  | .ldix f => (at' f, [])
  | .stix f => ([], at' f)
  | _ => ([], [])

/-- The lanes whose lane registers a word reads: its executing lanes, but for the words that read one lane, or other lanes too. -/
def Slot.readLanes (x : Slot) (s : State) (i : Instr) : Mask :=
  let c := x.begun s i
  match i with
  | .movwLane f => maskOf (fun l => l == f.c.toNat)
  | .movwFirst _ => maskOf (fun l => l == (lowestLane c.run).getD 0)
  | .xlane f => c.exec ||| maskOf (fun j => (lanesOf c.exec).any (fun l => xlaneReads f c l == j))
  | .mma _ => BitVec.allOnes 32
  | .mwr _ => BitVec.allOnes 32
  | .stfrag _ => BitVec.allOnes 32
  | .sxapp _ => BitVec.allOnes 32
  | _ => c.exec

/-- A location for which a word, or a half, of checked mode raises HAZARD (R64): one that it reads whose ALU result is not due, or one
that it reads or writes of a flagged operation for which no word has waited since. -/
def Slot.Hazard (x : Slot) (s : State) (i : Instr) (q : Piece) (loc : Loc) : Prop :=
  (loc ∈ q.reads ++ (x.reached s i).1 ∧ ((x.begun s i).W.due loc).isSome = true) ∨
  (loc ∈ q.reads ++ (x.reached s i).1 ++ q.writes ++ (x.reached s i).2 ∧ ∃ f, (f, loc) ∈ (x.begun s i).W.unwaited)

/-- A register with a double-bit error that a word, or a half, reads (R160). -/
def Slot.Spoilt (x : Slot) (s : State) (i : Instr) (q : Piece) : Prop :=
  ∃ loc ∈ q.reads ++ (x.reached s i).1, match loc with
    | .lane n => ∃ l, l < 32 ∧ (x.readLanes s i).getLsbD l = true ∧ 32 * n + l ∈ (x.begun s i).W.badV
    | .uni n => n ∈ (x.begun s i).W.badW
    | .pred _ => False

/-- A word about to issue, or a later one of the chain that it would open, that a breakpoint of its core matches, with the half matched
(R161, Table 5.7); the warp's break-skip record does not suppress it. -/
def Slot.Breaks (x : Slot) (s : State) (i : Instr) (p : BitVec 52 × Instr) (half : Bool) : Prop :=
  (p = (x.addr s, i) ∨ ((x.site s).1.iter = none ∧ p ∈ (s.chainAhead x.W.core x.B.ctx (x.addr s) 8).tail)) ∧
  x.W.skip ≠ ⟨true, p.1, half, BitVec.ofNat 6 ((x.site s).1.iter.getD 0)⟩ ∧
  ∃ b ∈ (s.core x.W.core).bps, let c := b.ctl.toNat
    c % 2 = 1 ∧ b.addr.toNat / 8 % 2 ^ 49 * 8 = p.1.toNat ∧ (c / 2 ^ 17 % 2 = 1 → c / 2 ^ 18 % 2 ^ 6 = x.B.ctx) ∧
    (∀ k, (x.site s).1.iter = some k → c / 2 ^ 10 % 2 = 1 ∨ c / 2 ^ 11 % 2 ^ 6 = k) ∧
    ((c / 2 ^ 8 % 4 = 0 ∧ half = false) ∨ (isDual p.2 = true ∧ c / 2 ^ 8 % 4 = 1 ∧ half = false) ∨
      (isDual p.2 = true ∧ c / 2 ^ 8 % 4 = 2 ∧ half = true))

end Sys2Proof.Machine

/-- R64, R86 step 7: in checked mode a word that reads a result before its latency, or reads or writes a register of a flagged operation
for which no word has waited, raises HAZARD before it takes effect, with the lowest register code in %trapaddr (that the test is by
register, and a wait counts by flag, is logs 51 and 61, DEDUCED; what stands there for predicates alone is free, log 18). R160: a word
that reads a register with a double-bit error raises POISON, which is counted on its die (R454); what %trapaddr and %trapaux hold is
free (log 24). R161: a breakpoint that matches a word about to issue, or a later word of the chain it would open, raises BREAK before
any effect, with the word, the half and the iteration recorded, the run to resume there or at the chain's head, and the break-skip
record set on entry: to a debugger, which halts the block and writes no trap register, or to the handler; of several matches which one
is recorded is not stated. R83: a REP target that is a dual word, of no format A, I or M, that transfers control or traps, a field of
which the mask names though it is not there or holds a code of 0xF8 or above, or that is illegal by itself, is ILLEGAL (that both halves
of a dual word are recorded is log 51, DEDUCED). -/
def Obligations.IssueTraps : Prop :=
  (∀ (s : State) (x : Slot) (i : Instr) (w : BitVec 64) (hs ps : List Bool), encode i = some w → Issues i s x → x.Passes s i →
    let checked : Bool := ((s.launch? x.B.launch).map (fun L => (nth 0 L.record 1).getLsbD 61)).getD false
    hs.length = x.h.pieces.length → (∀ (k : Nat) (q : Piece) (b : Bool), x.h.pieces[k]? = some q → hs[k]? = some b → (b = true ↔ ∃ loc, x.Hazard s i q loc)) →
    ps.length = x.h.pieces.length → (∀ (k : Nat) (q : Piece) (b : Bool), x.h.pieces[k]? = some q → ps[k]? = some b → (b = true ↔ x.Spoilt s i q)) →
    (checked = true → true ∈ hs → ∃ n, exec i s = .next (x.trapped s causeHazard (halfCode hs) n x.run) ∧
      (∀ q ∈ x.h.pieces, ∀ loc, x.Hazard s i q loc → ∀ k, loc.trapCode = some k → n ≤ k ∧
        ∃ p ∈ x.h.pieces, ∃ l, x.Hazard s i p l ∧ l.trapCode = some n)) ∧
    (checked = false ∨ true ∉ hs → true ∈ ps → ∃ addr aux,
      exec i s = .next ((x.trapped s causePoison (halfCode ps) addr aux).count 2 (x.W.core / 64)))) ∧
  (∀ (s : State) (x : Slot) (i : Instr) (w : BitVec 64), encode i = some w → AtIssue i s x → s.mayIssue x.B x.W = true →
    x.W.ready (s.clockOf x.W.core) x.k x.h.setf = true → x.chain s = none → (∀ f, i = .rep f → x.W.repc = 0) →
    (∃ p half, x.Breaks s i p half) → ∃ p half, x.Breaks s i p half ∧
      let iter := (x.site s).1.iter.getD 0
      let code : BitVec 3 := if isDual p.2 = true then (if half then 3 else 2) else 0
      let noted : BreakSkip := ⟨true, p.1, half, BitVec.ofNat 6 iter⟩
      (s.debugger = false → exec i s = .next ((s.modWarp x.B.uid x.W.idx (fun W =>
        { W.unmarked with skip := if W.handler = 0 then noted else W.skip })).takeTrap x.B.uid x.W.idx
          ⟨causeBreak, p.1, code, iter, x.run, x.run, x.resume s, x.resume s⟩)) ∧
      (s.debugger = true → ∃ (t : State) (C : Block) (V : Warp), exec i s = .next t ∧ (∀ a, t.mem.byte a = s.mem.byte a) ∧
        t.block? x.B.uid = some C ∧ C.halt = (if x.B.aborted then x.B.halt else some .debugger) ∧
        t.warp? x.B.uid x.W.idx = some V ∧ V.trap = x.W.trap ∧ V.handler = x.W.handler ∧ V.skip = noted ∧ V.v = x.W.v ∧ V.w = x.W.w ∧
        ∀ l, V.thread l = { x.W.thread l with
          pc := if x.run.getLsbD l = true then x.resume s else (x.W.thread l).pc
          y := if (x.W.thread l).status = .eligible then false else (x.W.thread l).y })) ∧
  (∀ (s : State) (x : Slot) (r : RepRun) (rep : FmtS) (target : BitVec 64), Issues (.repIteration rep target) s x →
    x.W.rep = some r →
    let op := opcode target
    let fields : Nat := if (rowsA.lookup op).isSome then 4 else 2
    (target.getLsbD 15 = true ∨ op = 0x0C0 ∨ op = 0x0C1 ∨ op = 0x0C2 ∨ op = 0x0C9 ∨
        ((rowsA.lookup op).isNone = true ∧ (rowsI.lookup op).isNone = true ∧ (rowsM.lookup op).isNone = true) ∨
        (∃ k, k < 8 ∧ rep.b.getLsbD k = true ∧ (fields ≤ k ∨ 0xF8 ≤ target.toNat / 2 ^ (29 + 8 * k) % 256)) ∨
        (∃ h, shapeOf (decodeWord target) = some h ∧ h.pieces.all Piece.ok = false)) →
      exec (.repIteration rep target) s = .next (x.trapped s causeIllegal (if target.getLsbD 15 then 6 else 0) 0 0))

/-! ## Control flow -/

/-- R126, R127, R467: BRX, its relative form and RET branch when bits 63:52 of every executing lane's target are zero and its
bits 2:0 too; else the word traps, MEM_PROT for the lanes whose bits 63:52 are not zero before MISALIGN for those that are
not word-aligned, with the lowest such lane's target in %trapaddr. R124, R125: BRA sends the executing lanes to PC + 8 + 8 ×
sext(IMM19), of which the model keeps 52 bits (the choice of log 51); CALL first writes the return address PC + 8 to the pair DST.
R22, R129: YIELD sets the yield mark of the executing threads; NOP changes nothing more. -/
def Obligations.Branches : Prop :=
  (∀ (s : State) (x : Slot) (i : Instr) (g : Iss → Nat → Dword), indirectTarget i = some g → Clear i plainCheck s x →
    let c := x.ctx s i plainCheck none
    let high := maskOf (fun l => c.exec.getLsbD l && decide (2 ^ 52 ≤ (g c l).toNat))
    let low := maskOf (fun l => c.exec.getLsbD l && decide ((g c l).toNat % 8 ≠ 0))
    match (List.range 32).find? high.getLsbD, (List.range 32).find? low.getLsbD with
    | some l, _ => exec i s = .next (x.trapped s causeMemProt 0 (g c l).toNat high)
    | none, some l => exec i s = .next (x.trapped s causeMisalign 0 (g c l).toNat low)
    | none, none =>
      ∃ (t : State) (V : Warp), exec i s = .next t ∧ x.Only s t (x.after s V) ∧ V = { c.W with threads := V.threads } ∧
        ThreadsGo c.W V c.exec (fun l => (g c l).setWidth 52)) ∧
  (∀ (s : State) (x : Slot) (f : FmtI),
     (Clear (.bra f) plainCheck s x →
       let c := x.ctx s (.bra f) plainCheck none
       ∃ (t : State) (V : Warp), exec (.bra f) s = .next t ∧ x.Only s t (x.after s V) ∧ V = { c.W with threads := V.threads } ∧
         ThreadsGo c.W V c.exec (fun _ => BitVec.ofInt 52 (c.pc.toNat + 8 + 8 * f.imm.toInt))) ∧
     (Clear (.call f) plainCheck s x →
       let c := x.ctx s (.call f) plainCheck none
       ∃ (t : State) (V : Warp), exec (.call f) s = .next t ∧ x.Only s t (x.after s V) ∧
         V = { c.W with threads := V.threads, v := V.v, early := V.early } ∧
         c.W.LanesTake V (to64 f.dst c.exec (fun _ => BitVec.ofNat 64 ((c.pc.toNat + 8) % 2 ^ 52))) ∧
         (f.dst.toNat < 0xF8 → V.due (.lane f.dst.toNat) = some 4 ∧ V.due (.lane (f.dst.toNat + 1)) = some 4) ∧
         ThreadsGo c.W V c.exec (fun _ => BitVec.ofInt 52 (c.pc.toNat + 8 + 8 * f.imm.toInt)))) ∧
  (∀ (s : State) (x : Slot) (f : FmtS),
     (Clear (.yield f) plainCheck s x →
       let c := x.ctx s (.yield f) plainCheck none
       ∃ (t : State) (V : Warp), exec (.yield f) s = .next t ∧ x.Only s t (x.after s V) ∧ V = { c.W with threads := V.threads } ∧
         ∀ l, V.thread l = { c.W.thread l with y := c.exec.getLsbD l || (c.W.thread l).y }) ∧
     (Clear (.nop f) plainCheck s x →
       ∃ t : State, exec (.nop f) s = .next t ∧ x.Only s t (x.after s (x.ctx s (.nop f) plainCheck none).W)))

/-- R82, R83, R84: LIT leaves its literal for the next word; REP starts a sequence of A + 1 iterations for its run, or
resumes one whose count %repc is not zero, and its threads stay at the REP word. -/
def Obligations.LitRep : Prop :=
  (∀ (s : State) (x : Slot) (f : FmtL), Clear (.lit f) plainCheck s x →
    let c := x.ctx s (.lit f) plainCheck (some f.lit)
    ∃ t : State, exec (.lit f) s = .next t ∧ x.Only s t (x.after s c.W) ∧ c.W.prev.bind (·.lit) = some f.lit) ∧
  (∀ (s : State) (x : Slot) (f : FmtS), Clear (.rep f) plainCheck s x → x.W.rep = none →
    let c := x.ctx s (.rep f) plainCheck none
    ∃ (t : State) (V : Warp), exec (.rep f) s = .next t ∧ x.Only s t V ∧
      V = { c.W with threads := V.threads, repc := V.repc, rep := V.rep } ∧
      ThreadsGo c.W V c.run (fun _ => x.pc) ∧
      V.repc = (if x.W.repc = 0 then BitVec.ofNat 7 (f.a.toNat + 1) else x.W.repc) ∧ V.rep = some ⟨x.run, f, []⟩)

/-- R84: an iteration of a legal target runs the target with its fields stepped, in a state that notes the registers stepped
past the last; when that word completes, %repc has counted down, and the sequence ends with the last iteration. In iteration i a field
that the mask names holds its encoded number + i × step, and no other field changes; a lane register beyond 247, or a uniform register
beyond 63, is noted instead. -/
def Obligations.RepIteration : Prop :=
  ∀ (s : State) (B : Block) (W : Warp) (r : RepRun) (rep : FmtS) (target t : BitVec 64) (overs : List Nat),
    s.current = some (B, W) → W.rep = some r → targetOk rep target = true →
    steppedTarget rep target (W.iteration s.fresh rep) = some (t, overs) →
    let s1 := s.setWarp B.uid { W with rep := some { r with overs := overs } }
    let stepped (k : Nat) : Nat := wordField target k + W.iteration s.fresh rep * rep.c.toNat
    let beyond (k n : Nat) : Prop := k < 8 ∧ rep.b.getLsbD k = true ∧
      ((isLaneField target k = true ∧ 247 < stepped k ∧ n = stepped k) ∨
        (isLaneField target k = false ∧ isUniField target k = true ∧ 63 < stepped k ∧ n = 0x100 + stepped k))
    exec (.repIteration rep target) s = exec (decodeWord t) s1 ∧ (∀ n, n ∈ overs ↔ ∃ k, beyond k n) ∧
    (∀ k, k < 4 → rep.b.getLsbD k = false → wordField t k = wordField target k) ∧
    (∀ k, k < 4 → rep.b.getLsbD k = true → (∀ n, ¬beyond k n) → wordField t k = stepped k) ∧
    (∀ n, n < 29 ∨ 61 ≤ n → t.getLsbD n = target.getLsbD n) ∧
    ∀ (x : Slot) (dst : BitVec 8) (g : Iss → Nat → Word), integerValue (decodeWord t) = some (dst, g) →
      Clear (decodeWord t) plainCheck s1 x →
      ∃ (u : State) (V : Warp), exec (.repIteration rep target) s = .next u ∧ u.warp? B.uid W.idx = some V ∧ V.repc = W.repc - 1 ∧
        (V.rep = if W.repc = 1 then none else some { r with overs := overs }) ∧
        (x.ctx s1 (decodeWord t) plainCheck none).W.LanesTake V
          (to32 dst (x.ctx s1 (decodeWord t) plainCheck none).exec (g (x.ctx s1 (decodeWord t) plainCheck none)))

/-! ## Exceptions -/

/-- R133, R134: TRAP raises USER with the number IMM19 for the executing threads, and does nothing where there are none; BRK
raises BREAK for the run. The threads that trap resume after the word; the others have moved on. Where the causes of Table
3.18 go: to the handler, to a debugger, or to the block's abort; MEM_FAULT goes to the host (R143, R177): the warp's word is held
on one fault record for each page of its failing lanes, no trap register is written, and nothing else changes (what the held
word records, for a fatal verdict to report, is log 49, DEDUCED); the held warp issues no word. -/
def Obligations.TrapWords : Prop :=
  ((∀ (s : State) (x : Slot) (f : FmtI), Clear (.trap f) plainCheck s x →
     let c := x.ctx s (.trap f) plainCheck none
     if c.exec = 0 then ∃ t : State, exec (.trap f) s = .next t ∧ x.Only s t (x.after s c.W)
     else exec (.trap f) s = .next ((s.setWarp x.B.uid c.W).takeTrap x.B.uid x.W.idx
       ⟨causeUser, x.addr s, 0, f.imm.toNat, c.exec, c.exec, (x.site s).2, (x.site s).1.pc⟩)) ∧
   (∀ (s : State) (x : Slot) (f : FmtS), Clear (.brk f) plainCheck s x →
     let c := x.ctx s (.brk f) plainCheck none
     exec (.brk f) s = .next ((s.setWarp x.B.uid c.W).takeTrap x.B.uid x.W.idx
       ⟨causeBreak, x.addr s, 0, 0, x.run, x.run, (x.site s).2, (x.site s).1.pc⟩))) ∧
  ((∀ n, n ∈ [0x05, 0x06, 0x09, 0x0A, 0x0B, 0x0C, 0x0E] → destOf n = .handlerElseAbort) ∧ destOf 0x0D = .debugger ∧
   (∀ n, n ∈ [0x01, 0x02, 0x03, 0x08, 0x0F, 0x10, 0x11, 0x12, 0x13, 0x14] → destOf n = .abort)) ∧
  (∀ (s : State) (B : Block) (W : Warp) (w kind : Nat) (vas : List Nat) (r : TrapRegs),
    s.block? B.uid = some B → s.warp? B.uid w = some W → vas ≠ [] →
    ∃ (t : State) (V : Warp), s.holdOn B w kind vas r = t.setWarp B.uid V ∧
      t = { s with faults := t.faults, nextUid := t.nextUid } ∧ V = { W with held := V.held, heldTrap := r } ∧
      (∀ f ∈ s.faults, f ∈ t.faults) ∧
      (∀ va ∈ vas, ∃ f ∈ t.faults, f.ctx = B.ctx ∧ f.page = va / 4096 ∧ f.kind = kind ∧ (B.ctx, f.num) ∈ V.held) ∧
      (∀ h ∈ V.held, ∃ f ∈ t.faults, h = (B.ctx, f.num) ∧ f.ctx = B.ctx ∧ f.kind = kind ∧ ∃ va ∈ vas, f.page = va / 4096) ∧
      ∀ (u : State) (C : Block), u.mayIssue C V = false)

/-- R135: a trap whose cause goes to the handler, of a block with a handler and a warp whose H is 0: the trap registers take
the record, %trapret the resume address, H the trapping threads, which go to the handler's entry with Y = 0. Nothing else of
the machine changes; results in flight are complete, and an open chain, literal or REP sequence of those threads ends. R135: a trap of a
thread in H ends its chain and aborts the block; a run that shares no thread with H ≠ 0 parks at its re-issue point. -/
def Obligations.TrapEntry : Prop :=
  (∀ (s : State) (B : Block) (W : Warp) (w : Nat) (L : Launch) (t : Trap),
     s.block? B.uid = some B → s.warp? B.uid w = some W → s.launch? B.launch = some L → L.handler ≠ 0 →
     (destOf t.cause = .handlerElseAbort ∨ (destOf t.cause = .debugger ∧ s.debugger = false)) → W.handler = 0 →
     ∃ V, s.takeTrap B.uid w t = s.setWarp B.uid V ∧
       V = { W with
         threads := V.threads, early := W.early.filter (fun e => e.op.isSome)
         prev := W.prev.filter (fun p => p.run &&& t.run == 0), rep := W.rep.filter (fun r => r.run &&& t.run == 0)
         handler := t.run,
         trap := ⟨BitVec.ofNat 8 t.cause, t.pc, t.half, BitVec.ofNat 64 t.addr, t.aux, t.resume⟩ } ∧
       ∀ l, V.thread l = if t.run.getLsbD l = true
         then { W.thread l with pc := BitVec.ofNat 52 L.handler, y := false } else W.thread l) ∧
  (∀ (s : State) (B : Block) (W : Warp) (w : Nat) (L : Launch) (t : Trap),
     s.block? B.uid = some B → s.warp? B.uid w = some W → s.launch? B.launch = some L → L.handler ≠ 0 →
     destOf t.cause = .handlerElseAbort → W.handler ≠ 0 →
     (W.handler &&& t.run ≠ 0 → s.takeTrap B.uid w t = (s.modWarp B.uid w (Warp.quiesce t.run)).abortBlock B.uid w t.regs) ∧
     (W.handler &&& t.run = 0 → ∃ V, s.takeTrap B.uid w t = s.setWarp B.uid V ∧ V.trap = W.trap ∧ V.handler = W.handler ∧
       ∀ l, V.thread l = if t.run.getLsbD l = true
         then { W.thread l with pc := t.reissue, status := .parked .handler } else W.thread l))

/-- R148, R378: a block abort: no further word of the block may issue but those that end an open chain, the aborting warp's trap registers take the cause but
%trapret, the launch counts one block more, and no byte of memory changes but in the 64-byte slot of the context's abort
ring. That an open chain still runs to its end is log 25 (DEDUCED). -/
def Obligations.BlockAborts : Prop :=
  ∀ (s : State) (B : Block) (W : Warp) (w : Nat) (t : TrapRegs),
    s.block? B.uid = some B → s.warp? B.uid w = some W → B.aborted = false →
    ∃ C V, (s.abortBlock B.uid w t).block? B.uid = some C ∧ C.halt = some (.abort t.cause.toNat) ∧
      (∀ U ∈ C.warps, (s.abortBlock B.uid w t).mayIssue C U = true →
        U.rep = none ∧ ((s.abortBlock B.uid w t).boundRun C U).isSome = true) ∧
      (s.abortBlock B.uid w t).warp? B.uid w = some V ∧ V.trap = { t with ret := W.trap.ret } ∧
      (∀ l, (s.abortBlock B.uid w t).launch? l = (s.launch? l).map (fun L =>
        if L.uid = B.launch then { L with aborted := L.aborted + 1 } else L)) ∧
      ∀ a, (∀ k, k < 64 → s.access none B.ctx ((bitsN (tget 0 s.host.cabt B.ctx).toNat 51 6 * 64 +
          64 * ((tget 0 s.host.abtWr B.ctx).toNat % 2 ^ ((tget 0 s.host.cabt B.ctx).toNat % 16 + 4))) + k) .write ≠
          .mem a) →
        (s.abortBlock B.uid w t).mem.byte a = s.mem.byte a

/-- R136: RET.h is ILLEGAL when H is 0 or the run holds a thread outside H, and MISALIGN when %trapret is no multiple of 8;
else the threads of the run go to %trapret and leave H, and when H becomes 0 the threads parked behind the handler wake. EXIT
takes its threads out of H too. R19: the threads that execute EXIT exit, and what their exit releases follows. -/
def Obligations.HandlerReturnAndExit : Prop :=
  (∀ (s : State) (x : Slot) (f : FmtS), Clear (.retH f) plainCheck s x →
     let c := x.ctx s (.retH f) plainCheck none
     if x.W.handler = 0 ∨ x.run &&& ~~~x.W.handler ≠ 0 then exec (.retH f) s = .next (x.trapped s causeIllegal 0 0 0)
     else if x.W.trap.ret.toNat % 8 ≠ 0 then
       exec (.retH f) s = .next (x.trapped s causeMisalign 0 x.W.trap.ret.toNat x.run)
     else ∃ (t : State) (V : Warp), exec (.retH f) s = .next t ∧ x.Only s t (x.after s V) ∧
       V = { c.W with threads := V.threads, handler := V.handler } ∧ V.handler = x.W.handler &&& ~~~x.run ∧
       ∀ l, V.thread l = { c.W.thread l with
         pc := if x.run.getLsbD l = true then x.W.trap.ret else (c.W.thread l).pc
         status := if V.handler = 0 ∧ (c.W.thread l).status = .parked .handler then .eligible
           else (c.W.thread l).status }) ∧
  (∀ (s : State) (x : Slot) (f : FmtS), Clear (.exit f) plainCheck s x →
    ∃ (t : State) (V : Warp), exec (.exit f) s = .next t ∧ t.warp? x.B.uid x.W.idx = some V ∧
      V.handler = x.W.handler &&& ~~~(x.ctx s (.exit f) plainCheck none).exec ∧
      (V.handler = 0 → ∀ l, l < 32 → (V.thread l).status ≠ .parked .handler)) ∧
  (∀ (s : State) (x : Slot) (f : FmtS), Clear (.exit f) plainCheck s x →
    let c := x.ctx s (.exit f) plainCheck none
    ∃ V, exec (.exit f) s = .next (x.closed s ((s.setWarp x.B.uid V).afterExit x.B.uid x.W.idx c.exec c.pc)) ∧
      V = { c.W with threads := V.threads } ∧
      ∀ l, V.thread l = { c.W.thread l with
        status := if c.exec.getLsbD l = true then .exited else (c.W.thread l).status })

/-- R128, R300: a run whose word cannot be fetched: no translation holds the run on a fault record of the page, its threads
standing at the word, or at the LIT before it (R82), and nothing of memory changes; an address that may not be fetched raises
MEM_PROT, and a poisoned unit POISON, each of which aborts the block (Table 3.18). What %trapaddr and %trapaux hold is not stated
(free, log 21). That the run counts as selected is log 59 (DEDUCED). -/
def Obligations.FetchFaults : Prop :=
  ∀ (s : State) (B : Block) (W : Warp) (run : Mask) (pc : BitVec 52), s.current = some (B, W) → W.rep = none →
    s.runOf B W = some (run, pc) → s.mayIssue B W = true →
    let s1 := (s.modWarp B.uid W.idx (Warp.chosen pc)).modWarp B.uid W.idx (Warp.quiesce run)
    (s.fetch W.core B.ctx pc = .prot → ∃ addr aux, exec .instructionFetchFault s =
      .next (s1.abortBlock B.uid W.idx ⟨8, pc, 0, addr, aux, 0⟩)) ∧
    (s.fetch W.core B.ctx pc = .poison → ∃ addr aux, exec .instructionFetchFault s =
      .next (s1.abortBlock B.uid W.idx ⟨20, pc, 0, addr, aux, 0⟩)) ∧
    (s.fetch W.core B.ctx pc = .fault → ∃ (t : State) (V : Warp), exec .instructionFetchFault s = .next t ∧
      t.mem = s.mem ∧ t.warp? B.uid W.idx = some V ∧
      { W with held := V.held, heldTrap := V.heldTrap }.Halts V run pc (resumeAt W none run ⟨pc, pc, none⟩) ∧
      (W.prev.bind (·.lit) = none → resumeAt W none run ⟨pc, pc, none⟩ = pc) ∧
      V.heldTrap.cause = 7 ∧ V.heldTrap.pc = pc ∧
      (∀ b w, ¬(b = B.uid ∧ w = W.idx) → t.warp? b w = s.warp? b w) ∧
      (∃ r ∈ t.faults, V.held = [(B.ctx, r.num)] ∧ r.ctx = B.ctx ∧ r.page = pc.toNat / 4096 ∧ r.kind = 2))

/-! ## Words and their encodings -/

namespace Sys2Proof.Machine

/-- Words of the spec's examples, and what each says in its chapter. -/
def exampleWords : List (BitVec 64 × Instr) :=
  [(0x00E0C0A094490013, .ffmaRz ⟨⟨3, 2⟩, 2, true, 4, 5, 6, 7, false, false, false⟩),
   (0x34C24D0C20408001, .dualWord ⟨1, 0⟩ ⟨0x00, 1, 2, 3⟩ ⟨0x0D, 9, 12, 13⟩),
   (0x0000400002C00004, .bra ⟨⟨4, 0⟩, 1, false, 0, 0, 2⟩),
   (0x01E000E08ECB0001, .rdsr ⟨⟨1, 0⟩, 7, false, 4, 7, 0, 15, 0⟩),
   (0x020101410F050001, .ldLane .w64 ⟨⟨1, 0⟩, 7, false, 8, 10, 8, 1, 0, false⟩),
   (0x0CA4C404EF2C0004, .atom ⟨⟨4, 0⟩, 7, false, 0x27, 0x20, 0x26, 5, 6⟩),
   (0x001020080F810001, .mma ⟨⟨1, 0⟩, 7, false, 0, 8, 32, false, false, false, false, true, 0, 0, 0⟩),
   (0x180001000F850001, .attn ⟨⟨1, 0⟩, 7, false, 0, 8, 0, 0, 12⟩),
   (0x0042A1028F870001, .psel ⟨⟨1, 0⟩, 7, false, 20, 8, 21, 2, 0⟩),
   (0x0A6080704FC60001, .ttakWait ⟨⟨1, 0⟩, 7, false, 0x82, 3, 4, 3, 5⟩),
   (0x00832080CFC90001, .sxapp ⟨⟨1, 0⟩, 7, false, 6, 4, 25, 4, 0⟩),
   (0x0040C0802FD40001, .pgdemote ⟨⟨1, 0⟩, 7, false, 1, 4, 6, 2, 0⟩),
   (0x00A0C0804FD80001, .launch ⟨⟨1, 0⟩, 7, false, 2, 4, 6, 5, 0⟩)]

end Sys2Proof.Machine

/-- The words of the spec's examples decode to the instructions they stand for. -/
def Obligations.ExampleWords : Prop :=
  ∀ p ∈ exampleWords, decode (bytesOfWord p.1) = .ok (p.2, [])

/-- Decoding and encoding agree: the bytes of every well-formed instruction that has a word decode to it, whatever bytes
follow. -/
def Obligations.EncodeDecodes : Prop :=
  ∀ (i : Instr) (w : BitVec 64) (rest : List (BitVec 8)), i.wellFormed = true → encode i = some w →
    decode (bytesOfWord w ++ rest) = .ok (i, rest)

/-- R56, R87: every eight bytes are one word, of one instruction, which encodes as that word; it is the instruction of
unassigned words exactly for the words of no assigned operation; fewer than eight bytes are no word. -/
def Obligations.DecodeTotal : Prop :=
  (∀ w : BitVec 64, (decodeWord w).wellFormed = true ∧ encode (decodeWord w) = some w ∧
    (unassignedWord w = true ↔ decodeWord w = .unassignedOpcode w)) ∧
  (∀ (w : BitVec 64) (rest : List (BitVec 8)), decode (bytesOfWord w ++ rest) = .ok (decodeWord w, rest)) ∧
  (∀ bs : List (BitVec 8), bs.length < 8 → decode bs = .error .truncated)

/-! ## The step -/

namespace Sys2Proof.Machine

/-- From s to u slices fill lines (R300, R301) and nothing else happens: bytes and all else of memory stay, units with an error
not yet met may become poisoned or be corrected, and the counts of errors and of activates go on. -/
structure Filled (s u : State) : Prop where
  rest : u = { s with
    mem := { s.mem with poison := u.mem.poison, bad := u.mem.bad, weak := u.mem.weak }
    dies := u.dies, tel := { s.tel with life := u.tel.life, sources := u.tel.sources } }
  dies : ∀ d, u.die d = { s.die d with acts := (u.die d).acts, refreshes := (u.die d).refreshes }
  poison : ∀ n, (n ∈ u.mem.poison ↔ n ∈ s.mem.poison ∨ n ∈ s.mem.bad ∧ n ∉ u.mem.bad)
  fewer : (∀ n ∈ u.mem.bad, n ∈ s.mem.bad) ∧ (∀ n ∈ u.mem.weak, n ∈ s.mem.weak)

end Sys2Proof.Machine

/-- A step runs the instruction of its turn: first time passes, the clocks of the dies with it, and the epoch boundaries passed (R130,
R131, R318), and the slices may activate rows and fill lines of their own (log 60, DESIGN CHOICE), as may abort records and signals that
waited for their memory be written (log 34, DEDUCED); a module that has tripped does neither (R371). Then, on a sub-partition's turn, the
warp R150 selects issues the word whose bytes stand at the address its next run is at (the word after it in a REP sequence), or takes the
fetch fault of that address, the fetch having changed no byte of memory; with no warp to issue, nothing more happens. On any other
agent's turn the step is that agent's. -/
def Obligations.StepRunsWord : Prop :=
  ∀ (s : State),
    let s1 := s.beginTurn s.nextTurn
    let passed := (s.time + s.nextTurn.ticks.ns) / 65536 - s.epoch
    let ticks := s.nextTurn.ticks
    (∃ s0 : State, s0 = ({ s with
        dies := s0.dies, time := s.time + ticks.ns, fresh := s.fresh + 1, schedule := s.schedule.tail, tel := s0.tel } : State).passEpochs
          (if s.nextTurn.act = .event .epochBoundary then passed - 1 else passed) ∧
      (∀ a, s0.mem.byte a = s.mem.byte a) ∧
      (s.dies.length = 4 → ∀ d, d < 4 →
        let n := if s.tripped then 0 else nth 0 [ticks.d0, ticks.d1, ticks.d2, ticks.d3] d
        s0.die d = { s.die d with clock := (s.die d).clock + n }) ∧
      s0.tel = { s.tel with hist := s0.tel.hist } ∧
      (s.time / 1000000 = (s.time + ticks.ns) / 1000000 → s0.tel = s.tel) ∧
      (s.tripped = true → s1 = s0) ∧
      (s.tripped = false → s.host.abtHeld = [] → s.host.sigHeld = [] → Filled s0 s1)) ∧
    (∀ t r, s.schedule = t :: r → s.nextTurn = t) ∧
    (∀ i, s.nextTurn.act = .event i → step s = exec i { s1 with cur := none }) ∧
    (∀ core subp, s.nextTurn.act = .issue core subp → coreIdValid core = true → subp < 4 → s1.tripped = false →
      (s1.selectWarp core subp = none → step s = .next { s1 with cur := none }) ∧
      ∀ (B : Block) (W : Warp) (run : Mask) (pc : BitVec 52), s1.selectWarp core subp = some (B, W) →
        s1.runOf B W = some (run, pc) →
        let at' : BitVec 52 := if W.rep.isSome then pc + 8 else pc
        let s2 : State := { s1.fetched core B.ctx at' (s1.makeCurrent core subp B W) with cur := some ⟨B.uid, W.idx⟩ }
        ((∀ a, s2.mem.byte a = s1.mem.byte a) ∧ s2.blocks = (s1.makeCurrent core subp B W).blocks ∧ s2.allocs = s1.allocs) ∧
        (∀ (loc : Nat) (i : Instr) (rest : List (BitVec 8)),
          s1.access (some (coreCluster W.core)) B.ctx at'.toNat .fetch = .mem loc → s1.mem.poisoned loc 8 = false →
          s1.mem.bad.contains (loc / 16) = false → decode (s1.mem.read loc 8 ++ rest) = .ok (i, rest) →
          (W.rep = none → step s = exec i s2) ∧
          (∀ r t, W.rep = some r → decodeWord t = i → bytesOfWord t = s1.mem.read loc 8 →
            step s = exec (.repIteration r.word t) s2)) ∧
        ((∀ w, s1.fetch W.core B.ctx at' ≠ .word w) → step s = exec .instructionFetchFault s2))

/-- R20: the head run: the eligible threads of the least yield mark and, among those, of the least PC; none when no thread is
eligible. R150: a locked warp, or no other, issues when it is ready; else a warp that is ready: the holder of the commit token
before the current warp, which has issued fewer than 16 words, before the first in slot order after it, wrapping round. The
current warp's count goes on; a new one begins at 1, and the previous one loses its latches and its chain. -/
def Obligations.RunsAndSelection : Prop :=
  (∀ (W : Warp),
    ((∀ l, l < 32 → (W.thread l).status ≠ .eligible) → W.headRun = none) ∧
    ∀ l, l < 32 → (W.thread l).status = .eligible →
      ∃ run pc y, W.headRun = some (run, pc) ∧ (∃ k, k < 32 ∧ run.getLsbD k = true) ∧
        ∀ k, k < 32 →
          (run.getLsbD k = true ↔ (W.thread k).status = .eligible ∧ (W.thread k).y = y ∧ (W.thread k).pc = pc) ∧
          ((W.thread k).status = .eligible → (W.thread k).y = true ∨ y = false) ∧
          ((W.thread k).status = .eligible → (W.thread k).y = y → pc.toNat ≤ (W.thread k).pc.toNat)) ∧
  (∀ (s : State) (core subp : Nat), subp < 4 → (s.subp (core * 4 + subp)).slot < 64 →
    let sp := s.subp (core * 4 + subp)
    let ready (x : Block × Warp) : Prop := x ∈ s.subpWarps core subp ∧ s.warpReady x.1 x.2 = true
    let cur (x : Block × Warp) : Prop := sp.cur = some (x.1.uid, x.2.idx)
    let after (x : Block × Warp) : Nat := (x.2.slot + 63 - sp.slot) % 64
    (∀ B W, s.locked core subp = some (B, W) →
      s.selectWarp core subp = if s.warpReady B W = true then some (B, W) else none) ∧
    (s.locked core subp = none → (∀ x, ¬ready x) → s.selectWarp core subp = none) ∧
    (s.locked core subp = none → (∃ x, ready x) → ∃ x, s.selectWarp core subp = some x ∧ ready x ∧
      ((∃ y, ready y ∧ s.holdsToken y.1 y.2.idx = true) → s.holdsToken x.1 x.2.idx = true) ∧
      ((∀ y, ready y → s.holdsToken y.1 y.2.idx = false) →
        ((∃ y, ready y ∧ cur y) ∧ sp.g < 16 → cur x) ∧
        (¬((∃ y, ready y ∧ cur y) ∧ sp.g < 16) → ∀ y, ready y → after x ≤ after y))) ∧
    (∀ B W, ((s.makeCurrent core subp B W).subp (core * 4 + subp)) =
        ⟨some (B.uid, W.idx), (if sp.cur = some (B.uid, W.idx) then sp.g + 1 else 1), W.slot⟩ ∧
      (sp.cur ≠ some (B.uid, W.idx) → ∀ b w V, sp.cur = some (b, w) → s.warp? b w = some V → V.subpKey = core * 4 + subp →
        (s.makeCurrent core subp B W).warp? b w = some { V with prev := none, latches := [] })))

/-! ## Reset, and memory's form -/

/-- What module reset leaves, where the spec gives it: the masks and NRCTL of every die (Table 10.2), the deadlines of
pre-emption (R389), BOOTSTAT and the measurement registers (R450); no queue and no context is enabled, nothing runs. The
reset memory is in canonical form. -/
def Obligations.ResetState : Prop :=
  ((∀ d, d < 4 → (State.reset.die d).hashm =
       [0x00100080, 0x00200100, 0x00400200, 0x00800400, 0x01000800, 0x02001000, 0x04002000] ∧
     (State.reset.die d).lock = false ∧ (State.reset.die d).err = false ∧ (State.reset.die d).nrP = 5 ∧
     (State.reset.die d).nrTest = false) ∧
   (∀ p, p < 8 → nth 0 State.reset.host.pred1 p = 50 ∧ nth 0 State.reset.host.pred2 p = 5000) ∧
   State.reset.trust.bootstat = 1 ∧ (∀ k, k < 8 → nth 1 State.reset.trust.mr k = 0) ∧
   (∀ q, queueOn (State.reset.qctl q) = false) ∧ (∀ c, (tget 0 State.reset.host.cpt c).getLsbD 0 = false) ∧
   State.reset.blocks = [] ∧ State.reset.launches = []) ∧
  (Memory.wf State.reset.mem = true)

/-- Every step keeps memory in canonical form: addresses strictly rising, no entry equal to what an unlisted address reads
as. -/
def Obligations.MemoryCanonical : Prop :=
  ∀ s t : State, Memory.wf s.mem = true → step s = .next t → Memory.wf t.mem = true

/-! ## Memory words -/

namespace Sys2Proof.Machine

/-- A global access of n bytes in each executing lane (R172 to R176, R183, R192): its need and the kind of its fault
records, whether check 6 of Table 6.3 applies to it, each lane's EA, and the operation it enters once the place of each
lane's address is known. -/
structure GlobalForm where
  n : Nat
  need : Need
  rkind : Nat
  tokened : Bool
  setf : BitVec 4
  ea : Iss → Nat → Nat
  kind : OpKind
  parts : Iss → List (Nat × Nat × Nat) → List Part
  reqs : Iss → List (Nat × Nat × Nat) → List AtomReq
  locs : List Loc

/-- R174: (base + sext(OFF12) × s) mod 2⁶⁴. -/
def globalEa (base : Dword) (off : BitVec 12) (n : Nat) : Nat := (BitVec.ofInt 64 (base.toNat + off.toInt * n)).toNat

def loadForm (k : LoadKind) (f : FmtM) (acq : Bool) (base : Iss → Nat → Dword) : GlobalForm :=
  { n := loadSize k, need := .read, rkind := 0, tokened := false, setf := f.setf
    ea := fun c l => globalEa (base c l) f.off (loadSize k)
    kind := .load k (dstReg f.data) acq f.lu
    parts := fun _ xs => loadParts xs (loadSize k) acq, reqs := fun _ _ => []
    locs := dataRegs (dstReg f.data) (loadSize k) }

def storeForm (n : Nat) (f : FmtM) (rel : Bool) (base : Iss → Nat → Dword) : GlobalForm :=
  { n := n, need := .write, rkind := 1, tokened := true, setf := f.setf
    ea := fun c l => globalEa (base c l) f.off n
    kind := .store rel
    parts := fun c xs => storeParts xs n rel (storeBytes c f.data n), reqs := fun _ _ => []
    locs := [] }

/-- LD, ST, LDA, STR and ATOM. -/
def globalForm : Instr → Option GlobalForm
  | .ldLane k f => some (loadForm k f false (fun c l => c.src64 f.base l))
  | .ldUniform k f => some (loadForm k f false (fun c _ => c.uni64 f.base.toNat))
  | .stLane k f => some (storeForm (storeSize k) f false (fun c l => c.src64 f.base l))
  | .stUniform k f => some (storeForm (storeSize k) f false (fun c _ => c.uni64 f.base.toNat))
  | .lda w64 f => some (loadForm (if w64 then .w64 else .w32) f true (fun c l => c.src64 f.base l))
  | .str w64 f => some (storeForm (if w64 then 8 else 4) f true (fun c l => c.src64 f.base l))
  | .atom f =>
    let n := if f.sub.getLsbD 6 then 8 else 4
    some {
      n := n, need := .rmw, rkind := 3, tokened := true, setf := f.setf
      ea := fun c l => (c.src64 f.b l).toNat
      kind := .atom (f.sub.toNat % 16) (f.sub.toNat / 16 % 4) (f.sub.getLsbD 6) (dstReg f.a)
      parts := fun _ _ => [], reqs := fun c xs => groupLanes (fun e => atomOperand f c e.1) xs
      locs := dataRegs (dstReg f.a) n }
  | _ => none

/-- A scratch access of n bytes in each executing lane (R186, R196). -/
structure ScratchForm where
  n : Nat
  setf : BitVec 4
  addr : Iss → Nat → Nat
  kind : OpKind
  parts : Iss → List (Nat × Nat) → List Part
  reqs : Iss → List (Nat × Nat) → List AtomReq
  locs : List Loc

/-- R174: (base + sext(OFF12) × s) mod 2³². -/
def scratchEa (base : Word) (off : BitVec 12) (n : Nat) : Nat := (BitVec.ofInt 32 (base.toNat + off.toInt * n)).toNat

/-- LDS, STS and ATOMS. -/
def scratchForm : Instr → Option ScratchForm
  | .lds k f => some {
      n := loadSize k, setf := f.setf, addr := fun c l => scratchEa (c.src f.base l) f.off (loadSize k)
      kind := .lds k (dstReg f.data)
      parts := fun _ xs => loadParts (xs.map (fun e => (e.1, e.2, e.2))) (loadSize k) false, reqs := fun _ _ => []
      locs := dataRegs (dstReg f.data) (loadSize k) }
  | .sts k f => some {
      n := storeSize k, setf := f.setf, addr := fun c l => scratchEa (c.src f.base l) f.off (storeSize k), kind := .sts
      parts := fun c xs => storeParts (xs.map (fun e => (e.1, e.2, e.2))) (storeSize k) false
        (storeBytes c f.data (storeSize k))
      reqs := fun _ _ => [], locs := [] }
  | .atoms f =>
    let n := if f.sub.getLsbD 6 then 8 else 4
    some {
      n := n, setf := f.setf, addr := fun c l => (c.src f.b l).toNat
      kind := .atoms (f.sub.toNat % 16) (f.sub.getLsbD 6) (dstReg f.a), parts := fun _ _ => []
      reqs := fun c xs => xs.map (fun e => ⟨e.2, e.2, [(e.1, atomOperand f c e.1)], false⟩)
      locs := dataRegs (dstReg f.a) n }
  | _ => none

/-- The lanes among those that execute for which p holds. -/
def failing (c : Iss) (p : Nat → Bool) : Mask := maskOf (fun l => c.exec.getLsbD l && p l)

/-- R176: the word traps with the mask of the lanes that fail a check and the address of the lowest of them. -/
def Slot.FailsCheck (x : Slot) (s : State) (i : Instr) (c : Iss) (ea : Nat → Nat) (cause : Nat) (p : Nat → Bool) : Prop :=
  exec i s = .next (x.trapped s cause 0 (ea ((lowestLane (failing c p)).getD 0)) (failing c p))

/-- R177: the word is held: its warp waits for the fault record of the page of every failing lane, its threads stand at the
word, or the head of its chain, and nothing of memory changes. That its run counts as selected is log 59 (DEDUCED). -/
def Slot.Holds (x : Slot) (s : State) (i : Instr) (c : Iss) (ea : Nat → Nat) (rkind : Nat) (p : Nat → Bool) : Prop :=
  ∃ (t : State) (V : Warp), exec i s = .next t ∧ t.mem = s.mem ∧ t.warp? x.B.uid x.W.idx = some V ∧
    { x.W with
      held := V.held
      heldTrap := ⟨0x07, x.addr s, 0, BitVec.ofNat 64 (ea ((lowestLane (failing c p)).getD 0)), failing c p, 0⟩ }.Halts V
        x.run (x.addr s) (x.resume s) ∧
    (∀ b w, ¬(b = x.B.uid ∧ w = x.W.idx) → t.warp? b w = s.warp? b w) ∧
    ∀ l, l < 32 → (failing c p).getLsbD l = true →
      ∃ r ∈ t.faults, r.ctx = x.B.ctx ∧ r.page = ea l / 4096 ∧ r.kind = rkind ∧ (x.B.ctx, r.num) ∈ V.held

end Sys2Proof.Machine

/-- R173, R174, R176, R177, R183, R192, Table 6.3: a global memory word meets the checks in order: bits 63:52 of an EA,
alignment, a translation, permission, the commit token; a word that fails none enters its operation, and its registers and
memory stay as they are until the operation is performed. While a table entry that its walk must read stands in HBM4E of a die
whose LOCK is 0, the word waits (R296; that it waits at issue is log 34, DEDUCED). The guarded check is made only in
deterministic launches (log 58, DEDUCED); what a held word would record is log 49. -/
def Obligations.GlobalWords : Prop :=
  ∀ (s : State) (x : Slot) (i : Instr) (g : GlobalForm), globalForm i = some g → Clear i plainCheck s x →
    let c := x.ctx s i plainCheck none
    let ea := g.ea c
    let reach (l : Nat) : Access := s.access (some (coreCluster x.W.core)) x.B.ctx (ea l) g.need
    let far (l : Nat) : Bool := decide (2 ^ 52 ≤ ea l)
    let odd (l : Nat) : Bool := decide (ea l % g.n ≠ 0)
    let waits (l : Nat) : Bool := s.walkHeld x.B.ctx (ea l)
    let missing (l : Nat) : Bool := reach l == .fault
    let barred (l : Nat) : Bool := (accessPa (reach l)).isNone
    let guarded (l : Nat) : Bool := g.tokened && s.isDet x.B && !s.holdsToken x.B x.W.idx &&
      ((s.launch? x.B.launch).map (fun L => L.inWindow (ea l) g.n)).getD false
    let places := (lanesOf c.exec).map (fun l => (l, ea l, (accessPa (reach l)).getD 0))
    if failing c far ≠ 0 then x.FailsCheck s i c ea 0x08 far
    else if failing c odd ≠ 0 then x.FailsCheck s i c ea 0x09 odd
    else if failing c waits ≠ 0 then exec i s = .next s
    else if failing c missing ≠ 0 then x.Holds s i c ea g.rkind missing
    else if failing c barred ≠ 0 then x.FailsCheck s i c ea 0x08 barred
    else if failing c guarded ≠ 0 then x.FailsCheck s i c ea 0x12 guarded
    else ∃ t : State, exec i s = .next t ∧
      x.Enters s t c.W (Slot.op s c g.kind g.setf (g.parts c places) (g.reqs c places)) g.locs s

/-- R186, R196, R154: a scratch word traps when a lane's address is not aligned, then when one lies beyond the allocation;
else it enters its operation. R187, R188, R189, R468: LDFRAG and STFRAG: a descriptor with an invalid field is ILLEGAL; a
tile with a byte beyond the allocation raises SCRATCH_BOUNDS with the lowest such address; else the word enters its operation
on the 512 bytes of the stored tile. That addresses are taken modulo 2³² is log 22 (DEDUCED). -/
def Obligations.ScratchAndFragments : Prop :=
  (∀ (s : State) (x : Slot) (i : Instr) (g : ScratchForm), scratchForm i = some g → Clear i plainCheck s x →
     let c := x.ctx s i plainCheck none
     let a := g.addr c
     let odd (l : Nat) : Bool := decide (a l % g.n ≠ 0)
     let beyond (l : Nat) : Bool := decide (s.scratchSize x.B.uid x.W.idx < a l + g.n)
     let places := (lanesOf c.exec).map (fun l => (l, a l))
     if failing c odd ≠ 0 then x.FailsCheck s i c a 0x09 odd
     else if failing c beyond ≠ 0 then x.FailsCheck s i c a 0x06 beyond
     else ∃ t : State, exec i s = .next t ∧
       x.Enters s t c.W (Slot.op s c g.kind g.setf (g.parts c places) (g.reqs c places)) g.locs s) ∧
  (∀ (s : State) (x : Slot) (f : FmtM) (i : Instr) (mn : Meaning),
     ((i = .ldfrag f ∧ mn = plainCheck) ∨ (i = .stfrag f ∧ mn = readsLanes (fun _ => BitVec.allOnes 32))) → Clear i mn s x →
     let c := x.ctx s i mn none
     let d := Desc.of (c.uni f.base.toNat) (c.uni (f.base.toNat + 1))
     let byte (j : Nat) : Nat := (BitVec.ofInt 32 (d.base + f.off.toInt * (d.tpitch * 16 : Nat) + (j / 32 * d.pitch : Nat) +
       (rotate d.rot (j / 32) (j % 32) : Nat))).toNat
     let out (a : Nat) : Prop := (∃ j, j < 512 ∧ byte j = a) ∧ s.scratchSize x.B.uid x.W.idx ≤ a
     if ¬((d.fmt < 4 ∨ d.fmt = 7) ∧ d.base % 16 = 0 ∧ d.pitch % 16 = 0 ∧ d.pitch ≠ 0) then
       exec i s = .next (x.trapped s 0x01 0 0 0)
     else
       (∀ a, out a → (∀ b, out b → a ≤ b) → exec i s = .next (x.trapped s 0x06 0 a x.run)) ∧
       ((∀ a, ¬out a) → ∃ (t : State) (op : _), exec i s = .next t ∧
         x.Enters s t c.W op (if i = .ldfrag f then dataRegs (some f.data.toNat) 16 else []) s ∧
         op.setf = setfOf f.setf ∧ op.kind = (if i = .ldfrag f
           then .ldfrag f.data.toNat (decide (d.fmt < 2)) (f.ep.getLsbD 0) c.exec else .stfrag) ∧
         op.parts.map (fun p => (p.pa, p.len)) = (List.range 128).map (fun k => (byte (4 * k), 4)) ∧
         (i = .stfrag f → ∀ l k, l < 32 → k < 16 →
           nth 0 (op.parts.flatMap (·.data)) (fragByte (decide (d.fmt < 2)) (f.ep.getLsbD 0) l k) =
             BitVec.ofNat 8 ((c.W.vAt c.fr (f.data.toNat + k / 4) l).toNat / 2 ^ (8 * (k % 4))))))

/-- R184, R185, R213, R215: PREF changes nothing but what an L1 may hold, and what a slice does when it fills a line; FENCE
enters an operation; MONITOR arms the warp's monitor on the line of the lowest executing lane's address, checked as a 1-byte load;
WAITM goes on when the monitor is not armed or has triggered, and parks the executing threads otherwise, with a timeout when one
is given. When the deadline of a WAITM has passed, its parked threads, standing at one word, take MON_TIMEOUT, but not while a
chain of their warp is open (that it is taken by threads at one word, and so, is log 55, DEDUCED). That MONITOR waits at issue for the
memory its walk reads is log 34 (DEDUCED), and what a held MONITOR records log 49 (DEDUCED). -/
def Obligations.OrderWords : Prop :=
  (∀ (s : State) (x : Slot) (f : FmtM), Clear (.pref f) plainCheck s x →
    ∃ t u : State, exec (.pref f) s = .next t ∧ (∀ a, t.mem.byte a = s.mem.byte a) ∧ Filled s u ∧
      x.Only { u with mem := t.mem } t (x.after s (x.ctx s (.pref f) plainCheck none).W) ∧
      t.mem = { u.mem with l1 := t.mem.l1 }) ∧
  (∀ (s : State) (x : Slot) (f : FmtS), Clear (.fenceFull f) plainCheck s x →
    x.Starts s (.fenceFull f) (x.ctx s (.fenceFull f) plainCheck none) (.fence true) f.setf []) ∧
  (∀ (s : State) (x : Slot) (f : FmtS), Clear (.fenceSig f) plainCheck s x →
    x.Starts s (.fenceSig f) (x.ctx s (.fenceSig f) plainCheck none) (.fence false) f.setf []) ∧
  (∀ (s : State) (x : Slot) (f : FmtS), Clear (.monitor f) plainCheck s x →
    let c := x.ctx s (.monitor f) plainCheck none
    match lowestLane c.exec with
    | none => x.Starts s (.monitor f) c (.monitor 0) f.setf []
    | some l =>
      let va := (c.src64 f.b l).toNat
      let one (k : Nat) : Bool := k == l
      let reach := s.access (some (coreCluster x.W.core)) x.B.ctx va .read
      if 2 ^ 52 ≤ va then x.FailsCheck s (.monitor f) c (fun _ => va) 0x08 one
      else if s.walkHeld x.B.ctx va = true then exec (.monitor f) s = .next s
      else if reach = .fault then x.Holds s (.monitor f) c (fun _ => va) 0 one
      else if (accessPa reach).isNone then x.FailsCheck s (.monitor f) c (fun _ => va) 0x08 one
      else ∃ t : State, exec (.monitor f) s = .next t ∧
        x.Enters s t { c.W with mon := ⟨true, BitVec.ofNat 45 (va / 128), false, x.W.mon.deadline, none⟩ }
          (Slot.op s c (.monitor (va / 128)) f.setf [⟨l, 0, va, (accessPa reach).getD 0, 1, [], false⟩] []) [] s) ∧
  (∀ (s : State) (x : Slot) (f : FmtS), Clear (.waitm f) plainCheck s x →
    let c := x.ctx s (.waitm f) plainCheck none
    let parks : Bool := x.W.mon.armed && !x.W.mon.trig
    let n := if f.b = 0xFC then 0 else (c.uni f.b.toNat).toNat
    ∃ (t : State) (V : Warp), exec (.waitm f) s = .next t ∧ x.Only s t (x.after s V) ∧ V = { c.W with threads := V.threads, mon := V.mon } ∧
      (∀ l, V.thread l = { c.W.thread l with
        status := if parks = true ∧ c.exec.getLsbD l = true then .parked .waitm else (c.W.thread l).status }) ∧
      V.mon = if c.exec = 0 then x.W.mon
        else if parks then { x.W.mon with deadline := if n = 0 then x.W.mon.deadline else some (s.clockOf x.W.core + n) }
        else { x.W.mon with armed := false }) ∧
  (∀ (s : State) (blk w : Nat) (B : Block) (W : Warp), s.block? blk = some B → B.warp? w = some W →
    let m := maskOf (fun l => decide ((W.thread l).status = .parked .waitm))
    let due : Prop := ∃ d, W.mon.deadline = some d ∧ d < s.clockOf W.core
    (¬due ∨ B.halt ≠ none ∨ m = 0 ∨ s.runsOn B W = true → exec (.monTimeout blk w) s = .next s) ∧
    (due → B.halt = none → m ≠ 0 → s.runsOn B W = false → ∀ pc, (∀ l, m.getLsbD l = true → (W.thread l).pc = pc) →
      ∃ V, exec (.monTimeout blk w) s = .next ((s.setWarp blk V).takeTrap blk w
          ⟨0x0B, pc - 8, 0, W.mon.line.toNat * 128, m, m, pc, pc - 8⟩) ∧
        V = { W with threads := V.threads, mon := { W.mon with armed := false, deadline := none } } ∧
        ∀ l, V.thread l = { W.thread l with status := if m.getLsbD l = true then .eligible else (W.thread l).status }))

/-! ## Operations under way -/

namespace Sys2Proof.Machine

/-- The registers from r on take the words of a number in lane l, n bytes of it; nothing else of the lane registers changes.
A write of another operation may contend for a register (R63). -/
def Warp.RegsTake (W V : Warp) (id : Nat) (val : Nat → Nat → Option Word) : Prop :=
  ∀ n l, l < 32 → match val n l with
    | none => V.vRaw n l = W.vRaw n l
    | some y => V.vRaw n l = y ∨ (W.contested (some id) (.lane n) l = true ∧ V.vRaw n l = W.vRaw n l)

/-- The words of x, n bytes, in the registers from r on. -/
def wordsFrom (r n x k : Nat) : Option Word :=
  if r ≤ k ∧ k < r + (n + 3) / 4 then some (BitVec.ofNat 32 (x / 2 ^ (32 * (k - r)))) else none

/-- The bytes from a place on are those of a list; every other byte is as before. -/
def BytesTake (old new : Nat → Byte) (at' : Nat) (bs : List Byte) : Prop :=
  ∀ a, new a = if at' ≤ a ∧ a < at' + bs.length then nth 0 bs (a - at') else old a

/-- Part k of an operation has been performed. -/
def Warp.Did (V : Warp) (id k : Nat) : Prop := ∃ o ∈ V.ops, o.id = id ∧ ((o.parts[k]?).map (·.done)) = some true

/-- Part k, p, of an operation of a warp may be performed now: R179 and R309 allow it, no earlier store to its port is left (R447),
and the memory it accesses, or that of a spill page (R153), takes requests (R296). -/
def State.mayDo (s : State) (B : Block) (W : Warp) (o : Op) (p : Part) : Bool :=
  !p.done && W.mayPerform o [p.lane] p.pa p.len && W.portFree o p.pa &&
    !(if o.kind.scratch then s.scrHeld B.uid W.idx p.pa p.len else s.heldLoc p.pa)

/-- Table 6.8: the new value of a word of w bits. -/
def atomResult (op w old c c2 : Nat) : Nat :=
  let z (x : Nat) : Int := (BitVec.ofNat w x).toInt
  if op = 0 then (old + c) % 2 ^ w
  else if op = 1 then (if z c < z old then c else old)
  else if op = 2 then min old c
  else if op = 3 then (if z old < z c then c else old)
  else if op = 4 then max old c
  else if op = 5 then old &&& c
  else if op = 6 then old ||| c
  else if op = 7 then old ^^^ c
  else if op = 8 then c
  else if op = 9 then (if old = c then c2 else old)
  else if c ≤ old then 0 else old + 1

/-- R194: S[k], the sum of the first k operands, one rounding each. -/
def sumOf (cs : List Nat) : Nat :=
  match cs with
  | [] => 0
  | c :: r => r.foldl (fun a b => (fAdd fp32 .rne a b).1) c

/-- R193 to R195: the word after the first k lanes of a request: for fadd the old value plus their sum. -/
def wordAfter (op w old : Nat) (lanes : List (Nat × Nat × Nat)) (k : Nat) : Nat :=
  if k = 0 then old
  else if op = 11 then (fAdd fp32 .rne old (sumOf ((lanes.take k).map (·.2.1)))).1
  else (lanes.take k).foldl (fun v e => atomResult op w v e.2.1 e.2.2) old

/-- An operation that completes once it has been performed, with no effect of its own. -/
def OpKind.plain : OpKind → Bool
  | .load _ _ _ lu => !lu
  | .store _ => true
  | .lds _ _ => true
  | .sts => true
  | .ldfrag _ _ _ _ => true
  | .stfrag => true
  | .atom _ _ _ _ => true
  | .atoms _ _ _ => true
  | .monitor _ => true
  | _ => false

/-- From s to t an operation completes (R61): its flag falls by one, no register of its warp is on its way for it any
more, it is gone; no register changes, and no byte of memory. -/
def Completed (s t : State) (B : Block) (W : Warp) (o : Op) : Prop :=
  (∀ a, t.mem.byte a = s.mem.byte a) ∧
  ∃ V, t.warp? B.uid W.idx = some V ∧ V.v = W.v ∧ V.w = W.w ∧ (∀ y ∈ V.ops, y.id ≠ o.id) ∧
    (∀ e ∈ V.early, e.op ≠ some o.id) ∧
    ∀ n, tget 0 V.flags n = if o.setf = some n then tget 0 W.flags n - 1 else tget 0 W.flags n

end Sys2Proof.Machine

/-- R173, R178, R304: a unit of a global load that may be performed reads its bytes into its registers, 8- and 16-bit loads extended:
at the slice, or, of a load that is no LDA, from its core's L1 if that holds every word of it, whatever stands at the slice then. A
unit with a poisoned 16 bytes, read at the slice, aborts the block with POISON (R300). -/
def Obligations.LoadsPerformed : Prop :=
  ∀ (s : State) (id k : Nat) (l1 : Bool) (B : Block) (W : Warp) (o : Op) (lk : LoadKind) (d : Option Nat) (acq lu : Bool) (p : Part),
    Owns s id B W o → o.done = false → s.tripped = false → B.aborted = false → o.kind = .load lk d acq lu →
    o.parts[k]? = some p → s.mayDo B W o p = true → p.lane < 32 → 0 < p.len →
    let m := s.mem.fill p.pa p.len
    let hit : Bool := l1 && !acq && (List.range p.len).all (fun j => (s.mem.l1Get W.core (p.pa + j)).isSome)
    let reads (x : Nat) : Prop := ∃ (t : State) (V : Warp), exec (.memRequestPerform id k l1) s = .next t ∧
      t.warp? B.uid W.idx = some V ∧ V.Did id k ∧ (∀ a, t.mem.byte a = s.mem.byte a) ∧
      let y : Nat := match lk with
        | .s8 => ((BitVec.ofNat 8 x).signExtend 32).toNat
        | .s16 => ((BitVec.ofNat 16 x).signExtend 32).toNat
        | _ => x
      W.RegsTake V id (fun n l => if l = p.lane then d.bind (fun r => wordsFrom (r + p.off / 4) p.len y n) else none)
    (hit = true → reads (ofLeBytes ((List.range p.len).map (fun j =>
      nth 0 (leBytes 4 ((s.mem.l1Get W.core (p.pa + j)).getD 0).toNat) ((p.pa + j) % 4))))) ∧
    (hit = false → m.poisoned p.pa p.len = false → reads (s.mem.readN p.pa p.len)) ∧
    (hit = false → m.poisoned p.pa p.len = true → ∃ (t : State) (C : _), exec (.memRequestPerform id k l1) s = .next t ∧
      t.block? B.uid = some C ∧ C.halt = some (.abort 0x14))

/-- R178, R303, R315: a unit of a global store that may be performed writes its bytes and no other byte of memory, and its
line joins the warp's signature; one to a peer aperture leaves through its port, or stages there, and writes no byte here
(R447, R449). -/
def Obligations.StoresPerformed : Prop :=
  ∀ (s : State) (id k : Nat) (l1 rel : Bool) (B : Block) (W : Warp) (o : Op) (p : Part),
    Owns s id B W o → o.done = false → s.tripped = false → o.kind = .store rel → o.parts[k]? = some p →
    s.mayDo B W o p = true →
    ∃ (t : State) (V : Warp), exec (.memRequestPerform id k l1) s = .next t ∧ t.warp? B.uid W.idx = some V ∧ V.Did id k ∧ V.v = W.v ∧
      V.w = W.w ∧
      if 0x40000000000 ≤ p.pa then ∀ a, t.mem.byte a = s.mem.byte a
      else BytesTake s.mem.byte t.mem.byte p.pa p.data ∧ ∀ line ∈ linesOf p.pa p.data.length, V.sig.has line = true

namespace Sys2Proof.Machine

/-- R193, R196: the lanes of an ATOMS in order on the bytes of its scratch, n bytes to a word: each lane's old value, and the bytes
after the last. -/
def atomsInOrder (op n : Nat) (m : Nat → Byte) : List (Nat × Nat × Nat × Nat) → List (Nat × Nat) × (Nat → Byte)
  | [] => ([], m)
  | (l, a, c, c2) :: r =>
    let old := ofLeBytes ((List.range n).map (fun i => m (a + i)))
    let new := if op = 11 then (fAdd fp32 .rne old c).1 else atomResult op (8 * n) old c c2
    let q := atomsInOrder op n (fun x => if a ≤ x ∧ x < a + n then BitVec.ofNat 8 (new / 2 ^ (8 * (x - a))) else m x) r
    ((l, old) :: q.1, q.2)

/-- A write of some bytes at x of an allocation, all in one page, does to memory what R153 says: nothing, where its page is no
spill page; where it is one and its backing bytes translate, those take them and no other byte changes. -/
def SpillTakes (s t : State) (A : Alloc) (x : Nat) (bs : List Byte) : Prop :=
  let spill := A.pages.filter (fun g => g.pin.isNone && g.vpn == x / 4096)
  x % 4096 + bs.length ≤ 4096 → s.allocs.find? (fun a => a.id == A.id) = some A →
  (spill = [] → ∀ a, t.mem.byte a = s.mem.byte a) ∧
  ∀ (g : SttPage) (loc : Nat → Nat), spill = [g] →
    (∀ j, j < bs.length → s.access none A.ctx (4096 * g.back.toNat + x % 4096 + j) .write = .mem (loc j)) →
    (∀ j k, j < bs.length → k < bs.length → loc j = loc k → j = k) →
    ∀ a, t.mem.byte a = match (List.range bs.length).find? (fun j => loc j == a) with
      | some j => nth 0 bs j
      | none => s.mem.byte a

end Sys2Proof.Machine

/-- R154, R178, R186: a unit of LDS reads its bytes of the warp's scratch into its registers; one of STS or STFRAG writes
them, and no other byte of scratch; no byte of memory changes but the backing bytes of a spill page (R153; that the allocation's own
copy stands beside them is log 54, DESIGN CHOICE); a double-bit error of a word read, or a poisoned unit of a spill page, aborts the
block with POISON (R160, R300). R189: when the last word of an LDFRAG's tile has been read, lane l of the
executing ones holds its 16 bytes of Table 6.6 in four registers. R196: ATOMS performs its lanes in ascending order, each on what the
one before left, and each lane receives the value before its own effect; that it performs them in one step is log 56 (DEDUCED). -/
def Obligations.ScratchPerformed : Prop :=
  (∀ (s : State) (id k : Nat) (l1 : Bool) (B : Block) (W : Warp) (o : Op) (p : Part) (A : Alloc),
    Owns s id B W o → o.done = false → s.tripped = false → o.parts[k]? = some p → s.mayDo B W o p = true →
    s.allocOf B.uid W.idx = some A → p.lane < 32 →
    (B.aborted = false → ((∃ lk d, o.kind = .lds lk d) ∨ ∃ r wide tr lanes, o.kind = .ldfrag r wide tr lanes) →
      (A.isBad p.pa p.len = true ∨ ∃ e ∈ A.spills p.pa p.len, s.vaPoisoned none A.ctx e.1 e.2 = true) →
      ∃ (t : State) (C : _), exec (.memRequestPerform id k l1) s = .next t ∧ t.block? B.uid = some C ∧
        C.halt = some (.abort 0x14)) ∧
    (∀ (lk : LoadKind) (d : Option Nat), o.kind = .lds lk d → s.scrBad B.uid W.idx p.pa p.len = false →
      ∃ (t : State) (V : Warp) (C : Alloc), exec (.memRequestPerform id k l1) s = .next t ∧
        t.warp? B.uid W.idx = some V ∧ V.Did id k ∧ (∀ a, t.mem.byte a = s.mem.byte a) ∧
        t.allocOf B.uid W.idx = some C ∧ C = { A with weak := C.weak } ∧
        let x := A.readN p.pa p.len
        let y : Nat := match lk with
          | .s8 => ((BitVec.ofNat 8 x).signExtend 32).toNat
          | .s16 => ((BitVec.ofNat 16 x).signExtend 32).toNat
          | _ => x
        W.RegsTake V id (fun n l => if l = p.lane then d.bind (fun r => wordsFrom (r + p.off / 4) p.len y n) else none)) ∧
    (∀ (r : Nat) (wide tr : Bool) (lanes : Mask), o.kind = .ldfrag r wide tr lanes → s.scrBad B.uid W.idx p.pa p.len = false →
      ∃ (t : State) (V : Warp), exec (.memRequestPerform id k l1) s = .next t ∧ t.warp? B.uid W.idx = some V ∧ V.Did id k ∧
        (∀ a, t.mem.byte a = s.mem.byte a) ∧
        let last : Prop := ∀ j q, o.parts[j]? = some q → j ≠ k → q.done = true
        let tile := (o.parts.zipIdx.map (fun q => if q.2 = k then A.read p.pa p.len else q.1.data)).flatten
        (¬last → V.v = W.v) ∧
        (last → W.RegsTake V id (fun n l => if lanes.getLsbD l = true then
          wordsFrom r 16 (ofLeBytes ((List.range 16).map (fun b => nth 0 tile (fragByte wide tr l b)))) n else none))) ∧
    ((o.kind = .sts ∨ o.kind = .stfrag) →
      ∃ (t : State) (V : Warp), exec (.memRequestPerform id k l1) s = .next t ∧ t.warp? B.uid W.idx = some V ∧ V.Did id k ∧ V.v = W.v ∧
        SpillTakes s t A p.pa p.data ∧
        ∃ C, t.allocOf B.uid W.idx = some C ∧ BytesTake A.byte C.byte p.pa p.data)) ∧
  (∀ (s : State) (id k op : Nat) (l1 w64 : Bool) (d : Option Nat) (B : Block) (W : Warp) (o : Op) (A : Alloc)
      (xs : List (Nat × Nat × Nat × Nat)),
    Owns s id B W o → o.done = false → s.tripped = false → o.kind = .atoms op w64 d →
    s.allocOf B.uid W.idx = some A → A.bad = [] →
    ((∀ g ∈ A.pages, g.pin.isSome = true) ∨ (s.mem.poison = [] ∧ s.mem.bad = [])) →
    o.reqs = xs.map (fun e => ⟨e.2.1, e.2.1, [(e.1, e.2.2.1, e.2.2.2)], false⟩) → op ≤ 11 → (w64 = true → op ≤ 9) →
    (xs.map (·.1)).Nodup →
    (∀ e ∈ xs, e.1 < 32 ∧ e.2.2.1 < 2 ^ (if w64 then 64 else 32) ∧ e.2.2.2 < 2 ^ (if w64 then 64 else 32)) →
    let n := if w64 then 8 else 4
    (∀ e ∈ xs, W.mayPerform o [e.1] e.2.1 n = true ∧ s.scrHeld B.uid W.idx e.2.1 n = false) →
    let q := atomsInOrder op n A.byte xs
    ∃ (t : State) (V : Warp) (C : Alloc), exec (.memRequestPerform id k l1) s = .next t ∧ t.warp? B.uid W.idx = some V ∧
      t.allocOf B.uid W.idx = some C ∧ C.byte = q.2 ∧
      ((∀ g ∈ A.pages, g.pin.isSome = true) → s.allocs.find? (fun a => a.id == A.id) = some A →
        ∀ a, t.mem.byte a = s.mem.byte a) ∧
      W.RegsTake V id (fun r l => d.bind (fun x => (q.1.find? (fun e => e.1 == l)).bind (fun e => wordsFrom x n e.2 r))))

/-- Table 6.8, R193, R194, R195: a request of an ATOM, at its home slice: each of its lanes receives the value of the word
before its own effect, as R194 rebuilds it, and the word takes the last; no other byte changes. -/
def Obligations.AtomsPerformed : Prop :=
  ∀ (s : State) (id k : Nat) (B : Block) (W : Warp) (o : Op) (op ord : Nat) (w64 : Bool) (d : Option Nat) (r : AtomReq),
    Owns s id B W o → o.done = false → s.tripped = false → o.kind = .atom op ord w64 d → o.reqs[k]? = some r →
    op ≤ 11 → (w64 = true → op ≤ 9) → r.done = false → r.lanes ≠ [] → (r.lanes.map (·.1)).Nodup →
    (∀ e ∈ r.lanes, e.1 < 32 ∧ e.2.1 < 2 ^ (if w64 then 64 else 32) ∧ e.2.2 < 2 ^ (if w64 then 64 else 32)) →
    let n := if w64 then 8 else 4
    W.mayPerform o (r.lanes.map (·.1)) r.pa n = true → s.heldLoc r.pa = false →
    (s.mem.fill r.pa n).poisoned r.pa n = false →
    let old := s.mem.readN r.pa n
    ∃ (t : State) (V : Warp), exec (.atomSlicePerform id k) s = .next t ∧ t.warp? B.uid W.idx = some V ∧
      BytesTake s.mem.byte t.mem.byte r.pa (leBytes n (wordAfter op (8 * n) old r.lanes r.lanes.length)) ∧
      W.RegsTake V id (fun q l => d.bind (fun x => ((r.lanes.map (·.1)).idxOf? l).bind (fun j =>
        wordsFrom x n (wordAfter op (8 * n) old r.lanes j) q)))

/-- R61, R178, R185: a memory operation completes when it has been performed, and until then nothing happens; FENCE, when
every earlier store and posted atomic of its warp has been performed: its flag falls, and after the full form its core's L1
holds only words the core owns. An operation its engine has ended completes too. R315, R318: at an epoch boundary every
signature's current bank becomes its previous one and the current one empties; no byte of memory changes. Before the time
base reaches the epoch's end nothing happens. -/
def Obligations.CompletionsAndEpochs : Prop :=
  (∀ (s : State) (id : Nat) (B : Block) (W : Warp) (o : Op), Owns s id B W o → s.tripped = false →
     (o.kind.plain = true → o.performed = false → exec (.operationComplete id) s = .next s) ∧
     (o.kind.plain = true → o.performed = true → ∃ t : State, exec (.operationComplete id) s = .next t ∧ Completed s t B W o) ∧
     (o.done = true → (∀ f, o.kind ≠ .fence f) → (∀ m e, o.kind ≠ .cqfence m e) →
       ∃ t : State, exec (.operationComplete id) s = .next t ∧ Completed s t B W o ∧ ∀ r ∈ t.kv.readers, r.id ≠ id) ∧
     (∀ full, o.kind = .fence full → o.done = false →
       (((W.opsBefore id).any (fun y => y.kind.isStore && !y.performed)) = true →
         exec (.operationComplete id) s = .next s) ∧
       (((W.opsBefore id).any (fun y => y.kind.isStore && !y.performed)) = false →
         ∃ (t : State) (V : Warp), exec (.operationComplete id) s = .next t ∧ (∀ a, t.mem.byte a = s.mem.byte a) ∧
           t.warp? B.uid W.idx = some V ∧ V.v = W.v ∧
           (∀ n, tget 0 V.flags n = if o.setf = some n then tget 0 W.flags n - 1 else tget 0 W.flags n) ∧
           (full = true → ∀ e ∈ t.mem.l1, e.core = W.core → t.mem.ownerOf e.loc = some W.core)))) ∧
  (∀ s : State, Memory.wf s.mem = true →
     (s.time / 65536 ≤ s.epoch → exec .epochBoundary s = .next s) ∧
     (s.epoch < s.time / 65536 → ∃ t : State, exec .epochBoundary s = .next t ∧ t.epoch = s.epoch + 1 ∧
       (∀ a, t.mem.byte a = s.mem.byte a) ∧
       (∀ b w W, s.warp? b w = some W → ∃ V, t.warp? b w = some V ∧
         V = { W with sig := ⟨[], W.sig.cur⟩, ops := V.ops } ∧ V.ops.map (·.id) = W.ops.map (·.id)) ∧
       (∀ line, t.mem.attached line = ⟨[], (s.mem.attached line).cur⟩)))

/-! ## Barriers, the grid barrier, the commit token -/

namespace Sys2Proof.Machine

/-- V is W with the threads of a mask parked for a reason. -/
def ThreadsPark (W V : Warp) (m : Mask) (k : ParkKind) : Prop :=
  ∀ l, l < 32 → V.thread l = { W.thread l with status := if m.getLsbD l = true then .parked k else (W.thread l).status }

/-- The threads of a mask arrive in a record (R263): pending, no longer registered; they release the warp's memory words not
yet performed. -/
def ArrRec.Takes (old new : ArrRec) (W : Warp) (m : Mask) : Prop :=
  new.pend = old.pend ||| m ∧ new.reg = old.reg &&& ~~~m ∧ new.phase = old.phase ∧
    ∀ n, n ∈ new.waits ↔ n ∈ old.waits ∨ ∃ y ∈ W.ops, y.id = n ∧ y.kind.isMem = true ∧ y.performed = false

end Sys2Proof.Machine

/-- R263, R264, R266, R267, Table 9.1: BAR: the threads of the run arrive at the block barrier and park there; in a block of
one warp with no memory word under way, a run that holds every thread that has not exited completes the phase at once.
NBAR.arrive and .sync: a count of 0 or beyond the block's warps is ILLEGAL; an arrival outstanding makes the word wait; a
count other than the phase's is BAR_MISMATCH; else the threads arrive, and the sync form parks them. NBAR.wait: a thread
whose registered phase is complete goes on, every other parks; while memory words that the phase releases are not performed, it
parks too and wakes with that phase. When every warp of a block that has not exited, or the count of warps of a named barrier, has
registered with no word left to perform, the phase completes: Q counts, N and the set empty, and every thread parked there that
registered in it or did not arrive wakes, acquiring what the registered warps release (R269, R317). That an arrival, and the wake,
wait for the warp's unperformed memory words is log 26 (DEDUCED). -/
def Obligations.BarrierWords : Prop :=
  (∀ (s : State) (x : Slot) (f : FmtS), Clear (.bar f) plainCheck s x →
    let c := x.ctx s (.bar f) plainCheck none
    ∃ V, exec (.bar f) s = .next (x.closed s ((s.setWarp x.B.uid V).settleBarrier x.B.uid 0)) ∧
      V = { c.W with threads := V.threads, brec := V.brec } ∧ ThreadsPark c.W V x.run (.bar 0) ∧
      (x.W.brecAt 0).Takes (V.brecAt 0) x.W x.run ∧ (∀ id, id ≠ 0 → V.brecAt id = x.W.brecAt id) ∧
      (x.B.warps.length = 1 → x.W.ops = [] → (x.W.brecAt 0).waits = [] → x.W.rep = none → 0 < x.B.barriers.length →
        x.run ≠ 0 → (∀ l, l < 32 → x.run.getLsbD l = true ∨ (x.W.thread l).status = .exited) →
        (∀ l, x.run.getLsbD l = true → (x.W.thread l).status = .eligible) →
        ∃ (t : State) (C : _) (U : _), exec (.bar f) s = .next t ∧ t.block? x.B.uid = some C ∧
          (nth Barrier.reset C.barriers 0).q = (nth Barrier.reset x.B.barriers 0).q + 1 ∧
          t.warp? x.B.uid x.W.idx = some U ∧
          ∀ l, l < 32 → (U.thread l).status = if x.run.getLsbD l = true then .eligible else (c.W.thread l).status)) ∧
  (∀ (s : State) (x : Slot) (f : FmtS) (i : Instr) (sync : Bool), i = (if sync then .nbarSync f else .nbarArrive f) →
    Clear i plainCheck s x →
    let c := x.ctx s i plainCheck none
    let id := 1 + f.a.toNat
    let bar := nth Barrier.reset x.B.barriers id
    let r := x.W.brecAt id
    let n := if f.b = 0xFC then x.B.warps.length else (c.uni f.b.toNat).toNat
    if n = 0 ∨ x.B.warps.length < n then exec i s = .next (x.trapped s 0x01 0 0 0)
    else if r.pend &&& x.run ≠ 0 ∨ (r.reg &&& x.run ≠ 0 ∧ r.phase = bar.q) then exec i s = .next s
    else if bar.n ≠ 0 ∧ bar.n ≠ n then
      exec i s = .next (x.trapped s 0x0A 0 (f.a.toNat + 2 ^ 8 * bar.n + 2 ^ 16 * n) x.run)
    else ∃ V, exec i s = .next (x.closed s (((s.modBlock x.B.uid (fun B =>
          { B with barriers := setNth B.barriers id { bar with n := n } })).setWarp x.B.uid V).settleBarrier x.B.uid id)) ∧
      V = { c.W with threads := V.threads, brec := V.brec } ∧ ThreadsPark c.W V (if sync then x.run else 0) (.bar id) ∧
      r.Takes (V.brecAt id) x.W x.run ∧ ∀ k, k ≠ id → V.brecAt k = x.W.brecAt k) ∧
  (∀ (s : State) (x : Slot) (f : FmtS), Clear (.nbarWait f) plainCheck s x →
    let c := x.ctx s (.nbarWait f) plainCheck none
    let id := 1 + f.a.toNat
    let r := x.W.brecAt id
    let bar := nth Barrier.reset x.B.barriers id
    let ended : Mask := if r.phase = bar.q then 0 else x.run &&& r.reg &&& ~~~r.pend
    let open' : Bool := bar.closing.any (fun y => y.q == r.phase)
    let go : Mask := if open' then 0 else ended
    ∃ (t : State) (V : Warp), exec (.nbarWait f) s = .next t ∧ t.warp? x.B.uid x.W.idx = some (x.after s V) ∧
      V = { c.W with threads := V.threads, brec := V.brec } ∧ ThreadsPark c.W V (x.run &&& ~~~go) (.bar id) ∧
      (∀ k, V.brecAt k = if k = id then { r with reg := r.reg &&& ~~~go } else x.W.brecAt k) ∧
      (open' = false → x.Only s t (x.after s V)) ∧
      (open' = true → t.mem = s.mem ∧ (∀ b w, ¬(b = x.B.uid ∧ w = x.W.idx) → t.warp? b w = s.warp? b w) ∧
        (t.block? x.B.uid).map (·.barriers) = some (setNth x.B.barriers id { bar with
          closing := bar.closing.map (fun y => if y.q = r.phase then { y with wakes := y.wakes ++ [(x.W.idx, ended)] } else y) }))) ∧
  (∀ (s : State) (B : Block) (id : Nat), s.block? B.uid = some B → id < B.barriers.length →
    let bar := nth Barrier.reset B.barriers id
    let warps := B.warps.zipIdx.map (fun p => { p.1 with idx := p.2 })
    let gone (W : Warp) : Mask := maskOf (fun l => decide ((W.thread l).status = .exited))
    let arrives (W : Warp) : Prop :=
      (W.brecAt id).pend &&& ~~~gone W ≠ 0 ∧ (W.brecAt id).pend ||| gone W = BitVec.allOnes 32
    bar.closing = [] → (∀ W ∈ warps, W.ops = []) → (∃ W ∈ warps, arrives W) →
    (id = 0 → ∀ W ∈ warps, arrives W ∨ W.idx ∈ bar.regs ∨ gone W = BitVec.allOnes 32) →
    (id ≠ 0 → bar.n ≠ 0 ∧ ∃ l : List Nat, l.Nodup ∧ l.length = bar.n ∧ bar.regs.Pairwise (· < ·) ∧
      ∀ k, k ∈ l ↔ k ∈ bar.regs ∨ ∃ W ∈ warps, W.idx = k ∧ arrives W) →
    let t := s.settleBarrier B.uid id
    (∃ C, t.block? B.uid = some C ∧ (nth Barrier.reset C.barriers id).q = bar.q + 1 ∧ (nth Barrier.reset C.barriers id).n = 0 ∧
      (nth Barrier.reset C.barriers id).regs = []) ∧
    (∀ a, t.mem.byte a = s.mem.byte a) ∧
    ∀ W ∈ warps, ∃ V, t.warp? B.uid W.idx = some V ∧ V.v = W.v ∧ V.w = W.w ∧
      let r := W.brecAt id
      let wakes (l : Nat) : Prop := (W.thread l).status = .parked (.bar id) ∧
        (arrives W ∨ (r.pend.getLsbD l = false ∧ (r.reg.getLsbD l = false ∨ r.phase = bar.q)))
      (∀ l, l < 32 → (wakes l → V.thread l = { W.thread l with status := .eligible }) ∧ (¬wakes l → V.thread l = W.thread l)) ∧
      ((∃ l, l < 32 ∧ wakes l) → ∀ line, (bar.sig.has line = true ∨ ∃ U ∈ warps, arrives U ∧ U.sig.has line = true) →
        V.sig.has line = true))

/-- R361, R362, R363, R366, R367: GBAR is ILLEGAL outside a cooperative grid; in one, the threads of the run arrive and park.
CTOKW does nothing outside deterministic mode or for the warp that holds the token; it takes the token where it is free at
its warp, acquiring what it carries, and parks the run elsewhere. CTOKP does nothing outside deterministic mode but its
flag's rise and fall, is CTOK_FAULT for a warp that does not hold the token, and else begins the pass. R368: when every expected
block has arrived, the grid's phase counts, its arrivals are cleared, and every thread of the grid parked at GBAR wakes, in every
block, with what the arrivals released; a captured block's image takes the release too (R369). How a block's warps register is log
17 (DEDUCED), and that an arrival waits for the warp's unperformed memory words is log 26 (DEDUCED). -/
def Obligations.GridAndToken : Prop :=
  (∀ (s : State) (L : Launch) (n : Nat), s.launch? L.uid = some L → L.counter = some n →
    let x := (tget 0 s.host.gbc n).toNat
    let t := s.gridCheck L.uid
    (x / 2 ^ 12 % 2 ^ 12 ≠ x % 2 ^ 12 → t = s) ∧
    (x / 2 ^ 12 % 2 ^ 12 = x % 2 ^ 12 →
      (tget 0 t.host.gbc n).toNat = (2 ^ 63 + L.ctx * 2 ^ 56 + (x / 2 ^ 40 + 1) % 2 ^ 16 * 2 ^ 40 + x % 2 ^ 12) % 2 ^ 64 ∧
      (∀ a, t.mem.byte a = s.mem.byte a) ∧
      (∀ b w B W, s.block? b = some B → s.warp? b w = some W →
        ∃ V, t.warp? b w = some V ∧ V.v = W.v ∧ V.w = W.w ∧
          (B.launch ≠ L.uid → V = W) ∧
          (B.launch = L.uid →
            (∀ l, l < 32 → V.thread l = { W.thread l with
              status := if (W.thread l).status = .parked .gbar then .eligible else (W.thread l).status }) ∧
            ((∃ l, l < 32 ∧ (W.thread l).status = .parked .gbar) →
              V.grec = ⟨0, 0, 0, []⟩ ∧ ∀ line, L.gridSig.has line = true → V.sig.has line = true))) ∧
      (∀ b B, s.block? b = some B → B.launch = L.uid → ∃ C, t.block? b = some C ∧ C.garr = false) ∧
      ∀ m ∈ t.images, m.blk.launch = L.uid → m.blk.garr = false ∧
        ∀ W ∈ m.blk.warps, ∀ l, l < 32 → (W.thread l).status ≠ .parked .gbar)) ∧
  ∀ (s : State) (x : Slot) (f : FmtS),
    let det := ((s.launch? x.B.launch).map Launch.det).getD false
    let holds := s.holdsToken x.B x.W.idx
    (Clear (.gbar f) plainCheck s x →
      let c := x.ctx s (.gbar f) plainCheck none
      if ((s.launch? x.B.launch).map Launch.coop).getD false = false then
        exec (.gbar f) s = .next (x.trapped s 0x01 0 0 0)
      else ∃ V, exec (.gbar f) s = .next (x.closed s ((s.setWarp x.B.uid V).settleGrid x.B.uid)) ∧
        V = { c.W with threads := V.threads, grec := V.grec } ∧ ThreadsPark c.W V x.run .gbar ∧
        x.W.grec.Takes V.grec x.W x.run) ∧
    (Clear (.ctokw f) plainCheck s x →
      let c := x.ctx s (.ctokw f) plainCheck none
      let g := ((s.launch? x.B.launch).map (fun L => L.token.sig)).getD Sig.empty
      if det = false ∨ holds = true then
        ∃ t : State, exec (.ctokw f) s = .next t ∧ x.Only s t (x.after s c.W)
      else if s.tokenAt x.B x.W.idx = true then
        ∃ t : State, exec (.ctokw f) s = .next t ∧ t.holdsToken x.B x.W.idx = true ∧ (∀ a, t.mem.byte a = s.mem.byte a) ∧
          t.warp? x.B.uid x.W.idx = some (x.after s { c.W with sig := c.W.sig.or g })
      else ∃ (t : State) (V : Warp), exec (.ctokw f) s = .next t ∧ x.Only s t (x.after s V) ∧ V = { c.W with threads := V.threads } ∧
        ThreadsPark c.W V x.run .token) ∧
    (Clear (.ctokp f) plainCheck s x →
      let c := x.ctx s (.ctokp f) plainCheck none
      if det = true then
        (if holds = true then exec (.ctokp f) s = .next (x.closed s
            ((s.setWarp x.B.uid c.W).enterPass x.B.uid x.W.idx (setfOf f.setf) c.pc))
         else exec (.ctokp f) s = .next (x.trapped s 0x12 0 0 x.run))
      else if 12 ≤ f.setf.toNat then ∃ t : State, exec (.ctokp f) s = .next t ∧ x.Only s t (x.after s c.W)
      else ∃ (t : State) (V : Warp), exec (.ctokp f) s = .next t ∧ t.warp? x.B.uid x.W.idx = some (x.after s V) ∧
        V = { c.W with ops := V.ops } ∧ t.mem = s.mem ∧
        ∃ o ∈ V.ops, o.id = s.nextUid ∧ o.kind = .pass ∧ o.done = true ∧ o.setf = some f.setf.toNat)

/-! ## The matrix unit -/

/-- R221, R222, R225 to R228, R233 to R235: MSHAPE stores a legal shape record and is ILLEGAL for any other value; MMA is
ILLEGAL for a scratch descriptor that is not legal, whose rotation leaves the pitch, or for a step or offset under an MX
format, raises SCRATCH_BOUNDS for a row beyond the allocation, and else enters its operation with the stored rows its
fragments hold; MRD, MWR and MZERO enter theirs. -/
def Obligations.MatrixWords : Prop :=
  (∀ (s : State) (x : Slot) (f : FmtS), Clear (.mshape f) plainCheck s x →
    let c := x.ctx s (.mshape f) plainCheck none
    let r := (c.uni f.b.toNat).toNat
    if r / 2 ^ 27 = 0 ∧ r / 2 ^ 19 % 4 ≠ 3 ∧ r / 2 ^ 21 % 4 ≠ 3 ∧ 1 ≤ r % 32 ∧ r % 32 ≤ 16 ∧ 1 ≤ r / 2 ^ 5 % 32 ∧
        r / 2 ^ 5 % 32 ≤ 16 ∧ 1 ≤ r / 2 ^ 10 % 512 ∧ r / 2 ^ 10 % 512 ≤ 384 ∧ r / 2 ^ 23 % 4 < 2 ^ (r / 2 ^ 19 % 4) ∧
        r / 2 ^ 25 % 4 < 2 ^ (r / 2 ^ 21 % 4) then
      ∃ t : State, exec (.mshape f) s = .next t ∧ x.Only s t (x.after s { c.W with shape := c.uni f.b.toNat })
    else exec (.mshape f) s = .next (x.trapped s 0x01 0 0 0)) ∧
  (∀ (s : State) (x : Slot) (f : FmtX), Clear (.mma f) (readsLanes (fun _ => BitVec.allOnes 32)) s x →
    let c := x.ctx s (.mma f) (readsLanes (fun _ => BitVec.allOnes 32)) none
    let fmt := f.fmt.toNat
    let sh := x.W.shape
    let n := mmaRowBytes fmt
    let da := Desc.of (c.uni f.a.toNat) (c.uni (f.a.toNat + 1))
    let db := Desc.of (c.uni f.b.toNat) (c.uni (f.b.toNat + 1))
    let legal (d : Desc) (rows : Nat) : Bool := d.ok &&
      (List.range rows).all (fun i => (List.range n).all (fun k => decide (rotate d.rot i k < d.pitch)))
    let parts := (if f.asrc then da.parts 0 (shapeM sh) n else []) ++ (if f.bsrc then db.parts 16 (shapeN sh) n else [])
    let out (a : Nat) : Prop := (∃ p ∈ parts, p.pa ≤ a ∧ a < p.pa + 4) ∧ s.scratchSize x.B.uid x.W.idx ≤ a
    if (f.asrc = true ∧ legal da (shapeM sh) = false) ∨ (f.bsrc = true ∧ legal db (shapeN sh) = false) ∨
        (7 ≤ fmt ∧ (sh.toNat / 2 ^ 19 % 16 ≠ 0 ∨ sh.toNat / 2 ^ 23 % 16 ≠ 0)) then
      exec (.mma f) s = .next (x.trapped s 0x01 0 0 0)
    else
      (∀ a, out a → (∀ b, out b → a ≤ b) → exec (.mma f) s = .next (x.trapped s 0x06 0 a x.run)) ∧
      ((∀ a, ¬out a) → ∃ t : State, exec (.mma f) s = .next t ∧ x.Enters s t c.W (Slot.op s c
        (.mma ⟨fmt, f.accd, f.nega, f.negb, f.acc.toNat, sh, if f.asrc then none else some (fragRows c f.a.toNat),
          if f.bsrc then none else some (fragRows c f.b.toNat)⟩) f.setf parts []) [] s)) ∧
  (∀ (s : State) (x : Slot) (f : FmtX),
    (Clear (.mrd f) plainCheck s x →
      x.Starts s (.mrd f) (x.ctx s (.mrd f) plainCheck none) (.mread f.acc.toNat f.fmt.toNat f.a.toNat f.accd x.run) f.setf
        ((List.range (tileRegs f.fmt.toNat)).map (fun q => .lane (f.a.toNat + q)))) ∧
    (Clear (.mwr f) (readsLanes (fun _ => BitVec.allOnes 32)) s x →
      let c := x.ctx s (.mwr f) (readsLanes (fun _ => BitVec.allOnes 32)) none
      x.Starts s (.mwr f) c
        (.mwrite f.acc.toNat (tileElems.map (fun e => mwrPartial c f.fmt.toNat f.a.toNat e.1 e.2))) f.setf []) ∧
    (Clear (.mzero f) plainCheck s x →
      x.Starts s (.mzero f) (x.ctx s (.mzero f) plainCheck none) (.mwrite f.acc.toNat []) f.setf []))

namespace Sys2Proof.Machine

/-- R49, R223, R224: element k of a stored row of INT8 under a step, an offset and an extent K, negated if asked. -/
def int8At (row step off kext : Nat) (neg : Bool) (k : Nat) : Int :=
  if kext ≤ k ∨ 192 ≤ step * k + off then 0
  else if neg then -(BitVec.ofNat 8 (row / 2 ^ (8 * (step * k + off)))).toInt
  else (BitVec.ofNat 8 (row / 2 ^ (8 * (step * k + off)))).toInt

/-- An exact element: its sign, and n × 2^e (R43). -/
structure Elt where
  neg : Bool
  n : Nat
  e : Int

/-- The formats of A and B under FMT, and the bits of an element (R223, Table 7.2). -/
def mmaTable (fmt : Nat) : Fmt × Fmt × Nat :=
  if fmt = 0 then (bf16, bf16, 16) else if fmt = 1 then (fp16, fp16, 16)
  else if fmt = 2 then (e4m3, e4m3, 8) else if fmt = 3 then (e4m3, e5m2, 8) else if fmt = 4 then (e5m2, e4m3, 8)
  else if fmt = 5 then (e5m2, e5m2, 8) else if fmt = 7 then (e2m3, e2m3, 6) else if fmt = 8 then (e2m3, e3m2, 6)
  else if fmt = 9 then (e3m2, e2m3, 6) else if fmt = 10 then (e3m2, e3m2, 6) else (e2m1, e2m1, 4)

/-- An element of an operand: a number, an infinity, or a NaN as its ACC56 code. -/
inductive Elm where
  | num (x : Elt)
  | inf (neg : Bool)
  | nan (code : Nat)

/-- The ACC56 code of a NaN with a sign and a payload; whether a code is one's. -/
def accNan (neg : Bool) (payload : Nat) : Nat := (if neg then 2 ^ 55 else 0) + 255 * 2 ^ 47 + payload
def accIsNan (p : Nat) : Bool := p / 2 ^ 47 % 2 ^ 8 == 255 && p % 2 ^ 47 != 0

/-- R224, R47, R39: element k of a stored row, of w bits each, under a step, an offset and an extent: +0 beyond the extents, else its
value, scaled by its block's scale byte for an MX format, and negated if asked (a NaN too, log 65); a NaN is converted to ACC56, the
payload high-aligned and quiet, or canonical from E4M3 or a scale of 0xFF. -/
def elmAt (g : Fmt) (w : Nat) (mx : Bool) (row step off kext : Nat) (neg : Bool) (k : Nat) : Elm :=
  let p := step * k + off
  let x := row / 2 ^ (p * w) % 2 ^ w
  let sc := row / 2 ^ (1536 + 8 * (p / 32)) % 256
  if kext ≤ k ∨ 1536 / w ≤ p then .num ⟨false, 0, 0⟩
  else if mx && sc == 255 then .nan (accNan neg (2 ^ 46))
  else if g.finite x then
    .num ⟨signBit g x != neg, (g.units x).natAbs, 1 - (g.bias : Int) - g.m + (if mx then (sc : Int) - 127 else 0)⟩
  else if g.spec = .ieee ∧ x % 2 ^ g.m = 0 then .inf (signBit g x != neg)
  else .nan (accNan (signBit g x != neg) (if g.spec = .ieee then (x % 2 ^ g.m * 2 ^ (47 - g.m)) ||| 2 ^ 46 else 2 ^ 46))

/-- R47, R50, R51, R33: a partial and its origin key (0: none), and the product of two elements added to it, rounded once to ACC56 to
nearest; its unit is 2⁻¹⁷³. A NaN element enters as an input NaN with its origin key, A's before B's: it displaces a number, a
generated NaN and an input NaN of a higher key. ∞ × 0 and ∞ + (−∞) give a generated NaN, which displaces no NaN. -/
def AccStep (p : Nat × Nat) (key : Nat) (a b : Elm) (p' : Nat × Nat) : Prop :=
  let enters (code k : Nat) : Prop := p' = if accIsNan p.1 = true ∧ p.2 ≠ 0 ∧ p.2 ≤ k then p else (code, k)
  let generated : Prop := p' = if accIsNan p.1 then p else (accNan false (2 ^ 46), 0)
  let infinite (t : Bool) : Prop := if accIsNan p.1 = false ∧ p.1 = acc56.infinity (!t) then generated
    else p' = if accIsNan p.1 then p else (acc56.infinity t, 0)
  match a, b with
  | .nan c, _ => enters c key
  | _, .nan c => enters c (key + 1)
  | .inf s, .inf t => infinite (s != t)
  | .inf s, .num y => if y.n = 0 then generated else infinite (s != y.neg)
  | .num x, .inf t => if x.n = 0 then generated else infinite (x.neg != t)
  | .num x, .num y =>
    let neg : Bool := x.neg != y.neg
    let t : Int := x.e + y.e + 173
    let prod : Int := (if neg then -1 else 1) * ((x.n * y.n * 2 ^ t.toNat : Nat) : Int)
    let k := (-t).toNat
    let N : Int := acc56.units p.1 * (2 ^ k : Nat) + prod
    if accIsNan p.1 then p' = p
    else p'.2 = 0 ∧ if acc56.finite p.1 then
        (if N = 0 then p'.1 = (if zeroSign .rne (signBit acc56 p.1) neg then 2 ^ 55 else 0) else acc56.Rounds .rne N (2 ^ k) p'.1)
      else p'.1 = p.1

/-- R48, Table 2.3: two partials that are no NaNs read out in a format: their exact sum rounded once, to nearest; of two
infinities of opposite sign the canonical NaN. -/
def ReadsOut (g : Fmt) (e o r : Nat) : Prop :=
  let k := 173 - (g.bias + g.m - 1)
  let N := acc56.units e + acc56.units o
  if acc56.finite e && acc56.finite o then
    (if N = 0 then r = (if zeroSign .rne (signBit acc56 e) (signBit acc56 o) then 2 ^ (g.eb + g.m) else 0)
     else g.Rounds .rne N (2 ^ k) r)
  else if acc56.finite e then r = g.infinity (signBit acc56 o)
  else if acc56.finite o then r = g.infinity (signBit acc56 e)
  else if signBit acc56 e = signBit acc56 o then r = g.infinity (signBit acc56 e)
  else r = (2 ^ g.eb - 1) * 2 ^ g.m + 2 ^ (g.m - 1)

/-- R51, R39: two partials of which one is a NaN read out in a format: of two NaNs the input NaN of the lower key; a generated one as
the canonical NaN, an input one with its payload cut to the format, quiet. -/
def NanOut (g : Fmt) (e o : Nat × Nat) : Nat :=
  let p := if accIsNan e.1 = true ∧ (accIsNan o.1 = false ∨ o.2 = 0 ∨ (e.2 ≠ 0 ∧ e.2 ≤ o.2)) then e else o
  if p.2 = 0 then (2 ^ g.eb - 1) * 2 ^ g.m + 2 ^ (g.m - 1)
  else (if signBit acc56 p.1 then 2 ^ (g.eb + g.m) else 0) + (2 ^ g.eb - 1) * 2 ^ g.m +
    ((p.1 % 2 ^ 47 / 2 ^ (47 - g.m)) ||| 2 ^ (g.m - 1))

/-- The stored row i of an operand of an MMA: its fragment's, or that of the words read from scratch, their rows numbered from `first`. -/
def operandRow (given : Option (List Nat)) (parts : List Part) (first i : Nat) : Nat :=
  match given with
  | some rows => nth 0 rows i
  | none => ofLeBytes ((parts.filter (fun p => p.lane == first + i)).flatMap (·.data))

/-- Element (i, j) of a tile in the lane form of FMT: which register after the first, which half of it (R234). -/
def laneForm (fmt : Nat) (rd : Nat → Nat → Nat) (q l : Nat) : Option Word :=
  if fmt = 0 ∨ fmt = 3 then (if q < 8 then some (BitVec.ofNat 32 (rd (l % 16) (8 * (l / 16) + q))) else none)
  else if q < 4 then
    some (BitVec.ofNat 32 (rd (l % 16) (8 * (l / 16) + 2 * q) + 2 ^ 16 * rd (l % 16) (8 * (l / 16) + 2 * q + 1)))
  else none

/-- The format MRD and MWR name: FP32, BF16, FP16. -/
def tileFormat (fmt : Nat) : Fmt := if fmt = 0 then fp32 else if fmt = 1 then bf16 else fp16

end Sys2Proof.Machine

/-- R49, R219, R229, R231, R236: MZERO leaves +0 in every partial of its tile and nothing else of the tiles changed; an INT8
MMA, whose operands are fragments or rows read from scratch, adds, in each element within M and N, the products of even k to E and of
odd k to O, modulo 2^56, and leaves every other partial as it was. R47, R33, R50, R51: an MMA of another format, MX formats with their
scales among them, adds the products in ascending k, those of even k to E and of odd k to O, each sum rounded once to ACC56, with
infinities and NaNs and the origin of each NaN, whose ordinal counts the tile's MMAs (R352). R226, R232: a word of a scratch operand is
read once the warp's earlier scratch stores are performed. R48, R49, R51, R234, R235: MRD gives its registers, in its lanes alone, the
sum of the two partials of each element, rounded once, or its NaN, or for .s32 taken modulo 2^56 and saturated; with ACCD it then clears
the tile. R236: MWR leaves E as the value read at issue,
exactly, and O as +0. None happens before every earlier word on the tile is done. That an INT8 MMA leaves partials with no NaN origin
is log 37 (DEDUCED). -/
def Obligations.MatrixResults : Prop :=
  (∀ (c : Iss) (fmt r i j : Nat), i < 16 → j < 16 → fmt < 4 →
    let l := i + 16 * (j / 8)
    let x := if fmt = 0 ∨ fmt = 3 then (c.W.vAt c.fr (r + j % 8) l).toNat
      else (c.W.vAt c.fr (r + j % 8 / 2) l).toNat / 2 ^ (16 * (j % 2)) % 2 ^ 16
    let g := tileFormat fmt
    let e := mwrPartial c fmt r i j
    (fmt = 3 → e = ⟨(BitVec.ofNat 32 x).signExtend 56, 0⟩) ∧
    (fmt ≠ 3 → g.finite x = true → e.key = 0 ∧ acc56.finite e.val.toNat = true ∧ signBit acc56 e.val.toNat = signBit g x ∧
      acc56.units e.val.toNat = g.units x * 2 ^ (173 - (g.bias + g.m - 1))) ∧
    (fmt ≠ 3 → ∀ b, x = g.infinity b → e = ⟨BitVec.ofNat 56 (acc56.infinity b), 0⟩)) ∧
  (∀ (s : State) (id : Nat) (B : Block) (W : Warp) (o : Op), Owns s id B W o → s.tripped = false → o.done = false →
    (∀ tile, o.kind = .mwrite tile [] →
      (W.tileFree o = false → exec (.operationComplete id) s = .next s) ∧
      (W.tileFree o = true → ∃ (t : State) (V : Warp), exec (.operationComplete id) s = .next t ∧ t.warp? B.uid W.idx = some V ∧ V.v = W.v ∧
        ∀ u i j h, i < 16 → j < 16 → h < 2 →
          V.partialAt u i j h = if u = tile then (0, 0) else W.partialAt u i j h)) ∧
    (∀ m k p, o.kind = .mma m → o.parts[k]? = some p → p.done = false →
      let stores : Prop := ∃ y ∈ W.opsBefore id, y.performed = false ∧ match y.kind with
        | .sts => True
        | .stfrag => True
        | .atoms _ _ _ => True
        | _ => False
      let put (q : Part) : Prop := ∃ (t : State) (V : Warp) (y : Op), exec (.memRequestPerform id k false) s = .next t ∧
        t.warp? B.uid W.idx = some V ∧ V.v = W.v ∧ V.acc = W.acc ∧ (∀ a, t.mem.byte a = s.mem.byte a) ∧ y ∈ V.ops ∧ y.id = id ∧
        y.kind = o.kind ∧ y.parts[k]? = some q
      (stores ∨ s.scrHeld B.uid W.idx p.pa p.len = true → put p) ∧
      (¬stores → s.scrHeld B.uid W.idx p.pa p.len = false → s.scrBad B.uid W.idx p.pa p.len = false →
        ∀ A, s.allocOf B.uid W.idx = some A → put { p with done := true, data := A.read p.pa p.len })) ∧
    (∀ m, o.kind = .mma m → o.parts.all (·.done) = false ∨ W.tileFree o = false → exec (.operationComplete id) s = .next s) ∧
    (∀ m, o.kind = .mma m → m.fmt = 6 → (∀ r, m.rowsA = some r ∨ m.rowsB = some r → r.length = 16) →
      o.parts.all (·.done) = true → shapeM m.shape ≤ 16 → shapeN m.shape ≤ 16 →
      (W.tileFree o = true → (m.accd = true ∨ W.badAcc = []) →
        ∃ (t : State) (V : Warp), exec (.operationComplete id) s = .next t ∧ t.warp? B.uid W.idx = some V ∧ V.v = W.v ∧
          ∀ u i j h, i < 16 → j < 16 → h < 2 → V.partialAt u i j h =
            if u = m.tile ∧ i < shapeM m.shape ∧ j < shapeN m.shape then
              let a := int8At (operandRow m.rowsA o.parts 0 i) (shapeAStep m.shape) (shapeAOff m.shape) (shapeK m.shape) m.nega
              let b := int8At (operandRow m.rowsB o.parts 16 j) (shapeBStep m.shape) (shapeBOff m.shape) (shapeK m.shape) m.negb
              let old : Int := if m.accd then 0 else ((W.partialAt u i j h).1 : Int)
              (((BitVec.ofInt 56 (old + ((List.range 192).map (fun k => if k % 2 = h then a k * b k else 0)).foldr (· + ·) 0)
                ).toNat, 0) : Nat × Nat)
            else W.partialAt u i j h)) ∧
    (∀ m, o.kind = .mma m → m.fmt < 12 → m.fmt ≠ 6 → (∀ r, m.rowsA = some r ∨ m.rowsB = some r → r.length = 16) →
      o.parts.all (·.done) = true → shapeM m.shape ≤ 16 → shapeN m.shape ≤ 16 → W.tileFree o = true →
      (m.accd = true ∨ W.badAcc = []) →
      let w := (mmaTable m.fmt).2.2
      let a (i k : Nat) := elmAt (mmaTable m.fmt).1 w (decide (7 ≤ m.fmt)) (operandRow m.rowsA o.parts 0 i) (shapeAStep m.shape)
        (shapeAOff m.shape) (shapeK m.shape) m.nega k
      let b (j k : Nat) := elmAt (mmaTable m.fmt).2.1 w (decide (7 ≤ m.fmt)) (operandRow m.rowsB o.parts 16 j) (shapeBStep m.shape)
        (shapeBOff m.shape) (shapeK m.shape) m.negb k
      let ord := if m.accd then 1 else min (tget 0 W.ordinal m.tile + 1) (2 ^ 53 - 1)
      ∃ (t : State) (V : Warp), exec (.operationComplete id) s = .next t ∧ t.warp? B.uid W.idx = some V ∧ V.v = W.v ∧
        tget 0 V.ordinal m.tile = ord ∧
        ∀ u i j h, i < 16 → j < 16 → h < 2 →
          (¬(u = m.tile ∧ i < shapeM m.shape ∧ j < shapeN m.shape) → V.partialAt u i j h = W.partialAt u i j h) ∧
          (u = m.tile → i < shapeM m.shape → j < shapeN m.shape →
            ∃ p : Nat → Nat × Nat, p 0 = (if m.accd then (0, 0) else W.partialAt u i j h) ∧
              (∀ n, n < 768 / w → let k := 2 * n + h
                AccStep (p n) (2 ^ 63 + ord * 2 ^ 10 + 2 * k) (a i k) (b j k) (p (n + 1))) ∧
              V.partialAt u i j h = p (768 / w))) ∧
    (∀ tile fmt dst accd lanes, o.kind = .mread tile fmt dst accd lanes → fmt < 4 → W.badAcc = [] →
      (W.tileFree o = false → exec (.operationComplete id) s = .next s) ∧
      (W.tileFree o = true → ∃ (t : State) (V : Warp) (rd : Nat → Nat → Nat),
        exec (.operationComplete id) s = .next t ∧ t.warp? B.uid W.idx = some V ∧
        (∀ i j, i < 16 → j < 16 →
          (fmt ≠ 3 → if accIsNan (W.partialAt tile i j 0).1 || accIsNan (W.partialAt tile i j 1).1 then
              rd i j = NanOut (tileFormat fmt) (W.partialAt tile i j 0) (W.partialAt tile i j 1)
            else ReadsOut (tileFormat fmt) (W.partialAt tile i j 0).1 (W.partialAt tile i j 1).1 (rd i j)) ∧
          (fmt = 3 → rd i j = (BitVec.ofInt 32 (max (-2147483648) (min 2147483647
            (BitVec.ofNat 56 ((W.partialAt tile i j 0).1 + (W.partialAt tile i j 1).1)).toInt))).toNat)) ∧
        W.RegsTake V id (fun n l => if lanes.getLsbD l = true ∧ dst ≤ n then laneForm fmt rd (n - dst) l else none) ∧
        ∀ u i j h, i < 16 → j < 16 → h < 2 → V.partialAt u i j h = if accd = true ∧ u = tile then (0, 0) else W.partialAt u i j h)) ∧
    (∀ tile vals, o.kind = .mwrite tile vals → vals.length = 256 → W.tileFree o = true →
      ∃ (t : State) (V : Warp), exec (.operationComplete id) s = .next t ∧ t.warp? B.uid W.idx = some V ∧ V.v = W.v ∧
        ∀ u i j h, i < 16 → j < 16 → h < 2 → V.partialAt u i j h =
          if u = tile then (if h = 0 then ((nth ⟨0, 0⟩ vals (16 * i + j)).val.toNat, (nth ⟨0, 0⟩ vals (16 * i + j)).key.toNat)
            else (0, 0))
          else W.partialAt u i j h))

/-! ## Attention, sealing, NEXTT, the selector -/

namespace Sys2Proof.Machine

/-- Operation id writes y to the uniform register an option names, where no other write of it is on its way (R63). -/
def Warp.UniIs (W V : Warp) (id : Nat) (r : Option Nat) (y : Nat) : Prop :=
  ∀ n, r = some n → V.wRaw n = BitVec.ofNat 32 y ∨ W.contested (some id) (.uni n) 0 = true

/-- A parameter block of the selector (Table 9.3), w i being word i: its values are in range, its addresses with the
alignment of each, the scratch arrays as start and length. -/
structure SelTable where
  legal : Prop
  addrs : List (Nat × Nat)
  arrays : List (Nat × Nat)

def selTable (op : Nat) (w : Nat → Nat) : SelTable :=
  if op = 0 then
    let d := 64 * 2 ^ (w 1 / 2 ^ 28 % 4)
    let sinks := min (w 1 / 2 ^ 20 % 16) (w 4 - w 3)
    let recents := min (w 1 / 2 ^ 24 % 16) (w 4 - w 3 - sinks)
    let slots := sinks + w 7 + recents
    { legal := w 1 / 2 ^ 28 < 3 ∧ w 2 < 2 ^ 20 ∧ w 3 < w 4 ∧ w 4 - w 3 ≤ 2 ^ 20 ∧ w 5 < 2 ^ 20 ∧ w 6 < 2 ^ 20 ∧ 1 ≤ w 7 ∧ w 7 ≤ 4096
      addrs := [(w 0 + 2 ^ 32 * (w 1 % 2 ^ 20), 32), (w 2, 16), (w 5, 4), (w 6, 4)]
      arrays := [(w 2, 2 * d), (w 5, 4 * slots), (w 6, 4 * slots)] }
  else if op = 1 then
    { legal := w 0 < 2 ^ 20 ∧ 1 ≤ w 2 ∧ w 2 ≤ 65536 ∧ 1 ≤ w 3 ∧ w 3 ≤ 65536 ∧ w 4 = 0 ∧ w 5 < 2 ^ 20 ∧ w 6 < 2 ^ 20 ∧ w 7 = 0 ∧
        w 1 + w 2 - 1 ≤ 0xFFFFFFFE
      addrs := [(w 0, 4), (w 5, 4), (w 6, 4)]
      arrays := [(w 0, 4 * w 2), (w 5, 4 * w 3), (w 6, 4 * w 3)] }
  else
    { legal := w 0 < 2 ^ 20 ∧ w 1 < 2 ^ 20 ∧ w 2 ≤ 65536 ∧ 1 ≤ w 3 ∧ w 3 ≤ 65536 ∧ w 4 < 2 ^ 20 ∧ w 5 < 2 ^ 20 ∧ w 6 ≤ 65536 ∧ w 7 = 0
      addrs := [(w 0, 4), (w 1, 4), (w 4, 4), (w 5, 4)]
      arrays := [(w 0, 4 * w 2), (w 1, 4 * w 2), (w 4, 4 * w 6), (w 5, 4 * w 6), (w 0, 4 * w 3), (w 1, 4 * w 3)] }

def selectorWord : Instr → Option (Nat × FmtS)
  | .psel f => some (0, f)
  | .topk f => some (1, f)
  | .mergek f => some (2, f)
  | _ => none

/-- R276: (i, x) ranks before (j, y). -/
def Ranks (p q : Nat × Nat) : Prop :=
  let nan (x : Nat) : Prop := x / 2 ^ 23 % 256 = 255 ∧ x % 2 ^ 23 ≠ 0
  let val (x : Nat) : Int := if x.testBit 31 then -((x % 2 ^ 31 : Nat) : Int) else (x % 2 ^ 31 : Nat)
  (nan p.2 ∧ ¬nan q.2) ∨ (¬nan p.2 ∧ ¬nan q.2 ∧ val q.2 < val p.2) ∨
    (((nan p.2 ∧ nan q.2) ∨ (¬nan p.2 ∧ ¬nan q.2 ∧ val p.2 = val q.2)) ∧ p.1 < q.1)

/-- The first n pairs of a list in rank order, and sentinels up to k elements (R276 to R278). -/
def Ranked (xs out : List (Nat × Nat)) (n k : Nat) : Prop :=
  ∃ r : List (Nat × Nat), r.Perm xs ∧ r.Pairwise (fun p q => ¬Ranks q p) ∧
    out = r.take n ++ List.replicate (k - n) (0xFFFFFFFF, 0xFF800000)

/-- R282: of two values (n, bound), the one above goes first, NaN above all; of equal ones the higher number. -/
def RanksNew (p q : Nat × Nat) : Prop :=
  let nan (x : Nat) : Prop := x / 2 ^ 23 % 256 = 255 ∧ x % 2 ^ 23 ≠ 0
  let val (x : Nat) : Int := if x.testBit 31 then -((x % 2 ^ 31 : Nat) : Int) else (x % 2 ^ 31 : Nat)
  (nan p.2 ∧ ¬nan q.2) ∨ (¬nan p.2 ∧ ¬nan q.2 ∧ val q.2 < val p.2) ∨
    (((nan p.2 ∧ nan q.2) ∨ (¬nan p.2 ∧ ¬nan q.2 ∧ val p.2 = val q.2)) ∧ q.1 < p.1)

/-- R281: the product of two BF16 codes that are no NaNs: (±1, 0) where it is infinite, else 0 and its units of 2⁻²⁶⁶. -/
def boundProd (a b : Nat) : Int × Int :=
  if bf16.finite a && bf16.finite b then (0, bf16.units a * bf16.units b)
  else (if signBit bf16 a = signBit bf16 b then 1 else -1, 0)

/-- The greater of two such. -/
def boundMax (x y : Int × Int) : Int × Int := if x.1 < y.1 ∨ (x.1 = y.1 ∧ x.2 ≤ y.2) then y else x

/-- R281: r is the bound of a page: the query's BF16 codes, and those of kmin and kmax, of D dimensions. -/
def PageBound (d : Nat) (q kmin kmax : Nat → Nat) (r : Nat) : Prop :=
  let zero (x : Nat) : Prop := x % 2 ^ 15 = 0
  let nan (x : Nat) : Prop := x / 2 ^ 7 % 256 = 255 ∧ x % 2 ^ 7 ≠ 0
  let inf (x : Nat) : Prop := x / 2 ^ 7 % 256 = 255 ∧ x % 2 ^ 7 = 0
  let bad (i : Nat) : Prop :=
    nan (q i) ∨ (¬zero (q i) ∧ (nan (kmin i) ∨ nan (kmax i) ∨ (inf (q i) ∧ (zero (kmin i) ∨ zero (kmax i)))))
  let term (i : Nat) : Int × Int :=
    if q i % 2 ^ 15 = 0 then (0, 0) else boundMax (boundProd (q i) (kmax i)) (boundProd (q i) (kmin i))
  let up : Prop := ∃ i, i < d ∧ (term i).1 = 1
  let down : Prop := ∃ i, i < d ∧ (term i).1 = -1
  let N : Int := ((List.range d).map (fun i => (term i).2)).foldl (· + ·) 0
  ((∃ i, i < d ∧ bad i) → r = 0x7FC00000) ∧
  ((∀ i, i < d → ¬bad i) →
    (up → down → r = 0x7FC00000) ∧ (up → ¬down → r = 0x7F800000) ∧ (¬up → down → r = 0xFF800000) ∧
    (¬up → ¬down → if N = 0 then r = 0 else fp32.Rounds .rne N (2 ^ 117) r))

/-- Element i of a scratch array. -/
def Alloc.elem (A : Alloc) (addr i : Nat) : Nat := A.readN (addr + 4 * i) 4

/-- The warp's scratch after the index and the value array of a list have been written. -/
def Alloc.lists (A : Alloc) (ia va : Nat) (out : List (Nat × Nat)) : Alloc :=
  (A.write ia (out.flatMap (fun p => leBytes 4 p.1))).write va (out.flatMap (fun p => leBytes 4 p.2))

end Sys2Proof.Machine

namespace Sys2Proof.Machine

/-- R47, R250: the two-partial sum of terms with their indices, ascending: those of even index to E and of odd to O, read out to
FP32. -/
def sumTwo (ts : List (Nat × Term)) : Nat :=
  readOut fp32 ((ts.filter (fun x => x.1 % 2 == 0)).foldl (fun p x => accAdd p x.2) (0, 0))
    ((ts.filter (fun x => x.1 % 2 == 1)).foldl (fun p x => accAdd p x.2) (0, 0))

/-- M, L and O of one query row (R247). -/
structure RowState where
  m : Nat
  l : Nat
  o : Nat → Nat

def RowState.bytes (x : RowState) (d : Nat) : List Byte :=
  leBytes 4 x.m ++ leBytes 4 x.l ++ leBytes 8 0 ++ (List.range d).flatMap (fun i => leBytes 4 (x.o i))

/-- x − y rounded once; a NaN y stays as it is. -/
def minus (x y : Nat) : Nat := (fAdd fp32 .rne x (if fp32.isNan y then y else y ^^^ 0x80000000)).1

/-- R250: one page applied to a row, `us` being the tokens it attends to: the new row, and its reference values unless the page is
skipped. -/
def RowState.page (x : RowState) (scale : Nat) (us : List Nat) (q : List Term) (k v : Nat → List Term) :
    RowState × Option (Nat × Nat) :=
  let one : Term := .val (.fin false 1 0)
  let s (t : Nat) : Nat :=
    (fMul fp32 .rne (sumTwo ((q.zip (k t)).zipIdx.map (fun y => prodAt y.2 y.1.1 y.1.2))) scale).1
  match us with
  | [] => (x, none)
  | u :: rest =>
    let pm := rest.foldl (fun y t => (fMax fp32 y (s t)).1) (s u)
    if pm = 0xFF800000 then (x, none)
    else
      let m := (fMax fp32 x.m pm).1
      let alpha := if x.m = 0xFF800000 then 0 else (fEx2 (minus x.m m)).1
      let pb (t : Nat) : Term :=
        termOf 0 (bf16.value (valTo fp32 bf16 .rne false (fp32.value (fEx2 (minus (s t) m)).1)).1)
      let rs := sumTwo (us.map (fun t => prodAt t (pb t) one))
      let grow (y add : Nat) : Nat := (fAdd fp32 .rne (fMul fp32 .rne y alpha).1 add).1
      (⟨m, grow x.l rs, fun i => grow (x.o i) (sumTwo (us.map (fun t => prodAt t (pb t) (nth one (v t) i))))⟩, some (m, rs))

/-- R251: the share of one row added to x, the row's state being final. -/
def addShare (x : Nat) (row : RowState) : Option (Nat × Nat) → Nat
  | none => x
  | some (mp, rs) =>
    if fp32.finite row.l = true ∧ 0 < fp32.units row.l then
      let c := (fDiv (fMul fp32 .rne rs (fEx2 (minus mp row.m)).1).1 row.l).1
      if fp32.isNan c then x else (fAdd fp32 .rne x c).1
    else x

/-- Element i of token row t of a page of D elements a row: its exact value, none for a NaN or an infinity (R240, R241). -/
def pageElt (tag d scale : Nat) (bs : List Byte) (t i : Nat) : Option Elt :=
  let g := if tag = 0 then bf16 else if tag = 1 then e4m3 else if tag = 2 then e2m3 else e2m1
  let w := if tag = 0 then 16 else if tag = 1 then 8 else if tag = 2 then 6 else 4
  let n := d * w / 8 + (if 2 ≤ tag then d / 32 else 0)
  let row := ofLeBytes ((bs.drop (t * n)).take n)
  let x := row / 2 ^ (i * w) % 2 ^ w
  let sc := if tag = 1 then scale else row / 2 ^ (d * w + 8 * (i / 32)) % 256
  if g.finite x && !(decide (1 ≤ tag) && sc == 255) then
    some ⟨signBit g x, (g.units x).natAbs, 1 - (g.bias : Int) - g.m + (if tag = 0 then 0 else (sc : Int) - 127)⟩
  else none

/-- x is not above y: −0 lies below +0 (R38). -/
def Elt.le (x y : Elt) : Prop :=
  let m := min x.e y.e
  let a : Nat := x.n * 2 ^ (x.e - m).toNat
  let b : Nat := y.n * 2 ^ (y.e - m).toNat
  match x.neg, y.neg with
  | true, false => True
  | false, true => False
  | false, false => a ≤ b
  | true, true => b ≤ a

/-- An exact value rounded once to a format; a zero keeps its sign (R33). -/
def Elt.RoundsTo (x : Elt) (g : Fmt) (mode : RMode) (r : Nat) : Prop :=
  let t : Int := x.e + (g.bias + g.m - 1 : Nat)
  if x.n = 0 then r = (if x.neg then 2 ^ (g.eb + g.m) else 0)
  else g.Rounds mode ((if x.neg then -1 else 1) * ((x.n * 2 ^ t.toNat : Nat) : Int)) (2 ^ (-t).toNat) r

/-- R257: the summary of a K page: of each dimension the least and the greatest of the 32 keys, rounded outwards to BF16, and the
canonical NaN where one is a NaN (of a tag above 0). -/
def SummaryIs (tag d scale : Nat) (bs sum : List Byte) : Prop :=
  sum.length = 4 * d ∧ ∀ i, i < d →
    let key (t : Nat) := pageElt tag d scale bs t i
    let lo := ofLeBytes ((sum.drop (2 * i)).take 2)
    let hi := ofLeBytes ((sum.drop (2 * (d + i))).take 2)
    (1 ≤ tag → (∃ t, t < 32 ∧ key t = none) → lo = 0x7FC0 ∧ hi = 0x7FC0) ∧
    ((∀ t, t < 32 → (key t).isSome = true) → ∃ x y : Elt,
      (∃ t, t < 32 ∧ key t = some x) ∧ (∃ t, t < 32 ∧ key t = some y) ∧
      (∀ t z, t < 32 → key t = some z → x.le z ∧ z.le y) ∧ x.RoundsTo bf16 .rd lo ∧ y.RoundsTo bf16 .ru hi)

/-- R240, R412: the bytes of a page of 32 rows of D elements. -/
def pageSize (tag d : Nat) : Nat :=
  32 * (d * (if tag = 0 then 16 else if tag = 1 then 8 else if tag = 2 then 6 else 4) / 8 + (if 2 ≤ tag then d / 32 else 0))

/-- R412: the new page of a demotion to a tag, with its scale code (0 for tags 2 and 3), from the rows of the old. To E4M3 the whole
page is one block, its NaNs set aside; to the MX formats each 32 elements of a row are one, with their scale in the row. -/
def Demoted (tag d : Nat) (raise : Bool) (rows : List (List FVal)) (scale : Nat) (bytes : List Byte) : Prop :=
  bytes.length = pageSize tag d ∧
  (if tag = 1 then
    let isNan (v : FVal) : Bool := match v with
      | .nan _ _ => true
      | _ => false
    let xs := rows.flatten
    let q := qblock 2 raise ((xs.filter (fun v => !isNan v)).map (fun v => match v with
      | .inf neg => .fin neg 448 127
      | w => w))
    scale = q.1 ∧ ∀ n v, xs[n]? = some v → (nth 0 bytes n).toNat = match v with
      | .nan neg _ => if neg then 0xFF else 0x7F
      | _ => nth 0 q.2 ((xs.take n).filter (fun v => !isNan v)).length
  else
    let w := if tag = 2 then 6 else 4
    let n := d * w / 8 + d / 32
    scale = 0 ∧ ∀ t b, t < 32 → b < d / 32 →
      let q := qblock (if tag = 2 then 4 else 6) raise (((nth [] rows t).drop (32 * b)).take 32)
      let row := ofLeBytes ((bytes.drop (t * n)).take n)
      row / 2 ^ (d * w + 8 * b) % 2 ^ 8 = q.1 ∧ ∀ j, j < 32 → row / 2 ^ ((32 * b + j) * w) % 2 ^ w = nth 0 q.2 j)

/-- The same as `Stays`, whatever the bytes are that P names. -/
def State.StaysOff (s : State) (ctx va loc n : Nat) (need : Need) (P : Nat → Prop) : Prop :=
  ∀ u : State, u.host = s.host → u.trust = s.trust → u.fresh = s.fresh → (∀ x, ¬P x → u.mem.byte x = s.mem.byte x) →
    ∀ k, k < n → u.access none ctx (va + k) need = .mem (loc + k)

/-- The n bytes at va of a context stand at loc, for what the need asks, whatever the bytes from `a` to `a + m` are: no entry of
the context's tables lies there. -/
def State.Stays (s : State) (ctx va loc n : Nat) (need : Need) (a m : Nat) : Prop :=
  ∀ u : State, u.host = s.host → u.trust = s.trust → u.fresh = s.fresh →
    (∀ x, ¬(a ≤ x ∧ x < a + m) → u.mem.byte x = s.mem.byte x) → ∀ k, k < n → u.access none ctx (va + k) need = .mem (loc + k)

end Sys2Proof.Machine

/-- R246, R248, R469, Tables 8.4 and 8.6: ATTN meets its checks in order: the parameter block, alignment, the scratch it
names, the entries its list names, in list order; on class E a page of tag 2 or 3 makes it migrate. An ATTN that passes them
enters its operation with a snapshot of every entry listed, a reader against each, and changes no register and no byte. It
waits for the warp's earlier scratch stores before it reads its list (R252), and for memory that is held (R296; that it waits at issue
is log 34, DEDUCED); a list word with a double-bit error, or an entry in a poisoned unit, raises POISON (R160, R300). R250: once its
scratch words are read the engine computes the state over the listed pages in slot order, row by row, each row over its attended
tokens, an empty slot being skipped, from the pages as they stand if nothing has been written since issue (when the reads happen is
log 62, and that whole pages are read log 67, DEDUCED; the exponentials rest on log 19, PRESUMED); R251: with MASS each slot's share,
where it is not 0, is to be added to its entry, a NaN share being none (log 37, DEDUCED); R252, R253: a mass add is one saturating
read-modify-write, and when all are done the operation completes with the state record written. -/
def Obligations.AttentionWord : Prop :=
  (∀ (s : State) (id : Nat) (B : Block) (W : Warp) (o : Op) (a : AttnOp) (K V : Nat → List (List FVal)),
    Owns s id B W o → o.done = false → s.tripped = false → s.anyHeld B.ctx a.reads = false → o.kind = .attn a → a.stage = 0 →
    o.parts.all (·.done) = true → 1 ≤ a.rows → a.since = s.mem.past.length →
    let us (j r : Nat) : List Nat := match nth none a.slots j with
      | none => []
      | some (n, _) => (List.range 32).filter (fun t => decide (32 * n + t ≤ a.qpos + r))
    (∀ j n e, a.slots[j]? = some (some (n, e)) → (∃ r, r < a.rows ∧ us j r ≠ []) →
      s.readPage (some (coreCluster W.core)) B.ctx e false a.d = .ok (K j) ∧
      s.readPage (some (coreCluster W.core)) B.ctx e true a.d = .ok (V j)) →
    let word (bs : List Byte) (i : Nat) : Nat := ofLeBytes ((bs.drop (4 * i)).take 4)
    let q (r : Nat) : List Term := (List.range a.d).map (fun i =>
      termOf 0 (bf16.value (ofLeBytes (((partBytes o r).drop (2 * i)).take 2))))
    let start (r : Nat) : RowState :=
      if a.init then ⟨0xFF800000, 0, fun _ => 0⟩
      else ⟨word (partBytes o (16 + r)) 0, word (partBytes o (16 + r)) 1, fun i => word (partBytes o (16 + r)) (4 + i)⟩
    let tag (j : Nat) : Nat := ((nth none a.slots j).map (fun x => x.2.tag)).getD 0
    let elem (rows : List (List FVal)) (j t : Nat) : List Term := (nth [] rows t).map (termOf (tagType (tag j)))
    let after (n r : Nat) : RowState := (List.range n).foldl (fun x j =>
      (x.page a.scale (us j r) (q r) (elem (K j) j) (elem (V j) j)).1) (start r)
    let ref (j r : Nat) : Option (Nat × Nat) := ((after j r).page a.scale (us j r) (q r) (elem (K j) j) (elem (V j) j)).2
    ∃ (t : State) (X : Warp) (y : Op) (b : AttnOp), exec (.memRequestPerform id o.parts.length false) s = .next t ∧
      t.warp? B.uid W.idx = some X ∧ X.v = W.v ∧ X.w = W.w ∧ (∀ x, t.mem.byte x = s.mem.byte x) ∧
      (∀ r ∈ t.kv.readers, r.id ≠ id) ∧ y ∈ X.ops ∧ y.id = id ∧ y.kind = .attn b ∧ b = { a with stage := 1, outs := b.outs } ∧
      joinPieces b.outs = [(a.saddr, (List.range a.rows).flatMap (fun r => (after a.slots.length r).bytes a.d))] ∧
      y.reqs = if a.mass then (List.range a.slots.length).filterMap (fun j => (nth none a.slots j).bind (fun slot =>
          let x := (List.range a.rows).foldl (fun x r => addShare x (after a.slots.length r) (ref j r)) 0
          let m := if fp32.isNan x then 0 else min ((fp32.units x).toNat / 2 ^ 129) 0xFFFFFFFF
          if m = 0 then none else some ⟨slot.2.va + 16, 0, [(0, m, 0)], false⟩)) else []) ∧
  (∀ (s : State) (id k m loc : Nat) (B : Block) (W : Warp) (o : Op) (a : AttnOp) (r : AtomReq), Owns s id B W o →
    o.done = false → s.tripped = false → o.kind = .attn a →
    (o.reqs[k]? = some r → r.done = false → r.lanes = [(0, m, 0)] → s.vaHeld B.ctx r.va 4 = false →
      s.access (some (coreCluster W.core)) B.ctx r.va .rmw = .mem loc → (s.mem.fill loc 4).poisoned loc 4 = false →
      ∃ (t : State) (V : Warp) (y : Op), exec (.atomSlicePerform id k) s = .next t ∧
        BytesTake s.mem.byte t.mem.byte loc (leBytes 4 (min (s.mem.readN loc 4 + m) 0xFFFFFFFF)) ∧
        t.warp? B.uid W.idx = some V ∧ V.v = W.v ∧ y ∈ V.ops ∧ y.id = id ∧
        (y.reqs[k]?).map (·.done) = some true) ∧
    (∀ A bs, a.stage = 1 → o.reqs.all (·.done) = true → joinPieces a.outs = [(a.saddr, bs)] →
      (∀ p ∈ a.outs, s.scrHeld B.uid W.idx p.1 p.2.length = false) → s.allocOf B.uid W.idx = some A →
      ∃ (t : State) (V : Warp) (C : Alloc), exec (.operationComplete id) s = .next t ∧ t.warp? B.uid W.idx = some V ∧ V.v = W.v ∧
        t.allocOf B.uid W.idx = some C ∧ BytesTake A.byte C.byte a.saddr bs ∧
        ∀ n, tget 0 V.flags n = if o.setf = some n then tget 0 W.flags n - 1 else tget 0 W.flags n)) ∧
  ∀ (s : State) (x : Slot) (f : FmtS), Clear (.attn f) plainCheck s x →
    let c := x.ctx s (.attn f) plainCheck none
    let w (i : Nat) : Nat := (c.uni (f.b.toNat + i)).toNat
    let d := 64 * 2 ^ (f.sub.toNat % 4)
    let table := w 0 + 2 ^ 32 * (w 1 % 2 ^ 20)
    let npg := w 2 / 2 ^ 24 % 16 + 1
    let rows := w 2 / 2 ^ 20 % 16 + 1
    let qa := w 2 % 2 ^ 20
    let la := w 3 % 2 ^ 20
    let sa := w 4 % 2 ^ 20
    let pitch := w 6 % 2 ^ 12
    let mis (a : Nat) : Prop := (a = table ∧ a % 32 ≠ 0) ∨ (a = qa ∧ a % 16 ≠ 0) ∨ (a = la ∧ a % 4 ≠ 0) ∨ (a = sa ∧ a % 16 ≠ 0)
    let out (a : Nat) : Prop := s.scratchSize x.B.uid x.W.idx ≤ a ∧
      ((∃ r, r < rows ∧ qa + r * pitch ≤ a ∧ a < qa + r * pitch + 2 * d) ∨ (la ≤ a ∧ a < la + 4 * npg) ∨
        (sa ≤ a ∧ a < sa + rows * (16 + 4 * d)))
    let cl := some (coreCluster x.W.core)
    let number (j : Nat) : Nat := ofLeBytes (s.scrRead x.B.uid x.W.idx (la + 4 * j) 4)
    let va (j : Nat) : Nat := table + 32 * number j
    let good (j : Nat) (e : Snap) : Prop :=
      s.snapshot cl x.B.ctx (va j) = .ok e ∧ e.valid = true ∧ e.flagsOk = true ∧ e.reservedOk = true
    let passes (j : Nat) : Prop := number j = 0xFFFFFFFF ∨ ∃ e, good j e
    let held : Prop := s.scrHeld x.B.uid x.W.idx la (4 * npg) = true ∨
      ∃ j, j < npg ∧ number j ≠ 0xFFFFFFFF ∧ s.vaHeld x.B.ctx (va j) 32 = true
    let poison : Prop := x.B.aborted = false → ∃ t C, exec (.attn f) s = .next t ∧
      t.block? x.B.uid = some C ∧ C.halt = some (.abort 0x14)
    if w 1 / 2 ^ 20 ≠ 0 ∨ w 2 / 2 ^ 28 ≠ 0 ∨ w 3 / 2 ^ 20 ≠ 0 ∨ w 4 / 2 ^ 20 ≠ 0 ∨ w 6 / 2 ^ 12 ≠ 0 ∨ w 7 / 2 ^ 26 ≠ 0 ∨
        pitch < 2 * d ∨ pitch % 16 ≠ 0 then exec (.attn f) s = .next (x.trapped s 0x01 0 0 0)
    else
      (∀ a, mis a → (∀ b, mis b → a ≤ b) → exec (.attn f) s = .next (x.trapped s 0x09 0 a x.run)) ∧
      ((∀ a, ¬mis a) → ∀ a, out a → (∀ b, out b → a ≤ b) → exec (.attn f) s = .next (x.trapped s 0x06 0 a x.run)) ∧
      ((∀ a, ¬mis a) → (∀ a, ¬out a) → (c.W.scratchSettled = false ∨ held) → exec (.attn f) s = .next s) ∧
      ((∀ a, ¬mis a) → (∀ a, ¬out a) → c.W.scratchSettled = true → ¬held →
        s.scrBad x.B.uid x.W.idx la (4 * npg) = true → poison) ∧
      ((∀ a, ¬mis a) → (∀ a, ¬out a) → c.W.scratchSettled = true → ¬held → s.scrBad x.B.uid x.W.idx la (4 * npg) = false →
        (∀ j, j < npg → number j ≠ 0xFFFFFFFF → (∀ k, k < j → passes k) →
          (∀ a, s.snapshot cl x.B.ctx (va j) = .error (4, a) → poison) ∧
          (s.access cl x.B.ctx (va j) .read = .fault → exec (.attn f) s = .next (x.trapped s 0x0F 0 (va j) 4)) ∧
          ((∀ loc, s.access cl x.B.ctx (va j) .read ≠ .mem loc) → s.access cl x.B.ctx (va j) .read ≠ .fault →
            exec (.attn f) s = .next (x.trapped s 0x0F 0 (va j) 5)) ∧
          (∀ e, s.snapshot cl x.B.ctx (va j) = .ok e →
            (e.valid = false → exec (.attn f) s = .next (x.trapped s 0x0F 0 (va j) 1)) ∧
            (e.valid = true → e.flagsOk = false → exec (.attn f) s = .next (x.trapped s 0x0F 0 (va j) 2)) ∧
            (e.valid = true → e.flagsOk = true → e.reservedOk = false →
              exec (.attn f) s = .next (x.trapped s 0x0F 0 (va j) 3)))) ∧
        ((∀ j, j < npg → passes j) →
          (128 ≤ x.W.core → (∃ j e, j < npg ∧ number j ≠ 0xFFFFFFFF ∧ good j e ∧ 2 ≤ e.tag) →
            ∃ V, exec (.attn f) s = .next ((s.setWarp x.B.uid V).modBlock x.B.uid Block.freezeMig) ∧
              x.W.Halts V x.run (x.addr s) (x.resume s)) ∧
          ((x.W.core < 128 ∨ ∀ j e, j < npg → number j ≠ 0xFFFFFFFF → good j e → e.tag < 2) →
            ∃ (t : State) (V : Warp) (op : Op) (slots : List (Option (Nat × Snap))), exec (.attn f) s = .next t ∧ t.warp? x.B.uid x.W.idx = some V ∧ V.ops = c.W.ops ++ [op] ∧
              V.v = c.W.v ∧ V.w = c.W.w ∧ (∀ a, t.mem.byte a = s.mem.byte a) ∧
              t.allocs.map (fun A => { A with weak := [] }) = s.allocs.map (fun A => { A with weak := [] }) ∧ op.id = s.nextUid ∧
              op.setf = setfOf f.setf ∧
              op.kind = .attn ⟨d, f.sub.getLsbD 2, f.sub.getLsbD 3, rows, w 7 % 2 ^ 26, w 5, sa, slots, 0,
                s.mem.past.length, []⟩ ∧
              slots.length = npg ∧ ∀ j, j < npg →
                (number j = 0xFFFFFFFF → slots[j]? = some none) ∧
                (number j ≠ 0xFFFFFFFF → ∃ e, good j e ∧ slots[j]? = some (some (number j, e)) ∧
                  ⟨e.loc, e.gen, s.nextUid⟩ ∈ t.kv.readers))))

/-- R257, R283 to R286, R384, R467: PGSEAL checks its entry's address and enters its operation; its engine snapshots the entry, which
decides status 1 for one that is not VALID and 2 for one SEALED; it computes the summary of the K page, each bound rounded outwards
to BF16, and the canonical NaN where a key is a NaN (from the page as it stands if nothing has been written since the snapshot: log
62, DEDUCED); it writes it; and it ends by setting SEALED in dwords 0 and 1, if GEN, VALID and SEALED stand, with status 0, else with
2. NEXTT enters a draw, but is CTOK_FAULT in a deterministic launch in tile mode for a warp without the token. A draw in tile mode
takes the id at LIST + 4 × CUR, to its uniform register, and writes CUR + 1; one beyond COUNT, or with no schedule, takes
0xFFFF_FFFF; where LIST does not translate, CUR takes COUNT and the address is logged. In range mode a draw takes LO of its core's
range, or, where that is empty, the middle of the first range of two or more in core order after it, wrapping, whose upper half it
keeps, or 0xFFFF_FFFF. That a table that cannot be read gives DONE is log 27 (DEDUCED). Each step waits for the memory it touches
(R296, log 34). -/
def Obligations.SealAndNextTile : Prop :=
  (∀ (s : State) (x : Slot) (f : FmtS),
    (Clear (.pgseal f) plainCheck s x →
      let c := x.ctx s (.pgseal f) plainCheck none
      let va := (c.uni64 f.b.toNat).toNat
      if 2 ^ 52 ≤ va then exec (.pgseal f) s = .next (x.trapped s 0x08 0 va x.run)
      else if va % 32 ≠ 0 then exec (.pgseal f) s = .next (x.trapped s 0x09 0 va x.run)
      else x.Starts s (.pgseal f) c (.pgseal ⟨va, 64 * 2 ^ (f.sub.toNat % 4), uniDst f.a, none, none, none, 0, []⟩) f.setf
        ((uniDst f.a).toList.map Loc.uni)) ∧
    (Clear (.nextt f) plainCheck s x →
      let c := x.ctx s (.nextt f) plainCheck none
      if s.isDet x.B = true ∧ ((s.launch? x.B.launch).map Launch.schedMode).getD 0 = 1 ∧ s.holdsToken x.B x.W.idx = false then
        ∃ addr aux, exec (.nextt f) s = .next (x.trapped s 0x12 0 addr aux)
      else x.Starts s (.nextt f) c (.draw f.a.toNat) f.setf [.uni f.a.toNat])) ∧
  (∀ (s : State) (id : Nat) (B : Block) (W : Warp) (o : Op) (p : SealOp), Owns s id B W o →
    s.tripped = false → o.done = false → o.kind = .pgseal p → p.d = 64 ∨ p.d = 128 ∨ p.d = 256 →
    let cl := some (coreCluster W.core)
    let put (t : State) (p' : SealOp) : Prop := (∀ a, t.mem.byte a = s.mem.byte a) ∧
      ∃ V y, t.warp? B.uid W.idx = some V ∧ V.v = W.v ∧ V.w = W.w ∧ y ∈ V.ops ∧ y.id = id ∧ y.kind = .pgseal p'
    (∀ e, p.snap = none → p.status = none → s.vaHeld B.ctx p.va 32 = false → s.snapshot cl B.ctx p.va = .ok e →
      ∃ t : State, exec (.memRequestPerform id 0 false) s = .next t ∧
        (e.valid = false → put t { p with status := some 1 }) ∧
        (e.valid = true → e.flagsOk = true → e.reservedOk = true → e.sealed = true → put t { p with status := some 2 }) ∧
        (e.valid = true → e.flagsOk = true → e.reservedOk = true → e.sealed = false →
          put t { p with snap := some e, since := s.mem.past.length } ∧ ⟨e.loc, e.gen, id⟩ ∈ t.kv.readers)) ∧
    (∀ e bs, p.snap = some e → p.wrote = none → p.since = s.mem.past.length → e.d0 < 2 ^ 64 →
      s.vaHeld B.ctx (e.d0 / 2 ^ 20 * 256) (pageBytes e.tag p.d) = false →
      s.engRead cl B.ctx (e.d0 / 2 ^ 20 * 256) (pageBytes e.tag p.d) = .ok bs →
      ∃ (t : State) (p' : SealOp) (sum : List Byte), exec (.memRequestPerform id 1 false) s = .next t ∧ put t p' ∧
        p' = { p with wrote := p'.wrote, outs := p'.outs } ∧ p'.wrote.isSome = true ∧
        joinPieces p'.outs = [(e.summary, sum)] ∧ SummaryIs e.tag p.d (e.d3 % 256) bs sum) ∧
    (∀ i a bs loc, p.outs[i]? = some (a, bs) → s.vaHeld B.ctx a bs.length = false →
      (∀ j, j < bs.length → s.access cl B.ctx (a + j) .write = .mem (loc + j)) →
      ∃ t V y, exec (.memRequestPerform id (2 + i) false) s = .next t ∧ BytesTake s.mem.byte t.mem.byte loc bs ∧
        t.warp? B.uid W.idx = some V ∧ V.v = W.v ∧ y ∈ V.ops ∧ y.id = id ∧
        y.kind = .pgseal { p with outs := p.outs.eraseIdx i }) ∧
    (∀ st, p.status = some st → ∃ (t : State) (V : Warp), exec (.operationComplete id) s = .next t ∧
      t.warp? B.uid W.idx = some V ∧ V.v = W.v ∧ (∀ a, t.mem.byte a = s.mem.byte a) ∧ W.UniIs V id p.dst st) ∧
    (∀ e g loc, p.status = none → p.snap = some e → p.wrote = some g → p.outs = [] → s.vaHeld B.ctx e.va 32 = false →
      s.access cl B.ctx e.va .rmw = .mem loc → s.mem.poison = [] → s.mem.bad = [] →
      let d0 := s.mem.readN loc 8
      let d1 := s.mem.readN (loc + 8) 8
      let same : Prop := s.mem.readN (loc + 16) 8 / 2 ^ 32 % 2 ^ 16 = e.gen ∧ d0.testBit 0 = true ∧ d0.testBit 1 = false
      ∃ (t : State) (V : Warp), exec (.operationComplete id) s = .next t ∧ t.warp? B.uid W.idx = some V ∧ V.v = W.v ∧
        (∀ r ∈ t.kv.readers, r.id ≠ id) ∧
        (same → BytesTake s.mem.byte t.mem.byte loc (leBytes 8 (d0 ||| 2) ++ leBytes 8 (d1 ||| 2)) ∧ W.UniIs V id p.dst 0) ∧
        (¬same → (∀ a, t.mem.byte a = s.mem.byte a) ∧ W.UniIs V id p.dst 2))) ∧
  (∀ (s : State) (id dst : Nat) (B : Block) (W : Warp) (o : Op) (L : Launch) (loc : Nat → Nat), Owns s id B W o →
    s.tripped = false → o.done = false → o.kind = .draw dst → s.anyHeld L.ctx (s.drawTouches L B.sched) = false →
    (∀ y ∈ W.opsBefore id, ∀ n, y.kind ≠ .draw n) → s.launch? B.launch = some L → L.schedMode = 2 →
    s.mem.poison = [] → s.mem.bad = [] → L.rangeCores.Pairwise (· < ·) →
    (∀ v, v ∈ L.rangeCores ∨ v = B.sched → ∀ k, k < 8 →
      s.access none L.ctx (L.schedtab + 16 * v + k) .read = .mem (loc v + k) ∧
      s.access none L.ctx (L.schedtab + 16 * v + k) .write = .mem (loc v + k)) →
    (∀ v, v ∈ L.rangeCores ∨ v = B.sched → v ≠ B.sched → loc v + 8 ≤ loc B.sched ∨ loc B.sched + 8 ≤ loc v) →
    let lo (v : Nat) := s.mem.readN (loc v) 4
    let hi (v : Nat) := s.mem.readN (loc v + 4) 4
    let c := B.sched
    let before (w v : Nat) : Prop := (c < w ∧ (v < c ∨ w < v)) ∨ (w < c ∧ v < c ∧ w < v)
    (lo c < hi c → ∃ (t : State) (V : Warp), exec (.operationComplete id) s = .next t ∧ t.warp? B.uid W.idx = some V ∧
      BytesTake s.mem.byte t.mem.byte (loc c) (leBytes 4 (lo c + 1) ++ leBytes 4 (hi c)) ∧ W.UniIs V id (some dst) (lo c)) ∧
    (hi c ≤ lo c → (∀ v ∈ L.rangeCores, v ≠ c → hi v < lo v + 2) →
      ∃ (t : State) (V : Warp), exec (.operationComplete id) s = .next t ∧ t.warp? B.uid W.idx = some V ∧
        (∀ a, t.mem.byte a = s.mem.byte a) ∧ W.UniIs V id (some dst) 0xFFFFFFFF) ∧
    (hi c ≤ lo c → ∀ v ∈ L.rangeCores, v ≠ c → lo v + 2 ≤ hi v →
      (∀ w ∈ L.rangeCores, w ≠ c → before w v → hi w < lo w + 2) →
      s.Stays L.ctx (L.schedtab + 16 * c) (loc c) 8 .write (loc v) 8 →
      let m := lo v + (hi v - lo v + 1) / 2
      ∃ (t : State) (V : Warp), exec (.operationComplete id) s = .next t ∧ t.warp? B.uid W.idx = some V ∧
        (∀ a, t.mem.byte a =
          if loc v ≤ a ∧ a < loc v + 8 then nth 0 (leBytes 4 (lo v) ++ leBytes 4 m) (a - loc v)
          else if loc c ≤ a ∧ a < loc c + 8 then nth 0 (leBytes 4 (m + 1) ++ leBytes 4 (hi v)) (a - loc c)
          else s.mem.byte a) ∧
        W.UniIs V id (some dst) m)) ∧
  (∀ (s : State) (id dst : Nat) (B : Block) (W : Warp) (o : Op) (L : Launch) (e list : Nat), Owns s id B W o →
    s.tripped = false → s.anyHeld L.ctx (s.drawTouches L B.sched) = false → o.done = false → o.kind = .draw dst → (∀ y ∈ W.opsBefore id, ∀ n, y.kind ≠ .draw n) →
    s.launch? B.launch = some L →
    (L.schedMode = 0 → ∃ (t : State) (V : Warp), exec (.operationComplete id) s = .next t ∧ t.warp? B.uid W.idx = some V ∧
      (∀ a, t.mem.byte a = s.mem.byte a) ∧ W.UniIs V id (some dst) 0xFFFFFFFF) ∧
    (L.schedMode = 1 → (∀ a, s.access none L.ctx (L.schedtab + 16 * B.sched) .read ≠ .mem a) →
      s.vaPoisoned none L.ctx (L.schedtab + 16 * B.sched + 8) 8 = false →
      ∃ (t : State) (V : Warp), exec (.operationComplete id) s = .next t ∧ t.warp? B.uid W.idx = some V ∧
        (∀ a, t.mem.byte a = s.mem.byte a) ∧ W.UniIs V id (some dst) 0xFFFFFFFF ∧
        (L.ctx, L.schedtab + 16 * B.sched) ∈ t.telemetry) ∧
    (L.schedMode = 1 → L.schedtab + 16 * B.sched < 2 ^ 64 →
      (∀ k, k < 16 → s.access none L.ctx (L.schedtab + 16 * B.sched + k) .read = .mem (e + k) ∧
        s.access none L.ctx (L.schedtab + 16 * B.sched + k) .write = .mem (e + k)) →
      s.vaPoisoned none L.ctx (L.schedtab + 16 * B.sched) 8 = false →
      s.vaPoisoned none L.ctx (L.schedtab + 16 * B.sched + 8) 8 = false →
      let base := s.mem.readN e 8 % 2 ^ 52
      let count := s.mem.readN (e + 8) 4
      let cur := s.mem.readN (e + 12) 4
      (cur < count → (∀ a, s.access none L.ctx (base + 4 * cur) .read ≠ .mem a) →
        ∃ (t : State) (V : Warp), exec (.operationComplete id) s = .next t ∧ t.warp? B.uid W.idx = some V ∧
          BytesTake s.mem.byte t.mem.byte (e + 12) (leBytes 4 count) ∧ W.UniIs V id (some dst) 0xFFFFFFFF ∧
          (L.ctx, base + 4 * cur) ∈ t.telemetry) ∧
      (count ≤ cur → ∃ (t : State) (V : Warp), exec (.operationComplete id) s = .next t ∧ t.warp? B.uid W.idx = some V ∧
        (∀ a, t.mem.byte a = s.mem.byte a) ∧ W.UniIs V id (some dst) 0xFFFFFFFF) ∧
      (cur < count → (∀ k, k < 4 → s.access none L.ctx (base + 4 * cur + k) .read = .mem (list + k)) →
        s.vaPoisoned none L.ctx (base + 4 * cur) 4 = false →
        ∃ (t : State) (V : Warp), exec (.operationComplete id) s = .next t ∧ t.warp? B.uid W.idx = some V ∧
          BytesTake s.mem.byte t.mem.byte (e + 12) (leBytes 4 (cur + 1)) ∧
          W.UniIs V id (some dst) (s.mem.readN list 4))))

/-- R271, R272, R273, Table 9.3: a selector word meets its checks in order: its parameters, alignment, the scratch arrays it
names; it waits while its cluster's queue holds 32 operations, and else enters it at the end. R273, R276, R277, R278, Table
9.4: a TOPK at the head of its cluster's queue writes the first min(K, N) of its pairs in rank order and sentinels after
them, then its status 0 and its count, and leaves the queue; a MERGEK ranks the pairs of its two lists into list 1's arrays;
with an empty queue nothing happens. R274, R279 to R282, R469, Table 9.4: a PSEL snapshots its entries one by one, with a reader
against each that is VALID, and ends with status 3 at one of those that is not well formed, with 1, 2 or 4 at one it cannot read,
writing nothing and logging the address; then it computes the bound of each ranked page; then it writes the sinks, the first K
ranked pages, the recents and sentinels, its status and its count. R160, R274: scratch that cannot be read ends an operation with
status 4. R296: a step waits for memory that is held. When in an operation its reads happen is log 62 (DEDUCED): it is stated where
nothing has been written since they could begin; that each snapshot and each bound is a step of its own is log 6 (DEDUCED). -/
def Obligations.Selector : Prop :=
  (∀ (s : State) (x : Slot) (i : Instr) (op : Nat) (f : FmtS), selectorWord i = some (op, f) → Clear i plainCheck s x →
     let c := x.ctx s i plainCheck none
     let p := (List.range 8).map (fun k => (c.uni (f.b.toNat + k)).toNat)
     let tab := selTable op (fun k => nth 0 p k)
     let mis (a : Nat) : Prop := ∃ q ∈ tab.addrs, a = q.1 ∧ a % q.2 ≠ 0
     let out (a : Nat) : Prop := s.scratchSize x.B.uid x.W.idx ≤ a ∧ ∃ q ∈ tab.arrays, q.1 ≤ a ∧ a < q.1 + q.2
     let cl := coreCluster x.W.core
     (¬tab.legal → exec i s = .next (x.trapped s 0x01 0 0 0)) ∧
     (tab.legal →
       (∀ a, mis a → (∀ b, mis b → a ≤ b) → exec i s = .next (x.trapped s 0x09 0 a x.run)) ∧
       ((∀ a, ¬mis a) →
         (∀ a, out a → (∀ b, out b → a ≤ b) → exec i s = .next (x.trapped s 0x06 0 a x.run)) ∧
         ((∀ a, ¬out a) →
           if 32 ≤ (tget [] s.selq cl).length then exec i s = .next s
           else ∃ t : State, exec i s = .next t ∧
             x.Enters s t c.W
               (Slot.op s c (.select ⟨op, uniDst f.a, uniDst f.c, p, 0, if op = 0 then nth 0 p 3 else 0, [], [], none, none⟩) f.setf [] [])
               (((uniDst f.a).toList ++ (uniDst f.c).toList).map Loc.uni)
               { s with selq := tset [] s.selq cl (tget [] s.selq cl ++ [s.nextUid]) })))) ∧
  (∀ (s : State) (cl : Nat),
     (s.selQueue cl = [] → exec (.selectorOperation cl) s = .next s) ∧
     ∀ (id : Nat) (rest : List Nat) (B : Block) (W : Warp) (o : Op) (y : SelOp) (A : Alloc),
       s.selQueue cl = id :: rest → Owns s id B W o → o.kind = .select y → s.allocOf B.uid W.idx = some A → s.tripped = false →
       ({ W with ops := W.opsBefore id } : Warp).scratchSettled = true → y.ended = none →
       (s.selHeld B W y = true → exec (.selectorOperation cl) s = .next s) ∧ (s.selHeld B W y = false →
       let p (k : Nat) : Nat := nth 0 y.p k
       let wrote (status n ia va : Nat) (out : List (Nat × Nat)) : Prop :=
         ∃ (t : State) (V : Warp) (C : Alloc), exec (.selectorOperation cl) s = .next t ∧
           t.allocOf B.uid W.idx = some C ∧ C.byte = (A.lists ia va out).byte ∧ t.selQueue cl = rest ∧
           t.warp? B.uid W.idx = some V ∧ V.v = W.v ∧
           W.UniIs V id y.cnt n ∧ (y.dst ≠ y.cnt → W.UniIs V id y.dst status) ∧
           (∀ r, y.dst ≠ some r → y.cnt ≠ some r → V.wRaw r = W.wRaw r) ∧ (∀ r ∈ t.kv.readers, r.id ≠ id) ∧
           ((∀ g ∈ A.pages, g.pin.isSome = true) → s.allocs.find? (fun a => a.id == A.id) = some A →
             ∀ a, t.mem.byte a = s.mem.byte a)
       let ends (ia va n k : Nat) (xs : List (Nat × Nat)) : Prop := ∃ out, Ranked xs out n k ∧ wrote 0 n ia va out
       let same (t : State) : Prop := t.allocs.map (fun A => { A with weak := [] }) = s.allocs.map (fun A => { A with weak := [] })
       let fails (status a : Nat) : Prop :=
         ∃ (t : State) (V : Warp), exec (.selectorOperation cl) s = .next t ∧ same t ∧ t.selQueue cl = rest ∧
           (∀ a, t.mem.byte a = s.mem.byte a) ∧ t.warp? B.uid W.idx = some V ∧ V.v = W.v ∧ W.UniIs V id y.cnt 0 ∧
           (y.dst ≠ y.cnt → W.UniIs V id y.dst status) ∧ (B.ctx, a) ∈ t.telemetry ∧ (∀ r ∈ t.kv.readers, r.id ≠ id)
       let bad (a n : Nat) : Bool := s.scrBad B.uid W.idx a n
       (y.op = 1 → y.begun = none → bad (p 0) (4 * p 2) = true → ∃ a, p 0 / 4 * 4 ≤ a ∧ a < p 0 + 4 * p 2 ∧ fails 4 a) ∧
       (y.op = 1 → y.begun = none → bad (p 0) (4 * p 2) = false →
         ends (p 5) (p 6) (min (p 3) (p 2)) (p 3)
           ((List.range (p 2)).map (fun e => (p 1 + e, A.elem (p 0) e)))) ∧
       (y.op = 2 → y.begun = none → (p 2 ≠ 0 → bad (p 0) (4 * p 2) = false ∧ bad (p 1) (4 * p 2) = false) →
         (p 6 ≠ 0 → bad (p 4) (4 * p 6) = false ∧ bad (p 5) (4 * p 6) = false) →
         ends (p 0) (p 1) (min (p 3) (p 2 + p 6)) (p 3)
           ((List.range (p 2)).map (fun e => (A.elem (p 0) e, A.elem (p 1) e)) ++
             (List.range (p 6)).map (fun e => (A.elem (p 4) e, A.elem (p 5) e)))) ∧
       (y.op = 0 →
         let d := 64 * 2 ^ (p 1 / 2 ^ 28 % 4)
         let lo := p 3
         let hi := p 4
         let nSink := min (p 1 / 2 ^ 20 % 16) (hi - lo)
         let nRecent := min (p 1 / 2 ^ 24 % 16) (hi - lo - nSink)
         let sink (n : Nat) : Bool := decide (n < lo + nSink)
         let recent (n : Nat) : Bool := !sink n && decide (hi ≤ n + nRecent)
         let va := p 1 % 2 ^ 20 * 2 ^ 32 + p 0 + 32 * y.next
         let put (t : State) (y' : SelOp) : Prop := (∀ a, t.mem.byte a = s.mem.byte a) ∧ same t ∧
           t.selQueue cl = id :: rest ∧
           ∃ (V : Warp) (z : Op), t.warp? B.uid W.idx = some V ∧ V.v = W.v ∧ V.w = W.w ∧ z ∈ V.ops ∧ z.id = id ∧ z.kind = .select y'
         let view : Prop := y.begun = some (s.mem.past.length, A.past.length)
         (y.stage = 0 → lo ≤ y.next → y.next < hi →
           (∀ st a, s.snapshot (some cl) B.ctx va = .error (st, a) → fails st a) ∧
           (∀ e, s.snapshot (some cl) B.ctx va = .ok e →
             (e.valid = true → (e.flagsOk = false ∨ e.reservedOk = false) → fails 3 va) ∧
             (e.valid = false ∨ (e.flagsOk = true ∧ e.reservedOk = true) →
               let last := decide (y.next + 1 = hi)
               ∃ (t : State) (y' : SelOp), exec (.selectorOperation cl) s = .next t ∧ put t y' ∧
                 y' = { y with
                   snaps := y.snaps ++ (if e.valid then [(y.next, e)] else [])
                   begun := y'.begun
                   stage := if last then 1 else 0
                   next := if last then 0 else y.next + 1 } ∧
                 (last = true → y'.begun = some (t.mem.past.length, A.past.length)) ∧
                 (e.valid = true → ⟨e.loc, e.gen, id⟩ ∈ t.kv.readers)))) ∧
         (y.stage = 1 → bad (p 2) (2 * d) = true → ∃ a, p 2 / 4 * 4 ≤ a ∧ a < p 2 + 2 * d ∧ fails 4 a) ∧
         (y.stage = 1 → bad (p 2) (2 * d) = false →
           (∀ n e bs, (y.snaps.filter (fun e => e.2.sealed && !sink e.1 && !recent e.1))[y.next]? = some (n, e) → view →
             s.engRead (some cl) B.ctx e.summary (4 * d) = .ok bs →
             let code (i : Nat) : Nat := ofLeBytes ((bs.drop (2 * i)).take 2)
             ∃ (t : State) (r : Nat), exec (.selectorOperation cl) s = .next t ∧
               put t { y with next := y.next + 1, bounds := y.bounds ++ [(n, r)] } ∧
               PageBound d (fun i => A.readN (p 2 + 2 * i) 2) code (fun i => code (d + i)) r) ∧
           ((y.snaps.filter (fun e => e.2.sealed && !sink e.1 && !recent e.1)).length ≤ y.next →
             ∃ r : List (Nat × Nat), r.Perm y.bounds ∧ r.Pairwise (fun a b => ¬RanksNew b a) ∧
               let pages := ((y.snaps.filter (fun e => sink e.1)).map (fun e => (e.1, 0x7F800000))) ++ r.take (p 7) ++
                 ((y.snaps.filter (fun e => recent e.1)).map (fun e => (e.1, 0x7F800000)))
               wrote 0 pages.length (p 5) (p 6)
                 (pages ++ List.replicate (nSink + p 7 + nRecent - pages.length) (0xFFFFFFFF, 0xFF800000)))))))

/-! ## The copy engine, tuple space, suffix matching -/

namespace Sys2Proof.Machine

/-- CKICK, CBSET and CBWAIT (R203, R208): bytes of the scratch object, its address, the operation, the uniform registers it
will write. A CBWAIT has not yet seen its object free. -/
def objectWord (s : State) (x : Slot) (c : Iss) : Instr → Option (Nat × Nat × OpKind × BitVec 4 × List Loc)
  | .ckick f => some (64, (c.uni f.b.toNat).toNat,
      .ckick (uniDst f.a) (c.uni f.b.toNat).toNat (s.holdsToken x.B x.W.idx), f.setf, (uniDst f.a).toList.map Loc.uni)
  | .cbset f => some (8, (c.uni f.b.toNat).toNat, .cbset (c.uni f.b.toNat).toNat (c.uni f.c.toNat).toNat, f.setf, [])
  | .cbwait f => some (8, (c.uni f.b.toNat).toNat, .cbwait (uniDst f.a) (c.uni f.b.toNat).toNat none, f.setf,
      (uniDst f.a).toList.flatMap (fun n => [Loc.uni n, Loc.uni (n + 1)]))
  | _ => none

/-- Field of n bits from bit lo of dword i of a record (Tables 6.9 and 6.10). -/
def recField (bs : List Byte) (i lo n : Nat) : Nat := ofLeBytes ((bs.drop (8 * i)).take 8) / 2 ^ lo % 2 ^ n

/-- R159, R200, Table 6.10: the box of a request record: extents, where byte x of a row lies in scratch, bits of an element, row and
column of an element, bytes of a row, rows. -/
def recBox (bs : List Byte) (k : Nat) : Nat := if k < 4 then recField bs 5 (16 * k) 16 else recField bs 6 0 16
def recAt (bs : List Byte) (row x : Nat) : Nat :=
  recField bs 0 12 20 + row * recField bs 0 32 12 + rotate (recField bs 0 44 4) row x
def recElemBits (bs : List Byte) : Nat :=
  let f := recField bs 0 52 4
  if f ≤ 1 then 16 else if f = 4 ∨ f = 5 then 6 else if f = 6 then 4 else 8
def recTrans (bs : List Byte) : Bool := recField bs 0 49 1 == 1
def recWidth (bs : List Byte) : Nat := recBox bs (if recTrans bs then 1 else 0)
def recRowBytes (bs : List Byte) : Nat := (recWidth bs * recElemBits bs + 7) / 8
def recRows (bs : List Byte) : Nat := recBox bs (if recTrans bs then 0 else 1) * (recBox bs 2 * (recBox bs 3 * recBox bs 4))
def recRow (bs : List Byte) (i : Nat → Nat) : Nat :=
  let deep := i 2 + recBox bs 2 * (i 3 + recBox bs 3 * i 4)
  if recTrans bs then i 0 + recBox bs 0 * deep else i 1 + recBox bs 1 * deep
def recCol (bs : List Byte) (i : Nat → Nat) : Nat := if recTrans bs then i 1 else i 0

/-- Bit b of the element at a row and a column of a tile in scratch (R200). -/
def tileBit (bs : List Byte) (m : Nat → Byte) (row col b : Nat) : Bool :=
  (m (recAt bs row ((col * recElemBits bs + b) / 8))).toNat.testBit ((col * recElemBits bs + b) % 8)

/-- Table 6.11: what refuses a record with BADREC, and what with BADBAR, in an allocation of `size` bytes. -/
def recBad (bs : List Byte) (size : Nat) : Prop :=
  let g := recField bs
  g 0 48 1 ≠ 0 ∨ g 0 0 8 ≠ 0 ∨ g 1 52 12 ≠ 0 ∨ g 4 32 32 ≠ 0 ∨ g 6 36 28 ≠ 0 ∨ g 7 20 44 ≠ 0 ∨ 2 ≤ g 0 8 2 ∨
    (g 0 50 2 ≠ 0 ∧ g 0 8 2 = 1) ∨ (g 0 56 8 = 255 ∧ g 0 50 2 = 1) ∨ 8 ≤ g 0 52 4 ∨ g 1 0 52 % 64 ≠ 0 ∨
    g 0 32 12 % 16 ≠ 0 ∨ g 0 32 12 = 0 ∨ g 0 12 20 % 16 ≠ 0 ∨ (∃ k, k < 5 ∧ recBox bs k = 0) ∨ g 0 32 12 < recRowBytes bs ∨
    ∃ row x, row < recRows bs ∧ x < recRowBytes bs ∧ size ≤ recAt bs row x
def recBadBar (bs : List Byte) (size : Nat) : Prop :=
  recField bs 6 16 20 % 8 ≠ 0 ∨ size < recField bs 6 16 20 + 8 ∨ (2 ≤ recField bs 0 50 2 ∧ size ≤ recField bs 7 0 20)

/-- R200, Table 6.9: element (c0, …, c4) of a tensor: within its extents, and its address. -/
def elemIn (td : List Byte) (c : Nat → Int) : Prop :=
  ∀ k, k < 5 → 0 ≤ c k ∧ c k < ((if k < recField td 0 56 3 then recField td (1 + k / 2) (32 * (k % 2)) 32 else 1 : Nat) : Int)
def elemSize (td : List Byte) : Nat := if recField td 0 52 4 ≤ 1 then 2 else 1
def elemVa (td : List Byte) (c : Nat → Int) : Nat :=
  let part (k : Nat) : Nat := if k < recField td 0 56 3 then (c k).toNat * recField td (3 + k) 0 48 else 0
  recField td 0 0 52 + (c 0).toNat * elemSize td + part 1 + part 2 + part 3 + part 4

/-- R198, R201, R202: a request can use a descriptor. -/
def descOk (bs td : List Byte) : Prop :=
  let rank := recField td 0 56 3
  let fmt := recField td 0 52 4
  1 ≤ rank ∧ rank ≤ 5 ∧ (fmt ≤ 3 ∨ fmt = 7) ∧ recField td 0 0 52 % 16 = 0 ∧
    (∀ k, 1 ≤ k → k < rank → recField td (3 + k) 0 48 % 16 = 0) ∧
    (if recField bs 0 50 2 = 0 then recField bs 0 52 4 = fmt
     else fmt ≤ 1 ∧ 2 ≤ recField bs 0 52 4 ∧ recField bs 0 52 4 ≤ 6)

/-- R207: k tile bytes are counted in one step: the object before and after. -/
def Counts (x y k : Nat) : Prop :=
  let count := (BitVec.ofInt 32 ((BitVec.ofNat 32 x).toInt - k)).toInt
  let armed : Prop := x / 2 ^ 55 % 2 = 1
  (BitVec.ofNat 32 y).toInt = count ∧ y / 2 ^ 32 % 2 ^ 23 = x / 2 ^ 32 % 2 ^ 23 ∧
    (¬armed ∨ 0 < count → y / 2 ^ 55 = x / 2 ^ 55) ∧
    (armed → count = 0 → y / 2 ^ 55 % 2 = 0 ∧ y / 2 ^ 56 = x / 2 ^ 56) ∧
    (armed → count < 0 → y / 2 ^ 55 % 2 = 0 ∧ y / 2 ^ 63 = 1 ∧
      y / 2 ^ 56 % 2 ^ 7 = if x / 2 ^ 56 % 2 ^ 7 = 0 then 5 else x / 2 ^ 56 % 2 ^ 7)

/-- The requests of a queue, without what an engine notes of when they could start. -/
def requestsOf (q : List CopyEntry) : List CopyReq := q.filterMap (fun e => match e with
  | .request r => some { r with since := (0, 0) }
  | .fence _ _ => none)

/-- Where an object in the core was armed without an error, a CBWAIT on it that has become free has kept it as it stands, and one on
an object still armed has not (R208). -/
def Noticed (s t : State) (A C : Alloc) (addr : Nat) : Prop :=
  A.readN addr 8 / 2 ^ 55 % 2 = 1 → A.readN addr 8 / 2 ^ 63 = 0 → A.bad = [] → (∀ p ∈ A.pages, p.pin.isSome = true) →
  ∀ (w : Nat) (W : Warp) (z : Op) (d : Option Nat), s.allocOf A.owner w = some A → s.warp? A.owner w = some W → z ∈ W.ops →
    z.kind = .cbwait d addr none → W.mayPerform z [0] addr 8 = true →
    ∃ (V : Warp) (z' : Op), t.warp? A.owner w = some V ∧ z' ∈ V.ops ∧ z'.id = z.id ∧
      z'.kind = .cbwait d addr (if C.readN addr 8 / 2 ^ 55 % 2 = 1 ∧ C.readN addr 8 / 2 ^ 63 = 0 then none else some (C.readN addr 8))

/-- The tuple words: 0 deposit, 1 copy, 2 take; whether the form blocks. -/
def tupleWord : Instr → Option (Nat × Bool × FmtS)
  | .tdep f => some (0, false, f)
  | .tcpy f => some (1, false, f)
  | .tcpyWait f => some (1, true, f)
  | .ttak f => some (2, false, f)
  | .ttakWait f => some (2, true, f)
  | _ => none

/-- The SX words (R425): the meaning whose checks it has, the image VA of SXSAVE and SXLOAD, the operation, the registers it
will write. -/
def suffixWord (c : Iss) : Instr → Option (Meaning × Option Nat × SxOp × BitVec 4 × List Loc)
  | .sxinit f => some (plainCheck, none, ⟨0, uniDst f.a, (c.uni f.b.toNat).toNat, (c.uni (f.b.toNat + 1)).toNat, [], f.c.toNat, c.run, none⟩,
      f.setf, [])
  | .sxapp f => some (readsLanes (fun _ => BitVec.allOnes 32), none,
      ⟨1, uniDst f.a, (c.uni f.b.toNat).toNat, (c.uni (f.b.toNat + 1)).toNat, (List.range 32).map (fun l => c.src f.c l), f.c.toNat,
        c.run, none⟩, f.setf, [])
  | .sxqry f => some (plainCheck, none, ⟨2, uniDst f.a, (c.uni f.b.toNat).toNat, (c.uni (f.b.toNat + 1)).toNat, [], f.c.toNat, c.run, none⟩,
      f.setf, [.uni (f.a.toNat + 1), .lane f.c.toNat])
  | .sxtrim f => some (plainCheck, none, ⟨3, uniDst f.a, (c.uni f.b.toNat).toNat, (c.uni (f.b.toNat + 1)).toNat, [], f.c.toNat, c.run, none⟩,
      f.setf, [])
  | .sxsave f => some (plainCheck, some (c.uni64 f.c.toNat).toNat,
      ⟨4, uniDst f.a, (c.uni f.b.toNat).toNat, (c.uni64 f.c.toNat).toNat, [], f.c.toNat, c.run, none⟩, f.setf, [])
  | .sxload f => some (plainCheck, some (c.uni64 f.c.toNat).toNat,
      ⟨5, uniDst f.a, (c.uni f.b.toNat).toNat, (c.uni64 f.c.toNat).toNat, [], f.c.toNat, c.run, none⟩, f.setf, [])
  | _ => none

/-- R424: a match of the last l tokens of a list ends at position j, before the last. -/
def Matches (cs : List Word) (l j : Nat) : Prop :=
  l ≤ j + 1 ∧ j + 1 < cs.length ∧ ∀ k, k < l → cs[j - k]? = cs[cs.length - 1 - k]?

/-- R424: the longest match, of at most m tokens, its latest end, and the tokens that followed it, at most d; none gives 0
and no token. -/
def Proposes (c : List Word) (m d l : Nat) (prop : List Word) : Prop :=
  l ≤ m ∧ (∀ k j, l < k → k ≤ m → ¬Matches c k j) ∧
  ((l = 0 ∧ prop = []) ∨ ∃ j, 0 < l ∧ Matches c l j ∧ (∀ i, j < i → ¬Matches c l i) ∧
    prop = (c.drop (j + 1)).take (min (j + d) (c.length - 1) - j))

end Sys2Proof.Machine

/-- R203, R205, R206, R208, R209: the copy engine's words check their object and enter their operations, a CBWAIT keeping its
object if that is free already; CQFENCE enters its. CKICK, once the memory words before it but CBWAITs are performed and its queue has
room, gives the status of Table 6.11 and, for 0, enters its request with the record's bytes. CBSET arms the object with its count
added, or releases it at 0, or marks it overrun below 0; CBWAIT waits while the object is armed without an error and then takes it as
it stood at the first moment that it was not. CQFENCE waits until its queues have room, and ends when no entry of it is left. A
request leaves its queue: R159, R200, R201, R202, R207: of DIR 0, each element of its tile holds the bits of its tensor element, or
their conversion, or +0 for one that is not inside, and no other byte but the object, and the scale, changes; of DIR 1, each tensor
element that is inside takes its element's bits, and no other byte of memory changes; the object counts the tile bytes, a CBWAIT on it
noticing the moment; and one whose descriptor has no translation takes error 1 into its object and logs the address. A request waits
while memory it touches is held (R296; log 34). That the request is one step, its reads before its writes, is log 38
(DEDUCED); it is stated where nothing has been written since it could start (log 62, DEDUCED), and for a count that does not pass 0 on
its way. R160, R300: an object, or a record, that cannot be read raises POISON. That an allocation's own bytes stand beside those of a
spill page is log 54 (DESIGN CHOICE). -/
def Obligations.CopyWords : Prop :=
  (∀ (s : State) (x : Slot) (i : Instr), Clear i plainCheck s x →
    let c := x.ctx s i plainCheck none
    ∀ n addr kind setf locs, objectWord s x c i = some (n, addr, kind, setf, locs) →
    if addr % n ≠ 0 then exec i s = .next (x.trapped s 0x09 0 addr x.run)
    else if s.scratchSize x.B.uid x.W.idx < addr + n then
      exec i s = .next (x.trapped s 0x06 0 (max addr (s.scratchSize x.B.uid x.W.idx)) x.run)
    else
      let op := Slot.op s c kind setf [⟨0, 0, addr, addr, n, [], false⟩] []
      ∃ t u : State, exec i s = .next t ∧ x.Enters s u c.W op locs s ∧
        ((∀ f, i ≠ .cbwait f) → t = u) ∧
        (∀ f, i = .cbwait f → t = { u with blocks := t.blocks } ∧ ∀ (A : Alloc) (U : Warp),
          s.allocOf x.B.uid x.W.idx = some A → u.warp? x.B.uid x.W.idx = some U →
          ∃ (V : Warp) (z : Op), t.warp? x.B.uid x.W.idx = some V ∧ V = { U with ops := V.ops } ∧ z ∈ V.ops ∧ z.id = s.nextUid ∧
            let o := A.readN addr 8
            let seen := if U.mayPerform op [0] addr 8 = false ∨ (o / 2 ^ 55 % 2 = 1 ∧ o / 2 ^ 63 = 0) then none else some o
            z = { op with kind := .cbwait (uniDst f.a) addr seen })) ∧
  (∀ (s : State) (x : Slot) (f : FmtS), Clear (.cqfence f) plainCheck s x →
    x.Starts s (.cqfence f) (x.ctx s (.cqfence f) plainCheck none) (.cqfence f.sub.toNat false) f.setf []) ∧
  (∀ (s : State) (id : Nat) (B : Block) (W : Warp) (o : Op) (addr : Nat) (A : Alloc), Owns s id B W o → s.tripped = false →
    o.done = false → s.allocOf B.uid W.idx = some A → s.allocs.find? (fun a => a.id == A.id) = some A →
    ((∃ n, o.kind = .cbset addr n) ∨ (∃ d, o.kind = .cbwait d addr none) →
      (W.mayPerform o [0] addr 8 = false ∨ s.scrHeld B.uid W.idx addr 8 = true → exec (.operationComplete id) s = .next s) ∧
      (W.mayPerform o [0] addr 8 = true → s.scrHeld B.uid W.idx addr 8 = false → s.scrBad B.uid W.idx addr 8 = true →
        B.aborted = false → ∃ (t : State) (C : Block), exec (.operationComplete id) s = .next t ∧ t.block? B.uid = some C ∧
          C.halt = some (.abort 0x14))) ∧
    (s.scrHeld B.uid W.idx addr 8 = false → s.scrBad B.uid W.idx addr 8 = false →
    let x := A.readN addr 8
    (∀ n, o.kind = .cbset addr n →
      (W.mayPerform o [0] addr 8 = true → ∃ (t : State) (C : _), exec (.operationComplete id) s = .next t ∧
        t.allocOf B.uid W.idx = some C ∧ SpillTakes s t A addr (leBytes 8 (C.readN addr 8)) ∧
        let y := C.readN addr 8
        let count := (BitVec.ofInt 32 ((BitVec.ofNat 32 x).toInt + n)).toInt
        BytesTake A.byte C.byte addr (leBytes 8 y) ∧ (BitVec.ofNat 32 y).toInt = count ∧ y / 2 ^ 32 % 2 ^ 23 = x / 2 ^ 32 % 2 ^ 23 ∧
        if count < 0 then y / 2 ^ 55 % 2 = 0 ∧ y / 2 ^ 63 = 1 ∧
          y / 2 ^ 56 % 2 ^ 7 = (if x / 2 ^ 56 % 2 ^ 7 = 0 then 5 else x / 2 ^ 56 % 2 ^ 7)
        else y / 2 ^ 55 % 2 = (if count = 0 then 0 else 1) ∧ y / 2 ^ 56 = x / 2 ^ 56)) ∧
    (∀ d seen, o.kind = .cbwait (some d) addr seen → W.mayPerform o [0] addr 8 = true →
      let x := seen.getD x
      (x / 2 ^ 55 % 2 = 1 ∧ x / 2 ^ 63 = 0 → exec (.operationComplete id) s = .next s) ∧
      (¬(x / 2 ^ 55 % 2 = 1 ∧ x / 2 ^ 63 = 0) → ∃ (t : State) (V : Warp) (C : Alloc), exec (.operationComplete id) s = .next t ∧
        t.warp? B.uid W.idx = some V ∧ t.allocOf B.uid W.idx = some C ∧ C.byte = A.byte ∧ (∀ a, t.mem.byte a = s.mem.byte a) ∧
        W.UniIs V id (some d) (x % 2 ^ 32) ∧ W.UniIs V id (some (d + 1)) (x / 2 ^ 32))))) ∧
  (∀ (s : State) (id : Nat) (B : Block) (W : Warp) (o : Op) (d : Option Nat) (addr : Nat) (token : Bool) (A : Alloc),
    Owns s id B W o → s.tripped = false → o.done = false → o.kind = .ckick d addr token → s.allocOf B.uid W.idx = some A →
    W.mayPerform o [0] addr 64 = true → s.scrHeld B.uid W.idx addr 64 = false → s.scrBad B.uid W.idx addr 64 = false →
    (∀ y ∈ W.opsBefore id, (∀ dst a seen, y.kind ≠ .cbwait dst a seen) → y.kind.isMem = true → y.performed = true) →
    let bs := A.read addr 64
    let q := recField bs 0 10 2
    let queue := nth [] (s.core W.core).copyQ q
    (16 ≤ queue.length → exec (.operationComplete id) s = .next s) ∧
    (queue.length < 16 → q < (s.core W.core).copyQ.length → ∃ (t : State) (V : Warp), exec (.operationComplete id) s = .next t ∧
      t.warp? B.uid W.idx = some V ∧ V.v = W.v ∧ (∀ a, t.mem.byte a = s.mem.byte a) ∧
      (recBad bs A.size → W.UniIs V id d 1) ∧ (¬recBad bs A.size → recBadBar bs A.size → W.UniIs V id d 2) ∧
      (recBad bs A.size ∨ recBadBar bs A.size → ∀ c, (t.core c).copyQ = (s.core c).copyQ) ∧
      (¬recBad bs A.size → ¬recBadBar bs A.size → W.UniIs V id d 0 ∧ ∃ r : CopyReq,
        nth [] (t.core W.core).copyQ q = queue ++ [.request r] ∧ r.ctx = B.ctx ∧ r.launch = B.launch ∧ r.alloc = A.id ∧
        r.record = bs ∧ r.addr = addr ∧ r.token = token ∧ r.sig = W.sig ∧ r.run = none))) ∧
  (∀ (s : State) (id mask : Nat) (B : Block) (W : Warp) (o : Op), Owns s id B W o →
    let qs := (s.core W.core).copyQ
    (o.kind = .cqfence mask false →
      ((∃ q, q < 4 ∧ mask.testBit q = true ∧ 16 ≤ (nth [] qs q).length) → exec (.operationComplete id) s = .next s) ∧
      ((∀ q, q < 4 → mask.testBit q = true → (nth [] qs q).length < 16) →
        ∃ (t : State) (V : Warp) (z : Op), exec (.operationComplete id) s = .next t ∧ t.warp? B.uid W.idx = some V ∧
          V.v = W.v ∧ V.w = W.w ∧ z ∈ V.ops ∧ z.id = id ∧ z.kind = .cqfence mask true ∧ (∀ a, t.mem.byte a = s.mem.byte a) ∧
          ∀ q, requestsOf (nth [] (t.core W.core).copyQ q) = requestsOf (nth [] qs q))) ∧
    (o.kind = .cqfence mask true →
      ((∃ q ∈ qs, ∃ m, .fence id m ∈ q) → exec (.operationComplete id) s = .next s) ∧
      ((∀ q ∈ qs, ∀ m, .fence id m ∉ q) → o.id = id →
        ∃ t : State, exec (.operationComplete id) s = .next t ∧ Completed s t B W o))) ∧
  (∀ (s : State) (core q : Nat),
    ((∀ r rest, nth [] (s.core core).copyQ q ≠ .request r :: rest) → exec (.copyRequest core ⟨q, none⟩) s = .next s) ∧
    (∀ r rest, nth [] (s.core core).copyQ q = .request r :: rest → r.run = none →
      s.vaHeld r.ctx (recField r.record 1 0 52) 64 = true → exec (.copyRequest core ⟨q, none⟩) s = .next s) ∧
    ∀ (r : CopyReq) (rest : List CopyEntry) (A : Alloc),
      nth [] (s.core core).copyQ q = .request r :: rest → s.copyHeld core r = false → s.tripped = false → r.run = none →
      s.allocs.find? (fun a => a.id == r.alloc) = some A →
      let g := recField r.record
      let cl := some (coreCluster core)
      let bar := g 6 16 20
      let barAt (a : Nat) : Prop := bar ≤ a ∧ a < bar + 8
      ∃ (t : State) (C : _), exec (.copyRequest core ⟨q, none⟩) s = .next t ∧ t.allocs.find? (fun a => a.id == r.alloc) = some C ∧
        requestsOf (nth [] (t.core core).copyQ q) = requestsOf rest ∧
        ((∀ o m, .fence o m ∉ rest) → nth [] (t.core core).copyQ q = rest) ∧
        (g 0 8 2 = 0 → (∀ p ∈ A.pages, p.pin.isSome = true) → ∀ a, t.mem.byte a = s.mem.byte a) ∧
        (r.since = (s.mem.past.length, A.past.length) → s.access cl r.ctx (g 1 0 52) .read = .fault → Noticed s t A C bar ∧
          (t.core core).copyLog = (s.core core).copyLog ++ [(g 1 0 52, r.addr)] ∧
          (∀ a, ¬barAt a → C.byte a = A.byte a) ∧
          let x := A.readN bar 8
          let y := C.readN bar 8
          y / 2 ^ 63 = 1 ∧ y / 2 ^ 55 % 2 = 0 ∧ y % 2 ^ 55 = x % 2 ^ 55 ∧
            y / 2 ^ 56 % 2 ^ 7 = if x / 2 ^ 56 % 2 ^ 7 = 0 then 1 else x / 2 ^ 56 % 2 ^ 7) ∧
        ∀ (td : List Byte) (loc : (Nat → Nat) → Nat), s.readVa cl r.ctx (g 1 0 52) 64 = .ok td → descOk r.record td →
          s.mem.poison = [] → s.mem.bad = [] → A.bad = [] → r.since = (s.mem.past.length, A.past.length) →
          let d := recElemBits r.record
          let total := recRowBytes r.record * recRows r.record
          0 < total →
          let inBox (i : Nat → Nat) : Prop := ∀ k, k < 5 → i k < recBox r.record k
          let at' (i : Nat → Nat) (k : Nat) : Int :=
            (BitVec.ofNat 32 (g (2 + k / 2) (32 * (k % 2)) 32)).toInt + (i k : Int)
          let inside (i : Nat → Nat) : Prop := inBox i ∧ elemIn td (at' i)
          let tile (row x : Nat) : Prop := row < recRows r.record ∧ x < recRowBytes r.record
          (∀ row x row' x', tile row x → tile row' x' → recAt r.record row x = recAt r.record row' x' → row = row' ∧ x = x') →
          (∀ row x, tile row x → ¬barAt (recAt r.record row x)) →
          (let x := A.readN bar 8
           x / 2 ^ 55 % 2 = 0 ∨ (BitVec.ofNat 32 x).toInt ≤ 0 ∨ (total : Int) ≤ (BitVec.ofNat 32 x).toInt) →
          (g 0 8 2 = 0 → 2 ≤ g 0 50 2 →
            ¬barAt (g 7 0 20) ∧ ∀ row x, tile row x → recAt r.record row x ≠ g 7 0 20) →
          (∀ i, inside i → ∀ b, b < elemSize td →
            s.access cl r.ctx (elemVa td (at' i) + b) (if g 0 8 2 = 0 then .read else .write) = .mem (loc i + b)) →
          (g 0 8 2 = 1 → g 0 50 2 = 0 ∧ (∀ p ∈ A.pages, p.pin.isSome = true) ∧
            (r.token = true ∨ ∀ L, s.launch? r.launch = some L → L.det = false) ∧
            ∀ i j, inside i → inside j → (∃ k, k < 5 ∧ i k ≠ j k) → loc i + elemSize td ≤ loc j ∨ loc j + elemSize td ≤ loc i) →
          (g 0 8 2 ≤ 1 → Counts (A.readN bar 8) (C.readN bar 8) total ∧ Noticed s t A C bar) ∧
          (g 0 8 2 = 0 →
            let value (i : Nat → Nat) (f : Fmt) : FVal := f.value (s.mem.readN (loc i) (elemSize td))
            let srcFmt := fmtOf (recField td 0 52 4)
            (∀ row x b, tile row x → 8 * x + b < 8 * recRowBytes r.record → b < 8 → recWidth r.record * d ≤ 8 * x + b →
              (C.byte (recAt r.record row x)).toNat.testBit b = false) ∧
            (∀ a, ¬barAt a → (∀ row x, tile row x → recAt r.record row x ≠ a) → (2 ≤ g 0 50 2 → a ≠ g 7 0 20) →
              C.byte a = A.byte a) ∧
            (g 0 50 2 ≤ 1 → ∀ i, inBox i → ∀ b, b < d →
              (¬elemIn td (at' i) → tileBit r.record C.byte (recRow r.record i) (recCol r.record i) b = false) ∧
              (elemIn td (at' i) → tileBit r.record C.byte (recRow r.record i) (recCol r.record i) b =
                (if g 0 50 2 = 0 then s.mem.readN (loc i) (elemSize td)
                 else (valTo srcFmt (fmtOf (g 0 52 4)) .rne true (match value i srcFmt with
                  | .fin n m e => .fin n m (e - ((g 0 56 8 : Int) - 127))
                  | v => v)).1).testBit b)) ∧
            (2 ≤ g 0 50 2 → ∃ (is : List (Nat → Nat)) (xs : List FVal),
              (∀ i, inBox i → ∃ j ∈ is, ∀ k, k < 5 → i k = j k) ∧ (∀ i ∈ is, inBox i) ∧ xs.length = is.length ∧
              let q := qblock (g 0 52 4) (g 0 50 2 == 3) xs
              C.byte (g 7 0 20) = BitVec.ofNat 8 q.1 ∧
              ∀ n i, is[n]? = some i →
                (¬elemIn td (at' i) → xs[n]? = some (.fin false 0 0)) ∧ (elemIn td (at' i) → xs[n]? = some (value i srcFmt)) ∧
                ∀ b, b < d → tileBit r.record C.byte (recRow r.record i) (recCol r.record i) b = (nth 0 q.2 n).testBit b)) ∧
          (g 0 8 2 = 1 →
            (∀ i, inside i → ∀ b, b < d →
              (t.mem.byte (loc i + b / 8)).toNat.testBit (b % 8) =
                tileBit r.record A.byte (recRow r.record i) (recCol r.record i) b) ∧
            ∀ a, (∀ i, inside i → ¬(loc i ≤ a ∧ a < loc i + elemSize td)) → t.mem.byte a = s.mem.byte a))

/-- R329, R331, R332, R345: a tuple word sends its request, a blocking one parking its run; in deterministic mode it is
CTOK_FAULT for a warp without the token and for the blocking forms. R332: when its reply arrives, its status, the tuple if
there is one, and its parked threads are back, and its flag falls; one with a fault aborts the block with its cause and address
(R334). R327, R335 to R341, Tables 12.1, 12.2 and 12.4: a request served at its home slice, the region's handle being live and its
store whole: a deposit that meets no parked take finds the region full where COUNT = CAP, and else answers each parked copy it meets
in ascending park number and is stored, COUNT rising; one that meets a take answers it, the lowest in park number, and is not
stored. A copy or take answers with the oldest matching tuple, a take removing it; without a match a plain form answers NOMATCH and
a blocking one parks, or finds the table full, BUSY. A handle not live answers BADREGION, and an entry that cannot be read its
fault. A timeout withdraws the parked request. A region being destroyed answers its parked requests, and its tuples go, COUNT being
0. R339, Table 12.6: in one cycle a slice serves its ports in ascending order, each once, port 13 last; that a request arrives in the
cycle it is served in is log 40 (DEDUCED), as is the number REGION_DRAIN takes a region by. A request waits while memory it touches is
held (log 34). R449: a request that came through a port is served alike, but gets no reply: a status other than OK, and a fault, count
in the port's DROP. R344: the capture of its block withdraws a parked request at its slice and port, and the block keeps it with its
remaining timeout. -/
def Obligations.Tuples : Prop :=
  ((∀ (s : State) (x : Slot) (i : Instr) (kind : Nat) (blk : Bool) (f : FmtS), tupleWord i = some (kind, blk, f) →
     Clear i plainCheck s x →
     let c := x.ctx s i plainCheck none
     if s.isDet x.B = true ∧ (blk = true ∨ s.holdsToken x.B x.W.idx = false) then
       ∃ addr aux, exec i s = .next (x.trapped s 0x12 0 addr aux)
     else ∃ (t : State) (V : Warp), exec i s = .next t ∧ t.warp? x.B.uid x.W.idx = some (x.after s V) ∧
       (∀ b w, ¬(b = x.B.uid ∧ w = x.W.idx) → t.warp? b w = s.warp? b w) ∧
       t = { s with blocks := t.blocks, nextUid := s.nextUid + 1, tup := t.tup } ∧
       t.tup = { s.tup with sent := s.tup.sent ++ [{
         id := s.nextUid, src := some (x.B.uid, x.W.idx), ctx := x.B.ctx, handle := (c.uni f.b.toNat).toNat
         fields := (List.range 8).map (fun k => c.uni64 (16 + 2 * k)), kind := kind, mask := f.sub.toNat, blocking := blk
         timeout := if blk = true ∧ f.c ≠ 0xFC then (c.uni f.c.toNat).toNat else 0, sig := Sig.empty, port := none }] } ∧
       V = { c.W with threads := V.threads, early := V.early, unwaited := V.unwaited
                      ops := c.W.ops ++ [Slot.op s c (.tuple (f.a.toNat % 64) (if blk then c.run else 0)) f.setf [] []] } ∧
       ThreadsPark c.W V (if blk then c.run else 0) .tuple) ∧
   (∀ (s : State) (id : Nat) (B : Block) (W : Warp) (o : Op) (dst : Nat) (m : Mask) (r : TupReply), Owns s id B W o →
     o.kind = .tuple dst m → s.tup.replies.find? (fun r => r.id == id) = some r → r.fault = none →
     ∃ (t : State) (V : Warp), exec (.tupleReply id) s = .next t ∧ t.warp? B.uid W.idx = some V ∧ V.v = W.v ∧
       (∀ a, t.mem.byte a = s.mem.byte a) ∧ (∀ y ∈ V.ops, y.id ≠ id) ∧ (∀ r' ∈ t.tup.replies, r'.id ≠ id) ∧
       W.UniIs V id (some dst) r.status ∧
       (∀ fs k, r.fields = some fs → k < fs.length →
         (dst ≠ 16 + 2 * k → W.UniIs V id (some (16 + 2 * k)) ((nth 0 fs k).toNat % 2 ^ 32)) ∧
         (dst ≠ 17 + 2 * k → W.UniIs V id (some (17 + 2 * k)) ((nth 0 fs k).toNat / 2 ^ 32))) ∧
       (∀ n, n ≠ dst → (∀ fs, r.fields = some fs → ¬(16 ≤ n ∧ n < 16 + 2 * fs.length)) → V.wRaw n = W.wRaw n) ∧
       (∀ l, l < 32 → m.getLsbD l = true → (W.thread l).status = .parked .tuple → (V.thread l).status = .eligible) ∧
       ∀ n, tget 0 V.flags n = if o.setf = some n then tget 0 W.flags n - 1 else tget 0 W.flags n) ∧
   (∀ (s : State) (id : Nat) (B : Block) (W : Warp) (o : Op) (dst : Nat) (m : Mask) (r : TupReply) (cause va : Nat), Owns s id B W o →
     o.kind = .tuple dst m → s.tup.replies.find? (fun r => r.id == id) = some r → r.fault = some (cause, va) → B.aborted = false →
     cause < 256 →
     ∃ (t : State) (C : Block) (V : Warp), exec (.tupleReply id) s = .next t ∧ t.block? B.uid = some C ∧ C.halt = some (.abort cause) ∧
       (C.warps[W.idx]? = some V → V.trap.cause = BitVec.ofNat 8 cause ∧ V.trap.addr = BitVec.ofNat 64 va ∧
         V.trap.pc = o.pc))) ∧
  ((∀ (s : State) (r : TupReq), s.tup.sent.find? (fun q => q.id == r.id) = some r →
     (s.serviceHeld r = true ∨
         (s.tuplePort r < 13 ∧ ∃ q, tget none s.tup.served r.slice = some (s.sliceClock r.slice, q) ∧ s.tuplePort r ≤ q) →
       exec (.tupleSliceServe r.id) s = .next s) ∧
     ((s.tup.sent.takeWhile (fun q => q.id != r.id)).all (fun q => q.src != r.src || q.port != r.port || q.slice != r.slice) = true →
     s.releaseDone r = true → s.serviceHeld r = false → s.tripped = false →
     (∀ c q, tget none s.tup.served r.slice = some (c, q) → c = s.sliceClock r.slice → q < s.tuplePort r) →
     (∀ p ∈ s.tup.parked, p.slice = r.slice → ∀ d, p.deadline = some d → s.sliceClock r.slice ≤ d) →
     let sent := s.tup.sent.filter (fun q => q.id != r.id)
     let now : TupSt := { s.tup with
       sent := sent, served := tset none s.tup.served r.slice (some (s.sliceClock r.slice, s.tuplePort r)) }
     let ok (q : TupReq) (u : Option Stored) : TupReply := ⟨q.id, 0, u.map (·.fields), (u.map (·.sig)).getD Sig.empty, none⟩
     let replied (t : TupSt) (x : TupReply) : TupSt := if r.port = none then { t with replies := t.replies ++ [x] } else t
     let drops (bad : Bool) : Tab Dword := match r.port with
       | some p => if bad then tset 0 s.peers.pdrop p (BitVec.ofNat 64 (min ((tget 0 s.peers.pdrop p).toNat + 1) (2 ^ 32 - 1)))
         else s.peers.pdrop
       | none => s.peers.pdrop
     let becomes (bad : Bool) (tup : TupSt) : Prop := ∃ t u : State, exec (.tupleSliceServe r.id) s = .next t ∧ Filled s u ∧
       t = { u with tup := tup, peers := { s.peers with pdrop := drops bad } }
     (∀ e, s.regionOf r.ctx r.handle = .error e → ∃ t : State, exec (.tupleSliceServe r.id) s = .next t ∧
       (∀ a, t.mem.byte a = s.mem.byte a) ∧ (r.ctx, e.2) ∈ t.telemetry ∧ t.peers.pdrop = drops true ∧
       t.tup = replied now ⟨r.id, 0, none, Sig.empty, some (if e.1 = 4 then 0x14 else 0x10, e.2)⟩) ∧
     ∀ g : Region, s.regionOf r.ctx r.handle = .ok g →
       (∀ u ∈ s.tup.stored, u.handle / 2 ^ 26 % 2 ^ 6 = r.ctx → u.handle % 2 ^ 12 = r.handle % 2 ^ 12 →
         g.valid = true ∧ g.gen = u.handle / 2 ^ 12 % 2 ^ 14) → (g.valid = true ∨ g.count = 0) →
       let fits (u : Stored) : Prop := u ∈ s.tup.stored ∧ u.handle = r.handle ∧ tupleMatches u.fields r.fields r.mask = true
       let meets (p : Parked) : Bool := p.req.handle == r.handle && tupleMatches r.fields p.req.fields p.req.mask
       let answers (status : Nat) : Prop := becomes true (replied now ⟨r.id, status, none, Sig.empty, none⟩)
       let counts (t : State) (n : Nat) : Prop := ∀ loc,
         (∀ k, k < 4 → s.access none r.ctx (s.regionVa r.ctx r.handle + 16 + k) .write = .mem (loc + k)) →
         BytesTake s.mem.byte t.mem.byte loc (leBytes 4 n)
       let writable : Prop := ∃ loc, ∀ k, k < 4 → s.access none r.ctx (s.regionVa r.ctx r.handle + 16 + k) .write = .mem (loc + k)
       (g.live r.ctx r.handle = false → answers 5) ∧
       (g.live r.ctx r.handle = true → s.storeFaults r.ctx g = [] →
         (r.kind = 0 → (∀ p ∈ s.tup.parked, meets p = true → p.req.kind ≠ 2) → g.count = g.cap → answers 3) ∧
         (r.kind = 0 → (∀ p ∈ s.tup.parked, meets p = true → p.req.port = none) →
           ((∃ p ∈ s.tup.parked, meets p = true ∧ p.req.kind = 2) ∨ g.count ≠ g.cap) → writable →
           ∃ (t : State) (cs ks : List Parked) (u : Stored), exec (.tupleSliceServe r.id) s = .next t ∧
             u.handle = r.handle ∧ u.fields = r.fields ∧ u.seq = tget 0 s.tup.dseq (r.handle * 2 ^ 64 + (nth 0 r.fields 0).toNat) ∧
             (∀ b w W, r.src = some (b, w) → s.warp? b w = some W → u.sig = W.sig) ∧ (r.src = none → u.sig = r.sig) ∧
             t.peers.pdrop = s.peers.pdrop ∧
             cs.Perm (s.tup.parked.filter (fun p => meets p && p.req.kind == 1)) ∧ cs.Pairwise (fun p q => p.num ≤ q.num) ∧
             ((ks = [] ∧ ∀ p ∈ s.tup.parked, meets p = true → p.req.kind ≠ 2) ∨
               ∃ k ∈ s.tup.parked, ks = [k] ∧ meets k = true ∧ k.req.kind = 2 ∧
                 ∀ p ∈ s.tup.parked, meets p = true → p.req.kind = 2 → k.num ≤ p.num) ∧
             (ks ≠ [] → ∀ a, t.mem.byte a = s.mem.byte a) ∧ (ks = [] → counts t (g.count + 1)) ∧
             t.tup = { now with
               dseq := tset 0 s.tup.dseq (r.handle * 2 ^ 64 + (nth 0 r.fields 0).toNat) (u.seq + 1)
               stored := if ks.isEmpty then s.tup.stored ++ [u] else s.tup.stored
               parked := s.tup.parked.filter (fun p => (cs ++ ks).all (fun q => q.req.id != p.req.id))
               replies := s.tup.replies ++ (cs ++ ks).map (fun p => ok p.req (some u)) ++ (if r.port = none then [ok r none] else []) }) ∧
         (r.kind ≠ 0 → (∀ u, ¬fits u) →
           (r.blocking = false → answers 1) ∧
           (r.blocking = true → 64 ≤ (s.tup.parked.filter (fun p => p.slice == r.slice)).length → answers 4) ∧
           (r.blocking = true → (s.tup.parked.filter (fun p => p.slice == r.slice)).length < 64 →
             becomes false { now with
               pseq := tset 0 s.tup.pseq r.slice (tget 0 s.tup.pseq r.slice + 1)
               parked := s.tup.parked ++ [⟨r, r.slice, tget 0 s.tup.pseq r.slice,
                 if r.timeout = 0 then none else some (s.sliceClock r.slice + r.timeout)⟩] })) ∧
         (r.kind ≠ 0 → (∃ u, fits u) →
           ∃ u : Stored, fits u ∧ (∀ u', fits u' → u.seq ≤ u'.seq) ∧
             (r.kind ≠ 2 → becomes false (replied now (ok r (some u)))) ∧
             (r.kind = 2 → writable → ∃ t : State, exec (.tupleSliceServe r.id) s = .next t ∧ counts t (g.count - 1) ∧
               t.peers.pdrop = s.peers.pdrop ∧
               t.tup = replied { now with stored := s.tup.stored.erase u } (ok r (some u))))))) ∧
   (∀ (s : State) (p : Parked) (d : Nat), s.tup.parked.find? (fun q => q.req.id == p.req.id) = some p → p.req.port = none →
     p.deadline = some d →
     (s.sliceClock p.slice < d → exec (.tupleTimeout p.req.id) s = .next s) ∧
     (d ≤ s.sliceClock p.slice → s.tripped = false →
       (∀ c q, tget none s.tup.served p.slice = some (c, q) → c = s.sliceClock p.slice → q ≤ 13) →
       exec (.tupleTimeout p.req.id) s = .next { s with tup := { s.tup with
         served := tset none s.tup.served p.slice (some (s.sliceClock p.slice, 13))
         parked := s.tup.parked.filter (fun q => q.req.id != p.req.id)
         replies := s.tup.replies ++ [⟨p.req.id, 2, none, Sig.empty, none⟩] } })) ∧
   (∀ (s : State) (p : Parked) (b w k : Nat) (B : Block), s.tup.sent.find? (fun q => q.id == p.req.id) = none →
     s.parkedNow p.req.id = some p → p.req.src = some (b, w) → s.block? b = some B → B.halt = some (.capture k) → s.tripped = false →
     (∀ q ∈ s.tup.sent, q.slice = p.slice → q.src ≠ some (b, w)) →
     (∀ c q, tget none s.tup.served p.slice = some (c, q) → c = s.sliceClock p.slice → q < s.tuplePort p.req) →
     (∀ q ∈ s.tup.parked, q.slice = p.slice → ∀ d, q.deadline = some d → s.sliceClock p.slice ≤ d) →
     ∃ t : State, exec (.tupleSliceServe p.req.id) s = .next t ∧
       t.block? b = some { B with withdrawn := B.withdrawn ++ [(p.req, match p.deadline with
         | some d => d - s.sliceClock p.slice
         | none => 0)] } ∧
       t.tup = { s.tup with
         served := tset none s.tup.served p.slice (some (s.sliceClock p.slice, s.tuplePort p.req))
         parked := s.tup.parked.filter (fun q => q.req.id != p.req.id) }) ∧
   (∀ (s : State) (slice ctx index : Nat) (g : Region), index < 4096 → s.regionHeld ctx index = false → s.tripped = false →
     s.regionOf ctx index = .ok g → (s.tup.parked.map (·.req.id)).Nodup →
     let ofRegion (handle : Nat) : Prop := handle / 2 ^ 26 % 2 ^ 6 = ctx ∧ handle % 2 ^ 12 = index
     ∃ t : State, exec (.regionDrain slice (4096 * ctx + index)) s = .next t ∧
       (∀ u ∈ t.tup.stored, u ∈ s.tup.stored) ∧ (∀ p ∈ t.tup.parked, p ∈ s.tup.parked) ∧
       (∀ u ∈ s.tup.stored, ¬ofRegion u.handle → u ∈ t.tup.stored) ∧
       (g.valid = false ∨ g.drain = true → ∀ p ∈ s.tup.parked, p.slice = slice → ofRegion p.req.handle →
         p ∉ t.tup.parked ∧ (p.req.port = none →
           ⟨p.req.id, if (p.deadline.map (fun d => decide (d < s.sliceClock slice))).getD false then 2 else 5, none, Sig.empty, none⟩ ∈
             t.tup.replies)) ∧
       (g.valid = false → (∀ u ∈ t.tup.stored, ¬ofRegion u.handle) ∧ ∀ loc,
         (∀ k, k < 4 → s.access none ctx (s.regionVa ctx index + 16 + k) .read = .mem (loc + k) ∧
           s.access none ctx (s.regionVa ctx index + 16 + k) .write = .mem (loc + k)) →
         t.mem.readN loc 4 % 2 ^ 26 = 0)))

/-- R422 to R431, Tables 16.3, 16.5 and 16.6: an SX word waits for its warp's earlier memory words, checks its image's address and
enters its operation. A unit performs it on the handle's index, after its warp's earlier words on the handle: SXINIT, SXAPP, SXTRIM
and SXQRY; SXSAVE writes the index's canonical image and SXLOAD takes an index from one, or answers 3 for one that breaks R429, and
aborts the block with SX_FAULT where the header cannot be read, the index as it was; status 1 for a handle that is not live, 2 for an
argument out of range. A write of the entries changes its bytes, and setting VALID starts an index; in RECOVERY it does nothing
(R450; log 45). That an SX word is performed in one step where its unit has not begun it, and waits for the memory it touches while
that is held, is logs 34 and 62 (DEDUCED). -/
def Obligations.SuffixWords : Prop :=
  (∀ (s : State) (x : Slot) (i : Instr) (mn : Meaning) (va : Option Nat) (y : SxOp) (setf : BitVec 4) (locs : List Loc),
    suffixWord (x.ctx s i mn none) i = some (mn, va, y, setf, locs) → Clear i mn s x →
    let c := x.ctx s i mn none
    let enters : Prop :=
      if c.W.memIds = [] then ∃ t : State, exec i s = .next t ∧
        x.Enters s t c.W (Slot.op s c (.sx y) setf [] []) (y.dst.toList.map Loc.uni ++ locs) s
      else exec i s = .next s
    match va with
    | none => enters
    | some a =>
      if 2 ^ 52 ≤ a then exec i s = .next (x.trapped s 0x08 0 a x.run)
      else if a % 64 ≠ 0 then exec i s = .next (x.trapped s 0x09 0 a x.run)
      else enters) ∧
  (∀ (s : State) (id : Nat) (B : Block) (W : Warp) (o : Op) (y : SxOp), Owns s id B W o → o.kind = .sx y → o.done = false →
    y.begun = none → s.tripped = false →
    let key := 65536 * (y.handle / 2 ^ 25 % 2) + y.handle % 2 ^ 16
    let apart (q : SxOp) : Prop := 65536 * (q.handle / 2 ^ 25 % 2) + q.handle % 2 ^ 16 ≠ key
    (∀ z ∈ W.opsBefore id, ∀ q, z.kind = .sx q → z.done = true ∨ apart q) →
    (∀ C ∈ s.blocks, ∀ U ∈ C.warps, ∀ z ∈ U.ops, ∀ q, z.kind = .sx q → z.id = id ∨ z.done = true ∨ q.begun = none ∨ apart q) →
    let e := s.sxEntry key
    let h := s.sxIndex key
    let live : Prop := y.handle / 2 ^ 26 % 2 ^ 6 = B.ctx ∧ e.d0.toNat % 2 = 1 ∧ e.d1.toNat / 2 ^ 32 % 2 ^ 9 = y.handle / 2 ^ 16 % 2 ^ 9 ∧
      e.d0.toNat / 2 ^ 52 = 0 ∧ e.d0.toNat / 2 % 2 ^ 11 = 0 ∧ e.d1.toNat / 2 ^ 41 = 0 ∧ e.d1.toNat / 2 ^ 23 % 2 ^ 3 = 0 ∧
      e.d2 = 0 ∧ e.d3 = 0
    let ends (status : Nat) (k : SxIndex → Prop) : Prop := ∃ (t : State) (V : Warp), exec (.sxUnitPerform id) s = .next t ∧
      t.warp? B.uid W.idx = some V ∧ (∀ a, t.mem.byte a = s.mem.byte a) ∧ W.UniIs V id y.dst status ∧
      (∃ q ∈ V.ops, q.id = id ∧ q.done = true) ∧ k (t.sxIndex key)
    let held : Bool := s.anyHeld B.ctx (s.sxTouches B.ctx e h y)
    (¬live → ends 1 (fun j => j = h)) ∧
    (live → held = true → exec (.sxUnitPerform id) s = .next s) ∧
    (live → held = false → y.op = 5 → B.aborted = false → ∀ er, s.engRead none B.ctx y.arg 64 = .error er →
      ∃ (t : State) (C : Block), exec (.sxUnitPerform id) s = .next t ∧ t.block? B.uid = some C ∧
        C.halt = some (.abort (if er.1 = 4 then 0x14 else 0x11)) ∧
        t.sxIndex key = h ∧ ∀ V, C.warps[W.idx]? = some V →
          V.trap.addr = BitVec.ofNat 64 er.2 ∧ (er.1 ≠ 4 → V.trap.aux = BitVec.ofNat 32 er.1) ∧ V.trap.pc = o.pc) ∧
    (live → held = false → s.areaHeld e = false → s.areaFaults e = [] →
      (y.op = 0 → (if 1 ≤ y.arg ∧ y.arg ≤ e.wmax then ends 0 (fun j => j.n = 0 ∧ j.e = 0 ∧ j.w = y.arg ∧ j.toks = [])
        else ends 2 (fun j => j = h))) ∧
      (y.op = 1 → (if y.arg ≤ 32 ∧ h.n + y.arg < 2 ^ 40 then ends 0 (fun j => j.n = h.n + y.arg ∧ j.w = h.w ∧
          j.e = max h.e (h.n + y.arg - h.w) ∧ j.toks = (h.toks ++ y.toks.take y.arg).drop (j.e - h.e))
        else ends 2 (fun j => j = h))) ∧
      (y.op = 3 → (if y.arg ≤ h.n - h.e then ends 0 (fun j => j.n = h.n - y.arg ∧ j.e = h.e ∧ j.w = h.w ∧
          j.toks = h.toks.take (h.toks.length - y.arg))
        else ends 2 (fun j => j = h))) ∧
      (∀ loc, y.op = 4 →
        let tokens := h.toks.flatMap (fun t => leBytes 4 t.toNat)
        (∀ k, k < 64 + tokens.length → s.access none B.ctx (y.arg + k) .write = .mem (loc + k)) →
        ∃ (t : State) (V : Warp), exec (.sxUnitPerform id) s = .next t ∧ t.warp? B.uid W.idx = some V ∧ W.UniIs V id y.dst 0 ∧
          (∃ q ∈ V.ops, q.id = id ∧ q.done = true) ∧ t.sxIndex key = h ∧
          BytesTake s.mem.byte t.mem.byte loc (leBytes 8 (0x58534958 + 2 ^ 32) ++ leBytes 8 h.n ++ leBytes 8 h.e ++ leBytes 8 h.w ++
            leBytes 32 0 ++ tokens)) ∧
      (∀ hd, y.op = 5 → s.engRead none B.ctx y.arg 64 = .ok hd →
        let d (i : Nat) : Nat := ofLeBytes ((hd.drop (8 * i)).take 8)
        let legal : Prop := d 0 = 0x58534958 + 2 ^ 32 ∧ d 1 < 2 ^ 40 ∧ d 2 < 2 ^ 40 ∧ (∀ i, 4 ≤ i → i < 8 → d i = 0) ∧
          1 ≤ d 3 ∧ d 3 ≤ e.wmax ∧ d 2 ≤ d 1 ∧ d 1 - d 2 ≤ d 3
        (¬legal → ends 3 (fun j => j = h)) ∧
        (∀ ts, legal → s.engRead none B.ctx (y.arg + 64) (4 * (d 1 - d 2)) = .ok ts →
          ends 0 (fun j => j.n = d 1 ∧ j.e = d 2 ∧ j.w = d 3 ∧ j.toks.length = d 1 - d 2 ∧
            ∀ k, k < d 1 - d 2 → (nth 0 j.toks k).toNat = ofLeBytes ((ts.drop (4 * k)).take 4)))) ∧
      (y.op = 2 → 16 < y.arg → ends 2 (fun j => j = h)) ∧
      (∀ d, y.op = 2 → y.arg ≤ 16 → s.areaWrites e = h.seen → y.dst = some d →
        ∃ (t : State) (V : Warp) (l : _) (prop : _), exec (.sxUnitPerform id) s = .next t ∧ t.warp? B.uid W.idx = some V ∧
          Proposes h.toks (min 64 (h.n - 1)) y.arg l prop ∧ t.sx = s.sx ∧ (∀ a, t.mem.byte a = s.mem.byte a) ∧
          W.UniIs V id (some d) 0 ∧ W.UniIs V id (some (d + 1)) (l + 2 ^ 16 * prop.length) ∧
          W.RegsTake V id (fun n k => if n = y.reg ∧ y.lanes.getLsbD k = true then some (nth 0xFFFFFFFF prop k) else none)))) ∧
  (∀ (s : State) (unit : Bool) (handle : BitVec 16) (off : BitVec 5) (bs : List Byte), off.toNat + bs.length ≤ 32 →
    (s.trust.bootstat = 2 → exec (.sxhWrite unit handle off bs) s = .next s) ∧
    (s.trust.bootstat ≠ 2 →
    let key := (if unit then 65536 else 0) + handle.toNat
    let old := (s.sxEntry key).bytes
    ∃ t : State, exec (.sxhWrite unit handle off bs) s = .next t ∧ t = { s with sx := t.sx } ∧
      (t.sxEntry key).bytes = old.take off.toNat ++ bs ++ old.drop (off.toNat + bs.length) ∧
      (∀ k, k ≠ key → t.sxEntry k = s.sxEntry k ∧ t.sxIndex k = s.sxIndex k) ∧
      ((s.sxEntry key).valid = false → (t.sxEntry key).valid = true →
        (t.sxIndex key).n = 0 ∧ (t.sxIndex key).e = 0 ∧ (t.sxIndex key).w = (t.sxEntry key).wmax ∧ (t.sxIndex key).toks = [])))

/-! ## Key-value page aging -/

namespace Sys2Proof.Machine

/-- The KV words by their number (R407). -/
def kvWord : Instr → Option (Nat × FmtS)
  | .dsweep f => some (0, f)
  | .pgrecall f => some (1, f)
  | .pgpin f => some (2, f)
  | .pgunpin f => some (3, f)
  | .pgdemote f => some (4, f)
  | _ => none

/-- The four dwords of an entry as bytes. -/
def entryBytes (d0 d1 d2 d3 : Nat) : List Byte := leBytes 8 d0 ++ leBytes 8 d1 ++ leBytes 8 d2 ++ leBytes 8 d3

/-- Table 15.2: the 256 bytes of a pool descriptor break it. -/
def poolBad (bs : List Byte) : Prop :=
  recField bs 0 3 61 ≠ 0 ∨ recField bs 0 0 2 = 3 ∨ (∃ i, (2 ≤ i ∧ i < 8 ∨ 26 ≤ i ∧ i < 32) ∧ recField bs i 0 64 ≠ 0) ∨
    ∃ r, r < 9 ∧ (recField bs (8 + 2 * r) 52 12 ≠ 0 ∨ recField bs (8 + 2 * r) 5 1 ≠ 0 ∨ recField bs (8 + 2 * r) 0 5 < 4 ∨
      20 < recField bs (8 + 2 * r) 0 5)

/-- Tables 15.4 and 15.5: dwords 0 to 7 of a sweep record break it. -/
def sweepRecBad (bs : List Byte) : Prop :=
  let g := recField bs
  g 0 52 12 ≠ 0 ∨ g 1 52 12 ≠ 0 ∨ g 3 28 36 ≠ 0 ∨ g 3 5 3 ≠ 0 ∨ g 6 0 64 ≠ 0 ∨ g 7 0 64 ≠ 0 ∨ g 2 32 32 ≤ g 2 0 32 ∨
    2 ^ 20 < g 2 32 32 - g 2 0 32 ∨ g 0 0 52 % 32 ≠ 0 ∨ g 1 0 52 % 64 ≠ 0

/-- The address of slot word i of a ring with control x (R405). -/
def slotWord (x i : Nat) : Nat := x / 2 ^ 6 % 2 ^ 46 * 64 + 8 * (i % 2 ^ (x % 32))

/-- What the next half of a push to a ring of a pool touches can be read and written: the control x, TAIL at lt, the slot word at
position p at lw, and LEAK at ld (R404, R405). -/
structure State.PushPlace (s : State) (ctx pool ring p x lt lw ld : Nat) : Prop where
  control : s.engReadN none ctx (pool + 64 + 16 * ring) 8 = .ok x
  tail : ∀ j, j < 4 → s.access none ctx (pool + 76 + 16 * ring + j) .read = .mem (lt + j) ∧
    s.access none ctx (pool + 76 + 16 * ring + j) .write = .mem (lt + j)
  word : ∀ j, j < 8 → s.access none ctx (slotWord x p + j) .read = .mem (lw + j) ∧
    s.access none ctx (slotWord x p + j) .write = .mem (lw + j)
  leak : ∀ j, j < 4 → s.access none ctx (pool + 12 + j) .read = .mem (ld + j) ∧
    s.access none ctx (pool + 12 + j) .write = .mem (ld + j)

/-- The bytes of memory after a half of a push (R405): with no position reserved TAIL counts; with one, the slot word there is written
with FULL = 1, or, where it has FULL = 1, LEAK counts. -/
def PushHalf (s : State) (slot : Nat) (pos : Option Nat) (lt lw ld : Nat) (m' : Nat → Byte) : Prop :=
  match pos with
  | none => BytesTake s.mem.byte m' lt (leBytes 4 (s.mem.readN lt 4 + 1))
  | some _ =>
    if s.mem.readN lw 8 % 2 = 0 then BytesTake s.mem.byte m' lw (leBytes 8 (slot / 64 % 2 ^ 46 * 64 + 1))
    else BytesTake s.mem.byte m' ld (leBytes 4 (min (s.mem.readN ld 4 + 1) 0xFFFFFFFF))

/-- The engine of a die after a step that ended with a status and no swap (R410): a sweep goes on to its next entry, its counter
counting, and another operation finishes. -/
def KvEngine.stepped (g : KvEngine) (op status : Nat) : KvEngine :=
  if op ≠ 0 then { g with phase := .finish status 0 }
  else { g with
    phase := .entry, page := g.page + 1
    counts := if status = 10 then { g.counts with exhausted := g.counts.exhausted + 1 } else { g.counts with changed := g.counts.changed + 1 } }

end Sys2Proof.Machine

/-- R407, R408, R467: a KV word checks its address and its pool's, waits for its warp's earlier stores and for room in its
die's engine, and enters its operation, a sweep, demotion or recall the engine's queue as well. R257, R408, R410, R413, R416,
Tables 15.4 to 15.6: PGPIN and PGUNPIN set or clear PIN in both copies of a valid entry's flags, and answer 5 for one that
is not valid, 6 for one that is not well formed, and its fault for one that cannot be read; PGSEAL's update sets SEALED in both if
the entry still stands as it was snapshotted, and else answers CHANGED; an ended word's status goes to its register. An engine with an
empty queue does nothing; it snapshots and tests the next entry (R410, R470); it decays the MASS of a sweep's entry; it writes a
step's new pages, with the summary of the new K page (R257, R412), or its bytes unchanged for a move or a recall; the swap of a step
writes the new addresses, the tag, the tier and GEN + 1 if the entry still stands as it was, and its old slots go on the list to be
retired, and else what it popped is to be pushed back; an ended operation leaves the queue, a sweep having written its report (R409),
and no slot goes back while a reader of its generation is left; then they go back one after the other, each in two halves: TAIL counts,
and then the slot word is written (R405, R461). A step waits while memory it touches is held (log 34). When in a step its reads happen is log 62 (DEDUCED): the
pages are stated where nothing has been written since the snapshot. -/
def Obligations.KvAging : Prop :=
  (∀ (s : State) (x : Slot) (i : Instr) (n : Nat) (f : FmtS), kvWord i = some (n, f) → Clear i plainCheck s x →
     let c := x.ctx s i plainCheck none
     let va := (c.uni64 f.b.toNat).toNat
     let pooled : Bool := n == 1 || n == 4
     let pool := if pooled then (c.uni64 f.c.toNat).toNat else 0
     let die := x.W.core / 64
     let queued : Bool := n == 0 || pooled
     if 2 ^ 52 ≤ va then exec i s = .next (x.trapped s 0x08 0 va x.run)
     else if va % (if n = 0 then 64 else 32) ≠ 0 then exec i s = .next (x.trapped s 0x09 0 va x.run)
     else if 2 ^ 52 ≤ pool then exec i s = .next (x.trapped s 0x08 0 pool x.run)
     else if pool % 64 ≠ 0 then exec i s = .next (x.trapped s 0x09 0 pool x.run)
     else if (∃ y ∈ c.W.ops, y.kind.isStore = true ∧ y.performed = false) ∨ (queued = true ∧ 16 ≤ (s.engine die).queue.length) then
       exec i s = .next s
     else ∃ t : State, exec i s = .next t ∧
       x.Enters s t c.W (Slot.op s c (.kv n (uniDst f.a) va pool none) f.setf [] []) ((uniDst f.a).toList.map Loc.uni)
         (if queued then { s with kv := { s.kv with engines := s.kv.engines.modify die (fun g =>
           { g with queue := g.queue ++ [⟨s.nextUid, n, x.B.ctx, va, pool, c.W.sig⟩] }) } } else s)) ∧
  ((∀ (s : State) (id : Nat) (B : Block) (W : Warp) (o : Op) (loc : Nat) (dst : Option Nat) (va : Nat), Owns s id B W o →
     s.tripped = false → o.done = false →
     (∀ n pool st, o.kind = .kv n dst va pool st → (n = 2 ∨ n = 3) → s.vaHeld B.ctx va 32 = true →
       exec (.operationComplete id) s = .next s) ∧
     (∀ n pool st x a, o.kind = .kv n dst va pool st → (n = 2 ∨ n = 3) → s.vaHeld B.ctx va 32 = false → s.snapshot none B.ctx va = .error (x, a) →
       ∃ (t : State) (V : Warp), exec (.operationComplete id) s = .next t ∧ t.warp? B.uid W.idx = some V ∧
         (∀ a, t.mem.byte a = s.mem.byte a) ∧ W.UniIs V id dst x ∧ (B.ctx, a) ∈ t.telemetry) ∧
     (∀ n pool st, o.kind = .kv n dst va pool st → (n = 2 ∨ n = 3) → s.vaHeld B.ctx va 32 = false →
       s.access none B.ctx va .read = .mem loc →
       s.access none B.ctx va .rmw = .mem loc → s.snapshot none B.ctx va = .ok (s.mem.snapAt va loc) →
       let e := s.mem.snapAt va loc
       let put (d : Nat) : Nat := if n = 2 then d / 8 * 8 + 4 + d % 4 else d / 8 * 8 + d % 4
       (e.valid = false → ∃ (t : State) (V : Warp), exec (.operationComplete id) s = .next t ∧ t.warp? B.uid W.idx = some V ∧
         (∀ a, t.mem.byte a = s.mem.byte a) ∧ W.UniIs V id dst 5) ∧
       (e.valid = true → (e.flagsOk && e.reservedOk) = false → ∃ (t : State) (V : Warp), exec (.operationComplete id) s = .next t ∧
         t.warp? B.uid W.idx = some V ∧ (∀ a, t.mem.byte a = s.mem.byte a) ∧ W.UniIs V id dst 6) ∧
       (e.valid = true → (e.flagsOk && e.reservedOk) = true → ∃ (t : State) (V : Warp), exec (.operationComplete id) s = .next t ∧
         t.warp? B.uid W.idx = some V ∧ W.UniIs V id dst 0 ∧
         BytesTake s.mem.byte t.mem.byte loc (leBytes 8 (put e.d0) ++ leBytes 8 (put e.d1)))) ∧
     (∀ n pool, o.kind = .kv n dst va pool none → n ≠ 2 → n ≠ 3 → exec (.operationComplete id) s = .next s) ∧
     (∀ n pool st, o.kind = .kv n dst va pool (some st) → n ≠ 2 → n ≠ 3 → ∃ (t : State) (V : Warp), exec (.operationComplete id) s = .next t ∧
       t.warp? B.uid W.idx = some V ∧ (∀ a, t.mem.byte a = s.mem.byte a) ∧ W.UniIs V id dst st) ∧
     (∀ d e g since, o.kind = .pgseal ⟨va, d, dst, some e, none, some g, since, []⟩ → s.mem.poison = [] → s.mem.bad = [] →
       s.vaHeld B.ctx e.va 32 = false → s.access (some (coreCluster W.core)) B.ctx e.va .rmw = .mem loc →
       let now := s.mem.snapAt e.va loc
       if now.gen = e.gen ∧ now.valid = true ∧ now.sealed = false then
         ∃ (t : State) (V : Warp), exec (.operationComplete id) s = .next t ∧ t.warp? B.uid W.idx = some V ∧ W.UniIs V id dst 0 ∧
           BytesTake s.mem.byte t.mem.byte loc (leBytes 8 (now.d0 / 4 * 4 + 2 + now.d0 % 2) ++ leBytes 8 (now.d1 / 4 * 4 + 2 + now.d1 % 2)) ∧
           ∀ r ∈ t.kv.readers, r.id ≠ id
       else ∃ (t : State) (V : Warp), exec (.operationComplete id) s = .next t ∧ t.warp? B.uid W.idx = some V ∧ W.UniIs V id dst 2 ∧
         ∀ a, t.mem.byte a = s.mem.byte a)) ∧
   (∀ (s : State) (die : Nat), (s.engine die).queue = [] → exec (.demotionEngineOp die) s = .next s) ∧
   (∀ (s : State) (die : Nat) (r : KvReq) (rest : List KvReq), (s.engine die).queue = r :: rest →
     (s.tripped = true ∨ s.anyHeld r.ctx (s.kvTouches (s.engine die) r) = true) → exec (.demotionEngineOp die) s = .next s) ∧
   (∀ (s : State) (die : Nat) (r : KvReq) (rest : List KvReq), (s.engine die).queue = r :: rest →
     s.anyHeld r.ctx (s.kvTouches (s.engine die) r) = false → s.tripped = false →
     let g := s.engine die
     (g.phase = .entry →
       let hi := nth 0 g.record 2 / 2 ^ 32 % 2 ^ 32
       let va := if r.op = 0 then nth 0 g.record 0 % 2 ^ 52 + 32 * g.page else r.va
       let goes (p : KvPhase) : Prop := ∃ t : State, exec (.demotionEngineOp die) s = .next t ∧ (∀ a, t.mem.byte a = s.mem.byte a) ∧
         (t.engine die).phase = p
       (r.op = 0 → hi ≤ g.page → goes (.finish 0 0)) ∧
       (r.op ≠ 0 ∨ g.page < hi →
         (∀ st a, s.snapshot none r.ctx va = .error (st, a) → goes (.finish st a)) ∧
         (∀ e, s.snapshot none r.ctx va = .ok e →
           (e.valid = false → r.op ≠ 0 → goes (.finish 5 0)) ∧
           (e.valid = false → r.op = 0 → ∃ t : State, exec (.demotionEngineOp die) s = .next t ∧ (∀ a, t.mem.byte a = s.mem.byte a) ∧
             t.engine die = { g with phase := .entry, page := g.page + 1, since := s.mem.past.length, counts := { g.counts with
               visited := g.counts.visited + 1, invalid := g.counts.invalid + 1 } }) ∧
           (e.valid = true → (e.flagsOk && e.reservedOk) = false → goes (.finish 6 0)) ∧
           (e.valid = true → (e.flagsOk && e.reservedOk) = true →
             (r.op = 4 → e.pin = true → goes (.finish 7 0)) ∧
             (r.op = 4 → e.pin = false → e.sealed = false → goes (.finish 8 0)) ∧
             (r.op = 4 → e.pin = false → e.sealed = true → e.tier = 1 → goes (.finish 9 0)) ∧
             (r.op = 1 → e.tier = 0 → goes (.finish 9 0)) ∧
             (r.op = 0 ∨ (r.op = 1 ∧ e.tier = 1) ∨ (r.op = 4 ∧ e.pin = false ∧ e.sealed = true ∧ e.tier = 0) →
               ∃ t : State, exec (.demotionEngineOp die) s = .next t ∧ (∀ a, t.mem.byte a = s.mem.byte a) ∧
                 (t.engine die).phase = (if r.op = 0 then .decay e else .pop e) ∧ (t.engine die).since = s.mem.past.length ∧
                 ⟨e.loc, e.gen, r.id⟩ ∈ t.kv.readers))))) ∧
     (∀ e k v sum, g.phase = .write e k v sum → g.since = s.mem.past.length → s.mem.poison = [] → s.mem.bad = [] →
       g.d = 64 ∨ g.d = 128 ∨ g.d = 256 →
       let tag := if r.op = 1 then e.tag else if e.tag < 3 then e.tag + 1 else 3
       let n := pageSize tag g.d
       ∀ lk lv : Nat, (∀ j, j < n → s.access none r.ctx (k + j) .write = .mem (lk + j)) → (lk + n ≤ lv ∨ lv + n ≤ lk) →
         s.StaysOff r.ctx v lv n .write (fun a => lk ≤ a ∧ a < lk + n) →
         let lays (ls m : Nat) (kb vb sb : List Byte) (m' : Nat → Byte) : Prop := ∀ a, m' a =
           if lk ≤ a ∧ a < lk + n then nth 0 kb (a - lk) else if lv ≤ a ∧ a < lv + n then nth 0 vb (a - lv)
           else if ls ≤ a ∧ a < ls + m then nth 0 sb (a - ls) else s.mem.byte a
         (∀ kb vb, sum = none → tag = e.tag → s.engRead none r.ctx e.kaddr n = .ok kb → s.engRead none r.ctx e.vaddr n = .ok vb →
           ∃ (t : State) (sig : Sig), exec (.demotionEngineOp die) s = .next t ∧ lays 0 0 kb vb [] t.mem.byte ∧
             (t.engine die).phase = .swap e k v none
               (if r.op = 1 ∨ e.tag < 2 then e.d3 else e.d3 / 2 ^ 24 * 2 ^ 24) sig) ∧
         (∀ sm ls K V, sum = some sm → r.op ≠ 1 → e.tag < 3 → s.readPage none r.ctx e false g.d = .ok K →
           s.readPage none r.ctx e true g.d = .ok V →
           s.StaysOff r.ctx sm ls (4 * g.d) .write (fun a => (lk ≤ a ∧ a < lk + n) ∨ (lv ≤ a ∧ a < lv + n)) →
           (lk + n ≤ ls ∨ ls + 4 * g.d ≤ lk) → (lv + n ≤ ls ∨ ls + 4 * g.d ≤ lv) →
           let off : Int := (sm : Int) - (e.va / 64 * 64 : Nat)
           ∃ (t : State) (sig : Sig) (d3 ks vs : Nat) (kb vb sb : List Byte), exec (.demotionEngineOp die) s = .next t ∧
             Demoted tag g.d g.raise K ks kb ∧ Demoted tag g.d g.raise V vs vb ∧ SummaryIs tag g.d ks kb sb ∧
             lays ls (4 * g.d) kb vb sb t.mem.byte ∧ (t.engine die).phase = .swap e k v (some sm) d3 sig ∧
             d3 % 2 ^ 24 = vs * 2 ^ 8 + ks ∧
             (sm % 64 = 0 → -2 ^ 45 ≤ off → off < 2 ^ 45 → (BitVec.ofNat 40 (d3 / 2 ^ 24)).toInt * 64 = off))) ∧
     (∀ e loc, g.phase = .decay e → s.access none r.ctx (e.va + 16) .rmw = .mem loc → (s.mem.fill loc 4).poisoned loc 4 = false →
       let m := s.mem.readN loc 4 / 2 ^ ((nth 0 g.record 3) % 32)
       let kept : Bool := e.pin || !e.sealed || decide (nth 0 g.record 2 / 2 ^ 32 % 2 ^ 32 ≤ g.page + nth 0 g.record 3 / 2 ^ 8 % 2 ^ 20)
       ∃ t : State, exec (.demotionEngineOp die) s = .next t ∧ BytesTake s.mem.byte t.mem.byte loc (leBytes 4 m) ∧
         t.engine die =
           (if kept then { g with phase := .entry, page := g.page + 1, counts := { g.counts with prot := g.counts.prot + 1 } }
            else if e.tier = 0 ∧ m < g.threshold e.tag then { g with phase := .pop e }
            else { g with phase := .entry, page := g.page + 1, counts := { g.counts with nostep := g.counts.nostep + 1 } })) ∧
     (∀ e k v sum d3 sig loc, g.phase = .swap e k v sum d3 sig → s.access none r.ctx e.va .rmw = .mem loc →
       s.mem.poisoned loc 32 = false → (∀ u ∈ s.mem.bad, 16 * u + 16 ≤ loc ∨ loc + 32 ≤ 16 * u) →
       let now := s.mem.snapAt e.va loc
       let ring := 4 * (if r.op = 1 ∨ e.tag < 3 then 0 else 1) + (if r.op = 1 then e.tag else if e.tag < 3 then e.tag + 1 else 3)
       ¬(now.d0 = e.d0 ∧ now.d1 = e.d1 ∧ now.d3 = e.d3 ∧ now.gen = e.gen) →
       ∃ t : State, exec (.demotionEngineOp die) s = .next t ∧ (∀ a, t.mem.byte a = s.mem.byte a) ∧ t.kv.retire = s.kv.retire ∧
         t.engine die = { g with
           phase := .back e ([(ring, k), (ring, v)] ++ (sum.map (fun x => (8, x))).toList) none none false 11 }) ∧
     (∀ e k v sum d3 sig loc, g.phase = .swap e k v sum d3 sig → s.access none r.ctx e.va .rmw = .mem loc →
       s.mem.poisoned loc 32 = false → (∀ u ∈ s.mem.bad, 16 * u + 16 ≤ loc ∨ loc + 32 ≤ 16 * u) →
       let now := s.mem.snapAt e.va loc
       now.d0 = e.d0 → now.d1 = e.d1 → now.d3 = e.d3 → now.gen = e.gen →
       let tag := if r.op = 1 then e.tag else if e.tag < 3 then e.tag + 1 else 3
       let tier := if r.op = 1 then 0 else if e.tag < 3 then 0 else 1
       let flags := 16 * tag + 8 * tier + e.d0 % 8
       ∃ t : State, exec (.demotionEngineOp die) s = .next t ∧
         BytesTake s.mem.byte t.mem.byte loc (entryBytes (k / 256 * 2 ^ 20 + flags) (v / 256 * 2 ^ 20 + flags)
           (now.d2 / 2 ^ 48 * 2 ^ 48 + (e.gen + 1) % 2 ^ 16 * 2 ^ 32 + now.d2 % 2 ^ 32) d3) ∧
         (∃ slots, t.kv.retire = s.kv.retire ++ [⟨e.loc, e.gen, r.ctx, kvPool g r, slots, none⟩] ∧
           (4 * e.tier + e.tag, e.kaddr) ∈ slots ∧ (4 * e.tier + e.tag, e.vaddr) ∈ slots ∧
           (sum.isSome = true → (8, e.summary) ∈ slots))) ∧
     (∀ st va, g.phase = .finish st va → ∃ t : State, exec (.demotionEngineOp die) s = .next t ∧
       t.engine die = { KvEngine.reset with queue := rest } ∧ (st = 1 ∨ st = 2 ∨ st = 4 → (r.ctx, va) ∈ t.telemetry) ∧
       (r.op ≠ 0 → ∀ a, t.mem.byte a = s.mem.byte a) ∧
       (r.op = 0 → ∀ loc, (∀ j, j < 64 → s.access none r.ctx (r.va + 64 + j) .write = .mem (loc + j)) →
         let c := g.counts
         BytesTake s.mem.byte t.mem.byte loc (leBytes 4 st ++ leBytes 4 (if st = 0 then 0 else g.page) ++ leBytes 8 va ++
           leBytes 4 c.visited ++ leBytes 4 c.invalid ++ leBytes 4 c.prot ++ leBytes 4 c.nostep ++ leBytes 4 c.dem1 ++
           leBytes 4 c.dem2 ++ leBytes 4 c.dem3 ++ leBytes 4 c.moved ++ leBytes 4 c.exhausted ++ leBytes 4 c.changed ++ leBytes 8 0) ∧
         ∀ (B : Block) (W : Warp) (o : Op), Owns s r.id B W o → ∀ n d a p q, o.kind = .kv n d a p q →
           ∃ V o', t.warp? B.uid W.idx = some V ∧ o' ∈ V.ops ∧ o'.id = r.id ∧ o'.kind = .kv n d a p (some st)) ∧
       ∀ (B : Block) (W : Warp) (o : Op), Owns s r.id B W o → r.op ≠ 0 → ∀ n d a p q, o.kind = .kv n d a p q →
         ∃ V o', t.warp? B.uid W.idx = some V ∧ o' ∈ V.ops ∧ o'.id = r.id ∧ o'.kind = .kv n d a p (some st))) ∧
   (∀ (s : State) (k : Nat),
     (s.kv.retire[k]? = none → exec (.slotRetirePush k) s = .next s) ∧
     ∀ r, s.kv.retire[k]? = some r → s.tripped = false →
       s.anyHeld r.ctx ((r.slots.head?.map (fun x => s.pushTouches r.ctx r.pool x.1 r.pos)).getD []) = false →
       ((∃ y ∈ s.kv.readers, y.ent = r.ent ∧ y.gen = r.gen) → exec (.slotRetirePush k) s = .next s) ∧
       ((∀ y ∈ s.kv.readers, ¬(y.ent = r.ent ∧ y.gen = r.gen)) →
         ∃ t : State, exec (.slotRetirePush k) s = .next t ∧ t.blocks.length = s.blocks.length ∧
           ∀ ring slot rest x lt lw ld, r.slots = (ring, slot) :: rest → s.mem.poison = [] → s.mem.bad = [] →
             s.PushPlace r.ctx r.pool ring (r.pos.getD 0) x lt lw ld →
             PushHalf s slot r.pos lt lw ld t.mem.byte ∧
             t.kv.retire = if r.pos = none then setNth s.kv.retire k { r with pos := some (s.mem.readN lt 4) }
               else if rest = [] then s.kv.retire.eraseIdx k else setNth s.kv.retire k { r with slots := rest, pos := none })))

/-- R404, R405, R409, R410, R413, Tables 15.2 to 15.5: a demotion engine reads and checks the sweep record and the pool before any entry:
BADREC, BADPOOL, or the fault met; then it goes on to the entries. A step pops two slots of the target ring in one step, FULL := 0 in
each and HEAD + 2, and one slot of ring 8 for a new format; where a slot word has FULL = 0 nothing is taken, EXHAUST of the pool
counts, and the step ends EXHAUSTED, what it had popped before going back; a slot that is no multiple of 256 ends the operation with
BADPOOL, the other going back. What goes back is pushed slot by slot: TAIL counts, then the slot word at that position is written, or
LEAK counts where it is full. It is stated where nothing has been written since the reads could begin (log 62, DEDUCED). -/
def Obligations.KvPools : Prop :=
  ∀ (s : State) (die : Nat) (r : KvReq) (rest : List KvReq), (s.engine die).queue = r :: rest →
    s.anyHeld r.ctx (s.kvTouches (s.engine die) r) = false → s.tripped = false →
    let g := s.engine die
    let P := if r.op = 0 then nth 0 g.record 1 % 2 ^ 52 else r.pool
    let goes (g' : KvEngine) : Prop := ∃ t : State, exec (.demotionEngineOp die) s = .next t ∧ (∀ a, t.mem.byte a = s.mem.byte a) ∧
      t.engine die = g'
    let checks (g : KvEngine) (P : Nat) : Prop :=
      (∀ st a, s.engRead none r.ctx P 256 = .error (st, a) → goes { g with phase := .finish st a }) ∧
      ∀ bs, s.engRead none r.ctx P 256 = .ok bs → (poolBad bs → goes { g with phase := .finish 12 0 }) ∧
        (¬poolBad bs → goes { g with phase := .entry, d := 64 * 2 ^ recField bs 0 0 2, raise := recField bs 0 2 1 == 1 })
    let recorded (bs : List Byte) : KvEngine :=
      { g with record := (List.range 8).map (fun i => recField bs i 0 64), page := recField bs 2 0 32 }
    (g.phase = .pool ∨ g.phase = .poolAt s.mem.past.length ∨ (g.phase = .start ∧ r.op ≠ 0) → checks g P) ∧
    (g.phase = .reading s.mem.past.length ∨ (g.phase = .start ∧ r.op = 0) →
      (∀ st a, s.engRead none r.ctx r.va 64 = .error (st, a) → goes { g with phase := .finish st a }) ∧
      ∀ bs, s.engRead none r.ctx r.va 64 = .ok bs → (sweepRecBad bs → goes { recorded bs with phase := .finish 3 0 }) ∧
        (¬sweepRecBad bs → if g.phase = .start then checks (recorded bs) (recField bs 1 0 52)
          else goes { recorded bs with phase := .pool })) ∧
    (s.mem.poison = [] → s.mem.bad = [] →
      let ring (e : Snap) : Nat :=
        4 * (if r.op = 1 ∨ e.tag < 3 then 0 else 1) + (if r.op = 1 then e.tag else if e.tag < 3 then e.tag + 1 else 3)
      let full (w : Nat) : Prop := w % 2 = 1 ∧ w / 2 ^ 52 = 0
      let slot (w : Nat) : Nat := w / 2 ^ 6 % 2 ^ 46 * 64
      let bumped (m m' : Nat → Byte) (lx : Nat) : Prop :=
        BytesTake m m' lx (leBytes 4 (min (ofLeBytes ((List.range 4).map (fun j => m (lx + j))) + 1) 0xFFFFFFFF))
      (∀ e x h w0 w1, g.phase = .pop e → s.engReadN none r.ctx (P + 64 + 16 * ring e) 8 = .ok x →
        s.engReadN none r.ctx (P + 72 + 16 * ring e) 4 = .ok h → s.engReadN none r.ctx (slotWord x (h % 2 ^ 32)) 8 = .ok w0 →
        s.engReadN none r.ctx (slotWord x ((h + 1) % 2 ^ 32)) 8 = .ok w1 →
        (∀ lx, w0 / 2 ^ 52 = 0 → w1 / 2 ^ 52 = 0 → w0 % 2 = 0 ∨ w1 % 2 = 0 →
          (∀ j, j < 4 → s.access none r.ctx (P + 8 + j) .read = .mem (lx + j) ∧ s.access none r.ctx (P + 8 + j) .write = .mem (lx + j)) →
          ∃ t : State, exec (.demotionEngineOp die) s = .next t ∧ bumped s.mem.byte t.mem.byte lx ∧ t.engine die = g.stepped r.op 10 ∧
            ∀ y ∈ t.kv.readers, y.id ≠ r.id) ∧
        (∀ l0 l1 lh, full w0 → full w1 →
          let one (a : Nat) : Prop := l0 ≤ a ∧ a < l0 + 8
          let two (a : Nat) : Prop := l1 ≤ a ∧ a < l1 + 8
          let head (a : Nat) : Prop := lh ≤ a ∧ a < lh + 4
          (∀ a, ¬(one a ∧ two a) ∧ ¬(one a ∧ head a) ∧ ¬(two a ∧ head a)) →
          s.StaysOff r.ctx (slotWord x (h % 2 ^ 32)) l0 8 .write (fun _ => False) →
          s.StaysOff r.ctx (slotWord x ((h + 1) % 2 ^ 32)) l1 8 .write one →
          s.StaysOff r.ctx (P + 72 + 16 * ring e) lh 4 .write (fun a => one a ∨ two a) →
          ∃ t : State, exec (.demotionEngineOp die) s = .next t ∧
            (∀ a, t.mem.byte a = if l0 ≤ a ∧ a < l0 + 8 then nth 0 (leBytes 8 (w0 - 1)) (a - l0)
              else if l1 ≤ a ∧ a < l1 + 8 then nth 0 (leBytes 8 (w1 - 1)) (a - l1)
              else if lh ≤ a ∧ a < lh + 4 then nth 0 (leBytes 4 (h + 2)) (a - lh) else s.mem.byte a) ∧
            let odd := [slot w0, slot w1].filter (fun a => a % 256 != 0)
            let even := ([slot w0, slot w1].filter (fun a => a % 256 == 0)).map (fun a => (ring e, a))
            t.engine die = { g with phase :=
              if odd = [] then (if r.op = 1 ∨ e.tag = 3 then .write e (slot w0) (slot w1) none else .popSum e (slot w0) (slot w1))
              else if even = [] then .finish 12 0 else .back e even none (some (12, 0)) false 0 })) ∧
      (∀ e k v x h w, g.phase = .popSum e k v → s.engReadN none r.ctx (P + 192) 8 = .ok x → s.engReadN none r.ctx (P + 200) 4 = .ok h →
        s.engReadN none r.ctx (slotWord x (h % 2 ^ 32)) 8 = .ok w →
        (w / 2 ^ 52 = 0 → w % 2 = 0 → goes { g with phase := .back e [(ring e, k), (ring e, v)] none none true 10 }) ∧
        (∀ l0 lh, full w →
          let one (a : Nat) : Prop := l0 ≤ a ∧ a < l0 + 8
          (lh + 4 ≤ l0 ∨ l0 + 8 ≤ lh) → s.StaysOff r.ctx (slotWord x (h % 2 ^ 32)) l0 8 .write (fun _ => False) →
          s.StaysOff r.ctx (P + 200) lh 4 .write one →
          ∃ t : State, exec (.demotionEngineOp die) s = .next t ∧
            (∀ a, t.mem.byte a = if l0 ≤ a ∧ a < l0 + 8 then nth 0 (leBytes 8 (w - 1)) (a - l0)
              else if lh ≤ a ∧ a < lh + 4 then nth 0 (leBytes 4 (h + 1)) (a - lh) else s.mem.byte a) ∧
            t.engine die = { g with phase := .write e k v (some (slot w)) })) ∧
      (∀ e q a slots pos err bump st x lt lw ld, g.phase = .back e ((q, a) :: slots) pos err bump st →
        s.PushPlace r.ctx P q (pos.getD 0) x lt lw ld →
        let last : Prop := pos ≠ none ∧ slots = []
        ∃ (t : State) (m : Nat → Byte), exec (.demotionEngineOp die) s = .next t ∧ PushHalf s a pos lt lw ld m ∧
          (¬(last ∧ bump = true ∧ err = none) → ∀ b, t.mem.byte b = m b) ∧
          (pos = none → t.engine die = { g with phase := .back e ((q, a) :: slots) (some (s.mem.readN lt 4)) err bump st }) ∧
          (pos ≠ none → slots ≠ [] → t.engine die = { g with phase := .back e slots none err bump st }) ∧
          (last → ∀ er, err = some er → t.engine die = { g with phase := .finish er.1 er.2 }) ∧
          (last → err = none → st = 10 ∨ st = 11 → (bump = true → ∀ lx, lx + 4 ≤ lw ∨ lw + 8 ≤ lx →
              lx + 4 ≤ ld ∨ ld + 4 ≤ lx →
              s.StaysOff r.ctx (P + 8) lx 4 .read (fun b => (lw ≤ b ∧ b < lw + 8) ∨ (ld ≤ b ∧ b < ld + 4)) →
              s.StaysOff r.ctx (P + 8) lx 4 .write (fun b => (lw ≤ b ∧ b < lw + 8) ∨ (ld ≤ b ∧ b < ld + 4)) →
              bumped m t.mem.byte lx ∧ t.engine die = g.stepped r.op st) ∧
            (bump = false → t.engine die = g.stepped r.op st))))

/-! ## Launches, capture and restore -/

namespace Sys2Proof.Machine

/-- A context has been reset (R393): nothing of it is left running, captured, faulting or launched, its queues are disabled, CRESET
holds the cause and HOSTIRQ bit 2 is set. -/
structure ResetOf (t : State) (ctx cause : Nat) : Prop where
  blocks : ∀ B ∈ t.blocks, B.ctx ≠ ctx
  images : ∀ m ∈ t.images, m.blk.ctx ≠ ctx
  launches : ∀ L ∈ t.launches, L.ctx ≠ ctx
  faults : ∀ f ∈ t.faults, f.ctx ≠ ctx
  queues : ∀ q, q < 128 → t.qctl q / 2 ^ 12 % 2 ^ 6 = ctx → t.qctl q % 2 = 0
  creset : tget 0 t.host.creset ctx = BitVec.ofNat 64 cause
  irq : t.host.hostirq.getLsbD 2 = true

/-- n bytes of a context's memory from va up lie at loc and up, for an access of the command processor's. -/
def State.mapsTo (s : State) (ctx va n loc : Nat) (need : Need) : Prop :=
  ∀ k, k < n → s.access none ctx (va + k) need = .mem (loc + k)

/-- The access fails at a byte, the first that does, for want of a translation or not. -/
def State.StopsAt (s : State) (ctx va n : Nat) (need : Need) (missing : Bool) : Prop :=
  ∃ k, k < n ∧ (∀ j, j < k → ∃ loc, s.access none ctx (va + j) need = .mem loc) ∧
    (∀ loc, s.access none ctx (va + k) need ≠ .mem loc) ∧ (missing = true ↔ s.access none ctx (va + k) need = .fault)

/-- The command processor reads these bytes, which no error spoils, from va up. -/
def State.Reads (s : State) (ctx va : Nat) (bs : List Byte) : Prop :=
  ∀ k, k < bs.length → ∃ loc, s.access none ctx (va + k) .read = .mem loc ∧ s.mem.byte loc = nth 0 bs k ∧
    s.mem.poisoned loc 1 = false ∧ s.mem.bad.contains (loc / 16) = false

/-- An operation of a block that a capture carries (Tables 6.13 and 13.1): a copy word not accepted, a CBWAIT, a tuple request
withdrawn, a FENCE whose flag has fallen. -/
def Block.Carries (B : Block) (o : Op) : Prop :=
  match o.kind with
  | .ckick _ _ _ => True
  | .cqfence _ entered => entered = false
  | .cbwait _ _ _ => True
  | .fence _ => o.done = true
  | .tuple _ _ => ∃ x ∈ B.withdrawn, x.1.id = o.id
  | _ => False

/-- The number in n bytes of an image from offset o up. -/
def imgN (bs : List Byte) (o n : Nat) : Nat := ofLeBytes ((bs.drop o).take n)

/-- The lengths of R353: a warp record, the four sections' offsets, the whole. -/
def imgRecord (B : Block) : Nat := 2048 + 8192 * B.nacc + 128 * B.a
def imgBar (B : Block) : Nat := 512 + B.warps.length * imgRecord B
def imgMap (B : Block) : Nat := imgBar B + 2720
def mapBytes (as : List Alloc) : Nat := sumNat (as.map (fun A => 8 + 8 * A.pages.length))

/-- PKIND and PBAR of Table 13.4. -/
def parkedCode : TStatus → Nat × Nat
  | .parked .waitm => (1, 0)
  | .parked .tuple => (2, 0)
  | .parked (.bar id) => (3, id)
  | .parked .gbar => (4, 0)
  | .parked .token => (5, 0)
  | .parked .handler => (6, 0)
  | _ => (0, 0)

/-- The warp at which a launch's token stands, when it is a warp of the block. -/
def tokenAt (L : Launch) (B : Block) : Option Nat :=
  match L.token.pos with
  | some (b, w) => if b = B.logid then some w else none
  | none => none

/-- A warp record (Tables 13.3 and 13.4, R352) at offset o of an image; SIGW's bytes are free (log 11). -/
structure WarpImage (bs : List Byte) (o : Nat) (B : Block) (W : Warp) : Prop where
  thread : ∀ l, l < 32 → let T := W.thread l
    imgN bs (o + 16 * l) 8 = ((parkedCode T.status).2 * 2 ^ 59 + (parkedCode T.status).1 * 2 ^ 56 +
      (if W.handler.getLsbD l then 2 ^ 55 else 0) + (if T.y then 2 ^ 54 else 0) +
      (match T.status with
        | .eligible => 0
        | .parked _ => 1
        | .exited => 2) * 2 ^ 52 + T.pc.toNat) % 2 ^ 64 ∧
    imgN bs (o + 16 * l + 8) 8 = T.ix1.toNat * 2 ^ 24 + T.ix0.toNat * 2 ^ 16 + T.fx.toNat * 2 ^ 7 + T.preds.toNat
  uniform : ∀ n, n < 64 → imgN bs (o + 0x200 + 4 * n) 4 = if n < B.u then (W.wRaw n).toNat else 0
  flag : ∀ n, n < 12 → imgN bs (o + 0x300 + n) 1 = tget 0 W.flags n % 256
  shape : imgN bs (o + 0x310) 8 = W.shape.toNat * 2 ^ 32 + W.repc.toNat
  hmask : imgN bs (o + 0x318) 8 = W.handler.toNat * 2 ^ 32 + W.trap.cause.toNat
  tpc : imgN bs (o + 0x320) 8 = W.trap.pc.toNat
  taddr : imgN bs (o + 0x328) 8 = W.trap.addr.toNat
  taux : imgN bs (o + 0x330) 8 = W.trap.aux.toNat * 2 ^ 32 + W.trap.half.toNat
  tret : imgN bs (o + 0x338) 8 = W.trap.ret.toNat
  skip : imgN bs (o + 0x340) 8 = (if W.skip.valid then 2 ^ 63 else 0) + (if W.skip.half then 2 ^ 62 else 0) +
    W.skip.iter.toNat * 2 ^ 56 + W.skip.addr.toNat
  monitor : imgN bs (o + 0x348) 8 = (if W.mon.armed then 2 ^ 63 else 0) + (if W.mon.trig then 2 ^ 62 else 0) + W.mon.line.toNat * 2 ^ 7
  wtime : imgN bs (o + 0x350) 8 = (W.mon.deadline.getD 0) % 2 ^ 64
  brec : ∀ i, i < 17 → imgN bs (o + 0x400 + 16 * i) 8 = (W.brecAt i).reg.toNat * 2 ^ 32 + (W.brecAt i).pend.toNat ∧
    imgN bs (o + 0x408 + 16 * i) 8 = (W.brecAt i).phase.toNat
  grec : imgN bs (o + 0x510) 8 = W.grec.reg.toNat * 2 ^ 32 + W.grec.pend.toNat ∧ imgN bs (o + 0x518) 8 = W.grec.phase.toNat
  reserved : ∀ k, (0x30C ≤ k ∧ k < 0x310 ∨ 0x358 ≤ k ∧ k < 0x380 ∨ 0x520 ≤ k ∧ k < 0x800) → imgN bs (o + k) 1 = 0
  tile : ∀ t e, t < B.nacc → e < 256 →
    let p (odd : Nat) : Partial := tget ⟨0, 0⟩ W.acc (512 * t + 2 * e + odd)
    let at' := o + 0x800 + 8192 * t + 32 * e
    imgN bs at' 8 = (p 0).val.toNat ∧ imgN bs (at' + 8) 8 = (p 1).val.toNat ∧ imgN bs (at' + 16) 8 = (p 0).key.toNat ∧
      imgN bs (at' + 24) 8 = (p 1).key.toNat
  lane : ∀ n l, n < B.a → l < 32 → imgN bs (o + 0x800 + 8192 * B.nacc + 4 * (32 * n + l)) 4 = (W.vRaw n l).toNat

/-- An image (Tables 13.2 and 13.5, R351, R353) of a block B that stood on a first core, with its launch, its allocations, its
carried copy words in issue order and its withdrawn tuple requests. The signatures' bytes are free (log 11). -/
structure ImageIs (bs : List Byte) (B : Block) (L : Launch) (core cause : Nat) (as : List Alloc) (copies : List (Nat × Op))
    (tups : List (TupReq × Nat)) : Prop where
  head : ∀ i, i < 8 → imgN bs (8 * i) 8 = (nth 0
    [2 ^ 32 + cause * 2 ^ 24 + (if B.garr then 2 ^ 20 else 0) + (if tokenAt L B ≠ none ∧ L.token.held = true then 2 ^ 19 else 0) +
        (if tokenAt L B ≠ none then 2 ^ 18 else 0) + (if B.mig = true ∨ 0 < B.migcount then 2 ^ 16 else 0) + B.warps.length,
     B.logid,
     (nth 0 L.record 0).toNat % 2 ^ 52,
     L.num * 2 ^ 32 + B.migcount,
     B.a * 2 ^ 56 + B.u * 2 ^ 48 + B.nacc * 2 ^ 44 + B.nbars * 2 ^ 39 + B.scope * 2 ^ 37 + B.scratch,
     B.sched * 2 ^ 56 + (tokenAt L B).getD 0 * 2 ^ 48 + B.gphase.toNat * 2 ^ 32 + as.length * 2 ^ 24 + copies.length * 2 ^ 16 +
        tups.length * 2 ^ 8 + core % 256,
     imgMap B * 2 ^ 32 + imgBar B,
     (imgMap B + mapBytes as + 16 * copies.length) * 2 ^ 32 + (imgMap B + mapBytes as)] i) % 2 ^ 64
  reserved : ∀ k, (192 ≤ k ∨ (64 ≤ k ∧ tokenAt L B = none)) → k < 512 → imgN bs k 1 = 0
  warp : ∀ i W, B.warps[i]? = some W → WarpImage bs (512 + imgRecord B * i) B W
  barrier : ∀ i, i < 17 →
    let b := nth Barrier.reset B.barriers i
    let o := imgBar B + 160 * i
    if B.nbars < i then ∀ k, k < 160 → imgN bs (o + k) 1 = 0
    else imgN bs o 8 = (b.n * 2 ^ 16 + b.q.toNat) % 2 ^ 64 ∧ imgN bs (o + 8) 8 = 0 ∧
      imgN bs (o + 16) 16 = sumNat (b.regs.map (2 ^ ·)) % 2 ^ 128
  map : ∀ i A, as[i]? = some A →
    let o := imgMap B + mapBytes (as.take i)
    imgN bs o 8 = (if B.scope = 1 then A.first else 0) % 2 ^ 64 ∧
      ∀ j p, A.pages[j]? = some p → imgN bs (o + 8 + 8 * j) 8 = p.back.toNat
  copy : ∀ i w y, copies[i]? = some (w, y) →
    let o := imgMap B + mapBytes as + 16 * i
    imgN bs (o + 8) 8 = 0 ∧ ∀ x, (∃ d addr tok, y.kind = .ckick d addr tok ∧ x = d.getD 0xFC * 2 ^ 48 + addr) ∨
        (∃ mask e, y.kind = .cqfence mask e ∧ x = mask * 2 ^ 40 + 2 ^ 39) →
      imgN bs o 8 = (w * 2 ^ 56 + y.setf.getD 15 * 2 ^ 44 + x) % 2 ^ 64
  tuple : (∀ r ∈ tups, r.1.fields.length = 8) → ∀ i r left, tups[i]? = some (r, left) →
    let o := imgMap B + mapBytes as + 16 * copies.length + 96 * i
    imgN bs (o + 8) 8 = left % 2 ^ 64 ∧ (∀ j, j < 8 → imgN bs (o + 16 + 8 * j) 8 = (nth 0 r.fields j).toNat) ∧
      imgN bs (o + 80) 16 = 0 ∧
      ∀ b w W y d m, r.src = some (b, w) → B.warps[w]? = some W → W.op? r.id = some y → y.kind = .tuple d m →
        imgN bs o 8 = (w * 2 ^ 56 + ((if r.blocking then 128 else 0) + d) * 2 ^ 48 + y.setf.getD 15 * 2 ^ 44 +
          (if r.kind = 2 then 2 ^ 43 else 0) + r.mask * 2 ^ 36 + r.handle) % 2 ^ 64

/-- V holds the registers of W. -/
def SameRegs (W V : Warp) : Prop := V.v = W.v ∧ V.w = W.w ∧ V.acc = W.acc ∧ ∀ l, (V.thread l).preds = (W.thread l).preds

/-- WARP_FREE's conditions (R146): the warp has drained, and its threads have all exited or its block has aborted. -/
def State.drains (s : State) (B : Block) (W : Warp) : Prop :=
  W.freed = false ∧ (B.halt = none ∨ B.aborted = true) ∧ (B.aborted = true ∨ ∀ l, l < 32 → (W.thread l).status = .exited) ∧
    s.drained B W = true

end Sys2Proof.Machine

/-- R387, Table 14.3: LAUNCH checks its record's address, is CTOK_FAULT in deterministic mode without the token (the order of
these checks is log 58, DEDUCED), and enters its operation; that waits for the warp's earlier memory words, and in deterministic
mode for its earlier LAUNCHes, answers 2 for a queue it may not use, 1 for a full one, 3 or 4 where the record cannot be read or the
slot not written for want of a translation or for another reason (a fault of the record before one of the slot), WR as it was, and
else copies the 128 bytes into the queue's next slot, counts WR up and answers 0. R376, R379, R380: with no record to dispatch
nothing happens; of one queue's next record the checks decide: a record that passes them is a launch, its blocks unplaced, and one
that fails is none; the queue's RD counts up either way. Either waits while memory it reads or writes takes no requests (log 34,
DEDUCED). -/
def Obligations.Launches : Prop :=
  ((∀ (s : State) (x : Slot) (f : FmtS), Clear (.launch f) plainCheck s x →
     let c := x.ctx s (.launch f) plainCheck none
     let va := (c.uni64 f.b.toNat).toNat
     if 2 ^ 52 ≤ va then exec (.launch f) s = .next (x.trapped s 0x08 0 va x.run)
     else if va % 128 ≠ 0 then exec (.launch f) s = .next (x.trapped s 0x09 0 va x.run)
     else if s.isDet x.B = true ∧ s.holdsToken x.B x.W.idx = false then
       ∃ addr aux, exec (.launch f) s = .next (x.trapped s 0x12 0 addr aux)
     else x.Starts s (.launch f) c (.launch f.a.toNat va (c.uni f.c.toNat).toNat) f.setf [.uni f.a.toNat]) ∧
   (∀ (s : State) (id dst va q : Nat) (B : Block) (W : Warp) (o : Op), Owns s id B W o → s.tripped = false →
     o.done = false → o.kind = .launch dst va q →
     let ctl := s.qctl q
     let waits : Prop := ∃ y ∈ W.opsBefore id, match y.kind with
       | .cbwait _ _ _ => False
       | .launch _ _ _ => s.isDet B = true
       | k => k.isMem = true ∧ y.performed = false
     let answers (status : Nat) (bytes : State → Prop) : Prop := ∃ (t : State) (V : Warp), exec (.operationComplete id) s = .next t ∧
       t.warp? B.uid W.idx = some V ∧ W.UniIs V id (some dst) status ∧ bytes t
     (waits → exec (.operationComplete id) s = .next s) ∧
     (¬waits →
       (127 < q ∨ ctl % 2 = 0 ∨ ctl / 2 ^ 8 % 2 ^ 4 < 4 ∨ 12 < ctl / 2 ^ 8 % 2 ^ 4 ∨ ctl / 2 ^ 3 % 2 = 0 ∨ ctl / 2 ^ 12 % 2 ^ 6 ≠ B.ctx →
         answers 2 (fun t => (∀ k, t.qwr k = s.qwr k) ∧ ∀ a, t.mem.byte a = s.mem.byte a)) ∧
       (¬(127 < q ∨ ctl % 2 = 0 ∨ ctl / 2 ^ 8 % 2 ^ 4 < 4 ∨ 12 < ctl / 2 ^ 8 % 2 ^ 4 ∨ ctl / 2 ^ 3 % 2 = 0 ∨
           ctl / 2 ^ 12 % 2 ^ 6 ≠ B.ctx) →
         (s.queued q = 2 ^ (ctl / 2 ^ 8 % 2 ^ 4) →
           answers 1 (fun t => (∀ k, t.qwr k = s.qwr k) ∧ ∀ a, t.mem.byte a = s.mem.byte a)) ∧
         (s.queued q ≠ 2 ^ (ctl / 2 ^ 8 % 2 ^ 4) →
           let slot := s.slotVa q (s.qwr q)
           let fails (missing : Bool) : Prop :=
             answers (if missing then 3 else 4) (fun t => (∀ k, t.qwr k = s.qwr k) ∧ ∀ a, t.mem.byte a = s.mem.byte a)
           (s.anyHeld B.ctx [(va, 128), (slot, 128)] = true → exec (.operationComplete id) s = .next s) ∧
           (s.anyHeld B.ctx [(va, 128), (slot, 128)] = false →
             (∀ missing, s.StopsAt B.ctx va 128 .read missing → fails missing) ∧
             ∀ bs, bs.length = 128 → s.Reads B.ctx va bs →
               (∀ missing, s.StopsAt B.ctx slot 128 .write missing → fails missing) ∧
               ∀ dst, s.mapsTo B.ctx slot 128 dst .write →
                 answers 0 (fun t => BytesTake s.mem.byte t.mem.byte dst bs ∧ t.qwr q = (s.qwr q + 1) % 2 ^ 32))))))) ∧
  (∀ (s : State),
     (s.tripped = true → exec .launchDispatch s = .next s) ∧
     (s.tripped = false → (∀ L ∈ s.launches, L.snap = none) →
       ((∀ q, q < 128 → s.dispatchable q = false) → exec .launchDispatch s = .next s) ∧
       (∀ q bs, q < 128 → s.dispatchable q = true → (∀ k, k < 128 → k ≠ q → s.dispatchable k = false) →
         let ctx := s.qctl q / 2 ^ 12 % 2 ^ 6
         (s.anyHeld ctx (s.dispatchTouches q) = true → exec .launchDispatch s = .next s) ∧
         (s.anyHeld ctx (s.dispatchTouches q) = false → s.cpRead ctx (s.slotVa q (s.qrd q)) 128 = .ok bs →
         (∀ st, s.checkRecord ctx (dwordsOf bs) = .error st → ∃ t : State, exec .launchDispatch s = .next t ∧ t.launches = s.launches ∧
           t.qrd q = (s.qrd q + 1) % 2 ^ 32) ∧
         (∀ k, s.checkRecord ctx (dwordsOf bs) = .ok (some k) → k.batch = none → (∀ L ∈ s.launches, L.uid ≠ s.nextUid) →
           ∃ (t : State) (L : Launch), exec .launchDispatch s = .next t ∧ t.launches = s.launches ++ [L] ∧ t.qrd q = (s.qrd q + 1) % 2 ^ 32 ∧
             (∀ a, t.mem.byte a = s.mem.byte a) ∧ t.blocks = s.blocks ∧ L.uid = s.nextUid ∧ L.queue = q ∧ L.ctx = ctx ∧
             L.record = k.record ∧ L.blocks = blockCount (levelsOf k.record) ∧ L.placed = 0 ∧ L.freed = [] ∧
             L.prio = s.qctl q / 2 ^ 5 % 2 ^ 3)))))

namespace Sys2Proof.Machine

/-- n bits of dword i of a record or of a table read, from bit lo up. -/
def dwBits (r : List Dword) (i lo n : Nat) : Nat := (nth 0 r i).toNat / 2 ^ lo % 2 ^ n

/-- Levels that are valid with a SCRATCH (R373). -/
structure LevelsValid (lv : List Nat) (scratch : Nat) : Prop where
  each : ∀ l ∈ lv, l / 2 ^ 29 % 8 = 0 ∧ l / 2 ^ 27 % 4 ≠ 3 ∧ l / 2 ^ 24 % 8 < 6
  lanes : ∀ k l, lv[k]? = some l → (l / 2 ^ 24 % 8 = 0 ↔ k = 0)
  lane0 : nth 0 lv 0 % 2 ^ 24 < 32
  outwards : ∀ (k : Nat) (a b : Nat), lv[k]? = some a → lv[k + 1]? = some b → a / 2 ^ 24 % 8 ≤ b / 2 ^ 24 % 8
  block : ∃ b, b < lv.length ∧ (∀ k l, lv[k]? = some l →
      ((l / 2 ^ 24 % 8 = 2 ∨ l / 2 ^ 24 % 8 = 3) ↔ k = b) ∧ (k ≠ b → l / 2 ^ 27 % 4 = 0)) ∧
    (nth 0 lv b / 2 ^ 27 % 4 = 0 → scratch = 0) ∧ prodNat ((lv.take b).map (fun l => l % 2 ^ 24 + 1)) ≤ 4096
  warps : prodNat ((lv.filter (fun l => l / 2 ^ 24 % 8 == 1)).map (fun l => l % 2 ^ 24 + 1)) ≤ 128
  all : prodNat (lv.map (fun l => l % 2 ^ 24 + 1)) < 2 ^ 52

/-- Level k of a record. -/
def recLevel (r : List Dword) (k : Nat) : Nat := dwBits r (2 + k / 2) (32 * (k % 2)) 32

/-- The levels of a record, its outermost extent replaced when `ext` is given. -/
def recLevels (r : List Dword) (ext : Option Nat) : List Nat :=
  let n := dwBits r 1 48 4
  (List.range n).map (fun k => match ext with
    | some e => if k + 1 = n then recLevel r k / 2 ^ 24 * 2 ^ 24 + (e - 1) else recLevel r k
    | none => recLevel r k)

/-- A record that passes step 2 of R376 (Tables 14.1 and 14.2). -/
structure RecordShape (r : List Dword) : Prop where
  reserved : (∀ i ∈ [0, 7, 8, 10, 12, 13, 14], dwBits r i 52 12 = 0) ∧ dwBits r 1 52 4 = 0 ∧ dwBits r 1 32 16 = 0 ∧
    dwBits r 6 21 18 = 0 ∧ dwBits r 9 60 4 = 0 ∧ dwBits r 9 52 4 = 0 ∧ dwBits r 15 0 64 = 0
  sched : dwBits r 1 58 2 ≠ 3 ∧ ¬(dwBits r 1 62 1 = 1 ∧ dwBits r 1 58 2 = 2)
  nlev : 2 ≤ dwBits r 1 48 4 ∧ dwBits r 1 48 4 ≤ 8 ∧ ∀ k, dwBits r 1 48 4 ≤ k → k < 8 → recLevel r k = 0
  resources : (∃ k, 1 ≤ k ∧ k ≤ 31 ∧ dwBits r 6 56 8 = 8 * k) ∧ (∃ k, 1 ≤ k ∧ k ≤ 8 ∧ dwBits r 6 48 8 = 8 * k) ∧
    dwBits r 6 44 4 ≤ 8 ∧ dwBits r 6 39 5 ≤ 16 ∧ dwBits r 6 0 21 ≤ 1048576 ∧ dwBits r 9 56 4 ≤ 8
  aligned : dwBits r 0 0 52 % 64 = 0 ∧ dwBits r 1 0 32 % 8 = 0 ∧ dwBits r 8 0 52 % 8 = 0 ∧
    (0 < dwBits r 9 56 4 → dwBits r 9 0 52 % 16 = 0) ∧ dwBits r 10 0 52 % 16 = 0 ∧
    (dwBits r 1 57 1 = 1 → dwBits r 13 0 52 % 4 = 0) ∧
    (dwBits r 1 58 2 ≠ 0 → dwBits r 14 0 52 % 16 = 0 ∧ dwBits r 14 0 52 ≠ 0)
  levels : LevelsValid (recLevels r (if dwBits r 1 57 1 = 1 then some 1 else none)) (dwBits r 6 0 21)

/-- A, U, NACC, NBARS and SCRATCH of record dword 6, or of a header's RES. -/
def fiveOf (r : List Dword) (i : Nat) : List Nat :=
  [dwBits r i 56 8, dwBits r i 48 8, dwBits r i 44 4, dwBits r i 39 5, dwBits r i 0 21]

/-- A code object header that is well formed and covers a record (R396, R397). -/
structure HeaderCovers (h r : List Dword) : Prop where
  magic : dwBits h 0 0 32 = 0x314F4348 ∧ dwBits h 0 32 16 = 1
  reserved : dwBits h 0 48 16 = 0 ∧ dwBits h 1 16 48 = 0 ∧ dwBits h 1 3 5 = 0 ∧ dwBits h 7 0 64 = 0
  caps : dwBits h 1 0 1 = 1 ∧ dwBits h 1 8 8 ≤ 1
  entry : dwBits r 1 0 32 < dwBits h 3 32 32
  floor : ∀ k, k < 5 → nth 0 (fiveOf h 2) k ≤ nth 0 (fiveOf r 6) k
  f1 : dwBits h 1 8 8 = 0 → (∀ k, k < 5 → nth 0 (fiveOf r 6) k ≤ nth 0 [128, 32, 4, 8, 131072] k) ∧
    prodNat (((recLevels r none).filter (fun l => decide (l / 2 ^ 24 % 8 < 2))).map (fun l => l % 2 ^ 24 + 1)) ≤ 1024

/-- An empty cluster of a class admits a block of a need (R139, R258). -/
def emptyAdmits (cls : Nat) (n : Wants) : Prop :=
  ∃ c, 1 ≤ c ∧ c ≤ n.warps ∧ c ≤ (if n.cluster = true then (if cls = 0 then 2 else 3) else 1) ∧ ∀ i p, i < c → p < 4 →
    let here := (n.warps / c + (if i < n.warps % c then 1 else 0) + 3 - p) / 4
    here ≤ (if cls = 0 then 16 else 12) ∧ here * n.a ≤ (if cls = 0 then 1024 else 768) ∧ here * n.nacc ≤ 8

/-- The bytes of some dwords. -/
def dwBytes (l : List Dword) : List Byte := l.flatMap (fun d => leBytes 8 d.toNat)

end Sys2Proof.Machine

/-- R376 in its order, with Tables 14.1 to 14.3, 14.6 and 16.8, R259, R348, R372, R373, R382, R384, R385, R388, R396, R397 and R440:
the checks of a launch record refuse it with 1 for its own shape; 5 where the code header cannot be read, and 2 for one that is
malformed or does not cover the record; 3 for range mode without the capability; then, where the record asks for each, 5 or 1 for the
window table, the schedule table, the extent at GRIDADDR and the batch table's header (a batch table that is not aligned is refused
as a bad one, log 31, DEDUCED); an extent of 0 completes it; and 4 when a block fits no empty cluster of a class it may use, or a
cooperative grid exceeds the part (what the part holds is as the model seats it). A record that passes is launched with the extents,
the text, the windows, the classes and the cores so found. A record refused or completed at once leaves its queue and places no block;
its signal, where SIGADDR is valid and not 0 and no memory is held (log 34, DEDUCED), is SIGVAL and the status, and no other byte of
memory changes; one that cannot be read, or whose SIGADDR is not valid, writes none and is logged. -/
def Obligations.LaunchRecords : Prop :=
  (∀ (s : State) (ctx : Nat) (r : List Dword),
    let verdict (v : Except Nat (Option Checked)) : Prop := s.checkRecord ctx r = v
    let unread (va n : Nat) : Prop := ∃ missing, s.StopsAt ctx va n .read missing
    let sched := dwBits r 1 58 2
    let nwin := dwBits r 9 56 4
    let batch := dwBits r 12 0 52
    (¬RecordShape r → verdict (.error 1)) ∧
    (RecordShape r →
      (unread (dwBits r 0 0 52) 64 → verdict (.error 5)) ∧
      ∀ h, h.length = 8 → s.Reads ctx (dwBits r 0 0 52) (dwBytes h) →
        (¬HeaderCovers h r → verdict (.error 2)) ∧
        (HeaderCovers h r → sched = 2 → (tget 0 s.host.ccap ctx).getLsbD 0 = false → verdict (.error 3)) ∧
        (HeaderCovers h r → (sched = 2 → (tget 0 s.host.ccap ctx).getLsbD 0 = true) →
          (0 < nwin → unread (dwBits r 9 0 52) (16 * nwin) → verdict (.error 5)) ∧
          ∀ ws, ws.length = 2 * nwin → s.Reads ctx (dwBits r 9 0 52) (dwBytes ws) →
            let windows : Prop := ∀ i, i < nwin → dwBits ws (2 * i) 52 12 = 0 ∧ dwBits ws (2 * i + 1) 0 64 ≠ 0
            (¬windows → verdict (.error 1)) ∧
            (windows →
              (sched ≠ 0 → unread (dwBits r 14 0 52) 4096 → verdict (.error 5)) ∧
              ∀ st, st.length = (if sched = 0 then 0 else 512) → s.Reads ctx (dwBits r 14 0 52) (dwBytes st) →
                let tiles : Prop := sched = 1 → ∀ c, c < 256 → coreIdValid c = true →
                  dwBits st (2 * c) 0 52 % 4 = 0 ∧ dwBits st (2 * c + 1) 32 32 = 0
                (¬tiles → verdict (.error 1)) ∧
                (tiles →
                  (dwBits r 1 57 1 = 1 → unread (dwBits r 13 0 52) 4 → verdict (.error 5)) ∧
                  ∀ g, g.length = (if dwBits r 1 57 1 = 1 then 4 else 0) → s.Reads ctx (dwBits r 13 0 52) g →
                    let n := ofLeBytes g
                    let ext := if dwBits r 1 57 1 = 1 then some n else none
                    let extent : Prop := dwBits r 1 57 1 = 1 → n ≤ 2 ^ 24 ∧ LevelsValid (recLevels r ext) (dwBits r 6 0 21)
                    (dwBits r 1 57 1 = 1 → n = 0 → verdict (.ok none)) ∧
                    (dwBits r 1 57 1 = 1 → n ≠ 0 → ¬extent → verdict (.error 1)) ∧
                    ((dwBits r 1 57 1 = 1 → n ≠ 0) → extent →
                      (batch ≠ 0 → unread batch 64 → verdict (.error 5)) ∧
                      ∀ bt, bt.length = (if batch = 0 then 0 else 8) → s.Reads ctx batch (dwBytes bt) →
                        let header : Prop := batch ≠ 0 → batch % 64 = 0 ∧ dwBits bt 1 52 12 = 0 ∧ dwBits bt 1 0 52 % 64 = 0 ∧
                          dwBits bt 0 32 32 ≤ 65536 ∧ ∀ i, 3 ≤ i → i < 8 → dwBits bt i 0 64 = 0
                        (¬header → verdict (.error 1)) ∧
                        (header →
                          ∀ r1 : List Dword, r1.length = r.length → recLevels r1 none = recLevels r ext →
                            (∀ i, i < 2 ∨ 6 ≤ i → nth 0 r1 i = nth 0 r i) → (∀ k, dwBits r 1 48 4 ≤ k → k < 8 → recLevel r1 k = 0) →
                            (r.length = 16) →
                            let need := needOf r1
                            let groups : Prop := dwBits h 1 1 2 ≠ 0
                            let image := 512 + need.warps * (2048 + 8192 * need.nacc + 128 * need.a) + 2720 +
                              3 * (8 + 8 * ((dwBits r 6 0 21 + 4095) / 4096)) + 16 * need.warps + 96 * need.warps
                            let onlyN : Prop := dwBits r 1 60 1 = 1 ∨ (groups ∧ (dwBits r 1 63 1 = 1 ∨ dwBits r 1 62 1 = 1 ∨
                              (tget 0 s.host.cmslot ctx).toNat / 2 ^ 12 % 2 ^ 20 * 4096 < image))
                            let room : Prop := (emptyAdmits 0 need ∨ (¬onlyN ∧ ¬groups ∧ emptyAdmits 1 need)) ∧
                              (dwBits r 1 63 1 = 1 → ∀ b : Bool, (b = true ↔ onlyN) →
                                blockCount (recLevels r ext) ≤ emptyRoom need (clustersFor b))
                            (¬room → verdict (.error 4)) ∧
                            (room → ∃ k : Checked, verdict (.ok (some k)) ∧ k.record = r1 ∧ (k.onlyN = true ↔ onlyN) ∧
                              k.text = dwBits r 0 0 52 + dwBits h 3 0 32 ∧
                              k.windows = (List.range nwin).map (fun i => (dwBits ws (2 * i) 0 52, dwBits ws (2 * i + 1) 0 64)) ∧
                              (∀ c, c ∈ k.rangeCores ↔ sched = 2 ∧ c < 256 ∧ coreIdValid c = true ∧
                                dwBits st (2 * c) 0 32 < dwBits st (2 * c) 32 32) ∧
                              k.batch = if batch = 0 then none else some (dwBits bt 0 32 32, dwBits bt 1 0 52))))))))) ∧
  (∀ (s : State) (q : Nat), s.tripped = false → (∀ L ∈ s.launches, L.snap = none) → q < 128 → s.dispatchable q = true →
    (∀ k, k < 128 → k ≠ q → s.dispatchable k = false) →
    let ctx := s.qctl q / 2 ^ 12 % 2 ^ 6
    s.anyHeld ctx (s.dispatchTouches q) = false →
    let leaves (t : State) : Prop := exec .launchDispatch s = .next t ∧ t.launches = s.launches ∧ t.qrd q = (s.qrd q + 1) % 2 ^ 32 ∧
      t.blocks.map (·.uid) = s.blocks.map (·.uid)
    (∀ missing, s.StopsAt ctx (s.slotVa q (s.qrd q)) 128 .read missing →
      ∃ t : State, leaves t ∧ (∀ a, t.mem.byte a = s.mem.byte a) ∧ t.telemetry.length = s.telemetry.length + 1) ∧
    ∀ r status, r.length = 16 → s.Reads ctx (s.slotVa q (s.qrd q)) (dwBytes r) →
      (s.checkRecord ctx r = .error status ∨ (s.checkRecord ctx r = .ok none ∧ status = 0)) →
      let at' := dwBits r 10 0 52
      let valid : Prop := dwBits r 10 52 12 = 0 ∧ at' % 16 = 0
      ∃ t : State, leaves t ∧
        (¬valid → (∀ a, t.mem.byte a = s.mem.byte a) ∧ t.telemetry = s.telemetry ++ [(ctx, (nth 0 r 10).toNat)]) ∧
        (valid → at' = 0 → ∀ a, t.mem.byte a = s.mem.byte a) ∧
        (valid → at' ≠ 0 → (∀ e ∈ s.host.sigHeld, e.1 ≠ ctx) → s.hbmReady = true → ∀ loc,
          s.StaysOff ctx at' loc 16 .write (fun a => loc + 8 ≤ a ∧ a < loc + 16) →
          BytesTake s.mem.byte t.mem.byte loc (leBytes 8 (nth 0 r 11).toNat ++ leBytes 8 status)))

/-- R145, R146, R360, R374, R380: a launch that must wait places nothing (what it waits for and where the plan seats a block are
log 41, DEDUCED); nor does one that finds no place and may not pre-empt. A block of a launch that is not cooperative, placed where
the plan seats it, is new: its number, its warps, their threads at the entry (whose low three bits are 0, log 66, DEDUCED), lanes
beyond the lane extent exited, its registers 0 but the parameter in w0 and w1; memory keeps its bytes when every page of its scratch
is pinned (a spill page's backing page reads zero, R154, log 54, DESIGN CHOICE, and is waited for while it is held, log 34,
DEDUCED). A cooperative launch without a grid-barrier counter waits for one, and else places its planned blocks together (R382). A
deterministic launch's token stands at warp 0 of block 0 when that is placed. A warp becomes free when it has drained (log 57,
DEDUCED), and its block goes with the last, once the memory that its pinned pages are written back to is not held (log 34). -/
def Obligations.BlocksComeAndGo : Prop :=
  (∀ (s : State) (l : Nat),
    (s.launch? l = none → exec (.blockPlacement l) s = .next s) ∧
    ∀ L, s.launch? l = some L →
      ((L.waits = false ∨ s.mustWait L = true) → exec (.blockPlacement l) s = .next s) ∧
      (L.waits = true → s.mustWait L = false → L.coop = true → L.counter = none →
        ((∀ n, n < 64 → (tget 0 s.host.gbc n).getLsbD 63 = true) → exec (.blockPlacement l) s = .next s)) ∧
      (L.waits = true → s.mustWait L = false → L.coop = true → L.counter ≠ none → ∀ plan, s.planNext L = some plan →
        s.spillsHeld (plan.foldl (fun s e => s.placeOne l e.1 e.2) s) = false →
        ∃ t : State, exec (.blockPlacement l) s = .next t ∧ t.blocks.length = s.blocks.length + plan.length ∧
          (t.launch? l).map (·.placed) = some (L.placed + plan.length)) ∧
      (L.waits = true → s.mustWait L = false → L.coop = false →
        (s.planNext L = none → (tget 0 s.host.qctl L.queue).getLsbD 4 = false → exec (.blockPlacement l) s = .next s) ∧
        ∀ cl seats, s.planNext L = some [(cl, seats)] → s.spillsHeld (s.placeOne l cl seats) = true →
          exec (.blockPlacement l) s = .next s) ∧
      (L.waits = true → s.mustWait L = false → L.coop = false → ∀ cl seats, s.planNext L = some [(cl, seats)] →
        s.spillsHeld (s.placeOne l cl seats) = false → ∃ (t : State) (B : Block), exec (.blockPlacement l) s = .next t ∧
          ((∀ A ∈ t.allocs, A.owner = B.uid → ∀ p ∈ A.pages, p.pin ≠ none) →
            t.blocks = s.blocks ++ [B] ∧ ∀ a, t.mem.byte a = s.mem.byte a) ∧
          ((∀ C ∈ s.blocks, C.uid ≠ s.nextUid) → t.block? s.nextUid = some B) ∧
          (L.det = true → L.placed = 0 → (t.launch? l).map (·.token) = some ⟨some (0, 0), false, Sig.empty⟩) ∧
          t.host.lastQueue = L.queue ∧ (t.launch? l).map (·.placed) = some (L.placed + 1) ∧
          B.uid = s.nextUid ∧ B.launch = L.uid ∧ B.ctx = L.ctx ∧ B.logid = L.placed ∧ B.halt = none ∧
          B.warps.length = warpsPerBlock L.record ∧
          ∀ (k : Nat) (W : Warp), B.warps[k]? = some W → W.v = [] ∧ W.flags = [] ∧ W.acc = [] ∧ W.ops = [] ∧ W.shape = 0x00060210 ∧
            W.wRaw 0 = BitVec.ofNat 32 (recBits L.record 7 51 0) ∧ W.wRaw 1 = BitVec.ofNat 32 (recBits L.record 7 51 0 / 2 ^ 32) ∧
            (∀ n, 2 ≤ n → W.wRaw n = 0) ∧
            ∀ j, j < 32 → W.thread j = { Thread.reset with
              pc := BitVec.ofNat 52 ((L.text + recBits L.record 1 31 0) / 8 * 8)
              status := if j < laneExtent L.record then .eligible else .exited })) ∧
  (∀ (s : State) (blk w : Nat) (B : Block) (W : Warp), s.block? blk = some B → s.warp? blk w = some W →
    (¬s.drains B W → exec (.warpFree blk w) s = .next s) ∧
    (s.drains B W → (∃ k U, k ≠ w ∧ s.warp? blk k = some U ∧ U.freed = false) → ∃ (t : State) (V : Warp), exec (.warpFree blk w) s = .next t ∧
      t.warp? blk w = some V ∧ V.freed = true ∧ ∀ a, t.mem.byte a = s.mem.byte a) ∧
    (s.drains B W → (∀ k U, k ≠ w → s.warp? blk k = some U → U.freed = true) →
      (s.pinsHeld blk = true → exec (.warpFree blk w) s = .next s) ∧
      (s.pinsHeld blk = false → ∃ t : State, exec (.warpFree blk w) s = .next t ∧
        t.block? blk = none ∧ ∀ a ∈ t.allocs, a.owner ≠ blk)))

/-- R177, R401: a waiting fault record is written to its context's ring when it has room, its place takes requests (log 34, DEDUCED) and
the package runs: its bytes, its id, WR, HOSTIRQ bit 0. A retry verdict frees the warps held on the record it names; a fatal one
aborts the block of each such warp with the cause that its held word recorded, and that warp's trap registers take the record
(log 49, DEDUCED). A verdict that names no record does nothing. -/
def Obligations.FaultVerdicts : Prop :=
  (∀ (s : State) (ctx : BitVec 6),
    let c := ctx.toNat
    let reg := (tget 0 s.host.cflt c).toNat
    let size := 2 ^ (reg % 16 + 4)
    let wr := (tget 0 s.host.fltWr c).toNat
    let used := (wr + 2 ^ 32 - (tget 0 s.host.fltRd c).toNat) % 2 ^ 32
    ((∀ f ∈ s.faults, f.ctx = c → f.id ≠ none) → exec (.faultRecordWrite ctx) s = .next s) ∧
    ∀ f, s.faults.find? (fun f => f.ctx == c && f.id.isNone) = some f →
      let place := reg / 2 ^ 5 % 2 ^ 47 * 32 + 32 * (wr % size)
      ((used = size ∨ s.vaHeld c place 32 = true ∨ s.tripped = true) → exec (.faultRecordWrite ctx) s = .next s) ∧
      (used ≠ size → s.vaHeld c place 32 = false → s.tripped = false → ∀ loc, s.mapsTo c place 32 loc .write →
        ∃ t : State, exec (.faultRecordWrite ctx) s = .next t ∧ t.host.hostirq.getLsbD 0 = true ∧
          (tget 0 t.host.fltWr c).toNat = (wr + 1) % 2 ^ 32 ∧
          (∃ g ∈ t.faults, g = { f with id := some (BitVec.ofNat 32 wr) }) ∧
          BytesTake s.mem.byte t.mem.byte loc (entryBytes (f.page * 4096 + f.kind)
            (f.launch * 2 ^ 32 + f.core * 2 ^ 8 + f.slot) wr 0))) ∧
  (∀ (s : State) (ctx : BitVec 6) (id : BitVec 32),
    let named (f : FaultRec) : Bool := f.ctx == ctx.toNat && f.id == some id
    (s.faults.find? named = none → exec (.faultRetry ctx id) s = .next s ∧ exec (.faultFatal ctx id) s = .next s) ∧
    ∀ f, s.faults.find? named = some f →
      (∃ t : State, exec (.faultRetry ctx id) s = .next t ∧ t = { s with faults := t.faults, blocks := t.blocks } ∧
        (∀ g ∈ t.faults, g.num ≠ f.num) ∧
        ∀ b w W, s.warp? b w = some W → t.warp? b w = some { W with held := W.held.filter (fun h => h != (f.ctx, f.num)) }) ∧
      (∃ t : State, exec (.faultFatal ctx id) s = .next t ∧ (∀ g ∈ t.faults, g.num ≠ f.num) ∧
        ∀ b B, s.block? b = some B → (∃ W ∈ B.warps, (f.ctx, f.num) ∈ W.held) → ∃ C, t.block? b = some C ∧ C.aborted = true ∧
          (B.aborted = false → ∃ W ∈ B.warps, (f.ctx, f.num) ∈ W.held ∧ C.halt = some (.abort W.heldTrap.cause.toNat) ∧
            ∀ U V, B.warps[W.idx]? = some U → C.warps[W.idx]? = some V → V.trap = { W.heldTrap with ret := U.trap.ret })))

/-- R350 to R358: a block frozen for migration is written out once its chains have ended, its operations are over or carried and the
memory it is written to takes requests (log 34, DEDUCED): it leaves its cluster, and its image, with its registers and its withdrawn
requests with what was left of their timeouts, joins the restore queue. The image's bytes (Tables 13.2 to 13.5, R353) are written at
the migration slot of its first core and its block slot there (R355); no other byte of memory changes unless pages of its scratch are
pinned (R157). R354, R356: the image at the head of the queue is admitted on the cluster that the plan gives it, unless a launch of a
higher level that may go can place a block, or its memory is held; its block stands there with the same registers, waits while copy
requests it has kicked are queued or its backing pages are held, and then runs, its migrations counted, its requests sent again; an
image with POISON is discarded, its block aborted. The model takes the block from the image as it holds it and not from memory (log
32, DESIGN CHOICE), and how a restore waits is log 43 (DEDUCED). -/
def Obligations.CaptureRestore : Prop :=
  (∀ (s : State) (blk : Nat) (B : Block) (L : Launch), s.block? blk = some B → s.launch? B.launch = some L →
    let ready : Prop := (∀ W ∈ B.warps, s.runsOn B W = false ∧ ∀ o ∈ W.ops, B.Carries o) ∧ s.captureHeld B 0 = false
    ((B.halt ≠ some (.capture 0) ∨ ¬ready) → exec (.captureMigration blk) s = .next s) ∧
    (B.halt = some (.capture 0) → ready → ∃ (t : State) (m : Image), exec (.captureMigration blk) s = .next t ∧
      t.block? blk = none ∧ m ∈ t.images ∧ m.blk.uid = B.uid ∧ m.blk.logid = B.logid ∧ m.cause = 0 ∧ m.queued = true ∧
      m.tuples = B.withdrawn ∧
      (∀ w W, B.warp? w = some W → ∃ V, m.blk.warp? w = some V ∧ SameRegs W V ∧ V.ops = W.ops ∧ V.flags = W.flags ∧
        V.shape = W.shape ∧ V.trap = W.trap ∧ V.handler = W.handler ∧ V.sig = W.sig ∧ V.brec = W.brec ∧ V.grec = W.grec ∧
        ∀ l, (V.thread l).status = (W.thread l).status ∧ (V.thread l).pc = (W.thread l).pc) ∧
      ∀ core slot loc, B.cores.head? = some core → B.slots.filter (fun x => x.1 == core) = [(core, slot)] →
        let as := s.allocs.filter (fun A => A.owner == B.uid)
        let words := m.blk.warps.flatMap (fun W => (W.ops.filter (fun o => match o.kind with
          | .ckick _ _ _ => true
          | .cqfence _ _ => true
          | _ => false)).map (fun o => (W.idx, o)))
        let n := imgMap m.blk + mapBytes as + 16 * words.length + 96 * m.tuples.length
        m.va = (tget 0 s.host.cmig (2 * B.ctx + (coreDie core - 2))).toNat / 2 ^ 12 % 2 ^ 40 * 2 ^ 12 +
          (16 * coreLocal core + slot) * ((tget 0 s.host.cmslot B.ctx).toNat / 2 ^ 12 % 2 ^ 20 * 2 ^ 12) ∧
        ((∀ A ∈ as, ∀ p ∈ A.pages, p.pin = none) → (∀ r ∈ m.tuples, r.1.fields.length = 8) → s.mapsTo B.ctx m.va n loc .write →
          ∃ (bs : List Byte) (copies : List (Nat × Op)), BytesTake s.mem.byte t.mem.byte loc bs ∧ bs.length = n ∧
            copies.Perm words ∧ copies.Pairwise (fun x y => x.2.id ≤ y.2.id) ∧ ImageIs bs m.blk L core 0 as copies m.tuples))) ∧
  (∀ (s : State), s.blocks.filter Block.restoring = [] →
    (s.restoreQueue = [] → exec .restore s = .next s) ∧
    ∀ (m : Image) (rest : List Image), s.restoreQueue = m :: rest → m.cause = 0 →
      let b := m.blk.uid
      let later : Prop := (∃ M ∈ s.launches, s.imagePrio m < M.prio ∧ s.canPlace M = true ∧ s.mustWait M = false) ∨
        s.vaHeld m.blk.ctx m.va (s.imageLen m) = true
      (later → exec .restore s = .next s) ∧
      (¬later → (∀ B ∈ s.blocks, B.uid ≠ b) →
        (s.imagePoison m = true → ∃ t : State, exec .restore s = .next t ∧ (∀ n ∈ t.images, n.blk.uid ≠ b) ∧ t.block? b = none) ∧
        (s.imagePoison m = false → s.imageBad m = false →
          let plan := s.planImages [m] (allClusters.map (fun k => (k, s.clusterUse k)))
          (plan = none → exec .restore s = .next s) ∧
          ∀ cl seats, plan = some [(m, cl, seats)] → ∃ (t : State) (C : Block), exec .restore s = .next t ∧
            t.block? b = some C ∧ C.logid = m.blk.logid ∧ C.launch = m.blk.launch ∧ C.cores = (sharesAt cl seats).map (·.1) ∧
            (∀ n ∈ t.images, n.blk.uid ≠ b) ∧ (∀ a, t.mem.byte a = s.mem.byte a) ∧
            (∀ w W, m.blk.warp? w = some W → ∃ V, C.warp? w = some V ∧ SameRegs W V) ∧
            let waits : Prop := s.copiesLeft b = true ∨ s.backHeld (s.allocsOf b) = true
            (waits → C.halt = some (.restoring 0) ∧ C.withdrawn = m.tuples ∧ C.migcount = m.blk.migcount ∧ t.tup = s.tup) ∧
            (¬waits → C.halt = none ∧ C.withdrawn = [] ∧ C.migcount = m.blk.migcount + 1 ∧
              t.tup.sent = s.tup.sent ++ m.tuples.map (fun x => { x.1 with timeout := x.2 }))))) ∧
  (∀ (s : State) (B : Block) (cause : Nat), s.blocks.filter Block.restoring = [B] → s.block? B.uid = some B →
    B.halt = some (.restoring cause) →
    let waits : Prop := s.copiesLeft B.uid = true ∨ s.backHeld (s.allocsOf B.uid) = true
    (waits → exec .restore s = .next s) ∧
    (¬waits → ∃ (t : State) (C : Block), exec .restore s = .next t ∧ t.block? B.uid = some C ∧ C.halt = none ∧ C.withdrawn = [] ∧
      C.migcount = B.migcount + (if cause = 0 then 1 else 0) ∧ C.cores = B.cores ∧ (∀ a, t.mem.byte a = s.mem.byte a) ∧
      t.tup.sent = s.tup.sent ++ B.withdrawn.map (fun x => { x.1 with timeout := x.2 }) ∧
      ∀ w W, B.warp? w = some W → ∃ V, C.warp? w = some V ∧ SameRegs W V))

/-- R389 to R394, R398, R400, R450: in RECOVERY, and while a command is in progress, a command does nothing; on a context that is not
enabled it answers BADCTX and does nothing else. PREEMPT suspends the context's launches; RESUME queues its images and lets its
launches place again, one whose ladder runs when that ends (log 42, DEDUCED); RESET and the end of a ladder at D2 reset it (what a
reset discards of what is under way is log 42); UNLOAD answers IN_USE while a launch uses the object, and when forced aborts the
blocks that use it, once the headers of its images take requests (log 34, DEDUCED); INVALIDATE removes translations from the TLBs,
and is over at once when no access issued in its pages is left, else BUSY until then (log 44, DEDUCED), when no access uses the old
entries any more. At D1 every resident block of the launch stops; the ladder ends when none is resident, and a RESUME that came
while it ran takes its effect. -/
def Obligations.Commands : Prop :=
  (∀ (s : State) (ctx : BitVec 6) (arg : BitVec 50), (s.trust.bootstat = 2 ∨ s.host.cmdBusy = true) →
    exec (.cmdPreempt ctx) s = .next s ∧ exec (.cmdResume ctx) s = .next s ∧ exec (.cmdReset ctx) s = .next s ∧
      exec (.cmdUnload ctx arg) s = .next s ∧ exec (.cmdUnloadForced ctx arg) s = .next s ∧
      (s.host.cmdInv = none → exec (.cmdInvalidate ctx arg) s = .next s)) ∧
  (∀ (s : State) (ctx : BitVec 6) (arg : BitVec 50), s.trust.bootstat ≠ 2 → s.host.cmdBusy = false → s.host.cmdInv = none →
    (tget 0 s.host.cpt ctx.toNat).getLsbD 0 = false →
    let bad : State := { s with host := { s.host with cmdResult := 2 } }
    exec (.cmdPreempt ctx) s = .next bad ∧ exec (.cmdResume ctx) s = .next bad ∧ exec (.cmdReset ctx) s = .next bad ∧
      exec (.cmdUnload ctx arg) s = .next bad ∧
      ((∀ m ∈ s.images, s.vaHeld m.blk.ctx m.va 8 = false) → exec (.cmdUnloadForced ctx arg) s = .next bad) ∧
      exec (.cmdInvalidate ctx arg) s = .next bad) ∧
  (∀ (s : State) (ctx : BitVec 6) (arg : BitVec 50), s.trust.bootstat ≠ 2 → s.host.cmdBusy = false → s.host.cmdInv = none →
    (tget 0 s.host.cpt ctx.toNat).getLsbD 0 = true →
    let done (t : State) : Prop := t.host.cmdResult = 0
    (∃ t : State, exec (.cmdPreempt ctx) s = .next t ∧ done t ∧ t = { s with launches := t.launches, host := t.host } ∧
      ∀ l L, s.launch? l = some L → ∃ M, t.launch? l = some M ∧
        if L.ctx = ctx.toNat then M.suspended = true ∧
          (M.ladder ≠ none ↔ (L.ladder ≠ none ∨ ∃ B ∈ s.blocks, B.launch = l))
        else M = L) ∧
    (∃ t : State, exec (.cmdResume ctx) s = .next t ∧ done t ∧ t = { s with launches := t.launches, images := t.images, host := t.host } ∧
      (∀ m ∈ t.images, m.blk.ctx = ctx.toNat → m.queued = true) ∧
      (∀ m ∈ s.images, { m with queued := m.queued || (m.blk.ctx == ctx.toNat) } ∈ t.images) ∧
      ∀ l L, s.launch? l = some L → ∃ M, t.launch? l = some M ∧
        if L.ctx = ctx.toNat then M.suspended = L.ladder.isSome ∧ M.ladder = L.ladder.map (fun x => { x with resume := true })
        else M = L) ∧
    (∃ t : State, exec (.cmdReset ctx) s = .next t ∧ done t ∧ ResetOf t ctx.toNat 3) ∧
    ((∃ L ∈ s.launches, L.ctx = ctx.toNat ∧ (nth 0 L.record 0).toNat % 2 ^ 52 = 4 * arg.toNat) →
      exec (.cmdUnload ctx arg) s = .next { s with host := { s.host with cmdResult := 1 } }) ∧
    ((∀ L ∈ s.launches, ¬(L.ctx = ctx.toNat ∧ (nth 0 L.record 0).toNat % 2 ^ 52 = 4 * arg.toNat)) →
      exec (.cmdUnload ctx arg) s = .next { s with host := { s.host with cmdResult := 0 } }) ∧
    (let of (m : Image) : Prop := ∃ L, s.launch? m.blk.launch = some L ∧ L.ctx = ctx.toNat ∧
        (nth 0 L.record 0).toNat % 2 ^ 52 = 4 * arg.toNat
     ((∃ m ∈ s.images, of m ∧ s.vaHeld m.blk.ctx m.va 8 = true) → exec (.cmdUnloadForced ctx arg) s = .next s) ∧
     ((∀ m ∈ s.images, of m → s.vaHeld m.blk.ctx m.va 8 = false) → ∃ t : State, exec (.cmdUnloadForced ctx arg) s = .next t ∧ done t ∧
      ∀ b B L, s.block? b = some B → s.launch? B.launch = some L →
      L.ctx = ctx.toNat → (nth 0 L.record 0).toNat % 2 ^ 52 = 4 * arg.toNat → ∃ C, t.block? b = some C ∧ C.aborted = true)) ∧
    let inPages (va : Nat) : Bool := s.host.cmdlen == 0 ||
      (decide (arg.toNat % 2 ^ 40 ≤ va / 4096) && decide (va / 4096 < arg.toNat % 2 ^ 40 + s.host.cmdlen.toNat))
    let left : Prop := (∃ B ∈ s.blocks, B.ctx = ctx.toNat ∧ ∃ W ∈ B.warps, ∃ o ∈ W.ops, o.kind.isMem = true ∧ o.kind.scratch = false ∧
        ((∃ p ∈ o.parts, p.done = false ∧ inPages p.va = true) ∨ ∃ r ∈ o.reqs, r.done = false ∧ inPages r.va = true)) ∨
      ∃ c ∈ s.cores, ∃ q ∈ c.2.copyQ, ∃ r x, CopyEntry.request r ∈ q ∧ r.ctx = ctx.toNat ∧ r.run = some x ∧ x.outs ≠ []
    let cleared : MemSt := { s.mem with tlb := s.mem.tlb.filter (fun e => !(e.ctx / 64 == ctx.toNat && inPages (4096 * e.vpn))) }
    let settled (m m' : MemSt) : Prop := m' = { m with past := m'.past } ∧ m'.past.length = m.past.length ∧
      ∀ e ∈ m'.past, e ∈ m.past ∨ e.2 = m.readN e.1 4
    (¬left → ∃ t : State, exec (.cmdInvalidate ctx arg) s = .next t ∧
      t = { s with host := { s.host with cmdResult := 0 }, mem := t.mem } ∧ settled cleared t.mem) ∧
    (left → ∃ t : State, exec (.cmdInvalidate ctx arg) s = .next t ∧ t.host.cmdBusy = true ∧
      t = { s with host := { s.host with cmdBusy := true, cmdInv := t.host.cmdInv }, mem := cleared } ∧
      ∃ ids, t.host.cmdInv = some (ctx.toNat, arg.toNat % 2 ^ 40, s.host.cmdlen.toNat, ids) ∧
        ∀ i ∈ ids, ∃ B ∈ s.blocks, B.ctx = ctx.toNat ∧ ∃ W ∈ B.warps, ∃ o ∈ W.ops, o.id = i)) ∧
  (∀ (s : State) (ctx : BitVec 6) (arg : BitVec 50) (n : Nat), s.host.cmdInv = some (ctx.toNat, arg.toNat % 2 ^ 40, n, []) →
    (∀ c ∈ s.cores, ∀ q ∈ c.2.copyQ, ∀ r x, CopyEntry.request r ∈ q → r.ctx = ctx.toNat → r.run = some x → x.outs = []) →
    ∃ t : State, exec (.cmdInvalidate ctx arg) s = .next t ∧
      t = { s with host := { s.host with cmdBusy := false, cmdInv := none, cmdResult := 0 }, mem := t.mem } ∧
      ∀ a, t.mem.byte a = s.mem.byte a) ∧
  (∀ (s : State) (l : Nat),
    ((s.launch? l).bind (·.ladder) = none → exec (.preemptCapture l) s = .next s ∧ exec (.preemptForcedReset l) s = .next s) ∧
    ∀ L since resume, s.launch? l = some L → L.ladder = some ⟨since, resume⟩ →
      (∃ t : State, exec (.preemptCapture l) s = .next t ∧
        (since + 1000 * (nth 0 s.host.pred1 L.prio).toNat ≤ s.time → ∀ B ∈ t.blocks, B.launch = l → B.halt ≠ none) ∧
        ((∀ B ∈ s.blocks, B.launch ≠ l) → t.blocks = s.blocks ∧
          ∃ M, t.launch? l = some M ∧ M.ladder = none ∧ M.suspended = (L.suspended && !resume) ∧
            ∀ m ∈ t.images, resume = true → m.blk.launch = l → m.queued = true)) ∧
      (if since + 1000 * (nth 0 s.host.pred2 L.prio).toNat ≤ s.time ∧ ∃ B ∈ s.blocks, B.launch = l then
        ∃ t : State, exec (.preemptForcedReset l) s = .next t ∧ ResetOf t L.ctx 1
       else exec (.preemptForcedReset l) s = .next s))

/-! ## The host, the ports, the package -/

namespace Sys2Proof.Machine

/-- A write of bytes is whole at locations from loc up. -/
def hostLands (pa n loc : Nat) : Prop := ∀ k, k < n → location (pa + k) = some (loc + k)

end Sys2Proof.Machine

/-- R379, R389, R443, R444, Tables 10.2 and 14.4: what the host's writes do. WR of a queue takes a value the ring has room
for, else OVF is set; a deadline takes one that keeps D2 above D1. LOCK fixes valid masks or sets ERR and BADM; a locked mask
keeps its value; a write of NRSEED restarts the activate counts. A plain write changes no byte of memory and runs nothing; in
RECOVERY only the trust window answers (what answers there is log 45, DEDUCED). A write through the aperture changes the bytes it
names and no other, and a read answers the bytes that stand there; either waits while a byte of it is held. R447 to R449: an inbound peer store is performed through its open window and
its lines join what its port has written, which a releasing one attaches to them (log 45); an offset of no window or of no
writable page is dropped and counted; a deposit sets out as a tuple request. A store waits while its memory is held (log 34,
DEDUCED). -/
def Obligations.HostAndPeers : Prop :=
  ((∀ (s : State) (q : BitVec 7) (v : BitVec 64),
     let ctl := s.qctl q.toNat
     let n := v.toNat % 2 ^ 32
     if s.trust.bootstat = 2 ∨ ctl / 2 ^ 3 % 2 = 1 then exec (.qwrWrite q v) s = .next s
     else if 2 ^ (ctl / 2 ^ 8 % 2 ^ 4) < (n + 2 ^ 32 - s.qrd q.toNat) % 2 ^ 32 then
       ∃ t : State, exec (.qwrWrite q v) s = .next t ∧ t = { s with host := { s.host with qctl := t.host.qctl } } ∧
         (tget 0 t.host.qctl q.toNat).getLsbD 18 = true ∧ ∀ k, k ≠ q.toNat → t.qctl k = s.qctl k
     else ∃ t : State, exec (.qwrWrite q v) s = .next t ∧ t = { s with host := { s.host with qwr := t.host.qwr } } ∧
         ∀ k, t.qwr k = if k = q.toNat then n else s.qwr k) ∧
   (∀ (s : State) (p : BitVec 3) (v : BitVec 32),
     exec (.predDeadlineWrite false p v) s = .next (if s.trust.bootstat ≠ 2 ∧ v < nth 0 s.host.pred2 p.toNat
       then { s with host := { s.host with pred1 := s.host.pred1.set p.toNat v } } else s) ∧
     exec (.predDeadlineWrite true p v) s = .next (if s.trust.bootstat ≠ 2 ∧ nth 0 s.host.pred1 p.toNat < v
       then { s with host := { s.host with pred2 := s.host.pred2.set p.toNat v } } else s)) ∧
   (∀ (s : State) (die : BitVec 2) (v : BitVec 64), s.dies.length = 4 →
     let d := s.die die.toNat
     (v.getLsbD 0 = false ∨ d.lock = true ∨ s.trust.bootstat = 2 → exec (.memcfgLock die v) s = .next s) ∧
     (v.getLsbD 0 = true → d.lock = false → s.trust.bootstat ≠ 2 → ∃ t : State, exec (.memcfgLock die v) s = .next t ∧
       t = { s with dies := s.dies.set die.toNat (t.die die.toNat) } ∧
       ((∀ k, k < 7 → maskValid k (nth 0 d.hashm k) = true) → t.die die.toNat = { d with lock := true, err := false }) ∧
       (∀ k, k < 7 → maskValid k (nth 0 d.hashm k) = false → (∀ j, j < k → maskValid j (nth 0 d.hashm j) = true) →
         t.die die.toNat = { d with err := true, badm := BitVec.ofNat 3 k })) ∧
     ∀ w, exec (.nrseedWrite die w) s = .next (if s.trust.bootstat = 2 then s
       else { s with dies := s.dies.set die.toNat { d with nrSeed := w, acts := [] } })) ∧
   (∀ (s : State) (r : HostReg) (v : BitVec 64), ∃ t : State, exec (.registerWrite r v) s = .next t ∧
     t.blocks = s.blocks ∧ t.launches = s.launches ∧ t.images = s.images ∧ t.mem.bytes = s.mem.bytes ∧
     (r ≠ .keymapbase → t.mem = s.mem) ∧ (s.trust.bootstat = 2 → trustReg r = false → t = s) ∧
     (∀ die k, r = .hashm die k → (s.die die.toNat).lock = true → (t.die die.toNat).hashm = (s.die die.toNat).hashm) ∧
     (s.trust.bootstat ≠ 2 → r = .hostirq → ∀ k, t.host.hostirq.getLsbD k = (s.host.hostirq.getLsbD k && !v.getLsbD k)) ∧
     (s.trust.bootstat ≠ 2 → ∀ q, r = .qctl q → t.qctl q.toNat =
       v.toNat / 2 ^ 3 % 2 ^ 15 * 2 ^ 3 + v.toNat % 2 + (if v.getLsbD 18 then 0 else s.qctl q.toNat / 2 ^ 18 % 2 * 2 ^ 18))) ∧
   (∀ (s : State) (pa n : Nat) (bs : List Byte),
     (s.trust.bootstat ≠ 3 → exec (.hostMemoryAccess (.read pa n)) s = .next s ∧
       exec (.hostMemoryAccess (.write pa bs)) s = .next s) ∧
     (s.trust.bootstat = 3 →
       (∃ t : State, exec (.hostMemoryAccess (.read pa n)) s = .next t ∧ (∀ a, t.mem.byte a = s.mem.byte a)) ∧
       ∀ loc, hostLands pa bs.length loc →
         ((∃ k, k < bs.length ∧ s.heldLoc (loc + k) = true) → exec (.hostMemoryAccess (.write pa bs)) s = .next s) ∧
         (∀ n, hostLands pa n loc → s.hostRead pa n = if (List.range n).any (fun k => s.heldLoc (loc + k)) = true then none
           else some (s.mem.read loc n)) ∧
         ((∀ k, k < bs.length → s.inKeymap (loc + k) = false ∧ s.heldLoc (loc + k) = false) → ∃ t : State, exec (.hostMemoryAccess (.write pa bs)) s = .next t ∧ BytesTake s.mem.byte t.mem.byte loc bs)))) ∧
  (∀ (s : State) (port : BitVec 3) (off : BitVec 36) (bs : List Byte) (rel : Bool),
     let p := port.toNat
     let w (dep : Bool) := s.openWindow p off.toNat dep
     let drops (t : State) : Prop := t = { s with peers := { s.peers with pdrop := t.peers.pdrop } } ∧
       ∀ k, tget 0 t.peers.pdrop k = if k = p then BitVec.ofNat 64 (min ((tget 0 s.peers.pdrop p).toNat + 1) (2 ^ 32 - 1))
         else tget 0 s.peers.pdrop k
     (s.tripped = true → exec (.peerStore port off bs rel) s = .next s ∧ exec (.peerDeposit port off bs) s = .next s) ∧
     (s.tripped = false →
       (w false = none → ∃ t : State, exec (.peerStore port off bs rel) s = .next t ∧ drops t) ∧
       (w true = none → ∃ t : State, exec (.peerDeposit port off bs) s = .next t ∧ drops t) ∧
       (∀ x, w false = some x → s.vaHeld (x.toNat / 2 ^ 56 % 2 ^ 6) (x.toNat % 2 ^ 52 + off.toNat % 2 ^ 32) bs.length = true →
         exec (.peerStore port off bs rel) s = .next s) ∧
       (∀ x loc, w false = some x → s.vaHeld (x.toNat / 2 ^ 56 % 2 ^ 6) (x.toNat % 2 ^ 52 + off.toNat % 2 ^ 32) bs.length = false →
         s.mapsTo (x.toNat / 2 ^ 56 % 2 ^ 6) (x.toNat % 2 ^ 52 + off.toNat % 2 ^ 32) bs.length loc .write →
         ∃ t : State, exec (.peerStore port off bs rel) s = .next t ∧ BytesTake s.mem.byte t.mem.byte loc bs ∧
           (∀ line, (t.portSig p).has line = true ↔ ((s.portSig p).has line = true ∨ line ∈ linesOf loc bs.length)) ∧
           (rel = true → ∀ line ∈ linesOf loc bs.length, ∀ l, (t.portSig p).has l = true → (t.mem.attached line).has l = true)) ∧
       (∀ x, w true = some x →
         let ctx := x.toNat / 2 ^ 56 % 2 ^ 6
         ((tget 0 s.host.cpt ctx).getLsbD 0 = false → ∃ t : State, exec (.peerDeposit port off bs) s = .next t ∧ drops t) ∧
         ((tget 0 s.host.cpt ctx).getLsbD 0 = true → exec (.peerDeposit port off bs) s = .next { s with
           nextUid := s.nextUid + 1
           tup := { s.tup with sent := s.tup.sent ++ [{
             id := s.nextUid, src := none, ctx := ctx, handle := x.toNat % 2 ^ 32, fields := dwordsOf bs, kind := 0, mask := 0
             blocking := false, timeout := 0, sig := s.portSig p, port := some p }] } }))))

/-- R450 to R453: a write of k from 4 to 7 extends MRk with MREXT, and of any other k nothing (SHA-512 is FIPS 180-4's, log 16,
PRESUMED); GO in a mailbox is answered with a report that holds the nonce and the measurement registers, when READY; a module
reset, one step (log 46, DEDUCED), leaves nothing running and BOOTSTAT at READY, with MR0 and MR1 as the boot extends them from the
image, if that verifies, or at RECOVERY, from which alone a write of 4 boots the image in the recovery buffer, which later resets keep
(log 69, DESIGN CHOICE); a key goes to a slot but 0 if it unwraps (log 45, DEDUCED), and a
byte that its slot does not encrypt keeps its value. R160, R162, R300, R371, R455, R456: a source's oldest event goes to the
ring when it is on and has room (the context and the source number are free, log 48) and its place takes requests (log 34, DEDUCED); a thermal trip resets every context and
stops every die; a throttled die only counts it; a debugger's resume lets a halted block run and no other; an error stands where
it arose and changes no register or byte; scrub corrects a single-bit one, poisons a unit of DRAM with an uncorrectable one, and
changes no byte; a held unit is not scrubbed (log 34). -/
def Obligations.TrustAndPackage : Prop :=
  (∀ (s : State),
     (∀ k : BitVec 64, ∃ t : State, exec (.mrExtend k) s = .next t ∧ t = { s with trust := { s.trust with mr := t.trust.mr } } ∧
       ∀ j, j < 8 → s.trust.mr.length = 8 → nth 0 t.trust.mr j =
         if j = k.toNat ∧ 4 ≤ j then sha512 (leBytes 64 (nth 0 s.trust.mr j).toNat ++ leBytes 64 s.trust.mrext.toNat)
         else nth 0 s.trust.mr j) ∧
     (∀ (box : BitVec 4) (v : BitVec 8),
       (v ≠ 1 ∨ s.trust.bootstat ≠ 3 → exec (.attestRequest box v) s = .next s) ∧
       (v = 1 → s.trust.bootstat = 3 → ∃ t : State, exec (.attestRequest box v) s = .next t ∧
         t = { s with trust := { s.trust with boxes := t.trust.boxes } } ∧
         ∀ b, s.trust.boxes[box.toNat]? = some b → ∃ c, t.trust.boxes[box.toNat]? = some c ∧ c.done = true ∧ c.nonce = b.nonce ∧
           (c.report.drop 32).take b.nonce.length = b.nonce ∧
           ((c.report.drop (32 + b.nonce.length)).take (64 * s.trust.mr.length)) = s.trust.mr.flatMap (fun x => leBytes 64 x.toNat))) ∧
     (∀ v : BitVec 32, v ≠ 4 ∨ s.trust.bootstat ≠ 2 → exec (.recoveryReboot v) s = .next s) ∧
     (∀ i image, ((i = .moduleReset ∧ image = s.trust.image) ∨
         (i = .recoveryReboot 4 ∧ s.trust.bootstat = 2 ∧ image = some s.trust.recovery)) →
       ∃ t : State, exec i s = .next t ∧ t.blocks = [] ∧ t.launches = [] ∧ t.images = [] ∧ (∀ q, queueOn (t.qctl q) = false) ∧
         t.trust.image = image ∧ t.host.hostirq.getLsbD 5 = true ∧
         ∃ img : List Byte, (image = none → img = Config.flashImage) ∧
         (∀ b, image = some b → img.length = Config.recoveryBytes ∧ ∀ k, k < Config.recoveryBytes → nth 0 img k = tget 0 b k) ∧
         (if Config.firmwareVerifies img = true then t.trust.bootstat = 3 ∧ (∀ d, d < 4 → (t.die d).lock = true) ∧
            nth 0 t.trust.mr 0 = sha512 (leBytes 64 0 ++ leBytes 64 (sha512 img).toNat) ∧
            nth 0 t.trust.mr 1 = sha512 (leBytes 64 0 ++ leBytes 64 (sha512 (
              (List.range 7).flatMap (fun k => leBytes 8 (nth 0 (t.die 0).hashm k).toNat) ++
              leBytes 8 (1 + (if (t.die 0).err then 16 else 0) + 32 * (t.die 0).badm.toNat) ++
              Config.firmwareConfiguration img)).toNat) ∧
            ∀ k, 2 ≤ k → nth 0 t.trust.mr k = 0
          else t.trust.bootstat = 2 ∧ ∀ k, nth 0 t.trust.mr k = 0)) ∧
     (∀ (slot : BitVec 10) (bs : List Byte),
       (slot = 0 ∨ Config.keyAuthenticates bs = false → exec (.keySlotLoad slot bs) s = .next s) ∧
       (slot ≠ 0 → Config.keyAuthenticates bs = true → ∃ t : State, exec (.keySlotLoad slot bs) s = .next t ∧
         tget [] t.trust.keys slot.toNat = bs ∧ t.blocks = s.blocks ∧ t.mem.bytes = s.mem.bytes ∧
         ∀ a, (Scram.mk s.fresh [] (.slot slot.toNat s.trust.keymap.toNat s.mem.bytes)).reaches a = false →
           t.mem.byte a = s.mem.byte a))) ∧
  ((∀ (s : State) (src : Nat),
     let e := tget EvSource.reset s.tel.sources src
     let size := 2 ^ (s.tel.evctl.toNat % 32)
     let ctx := Config.freeNat 456 0 0 % 64
     let place := s.tel.evbase.toNat + 32 * (s.tel.evwr.toNat % size)
     ((e.held = [] ∨ s.tel.ringOn = false ∨ (s.tel.evwr - s.tel.evrd).toNat = size ∨ s.tripped = true ∨ s.vaHeld ctx place 32 = true) →
       exec (.eventRecordWrite src) s = .next s) ∧
     (∀ r rest loc, e.held = r :: rest → s.tel.ringOn = true → (s.tel.evwr - s.tel.evrd).toNat ≠ size → s.tripped = false →
       s.vaHeld ctx place 32 = false → s.mapsTo ctx place 32 loc .write →
       ∃ t : State, exec (.eventRecordWrite src) s = .next t ∧ t.tel.evwr = s.tel.evwr + 1 ∧
         (tget EvSource.reset t.tel.sources src).held = rest ∧
         (s.tel.evwr = s.tel.evrd → t.host.hostirq.getLsbD 4 = true) ∧
         BytesTake s.mem.byte t.mem.byte loc (entryBytes
           ((Config.freeNat 456 0 (1 + src) % 2 ^ 16) * 2 ^ 48 + r.seq % 2 ^ 48) r.time r.code.toNat r.arg.toNat))) ∧
   (∀ s : State, ∃ t : State, exec .thermalTrip s = .next t ∧ t.tripped = true ∧ t.host.hostirq.getLsbD 3 = true ∧
     (∀ B ∈ t.blocks, 64 ≤ B.ctx) ∧ (∀ c, c < 64 → tget 0 t.host.creset c = 2)) ∧
   (∀ (s : State) (die : BitVec 2), ∃ t : State, exec (.throttle die) s = .next t ∧ t = { s with dies := t.dies, tel := t.tel } ∧
     t.tel = { s.tel with life := t.tel.life } ∧
     ∀ d, (t.die d).lock = (s.die d).lock ∧ (t.die d).hashm = (s.die d).hashm ∧ (t.die d).clock = (s.die d).clock) ∧
   (∀ (s : State) (blk : Nat), ∃ t : State, exec (.debuggerResume blk) s = .next t ∧ t = { s with blocks := t.blocks } ∧
     ∀ b B, s.block? b = some B → t.block? b =
       some { B with halt := if b = blk ∧ B.halt = some .debugger then none else B.halt }) ∧
   (∀ (s : State) (site : ErrorSite),
     (∃ t : State, exec (.softError site) s = .next t ∧ (∀ a, t.mem.byte a = s.mem.byte a) ∧
       (∀ unit d, site = .dram unit d → unit ∈ if d then t.mem.bad else t.mem.weak) ∧
       (∀ b w n l d W, site = .laneReg b w n l d → n < 248 → l < 32 → s.warp? b w = some W →
         ∃ V, t.warp? b w = some V ∧ V = { W with badV := V.badV, weakV := V.weakV } ∧ 32 * n + l ∈ if d then V.badV else V.weakV) ∧
       (∀ b w n d W, site = .uniReg b w n d → n < 64 → s.warp? b w = some W →
         ∃ V, t.warp? b w = some V ∧ V = { W with badW := V.badW, weakW := V.weakW } ∧ n ∈ if d then V.badW else V.weakW)) ∧
     (s.tripped = true → exec (.patrolScrub site) s = .next s) ∧
     (s.tripped = false → ∃ t : State, exec (.patrolScrub site) s = .next t ∧ (∀ a, t.mem.byte a = s.mem.byte a) ∧
       (∀ b w W, s.warp? b w = some W → ∃ V, t.warp? b w = some V ∧
         V = { W with weakV := V.weakV, weakW := V.weakW, weakAcc := V.weakAcc, fixed := V.fixed } ∧
         ((∃ n l d, site = .laneReg b w n l d ∧ 32 * n + l ∈ W.weakV) ∨ (∃ n d, site = .uniReg b w n d ∧ n ∈ W.weakW) →
           V.fixed = W.fixed + 1) ∧
         (∀ n l d, site = .laneReg b w n l d → 32 * n + l ∉ V.weakV) ∧ ∀ n d, site = .uniReg b w n d → n ∉ V.weakW) ∧
       (∀ unit d, site = .dram unit d → s.heldLoc (16 * unit) = true → t = s) ∧
       (∀ unit d, site = .dram unit d → s.heldLoc (16 * unit) = false → t.blocks = s.blocks ∧ unit ∉ t.mem.weak ∧ unit ∉ t.mem.bad ∧
         (unit ∈ s.mem.bad → unit ∈ t.mem.poison ∧ t.mem.poisoned (16 * unit) 16 = true)))))
end

