-- ==== Sys2Proof/Laws/Issue.lean ====
section
/-!
SUPPORT. What issuing a word comes to: the one equation of a word that is clear, and what `setWarp` and `modWarp` do to the
blocks.
-/
namespace Sys2Proof.Machine

/-! ## Warps of blocks -/

theorem block?_uid {s : State} {b : Nat} {B : Block} (h : s.block? b = some B) : B.uid = b := by
  have := List.find?_some h
  simpa using this

theorem current_block {s : State} {B : Block} {W : Warp} (h : s.current = some (B, W)) : s.block? B.uid = some B := by
  unfold State.current at h
  cases hc : s.cur with
  | none => simp [hc] at h
  | some r =>
    cases hb : s.block? r.blk with
    | none => simp [hc, hb] at h
    | some B' =>
      simp only [hc, hb, Option.bind_some, Option.map_eq_some_iff, Prod.mk.injEq] at h
      obtain ⟨_, _, rfl, _⟩ := h
      rw [block?_uid hb]; exact hb

@[simp] theorem setWarp_uid (B : Block) (W : Warp) : (B.setWarp W).uid = B.uid := rfl

theorem block?_setWarp {s : State} {b : Nat} {B : Block} (h : s.block? b = some B) (W : Warp) :
    (s.setWarp b W).block? b = some (B.setWarp W) := by
  have hu := block?_uid h
  unfold State.block? at h ⊢
  simp only [State.setWarp]
  generalize s.blocks = l at h ⊢
  induction l with
  | nil => simp at h
  | cons x r ih =>
    simp only [List.map_cons, List.find?_cons]
    by_cases hx : x.uid = b
    · simp only [List.find?_cons, hx, beq_self_eq_true, Option.some.injEq] at h
      subst h
      simp [hx]
    · have hx' : (x.uid == b) = false := by simp [hx]
      simp only [List.find?_cons, hx'] at h
      simp only [hx, if_false, hx']
      exact ih h

/-- The block has a warp at an index. -/
theorem warp?_isSome {B : Block} {w : Nat} : (B.warp? w).isSome = true ↔ w < B.warps.length := by
  simp [Block.warp?]

theorem warp?_idx {B : Block} {w : Nat} {W : Warp} (h : B.warp? w = some W) : W.idx = w ∧ w < B.warps.length := by
  refine ⟨?_, warp?_isSome.mp (by simp [h])⟩
  simp only [Block.warp?, Option.map_eq_some_iff] at h
  obtain ⟨_, _, rfl⟩ := h
  rfl

theorem current_warp {s : State} {B : Block} {W : Warp} (h : s.current = some (B, W)) : W.idx < B.warps.length := by
  unfold State.current at h
  simp only [Option.bind_eq_some_iff, Option.map_eq_some_iff, Prod.mk.injEq] at h
  obtain ⟨_, _, _, _, _, hw, rfl, rfl⟩ := h
  have := warp?_idx hw
  omega

theorem warp?_setWarp {s : State} {b : Nat} {B : Block} {V : Warp} (h : s.block? b = some B)
    (hV : V.idx < B.warps.length) : (s.setWarp b V).warp? b V.idx = some V := by
  simp [State.warp?, Block.warp?, block?_setWarp h, Block.setWarp, hV]

theorem block?_setWarp_ne (s : State) {b c : Nat} (W : Warp) (h : c ≠ b) : (s.setWarp b W).block? c = s.block? c := by
  unfold State.block? State.setWarp
  simp only
  generalize s.blocks = l
  induction l with
  | nil => rfl
  | cons x r ih =>
    simp only [List.map_cons, List.find?_cons]
    by_cases hx : x.uid = b
    · have h1 : (b == c) = false := by simp [Ne.symm h]
      simp only [hx, if_true, setWarp_uid, h1]; exact ih
    · simp only [hx, if_false]
      cases (x.uid == c) <;> simp [ih]

theorem warp?_setWarp_ne (s : State) {b c w : Nat} (W : Warp) (h : ¬(c = b ∧ w = W.idx)) :
    (s.setWarp b W).warp? c w = s.warp? c w := by
  unfold State.warp?
  by_cases hc : c = b
  · subst hc
    have hw : ¬ w = W.idx := fun hw => h ⟨rfl, hw⟩
    cases hB : s.block? c with
    | none =>
      have : (s.setWarp c W).block? c = none := by
        unfold State.block? State.setWarp at *
        simp only [List.find?_eq_none, List.mem_map, forall_exists_index, and_imp] at *
        rintro x y hy rfl
        have := hB y hy
        split <;> simpa using this
      simp [this]
    | some B =>
      simp [block?_setWarp hB, Block.warp?, Block.setWarp, Ne.symm hw]
  · rw [block?_setWarp_ne s W hc]

theorem setWarp_setWarp (s : State) (b : Nat) {V V' : Warp} (h : V.idx = V'.idx) :
    (s.setWarp b V).setWarp b V' = s.setWarp b V' := by
  unfold State.setWarp
  simp only [List.map_map, State.mk.injEq, and_true]
  refine List.map_congr_left fun x _ => ?_
  by_cases hx : x.uid = b <;> simp [hx, Block.setWarp, h]

theorem modWarp_setWarp {s : State} {b : Nat} {B : Block} {V : Warp} {f : Warp → Warp} (h : s.block? b = some B)
    (hW : V.idx < B.warps.length) (hf : (f V).idx = V.idx) :
    (s.setWarp b V).modWarp b V.idx f = s.setWarp b (f V) := by
  unfold State.modWarp
  rw [warp?_setWarp h hW]
  exact setWarp_setWarp s b hf.symm

/-! ## The equation of a clear word -/

/-- The outcome of a word that is clear: what its own effect comes to. -/
theorem issueLit_clear {i : Instr} {lit : Option Word} {mn : Meaning} {s : State} {x : Slot} (h : Clear i mn s x) :
    issueLit i lit mn s = .next (s.finish (x.begun s i) (x.warp s i mn lit) (x.site s).1 (x.site s).2 (x.resume s)
      (if isDual i then 2 else 0) (mn.body (x.ctx s i mn lit) (x.state s i mn lit))) := by
  unfold issueLit
  simp only [h.current, h.shape, h.ctl, h.runs]
  unfold issueAt
  simp only [h.mayIssue, h.ready, Bool.and_self, Bool.not_true, Bool.false_eq_true, if_false]
  have hb := h.noBreak
  have hc := h.checks
  have hz := h.noHazard
  have hs : (x.h.pieces.map (fun q => (x.begun s i).W.readsBad (mn.readMask (x.begun s i))
      (q.reads ++ mn.dynReads (x.begun s i)))).any id = false := by
    rw [List.any_map, List.any_eq_false]
    intro q hq
    simp [h.sound q hq]
  simp only [Slot.tested, Slot.chain, Slot.addr, Slot.site, Slot.begun] at hb hc hz hs
  simp only [hb, hc, hz, hs, Bool.false_eq_true, if_false]
  rfl

theorem afterIteration_idx (V : Warp) (n : Option Nat) : (V.afterIteration n).idx = V.idx := by
  unfold Warp.afterIteration; split <;> rfl

/-- Closing a word whose effect put its own warp. -/
theorem close_setWarp {s : State} {b : Nat} {B : Block} {V : Warp} (h : s.block? b = some B)
    (hW : V.idx < B.warps.length) (iter : Option Nat) :
    (s.setWarp b V).close b V.idx iter = s.setWarp b (V.afterIteration iter) := by
  cases iter with
  | none => rfl
  | some n => exact modWarp_setWarp h hW (afterIteration_idx _ _)

/-- What putting back the word's own warp comes to. -/
theorem Slot.only_setWarp {x : Slot} {s : State} (h : s.current = some (x.B, x.W)) {V : Warp} (hV : V.idx = x.W.idx) :
    x.Only s (s.setWarp x.B.uid V) V where
  own := by
    rw [← hV]
    exact warp?_setWarp (current_block h) (hV ▸ current_warp h)
  others b w hn := warp?_setWarp_ne s V (hV ▸ hn)
  blocks b := by
    by_cases hb : b = x.B.uid
    · subst hb; simp [block?_setWarp (current_block h), current_block h, Block.setWarp]
    · rw [block?_setWarp_ne s V hb]
  bytes _ := rfl
  rest := rfl

theorem begin_idx (W : Warp) (run : Mask) (next : BitVec 52) (dist : Nat) (setf : BitVec 4) (now : Nat) :
    (W.begin run next dist setf now).idx = W.idx := by
  simp only [Warp.begin, Warp.advanceEarly, Warp.mapThreads]

theorem taking_idx (W : Warp) (c : Iss) (h : Shape) (mn : Meaning) (chain : Option PrevWord) (st : Site)
    (lit : Option Word) : (W.taking c h mn chain st lit).idx = c.W.idx := rfl

@[simp] theorem heard_idx (W : Warp) (wait : BitVec 12) : (W.heard wait).idx = W.idx := rfl

theorem warp_idx (x : Slot) (s : State) (i : Instr) (mn : Meaning) (lit : Option Word) :
    (x.warp s i mn lit).idx = x.W.idx := by
  rw [Slot.warp, taking_idx, Slot.begun, State.issFor, begin_idx, heard_idx]

/-- A clear word whose effect only puts its own warp as V ends with that warp, and completes. -/
theorem Clear.ends {i : Instr} {lit : Option Word} {mn : Meaning} {s : State} {x : Slot} (h : Clear i mn s x) {V : Warp}
    (hb : mn.body (x.ctx s i mn lit) (x.state s i mn lit) = .ok ((x.state s i mn lit).setWarp x.B.uid V))
    (hV : V.idx = x.W.idx) :
    issueLit i lit mn s = .next (s.setWarp x.B.uid (x.after s V)) := by
  have hW : (x.warp s i mn lit).idx = V.idx := (warp_idx ..).trans hV.symm
  have hb1 : (x.begun s i).b = x.B.uid := rfl
  have hb2 : (x.begun s i).w = V.idx := hV.symm
  rw [issueLit_clear h, hb, State.finish, hb1, hb2, Slot.state, setWarp_setWarp s x.B.uid hW,
    close_setWarp (current_block h.current) (hV ▸ current_warp h.current), Slot.after]

/-- A word that differs in its effect alone is clear in the same states. -/
theorem Clear.body {i : Instr} {mn mn' : Meaning} {s : State} {x : Slot} (h : Clear i mn s x)
    (h1 : mn'.bounds = mn.bounds) (h2 : mn'.dynReads = mn.dynReads) (h3 : mn'.dynWrites = mn.dynWrites)
    (h4 : mn'.readMask = mn.readMask) : Clear i mn' s x := by
  obtain ⟨b', bo', r', w', m'⟩ := mn'
  obtain ⟨b, bo, r, w, m⟩ := mn
  simp only at h1 h2 h3 h4
  subst h1 h2 h3 h4
  exact ⟨h.toIssues, h.checks, h.noHazard, h.sound⟩

end Sys2Proof.Machine
end

