-- ==== Sys2Proof/Laws/Tab.lean ====
section
/-!
SUPPORT. Sparse tables: reading after writing, and the canonical form, which every write keeps.
-/
namespace Sys2Proof.Machine

variable {α : Type}

/-! ## Reading after writing -/

theorem tget_tdel_self (d : α) (t : Tab α) (k : Nat) : tget d (tdel t k) k = d := by
  induction t with
  | nil => rfl
  | cons e r ih =>
    obtain ⟨k', v⟩ := e
    by_cases h : k' = k <;> simp [tdel, tget, h, ih]

theorem tget_tdel_ne (d : α) (t : Tab α) {k j : Nat} (h : j ≠ k) : tget d (tdel t k) j = tget d t j := by
  induction t with
  | nil => rfl
  | cons e r ih =>
    obtain ⟨k', v⟩ := e
    by_cases h1 : k' = k
    · subst h1; simp [tdel, tget, Ne.symm h, ih]
    · by_cases h2 : k' = j
      · subst h2; simp [tdel, tget, h1]
      · simp [tdel, tget, h1, h2, ih]

/-- No entry of the table has key k. -/
theorem tget_tins (d : α) (t : Tab α) (k : Nat) (v : α) (h : ∀ e ∈ t, e.1 ≠ k) (j : Nat) :
    tget d (tins t k v) j = if j = k then v else tget d t j := by
  induction t with
  | nil =>
    by_cases hj : j = k
    · simp [tins, tget, hj]
    · simp [tins, tget, hj, Ne.symm hj]
  | cons e r ih =>
    obtain ⟨k', v'⟩ := e
    have hk : k' ≠ k := h (k', v') (by simp)
    have ih := ih (fun e he => h e (by simp [he]))
    by_cases hlt : k < k'
    · by_cases hj : j = k
      · subst hj; simp [tins, tget, hlt]
      · simp [tins, tget, hlt, hj, Ne.symm hj]
    · by_cases hj : j = k
      · subst hj; simp [tins, tget, hlt, hk, ih]
      · by_cases h2 : k' = j
        · subst h2; simp [tins, tget, hlt, hj]
        · simp [tins, tget, hlt, h2, ih, hj]

theorem not_mem_tdel (t : Tab α) (k : Nat) : ∀ e ∈ tdel t k, e.1 ≠ k := by
  induction t with
  | nil => simp [tdel]
  | cons e r ih =>
    obtain ⟨k', v⟩ := e
    by_cases h : k' = k
    · simpa [tdel, h] using ih
    · intro e he
      simp only [tdel, h, if_false, List.mem_cons] at he
      rcases he with rfl | he
      · exact h
      · exact ih e he

/-- What a write does to every key. -/
theorem tget_tset [DecidableEq α] (d : α) (t : Tab α) (k : Nat) (v : α) (j : Nat) :
    tget d (tset d t k v) j = if j = k then v else tget d t j := by
  unfold tset
  by_cases hv : v = d
  · by_cases hj : j = k
    · subst hj; simp [hv, tget_tdel_self]
    · simp [hv, hj, tget_tdel_ne d t hj]
  · simp only [hv, if_false, tget_tins d _ k v (not_mem_tdel t k)]
    by_cases hj : j = k
    · simp [hj]
    · simp [hj, tget_tdel_ne d t hj]

@[simp] theorem tget_tset_self [DecidableEq α] (d : α) (t : Tab α) (k : Nat) (v : α) : tget d (tset d t k v) k = v := by
  simp [tget_tset]

theorem tget_tset_ne [DecidableEq α] (d : α) (t : Tab α) {k j : Nat} (v : α) (h : j ≠ k) : tget d (tset d t k v) j = tget d t j := by
  simp [tget_tset, h]

@[simp] theorem tget_nil (d : α) (k : Nat) : tget d [] k = d := rfl

/-- What a write of consecutive keys does to every key. -/
theorem tget_tsetMany [DecidableEq α] (d : α) (vs : List α) : ∀ (t : Tab α) (k j : Nat),
    tget d (tsetMany d t k vs) j = if k ≤ j ∧ j < k + vs.length then (vs[j - k]?).getD d else tget d t j := by
  induction vs with
  | nil => intro t k j; simp [tsetMany]
  | cons v vs ih =>
    intro t k j
    simp only [tsetMany, ih, List.length_cons]
    by_cases h1 : j = k
    · subst h1; simp
    · by_cases h2 : k + 1 ≤ j ∧ j < k + 1 + vs.length
      · rw [if_pos h2, if_pos (by omega)]
        obtain ⟨n, rfl⟩ : ∃ n, j = k + 1 + n := ⟨j - (k + 1), by omega⟩
        simp [show k + 1 + n - k = n + 1 from by omega]
      · rw [if_neg h2, if_neg (by omega), tget_tset_ne d t v h1]

/-! ## The canonical form -/

/-- Strictly rising keys, as a property of the head and the rest. -/
theorem tsorted_cons (e : Nat × α) (r : Tab α) : tsorted (e :: r) = true ↔ (∀ x ∈ r, e.1 < x.1) ∧ tsorted r = true := by
  induction r generalizing e with
  | nil => simp [tsorted]
  | cons x r ih =>
    simp only [tsorted, Bool.and_eq_true, decide_eq_true_eq, List.mem_cons, forall_eq_or_imp]
    constructor
    · rintro ⟨h1, h2⟩
      exact ⟨⟨h1, fun y hy => Nat.lt_trans h1 ((ih x).mp h2 |>.1 y hy)⟩, h2⟩
    · rintro ⟨⟨h1, _⟩, h2⟩
      exact ⟨h1, h2⟩

theorem twf_iff [DecidableEq α] (d : α) (t : Tab α) : twf d t = true ↔ tsorted t = true ∧ ∀ e ∈ t, e.2 ≠ d := by
  simp [twf]

theorem mem_tdel {t : Tab α} {k : Nat} {e : Nat × α} (h : e ∈ tdel t k) : e ∈ t := by
  induction t with
  | nil => simp [tdel] at h
  | cons x r ih =>
    by_cases hx : x.1 = k
    · simp only [tdel, hx, if_true] at h; exact List.mem_cons_of_mem _ (ih h)
    · simp only [tdel, hx, if_false, List.mem_cons] at h
      rcases h with h | h
      · exact h ▸ List.mem_cons_self
      · exact List.mem_cons_of_mem _ (ih h)

theorem tsorted_tdel {t : Tab α} (k : Nat) (h : tsorted t = true) : tsorted (tdel t k) = true := by
  induction t with
  | nil => rfl
  | cons x r ih =>
    obtain ⟨h1, h2⟩ := (tsorted_cons x r).mp h
    by_cases hx : x.1 = k
    · simpa [tdel, hx] using ih h2
    · simp only [tdel, hx, if_false]
      exact (tsorted_cons x _).mpr ⟨fun y hy => h1 y (mem_tdel hy), ih h2⟩

theorem mem_tins {t : Tab α} {k : Nat} {v : α} {e : Nat × α} (h : e ∈ tins t k v) : e = (k, v) ∨ e ∈ t := by
  induction t with
  | nil => simpa [tins] using h
  | cons x r ih =>
    by_cases hx : k < x.1
    · simpa [tins, hx] using h
    · simp only [tins, hx, if_false, List.mem_cons] at h
      rcases h with h | h
      · exact .inr (h ▸ List.mem_cons_self)
      · exact (ih h).imp_right (List.mem_cons_of_mem _)

theorem tsorted_tins {t : Tab α} (k : Nat) (v : α) (h : tsorted t = true) (hk : ∀ e ∈ t, e.1 ≠ k) :
    tsorted (tins t k v) = true := by
  induction t with
  | nil => rfl
  | cons x r ih =>
    obtain ⟨h1, h2⟩ := (tsorted_cons x r).mp h
    by_cases hx : k < x.1
    · simp only [tins, hx, if_true]
      refine (tsorted_cons _ _).mpr ⟨?_, h⟩
      intro y hy
      rcases List.mem_cons.mp hy with rfl | hy
      · exact hx
      · exact Nat.lt_trans hx (h1 y hy)
    · simp only [tins, hx, if_false]
      have hne := hk x (by simp)
      refine (tsorted_cons _ _).mpr ⟨?_, ih h2 (fun e he => hk e (by simp [he]))⟩
      intro y hy
      rcases mem_tins hy with rfl | hy
      · simp only; omega
      · exact h1 y hy

/-- A write keeps the canonical form. -/
theorem twf_tset [DecidableEq α] {d : α} {t : Tab α} (k : Nat) (v : α) (h : twf d t = true) : twf d (tset d t k v) = true := by
  rw [twf_iff] at h ⊢
  unfold tset
  by_cases hv : v = d
  · simp only [hv, if_true]
    exact ⟨tsorted_tdel k h.1, fun e he => h.2 e (mem_tdel he)⟩
  · simp only [hv, if_false]
    refine ⟨tsorted_tins k v (tsorted_tdel k h.1) (not_mem_tdel t k), fun e he => ?_⟩
    rcases mem_tins he with rfl | he
    · exact hv
    · exact h.2 e (mem_tdel he)

theorem twf_tsetMany [DecidableEq α] {d : α} (vs : List α) : ∀ {t : Tab α} (k : Nat), twf d t = true → twf d (tsetMany d t k vs) = true := by
  induction vs with
  | nil => intro t k h; exact h
  | cons v vs ih => intro t k h; exact ih (k + 1) (twf_tset k v h)

theorem twf_nil [DecidableEq α] (d : α) : twf d ([] : Tab α) = true := rfl

/-- Equal contents are equal data: two canonical tables that read alike are the same table. -/
theorem tab_ext [DecidableEq α] {d : α} : ∀ {t u : Tab α}, twf d t = true → twf d u = true → (∀ k, tget d t k = tget d u k) → t = u := by
  have miss : ∀ (t : Tab α) (k : Nat), (∀ x ∈ t, k < x.1) → tget d t k = d := by
    intro t
    induction t with
    | nil => intro k _; rfl
    | cons x r ih =>
      intro k hk
      have := hk x (by simp)
      simp only [tget]
      rw [if_neg (by omega), ih k (fun y hy => hk y (by simp [hy]))]
  intro t
  induction t with
  | nil =>
    intro u _ hu h
    cases u with
    | nil => rfl
    | cons x r =>
      have := h x.1
      simp only [tget, if_true] at this
      exact absurd this.symm (((twf_iff d _).mp hu).2 x (by simp))
  | cons e t ih =>
    intro u ht hu h
    obtain ⟨hs, hd⟩ := (twf_iff d _).mp ht
    obtain ⟨he, hst⟩ := (tsorted_cons e t).mp hs
    cases u with
    | nil =>
      have := h e.1
      simp only [tget, if_true] at this
      exact absurd this (hd e (by simp))
    | cons x r =>
      obtain ⟨hs', hd'⟩ := (twf_iff d _).mp hu
      obtain ⟨hx, hsr⟩ := (tsorted_cons x r).mp hs'
      have hk : e.1 = x.1 := by
        rcases Nat.lt_trichotomy e.1 x.1 with hlt | heq | hgt
        · have := h e.1
          simp only [tget, if_true] at this
          rw [if_neg (by omega), miss r e.1 (fun y hy => Nat.lt_trans hlt (hx y hy))] at this
          exact absurd this (hd e (by simp))
        · exact heq
        · have := h x.1
          simp only [tget, if_true] at this
          rw [if_neg (by omega), miss t x.1 (fun y hy => Nat.lt_trans hgt (he y hy))] at this
          exact absurd this.symm (hd' x (by simp))
      have hv : e.2 = x.2 := by
        have := h e.1
        simpa [tget, hk] using this
      have hr : t = r := by
        refine ih ((twf_iff d _).mpr ⟨hst, fun y hy => hd y (by simp [hy])⟩)
          ((twf_iff d _).mpr ⟨hsr, fun y hy => hd' y (by simp [hy])⟩) fun k => ?_
        by_cases hke : k = e.1
        · subst hke
          rw [miss t e.1 he, hk, miss r x.1 hx]
        · have := h k
          simp only [tget] at this
          rwa [if_neg (Ne.symm hke), if_neg (by omega)] at this
      rw [hr, Prod.ext hk hv]

end Sys2Proof.Machine
end

