-- ==== Sys2Proof/Laws/Words.lean ====
section
/-!
SUPPORT. What the operations do through which words write registers: lane registers, uniform registers, predicates, %fx,
latches; and what a word that only changes its warp comes to.
-/
namespace Sys2Proof.Machine

/-! ## Lists and masks -/

theorem thread_mapThreads (W : Warp) (f : Nat → Thread → Thread) (l : Nat) :
    (W.mapThreads f).thread l = if l < 32 then f l (W.thread l) else Thread.reset := by
  unfold Warp.thread Warp.mapThreads mapLanes
  by_cases h : l < 32 <;> simp [h]

theorem thread_beyond (W : Warp) {l : Nat} (h : ¬ l < 32) : W.thread l = Thread.reset := by
  unfold Warp.thread; simp [h]

/-- Changing the threads of a mask. -/
theorem thread_mapMask (W : Warp) (m : Mask) (f : Nat → Thread → Thread) (l : Nat) :
    (W.mapThreads (fun l t => if m.getLsbD l then f l t else t)).thread l =
      if m.getLsbD l = true then f l (W.thread l) else W.thread l := by
  rw [thread_mapThreads]
  by_cases h : l < 32
  · simp [h]
  · have : m.getLsbD l = false := BitVec.getLsbD_of_ge _ _ (by omega)
    simp [h, this, thread_beyond W h]

@[simp] theorem thread_modThreads (W : Warp) (m : Mask) (f : Thread → Thread) (l : Nat) :
    (W.modThreads m f).thread l = if m.getLsbD l = true then f (W.thread l) else W.thread l :=
  thread_mapMask W m (fun _ => f) l

theorem mem_lanesOf {m : Mask} {l : Nat} : l ∈ lanesOf m ↔ l < 32 ∧ m.getLsbD l = true := by
  simp [lanesOf]

theorem nodup_lanesOf (m : Mask) : (lanesOf m).Nodup := List.nodup_range.filter _

theorem tget_foldl_tset (d : Word) (g : Nat → Word) (k : Nat → Nat) (hk : ∀ a b, k a = k b → a = b) (ls : List Nat) :
    ∀ (t : Tab Word) (j : Nat), tget d (ls.foldl (fun t l => tset d t (k l) (g l)) t) (k j) =
      if j ∈ ls then g j else tget d t (k j) := by
  induction ls with
  | nil => intro t j; simp
  | cons l ls ih =>
    intro t j
    simp only [List.foldl_cons, ih, tget_tset, List.mem_cons]
    by_cases h1 : j ∈ ls
    · simp [h1]
    · by_cases h2 : j = l
      · subst h2; simp [h1]
      · have : k j ≠ k l := fun h => h2 (hk _ _ h)
        simp [h1, h2, this]

theorem tget_foldl_tset_ne (d : Word) (g : Nat → Word) (k : Nat → Nat) (ls : List Nat) :
    ∀ (t : Tab Word) (i : Nat), (∀ l ∈ ls, k l ≠ i) → tget d (ls.foldl (fun t l => tset d t (k l) (g l)) t) i = tget d t i := by
  induction ls with
  | nil => intro t i _; rfl
  | cons l ls ih =>
    intro t i h
    simp only [List.foldl_cons]
    rw [ih _ _ (fun x hx => h x (by simp [hx])), tget_tset_ne]
    exact Ne.symm (h l (by simp))

/-! ## Writes on their way -/

@[simp] theorem noteWrite_v (W : Warp) (loc : Loc) (m : Mask) (lat : Nat) : (W.noteWrite loc m lat).v = W.v := rfl
@[simp] theorem noteWrite_w (W : Warp) (loc : Loc) (m : Mask) (lat : Nat) : (W.noteWrite loc m lat).w = W.w := rfl
@[simp] theorem thread_noteWrite (W : Warp) (loc : Loc) (m : Mask) (lat l : Nat) :
    (W.noteWrite loc m lat).thread l = W.thread l := rfl

/-- Noting a write changes what is on its way alone. -/
theorem noteWrite_frame (W : Warp) (loc : Loc) (m : Mask) (lat : Nat) :
    W.noteWrite loc m lat = { W with early := (W.noteWrite loc m lat).early } := rfl

@[simp] theorem contend_loc (loc : Loc) (m : Mask) (raw : List Word) (e : Early) : (Early.contend loc m raw e).loc = e.loc := by
  unfold Early.contend; split <;> rfl
@[simp] theorem contend_op (loc : Loc) (m : Mask) (raw : List Word) (e : Early) : (Early.contend loc m raw e).op = e.op := by
  unfold Early.contend; split <;> rfl
@[simp] theorem contend_wrote (loc : Loc) (m : Mask) (raw : List Word) (e : Early) : (Early.contend loc m raw e).wrote = e.wrote := by
  unfold Early.contend; split <;> rfl
@[simp] theorem contend_left (loc : Loc) (m : Mask) (raw : List Word) (e : Early) : (Early.contend loc m raw e).left = e.left := by
  unfold Early.contend; split <;> rfl

/-- Cutting ALU results changes nothing that flagged operations' entries decide. -/
theorem any_cut (loc : Loc) (m : Mask) {p : Early → Bool} (h0 : ∀ e, e.op = none → p e = false) (l : List Early) :
    (l.filterMap (Early.cut loc m)).any p = l.any p := by
  induction l with
  | nil => rfl
  | cons e r ih =>
    rw [List.filterMap_cons, List.any_cons, ← ih]
    by_cases h : (e.loc == loc && e.op.isNone) = true
    · have hn : e.op = none := by
        rw [Bool.and_eq_true, Option.isNone_iff_eq_none] at h; exact h.2
      have hc : Early.cut loc m e = if e.wrote &&& ~~~m = 0 then none else some { e with wrote := e.wrote &&& ~~~m } := by
        unfold Early.cut; rw [if_pos h]
      rw [hc, h0 e hn, Bool.false_or]
      by_cases hw : e.wrote &&& ~~~m = 0
      · simp only [hw, if_true]
      · simp only [hw, if_false, List.any_cons, h0 { e with wrote := e.wrote &&& ~~~m } hn, Bool.false_or]
    · have hc : Early.cut loc m e = some e := by unfold Early.cut; rw [if_neg h]
      simp only [hc, List.any_cons]

/-- Noting a write changes nothing that flagged operations' entries decide. -/
theorem any_noteWrite (W : Warp) (loc : Loc) (m : Mask) (lat : Nat) {p : Early → Bool} (h0 : ∀ e, e.op = none → p e = false)
    (h1 : ∀ e, p (Early.contend loc m (W.locRaw loc) e) = p e) : (W.noteWrite loc m lat).early.any p = W.early.any p := by
  have hm : (W.early.map (Early.contend loc m (W.locRaw loc))).any p = W.early.any p := by
    rw [List.any_map]; exact congrArg (fun q => List.any W.early q) (funext h1)
  unfold Warp.noteWrite
  split
  · rw [any_cut loc m h0, hm]
  · rw [List.any_cons, h0 _ rfl, Bool.false_or, hm]

@[simp] theorem flagged_noteWrite (W : Warp) (loc : Loc) (m : Mask) (lat : Nat) (loc' : Loc) :
    (W.noteWrite loc m lat).flagged loc' = W.flagged loc' :=
  any_noteWrite W loc m lat (fun e h => by simp [h]) (fun e => by simp)

@[simp] theorem contested_noteWrite (W : Warp) (loc : Loc) (m : Mask) (lat : Nat) (loc' : Loc) (l : Nat) :
    (W.noteWrite loc m lat).contested none loc' l = W.contested none loc' l := by
  refine any_noteWrite W loc m lat (fun e h => by simp [h]) (fun e => ?_)
  simp only [contend_loc, contend_op, contend_wrote]
  cases e.op <;> simp

/-- What a write settles to (R63). -/
theorem settle_cases (W : Warp) (fr : Nat) (loc : Loc) (l : Nat) (y : Word) :
    W.settle fr none loc l y = y ∨ (W.contested none loc l = true ∧ W.settle fr none loc l y = W.nowAt loc l) := by
  simp only [Warp.settle]
  split
  · next h =>
    simp only [Bool.and_eq_true] at h
    by_cases hb : Config.freeBit 63 fr (loc.index l) = true
    · exact .inl (by simp [hb])
    · exact .inr ⟨h.2, by simp [hb]⟩
  · exact .inl rfl

/-! ## Lane registers -/

theorem vKey_inj {n n' l l' : Nat} (hl : l < 32) (hl' : l' < 32) (h : vKey n l = vKey n' l') : n = n' ∧ l = l' := by
  unfold vKey at h; omega

/-- What writing lane register n does to every lane register. -/
theorem vRaw_writeV (W : Warp) (fr lat n : Nat) (m : Mask) (f : Nat → Word) (n' l' : Nat) (hl : l' < 32) :
    (W.writeV fr lat n m f).vRaw n' l' =
      if n' = n ∧ m.getLsbD l' = true then W.settle fr none (.lane n) l' (f l') else W.vRaw n' l' := by
  unfold Warp.writeV Warp.vRaw
  simp only [noteWrite_v]
  by_cases hn : n' = n
  · subst hn
    rw [tget_foldl_tset 0 (fun l => W.settle fr none (.lane n') l (f l)) (vKey n') (fun a b h => by unfold vKey at h; omega)]
    simp [mem_lanesOf, hl]
  · rw [tget_foldl_tset_ne]
    · simp [hn]
    · intro l hm hk
      exact hn ((vKey_inj (mem_lanesOf.mp hm).1 hl hk).1.symm)

theorem writeV_frame (W : Warp) (fr lat n : Nat) (m : Mask) (f : Nat → Word) :
    W.writeV fr lat n m f =
      { W with v := (W.writeV fr lat n m f).v, early := (W.writeV fr lat n m f).early } := rfl

@[simp] theorem flagged_writeV (W : Warp) (fr lat n : Nat) (m : Mask) (f : Nat → Word) (loc : Loc) :
    (W.writeV fr lat n m f).flagged loc = W.flagged loc := flagged_noteWrite W _ _ _ _

@[simp] theorem contested_writeV (W : Warp) (fr lat n : Nat) (m : Mask) (f : Nat → Word) (loc : Loc) (l : Nat) :
    (W.writeV fr lat n m f).contested none loc l = W.contested none loc l := contested_noteWrite W _ _ _ _ _

theorem putV_frame (W : Warp) (fr lat : Nat) (d : BitVec 8) (m : Mask) (f : Nat → Word) :
    W.putV fr lat d m f = { W with v := (W.putV fr lat d m f).v, early := (W.putV fr lat d m f).early } := by
  unfold Warp.putV; split <;> rfl

theorem putV64_frame (W : Warp) (fr lat : Nat) (d : BitVec 8) (m : Mask) (f : Nat → Dword) :
    W.putV64 fr lat d m f = { W with v := (W.putV64 fr lat d m f).v, early := (W.putV64 fr lat d m f).early } := by
  unfold Warp.putV64; split <;> rfl

/-- A register's write, as the statements say it. -/
theorem writeV_takes (W : Warp) (fr lat n : Nat) (m : Mask) (f : Nat → Word) :
    W.LanesTake (W.writeV fr lat n m f) (fun n' l => if n' = n ∧ m.getLsbD l = true then some (f l) else none) := by
  intro n' l hl
  simp only [vRaw_writeV W fr lat n m f n' l hl]
  by_cases h : n' = n ∧ m.getLsbD l = true
  · simp only [h, and_self, if_true]
    exact settle_cases W fr (.lane n) l (f l)
  · simp only [h, if_false]

theorem putV_takes (W : Warp) (fr lat : Nat) (d : BitVec 8) (m : Mask) (f : Nat → Word) :
    W.LanesTake (W.putV fr lat d m f) (to32 d m f) := by
  unfold Warp.putV to32
  by_cases h : d.toNat < 0xF8
  · simpa [h] using writeV_takes W fr lat d.toNat m f
  · intro n l _; simp [h]

theorem putV64_takes (W : Warp) (fr lat : Nat) (d : BitVec 8) (m : Mask) (f : Nat → Dword) :
    W.LanesTake (W.putV64 fr lat d m f) (to64 d m f) := by
  unfold Warp.putV64 to64
  by_cases h : d.toNat < 0xF8
  · intro n l hl
    simp only [h, if_true, true_and, vRaw_writeV _ _ _ _ _ _ n l hl]
    by_cases hm : m.getLsbD l = true
    · simp only [hm, and_true, if_true]
      by_cases h1 : n = d.toNat
      · subst h1
        have : ¬ d.toNat = d.toNat + 1 := by omega
        simp only [this, if_false, if_true]
        exact settle_cases W fr _ l _
      · by_cases h2 : n = d.toNat + 1
        · subst h2
          simp only [if_true, h1, if_false]
          rcases settle_cases (W.writeV fr lat d.toNat m fun l => lo32 (f l)) fr (.lane (d.toNat + 1)) l (hi32 (f l)) with h3 | h3
          · exact .inl h3
          · refine .inr ⟨by simpa using h3.1, h3.2.trans ?_⟩
            show Warp.vRaw _ _ _ = _
            rw [vRaw_writeV _ _ _ _ _ _ _ l hl, if_neg (by omega)]
        · simp only [h1, h2, if_false]
    · simp [hm]
  · intro n l _; simp [h]

/-! ## Uniform registers -/

theorem writeW_frame (W : Warp) (fr lat n : Nat) (y : Word) :
    W.writeW fr lat n y = { W with w := (W.writeW fr lat n y).w, early := (W.writeW fr lat n y).early } := rfl

theorem wRaw_writeW (W : Warp) (fr lat n : Nat) (y : Word) (n' : Nat) :
    (W.writeW fr lat n y).wRaw n' = if n' = n then W.settle fr none (.uni n) 0 y else W.wRaw n' := by
  simp [Warp.writeW, Warp.wRaw, tget_tset]

theorem putW_frame (W : Warp) (fr lat : Nat) (d : BitVec 8) (y : Word) :
    W.putW fr lat d y = { W with w := (W.putW fr lat d y).w, early := (W.putW fr lat d y).early } := by
  unfold Warp.putW; split <;> rfl

theorem putW_takes (W : Warp) (fr lat : Nat) (d : BitVec 8) (y : Word) :
    W.UniTakes (W.putW fr lat d y) (toUni d y) := by
  intro n
  unfold Warp.putW toUni
  by_cases h : d.toNat < 64
  · simp only [h, if_true, true_and, wRaw_writeW]
    by_cases hn : n = d.toNat
    · simp only [hn, if_true]
      exact settle_cases W fr (.uni d.toNat) 0 y
    · simp only [hn, if_false]
  · simp [h]

/-! ## Predicates and %fx -/

theorem getLsbD_setBit7 (x : BitVec 7) (n : Nat) (b : Bool) (i : Nat) (hi : i < 7) :
    (setBit7 x n b).getLsbD i = if i = n then b else x.getLsbD i := by
  have hp : (BitVec.ofNat 7 (2 ^ n)).getLsbD i = decide (i = n) := by
    rw [BitVec.getLsbD_ofNat, Nat.testBit_two_pow]; simp [hi, eq_comm]
  unfold setBit7
  cases b with
  | true =>
    simp only [if_true, BitVec.getLsbD_or, hp]
    by_cases h : i = n <;> simp [h]
  | false =>
    simp only [Bool.false_eq_true, if_false, BitVec.getLsbD_and, BitVec.getLsbD_not, hp, hi]
    by_cases h : i = n <;> simp [h]

theorem thread_writeP (W : Warp) (lat n : Nat) (m : Mask) (f : Nat → Bool) (l : Nat) :
    (W.writeP lat n m f).thread l =
      if n ≠ 7 ∧ m.getLsbD l = true then { W.thread l with preds := setBit7 (W.thread l).preds n (f l) } else W.thread l := by
  unfold Warp.writeP
  by_cases hn : n = 7
  · simp [hn]
  · simp only [hn, if_false, ne_eq, not_false_eq_true, true_and, thread_mapMask, thread_noteWrite]

theorem writeP_frame (W : Warp) (lat n : Nat) (m : Mask) (f : Nat → Bool) :
    W.writeP lat n m f =
      { W with threads := (W.writeP lat n m f).threads, early := (W.writeP lat n m f).early } := by
  unfold Warp.writeP; split <;> rfl

theorem thread_raiseFx (W : Warp) (m : Mask) (nf : Bool) (f : Nat → BitVec 5) (l : Nat) :
    (W.raiseFx m nf f).thread l =
      if nf = false ∧ m.getLsbD l = true then { W.thread l with fx := (W.thread l).fx ||| f l } else W.thread l := by
  unfold Warp.raiseFx
  cases nf with
  | true => simp
  | false =>
    simp only [Bool.false_eq_true, if_false, thread_mapMask, true_and]

theorem raiseFx_frame (W : Warp) (m : Mask) (nf : Bool) (f : Nat → BitVec 5) :
    W.raiseFx m nf f = { W with threads := (W.raiseFx m nf f).threads } := by
  unfold Warp.raiseFx; split <;> rfl

/-! ## The warp's index -/

@[simp] theorem push_idx (W : Warp) (m : Mask) (f : Nat → Word) : (W.push m f).idx = W.idx := rfl
@[simp] theorem writeV_idx (W : Warp) (fr lat n : Nat) (m : Mask) (f : Nat → Word) :
    (W.writeV fr lat n m f).idx = W.idx := by rw [writeV_frame]
@[simp] theorem putV_idx (W : Warp) (fr lat : Nat) (d : BitVec 8) (m : Mask) (f : Nat → Word) :
    (W.putV fr lat d m f).idx = W.idx := by rw [putV_frame]
@[simp] theorem putV64_idx (W : Warp) (fr lat : Nat) (d : BitVec 8) (m : Mask) (f : Nat → Dword) :
    (W.putV64 fr lat d m f).idx = W.idx := by rw [putV64_frame]
@[simp] theorem writeW_idx (W : Warp) (fr lat n : Nat) (y : Word) : (W.writeW fr lat n y).idx = W.idx := by
  rw [writeW_frame]
@[simp] theorem putW_idx (W : Warp) (fr lat : Nat) (d : BitVec 8) (y : Word) : (W.putW fr lat d y).idx = W.idx := by
  rw [putW_frame]
@[simp] theorem writeP_idx (W : Warp) (lat n : Nat) (m : Mask) (f : Nat → Bool) :
    (W.writeP lat n m f).idx = W.idx := by rw [writeP_frame]
@[simp] theorem raiseFx_idx (W : Warp) (m : Mask) (nf : Bool) (f : Nat → BitVec 5) :
    (W.raiseFx m nf f).idx = W.idx := by rw [raiseFx_frame]
@[simp] theorem mapThreads_idx (W : Warp) (f : Nat → Thread → Thread) : (W.mapThreads f).idx = W.idx := by
  simp only [Warp.mapThreads]
@[simp] theorem modThreads_idx (W : Warp) (m : Mask) (f : Thread → Thread) : (W.modThreads m f).idx = W.idx := by
  simp only [Warp.modThreads, mapThreads_idx]

end Sys2Proof.Machine
end

