-- ==== Sys2Proof/Laws/Values.lean ====
section
/-!
SUPPORT. What a lane word's effect comes to: result and push, 32 and 64 bits; and the bits of masks.
-/
namespace Sys2Proof.Machine

/-! ## Masks -/

theorem testBit_foldl (f : Nat → Bool) (n : Nat) : ∀ i, ((List.range n).foldl (fun a l => if f l then a + 2 ^ l else a) 0).testBit i =
    (decide (i < n) && f i) := by
  induction n with
  | zero => intro i; simp
  | succ n ih =>
    intro i
    rw [List.range_succ, List.foldl_append]
    simp only [List.foldl_cons, List.foldl_nil]
    have hlt : (List.range n).foldl (fun a l => if f l then a + 2 ^ l else a) 0 < 2 ^ n := by
      refine Nat.lt_pow_two_of_testBit _ fun j hj => ?_
      rw [ih j]; simp; omega
    by_cases hf : f n = true
    · simp only [hf, if_true]
      have h := Nat.two_pow_add_eq_or_of_lt hlt 1
      rw [Nat.mul_one] at h
      rw [Nat.add_comm, h, Nat.testBit_or, ih, Nat.testBit_two_pow]
      by_cases hi : i = n
      · subst hi; simp [hf]
      · have h1 : decide (i ≤ n) = decide (i < n) := by simp; omega
        simp [Ne.symm hi, h1]
    · simp only [hf]
      rw [if_neg (by simp), ih]
      by_cases hi : i = n
      · subst hi; simp [hf]
      · have : decide (i < n + 1) = decide (i < n) := by simp; omega
        rw [this]

theorem getLsbD_maskOf (f : Nat → Bool) (i : Nat) : (maskOf f).getLsbD i = (decide (i < 32) && f i) := by
  unfold maskOf
  rw [BitVec.getLsbD_ofNat, testBit_foldl]
  by_cases h : i < 32 <;> simp [h]

/-- A 32-bit number is the mask of its bits. -/
theorem eq_maskOf {w : Word} {f : Nat → Bool} (h : ∀ i, i < 32 → w.getLsbD i = f i) : w = maskOf f := by
  refine BitVec.eq_of_getLsbD_eq fun i hi => ?_
  rw [getLsbD_maskOf, h i hi]; simp [hi]

/-! ## Lane results -/

@[simp] theorem flagged_push (W : Warp) (m : Mask) (f : Nat → Word) (loc : Loc) :
    (W.push m f).flagged loc = W.flagged loc := rfl

theorem due_writeV (W : Warp) (fr lat n : Nat) (m : Mask) (f : Nat → Word) (h : lat ≠ 0) :
    (W.writeV fr lat n m f).due (.lane n) = some lat := by
  simp [Warp.due, Warp.writeV, Warp.noteWrite, h]

/-- Marking flagged writes leaves the results in flight as they are. -/
theorem find_marked (l : List Early) (loc' loc : Loc) (m : Mask) (raw : List Word) :
    ((l.map (Early.contend loc' m raw)).find? (fun e => e.loc == loc && e.op.isNone)).map (·.left) =
      (l.find? (fun e => e.loc == loc && e.op.isNone)).map (·.left) := by
  induction l with
  | nil => rfl
  | cons e r ih =>
    simp only [List.map_cons, List.find?_cons, contend_loc, contend_op]
    split
    · simp
    · exact ih

theorem due_writeV_ne (W : Warp) (fr lat n : Nat) (m : Mask) (f : Nat → Word) (loc : Loc) (hn : loc ≠ .lane n)
    (h : lat ≠ 0) : (W.writeV fr lat n m f).due loc = W.due loc := by
  have hb : (Loc.lane n == loc) = false := by simpa using Ne.symm hn
  simp only [Warp.due, Warp.writeV, Warp.noteWrite, h, if_false, List.find?_cons, hb, Bool.false_and]
  rw [find_marked]

/-! ## Words that only change their warp -/

@[simp] theorem ctx_b (x : Slot) (s : State) (i : Instr) (mn : Meaning) (lit : Option Word) :
    (x.ctx s i mn lit).b = x.B.uid := rfl

@[simp] theorem ctx_idx (x : Slot) (s : State) (i : Instr) (mn : Meaning) (lit : Option Word) :
    (x.ctx s i mn lit).W.idx = x.W.idx := warp_idx x s i mn lit

/-- The context depends on a meaning through the registers it reads and writes by number, and the lanes it reads, alone. -/
theorem ctx_congr (x : Slot) (s : State) (i : Instr) {mn mn' : Meaning} (lit : Option Word)
    (h : mn'.dynWrites = mn.dynWrites) (hr : mn'.dynReads = mn.dynReads) (hm : mn'.readMask = mn.readMask) :
    x.ctx s i mn' lit = x.ctx s i mn lit := by
  simp only [Slot.ctx, Slot.warp, Warp.taking, h, hr, hm]

/-- A plain word whose effect is `onWarp g` completes with its own warp as g makes it, nothing else changed. -/
theorem Clear.warpEnds {i : Instr} {s : State} {x : Slot} {mn : Meaning} (h : Clear i mn s x) {lit : Option Word}
    {g : Iss → Warp} (hb : mn.body = onWarp g)
    (hg : (g (x.ctx s i mn lit)).idx = (x.ctx s i mn lit).W.idx) :
    issueLit i lit mn s = .next (s.setWarp x.B.uid (x.after s (g (x.ctx s i mn lit)))) := by
  refine h.ends ?_ (hg.trans (ctx_idx ..))
  rw [hb]; rfl

/-- A plain word is clear as the word of any effect that only changes its warp. -/
theorem Clear.plain {i : Instr} {s : State} {x : Slot} (h : Clear i plainCheck s x) (b : Iss → State → Res) :
    Clear i { body := b } s x := h.body rfl rfl rfl rfl

/-- A warp that keeps its registers takes no values. -/
theorem Warp.LanesTake.refl {W V : Warp} (h : V.v = W.v) : W.LanesTake V (fun _ _ => none) := by
  intro n l _; simp [Warp.vRaw, h]

theorem Warp.UniTakes.refl {W V : Warp} (h : V.w = W.w) : W.UniTakes V (fun _ => none) := by
  intro n; simp [Warp.wRaw, h]

theorem Warp.ThreadsKeep.refl {W V : Warp} (h : V.threads = W.threads) : W.ThreadsKeep V := by
  intro l; simp [Warp.thread, h]

theorem Warp.PredsTake.refl {W V : Warp} (h : V.threads = W.threads) : W.PredsTake V (fun _ _ => none) := by
  intro n l _; simp [Warp.thread, h]

theorem Warp.FxTakes.refl {W V : Warp} (h : V.threads = W.threads) : W.FxTakes V (fun _ => 0) := by
  intro l; simp [Warp.thread, h]

/-- Doing nothing. -/
theorem Warp.Shows.refl (W : Warp) : W.Shows W {} :=
  ⟨rfl, Warp.LanesTake.refl rfl, Warp.UniTakes.refl rfl, Warp.ThreadsKeep.refl rfl, Warp.PredsTake.refl rfl,
    Warp.FxTakes.refl rfl, rfl, by simp⟩

/-- A 32-bit lane result. -/
theorem Warp.Shows.putV (W : Warp) (fr : Nat) {lat : Nat} (hl : lat ≠ 0) (dst : BitVec 8) (m : Mask) (y : Nat → Word) :
    W.Shows (W.putV fr lat dst m y) (Effect.lane lat dst m y) := by
  have hf := putV_frame W fr lat dst m y
  have hd : ∀ d ∈ (Effect.lane lat dst m y).due, (W.putV fr lat dst m y).due d.1 = some d.2 := by
    intro d hd
    simp only [Effect.lane] at hd
    split at hd
    · next hlt =>
      rw [List.mem_singleton] at hd
      subst hd
      simp only [Warp.putV, hlt, if_true]
      exact due_writeV _ _ _ _ _ _ hl
    · cases hd
  have ht := putV_takes W fr lat dst m y
  generalize W.putV fr lat dst m y = V at *
  refine ⟨?_, ht, Warp.UniTakes.refl ?_, Warp.ThreadsKeep.refl ?_, Warp.PredsTake.refl ?_, Warp.FxTakes.refl ?_, ?_, hd⟩ <;>
    rw [hf]
  rfl

/-- A 64-bit lane result. -/
theorem Warp.Shows.putV64 (W : Warp) (fr : Nat) {lat : Nat} (hl : lat ≠ 0) (dst : BitVec 8) (m : Mask) (y : Nat → Dword) :
    W.Shows (W.putV64 fr lat dst m y) (Effect.pair lat dst m y) := by
  have hf := putV64_frame W fr lat dst m y
  have hd : ∀ d ∈ (Effect.pair lat dst m y).due, (W.putV64 fr lat dst m y).due d.1 = some d.2 := by
    intro d hd
    simp only [Effect.pair] at hd
    split at hd
    · next hlt =>
      simp only [List.mem_cons, List.not_mem_nil, or_false] at hd
      simp only [Warp.putV64, hlt, if_true]
      rcases hd with rfl | rfl
      · rw [due_writeV_ne _ _ _ _ _ _ _ (by simp) hl]
        exact due_writeV _ _ _ _ _ _ hl
      · exact due_writeV _ _ _ _ _ _ hl
    · cases hd
  have ht := putV64_takes W fr lat dst m y
  generalize W.putV64 fr lat dst m y = V at *
  refine ⟨?_, ht, Warp.UniTakes.refl ?_, Warp.ThreadsKeep.refl ?_, Warp.PredsTake.refl ?_, Warp.FxTakes.refl ?_, ?_, hd⟩ <;>
    rw [hf]
  rfl

/-- A push before an effect that pushes nothing. -/
theorem Warp.Shows.pushed {W V : Warp} {e : Effect} {m : Mask} {y : Nat → Word} (h : (W.push m y).Shows V e)
    : W.Shows V { e with push := (m, y) :: e.push } := by
  refine ⟨?_, h.lanes, h.unis, h.threads, h.preds, h.fx, ?_, h.due⟩
  · have := h.frame
    simpa [Warp.push] using this
  · have := h.latches
    simpa [Warp.push, Machine.pushed] using this

/-- Raising flags after an effect. -/
theorem Warp.Shows.raiseFx {W V : Warp} {e : Effect} (h : W.Shows V e) (m : Mask) (nf : Bool) (f : Nat → BitVec 5)
    (he : e.fx = fun _ => 0) : W.Shows (V.raiseFx m nf f) { e with fx := raised m nf f } := by
  have hf := raiseFx_frame V m nf f
  have hth := thread_raiseFx V m nf f
  generalize V.raiseFx m nf f = U at *
  have hfx : ∀ l, (U.thread l).fx = (W.thread l).fx ||| raised m nf f l := by
    intro l
    have h0 := h.fx l
    rw [he] at h0
    rw [hth l]
    unfold raised
    by_cases hc : nf = false ∧ m.getLsbD l = true
    · rw [if_pos hc, if_pos hc]; show (V.thread l).fx ||| f l = _; rw [h0]; simp
    · rw [if_neg hc, if_neg hc]; exact h0
  have hkeep : ∀ l, U.thread l = { V.thread l with fx := (U.thread l).fx } := by
    intro l; rw [hth l]; split <;> rfl
  have hV := h.frame
  refine ⟨?_, ?_, ?_, ?_, ?_, hfx, ?_, ?_⟩
  · rw [hf, hV]
  · have := h.lanes; rw [hf]; exact this
  · have := h.unis; rw [hf]; exact this
  · intro l; rw [hkeep l, h.threads l]
  · intro n l hn; rw [hkeep l]; exact h.preds n l hn
  · rw [hf]; exact h.latches
  · rw [hf]; exact h.due

/-- A plain word whose effect only changes its warp completes with that effect. -/
theorem Ends.of {i : Instr} {s : State} {x : Slot} {mn : Meaning} (h : Clear i mn s x) (g : Iss → Warp)
    {e : Iss → Effect} (hb : mn.body = onWarp g) (he : exec i s = issueLit i none mn s)
    (hs : ∀ c : Iss, c.W.Shows (g c) (e c)) : x.Ends s i mn e := by
  have hg : ∀ c : Iss, (g c).idx = c.W.idx := fun c => by rw [(hs c).frame]
  refine ⟨_, _, he.trans (h.warpEnds hb (hg _)), Slot.only_setWarp h.current ?_, hs _⟩
  rw [Slot.after, afterIteration_idx, hg, ctx_idx]

/-- The same, stated of a meaning that checks as this one does. -/
theorem Ends.congr {i : Instr} {s : State} {x : Slot} {mn mn' : Meaning} {e : Iss → Effect}
    (h : x.Ends s i mn e) (hw : mn'.dynWrites = mn.dynWrites) (hr : mn'.dynReads = mn.dynReads)
    (hm : mn'.readMask = mn.readMask) : x.Ends s i mn' e := by
  unfold Slot.Ends at *
  rwa [ctx_congr x s i none hw hr hm]

/-- The same for a plain word. -/
theorem Ends.plain {i : Instr} {s : State} {x : Slot} (h : Clear i plainCheck s x) (g : Iss → Warp)
    {e : Iss → Effect} (he : exec i s = issueLit i none { body := onWarp g } s)
    (hs : ∀ c : Iss, c.W.Shows (g c) (e c)) : x.Ends s i plainCheck e :=
  Ends.congr (Ends.of (h.plain (onWarp g)) g rfl he hs) rfl rfl rfl

/-- A word that writes and pushes a 32-bit result. -/
theorem Ends.alu {i : Instr} {s : State} {x : Slot} (h : Clear i plainCheck s x) {lat : Nat} (hl : lat ≠ 0)
    {dst : BitVec 8} {g : Iss → Nat → Word} (he : exec i s = issueLit i none { body := putPush lat dst g } s) :
    x.Ends s i plainCheck (fun c => Effect.alu lat dst c.exec (g c)) :=
  Ends.plain h _ he fun c => (Warp.Shows.putV _ c.fr hl dst c.exec (g c)).pushed

theorem Ends.alu64 {i : Instr} {s : State} {x : Slot} (h : Clear i plainCheck s x) {lat : Nat} (hl : lat ≠ 0)
    {dst : BitVec 8} {g : Iss → Nat → Dword} (he : exec i s = issueLit i none { body := putPush64 lat dst g } s) :
    x.Ends s i plainCheck (fun c => Effect.alu64 lat dst c.exec (g c)) :=
  Ends.plain h _ he fun c => (Warp.Shows.putV64 _ c.fr hl dst c.exec (g c)).pushed

/-! ## Uniform registers and predicates -/

/-- What a noted write leaves on its way: its own result, and every other location's as it was. -/
theorem due_noteWrite (W : Warp) (loc : Loc) (m : Mask) {lat : Nat} (hl : lat ≠ 0) :
    (W.noteWrite loc m lat).due loc = some lat := by
  simp [Warp.due, Warp.noteWrite, hl]

theorem due_noteWrite_ne (W : Warp) {loc loc' : Loc} (hn : loc' ≠ loc) (m : Mask) {lat : Nat} (hl : lat ≠ 0) :
    (W.noteWrite loc m lat).due loc' = W.due loc' := by
  have hb : (loc == loc') = false := by simpa using Ne.symm hn
  simp only [Warp.due, Warp.noteWrite, hl, if_false, List.find?_cons, hb, Bool.false_and]
  rw [find_marked]

/-- A uniform result. -/
theorem Warp.Shows.putW (W : Warp) (fr : Nat) {lat : Nat} (hl : lat ≠ 0) (dst : BitVec 8) (y : Word) :
    W.Shows (W.putW fr lat dst y) (Effect.uni lat dst y) := by
  have hf := putW_frame W fr lat dst y
  have hd : ∀ d ∈ (Effect.uni lat dst y).due, (W.putW fr lat dst y).due d.1 = some d.2 := by
    intro d hd
    simp only [Effect.uni] at hd
    split at hd
    · next hlt =>
      rw [List.mem_singleton] at hd
      subst hd
      simp only [Warp.putW, hlt, if_true]
      exact due_noteWrite W _ 1 hl
    · cases hd
  have ht := putW_takes W fr lat dst y
  generalize W.putW fr lat dst y = V at *
  refine ⟨?_, Warp.LanesTake.refl ?_, ht, Warp.ThreadsKeep.refl ?_, Warp.PredsTake.refl ?_, Warp.FxTakes.refl ?_, ?_, hd⟩ <;>
    rw [hf]
  rfl

/-- A predicate result. -/
theorem Warp.Shows.writeP (W : Warp) {lat : Nat} (hl : lat ≠ 0) (n : Nat) (m : Mask) (y : Nat → Bool) :
    W.Shows (W.writeP lat n m y) (Effect.pred lat n m y) := by
  have hf := writeP_frame W lat n m y
  have hth := thread_writeP W lat n m y
  have hd : ∀ d ∈ (Effect.pred lat n m y).due, (W.writeP lat n m y).due d.1 = some d.2 := by
    intro d hd
    simp only [Effect.pred] at hd
    split at hd
    · cases hd
    · next hne =>
      rw [List.mem_singleton] at hd
      subst hd
      have := due_noteWrite W (.pred n) m hl
      simpa only [Warp.writeP, hne, if_false, Warp.mapThreads, Warp.due] using this
  generalize W.writeP lat n m y = V at *
  refine ⟨?_, Warp.LanesTake.refl ?_, Warp.UniTakes.refl ?_, ?_, ?_, ?_, ?_, hd⟩
  · rw [hf]
  · rw [hf]
  · rw [hf]
  · intro l; rw [hth l]; split <;> rfl
  · intro k l hk
    rw [hth l]
    simp only [Effect.pred, toPred]
    by_cases hm : m.getLsbD l = true
    · by_cases hn : n = 7
      · have : ¬ (k = n ∧ m.getLsbD l = true) := by omega
        rw [if_neg (by simp [hn]), if_neg this]; rfl
      · simp only [ne_eq, hn, not_false_eq_true, hm, and_self, if_true, and_true]
        rw [getLsbD_setBit7 _ _ _ _ hk]
        by_cases h : k = n <;> simp [h]
    · simp [hm]
  · intro l; rw [hth l]; split <;> simp [Effect.pred]
  · show V.latches = W.latches
    rw [hf]

end Sys2Proof.Machine
end

