-- ==== Sys2Proof/Laws/Exec.lean ====
section
/-!
SUPPORT. What `exec` of a word comes to before the word's own effect: every word is issued by a meaning; what not being
ready, and failing a check, comes to.
-/
namespace Sys2Proof.Machine

set_option maxRecDepth 4000 in
/-- Every word of a program is issued by a meaning. -/
theorem exec_word {i : Instr} {w : BitVec 64} (h : encode i = some w) (s : State) :
    ∃ lit mn, exec i s = issueLit i lit mn s := by
  cases i <;> first
    | exact ⟨_, _, rfl⟩
    | (simp only [encode, reduceCtorEq] at h)

end Sys2Proof.Machine
end

