-- ==== Sys2Proof/Laws/Control.lean ====
section
/-!
SUPPORT. A word that does not reach its own effect, or whose effect is a trap: failed checks, traps, threads at issue,
transfers of control.
-/
namespace Sys2Proof.Machine

/-! ## Words that trap -/

/-- A word that fails a check of R86 traps with none of its effect. -/
theorem Issues.failed {i : Instr} {lit : Option Word} {mn : Meaning} {s : State} {x : Slot} (h : Issues i s x)
    {f : Failure}
    (hf : checkWord (x.tested s i) x.h mn (x.chain s) (x.addr s) =
      .error f) :
    issueLit i lit mn s = .next (x.trapped s f.1 f.2.1 f.2.2.1 f.2.2.2) := by
  unfold issueLit
  simp only [h.current, h.shape, h.ctl, h.runs]
  unfold issueAt
  have hb := h.noBreak
  simp only [Slot.tested, Slot.chain, Slot.addr, Slot.site, Slot.begun] at hb hf
  simp only [h.mayIssue, h.ready, hb, hf, Bool.and_self, Bool.not_true, Bool.false_eq_true, if_false]
  rfl

/-- A word that must migrate (R86 step 5) does. -/
theorem Issues.migrates {i : Instr} {lit : Option Word} {mn : Meaning} {s : State} {x : Slot} (h : Issues i s x)
    (hf : checkWord (x.tested s i) x.h mn (x.chain s) (x.addr s) =
      .ok true) :
    issueLit i lit mn s = .next (s.takeMigrate x.B.uid x.W.idx x.run (x.addr s) (x.resume s)) := by
  unfold issueLit
  simp only [h.current, h.shape, h.ctl, h.runs]
  unfold issueAt
  have hb := h.noBreak
  simp only [Slot.tested, Slot.chain, Slot.addr, Slot.site, Slot.begun] at hb hf
  simp only [h.mayIssue, h.ready, hb, hf, Bool.and_self, Bool.not_true, Bool.false_eq_true, if_false]
  rfl

/-- A clear word whose effect comes to a precise trap. -/
theorem Clear.traps {i : Instr} {lit : Option Word} {mn : Meaning} {s : State} {x : Slot} (h : Clear i mn s x)
    {cause addr : Nat} {aux : Mask}
    (hb : mn.body (x.ctx s i mn lit) (x.state s i mn lit) = .trap cause addr aux) :
    issueLit i lit mn s = .next (x.trapped s cause (if isDual i then 2 else 0) addr aux) := by
  rw [issueLit_clear h, hb]; rfl

/-- A clear word that traps after its effect (TRAP, BRK). -/
theorem Clear.trapsAfter {i : Instr} {lit : Option Word} {mn : Meaning} {s : State} {x : Slot} (h : Clear i mn s x)
    {cause addr : Nat} {aux m : Mask}
    (hb : mn.body (x.ctx s i mn lit) (x.state s i mn lit) = .trapAfter cause addr aux m) :
    issueLit i lit mn s = .next ((s.setWarp x.B.uid (x.ctx s i mn lit).W).takeTrap x.B.uid x.W.idx
      ⟨cause, x.addr s, 0, addr, aux, m, (x.site s).2, (x.site s).1.pc⟩) := by
  rw [issueLit_clear h, hb]; rfl

/-! ## The checks of R86 one by one -/

theorem litOk_prev {W V : Warp} (hp : W.prev = V.prev) (h : Shape) (run : Mask) (a : BitVec 52) :
    litOk W h run a = litOk V h run a := by
  unfold litOk; rw [hp]

theorem any_not_ok (l : List Piece) : (l.map (fun q => !q.ok)).any id = l.any (fun q => !q.ok) := by
  rw [List.any_map]; rfl

theorem checkWord_illegal {h : Shape} (hp : h.pieces.any (fun q => !q.ok) = true) (c : Iss) (mn : Meaning)
    (chain : Option PrevWord) (a : BitVec 52) :
    checkWord c h mn chain a = .error (causeIllegal, halfCode (h.pieces.map (fun q => !q.ok)), 0, 0) := by
  unfold checkWord
  simp only [any_not_ok, hp, if_true]

theorem checkWord_lit {h : Shape} (hp : h.pieces.any (fun q => !q.ok) = false) {c : Iss} {a : BitVec 52}
    (hl : litOk c.W h c.run a = false) (mn : Meaning) (chain : Option PrevWord) :
    checkWord c h mn chain a = .error (causeIllegal, halfCode (h.pieces.map (fun _ => true)), 0, 0) := by
  unfold checkWord
  simp only [any_not_ok, hp, hl, Bool.false_eq_true, if_false, Bool.not_false, if_true]

theorem checkWord_bank {h : Shape} (hp : h.pieces.any (fun q => !q.ok) = false) {c : Iss} {a : BitVec 52}
    (hl : litOk c.W h c.run a = true) (hb : h.bankOk = false) (mn : Meaning) (chain : Option PrevWord) :
    checkWord c h mn chain a = .error (causeBank, halfCode (h.pieces.map (fun _ => true)), 0, 0) := by
  unfold checkWord
  simp only [any_not_ok, hp, hl, hb, Bool.false_eq_true, if_false, Bool.not_false, Bool.not_true, if_true]

theorem checkWord_chain {h : Shape} (hp : h.pieces.any (fun q => !q.ok) = false) {c : Iss} {a : BitVec 52}
    (hl : litOk c.W h c.run a = true) (hb : h.bankOk = true) {chain : Option PrevWord} (hc : chainOk chain h = false)
    (mn : Meaning) :
    checkWord c h mn chain a = .error (causeChain, halfCode (h.pieces.map (fun _ => true)), 0, 0) := by
  unfold checkWord
  simp only [any_not_ok, hp, hl, hb, hc, Bool.false_eq_true, if_false, Bool.not_false, Bool.not_true, if_true]

theorem checkWord_migrates {h : Shape} (hp : h.pieces.any (fun q => !q.ok) = false) {c : Iss} {a : BitVec 52}
    (hl : litOk c.W h c.run a = true) (hb : h.bankOk = true) {chain : Option PrevWord} (hc : chainOk chain h = true)
    (hm : (h.mig && coreClass c.W.core == 1) = true) (mn : Meaning) : checkWord c h mn chain a = .ok true := by
  unfold checkWord
  simp only [Bool.and_eq_true, beq_iff_eq] at hm
  simp [hp, hl, hb, hc, hm]

/-- A word of one piece, of group BASE, that names neither tile nor barrier: its registers outside the allotment decide. -/
theorem checkWord_bounds {h : Shape} {q : Piece} (hq : h.pieces = [q]) (hok : q.ok = true) {c : Iss} {a : BitVec 52}
    (hl : litOk c.W h c.run a = true) (hb : h.bankOk = true) {chain : Option PrevWord} (hc : chainOk chain h = true)
    (hm : h.mig = false) (ht : h.tile = none) (hbar : h.bar = none) (hr : c.W.rep = none)
    (hne : q.outOf c.B.a c.B.u ≠ []) (mn : Meaning) :
    checkWord c h mn chain a = .error (causeRegBounds, 0, minOr 0 (q.outOf c.B.a c.B.u), c.run) := by
  unfold checkWord
  have hne' : (q.outOf c.B.a c.B.u).isEmpty = false := by simpa using hne
  simp [hq, hok, hl, hb, hc, hm, ht, hbar, hr, hne', halfCode]

/-! ## What issue leaves of a warp -/

/-- Issue changes threads, values on their way, flags and the cycle noted, nothing else. -/
theorem begin_frame (W : Warp) (run : Mask) (next : BitVec 52) (dist : Nat) (setf : BitVec 4) (now : Nat) :
    W.begin run next dist setf now = { W with
      threads := (W.begin run next dist setf now).threads, early := (W.begin run next dist setf now).early
      flags := (W.begin run next dist setf now).flags, lastIssue := some now } := by
  simp only [Warp.begin, Warp.advanceEarly, Warp.mapThreads]

/-- A warp's reads depend on its registers, threads and values on their way alone. -/
theorem readLoc_congr {V W : Warp} (hv : V.v = W.v) (hw : V.w = W.w) (ht : V.threads = W.threads)
    (he : V.early = W.early) (fr : Nat) (loc : Loc) (l : Nat) : V.readLoc fr loc l = W.readLoc fr loc l := by
  have hn : V.nowAt loc l = W.nowAt loc l := by
    unfold Warp.nowAt Warp.vRaw Warp.wRaw Warp.pRaw Warp.thread
    rw [hv, hw, ht]
  unfold Warp.readLoc
  rw [hn, he]

/-- What issue does not change. -/
theorem begun_rep (x : Slot) (s : State) (i : Instr) : (x.begun s i).W.rep = x.W.rep := by
  simp only [Slot.begun, State.issFor, Warp.heard, Warp.begin, Warp.advanceEarly, Warp.mapThreads]

theorem begun_core (x : Slot) (s : State) (i : Instr) : (x.begun s i).W.core = x.W.core := by
  simp only [Slot.begun, State.issFor, Warp.heard, Warp.begin, Warp.advanceEarly, Warp.mapThreads]

theorem ctx_handler (x : Slot) (s : State) (i : Instr) (mn : Meaning) (lit : Option Word) :
    (x.ctx s i mn lit).W.handler = x.W.handler := by
  simp only [Slot.ctx, Slot.warp, Warp.taking, Warp.heal, Warp.clearBad, Slot.begun, State.issFor, Warp.heard, Warp.begin, Warp.advanceEarly,
    Warp.mapThreads]

theorem ctx_trap (x : Slot) (s : State) (i : Instr) (mn : Meaning) (lit : Option Word) :
    (x.ctx s i mn lit).W.trap = x.W.trap := by
  simp only [Slot.ctx, Slot.warp, Warp.taking, Warp.heal, Warp.clearBad, Slot.begun, State.issFor, Warp.heard, Warp.begin, Warp.advanceEarly,
    Warp.mapThreads]

theorem ctx_flags (x : Slot) (s : State) (i : Instr) (mn : Meaning) (lit : Option Word) :
    (x.ctx s i mn lit).W.flags = if x.h.setf.toNat < 12
      then tset 0 x.W.flags x.h.setf.toNat (tget 0 x.W.flags x.h.setf.toNat + 1) else x.W.flags := by
  simp only [Slot.ctx, Slot.warp, Warp.taking, Warp.heal, Warp.clearBad, Slot.begun, State.issFor, Warp.heard, Warp.begin, Warp.advanceEarly,
    Warp.mapThreads]

theorem readLoc_ctx (x : Slot) (s : State) (i : Instr) (mn : Meaning) (lit : Option Word) (fr : Nat) (loc : Loc)
    (l : Nat) : (x.ctx s i mn lit).W.readLoc fr loc l = (x.begun s i).W.readLoc fr loc l :=
  readLoc_congr (by simp only [Slot.ctx, Slot.warp, Warp.taking, Warp.heal, Warp.clearBad])
    (by simp only [Slot.ctx, Slot.warp, Warp.taking, Warp.heal, Warp.clearBad])
    (by simp only [Slot.ctx, Slot.warp, Warp.taking, Warp.heal, Warp.clearBad])
    (by simp only [Slot.ctx, Slot.warp, Warp.taking, Warp.heal, Warp.clearBad]) fr loc l

theorem pAt_ctx (x : Slot) (s : State) (i : Instr) (mn : Meaning) (lit : Option Word) (fr n l : Nat) :
    (x.ctx s i mn lit).W.pAt fr n l = (x.begun s i).W.pAt fr n l := by
  unfold Warp.pAt; rw [readLoc_ctx]

/-- The lanes that execute (R65). -/
theorem getLsbD_execMask (W : Warp) (fr : Nat) (run : Mask) (pred : BitVec 3) (pneg : Bool) (l : Nat) :
    (W.execMask fr run pred pneg).getLsbD l = (run.getLsbD l && (pred == 7 || W.pAt fr pred.toNat l != pneg)) := by
  unfold Warp.execMask
  split
  · next h => simp [h]
  · next h =>
    have hp : (pred == 7) = false := by simpa using h
    rw [getLsbD_maskOf, hp]
    by_cases hl : l < 32
    · simp [hl]
    · have : run.getLsbD l = false := BitVec.getLsbD_of_ge _ _ (by omega)
      simp [hl, this]

/-- The warp an effect finds is the word's own but for what issue changes. -/
theorem ctx_frame (x : Slot) (s : State) (i : Instr) (mn : Meaning) (lit : Option Word) :
    (x.ctx s i mn lit).W = { x.W with
      threads := (x.ctx s i mn lit).W.threads, flags := (x.ctx s i mn lit).W.flags
      lastIssue := some (s.clockOf x.W.core), early := (x.ctx s i mn lit).W.early, prev := (x.ctx s i mn lit).W.prev
      skip := (x.ctx s i mn lit).W.skip, unwaited := (x.ctx s i mn lit).W.unwaited
      badV := (x.ctx s i mn lit).W.badV, badW := (x.ctx s i mn lit).W.badW
      weakV := (x.ctx s i mn lit).W.weakV, weakW := (x.ctx s i mn lit).W.weakW, fixed := (x.ctx s i mn lit).W.fixed } := by
  simp only [Slot.ctx, Slot.warp, Warp.taking, Warp.heal, Slot.begun, State.issFor, Warp.clearBad, Warp.heard, Warp.begin,
    Warp.advanceEarly, Warp.mapThreads]

/-! ## The checks at issue -/

theorem tested_prev (x : Slot) (s : State) (i : Instr) : (x.tested s i).W.prev = x.W.prev := by
  simp only [Slot.tested]

theorem tested_lit (x : Slot) (s : State) (i : Instr) :
    litOk (x.tested s i).W x.h (x.tested s i).run (x.addr s) = litOk x.W x.h x.run (x.addr s) :=
  litOk_prev (tested_prev x s i) _ _ _

theorem tested_rep (x : Slot) (s : State) (i : Instr) : (x.tested s i).W.rep = x.W.rep := begun_rep x s i

theorem tested_core (x : Slot) (s : State) (i : Instr) : (x.tested s i).W.core = x.W.core := begun_core x s i

/-! ## Threads -/

theorem thread_begin (W : Warp) (run : Mask) (next : BitVec 52) (dist : Nat) (setf : BitVec 4) (now l : Nat) :
    (W.begin run next dist setf now).thread l =
      if run.getLsbD l then { W.thread l with pc := next, y := false }
      else if (W.thread l).status = .eligible then { W.thread l with y := false } else W.thread l := by
  have h : (W.begin run next dist setf now).thread l = (W.mapThreads (fun l t =>
      if run.getLsbD l then { t with pc := next, y := false }
      else if t.status == TStatus.eligible then { t with y := false } else t)).thread l := by
    simp only [Warp.thread, Warp.begin, Warp.advanceEarly]
  rw [h, thread_mapThreads]
  by_cases hl : l < 32
  · simp [hl]
  · have : run.getLsbD l = false := BitVec.getLsbD_of_ge _ _ (by omega)
    simp [hl, this, thread_beyond W hl, Thread.reset]

/-- The threads a word's effect finds are those its issue left. -/
theorem thread_ctx (x : Slot) (s : State) (i : Instr) (mn : Meaning) (lit : Option Word) (l : Nat) :
    (x.ctx s i mn lit).W.thread l =
      (x.W.begin x.run (x.site s).2 x.k.dist.toNat x.h.setf (s.clockOf x.W.core)).thread l := by
  simp only [Slot.ctx, Slot.warp, Warp.taking, Warp.heal, Slot.begun, State.issFor, Warp.clearBad, Warp.heard, Warp.begin,
    Warp.advanceEarly, Warp.mapThreads, Warp.thread]

theorem thread_goto (W : Warp) (m : Mask) (f : Nat → BitVec 52) (l : Nat) :
    (W.goto m f).thread l = { W.thread l with pc := if m.getLsbD l = true then f l else (W.thread l).pc } := by
  have h := thread_mapThreads W (fun l t => if m.getLsbD l then { t with pc := f l } else t) l
  unfold Warp.goto
  rw [h]
  by_cases hl : l < 32
  · by_cases hm : m.getLsbD l = true <;> simp only [hl, hm, if_true, Bool.false_eq_true, if_false]
  · have : m.getLsbD l = false := BitVec.getLsbD_of_ge _ _ (by omega)
    simp [hl, this, thread_beyond W hl, Thread.reset]

theorem goto_frame (W : Warp) (m : Mask) (f : Nat → BitVec 52) :
    W.goto m f = { W with threads := (W.goto m f).threads } := by
  simp only [Warp.goto, Warp.mapThreads]

theorem modThreads_frame (W : Warp) (m : Mask) (f : Thread → Thread) :
    W.modThreads m f = { W with threads := (W.modThreads m f).threads } := by
  simp only [Warp.modThreads, Warp.mapThreads]

theorem thread_wake (W : Warp) (k : ParkKind) (l : Nat) :
    (W.wake k).thread l = if (W.thread l).status = .parked k then { W.thread l with status := .eligible } else W.thread l := by
  unfold Warp.wake
  rw [thread_mapThreads]
  by_cases hl : l < 32
  · simp [hl]
  · simp [hl, thread_beyond W hl, Thread.reset]

theorem wake_frame (W : Warp) (k : ParkKind) : W.wake k = { W with threads := (W.wake k).threads } := by
  simp only [Warp.wake, Warp.mapThreads]

/-- The marks clear when the issue unit has chosen its run (R20), and nothing else of a thread changes. -/
theorem thread_unmarked (W : Warp) (l : Nat) :
    W.unmarked.thread l = if (W.thread l).status = .eligible then { W.thread l with y := false } else W.thread l := by
  unfold Warp.unmarked
  rw [thread_mapThreads]
  by_cases hl : l < 32
  · simp [hl]
  · simp [hl, thread_beyond W hl, Thread.reset]

/-- What the choice of a run at an address changes: the marks, and a break-skip record of that address (R161). -/
theorem chosen_frame (W : Warp) (a : BitVec 52) :
    W.chosen a = { W with threads := W.unmarked.threads, skip := (W.chosen a).skip } ∧
      ((W.chosen a).skip = W.skip ∨ W.skip.valid = true ∧ W.skip.addr = a ∧ (W.chosen a).skip = { W.skip with valid := false }) := by
  refine ⟨by simp only [Warp.chosen, Warp.unmarked, Warp.mapThreads], ?_⟩
  unfold Warp.chosen
  by_cases h : (W.skip.valid && W.skip.addr == a) = true
  · right
    simp only [h, if_true]
    simpa [and_assoc] using h
  · left
    simp only [h, if_false, Bool.false_eq_true]

/-- What a trap, a capture or a held word ends in a warp: ALU results in flight, and the chain and the REP sequence of its own
run, no other (R27, R60, R81, R85). -/
theorem quiesce_frame (m : Mask) (W : Warp) :
    Warp.quiesce m W = { W with early := (Warp.quiesce m W).early, prev := (Warp.quiesce m W).prev, rep := (Warp.quiesce m W).rep } ∧
      (∀ p, W.prev = some p → p.run &&& m = 0 → (Warp.quiesce m W).prev = some p) ∧
      (∀ r, W.rep = some r → r.run &&& m = 0 → (Warp.quiesce m W).rep = some r) := by
  refine ⟨by simp only [Warp.quiesce, Warp.complete], ?_, ?_⟩
  · intro p hp hm; simp [Warp.quiesce, hp, hm]
  · intro r hr hm; simp [Warp.quiesce, hr, hm]

/-! ## Plain words that only change their warp -/

/-- What such a word's outcome is. -/
theorem Clear.plainEnds {i : Instr} {lit : Option Word} {s : State} {x : Slot} (h : Clear i plainCheck s x)
    {g : Iss → Warp} (he : exec i s = issueLit i lit { body := onWarp g } s) (hg : ∀ c, (g c).idx = c.W.idx) :
    ∃ t, exec i s = .next t ∧ x.Only s t (x.after s (g (x.ctx s i plainCheck lit))) := by
  refine ⟨_, he.trans (Clear.warpEnds (h.plain _) rfl (hg _)), Slot.only_setWarp h.current ?_⟩
  rw [Slot.after, afterIteration_idx, hg, ctx_idx]

/-- A word that does nothing of its own. -/
theorem Clear.plainNop {i : Instr} {lit : Option Word} {s : State} {x : Slot} (h : Clear i plainCheck s x)
    (he : exec i s = issueLit i lit { body := fun _ s => .ok s } s) :
    ∃ t, exec i s = .next t ∧ x.Only s t (x.after s (x.ctx s i plainCheck lit).W) := by
  refine ⟨_, he.trans (Clear.ends (h.plain _) (V := (x.ctx s i plainCheck lit).W) ?_ (ctx_idx ..)),
    Slot.only_setWarp h.current ?_⟩
  · exact congrArg Res.ok (setWarp_setWarp _ _ rfl).symm
  · rw [Slot.after, afterIteration_idx, ctx_idx]

/-- The outcome of a plain word, whatever its effect comes to. -/
theorem Clear.plainOutcome {i : Instr} {lit : Option Word} {s : State} {x : Slot} (h : Clear i plainCheck s x)
    {body : Iss → State → Res} (he : exec i s = issueLit i lit { body := body } s) :
    exec i s = .next (s.finish (x.begun s i) (x.warp s i plainCheck lit) (x.site s).1 (x.site s).2 (x.resume s)
      (if isDual i then 2 else 0) (body (x.ctx s i plainCheck lit) (x.state s i plainCheck lit))) :=
  he.trans (issueLit_clear (h.plain body))

/-- A plain word whose effect comes to a state. -/
theorem Clear.plainCloses {i : Instr} {lit : Option Word} {s t : State} {x : Slot} (h : Clear i plainCheck s x)
    {body : Iss → State → Res} (he : exec i s = issueLit i lit { body := body } s)
    (hb : body (x.ctx s i plainCheck lit) (x.state s i plainCheck lit) = .ok t) :
    exec i s = .next (x.closed s t) := by
  rw [h.plainOutcome he, hb]; rfl

theorem Clear.plainTraps {i : Instr} {lit : Option Word} {s : State} {x : Slot} (h : Clear i plainCheck s x)
    {body : Iss → State → Res} (he : exec i s = issueLit i lit { body := body } s) {cause addr : Nat} {aux : Mask}
    (hb : body (x.ctx s i plainCheck lit) (x.state s i plainCheck lit) = .trap cause addr aux) :
    exec i s = .next (x.trapped s cause (if isDual i then 2 else 0) addr aux) := by
  rw [h.plainOutcome he, hb]; rfl

theorem Clear.plainTrapsAfter {i : Instr} {lit : Option Word} {s : State} {x : Slot} (h : Clear i plainCheck s x)
    {body : Iss → State → Res} (he : exec i s = issueLit i lit { body := body } s) {cause addr : Nat} {aux m : Mask}
    (hb : body (x.ctx s i plainCheck lit) (x.state s i plainCheck lit) = .trapAfter cause addr aux m) :
    exec i s = .next ((s.setWarp x.B.uid (x.ctx s i plainCheck lit).W).takeTrap x.B.uid x.W.idx
      ⟨cause, x.addr s, 0, addr, aux, m, (x.site s).2, (x.site s).1.pc⟩) := by
  rw [h.plainOutcome he, hb]; rfl

/-- One whose effect only puts its own warp as V. -/
theorem Clear.plainPuts {i : Instr} {lit : Option Word} {s : State} {x : Slot} (h : Clear i plainCheck s x)
    {body : Iss → State → Res} (he : exec i s = issueLit i lit { body := body } s) {V : Warp} (hV : V.idx = x.W.idx)
    (hb : body (x.ctx s i plainCheck lit) (x.state s i plainCheck lit) =
      .ok ((x.state s i plainCheck lit).setWarp x.B.uid V)) :
    ∃ t, exec i s = .next t ∧ x.Only s t (x.after s V) := by
  refine ⟨_, he.trans (Clear.ends (h.plain _) hb hV), Slot.only_setWarp h.current ?_⟩
  rw [Slot.after, afterIteration_idx, hV]

/-- One that comes to no change. -/
theorem Clear.plainStays {i : Instr} {lit : Option Word} {s : State} {x : Slot} (h : Clear i plainCheck s x)
    {body : Iss → State → Res} (he : exec i s = issueLit i lit { body := body } s)
    (hb : body (x.ctx s i plainCheck lit) (x.state s i plainCheck lit) = .ok (x.state s i plainCheck lit)) :
    ∃ t, exec i s = .next t ∧ x.Only s t (x.after s (x.ctx s i plainCheck lit).W) :=
  h.plainPuts he (ctx_idx ..) (hb.trans (congrArg Res.ok (setWarp_setWarp _ _ rfl).symm))

theorem goto_idx (W : Warp) (m : Mask) (f : Nat → BitVec 52) : (W.goto m f).idx = W.idx := rfl

end Sys2Proof.Machine
end

