-- ==== Sys2Proof/Laws/State.lean ====
section
/-!
SUPPORT. What each update of the state leaves: one lemma for each update and each field it does not touch, so that no proof
unfolds a record update; and what the simplest updates put in the field they do.
-/
namespace Sys2Proof.Machine

/-! Updates of blocks and warps touch `blocks` alone. -/

@[simp] theorem State.setBlock_allocs (s : State) (B : Block) : (s.setBlock B).allocs = s.allocs := rfl
@[simp] theorem State.setBlock_launches (s : State) (B : Block) : (s.setBlock B).launches = s.launches := rfl
@[simp] theorem State.setBlock_images (s : State) (B : Block) : (s.setBlock B).images = s.images := rfl
@[simp] theorem State.setBlock_mem (s : State) (B : Block) : (s.setBlock B).mem = s.mem := rfl
@[simp] theorem State.setBlock_cores (s : State) (B : Block) : (s.setBlock B).cores = s.cores := rfl
@[simp] theorem State.setBlock_subps (s : State) (B : Block) : (s.setBlock B).subps = s.subps := rfl
@[simp] theorem State.setBlock_dies (s : State) (B : Block) : (s.setBlock B).dies = s.dies := rfl
@[simp] theorem State.setBlock_faults (s : State) (B : Block) : (s.setBlock B).faults = s.faults := rfl
@[simp] theorem State.setBlock_host (s : State) (B : Block) : (s.setBlock B).host = s.host := rfl
@[simp] theorem State.setBlock_peers (s : State) (B : Block) : (s.setBlock B).peers = s.peers := rfl
@[simp] theorem State.setBlock_kv (s : State) (B : Block) : (s.setBlock B).kv = s.kv := rfl
@[simp] theorem State.setBlock_selq (s : State) (B : Block) : (s.setBlock B).selq = s.selq := rfl
@[simp] theorem State.setBlock_tup (s : State) (B : Block) : (s.setBlock B).tup = s.tup := rfl
@[simp] theorem State.setBlock_sx (s : State) (B : Block) : (s.setBlock B).sx = s.sx := rfl
@[simp] theorem State.setBlock_trust (s : State) (B : Block) : (s.setBlock B).trust = s.trust := rfl
@[simp] theorem State.setBlock_tel (s : State) (B : Block) : (s.setBlock B).tel = s.tel := rfl
@[simp] theorem State.setBlock_time (s : State) (B : Block) : (s.setBlock B).time = s.time := rfl
@[simp] theorem State.setBlock_epoch (s : State) (B : Block) : (s.setBlock B).epoch = s.epoch := rfl
@[simp] theorem State.setBlock_debugger (s : State) (B : Block) : (s.setBlock B).debugger = s.debugger := rfl
@[simp] theorem State.setBlock_tripped (s : State) (B : Block) : (s.setBlock B).tripped = s.tripped := rfl
@[simp] theorem State.setBlock_telemetry (s : State) (B : Block) : (s.setBlock B).telemetry = s.telemetry := rfl
@[simp] theorem State.setBlock_nextUid (s : State) (B : Block) : (s.setBlock B).nextUid = s.nextUid := rfl
@[simp] theorem State.setBlock_fresh (s : State) (B : Block) : (s.setBlock B).fresh = s.fresh := rfl
@[simp] theorem State.setBlock_cur (s : State) (B : Block) : (s.setBlock B).cur = s.cur := rfl
@[simp] theorem State.setBlock_schedule (s : State) (B : Block) : (s.setBlock B).schedule = s.schedule := rfl

@[simp] theorem State.setWarp_allocs (s : State) (b : Nat) (W : Warp) : (s.setWarp b W).allocs = s.allocs := rfl
@[simp] theorem State.setWarp_launches (s : State) (b : Nat) (W : Warp) : (s.setWarp b W).launches = s.launches := rfl
@[simp] theorem State.setWarp_images (s : State) (b : Nat) (W : Warp) : (s.setWarp b W).images = s.images := rfl
@[simp] theorem State.setWarp_mem (s : State) (b : Nat) (W : Warp) : (s.setWarp b W).mem = s.mem := rfl
@[simp] theorem State.setWarp_cores (s : State) (b : Nat) (W : Warp) : (s.setWarp b W).cores = s.cores := rfl
@[simp] theorem State.setWarp_subps (s : State) (b : Nat) (W : Warp) : (s.setWarp b W).subps = s.subps := rfl
@[simp] theorem State.setWarp_dies (s : State) (b : Nat) (W : Warp) : (s.setWarp b W).dies = s.dies := rfl
@[simp] theorem State.setWarp_faults (s : State) (b : Nat) (W : Warp) : (s.setWarp b W).faults = s.faults := rfl
@[simp] theorem State.setWarp_host (s : State) (b : Nat) (W : Warp) : (s.setWarp b W).host = s.host := rfl
@[simp] theorem State.setWarp_peers (s : State) (b : Nat) (W : Warp) : (s.setWarp b W).peers = s.peers := rfl
@[simp] theorem State.setWarp_kv (s : State) (b : Nat) (W : Warp) : (s.setWarp b W).kv = s.kv := rfl
@[simp] theorem State.setWarp_selq (s : State) (b : Nat) (W : Warp) : (s.setWarp b W).selq = s.selq := rfl
@[simp] theorem State.setWarp_tup (s : State) (b : Nat) (W : Warp) : (s.setWarp b W).tup = s.tup := rfl
@[simp] theorem State.setWarp_sx (s : State) (b : Nat) (W : Warp) : (s.setWarp b W).sx = s.sx := rfl
@[simp] theorem State.setWarp_trust (s : State) (b : Nat) (W : Warp) : (s.setWarp b W).trust = s.trust := rfl
@[simp] theorem State.setWarp_tel (s : State) (b : Nat) (W : Warp) : (s.setWarp b W).tel = s.tel := rfl
@[simp] theorem State.setWarp_time (s : State) (b : Nat) (W : Warp) : (s.setWarp b W).time = s.time := rfl
@[simp] theorem State.setWarp_epoch (s : State) (b : Nat) (W : Warp) : (s.setWarp b W).epoch = s.epoch := rfl
@[simp] theorem State.setWarp_debugger (s : State) (b : Nat) (W : Warp) : (s.setWarp b W).debugger = s.debugger := rfl
@[simp] theorem State.setWarp_tripped (s : State) (b : Nat) (W : Warp) : (s.setWarp b W).tripped = s.tripped := rfl
@[simp] theorem State.setWarp_telemetry (s : State) (b : Nat) (W : Warp) : (s.setWarp b W).telemetry = s.telemetry := rfl
@[simp] theorem State.setWarp_nextUid (s : State) (b : Nat) (W : Warp) : (s.setWarp b W).nextUid = s.nextUid := rfl
@[simp] theorem State.setWarp_fresh (s : State) (b : Nat) (W : Warp) : (s.setWarp b W).fresh = s.fresh := rfl
@[simp] theorem State.setWarp_cur (s : State) (b : Nat) (W : Warp) : (s.setWarp b W).cur = s.cur := rfl
@[simp] theorem State.setWarp_schedule (s : State) (b : Nat) (W : Warp) : (s.setWarp b W).schedule = s.schedule := rfl

@[simp] theorem State.modWarp_allocs (s : State) (b w : Nat) (f : Warp → Warp) : (s.modWarp b w f).allocs = s.allocs := by unfold State.modWarp; split <;> rfl
@[simp] theorem State.modWarp_launches (s : State) (b w : Nat) (f : Warp → Warp) : (s.modWarp b w f).launches = s.launches := by unfold State.modWarp; split <;> rfl
@[simp] theorem State.modWarp_images (s : State) (b w : Nat) (f : Warp → Warp) : (s.modWarp b w f).images = s.images := by unfold State.modWarp; split <;> rfl
@[simp] theorem State.modWarp_mem (s : State) (b w : Nat) (f : Warp → Warp) : (s.modWarp b w f).mem = s.mem := by unfold State.modWarp; split <;> rfl
@[simp] theorem State.modWarp_cores (s : State) (b w : Nat) (f : Warp → Warp) : (s.modWarp b w f).cores = s.cores := by unfold State.modWarp; split <;> rfl
@[simp] theorem State.modWarp_subps (s : State) (b w : Nat) (f : Warp → Warp) : (s.modWarp b w f).subps = s.subps := by unfold State.modWarp; split <;> rfl
@[simp] theorem State.modWarp_dies (s : State) (b w : Nat) (f : Warp → Warp) : (s.modWarp b w f).dies = s.dies := by unfold State.modWarp; split <;> rfl
@[simp] theorem State.modWarp_faults (s : State) (b w : Nat) (f : Warp → Warp) : (s.modWarp b w f).faults = s.faults := by unfold State.modWarp; split <;> rfl
@[simp] theorem State.modWarp_host (s : State) (b w : Nat) (f : Warp → Warp) : (s.modWarp b w f).host = s.host := by unfold State.modWarp; split <;> rfl
@[simp] theorem State.modWarp_peers (s : State) (b w : Nat) (f : Warp → Warp) : (s.modWarp b w f).peers = s.peers := by unfold State.modWarp; split <;> rfl
@[simp] theorem State.modWarp_kv (s : State) (b w : Nat) (f : Warp → Warp) : (s.modWarp b w f).kv = s.kv := by unfold State.modWarp; split <;> rfl
@[simp] theorem State.modWarp_selq (s : State) (b w : Nat) (f : Warp → Warp) : (s.modWarp b w f).selq = s.selq := by unfold State.modWarp; split <;> rfl
@[simp] theorem State.modWarp_tup (s : State) (b w : Nat) (f : Warp → Warp) : (s.modWarp b w f).tup = s.tup := by unfold State.modWarp; split <;> rfl
@[simp] theorem State.modWarp_sx (s : State) (b w : Nat) (f : Warp → Warp) : (s.modWarp b w f).sx = s.sx := by unfold State.modWarp; split <;> rfl
@[simp] theorem State.modWarp_trust (s : State) (b w : Nat) (f : Warp → Warp) : (s.modWarp b w f).trust = s.trust := by unfold State.modWarp; split <;> rfl
@[simp] theorem State.modWarp_tel (s : State) (b w : Nat) (f : Warp → Warp) : (s.modWarp b w f).tel = s.tel := by unfold State.modWarp; split <;> rfl
@[simp] theorem State.modWarp_time (s : State) (b w : Nat) (f : Warp → Warp) : (s.modWarp b w f).time = s.time := by unfold State.modWarp; split <;> rfl
@[simp] theorem State.modWarp_epoch (s : State) (b w : Nat) (f : Warp → Warp) : (s.modWarp b w f).epoch = s.epoch := by unfold State.modWarp; split <;> rfl
@[simp] theorem State.modWarp_debugger (s : State) (b w : Nat) (f : Warp → Warp) : (s.modWarp b w f).debugger = s.debugger := by unfold State.modWarp; split <;> rfl
@[simp] theorem State.modWarp_tripped (s : State) (b w : Nat) (f : Warp → Warp) : (s.modWarp b w f).tripped = s.tripped := by unfold State.modWarp; split <;> rfl
@[simp] theorem State.modWarp_telemetry (s : State) (b w : Nat) (f : Warp → Warp) : (s.modWarp b w f).telemetry = s.telemetry := by unfold State.modWarp; split <;> rfl
@[simp] theorem State.modWarp_nextUid (s : State) (b w : Nat) (f : Warp → Warp) : (s.modWarp b w f).nextUid = s.nextUid := by unfold State.modWarp; split <;> rfl
@[simp] theorem State.modWarp_fresh (s : State) (b w : Nat) (f : Warp → Warp) : (s.modWarp b w f).fresh = s.fresh := by unfold State.modWarp; split <;> rfl
@[simp] theorem State.modWarp_cur (s : State) (b w : Nat) (f : Warp → Warp) : (s.modWarp b w f).cur = s.cur := by unfold State.modWarp; split <;> rfl
@[simp] theorem State.modWarp_schedule (s : State) (b w : Nat) (f : Warp → Warp) : (s.modWarp b w f).schedule = s.schedule := by unfold State.modWarp; split <;> rfl

@[simp] theorem State.modBlock_allocs (s : State) (b : Nat) (f : Block → Block) : (s.modBlock b f).allocs = s.allocs := rfl
@[simp] theorem State.modBlock_launches (s : State) (b : Nat) (f : Block → Block) : (s.modBlock b f).launches = s.launches := rfl
@[simp] theorem State.modBlock_images (s : State) (b : Nat) (f : Block → Block) : (s.modBlock b f).images = s.images := rfl
@[simp] theorem State.modBlock_mem (s : State) (b : Nat) (f : Block → Block) : (s.modBlock b f).mem = s.mem := rfl
@[simp] theorem State.modBlock_cores (s : State) (b : Nat) (f : Block → Block) : (s.modBlock b f).cores = s.cores := rfl
@[simp] theorem State.modBlock_subps (s : State) (b : Nat) (f : Block → Block) : (s.modBlock b f).subps = s.subps := rfl
@[simp] theorem State.modBlock_dies (s : State) (b : Nat) (f : Block → Block) : (s.modBlock b f).dies = s.dies := rfl
@[simp] theorem State.modBlock_faults (s : State) (b : Nat) (f : Block → Block) : (s.modBlock b f).faults = s.faults := rfl
@[simp] theorem State.modBlock_host (s : State) (b : Nat) (f : Block → Block) : (s.modBlock b f).host = s.host := rfl
@[simp] theorem State.modBlock_peers (s : State) (b : Nat) (f : Block → Block) : (s.modBlock b f).peers = s.peers := rfl
@[simp] theorem State.modBlock_kv (s : State) (b : Nat) (f : Block → Block) : (s.modBlock b f).kv = s.kv := rfl
@[simp] theorem State.modBlock_selq (s : State) (b : Nat) (f : Block → Block) : (s.modBlock b f).selq = s.selq := rfl
@[simp] theorem State.modBlock_tup (s : State) (b : Nat) (f : Block → Block) : (s.modBlock b f).tup = s.tup := rfl
@[simp] theorem State.modBlock_sx (s : State) (b : Nat) (f : Block → Block) : (s.modBlock b f).sx = s.sx := rfl
@[simp] theorem State.modBlock_trust (s : State) (b : Nat) (f : Block → Block) : (s.modBlock b f).trust = s.trust := rfl
@[simp] theorem State.modBlock_tel (s : State) (b : Nat) (f : Block → Block) : (s.modBlock b f).tel = s.tel := rfl
@[simp] theorem State.modBlock_time (s : State) (b : Nat) (f : Block → Block) : (s.modBlock b f).time = s.time := rfl
@[simp] theorem State.modBlock_epoch (s : State) (b : Nat) (f : Block → Block) : (s.modBlock b f).epoch = s.epoch := rfl
@[simp] theorem State.modBlock_debugger (s : State) (b : Nat) (f : Block → Block) : (s.modBlock b f).debugger = s.debugger := rfl
@[simp] theorem State.modBlock_tripped (s : State) (b : Nat) (f : Block → Block) : (s.modBlock b f).tripped = s.tripped := rfl
@[simp] theorem State.modBlock_telemetry (s : State) (b : Nat) (f : Block → Block) : (s.modBlock b f).telemetry = s.telemetry := rfl
@[simp] theorem State.modBlock_nextUid (s : State) (b : Nat) (f : Block → Block) : (s.modBlock b f).nextUid = s.nextUid := rfl
@[simp] theorem State.modBlock_fresh (s : State) (b : Nat) (f : Block → Block) : (s.modBlock b f).fresh = s.fresh := rfl
@[simp] theorem State.modBlock_cur (s : State) (b : Nat) (f : Block → Block) : (s.modBlock b f).cur = s.cur := rfl
@[simp] theorem State.modBlock_schedule (s : State) (b : Nat) (f : Block → Block) : (s.modBlock b f).schedule = s.schedule := rfl

/-! Of launches, cores, sub-partitions, dies, allocations. -/

@[simp] theorem State.modLaunch_blocks (s : State) (l : Nat) (f : Launch → Launch) : (s.modLaunch l f).blocks = s.blocks := rfl
@[simp] theorem State.modLaunch_allocs (s : State) (l : Nat) (f : Launch → Launch) : (s.modLaunch l f).allocs = s.allocs := rfl
@[simp] theorem State.modLaunch_images (s : State) (l : Nat) (f : Launch → Launch) : (s.modLaunch l f).images = s.images := rfl
@[simp] theorem State.modLaunch_mem (s : State) (l : Nat) (f : Launch → Launch) : (s.modLaunch l f).mem = s.mem := rfl
@[simp] theorem State.modLaunch_cores (s : State) (l : Nat) (f : Launch → Launch) : (s.modLaunch l f).cores = s.cores := rfl
@[simp] theorem State.modLaunch_subps (s : State) (l : Nat) (f : Launch → Launch) : (s.modLaunch l f).subps = s.subps := rfl
@[simp] theorem State.modLaunch_dies (s : State) (l : Nat) (f : Launch → Launch) : (s.modLaunch l f).dies = s.dies := rfl
@[simp] theorem State.modLaunch_faults (s : State) (l : Nat) (f : Launch → Launch) : (s.modLaunch l f).faults = s.faults := rfl
@[simp] theorem State.modLaunch_host (s : State) (l : Nat) (f : Launch → Launch) : (s.modLaunch l f).host = s.host := rfl
@[simp] theorem State.modLaunch_peers (s : State) (l : Nat) (f : Launch → Launch) : (s.modLaunch l f).peers = s.peers := rfl
@[simp] theorem State.modLaunch_kv (s : State) (l : Nat) (f : Launch → Launch) : (s.modLaunch l f).kv = s.kv := rfl
@[simp] theorem State.modLaunch_selq (s : State) (l : Nat) (f : Launch → Launch) : (s.modLaunch l f).selq = s.selq := rfl
@[simp] theorem State.modLaunch_tup (s : State) (l : Nat) (f : Launch → Launch) : (s.modLaunch l f).tup = s.tup := rfl
@[simp] theorem State.modLaunch_sx (s : State) (l : Nat) (f : Launch → Launch) : (s.modLaunch l f).sx = s.sx := rfl
@[simp] theorem State.modLaunch_trust (s : State) (l : Nat) (f : Launch → Launch) : (s.modLaunch l f).trust = s.trust := rfl
@[simp] theorem State.modLaunch_tel (s : State) (l : Nat) (f : Launch → Launch) : (s.modLaunch l f).tel = s.tel := rfl
@[simp] theorem State.modLaunch_time (s : State) (l : Nat) (f : Launch → Launch) : (s.modLaunch l f).time = s.time := rfl
@[simp] theorem State.modLaunch_epoch (s : State) (l : Nat) (f : Launch → Launch) : (s.modLaunch l f).epoch = s.epoch := rfl
@[simp] theorem State.modLaunch_debugger (s : State) (l : Nat) (f : Launch → Launch) : (s.modLaunch l f).debugger = s.debugger := rfl
@[simp] theorem State.modLaunch_tripped (s : State) (l : Nat) (f : Launch → Launch) : (s.modLaunch l f).tripped = s.tripped := rfl
@[simp] theorem State.modLaunch_telemetry (s : State) (l : Nat) (f : Launch → Launch) : (s.modLaunch l f).telemetry = s.telemetry := rfl
@[simp] theorem State.modLaunch_nextUid (s : State) (l : Nat) (f : Launch → Launch) : (s.modLaunch l f).nextUid = s.nextUid := rfl
@[simp] theorem State.modLaunch_fresh (s : State) (l : Nat) (f : Launch → Launch) : (s.modLaunch l f).fresh = s.fresh := rfl
@[simp] theorem State.modLaunch_cur (s : State) (l : Nat) (f : Launch → Launch) : (s.modLaunch l f).cur = s.cur := rfl
@[simp] theorem State.modLaunch_schedule (s : State) (l : Nat) (f : Launch → Launch) : (s.modLaunch l f).schedule = s.schedule := rfl

@[simp] theorem State.modCore_blocks (s : State) (c : Nat) (f : CoreSt → CoreSt) : (s.modCore c f).blocks = s.blocks := rfl
@[simp] theorem State.modCore_allocs (s : State) (c : Nat) (f : CoreSt → CoreSt) : (s.modCore c f).allocs = s.allocs := rfl
@[simp] theorem State.modCore_launches (s : State) (c : Nat) (f : CoreSt → CoreSt) : (s.modCore c f).launches = s.launches := rfl
@[simp] theorem State.modCore_images (s : State) (c : Nat) (f : CoreSt → CoreSt) : (s.modCore c f).images = s.images := rfl
@[simp] theorem State.modCore_mem (s : State) (c : Nat) (f : CoreSt → CoreSt) : (s.modCore c f).mem = s.mem := rfl
@[simp] theorem State.modCore_subps (s : State) (c : Nat) (f : CoreSt → CoreSt) : (s.modCore c f).subps = s.subps := rfl
@[simp] theorem State.modCore_dies (s : State) (c : Nat) (f : CoreSt → CoreSt) : (s.modCore c f).dies = s.dies := rfl
@[simp] theorem State.modCore_faults (s : State) (c : Nat) (f : CoreSt → CoreSt) : (s.modCore c f).faults = s.faults := rfl
@[simp] theorem State.modCore_host (s : State) (c : Nat) (f : CoreSt → CoreSt) : (s.modCore c f).host = s.host := rfl
@[simp] theorem State.modCore_peers (s : State) (c : Nat) (f : CoreSt → CoreSt) : (s.modCore c f).peers = s.peers := rfl
@[simp] theorem State.modCore_kv (s : State) (c : Nat) (f : CoreSt → CoreSt) : (s.modCore c f).kv = s.kv := rfl
@[simp] theorem State.modCore_selq (s : State) (c : Nat) (f : CoreSt → CoreSt) : (s.modCore c f).selq = s.selq := rfl
@[simp] theorem State.modCore_tup (s : State) (c : Nat) (f : CoreSt → CoreSt) : (s.modCore c f).tup = s.tup := rfl
@[simp] theorem State.modCore_sx (s : State) (c : Nat) (f : CoreSt → CoreSt) : (s.modCore c f).sx = s.sx := rfl
@[simp] theorem State.modCore_trust (s : State) (c : Nat) (f : CoreSt → CoreSt) : (s.modCore c f).trust = s.trust := rfl
@[simp] theorem State.modCore_tel (s : State) (c : Nat) (f : CoreSt → CoreSt) : (s.modCore c f).tel = s.tel := rfl
@[simp] theorem State.modCore_time (s : State) (c : Nat) (f : CoreSt → CoreSt) : (s.modCore c f).time = s.time := rfl
@[simp] theorem State.modCore_epoch (s : State) (c : Nat) (f : CoreSt → CoreSt) : (s.modCore c f).epoch = s.epoch := rfl
@[simp] theorem State.modCore_debugger (s : State) (c : Nat) (f : CoreSt → CoreSt) : (s.modCore c f).debugger = s.debugger := rfl
@[simp] theorem State.modCore_tripped (s : State) (c : Nat) (f : CoreSt → CoreSt) : (s.modCore c f).tripped = s.tripped := rfl
@[simp] theorem State.modCore_telemetry (s : State) (c : Nat) (f : CoreSt → CoreSt) : (s.modCore c f).telemetry = s.telemetry := rfl
@[simp] theorem State.modCore_nextUid (s : State) (c : Nat) (f : CoreSt → CoreSt) : (s.modCore c f).nextUid = s.nextUid := rfl
@[simp] theorem State.modCore_fresh (s : State) (c : Nat) (f : CoreSt → CoreSt) : (s.modCore c f).fresh = s.fresh := rfl
@[simp] theorem State.modCore_cur (s : State) (c : Nat) (f : CoreSt → CoreSt) : (s.modCore c f).cur = s.cur := rfl
@[simp] theorem State.modCore_schedule (s : State) (c : Nat) (f : CoreSt → CoreSt) : (s.modCore c f).schedule = s.schedule := rfl

@[simp] theorem State.modSubp_blocks (s : State) (k : Nat) (f : SubpSt → SubpSt) : (s.modSubp k f).blocks = s.blocks := rfl
@[simp] theorem State.modSubp_allocs (s : State) (k : Nat) (f : SubpSt → SubpSt) : (s.modSubp k f).allocs = s.allocs := rfl
@[simp] theorem State.modSubp_launches (s : State) (k : Nat) (f : SubpSt → SubpSt) : (s.modSubp k f).launches = s.launches := rfl
@[simp] theorem State.modSubp_images (s : State) (k : Nat) (f : SubpSt → SubpSt) : (s.modSubp k f).images = s.images := rfl
@[simp] theorem State.modSubp_mem (s : State) (k : Nat) (f : SubpSt → SubpSt) : (s.modSubp k f).mem = s.mem := rfl
@[simp] theorem State.modSubp_cores (s : State) (k : Nat) (f : SubpSt → SubpSt) : (s.modSubp k f).cores = s.cores := rfl
@[simp] theorem State.modSubp_dies (s : State) (k : Nat) (f : SubpSt → SubpSt) : (s.modSubp k f).dies = s.dies := rfl
@[simp] theorem State.modSubp_faults (s : State) (k : Nat) (f : SubpSt → SubpSt) : (s.modSubp k f).faults = s.faults := rfl
@[simp] theorem State.modSubp_host (s : State) (k : Nat) (f : SubpSt → SubpSt) : (s.modSubp k f).host = s.host := rfl
@[simp] theorem State.modSubp_peers (s : State) (k : Nat) (f : SubpSt → SubpSt) : (s.modSubp k f).peers = s.peers := rfl
@[simp] theorem State.modSubp_kv (s : State) (k : Nat) (f : SubpSt → SubpSt) : (s.modSubp k f).kv = s.kv := rfl
@[simp] theorem State.modSubp_selq (s : State) (k : Nat) (f : SubpSt → SubpSt) : (s.modSubp k f).selq = s.selq := rfl
@[simp] theorem State.modSubp_tup (s : State) (k : Nat) (f : SubpSt → SubpSt) : (s.modSubp k f).tup = s.tup := rfl
@[simp] theorem State.modSubp_sx (s : State) (k : Nat) (f : SubpSt → SubpSt) : (s.modSubp k f).sx = s.sx := rfl
@[simp] theorem State.modSubp_trust (s : State) (k : Nat) (f : SubpSt → SubpSt) : (s.modSubp k f).trust = s.trust := rfl
@[simp] theorem State.modSubp_tel (s : State) (k : Nat) (f : SubpSt → SubpSt) : (s.modSubp k f).tel = s.tel := rfl
@[simp] theorem State.modSubp_time (s : State) (k : Nat) (f : SubpSt → SubpSt) : (s.modSubp k f).time = s.time := rfl
@[simp] theorem State.modSubp_epoch (s : State) (k : Nat) (f : SubpSt → SubpSt) : (s.modSubp k f).epoch = s.epoch := rfl
@[simp] theorem State.modSubp_debugger (s : State) (k : Nat) (f : SubpSt → SubpSt) : (s.modSubp k f).debugger = s.debugger := rfl
@[simp] theorem State.modSubp_tripped (s : State) (k : Nat) (f : SubpSt → SubpSt) : (s.modSubp k f).tripped = s.tripped := rfl
@[simp] theorem State.modSubp_telemetry (s : State) (k : Nat) (f : SubpSt → SubpSt) : (s.modSubp k f).telemetry = s.telemetry := rfl
@[simp] theorem State.modSubp_nextUid (s : State) (k : Nat) (f : SubpSt → SubpSt) : (s.modSubp k f).nextUid = s.nextUid := rfl
@[simp] theorem State.modSubp_fresh (s : State) (k : Nat) (f : SubpSt → SubpSt) : (s.modSubp k f).fresh = s.fresh := rfl
@[simp] theorem State.modSubp_cur (s : State) (k : Nat) (f : SubpSt → SubpSt) : (s.modSubp k f).cur = s.cur := rfl
@[simp] theorem State.modSubp_schedule (s : State) (k : Nat) (f : SubpSt → SubpSt) : (s.modSubp k f).schedule = s.schedule := rfl

@[simp] theorem State.modDie_blocks (s : State) (d : Nat) (f : DieSt → DieSt) : (s.modDie d f).blocks = s.blocks := rfl
@[simp] theorem State.modDie_allocs (s : State) (d : Nat) (f : DieSt → DieSt) : (s.modDie d f).allocs = s.allocs := rfl
@[simp] theorem State.modDie_launches (s : State) (d : Nat) (f : DieSt → DieSt) : (s.modDie d f).launches = s.launches := rfl
@[simp] theorem State.modDie_images (s : State) (d : Nat) (f : DieSt → DieSt) : (s.modDie d f).images = s.images := rfl
@[simp] theorem State.modDie_mem (s : State) (d : Nat) (f : DieSt → DieSt) : (s.modDie d f).mem = s.mem := rfl
@[simp] theorem State.modDie_cores (s : State) (d : Nat) (f : DieSt → DieSt) : (s.modDie d f).cores = s.cores := rfl
@[simp] theorem State.modDie_subps (s : State) (d : Nat) (f : DieSt → DieSt) : (s.modDie d f).subps = s.subps := rfl
@[simp] theorem State.modDie_faults (s : State) (d : Nat) (f : DieSt → DieSt) : (s.modDie d f).faults = s.faults := rfl
@[simp] theorem State.modDie_host (s : State) (d : Nat) (f : DieSt → DieSt) : (s.modDie d f).host = s.host := rfl
@[simp] theorem State.modDie_peers (s : State) (d : Nat) (f : DieSt → DieSt) : (s.modDie d f).peers = s.peers := rfl
@[simp] theorem State.modDie_kv (s : State) (d : Nat) (f : DieSt → DieSt) : (s.modDie d f).kv = s.kv := rfl
@[simp] theorem State.modDie_selq (s : State) (d : Nat) (f : DieSt → DieSt) : (s.modDie d f).selq = s.selq := rfl
@[simp] theorem State.modDie_tup (s : State) (d : Nat) (f : DieSt → DieSt) : (s.modDie d f).tup = s.tup := rfl
@[simp] theorem State.modDie_sx (s : State) (d : Nat) (f : DieSt → DieSt) : (s.modDie d f).sx = s.sx := rfl
@[simp] theorem State.modDie_trust (s : State) (d : Nat) (f : DieSt → DieSt) : (s.modDie d f).trust = s.trust := rfl
@[simp] theorem State.modDie_tel (s : State) (d : Nat) (f : DieSt → DieSt) : (s.modDie d f).tel = s.tel := rfl
@[simp] theorem State.modDie_time (s : State) (d : Nat) (f : DieSt → DieSt) : (s.modDie d f).time = s.time := rfl
@[simp] theorem State.modDie_epoch (s : State) (d : Nat) (f : DieSt → DieSt) : (s.modDie d f).epoch = s.epoch := rfl
@[simp] theorem State.modDie_debugger (s : State) (d : Nat) (f : DieSt → DieSt) : (s.modDie d f).debugger = s.debugger := rfl
@[simp] theorem State.modDie_tripped (s : State) (d : Nat) (f : DieSt → DieSt) : (s.modDie d f).tripped = s.tripped := rfl
@[simp] theorem State.modDie_telemetry (s : State) (d : Nat) (f : DieSt → DieSt) : (s.modDie d f).telemetry = s.telemetry := rfl
@[simp] theorem State.modDie_nextUid (s : State) (d : Nat) (f : DieSt → DieSt) : (s.modDie d f).nextUid = s.nextUid := rfl
@[simp] theorem State.modDie_fresh (s : State) (d : Nat) (f : DieSt → DieSt) : (s.modDie d f).fresh = s.fresh := rfl
@[simp] theorem State.modDie_cur (s : State) (d : Nat) (f : DieSt → DieSt) : (s.modDie d f).cur = s.cur := rfl
@[simp] theorem State.modDie_schedule (s : State) (d : Nat) (f : DieSt → DieSt) : (s.modDie d f).schedule = s.schedule := rfl

@[simp] theorem State.modAlloc_blocks (s : State) (id : Nat) (f : Alloc → Alloc) : (s.modAlloc id f).blocks = s.blocks := rfl
@[simp] theorem State.modAlloc_launches (s : State) (id : Nat) (f : Alloc → Alloc) : (s.modAlloc id f).launches = s.launches := rfl
@[simp] theorem State.modAlloc_images (s : State) (id : Nat) (f : Alloc → Alloc) : (s.modAlloc id f).images = s.images := rfl
@[simp] theorem State.modAlloc_mem (s : State) (id : Nat) (f : Alloc → Alloc) : (s.modAlloc id f).mem = s.mem := rfl
@[simp] theorem State.modAlloc_cores (s : State) (id : Nat) (f : Alloc → Alloc) : (s.modAlloc id f).cores = s.cores := rfl
@[simp] theorem State.modAlloc_subps (s : State) (id : Nat) (f : Alloc → Alloc) : (s.modAlloc id f).subps = s.subps := rfl
@[simp] theorem State.modAlloc_dies (s : State) (id : Nat) (f : Alloc → Alloc) : (s.modAlloc id f).dies = s.dies := rfl
@[simp] theorem State.modAlloc_faults (s : State) (id : Nat) (f : Alloc → Alloc) : (s.modAlloc id f).faults = s.faults := rfl
@[simp] theorem State.modAlloc_host (s : State) (id : Nat) (f : Alloc → Alloc) : (s.modAlloc id f).host = s.host := rfl
@[simp] theorem State.modAlloc_peers (s : State) (id : Nat) (f : Alloc → Alloc) : (s.modAlloc id f).peers = s.peers := rfl
@[simp] theorem State.modAlloc_kv (s : State) (id : Nat) (f : Alloc → Alloc) : (s.modAlloc id f).kv = s.kv := rfl
@[simp] theorem State.modAlloc_selq (s : State) (id : Nat) (f : Alloc → Alloc) : (s.modAlloc id f).selq = s.selq := rfl
@[simp] theorem State.modAlloc_tup (s : State) (id : Nat) (f : Alloc → Alloc) : (s.modAlloc id f).tup = s.tup := rfl
@[simp] theorem State.modAlloc_sx (s : State) (id : Nat) (f : Alloc → Alloc) : (s.modAlloc id f).sx = s.sx := rfl
@[simp] theorem State.modAlloc_trust (s : State) (id : Nat) (f : Alloc → Alloc) : (s.modAlloc id f).trust = s.trust := rfl
@[simp] theorem State.modAlloc_tel (s : State) (id : Nat) (f : Alloc → Alloc) : (s.modAlloc id f).tel = s.tel := rfl
@[simp] theorem State.modAlloc_time (s : State) (id : Nat) (f : Alloc → Alloc) : (s.modAlloc id f).time = s.time := rfl
@[simp] theorem State.modAlloc_epoch (s : State) (id : Nat) (f : Alloc → Alloc) : (s.modAlloc id f).epoch = s.epoch := rfl
@[simp] theorem State.modAlloc_debugger (s : State) (id : Nat) (f : Alloc → Alloc) : (s.modAlloc id f).debugger = s.debugger := rfl
@[simp] theorem State.modAlloc_tripped (s : State) (id : Nat) (f : Alloc → Alloc) : (s.modAlloc id f).tripped = s.tripped := rfl
@[simp] theorem State.modAlloc_telemetry (s : State) (id : Nat) (f : Alloc → Alloc) : (s.modAlloc id f).telemetry = s.telemetry := rfl
@[simp] theorem State.modAlloc_nextUid (s : State) (id : Nat) (f : Alloc → Alloc) : (s.modAlloc id f).nextUid = s.nextUid := rfl
@[simp] theorem State.modAlloc_fresh (s : State) (id : Nat) (f : Alloc → Alloc) : (s.modAlloc id f).fresh = s.fresh := rfl
@[simp] theorem State.modAlloc_cur (s : State) (id : Nat) (f : Alloc → Alloc) : (s.modAlloc id f).cur = s.cur := rfl
@[simp] theorem State.modAlloc_schedule (s : State) (id : Nat) (f : Alloc → Alloc) : (s.modAlloc id f).schedule = s.schedule := rfl

/-! Of the host's registers, tuple space, the demotion engines, the suffix units. -/

@[simp] theorem State.modHost_blocks (s : State) (f : HostSt → HostSt) : (s.modHost f).blocks = s.blocks := rfl
@[simp] theorem State.modHost_allocs (s : State) (f : HostSt → HostSt) : (s.modHost f).allocs = s.allocs := rfl
@[simp] theorem State.modHost_launches (s : State) (f : HostSt → HostSt) : (s.modHost f).launches = s.launches := rfl
@[simp] theorem State.modHost_images (s : State) (f : HostSt → HostSt) : (s.modHost f).images = s.images := rfl
@[simp] theorem State.modHost_mem (s : State) (f : HostSt → HostSt) : (s.modHost f).mem = s.mem := rfl
@[simp] theorem State.modHost_cores (s : State) (f : HostSt → HostSt) : (s.modHost f).cores = s.cores := rfl
@[simp] theorem State.modHost_subps (s : State) (f : HostSt → HostSt) : (s.modHost f).subps = s.subps := rfl
@[simp] theorem State.modHost_dies (s : State) (f : HostSt → HostSt) : (s.modHost f).dies = s.dies := rfl
@[simp] theorem State.modHost_faults (s : State) (f : HostSt → HostSt) : (s.modHost f).faults = s.faults := rfl
@[simp] theorem State.modHost_peers (s : State) (f : HostSt → HostSt) : (s.modHost f).peers = s.peers := rfl
@[simp] theorem State.modHost_kv (s : State) (f : HostSt → HostSt) : (s.modHost f).kv = s.kv := rfl
@[simp] theorem State.modHost_selq (s : State) (f : HostSt → HostSt) : (s.modHost f).selq = s.selq := rfl
@[simp] theorem State.modHost_tup (s : State) (f : HostSt → HostSt) : (s.modHost f).tup = s.tup := rfl
@[simp] theorem State.modHost_sx (s : State) (f : HostSt → HostSt) : (s.modHost f).sx = s.sx := rfl
@[simp] theorem State.modHost_trust (s : State) (f : HostSt → HostSt) : (s.modHost f).trust = s.trust := rfl
@[simp] theorem State.modHost_tel (s : State) (f : HostSt → HostSt) : (s.modHost f).tel = s.tel := rfl
@[simp] theorem State.modHost_time (s : State) (f : HostSt → HostSt) : (s.modHost f).time = s.time := rfl
@[simp] theorem State.modHost_epoch (s : State) (f : HostSt → HostSt) : (s.modHost f).epoch = s.epoch := rfl
@[simp] theorem State.modHost_debugger (s : State) (f : HostSt → HostSt) : (s.modHost f).debugger = s.debugger := rfl
@[simp] theorem State.modHost_tripped (s : State) (f : HostSt → HostSt) : (s.modHost f).tripped = s.tripped := rfl
@[simp] theorem State.modHost_telemetry (s : State) (f : HostSt → HostSt) : (s.modHost f).telemetry = s.telemetry := rfl
@[simp] theorem State.modHost_nextUid (s : State) (f : HostSt → HostSt) : (s.modHost f).nextUid = s.nextUid := rfl
@[simp] theorem State.modHost_fresh (s : State) (f : HostSt → HostSt) : (s.modHost f).fresh = s.fresh := rfl
@[simp] theorem State.modHost_cur (s : State) (f : HostSt → HostSt) : (s.modHost f).cur = s.cur := rfl
@[simp] theorem State.modHost_schedule (s : State) (f : HostSt → HostSt) : (s.modHost f).schedule = s.schedule := rfl

@[simp] theorem State.modTup_blocks (s : State) (f : TupSt → TupSt) : (s.modTup f).blocks = s.blocks := rfl
@[simp] theorem State.modTup_allocs (s : State) (f : TupSt → TupSt) : (s.modTup f).allocs = s.allocs := rfl
@[simp] theorem State.modTup_launches (s : State) (f : TupSt → TupSt) : (s.modTup f).launches = s.launches := rfl
@[simp] theorem State.modTup_images (s : State) (f : TupSt → TupSt) : (s.modTup f).images = s.images := rfl
@[simp] theorem State.modTup_mem (s : State) (f : TupSt → TupSt) : (s.modTup f).mem = s.mem := rfl
@[simp] theorem State.modTup_cores (s : State) (f : TupSt → TupSt) : (s.modTup f).cores = s.cores := rfl
@[simp] theorem State.modTup_subps (s : State) (f : TupSt → TupSt) : (s.modTup f).subps = s.subps := rfl
@[simp] theorem State.modTup_dies (s : State) (f : TupSt → TupSt) : (s.modTup f).dies = s.dies := rfl
@[simp] theorem State.modTup_faults (s : State) (f : TupSt → TupSt) : (s.modTup f).faults = s.faults := rfl
@[simp] theorem State.modTup_host (s : State) (f : TupSt → TupSt) : (s.modTup f).host = s.host := rfl
@[simp] theorem State.modTup_peers (s : State) (f : TupSt → TupSt) : (s.modTup f).peers = s.peers := rfl
@[simp] theorem State.modTup_kv (s : State) (f : TupSt → TupSt) : (s.modTup f).kv = s.kv := rfl
@[simp] theorem State.modTup_selq (s : State) (f : TupSt → TupSt) : (s.modTup f).selq = s.selq := rfl
@[simp] theorem State.modTup_sx (s : State) (f : TupSt → TupSt) : (s.modTup f).sx = s.sx := rfl
@[simp] theorem State.modTup_trust (s : State) (f : TupSt → TupSt) : (s.modTup f).trust = s.trust := rfl
@[simp] theorem State.modTup_tel (s : State) (f : TupSt → TupSt) : (s.modTup f).tel = s.tel := rfl
@[simp] theorem State.modTup_time (s : State) (f : TupSt → TupSt) : (s.modTup f).time = s.time := rfl
@[simp] theorem State.modTup_epoch (s : State) (f : TupSt → TupSt) : (s.modTup f).epoch = s.epoch := rfl
@[simp] theorem State.modTup_debugger (s : State) (f : TupSt → TupSt) : (s.modTup f).debugger = s.debugger := rfl
@[simp] theorem State.modTup_tripped (s : State) (f : TupSt → TupSt) : (s.modTup f).tripped = s.tripped := rfl
@[simp] theorem State.modTup_telemetry (s : State) (f : TupSt → TupSt) : (s.modTup f).telemetry = s.telemetry := rfl
@[simp] theorem State.modTup_nextUid (s : State) (f : TupSt → TupSt) : (s.modTup f).nextUid = s.nextUid := rfl
@[simp] theorem State.modTup_fresh (s : State) (f : TupSt → TupSt) : (s.modTup f).fresh = s.fresh := rfl
@[simp] theorem State.modTup_cur (s : State) (f : TupSt → TupSt) : (s.modTup f).cur = s.cur := rfl
@[simp] theorem State.modTup_schedule (s : State) (f : TupSt → TupSt) : (s.modTup f).schedule = s.schedule := rfl

@[simp] theorem State.modEngine_blocks (s : State) (d : Nat) (f : KvEngine → KvEngine) : (s.modEngine d f).blocks = s.blocks := rfl
@[simp] theorem State.modEngine_allocs (s : State) (d : Nat) (f : KvEngine → KvEngine) : (s.modEngine d f).allocs = s.allocs := rfl
@[simp] theorem State.modEngine_launches (s : State) (d : Nat) (f : KvEngine → KvEngine) : (s.modEngine d f).launches = s.launches := rfl
@[simp] theorem State.modEngine_images (s : State) (d : Nat) (f : KvEngine → KvEngine) : (s.modEngine d f).images = s.images := rfl
@[simp] theorem State.modEngine_mem (s : State) (d : Nat) (f : KvEngine → KvEngine) : (s.modEngine d f).mem = s.mem := rfl
@[simp] theorem State.modEngine_cores (s : State) (d : Nat) (f : KvEngine → KvEngine) : (s.modEngine d f).cores = s.cores := rfl
@[simp] theorem State.modEngine_subps (s : State) (d : Nat) (f : KvEngine → KvEngine) : (s.modEngine d f).subps = s.subps := rfl
@[simp] theorem State.modEngine_dies (s : State) (d : Nat) (f : KvEngine → KvEngine) : (s.modEngine d f).dies = s.dies := rfl
@[simp] theorem State.modEngine_faults (s : State) (d : Nat) (f : KvEngine → KvEngine) : (s.modEngine d f).faults = s.faults := rfl
@[simp] theorem State.modEngine_host (s : State) (d : Nat) (f : KvEngine → KvEngine) : (s.modEngine d f).host = s.host := rfl
@[simp] theorem State.modEngine_peers (s : State) (d : Nat) (f : KvEngine → KvEngine) : (s.modEngine d f).peers = s.peers := rfl
@[simp] theorem State.modEngine_selq (s : State) (d : Nat) (f : KvEngine → KvEngine) : (s.modEngine d f).selq = s.selq := rfl
@[simp] theorem State.modEngine_tup (s : State) (d : Nat) (f : KvEngine → KvEngine) : (s.modEngine d f).tup = s.tup := rfl
@[simp] theorem State.modEngine_sx (s : State) (d : Nat) (f : KvEngine → KvEngine) : (s.modEngine d f).sx = s.sx := rfl
@[simp] theorem State.modEngine_trust (s : State) (d : Nat) (f : KvEngine → KvEngine) : (s.modEngine d f).trust = s.trust := rfl
@[simp] theorem State.modEngine_tel (s : State) (d : Nat) (f : KvEngine → KvEngine) : (s.modEngine d f).tel = s.tel := rfl
@[simp] theorem State.modEngine_time (s : State) (d : Nat) (f : KvEngine → KvEngine) : (s.modEngine d f).time = s.time := rfl
@[simp] theorem State.modEngine_epoch (s : State) (d : Nat) (f : KvEngine → KvEngine) : (s.modEngine d f).epoch = s.epoch := rfl
@[simp] theorem State.modEngine_debugger (s : State) (d : Nat) (f : KvEngine → KvEngine) : (s.modEngine d f).debugger = s.debugger := rfl
@[simp] theorem State.modEngine_tripped (s : State) (d : Nat) (f : KvEngine → KvEngine) : (s.modEngine d f).tripped = s.tripped := rfl
@[simp] theorem State.modEngine_telemetry (s : State) (d : Nat) (f : KvEngine → KvEngine) : (s.modEngine d f).telemetry = s.telemetry := rfl
@[simp] theorem State.modEngine_nextUid (s : State) (d : Nat) (f : KvEngine → KvEngine) : (s.modEngine d f).nextUid = s.nextUid := rfl
@[simp] theorem State.modEngine_fresh (s : State) (d : Nat) (f : KvEngine → KvEngine) : (s.modEngine d f).fresh = s.fresh := rfl
@[simp] theorem State.modEngine_cur (s : State) (d : Nat) (f : KvEngine → KvEngine) : (s.modEngine d f).cur = s.cur := rfl
@[simp] theorem State.modEngine_schedule (s : State) (d : Nat) (f : KvEngine → KvEngine) : (s.modEngine d f).schedule = s.schedule := rfl

@[simp] theorem State.setSxIndex_blocks (s : State) (k : Nat) (h : SxIndex) : (s.setSxIndex k h).blocks = s.blocks := rfl
@[simp] theorem State.setSxIndex_allocs (s : State) (k : Nat) (h : SxIndex) : (s.setSxIndex k h).allocs = s.allocs := rfl
@[simp] theorem State.setSxIndex_launches (s : State) (k : Nat) (h : SxIndex) : (s.setSxIndex k h).launches = s.launches := rfl
@[simp] theorem State.setSxIndex_images (s : State) (k : Nat) (h : SxIndex) : (s.setSxIndex k h).images = s.images := rfl
@[simp] theorem State.setSxIndex_mem (s : State) (k : Nat) (h : SxIndex) : (s.setSxIndex k h).mem = s.mem := rfl
@[simp] theorem State.setSxIndex_cores (s : State) (k : Nat) (h : SxIndex) : (s.setSxIndex k h).cores = s.cores := rfl
@[simp] theorem State.setSxIndex_subps (s : State) (k : Nat) (h : SxIndex) : (s.setSxIndex k h).subps = s.subps := rfl
@[simp] theorem State.setSxIndex_dies (s : State) (k : Nat) (h : SxIndex) : (s.setSxIndex k h).dies = s.dies := rfl
@[simp] theorem State.setSxIndex_faults (s : State) (k : Nat) (h : SxIndex) : (s.setSxIndex k h).faults = s.faults := rfl
@[simp] theorem State.setSxIndex_host (s : State) (k : Nat) (h : SxIndex) : (s.setSxIndex k h).host = s.host := rfl
@[simp] theorem State.setSxIndex_peers (s : State) (k : Nat) (h : SxIndex) : (s.setSxIndex k h).peers = s.peers := rfl
@[simp] theorem State.setSxIndex_kv (s : State) (k : Nat) (h : SxIndex) : (s.setSxIndex k h).kv = s.kv := rfl
@[simp] theorem State.setSxIndex_selq (s : State) (k : Nat) (h : SxIndex) : (s.setSxIndex k h).selq = s.selq := rfl
@[simp] theorem State.setSxIndex_tup (s : State) (k : Nat) (h : SxIndex) : (s.setSxIndex k h).tup = s.tup := rfl
@[simp] theorem State.setSxIndex_trust (s : State) (k : Nat) (h : SxIndex) : (s.setSxIndex k h).trust = s.trust := rfl
@[simp] theorem State.setSxIndex_tel (s : State) (k : Nat) (h : SxIndex) : (s.setSxIndex k h).tel = s.tel := rfl
@[simp] theorem State.setSxIndex_time (s : State) (k : Nat) (h : SxIndex) : (s.setSxIndex k h).time = s.time := rfl
@[simp] theorem State.setSxIndex_epoch (s : State) (k : Nat) (h : SxIndex) : (s.setSxIndex k h).epoch = s.epoch := rfl
@[simp] theorem State.setSxIndex_debugger (s : State) (k : Nat) (h : SxIndex) : (s.setSxIndex k h).debugger = s.debugger := rfl
@[simp] theorem State.setSxIndex_tripped (s : State) (k : Nat) (h : SxIndex) : (s.setSxIndex k h).tripped = s.tripped := rfl
@[simp] theorem State.setSxIndex_telemetry (s : State) (k : Nat) (h : SxIndex) : (s.setSxIndex k h).telemetry = s.telemetry := rfl
@[simp] theorem State.setSxIndex_nextUid (s : State) (k : Nat) (h : SxIndex) : (s.setSxIndex k h).nextUid = s.nextUid := rfl
@[simp] theorem State.setSxIndex_fresh (s : State) (k : Nat) (h : SxIndex) : (s.setSxIndex k h).fresh = s.fresh := rfl
@[simp] theorem State.setSxIndex_cur (s : State) (k : Nat) (h : SxIndex) : (s.setSxIndex k h).cur = s.cur := rfl
@[simp] theorem State.setSxIndex_schedule (s : State) (k : Nat) (h : SxIndex) : (s.setSxIndex k h).schedule = s.schedule := rfl

/-! Of telemetry, events and interrupts. -/

@[simp] theorem State.logVa_blocks (s : State) (ctx va : Nat) : (s.logVa ctx va).blocks = s.blocks := rfl
@[simp] theorem State.logVa_allocs (s : State) (ctx va : Nat) : (s.logVa ctx va).allocs = s.allocs := rfl
@[simp] theorem State.logVa_launches (s : State) (ctx va : Nat) : (s.logVa ctx va).launches = s.launches := rfl
@[simp] theorem State.logVa_images (s : State) (ctx va : Nat) : (s.logVa ctx va).images = s.images := rfl
@[simp] theorem State.logVa_mem (s : State) (ctx va : Nat) : (s.logVa ctx va).mem = s.mem := rfl
@[simp] theorem State.logVa_cores (s : State) (ctx va : Nat) : (s.logVa ctx va).cores = s.cores := rfl
@[simp] theorem State.logVa_subps (s : State) (ctx va : Nat) : (s.logVa ctx va).subps = s.subps := rfl
@[simp] theorem State.logVa_dies (s : State) (ctx va : Nat) : (s.logVa ctx va).dies = s.dies := rfl
@[simp] theorem State.logVa_faults (s : State) (ctx va : Nat) : (s.logVa ctx va).faults = s.faults := rfl
@[simp] theorem State.logVa_host (s : State) (ctx va : Nat) : (s.logVa ctx va).host = s.host := rfl
@[simp] theorem State.logVa_peers (s : State) (ctx va : Nat) : (s.logVa ctx va).peers = s.peers := rfl
@[simp] theorem State.logVa_kv (s : State) (ctx va : Nat) : (s.logVa ctx va).kv = s.kv := rfl
@[simp] theorem State.logVa_selq (s : State) (ctx va : Nat) : (s.logVa ctx va).selq = s.selq := rfl
@[simp] theorem State.logVa_tup (s : State) (ctx va : Nat) : (s.logVa ctx va).tup = s.tup := rfl
@[simp] theorem State.logVa_sx (s : State) (ctx va : Nat) : (s.logVa ctx va).sx = s.sx := rfl
@[simp] theorem State.logVa_trust (s : State) (ctx va : Nat) : (s.logVa ctx va).trust = s.trust := rfl
@[simp] theorem State.logVa_tel (s : State) (ctx va : Nat) : (s.logVa ctx va).tel = s.tel := rfl
@[simp] theorem State.logVa_time (s : State) (ctx va : Nat) : (s.logVa ctx va).time = s.time := rfl
@[simp] theorem State.logVa_epoch (s : State) (ctx va : Nat) : (s.logVa ctx va).epoch = s.epoch := rfl
@[simp] theorem State.logVa_debugger (s : State) (ctx va : Nat) : (s.logVa ctx va).debugger = s.debugger := rfl
@[simp] theorem State.logVa_tripped (s : State) (ctx va : Nat) : (s.logVa ctx va).tripped = s.tripped := rfl
@[simp] theorem State.logVa_nextUid (s : State) (ctx va : Nat) : (s.logVa ctx va).nextUid = s.nextUid := rfl
@[simp] theorem State.logVa_fresh (s : State) (ctx va : Nat) : (s.logVa ctx va).fresh = s.fresh := rfl
@[simp] theorem State.logVa_cur (s : State) (ctx va : Nat) : (s.logVa ctx va).cur = s.cur := rfl
@[simp] theorem State.logVa_schedule (s : State) (ctx va : Nat) : (s.logVa ctx va).schedule = s.schedule := rfl

@[simp] theorem State.count_blocks (s : State) (g i : Nat) : (s.count g i).blocks = s.blocks := rfl
@[simp] theorem State.count_allocs (s : State) (g i : Nat) : (s.count g i).allocs = s.allocs := rfl
@[simp] theorem State.count_launches (s : State) (g i : Nat) : (s.count g i).launches = s.launches := rfl
@[simp] theorem State.count_images (s : State) (g i : Nat) : (s.count g i).images = s.images := rfl
@[simp] theorem State.count_mem (s : State) (g i : Nat) : (s.count g i).mem = s.mem := rfl
@[simp] theorem State.count_cores (s : State) (g i : Nat) : (s.count g i).cores = s.cores := rfl
@[simp] theorem State.count_subps (s : State) (g i : Nat) : (s.count g i).subps = s.subps := rfl
@[simp] theorem State.count_dies (s : State) (g i : Nat) : (s.count g i).dies = s.dies := rfl
@[simp] theorem State.count_faults (s : State) (g i : Nat) : (s.count g i).faults = s.faults := rfl
@[simp] theorem State.count_host (s : State) (g i : Nat) : (s.count g i).host = s.host := rfl
@[simp] theorem State.count_peers (s : State) (g i : Nat) : (s.count g i).peers = s.peers := rfl
@[simp] theorem State.count_kv (s : State) (g i : Nat) : (s.count g i).kv = s.kv := rfl
@[simp] theorem State.count_selq (s : State) (g i : Nat) : (s.count g i).selq = s.selq := rfl
@[simp] theorem State.count_tup (s : State) (g i : Nat) : (s.count g i).tup = s.tup := rfl
@[simp] theorem State.count_sx (s : State) (g i : Nat) : (s.count g i).sx = s.sx := rfl
@[simp] theorem State.count_trust (s : State) (g i : Nat) : (s.count g i).trust = s.trust := rfl
@[simp] theorem State.count_time (s : State) (g i : Nat) : (s.count g i).time = s.time := rfl
@[simp] theorem State.count_epoch (s : State) (g i : Nat) : (s.count g i).epoch = s.epoch := rfl
@[simp] theorem State.count_debugger (s : State) (g i : Nat) : (s.count g i).debugger = s.debugger := rfl
@[simp] theorem State.count_tripped (s : State) (g i : Nat) : (s.count g i).tripped = s.tripped := rfl
@[simp] theorem State.count_telemetry (s : State) (g i : Nat) : (s.count g i).telemetry = s.telemetry := rfl
@[simp] theorem State.count_nextUid (s : State) (g i : Nat) : (s.count g i).nextUid = s.nextUid := rfl
@[simp] theorem State.count_fresh (s : State) (g i : Nat) : (s.count g i).fresh = s.fresh := rfl
@[simp] theorem State.count_cur (s : State) (g i : Nat) : (s.count g i).cur = s.cur := rfl
@[simp] theorem State.count_schedule (s : State) (g i : Nat) : (s.count g i).schedule = s.schedule := rfl

@[simp] theorem State.raiseEvent_blocks (s : State) (src : Nat) : (s.raiseEvent src).blocks = s.blocks := rfl
@[simp] theorem State.raiseEvent_allocs (s : State) (src : Nat) : (s.raiseEvent src).allocs = s.allocs := rfl
@[simp] theorem State.raiseEvent_launches (s : State) (src : Nat) : (s.raiseEvent src).launches = s.launches := rfl
@[simp] theorem State.raiseEvent_images (s : State) (src : Nat) : (s.raiseEvent src).images = s.images := rfl
@[simp] theorem State.raiseEvent_mem (s : State) (src : Nat) : (s.raiseEvent src).mem = s.mem := rfl
@[simp] theorem State.raiseEvent_cores (s : State) (src : Nat) : (s.raiseEvent src).cores = s.cores := rfl
@[simp] theorem State.raiseEvent_subps (s : State) (src : Nat) : (s.raiseEvent src).subps = s.subps := rfl
@[simp] theorem State.raiseEvent_dies (s : State) (src : Nat) : (s.raiseEvent src).dies = s.dies := rfl
@[simp] theorem State.raiseEvent_faults (s : State) (src : Nat) : (s.raiseEvent src).faults = s.faults := rfl
@[simp] theorem State.raiseEvent_host (s : State) (src : Nat) : (s.raiseEvent src).host = s.host := rfl
@[simp] theorem State.raiseEvent_peers (s : State) (src : Nat) : (s.raiseEvent src).peers = s.peers := rfl
@[simp] theorem State.raiseEvent_kv (s : State) (src : Nat) : (s.raiseEvent src).kv = s.kv := rfl
@[simp] theorem State.raiseEvent_selq (s : State) (src : Nat) : (s.raiseEvent src).selq = s.selq := rfl
@[simp] theorem State.raiseEvent_tup (s : State) (src : Nat) : (s.raiseEvent src).tup = s.tup := rfl
@[simp] theorem State.raiseEvent_sx (s : State) (src : Nat) : (s.raiseEvent src).sx = s.sx := rfl
@[simp] theorem State.raiseEvent_trust (s : State) (src : Nat) : (s.raiseEvent src).trust = s.trust := rfl
@[simp] theorem State.raiseEvent_time (s : State) (src : Nat) : (s.raiseEvent src).time = s.time := rfl
@[simp] theorem State.raiseEvent_epoch (s : State) (src : Nat) : (s.raiseEvent src).epoch = s.epoch := rfl
@[simp] theorem State.raiseEvent_debugger (s : State) (src : Nat) : (s.raiseEvent src).debugger = s.debugger := rfl
@[simp] theorem State.raiseEvent_tripped (s : State) (src : Nat) : (s.raiseEvent src).tripped = s.tripped := rfl
@[simp] theorem State.raiseEvent_telemetry (s : State) (src : Nat) : (s.raiseEvent src).telemetry = s.telemetry := rfl
@[simp] theorem State.raiseEvent_nextUid (s : State) (src : Nat) : (s.raiseEvent src).nextUid = s.nextUid := rfl
@[simp] theorem State.raiseEvent_fresh (s : State) (src : Nat) : (s.raiseEvent src).fresh = s.fresh := rfl
@[simp] theorem State.raiseEvent_cur (s : State) (src : Nat) : (s.raiseEvent src).cur = s.cur := rfl
@[simp] theorem State.raiseEvent_schedule (s : State) (src : Nat) : (s.raiseEvent src).schedule = s.schedule := rfl

@[simp] theorem State.raiseIrq_blocks (s : State) (bit : Nat) : (s.raiseIrq bit).blocks = s.blocks := by unfold State.raiseIrq; split <;> rfl
@[simp] theorem State.raiseIrq_allocs (s : State) (bit : Nat) : (s.raiseIrq bit).allocs = s.allocs := by unfold State.raiseIrq; split <;> rfl
@[simp] theorem State.raiseIrq_launches (s : State) (bit : Nat) : (s.raiseIrq bit).launches = s.launches := by unfold State.raiseIrq; split <;> rfl
@[simp] theorem State.raiseIrq_images (s : State) (bit : Nat) : (s.raiseIrq bit).images = s.images := by unfold State.raiseIrq; split <;> rfl
@[simp] theorem State.raiseIrq_mem (s : State) (bit : Nat) : (s.raiseIrq bit).mem = s.mem := by unfold State.raiseIrq; split <;> rfl
@[simp] theorem State.raiseIrq_cores (s : State) (bit : Nat) : (s.raiseIrq bit).cores = s.cores := by unfold State.raiseIrq; split <;> rfl
@[simp] theorem State.raiseIrq_subps (s : State) (bit : Nat) : (s.raiseIrq bit).subps = s.subps := by unfold State.raiseIrq; split <;> rfl
@[simp] theorem State.raiseIrq_dies (s : State) (bit : Nat) : (s.raiseIrq bit).dies = s.dies := by unfold State.raiseIrq; split <;> rfl
@[simp] theorem State.raiseIrq_faults (s : State) (bit : Nat) : (s.raiseIrq bit).faults = s.faults := by unfold State.raiseIrq; split <;> rfl
@[simp] theorem State.raiseIrq_peers (s : State) (bit : Nat) : (s.raiseIrq bit).peers = s.peers := by unfold State.raiseIrq; split <;> rfl
@[simp] theorem State.raiseIrq_kv (s : State) (bit : Nat) : (s.raiseIrq bit).kv = s.kv := by unfold State.raiseIrq; split <;> rfl
@[simp] theorem State.raiseIrq_selq (s : State) (bit : Nat) : (s.raiseIrq bit).selq = s.selq := by unfold State.raiseIrq; split <;> rfl
@[simp] theorem State.raiseIrq_tup (s : State) (bit : Nat) : (s.raiseIrq bit).tup = s.tup := by unfold State.raiseIrq; split <;> rfl
@[simp] theorem State.raiseIrq_sx (s : State) (bit : Nat) : (s.raiseIrq bit).sx = s.sx := by unfold State.raiseIrq; split <;> rfl
@[simp] theorem State.raiseIrq_trust (s : State) (bit : Nat) : (s.raiseIrq bit).trust = s.trust := by unfold State.raiseIrq; split <;> rfl
@[simp] theorem State.raiseIrq_tel (s : State) (bit : Nat) : (s.raiseIrq bit).tel = s.tel := by unfold State.raiseIrq; split <;> rfl
@[simp] theorem State.raiseIrq_time (s : State) (bit : Nat) : (s.raiseIrq bit).time = s.time := by unfold State.raiseIrq; split <;> rfl
@[simp] theorem State.raiseIrq_epoch (s : State) (bit : Nat) : (s.raiseIrq bit).epoch = s.epoch := by unfold State.raiseIrq; split <;> rfl
@[simp] theorem State.raiseIrq_debugger (s : State) (bit : Nat) : (s.raiseIrq bit).debugger = s.debugger := by unfold State.raiseIrq; split <;> rfl
@[simp] theorem State.raiseIrq_tripped (s : State) (bit : Nat) : (s.raiseIrq bit).tripped = s.tripped := by unfold State.raiseIrq; split <;> rfl
@[simp] theorem State.raiseIrq_telemetry (s : State) (bit : Nat) : (s.raiseIrq bit).telemetry = s.telemetry := by unfold State.raiseIrq; split <;> rfl
@[simp] theorem State.raiseIrq_nextUid (s : State) (bit : Nat) : (s.raiseIrq bit).nextUid = s.nextUid := by unfold State.raiseIrq; split <;> rfl
@[simp] theorem State.raiseIrq_fresh (s : State) (bit : Nat) : (s.raiseIrq bit).fresh = s.fresh := by unfold State.raiseIrq; split <;> rfl
@[simp] theorem State.raiseIrq_cur (s : State) (bit : Nat) : (s.raiseIrq bit).cur = s.cur := by unfold State.raiseIrq; split <;> rfl
@[simp] theorem State.raiseIrq_schedule (s : State) (bit : Nat) : (s.raiseIrq bit).schedule = s.schedule := by unfold State.raiseIrq; split <;> rfl

/-! What a slice does when it fills a line (R300, R301) touches memory's errors, the dies and telemetry alone. -/

@[simp] theorem State.addFixed_blocks (s : State) (W : Warp) : (s.addFixed W).blocks = s.blocks := rfl
@[simp] theorem State.addFixed_allocs (s : State) (W : Warp) : (s.addFixed W).allocs = s.allocs := rfl
@[simp] theorem State.addFixed_launches (s : State) (W : Warp) : (s.addFixed W).launches = s.launches := rfl
@[simp] theorem State.addFixed_images (s : State) (W : Warp) : (s.addFixed W).images = s.images := rfl
@[simp] theorem State.addFixed_mem (s : State) (W : Warp) : (s.addFixed W).mem = s.mem := rfl
@[simp] theorem State.addFixed_cores (s : State) (W : Warp) : (s.addFixed W).cores = s.cores := rfl
@[simp] theorem State.addFixed_subps (s : State) (W : Warp) : (s.addFixed W).subps = s.subps := rfl
@[simp] theorem State.addFixed_dies (s : State) (W : Warp) : (s.addFixed W).dies = s.dies := rfl
@[simp] theorem State.addFixed_faults (s : State) (W : Warp) : (s.addFixed W).faults = s.faults := rfl
@[simp] theorem State.addFixed_host (s : State) (W : Warp) : (s.addFixed W).host = s.host := rfl
@[simp] theorem State.addFixed_peers (s : State) (W : Warp) : (s.addFixed W).peers = s.peers := rfl
@[simp] theorem State.addFixed_kv (s : State) (W : Warp) : (s.addFixed W).kv = s.kv := rfl
@[simp] theorem State.addFixed_selq (s : State) (W : Warp) : (s.addFixed W).selq = s.selq := rfl
@[simp] theorem State.addFixed_tup (s : State) (W : Warp) : (s.addFixed W).tup = s.tup := rfl
@[simp] theorem State.addFixed_sx (s : State) (W : Warp) : (s.addFixed W).sx = s.sx := rfl
@[simp] theorem State.addFixed_trust (s : State) (W : Warp) : (s.addFixed W).trust = s.trust := rfl
@[simp] theorem State.addFixed_time (s : State) (W : Warp) : (s.addFixed W).time = s.time := rfl
@[simp] theorem State.addFixed_epoch (s : State) (W : Warp) : (s.addFixed W).epoch = s.epoch := rfl
@[simp] theorem State.addFixed_debugger (s : State) (W : Warp) : (s.addFixed W).debugger = s.debugger := rfl
@[simp] theorem State.addFixed_tripped (s : State) (W : Warp) : (s.addFixed W).tripped = s.tripped := rfl
@[simp] theorem State.addFixed_telemetry (s : State) (W : Warp) : (s.addFixed W).telemetry = s.telemetry := rfl
@[simp] theorem State.addFixed_nextUid (s : State) (W : Warp) : (s.addFixed W).nextUid = s.nextUid := rfl
@[simp] theorem State.addFixed_fresh (s : State) (W : Warp) : (s.addFixed W).fresh = s.fresh := rfl
@[simp] theorem State.addFixed_cur (s : State) (W : Warp) : (s.addFixed W).cur = s.cur := rfl
@[simp] theorem State.addFixed_schedule (s : State) (W : Warp) : (s.addFixed W).schedule = s.schedule := rfl

@[simp] theorem State.countCorrected_blocks (s : State) (loc : Nat) : (s.countCorrected loc).blocks = s.blocks := by unfold State.countCorrected; split <;> simp
@[simp] theorem State.countCorrected_allocs (s : State) (loc : Nat) : (s.countCorrected loc).allocs = s.allocs := by unfold State.countCorrected; split <;> simp
@[simp] theorem State.countCorrected_launches (s : State) (loc : Nat) : (s.countCorrected loc).launches = s.launches := by unfold State.countCorrected; split <;> simp
@[simp] theorem State.countCorrected_images (s : State) (loc : Nat) : (s.countCorrected loc).images = s.images := by unfold State.countCorrected; split <;> simp
@[simp] theorem State.countCorrected_mem (s : State) (loc : Nat) : (s.countCorrected loc).mem = s.mem := by unfold State.countCorrected; split <;> simp
@[simp] theorem State.countCorrected_cores (s : State) (loc : Nat) : (s.countCorrected loc).cores = s.cores := by unfold State.countCorrected; split <;> simp
@[simp] theorem State.countCorrected_subps (s : State) (loc : Nat) : (s.countCorrected loc).subps = s.subps := by unfold State.countCorrected; split <;> simp
@[simp] theorem State.countCorrected_dies (s : State) (loc : Nat) : (s.countCorrected loc).dies = s.dies := by unfold State.countCorrected; split <;> simp
@[simp] theorem State.countCorrected_faults (s : State) (loc : Nat) : (s.countCorrected loc).faults = s.faults := by unfold State.countCorrected; split <;> simp
@[simp] theorem State.countCorrected_host (s : State) (loc : Nat) : (s.countCorrected loc).host = s.host := by unfold State.countCorrected; split <;> simp
@[simp] theorem State.countCorrected_peers (s : State) (loc : Nat) : (s.countCorrected loc).peers = s.peers := by unfold State.countCorrected; split <;> simp
@[simp] theorem State.countCorrected_kv (s : State) (loc : Nat) : (s.countCorrected loc).kv = s.kv := by unfold State.countCorrected; split <;> simp
@[simp] theorem State.countCorrected_selq (s : State) (loc : Nat) : (s.countCorrected loc).selq = s.selq := by unfold State.countCorrected; split <;> simp
@[simp] theorem State.countCorrected_tup (s : State) (loc : Nat) : (s.countCorrected loc).tup = s.tup := by unfold State.countCorrected; split <;> simp
@[simp] theorem State.countCorrected_sx (s : State) (loc : Nat) : (s.countCorrected loc).sx = s.sx := by unfold State.countCorrected; split <;> simp
@[simp] theorem State.countCorrected_trust (s : State) (loc : Nat) : (s.countCorrected loc).trust = s.trust := by unfold State.countCorrected; split <;> simp
@[simp] theorem State.countCorrected_time (s : State) (loc : Nat) : (s.countCorrected loc).time = s.time := by unfold State.countCorrected; split <;> simp
@[simp] theorem State.countCorrected_epoch (s : State) (loc : Nat) : (s.countCorrected loc).epoch = s.epoch := by unfold State.countCorrected; split <;> simp
@[simp] theorem State.countCorrected_debugger (s : State) (loc : Nat) : (s.countCorrected loc).debugger = s.debugger := by unfold State.countCorrected; split <;> simp
@[simp] theorem State.countCorrected_tripped (s : State) (loc : Nat) : (s.countCorrected loc).tripped = s.tripped := by unfold State.countCorrected; split <;> simp
@[simp] theorem State.countCorrected_telemetry (s : State) (loc : Nat) : (s.countCorrected loc).telemetry = s.telemetry := by unfold State.countCorrected; split <;> simp
@[simp] theorem State.countCorrected_nextUid (s : State) (loc : Nat) : (s.countCorrected loc).nextUid = s.nextUid := by unfold State.countCorrected; split <;> simp
@[simp] theorem State.countCorrected_fresh (s : State) (loc : Nat) : (s.countCorrected loc).fresh = s.fresh := by unfold State.countCorrected; split <;> simp
@[simp] theorem State.countCorrected_cur (s : State) (loc : Nat) : (s.countCorrected loc).cur = s.cur := by unfold State.countCorrected; split <;> simp
@[simp] theorem State.countCorrected_schedule (s : State) (loc : Nat) : (s.countCorrected loc).schedule = s.schedule := by unfold State.countCorrected; split <;> simp

@[simp] theorem State.activate_blocks (s : State) (loc : Nat) (on : Bool) : (s.activate loc on).blocks = s.blocks := rfl
@[simp] theorem State.activate_allocs (s : State) (loc : Nat) (on : Bool) : (s.activate loc on).allocs = s.allocs := rfl
@[simp] theorem State.activate_launches (s : State) (loc : Nat) (on : Bool) : (s.activate loc on).launches = s.launches := rfl
@[simp] theorem State.activate_images (s : State) (loc : Nat) (on : Bool) : (s.activate loc on).images = s.images := rfl
@[simp] theorem State.activate_mem (s : State) (loc : Nat) (on : Bool) : (s.activate loc on).mem = s.mem := rfl
@[simp] theorem State.activate_cores (s : State) (loc : Nat) (on : Bool) : (s.activate loc on).cores = s.cores := rfl
@[simp] theorem State.activate_subps (s : State) (loc : Nat) (on : Bool) : (s.activate loc on).subps = s.subps := rfl
@[simp] theorem State.activate_faults (s : State) (loc : Nat) (on : Bool) : (s.activate loc on).faults = s.faults := rfl
@[simp] theorem State.activate_host (s : State) (loc : Nat) (on : Bool) : (s.activate loc on).host = s.host := rfl
@[simp] theorem State.activate_peers (s : State) (loc : Nat) (on : Bool) : (s.activate loc on).peers = s.peers := rfl
@[simp] theorem State.activate_kv (s : State) (loc : Nat) (on : Bool) : (s.activate loc on).kv = s.kv := rfl
@[simp] theorem State.activate_selq (s : State) (loc : Nat) (on : Bool) : (s.activate loc on).selq = s.selq := rfl
@[simp] theorem State.activate_tup (s : State) (loc : Nat) (on : Bool) : (s.activate loc on).tup = s.tup := rfl
@[simp] theorem State.activate_sx (s : State) (loc : Nat) (on : Bool) : (s.activate loc on).sx = s.sx := rfl
@[simp] theorem State.activate_trust (s : State) (loc : Nat) (on : Bool) : (s.activate loc on).trust = s.trust := rfl
@[simp] theorem State.activate_time (s : State) (loc : Nat) (on : Bool) : (s.activate loc on).time = s.time := rfl
@[simp] theorem State.activate_epoch (s : State) (loc : Nat) (on : Bool) : (s.activate loc on).epoch = s.epoch := rfl
@[simp] theorem State.activate_debugger (s : State) (loc : Nat) (on : Bool) : (s.activate loc on).debugger = s.debugger := rfl
@[simp] theorem State.activate_tripped (s : State) (loc : Nat) (on : Bool) : (s.activate loc on).tripped = s.tripped := rfl
@[simp] theorem State.activate_telemetry (s : State) (loc : Nat) (on : Bool) : (s.activate loc on).telemetry = s.telemetry := rfl
@[simp] theorem State.activate_nextUid (s : State) (loc : Nat) (on : Bool) : (s.activate loc on).nextUid = s.nextUid := rfl
@[simp] theorem State.activate_fresh (s : State) (loc : Nat) (on : Bool) : (s.activate loc on).fresh = s.fresh := rfl
@[simp] theorem State.activate_cur (s : State) (loc : Nat) (on : Bool) : (s.activate loc on).cur = s.cur := rfl
@[simp] theorem State.activate_schedule (s : State) (loc : Nat) (on : Bool) : (s.activate loc on).schedule = s.schedule := rfl

/-- A fold of updates that each keep what g says of a state keeps it. -/
theorem foldl_keeps {α β : Type} {f : State → α → State} (g : State → β) (h : ∀ s x, g (f s x) = g s) :
    ∀ (l : List α) (s : State), g (l.foldl f s) = g s
  | [], _ => rfl
  | x :: r, s => (foldl_keeps g h r (f s x)).trans (h s x)

/-- What a fill does to memory. -/
@[simp] theorem State.fill_mem (s : State) (loc n : Nat) : (s.fill loc n).mem = s.mem.fill loc n := by
  unfold State.fill
  exact (foldl_keeps (·.mem) (fun _ _ => by simp) _ _).trans ((foldl_keeps (·.mem) (fun _ _ => by simp) _ _).trans
    (foldl_keeps (·.mem) (fun _ _ => by simp) _ _))

@[simp] theorem State.fill_blocks (s : State) (loc n : Nat) : (s.fill loc n).blocks = s.blocks :=
  (foldl_keeps (·.blocks) (fun _ _ => by simp) _ _).trans ((foldl_keeps (·.blocks) (fun _ _ => by simp) _ _).trans
    (foldl_keeps (·.blocks) (fun _ _ => by simp) _ _))
@[simp] theorem State.fill_allocs (s : State) (loc n : Nat) : (s.fill loc n).allocs = s.allocs :=
  (foldl_keeps (·.allocs) (fun _ _ => by simp) _ _).trans ((foldl_keeps (·.allocs) (fun _ _ => by simp) _ _).trans
    (foldl_keeps (·.allocs) (fun _ _ => by simp) _ _))
@[simp] theorem State.fill_launches (s : State) (loc n : Nat) : (s.fill loc n).launches = s.launches :=
  (foldl_keeps (·.launches) (fun _ _ => by simp) _ _).trans ((foldl_keeps (·.launches) (fun _ _ => by simp) _ _).trans
    (foldl_keeps (·.launches) (fun _ _ => by simp) _ _))
@[simp] theorem State.fill_images (s : State) (loc n : Nat) : (s.fill loc n).images = s.images :=
  (foldl_keeps (·.images) (fun _ _ => by simp) _ _).trans ((foldl_keeps (·.images) (fun _ _ => by simp) _ _).trans
    (foldl_keeps (·.images) (fun _ _ => by simp) _ _))
@[simp] theorem State.fill_cores (s : State) (loc n : Nat) : (s.fill loc n).cores = s.cores :=
  (foldl_keeps (·.cores) (fun _ _ => by simp) _ _).trans ((foldl_keeps (·.cores) (fun _ _ => by simp) _ _).trans
    (foldl_keeps (·.cores) (fun _ _ => by simp) _ _))
@[simp] theorem State.fill_subps (s : State) (loc n : Nat) : (s.fill loc n).subps = s.subps :=
  (foldl_keeps (·.subps) (fun _ _ => by simp) _ _).trans ((foldl_keeps (·.subps) (fun _ _ => by simp) _ _).trans
    (foldl_keeps (·.subps) (fun _ _ => by simp) _ _))
@[simp] theorem State.fill_faults (s : State) (loc n : Nat) : (s.fill loc n).faults = s.faults :=
  (foldl_keeps (·.faults) (fun _ _ => by simp) _ _).trans ((foldl_keeps (·.faults) (fun _ _ => by simp) _ _).trans
    (foldl_keeps (·.faults) (fun _ _ => by simp) _ _))
@[simp] theorem State.fill_host (s : State) (loc n : Nat) : (s.fill loc n).host = s.host :=
  (foldl_keeps (·.host) (fun _ _ => by simp) _ _).trans ((foldl_keeps (·.host) (fun _ _ => by simp) _ _).trans
    (foldl_keeps (·.host) (fun _ _ => by simp) _ _))
@[simp] theorem State.fill_peers (s : State) (loc n : Nat) : (s.fill loc n).peers = s.peers :=
  (foldl_keeps (·.peers) (fun _ _ => by simp) _ _).trans ((foldl_keeps (·.peers) (fun _ _ => by simp) _ _).trans
    (foldl_keeps (·.peers) (fun _ _ => by simp) _ _))
@[simp] theorem State.fill_kv (s : State) (loc n : Nat) : (s.fill loc n).kv = s.kv :=
  (foldl_keeps (·.kv) (fun _ _ => by simp) _ _).trans ((foldl_keeps (·.kv) (fun _ _ => by simp) _ _).trans
    (foldl_keeps (·.kv) (fun _ _ => by simp) _ _))
@[simp] theorem State.fill_selq (s : State) (loc n : Nat) : (s.fill loc n).selq = s.selq :=
  (foldl_keeps (·.selq) (fun _ _ => by simp) _ _).trans ((foldl_keeps (·.selq) (fun _ _ => by simp) _ _).trans
    (foldl_keeps (·.selq) (fun _ _ => by simp) _ _))
@[simp] theorem State.fill_tup (s : State) (loc n : Nat) : (s.fill loc n).tup = s.tup :=
  (foldl_keeps (·.tup) (fun _ _ => by simp) _ _).trans ((foldl_keeps (·.tup) (fun _ _ => by simp) _ _).trans
    (foldl_keeps (·.tup) (fun _ _ => by simp) _ _))
@[simp] theorem State.fill_sx (s : State) (loc n : Nat) : (s.fill loc n).sx = s.sx :=
  (foldl_keeps (·.sx) (fun _ _ => by simp) _ _).trans ((foldl_keeps (·.sx) (fun _ _ => by simp) _ _).trans
    (foldl_keeps (·.sx) (fun _ _ => by simp) _ _))
@[simp] theorem State.fill_trust (s : State) (loc n : Nat) : (s.fill loc n).trust = s.trust :=
  (foldl_keeps (·.trust) (fun _ _ => by simp) _ _).trans ((foldl_keeps (·.trust) (fun _ _ => by simp) _ _).trans
    (foldl_keeps (·.trust) (fun _ _ => by simp) _ _))
@[simp] theorem State.fill_time (s : State) (loc n : Nat) : (s.fill loc n).time = s.time :=
  (foldl_keeps (·.time) (fun _ _ => by simp) _ _).trans ((foldl_keeps (·.time) (fun _ _ => by simp) _ _).trans
    (foldl_keeps (·.time) (fun _ _ => by simp) _ _))
@[simp] theorem State.fill_epoch (s : State) (loc n : Nat) : (s.fill loc n).epoch = s.epoch :=
  (foldl_keeps (·.epoch) (fun _ _ => by simp) _ _).trans ((foldl_keeps (·.epoch) (fun _ _ => by simp) _ _).trans
    (foldl_keeps (·.epoch) (fun _ _ => by simp) _ _))
@[simp] theorem State.fill_debugger (s : State) (loc n : Nat) : (s.fill loc n).debugger = s.debugger :=
  (foldl_keeps (·.debugger) (fun _ _ => by simp) _ _).trans ((foldl_keeps (·.debugger) (fun _ _ => by simp) _ _).trans
    (foldl_keeps (·.debugger) (fun _ _ => by simp) _ _))
@[simp] theorem State.fill_tripped (s : State) (loc n : Nat) : (s.fill loc n).tripped = s.tripped :=
  (foldl_keeps (·.tripped) (fun _ _ => by simp) _ _).trans ((foldl_keeps (·.tripped) (fun _ _ => by simp) _ _).trans
    (foldl_keeps (·.tripped) (fun _ _ => by simp) _ _))
@[simp] theorem State.fill_telemetry (s : State) (loc n : Nat) : (s.fill loc n).telemetry = s.telemetry :=
  (foldl_keeps (·.telemetry) (fun _ _ => by simp) _ _).trans ((foldl_keeps (·.telemetry) (fun _ _ => by simp) _ _).trans
    (foldl_keeps (·.telemetry) (fun _ _ => by simp) _ _))
@[simp] theorem State.fill_nextUid (s : State) (loc n : Nat) : (s.fill loc n).nextUid = s.nextUid :=
  (foldl_keeps (·.nextUid) (fun _ _ => by simp) _ _).trans ((foldl_keeps (·.nextUid) (fun _ _ => by simp) _ _).trans
    (foldl_keeps (·.nextUid) (fun _ _ => by simp) _ _))
@[simp] theorem State.fill_fresh (s : State) (loc n : Nat) : (s.fill loc n).fresh = s.fresh :=
  (foldl_keeps (·.fresh) (fun _ _ => by simp) _ _).trans ((foldl_keeps (·.fresh) (fun _ _ => by simp) _ _).trans
    (foldl_keeps (·.fresh) (fun _ _ => by simp) _ _))
@[simp] theorem State.fill_cur (s : State) (loc n : Nat) : (s.fill loc n).cur = s.cur :=
  (foldl_keeps (·.cur) (fun _ _ => by simp) _ _).trans ((foldl_keeps (·.cur) (fun _ _ => by simp) _ _).trans
    (foldl_keeps (·.cur) (fun _ _ => by simp) _ _))
@[simp] theorem State.fill_schedule (s : State) (loc n : Nat) : (s.fill loc n).schedule = s.schedule :=
  (foldl_keeps (·.schedule) (fun _ _ => by simp) _ _).trans ((foldl_keeps (·.schedule) (fun _ _ => by simp) _ _).trans
    (foldl_keeps (·.schedule) (fun _ _ => by simp) _ _))

@[simp] theorem State.fillVa_blocks (s : State) (cl : Option Nat) (ctx va n : Nat) : (s.fillVa cl ctx va n).blocks = s.blocks :=
  foldl_keeps (·.blocks) (fun _ _ => by simp) _ _
@[simp] theorem State.fillVa_allocs (s : State) (cl : Option Nat) (ctx va n : Nat) : (s.fillVa cl ctx va n).allocs = s.allocs :=
  foldl_keeps (·.allocs) (fun _ _ => by simp) _ _
@[simp] theorem State.fillVa_launches (s : State) (cl : Option Nat) (ctx va n : Nat) : (s.fillVa cl ctx va n).launches = s.launches :=
  foldl_keeps (·.launches) (fun _ _ => by simp) _ _
@[simp] theorem State.fillVa_images (s : State) (cl : Option Nat) (ctx va n : Nat) : (s.fillVa cl ctx va n).images = s.images :=
  foldl_keeps (·.images) (fun _ _ => by simp) _ _
@[simp] theorem State.fillVa_cores (s : State) (cl : Option Nat) (ctx va n : Nat) : (s.fillVa cl ctx va n).cores = s.cores :=
  foldl_keeps (·.cores) (fun _ _ => by simp) _ _
@[simp] theorem State.fillVa_subps (s : State) (cl : Option Nat) (ctx va n : Nat) : (s.fillVa cl ctx va n).subps = s.subps :=
  foldl_keeps (·.subps) (fun _ _ => by simp) _ _
@[simp] theorem State.fillVa_faults (s : State) (cl : Option Nat) (ctx va n : Nat) : (s.fillVa cl ctx va n).faults = s.faults :=
  foldl_keeps (·.faults) (fun _ _ => by simp) _ _
@[simp] theorem State.fillVa_host (s : State) (cl : Option Nat) (ctx va n : Nat) : (s.fillVa cl ctx va n).host = s.host :=
  foldl_keeps (·.host) (fun _ _ => by simp) _ _
@[simp] theorem State.fillVa_peers (s : State) (cl : Option Nat) (ctx va n : Nat) : (s.fillVa cl ctx va n).peers = s.peers :=
  foldl_keeps (·.peers) (fun _ _ => by simp) _ _
@[simp] theorem State.fillVa_kv (s : State) (cl : Option Nat) (ctx va n : Nat) : (s.fillVa cl ctx va n).kv = s.kv :=
  foldl_keeps (·.kv) (fun _ _ => by simp) _ _
@[simp] theorem State.fillVa_selq (s : State) (cl : Option Nat) (ctx va n : Nat) : (s.fillVa cl ctx va n).selq = s.selq :=
  foldl_keeps (·.selq) (fun _ _ => by simp) _ _
@[simp] theorem State.fillVa_tup (s : State) (cl : Option Nat) (ctx va n : Nat) : (s.fillVa cl ctx va n).tup = s.tup :=
  foldl_keeps (·.tup) (fun _ _ => by simp) _ _
@[simp] theorem State.fillVa_sx (s : State) (cl : Option Nat) (ctx va n : Nat) : (s.fillVa cl ctx va n).sx = s.sx :=
  foldl_keeps (·.sx) (fun _ _ => by simp) _ _
@[simp] theorem State.fillVa_trust (s : State) (cl : Option Nat) (ctx va n : Nat) : (s.fillVa cl ctx va n).trust = s.trust :=
  foldl_keeps (·.trust) (fun _ _ => by simp) _ _
@[simp] theorem State.fillVa_time (s : State) (cl : Option Nat) (ctx va n : Nat) : (s.fillVa cl ctx va n).time = s.time :=
  foldl_keeps (·.time) (fun _ _ => by simp) _ _
@[simp] theorem State.fillVa_epoch (s : State) (cl : Option Nat) (ctx va n : Nat) : (s.fillVa cl ctx va n).epoch = s.epoch :=
  foldl_keeps (·.epoch) (fun _ _ => by simp) _ _
@[simp] theorem State.fillVa_debugger (s : State) (cl : Option Nat) (ctx va n : Nat) : (s.fillVa cl ctx va n).debugger = s.debugger :=
  foldl_keeps (·.debugger) (fun _ _ => by simp) _ _
@[simp] theorem State.fillVa_tripped (s : State) (cl : Option Nat) (ctx va n : Nat) : (s.fillVa cl ctx va n).tripped = s.tripped :=
  foldl_keeps (·.tripped) (fun _ _ => by simp) _ _
@[simp] theorem State.fillVa_telemetry (s : State) (cl : Option Nat) (ctx va n : Nat) : (s.fillVa cl ctx va n).telemetry = s.telemetry :=
  foldl_keeps (·.telemetry) (fun _ _ => by simp) _ _
@[simp] theorem State.fillVa_nextUid (s : State) (cl : Option Nat) (ctx va n : Nat) : (s.fillVa cl ctx va n).nextUid = s.nextUid :=
  foldl_keeps (·.nextUid) (fun _ _ => by simp) _ _
@[simp] theorem State.fillVa_fresh (s : State) (cl : Option Nat) (ctx va n : Nat) : (s.fillVa cl ctx va n).fresh = s.fresh :=
  foldl_keeps (·.fresh) (fun _ _ => by simp) _ _
@[simp] theorem State.fillVa_cur (s : State) (cl : Option Nat) (ctx va n : Nat) : (s.fillVa cl ctx va n).cur = s.cur :=
  foldl_keeps (·.cur) (fun _ _ => by simp) _ _
@[simp] theorem State.fillVa_schedule (s : State) (cl : Option Nat) (ctx va n : Nat) : (s.fillVa cl ctx va n).schedule = s.schedule :=
  foldl_keeps (·.schedule) (fun _ _ => by simp) _ _

/-- A fill changes no byte. -/
theorem State.fillVa_byte (s : State) (cl : Option Nat) (ctx va n a : Nat) : (s.fillVa cl ctx va n).mem.byte a = s.mem.byte a :=
  foldl_keeps (fun s => s.mem.byte a) (fun s _ => by simp [MemSt.fill, MemSt.byte]) _ _

/-! The counts of activates, and what the slices do beside the steps of the model (R301). -/

@[simp] theorem State.setActs_blocks (s : State) (die : Nat) (t : ActCounts) : (s.setActs die t).blocks = s.blocks := rfl
@[simp] theorem State.setActs_allocs (s : State) (die : Nat) (t : ActCounts) : (s.setActs die t).allocs = s.allocs := rfl
@[simp] theorem State.setActs_launches (s : State) (die : Nat) (t : ActCounts) : (s.setActs die t).launches = s.launches := rfl
@[simp] theorem State.setActs_images (s : State) (die : Nat) (t : ActCounts) : (s.setActs die t).images = s.images := rfl
@[simp] theorem State.setActs_mem (s : State) (die : Nat) (t : ActCounts) : (s.setActs die t).mem = s.mem := rfl
@[simp] theorem State.setActs_cores (s : State) (die : Nat) (t : ActCounts) : (s.setActs die t).cores = s.cores := rfl
@[simp] theorem State.setActs_subps (s : State) (die : Nat) (t : ActCounts) : (s.setActs die t).subps = s.subps := rfl
@[simp] theorem State.setActs_faults (s : State) (die : Nat) (t : ActCounts) : (s.setActs die t).faults = s.faults := rfl
@[simp] theorem State.setActs_host (s : State) (die : Nat) (t : ActCounts) : (s.setActs die t).host = s.host := rfl
@[simp] theorem State.setActs_peers (s : State) (die : Nat) (t : ActCounts) : (s.setActs die t).peers = s.peers := rfl
@[simp] theorem State.setActs_kv (s : State) (die : Nat) (t : ActCounts) : (s.setActs die t).kv = s.kv := rfl
@[simp] theorem State.setActs_selq (s : State) (die : Nat) (t : ActCounts) : (s.setActs die t).selq = s.selq := rfl
@[simp] theorem State.setActs_tup (s : State) (die : Nat) (t : ActCounts) : (s.setActs die t).tup = s.tup := rfl
@[simp] theorem State.setActs_sx (s : State) (die : Nat) (t : ActCounts) : (s.setActs die t).sx = s.sx := rfl
@[simp] theorem State.setActs_trust (s : State) (die : Nat) (t : ActCounts) : (s.setActs die t).trust = s.trust := rfl
@[simp] theorem State.setActs_time (s : State) (die : Nat) (t : ActCounts) : (s.setActs die t).time = s.time := rfl
@[simp] theorem State.setActs_epoch (s : State) (die : Nat) (t : ActCounts) : (s.setActs die t).epoch = s.epoch := rfl
@[simp] theorem State.setActs_debugger (s : State) (die : Nat) (t : ActCounts) : (s.setActs die t).debugger = s.debugger := rfl
@[simp] theorem State.setActs_tripped (s : State) (die : Nat) (t : ActCounts) : (s.setActs die t).tripped = s.tripped := rfl
@[simp] theorem State.setActs_telemetry (s : State) (die : Nat) (t : ActCounts) : (s.setActs die t).telemetry = s.telemetry := rfl
@[simp] theorem State.setActs_nextUid (s : State) (die : Nat) (t : ActCounts) : (s.setActs die t).nextUid = s.nextUid := rfl
@[simp] theorem State.setActs_fresh (s : State) (die : Nat) (t : ActCounts) : (s.setActs die t).fresh = s.fresh := rfl
@[simp] theorem State.setActs_cur (s : State) (die : Nat) (t : ActCounts) : (s.setActs die t).cur = s.cur := rfl
@[simp] theorem State.setActs_schedule (s : State) (die : Nat) (t : ActCounts) : (s.setActs die t).schedule = s.schedule := rfl

@[simp] theorem State.slicesAct_blocks (s : State) : s.slicesAct.blocks = s.blocks :=
  (foldl_keeps (·.blocks) (fun _ _ => by split <;> simp) _ _).trans (foldl_keeps (·.blocks) (fun _ _ => by simp) _ _)
@[simp] theorem State.slicesAct_allocs (s : State) : s.slicesAct.allocs = s.allocs :=
  (foldl_keeps (·.allocs) (fun _ _ => by split <;> simp) _ _).trans (foldl_keeps (·.allocs) (fun _ _ => by simp) _ _)
@[simp] theorem State.slicesAct_launches (s : State) : s.slicesAct.launches = s.launches :=
  (foldl_keeps (·.launches) (fun _ _ => by split <;> simp) _ _).trans (foldl_keeps (·.launches) (fun _ _ => by simp) _ _)
@[simp] theorem State.slicesAct_images (s : State) : s.slicesAct.images = s.images :=
  (foldl_keeps (·.images) (fun _ _ => by split <;> simp) _ _).trans (foldl_keeps (·.images) (fun _ _ => by simp) _ _)
@[simp] theorem State.slicesAct_cores (s : State) : s.slicesAct.cores = s.cores :=
  (foldl_keeps (·.cores) (fun _ _ => by split <;> simp) _ _).trans (foldl_keeps (·.cores) (fun _ _ => by simp) _ _)
@[simp] theorem State.slicesAct_subps (s : State) : s.slicesAct.subps = s.subps :=
  (foldl_keeps (·.subps) (fun _ _ => by split <;> simp) _ _).trans (foldl_keeps (·.subps) (fun _ _ => by simp) _ _)
@[simp] theorem State.slicesAct_faults (s : State) : s.slicesAct.faults = s.faults :=
  (foldl_keeps (·.faults) (fun _ _ => by split <;> simp) _ _).trans (foldl_keeps (·.faults) (fun _ _ => by simp) _ _)
@[simp] theorem State.slicesAct_host (s : State) : s.slicesAct.host = s.host :=
  (foldl_keeps (·.host) (fun _ _ => by split <;> simp) _ _).trans (foldl_keeps (·.host) (fun _ _ => by simp) _ _)
@[simp] theorem State.slicesAct_peers (s : State) : s.slicesAct.peers = s.peers :=
  (foldl_keeps (·.peers) (fun _ _ => by split <;> simp) _ _).trans (foldl_keeps (·.peers) (fun _ _ => by simp) _ _)
@[simp] theorem State.slicesAct_kv (s : State) : s.slicesAct.kv = s.kv :=
  (foldl_keeps (·.kv) (fun _ _ => by split <;> simp) _ _).trans (foldl_keeps (·.kv) (fun _ _ => by simp) _ _)
@[simp] theorem State.slicesAct_selq (s : State) : s.slicesAct.selq = s.selq :=
  (foldl_keeps (·.selq) (fun _ _ => by split <;> simp) _ _).trans (foldl_keeps (·.selq) (fun _ _ => by simp) _ _)
@[simp] theorem State.slicesAct_tup (s : State) : s.slicesAct.tup = s.tup :=
  (foldl_keeps (·.tup) (fun _ _ => by split <;> simp) _ _).trans (foldl_keeps (·.tup) (fun _ _ => by simp) _ _)
@[simp] theorem State.slicesAct_sx (s : State) : s.slicesAct.sx = s.sx :=
  (foldl_keeps (·.sx) (fun _ _ => by split <;> simp) _ _).trans (foldl_keeps (·.sx) (fun _ _ => by simp) _ _)
@[simp] theorem State.slicesAct_trust (s : State) : s.slicesAct.trust = s.trust :=
  (foldl_keeps (·.trust) (fun _ _ => by split <;> simp) _ _).trans (foldl_keeps (·.trust) (fun _ _ => by simp) _ _)
@[simp] theorem State.slicesAct_time (s : State) : s.slicesAct.time = s.time :=
  (foldl_keeps (·.time) (fun _ _ => by split <;> simp) _ _).trans (foldl_keeps (·.time) (fun _ _ => by simp) _ _)
@[simp] theorem State.slicesAct_epoch (s : State) : s.slicesAct.epoch = s.epoch :=
  (foldl_keeps (·.epoch) (fun _ _ => by split <;> simp) _ _).trans (foldl_keeps (·.epoch) (fun _ _ => by simp) _ _)
@[simp] theorem State.slicesAct_debugger (s : State) : s.slicesAct.debugger = s.debugger :=
  (foldl_keeps (·.debugger) (fun _ _ => by split <;> simp) _ _).trans (foldl_keeps (·.debugger) (fun _ _ => by simp) _ _)
@[simp] theorem State.slicesAct_tripped (s : State) : s.slicesAct.tripped = s.tripped :=
  (foldl_keeps (·.tripped) (fun _ _ => by split <;> simp) _ _).trans (foldl_keeps (·.tripped) (fun _ _ => by simp) _ _)
@[simp] theorem State.slicesAct_telemetry (s : State) : s.slicesAct.telemetry = s.telemetry :=
  (foldl_keeps (·.telemetry) (fun _ _ => by split <;> simp) _ _).trans (foldl_keeps (·.telemetry) (fun _ _ => by simp) _ _)
@[simp] theorem State.slicesAct_nextUid (s : State) : s.slicesAct.nextUid = s.nextUid :=
  (foldl_keeps (·.nextUid) (fun _ _ => by split <;> simp) _ _).trans (foldl_keeps (·.nextUid) (fun _ _ => by simp) _ _)
@[simp] theorem State.slicesAct_fresh (s : State) : s.slicesAct.fresh = s.fresh :=
  (foldl_keeps (·.fresh) (fun _ _ => by split <;> simp) _ _).trans (foldl_keeps (·.fresh) (fun _ _ => by simp) _ _)
@[simp] theorem State.slicesAct_cur (s : State) : s.slicesAct.cur = s.cur :=
  (foldl_keeps (·.cur) (fun _ _ => by split <;> simp) _ _).trans (foldl_keeps (·.cur) (fun _ _ => by simp) _ _)
@[simp] theorem State.slicesAct_schedule (s : State) : s.slicesAct.schedule = s.schedule :=
  (foldl_keeps (·.schedule) (fun _ _ => by split <;> simp) _ _).trans (foldl_keeps (·.schedule) (fun _ _ => by simp) _ _)

/-- They change no byte. -/
theorem State.slicesAct_byte (s : State) (a : Nat) : s.slicesAct.mem.byte a = s.mem.byte a :=
  (foldl_keeps (fun s => s.mem.byte a) (fun s _ => by split <;> simp [MemSt.fill, MemSt.byte]) _ _).trans
    (foldl_keeps (fun s => s.mem.byte a) (fun _ _ => by simp) _ _)

/-! The host's commands, the ports and the slices touch their own part. -/

@[simp] theorem State.result_blocks (s : State) (r : Nat) : (s.result r).blocks = s.blocks := rfl
@[simp] theorem State.result_allocs (s : State) (r : Nat) : (s.result r).allocs = s.allocs := rfl
@[simp] theorem State.result_launches (s : State) (r : Nat) : (s.result r).launches = s.launches := rfl
@[simp] theorem State.result_images (s : State) (r : Nat) : (s.result r).images = s.images := rfl
@[simp] theorem State.result_mem (s : State) (r : Nat) : (s.result r).mem = s.mem := rfl
@[simp] theorem State.result_cores (s : State) (r : Nat) : (s.result r).cores = s.cores := rfl
@[simp] theorem State.result_subps (s : State) (r : Nat) : (s.result r).subps = s.subps := rfl
@[simp] theorem State.result_dies (s : State) (r : Nat) : (s.result r).dies = s.dies := rfl
@[simp] theorem State.result_faults (s : State) (r : Nat) : (s.result r).faults = s.faults := rfl
@[simp] theorem State.result_peers (s : State) (r : Nat) : (s.result r).peers = s.peers := rfl
@[simp] theorem State.result_kv (s : State) (r : Nat) : (s.result r).kv = s.kv := rfl
@[simp] theorem State.result_selq (s : State) (r : Nat) : (s.result r).selq = s.selq := rfl
@[simp] theorem State.result_tup (s : State) (r : Nat) : (s.result r).tup = s.tup := rfl
@[simp] theorem State.result_sx (s : State) (r : Nat) : (s.result r).sx = s.sx := rfl
@[simp] theorem State.result_trust (s : State) (r : Nat) : (s.result r).trust = s.trust := rfl
@[simp] theorem State.result_tel (s : State) (r : Nat) : (s.result r).tel = s.tel := rfl
@[simp] theorem State.result_time (s : State) (r : Nat) : (s.result r).time = s.time := rfl
@[simp] theorem State.result_epoch (s : State) (r : Nat) : (s.result r).epoch = s.epoch := rfl
@[simp] theorem State.result_debugger (s : State) (r : Nat) : (s.result r).debugger = s.debugger := rfl
@[simp] theorem State.result_tripped (s : State) (r : Nat) : (s.result r).tripped = s.tripped := rfl
@[simp] theorem State.result_telemetry (s : State) (r : Nat) : (s.result r).telemetry = s.telemetry := rfl
@[simp] theorem State.result_nextUid (s : State) (r : Nat) : (s.result r).nextUid = s.nextUid := rfl
@[simp] theorem State.result_fresh (s : State) (r : Nat) : (s.result r).fresh = s.fresh := rfl
@[simp] theorem State.result_cur (s : State) (r : Nat) : (s.result r).cur = s.cur := rfl
@[simp] theorem State.result_schedule (s : State) (r : Nat) : (s.result r).schedule = s.schedule := rfl

@[simp] theorem State.peerDrop_blocks (s : State) (port : Nat) : (s.peerDrop port).blocks = s.blocks := rfl
@[simp] theorem State.peerDrop_allocs (s : State) (port : Nat) : (s.peerDrop port).allocs = s.allocs := rfl
@[simp] theorem State.peerDrop_launches (s : State) (port : Nat) : (s.peerDrop port).launches = s.launches := rfl
@[simp] theorem State.peerDrop_images (s : State) (port : Nat) : (s.peerDrop port).images = s.images := rfl
@[simp] theorem State.peerDrop_mem (s : State) (port : Nat) : (s.peerDrop port).mem = s.mem := rfl
@[simp] theorem State.peerDrop_cores (s : State) (port : Nat) : (s.peerDrop port).cores = s.cores := rfl
@[simp] theorem State.peerDrop_subps (s : State) (port : Nat) : (s.peerDrop port).subps = s.subps := rfl
@[simp] theorem State.peerDrop_dies (s : State) (port : Nat) : (s.peerDrop port).dies = s.dies := rfl
@[simp] theorem State.peerDrop_faults (s : State) (port : Nat) : (s.peerDrop port).faults = s.faults := rfl
@[simp] theorem State.peerDrop_host (s : State) (port : Nat) : (s.peerDrop port).host = s.host := rfl
@[simp] theorem State.peerDrop_kv (s : State) (port : Nat) : (s.peerDrop port).kv = s.kv := rfl
@[simp] theorem State.peerDrop_selq (s : State) (port : Nat) : (s.peerDrop port).selq = s.selq := rfl
@[simp] theorem State.peerDrop_tup (s : State) (port : Nat) : (s.peerDrop port).tup = s.tup := rfl
@[simp] theorem State.peerDrop_sx (s : State) (port : Nat) : (s.peerDrop port).sx = s.sx := rfl
@[simp] theorem State.peerDrop_trust (s : State) (port : Nat) : (s.peerDrop port).trust = s.trust := rfl
@[simp] theorem State.peerDrop_tel (s : State) (port : Nat) : (s.peerDrop port).tel = s.tel := rfl
@[simp] theorem State.peerDrop_time (s : State) (port : Nat) : (s.peerDrop port).time = s.time := rfl
@[simp] theorem State.peerDrop_epoch (s : State) (port : Nat) : (s.peerDrop port).epoch = s.epoch := rfl
@[simp] theorem State.peerDrop_debugger (s : State) (port : Nat) : (s.peerDrop port).debugger = s.debugger := rfl
@[simp] theorem State.peerDrop_tripped (s : State) (port : Nat) : (s.peerDrop port).tripped = s.tripped := rfl
@[simp] theorem State.peerDrop_telemetry (s : State) (port : Nat) : (s.peerDrop port).telemetry = s.telemetry := rfl
@[simp] theorem State.peerDrop_nextUid (s : State) (port : Nat) : (s.peerDrop port).nextUid = s.nextUid := rfl
@[simp] theorem State.peerDrop_fresh (s : State) (port : Nat) : (s.peerDrop port).fresh = s.fresh := rfl
@[simp] theorem State.peerDrop_cur (s : State) (port : Nat) : (s.peerDrop port).cur = s.cur := rfl
@[simp] theorem State.peerDrop_schedule (s : State) (port : Nat) : (s.peerDrop port).schedule = s.schedule := rfl

@[simp] theorem State.rekey_blocks (s : State) (reach : ScramOf) : (s.rekey reach).blocks = s.blocks := rfl
@[simp] theorem State.rekey_allocs (s : State) (reach : ScramOf) : (s.rekey reach).allocs = s.allocs := rfl
@[simp] theorem State.rekey_launches (s : State) (reach : ScramOf) : (s.rekey reach).launches = s.launches := rfl
@[simp] theorem State.rekey_images (s : State) (reach : ScramOf) : (s.rekey reach).images = s.images := rfl
@[simp] theorem State.rekey_cores (s : State) (reach : ScramOf) : (s.rekey reach).cores = s.cores := rfl
@[simp] theorem State.rekey_subps (s : State) (reach : ScramOf) : (s.rekey reach).subps = s.subps := rfl
@[simp] theorem State.rekey_dies (s : State) (reach : ScramOf) : (s.rekey reach).dies = s.dies := rfl
@[simp] theorem State.rekey_faults (s : State) (reach : ScramOf) : (s.rekey reach).faults = s.faults := rfl
@[simp] theorem State.rekey_host (s : State) (reach : ScramOf) : (s.rekey reach).host = s.host := rfl
@[simp] theorem State.rekey_peers (s : State) (reach : ScramOf) : (s.rekey reach).peers = s.peers := rfl
@[simp] theorem State.rekey_kv (s : State) (reach : ScramOf) : (s.rekey reach).kv = s.kv := rfl
@[simp] theorem State.rekey_selq (s : State) (reach : ScramOf) : (s.rekey reach).selq = s.selq := rfl
@[simp] theorem State.rekey_tup (s : State) (reach : ScramOf) : (s.rekey reach).tup = s.tup := rfl
@[simp] theorem State.rekey_sx (s : State) (reach : ScramOf) : (s.rekey reach).sx = s.sx := rfl
@[simp] theorem State.rekey_trust (s : State) (reach : ScramOf) : (s.rekey reach).trust = s.trust := rfl
@[simp] theorem State.rekey_tel (s : State) (reach : ScramOf) : (s.rekey reach).tel = s.tel := rfl
@[simp] theorem State.rekey_time (s : State) (reach : ScramOf) : (s.rekey reach).time = s.time := rfl
@[simp] theorem State.rekey_epoch (s : State) (reach : ScramOf) : (s.rekey reach).epoch = s.epoch := rfl
@[simp] theorem State.rekey_debugger (s : State) (reach : ScramOf) : (s.rekey reach).debugger = s.debugger := rfl
@[simp] theorem State.rekey_tripped (s : State) (reach : ScramOf) : (s.rekey reach).tripped = s.tripped := rfl
@[simp] theorem State.rekey_telemetry (s : State) (reach : ScramOf) : (s.rekey reach).telemetry = s.telemetry := rfl
@[simp] theorem State.rekey_nextUid (s : State) (reach : ScramOf) : (s.rekey reach).nextUid = s.nextUid := rfl
@[simp] theorem State.rekey_fresh (s : State) (reach : ScramOf) : (s.rekey reach).fresh = s.fresh := rfl
@[simp] theorem State.rekey_cur (s : State) (reach : ScramOf) : (s.rekey reach).cur = s.cur := rfl
@[simp] theorem State.rekey_schedule (s : State) (reach : ScramOf) : (s.rekey reach).schedule = s.schedule := rfl

@[simp] theorem State.atPort_blocks (s : State) (slice port : Nat) : (s.atPort slice port).blocks = s.blocks := rfl
@[simp] theorem State.atPort_allocs (s : State) (slice port : Nat) : (s.atPort slice port).allocs = s.allocs := rfl
@[simp] theorem State.atPort_launches (s : State) (slice port : Nat) : (s.atPort slice port).launches = s.launches := rfl
@[simp] theorem State.atPort_images (s : State) (slice port : Nat) : (s.atPort slice port).images = s.images := rfl
@[simp] theorem State.atPort_mem (s : State) (slice port : Nat) : (s.atPort slice port).mem = s.mem := rfl
@[simp] theorem State.atPort_cores (s : State) (slice port : Nat) : (s.atPort slice port).cores = s.cores := rfl
@[simp] theorem State.atPort_subps (s : State) (slice port : Nat) : (s.atPort slice port).subps = s.subps := rfl
@[simp] theorem State.atPort_dies (s : State) (slice port : Nat) : (s.atPort slice port).dies = s.dies := rfl
@[simp] theorem State.atPort_faults (s : State) (slice port : Nat) : (s.atPort slice port).faults = s.faults := rfl
@[simp] theorem State.atPort_host (s : State) (slice port : Nat) : (s.atPort slice port).host = s.host := rfl
@[simp] theorem State.atPort_peers (s : State) (slice port : Nat) : (s.atPort slice port).peers = s.peers := rfl
@[simp] theorem State.atPort_kv (s : State) (slice port : Nat) : (s.atPort slice port).kv = s.kv := rfl
@[simp] theorem State.atPort_selq (s : State) (slice port : Nat) : (s.atPort slice port).selq = s.selq := rfl
@[simp] theorem State.atPort_sx (s : State) (slice port : Nat) : (s.atPort slice port).sx = s.sx := rfl
@[simp] theorem State.atPort_trust (s : State) (slice port : Nat) : (s.atPort slice port).trust = s.trust := rfl
@[simp] theorem State.atPort_tel (s : State) (slice port : Nat) : (s.atPort slice port).tel = s.tel := rfl
@[simp] theorem State.atPort_time (s : State) (slice port : Nat) : (s.atPort slice port).time = s.time := rfl
@[simp] theorem State.atPort_epoch (s : State) (slice port : Nat) : (s.atPort slice port).epoch = s.epoch := rfl
@[simp] theorem State.atPort_debugger (s : State) (slice port : Nat) : (s.atPort slice port).debugger = s.debugger := rfl
@[simp] theorem State.atPort_tripped (s : State) (slice port : Nat) : (s.atPort slice port).tripped = s.tripped := rfl
@[simp] theorem State.atPort_telemetry (s : State) (slice port : Nat) : (s.atPort slice port).telemetry = s.telemetry := rfl
@[simp] theorem State.atPort_nextUid (s : State) (slice port : Nat) : (s.atPort slice port).nextUid = s.nextUid := rfl
@[simp] theorem State.atPort_fresh (s : State) (slice port : Nat) : (s.atPort slice port).fresh = s.fresh := rfl
@[simp] theorem State.atPort_cur (s : State) (slice port : Nat) : (s.atPort slice port).cur = s.cur := rfl
@[simp] theorem State.atPort_schedule (s : State) (slice port : Nat) : (s.atPort slice port).schedule = s.schedule := rfl

@[simp] theorem State.modBp_blocks (s : State) (core n : Nat) (f : Breakpoint → Breakpoint) : (s.modBp core n f).blocks = s.blocks := rfl
@[simp] theorem State.modBp_allocs (s : State) (core n : Nat) (f : Breakpoint → Breakpoint) : (s.modBp core n f).allocs = s.allocs := rfl
@[simp] theorem State.modBp_launches (s : State) (core n : Nat) (f : Breakpoint → Breakpoint) : (s.modBp core n f).launches = s.launches := rfl
@[simp] theorem State.modBp_images (s : State) (core n : Nat) (f : Breakpoint → Breakpoint) : (s.modBp core n f).images = s.images := rfl
@[simp] theorem State.modBp_mem (s : State) (core n : Nat) (f : Breakpoint → Breakpoint) : (s.modBp core n f).mem = s.mem := rfl
@[simp] theorem State.modBp_subps (s : State) (core n : Nat) (f : Breakpoint → Breakpoint) : (s.modBp core n f).subps = s.subps := rfl
@[simp] theorem State.modBp_dies (s : State) (core n : Nat) (f : Breakpoint → Breakpoint) : (s.modBp core n f).dies = s.dies := rfl
@[simp] theorem State.modBp_faults (s : State) (core n : Nat) (f : Breakpoint → Breakpoint) : (s.modBp core n f).faults = s.faults := rfl
@[simp] theorem State.modBp_host (s : State) (core n : Nat) (f : Breakpoint → Breakpoint) : (s.modBp core n f).host = s.host := rfl
@[simp] theorem State.modBp_peers (s : State) (core n : Nat) (f : Breakpoint → Breakpoint) : (s.modBp core n f).peers = s.peers := rfl
@[simp] theorem State.modBp_kv (s : State) (core n : Nat) (f : Breakpoint → Breakpoint) : (s.modBp core n f).kv = s.kv := rfl
@[simp] theorem State.modBp_selq (s : State) (core n : Nat) (f : Breakpoint → Breakpoint) : (s.modBp core n f).selq = s.selq := rfl
@[simp] theorem State.modBp_tup (s : State) (core n : Nat) (f : Breakpoint → Breakpoint) : (s.modBp core n f).tup = s.tup := rfl
@[simp] theorem State.modBp_sx (s : State) (core n : Nat) (f : Breakpoint → Breakpoint) : (s.modBp core n f).sx = s.sx := rfl
@[simp] theorem State.modBp_trust (s : State) (core n : Nat) (f : Breakpoint → Breakpoint) : (s.modBp core n f).trust = s.trust := rfl
@[simp] theorem State.modBp_tel (s : State) (core n : Nat) (f : Breakpoint → Breakpoint) : (s.modBp core n f).tel = s.tel := rfl
@[simp] theorem State.modBp_time (s : State) (core n : Nat) (f : Breakpoint → Breakpoint) : (s.modBp core n f).time = s.time := rfl
@[simp] theorem State.modBp_epoch (s : State) (core n : Nat) (f : Breakpoint → Breakpoint) : (s.modBp core n f).epoch = s.epoch := rfl
@[simp] theorem State.modBp_debugger (s : State) (core n : Nat) (f : Breakpoint → Breakpoint) : (s.modBp core n f).debugger = s.debugger := rfl
@[simp] theorem State.modBp_tripped (s : State) (core n : Nat) (f : Breakpoint → Breakpoint) : (s.modBp core n f).tripped = s.tripped := rfl
@[simp] theorem State.modBp_telemetry (s : State) (core n : Nat) (f : Breakpoint → Breakpoint) : (s.modBp core n f).telemetry = s.telemetry := rfl
@[simp] theorem State.modBp_nextUid (s : State) (core n : Nat) (f : Breakpoint → Breakpoint) : (s.modBp core n f).nextUid = s.nextUid := rfl
@[simp] theorem State.modBp_fresh (s : State) (core n : Nat) (f : Breakpoint → Breakpoint) : (s.modBp core n f).fresh = s.fresh := rfl
@[simp] theorem State.modBp_cur (s : State) (core n : Nat) (f : Breakpoint → Breakpoint) : (s.modBp core n f).cur = s.cur := rfl
@[simp] theorem State.modBp_schedule (s : State) (core n : Nat) (f : Breakpoint → Breakpoint) : (s.modBp core n f).schedule = s.schedule := rfl

/-! What the updates put in their own field. -/

@[simp] theorem State.modDie_dies (s : State) (d : Nat) (f : DieSt → DieSt) : (s.modDie d f).dies = s.dies.modify d f := rfl
@[simp] theorem State.modHost_host (s : State) (f : HostSt → HostSt) : (s.modHost f).host = f s.host := rfl
@[simp] theorem State.modTup_tup (s : State) (f : TupSt → TupSt) : (s.modTup f).tup = f s.tup := rfl
@[simp] theorem State.logVa_telemetry (s : State) (ctx va : Nat) : (s.logVa ctx va).telemetry = s.telemetry ++ [(ctx, va)] := rfl

/-- A launch by its uid, after a change that keeps uids. -/
theorem State.launch?_modLaunch (s : State) (l : Nat) {f : Launch → Launch} (hf : ∀ L, (f L).uid = L.uid) (k : Nat) :
    (s.modLaunch l f).launch? k = (s.launch? k).map (fun L => if k = l then f L else L) := by
  unfold State.launch? State.modLaunch
  induction s.launches with
  | nil => rfl
  | cons L r ih =>
    have hu : (if L.uid = l then f L else L).uid = L.uid := by split <;> simp [hf]
    simp only [List.map_cons, List.find?_cons, hu]
    by_cases hk : L.uid = k
    · subst hk; simp
    · have hk' : (L.uid == k) = false := by simpa using hk
      simp only [hk', ih]

end Sys2Proof.Machine
end

