-- ==== Sys2Proof/Laws/Memory.lean ====
section
/-!
SUPPORT. Device memory: every operation keeps its canonical form; a byte after a write; a write at the slices leaves every
other byte alone.
-/
namespace Sys2Proof.Machine

/-! ## The canonical form -/

theorem Memory.wf_iff (m : MemSt) : Memory.wf m = true ↔
    twf memDefault m.bytes = true ∧ twf 0 m.owner = true ∧ twf Sig.empty m.lineSig = true ∧ twf 0 m.wcount = true := by
  simp [Memory.wf, Sig.empty, and_assoc]

/-- What changes none of the four tables keeps the form. -/
theorem Memory.wf_congr {m m' : MemSt} (hb : m'.bytes = m.bytes) (ho : m'.owner = m.owner) (hl : m'.lineSig = m.lineSig)
    (hw : m'.wcount = m.wcount) : Memory.wf m' = Memory.wf m := by
  simp [Memory.wf, hb, ho, hl, hw]

theorem Memory.wf_reset : Memory.wf State.reset.mem = true := by decide

/-- A table stays canonical through a fold of operations that keep it so. -/
theorem wf_foldl {α : Type} {f : MemSt → α → MemSt} (hf : ∀ m x, Memory.wf m = true → Memory.wf (f m x) = true) :
    ∀ (l : List α) {m : MemSt}, Memory.wf m = true → Memory.wf (l.foldl f m) = true
  | [], _, h => h
  | x :: r, _, h => wf_foldl hf r (hf _ x h)

theorem twf_count (l : List Nat) : ∀ {t : Tab Nat}, twf 0 t = true →
    twf 0 (l.foldl (fun t f => tset 0 t f (tget 0 t f + 1)) t) = true := by
  induction l with
  | nil => exact fun h => h
  | cons f r ih => exact fun h => ih (twf_tset _ _ h)

theorem Memory.wf_write {m : MemSt} (h : Memory.wf m = true) (loc : Nat) (bs : List Byte) : Memory.wf (m.write loc bs) = true := by
  obtain ⟨hb, ho, hl, hw⟩ := (Memory.wf_iff m).mp h
  exact (Memory.wf_iff _).mpr ⟨twf_tsetMany bs loc hb, ho, hl, twf_count _ hw⟩

@[simp] theorem Memory.wf_l1Drop (m : MemSt) (c loc : Nat) : Memory.wf (m.l1Drop c loc) = Memory.wf m := rfl
@[simp] theorem Memory.wf_l1Fill (m : MemSt) (c loc : Nat) : Memory.wf (m.l1Fill c loc) = Memory.wf m := by
  simp only [MemSt.l1Fill]; split <;> rfl
@[simp] theorem Memory.wf_l1Invalidate (m : MemSt) (c : Nat) (p : Nat → Bool) : Memory.wf (m.l1Invalidate c p) = Memory.wf m := rfl
@[simp] theorem Memory.wf_fill (m : MemSt) (loc n : Nat) : Memory.wf (m.fill loc n) = Memory.wf m := rfl

theorem Memory.wf_own {m : MemSt} (h : Memory.wf m = true) (core : Option Nat) (w : Nat) : Memory.wf (m.own core w) = true := by
  have key : ∀ {m : MemSt} (v : Nat), Memory.wf m = true → Memory.wf { m with owner := tset 0 m.owner w v } = true := by
    intro m v h
    obtain ⟨hb, ho, hl, hw⟩ := (Memory.wf_iff m).mp h
    exact (Memory.wf_iff _).mpr ⟨hb, twf_tset w v ho, hl, hw⟩
  have h1 : Memory.wf (match m.ownerOf w with
      | some c => m.l1Drop c w
      | none => m) = true := by split <;> simpa using h
  unfold MemSt.own
  cases core with
  | none => exact key 0 h1
  | some c => rw [Memory.wf_l1Fill]; exact key (c + 1) h1

theorem Memory.wf_perform {m : MemSt} (h : Memory.wf m = true) (core : Option Nat) (loc : Nat) (bs : List Byte) :
    Memory.wf (m.perform core loc bs) = true :=
  wf_foldl (fun _ w hm => Memory.wf_own hm core w) _ (Memory.wf_write h loc bs)

theorem Memory.wf_attach {m : MemSt} (h : Memory.wf m = true) (line : Nat) (g : Sig) : Memory.wf (m.attach line g) = true := by
  obtain ⟨hb, ho, hl, hw⟩ := (Memory.wf_iff m).mp h
  exact (Memory.wf_iff _).mpr ⟨hb, ho, twf_tset _ _ hl, hw⟩

theorem Memory.wf_refresh {m : MemSt} (h : Memory.wf m = true) (core loc n : Nat) : Memory.wf (m.refresh core loc n) = true :=
  wf_foldl (fun m w hm => by
    show Memory.wf (if m.ownerOf w = some core then m else m.l1Drop core w) = true
    split
    · exact hm
    · simpa using hm) _ h

theorem Memory.wf_l1FillLine {m : MemSt} (h : Memory.wf m = true) (core loc : Nat) : Memory.wf (m.l1FillLine core loc) = true :=
  wf_foldl (fun m w hm => by
    show Memory.wf (if m.ownerOf w = some core && (m.l1Get core w).isSome then m else m.l1Fill core w) = true
    split
    · exact hm
    · simpa using hm) _ h

theorem Memory.wf_dropByte {m : MemSt} (h : Memory.wf m = true) (fr loc : Nat) : Memory.wf (MemSt.dropByte fr m loc) = true := by
  obtain ⟨hb, ho, hl, hw⟩ := (Memory.wf_iff m).mp h
  exact (Memory.wf_iff _).mpr ⟨twf_tset _ _ hb, ho, hl, hw⟩

theorem tsorted_filter {α : Type} (p : Nat × α → Bool) : ∀ {t : Tab α}, tsorted t = true → tsorted (t.filter p) = true
  | [], _ => rfl
  | e :: r, hs => by
    obtain ⟨h1, h2⟩ := (tsorted_cons e r).mp hs
    rw [List.filter_cons]
    split
    · exact (tsorted_cons e _).mpr ⟨fun x hx => h1 x (List.mem_filter.mp hx).1, tsorted_filter p h2⟩
    · exact tsorted_filter p h2

theorem tsorted_map {α : Type} (f : α → α) : ∀ {t : Tab α}, tsorted t = true → tsorted (t.map (fun e => (e.1, f e.2))) = true
  | [], _ => rfl
  | e :: r, hs => by
    obtain ⟨h1, h2⟩ := (tsorted_cons e r).mp hs
    refine (tsorted_cons _ _).mpr ⟨fun x hx => ?_, tsorted_map f h2⟩
    obtain ⟨y, hy, rfl⟩ := List.mem_map.mp hx
    exact h1 y hy

/-- Entries taken out of a canonical table leave it canonical. -/
theorem twf_filter {α : Type} [DecidableEq α] {d : α} (p : Nat × α → Bool) {t : Tab α} (h : twf d t = true) :
    twf d (t.filter p) = true := by
  rw [twf_iff] at h ⊢
  exact ⟨tsorted_filter p h.1, fun e he => h.2 e (List.mem_filter.mp he).1⟩

theorem Memory.wf_dropLine {m : MemSt} (h : Memory.wf m = true) (fr core line : Nat) :
    Memory.wf (MemSt.dropLine fr core m line) = true := by
  have h1 := wf_foldl (f := fun m i => MemSt.dropByte fr m (128 * line + i)) (fun _ i hm => Memory.wf_dropByte hm fr (128 * line + i))
    (List.range 128) h
  unfold MemSt.dropLine
  generalize (List.range 128).foldl (fun m i => MemSt.dropByte fr m (128 * line + i)) m = m1 at h1 ⊢
  obtain ⟨hb, ho, hl, hw⟩ := (Memory.wf_iff m1).mp h1
  exact (Memory.wf_iff _).mpr ⟨hb, twf_filter _ ho, hl, hw⟩

/-- The epoch's shift of a table of signatures. -/
theorem twf_shiftTab {t : Tab Sig} (h : twf Sig.empty t = true) : twf Sig.empty (shiftTab t) = true := by
  rw [twf_iff] at h ⊢
  exact ⟨tsorted_filter _ (tsorted_map Sig.shift h.1), fun e he => by simpa using (List.mem_filter.mp he).2⟩

/-! ## Bytes -/

/-- A byte after a write, where no change of keys is pending. -/
theorem MemSt.byte_write {m : MemSt} (hs : m.scram = []) (loc : Nat) (bs : List Byte) (a : Nat) :
    (m.write loc bs).byte a = if loc ≤ a ∧ a < loc + bs.length then (bs[a - loc]?).getD memDefault else m.byte a := by
  unfold MemSt.byte
  simp [MemSt.write, hs, tget_tsetMany]

/-- The same of every byte of memory, whatever changes of keys are pending: the bytes written read as written. -/
theorem MemSt.byte_write_self (m : MemSt) (loc : Nat) (bs : List Byte) {i : Nat} (hi : i < bs.length) :
    (m.write loc bs).byte (loc + i) = bs[i] := by
  have hc : (m.write loc bs).scram.find? (fun z => z.covers (loc + i)) = none := by
    simp only [MemSt.write, List.find?_eq_none, List.mem_map]
    rintro z ⟨y, -, rfl⟩
    simp [Scram.covers, hi]
  unfold MemSt.byte
  rw [hc]
  simp only [MemSt.write, tget_tsetMany]
  rw [if_pos (by omega)]
  simp [hi]

/-- A write leaves every byte outside it as it was. -/
theorem MemSt.byte_write_ne (m : MemSt) (loc : Nat) (bs : List Byte) {a : Nat} (ha : a < loc ∨ loc + bs.length ≤ a) :
    (m.write loc bs).byte a = m.byte a := by
  have hf : ∀ l : List Scram, (l.map (fun z => ({ z with written := (List.range bs.length).map (loc + ·) ++ z.written } : Scram))).find?
        (fun z => z.covers a) = (l.find? (fun z => z.covers a)).map
      (fun z => { z with written := (List.range bs.length).map (loc + ·) ++ z.written }) := by
    intro l
    have hcov : ∀ z : Scram, Scram.covers { z with written := (List.range bs.length).map (loc + ·) ++ z.written } a = z.covers a := by
      intro z
      have : a ∉ (List.range bs.length).map (loc + ·) := by
        intro hm
        obtain ⟨i, hi, hia⟩ := List.mem_map.mp hm
        have := List.mem_range.mp hi
        omega
      simp only [Scram.covers, Scram.reaches, List.contains_eq_mem, List.mem_append, this, false_or]
    induction l with
    | nil => rfl
    | cons z r ih =>
      simp only [List.map_cons, List.find?_cons, hcov]
      split <;> simp_all
  unfold MemSt.byte
  have hw : (m.write loc bs).scram = m.scram.map (fun z => { z with written := (List.range bs.length).map (loc + ·) ++ z.written }) := rfl
  rw [hw, hf]
  cases m.scram.find? (fun z => z.covers a) with
  | some z => rfl
  | none =>
    simp only [Option.map_none, MemSt.write, tget_tsetMany]
    rw [if_neg (by omega)]

@[simp] theorem MemSt.byte_l1Drop (m : MemSt) (c loc a : Nat) : (m.l1Drop c loc).byte a = m.byte a := rfl
@[simp] theorem MemSt.byte_l1Fill (m : MemSt) (c loc a : Nat) : (m.l1Fill c loc).byte a = m.byte a := by
  simp only [MemSt.l1Fill]; split <;> rfl
@[simp] theorem MemSt.byte_unpoison (m : MemSt) (loc n a : Nat) : (m.unpoison loc n).byte a = m.byte a := rfl
@[simp] theorem Memory.wf_unpoison (m : MemSt) (loc n : Nat) : Memory.wf (m.unpoison loc n) = Memory.wf m := rfl
@[simp] theorem MemSt.byte_l1Invalidate (m : MemSt) (c : Nat) (p : Nat → Bool) (a : Nat) : (m.l1Invalidate c p).byte a = m.byte a := rfl
@[simp] theorem MemSt.byte_fill (m : MemSt) (loc n a : Nat) : (m.fill loc n).byte a = m.byte a := rfl
@[simp] theorem MemSt.byte_attach (m : MemSt) (line : Nat) (g : Sig) (a : Nat) : (m.attach line g).byte a = m.byte a := rfl

@[simp] theorem MemSt.byte_own (m : MemSt) (core : Option Nat) (w a : Nat) : (m.own core w).byte a = m.byte a := by
  unfold MemSt.own
  split <;> split <;> first | rfl | (simp only [MemSt.byte_l1Fill]; rfl)

/-- A write performed at the slices puts its bytes and no other. -/
theorem MemSt.byte_perform (m : MemSt) (core : Option Nat) (loc : Nat) (bs : List Byte) (a : Nat) :
    (m.perform core loc bs).byte a = (m.write loc bs).byte a := by
  unfold MemSt.perform
  generalize m.write loc bs = m1
  induction wordsOf loc bs.length generalizing m1 with
  | nil => rfl
  | cons w r ih => rw [List.foldl_cons, ih, MemSt.byte_own]

/-! ## Watches and acquires touch no byte -/

/-- What an acquire leaves of memory: bytes, owners, signatures and counts. -/
theorem State.acquire_mem (s : State) (b w : Nat) (g : Sig) :
    (∀ a, (s.acquire b w g).mem.byte a = s.mem.byte a) ∧ Memory.wf (s.acquire b w g).mem = Memory.wf s.mem := by
  unfold State.acquire
  split <;> simp

theorem State.trigger_mem (s : State) (b w line : Nat) :
    (∀ a, (s.trigger b w line).mem.byte a = s.mem.byte a) ∧ Memory.wf (s.trigger b w line).mem = Memory.wf s.mem := by
  unfold State.trigger
  split
  · simp
  · split
    · constructor
      · intro a; rw [(State.acquire_mem _ _ _ _).1]; rfl
      · rw [(State.acquire_mem _ _ _ _).2]; rfl
    · simp

theorem State.triggerLines_mem (s : State) (lines : List Nat) :
    (∀ a, (s.triggerLines lines).mem.byte a = s.mem.byte a) ∧ Memory.wf (s.triggerLines lines).mem = Memory.wf s.mem := by
  have inner : ∀ (ws : List (Nat × Nat)) (line : Nat) (s : State),
      (∀ a, (ws.foldl (fun s bw => s.trigger bw.1 bw.2 line) s).mem.byte a = s.mem.byte a) ∧
      Memory.wf (ws.foldl (fun s bw => s.trigger bw.1 bw.2 line) s).mem = Memory.wf s.mem := by
    intro ws line
    induction ws with
    | nil => intro s; simp
    | cons x r ih =>
      intro s
      obtain ⟨h1, h2⟩ := ih (s.trigger x.1 x.2 line)
      obtain ⟨h3, h4⟩ := State.trigger_mem s x.1 x.2 line
      exact ⟨fun a => by rw [List.foldl_cons, h1, h3], by rw [List.foldl_cons, h2, h4]⟩
  unfold State.triggerLines
  induction lines generalizing s with
  | nil => simp
  | cons x r ih =>
    obtain ⟨h1, h2⟩ := ih ((s.watchers x).foldl (fun s bw => s.trigger bw.1 bw.2 x) s)
    obtain ⟨h3, h4⟩ := inner (s.watchers x) x s
    exact ⟨fun a => by rw [List.foldl_cons, h1, h3], by rw [List.foldl_cons, h2, h4]⟩

/-- A write at the slices by an agent that is no core: its bytes, and the form kept. -/
theorem State.writeLoc_mem (s : State) (loc : Nat) (bs : List Byte) :
    (∀ a, (s.writeLoc loc bs).mem.byte a = (s.mem.write loc bs).byte a) ∧
    (Memory.wf s.mem = true → Memory.wf (s.writeLoc loc bs).mem = true) := by
  unfold State.writeLoc
  refine ⟨fun a => ?_, fun h => ?_⟩
  · rw [(State.triggerLines_mem _ _).1, MemSt.byte_perform]
  · rw [(State.triggerLines_mem _ _).2]; exact Memory.wf_perform h _ _ _

/-- The same for a warp. -/
theorem State.warpWrite_mem (s : State) (b w loc : Nat) (bs : List Byte) (rel : Bool) :
    (∀ a, (s.warpWrite b w loc bs rel).mem.byte a = (s.mem.write loc bs).byte a) ∧
    (Memory.wf s.mem = true → Memory.wf (s.warpWrite b w loc bs rel).mem = true) := by
  unfold State.warpWrite
  split
  · exact State.writeLoc_mem s loc bs
  · refine ⟨fun a => ?_, fun h => ?_⟩
    · rw [(State.triggerLines_mem _ _).1, State.setWarp_mem]
      cases rel
      · exact MemSt.byte_perform ..
      · exact (MemSt.byte_attach ..).trans (MemSt.byte_perform ..)
    · rw [(State.triggerLines_mem _ _).2, State.setWarp_mem]
      cases rel
      · exact Memory.wf_perform h _ _ _
      · exact Memory.wf_attach (Memory.wf_perform h _ _ _) _ _

/-! ## Acquires and epochs change no byte -/

/-- What the acquire of several cores leaves of memory. -/
theorem MemSt.l1Acquire_frame (m : MemSt) (cores : List Nat) (g : Sig) :
    m.l1Acquire cores g = { m with l1 := (m.l1Acquire cores g).l1 } := by
  induction cores generalizing m with
  | nil => rfl
  | cons c r ih => exact ih (m.l1Invalidate c g.has)

theorem Memory.wf_l1Acquire {m : MemSt} (h : Memory.wf m = true) (cores : List Nat) (g : Sig) :
    Memory.wf (m.l1Acquire cores g) = true := by
  rw [MemSt.l1Acquire_frame]
  exact (Memory.wf_congr rfl rfl rfl rfl).trans h

/-- What passing an epoch boundary leaves of memory (R318): every byte; the form is kept. -/
theorem State.shiftAll_mem (s : State) :
    (∀ a, s.shiftAll.mem.byte a = s.mem.byte a) ∧ (Memory.wf s.mem = true → Memory.wf s.shiftAll.mem = true) := by
  refine ⟨fun _ => rfl, fun h => ?_⟩
  obtain ⟨hb, ho, hl, hw⟩ := (Memory.wf_iff _).mp h
  exact (Memory.wf_iff _).mpr ⟨hb, ho, twf_shiftTab hl, hw⟩

theorem State.passEpochs_mem (n : Nat) (s : State) :
    (∀ a, (s.passEpochs n).mem.byte a = s.mem.byte a) ∧ (Memory.wf s.mem = true → Memory.wf (s.passEpochs n).mem = true) := by
  match n with
  | 0 => exact ⟨fun _ => rfl, id⟩
  | 1 => exact State.shiftAll_mem _
  | _ + 2 => exact ⟨fun _ => rfl, fun h => (State.shiftAll_mem _).2 ((State.shiftAll_mem _).2 h)⟩

/-- Memory as it stood now is memory: no write is left out (R232, R305). -/
theorem State.asOf_now (s : State) : s.asOf s.mem.past.length = s := by
  unfold State.asOf MemSt.asOf
  simp [seenSince]

end Sys2Proof.Machine
end

