-- ==== Sys2Proof/Tests/Slice0.lean ====
section
/-!
SUPPORT. Tests: well-formedness refuses an ill-formed term for each of its checks; words written out from the spec's
encodings decode to what they stand for; each statement with hypotheses has states and operands that meet them; and a few
single steps on values worked in the spec.
-/
-- One theorem after another: each is a kernel evaluation, and the threads of many at once do not fit in memory.
set_option Elab.async false

namespace Sys2Proof.Tests
open Sys2Proof Sys2Proof.Machine

/-! ## A word at issue -/

/-- One block of one warp on core 0, its 32 threads at one address, that warp being the one that issues (Machine/Select). -/
def base : State := { State.reset.withFetchWord 64 0 with cur := some ⟨1, 0⟩ }

/-- The warp of `base`, changed. -/
def baseWith (f : Warp → Warp) : State := base.modWarp 1 0 f

/-- The same on core 128, of class E. -/
def baseE : State := baseWith (fun W => { W with core := 128 })

/-- All four dies locked. -/
def ready (s : State) : State := { s with dies := s.dies.map (fun d => { d with lock := true }) }

/-- None of them locked: every request to HBM4E waits. -/
def unlocked (s : State) : State := { s with dies := s.dies.map (fun d => { d with lock := false }) }

def slotOf (s : State) (i : Instr) : Option Slot :=
  s.current.bind (fun bw => (shapeOf i).bind (fun h => (ctlOf i).bind (fun k =>
    (s.runOf bw.1 bw.2).map (fun r => ⟨bw.1, bw.2, r.1, r.2, h, k⟩))))

/-- The fields of `Issues` but the first four, as a test. -/
def issuesB (s : State) (i : Instr) (x : Slot) : Bool :=
  s.mayIssue x.B x.W && x.W.ready (s.clockOf x.W.core) x.k x.h.setf &&
  (s.breakAt x.B x.W i (x.site s).1 (x.chain s).isSome).isNone

def checksB (s : State) (i : Instr) (mn : Meaning) (x : Slot) : Bool :=
  (match checkWord (x.tested s i) x.h mn (x.chain s) (x.addr s) with
    | .ok false => true
    | _ => false) &&
  (s.hazard (x.begun s i) x.h mn).isNone &&
  x.h.pieces.all (fun q => !(x.begun s i).W.readsBad (mn.readMask (x.begun s i)) (q.reads ++ mn.dynReads (x.begun s i)))

/-- A word at issue that nothing stops, for which p holds too. -/
def clearB (s : State) (i : Instr) (mn : Meaning) (p : Slot → Bool) : Bool :=
  match slotOf s i with
  | none => false
  | some x => issuesB s i x && checksB s i mn x && p x

def issuedB (s : State) (i : Instr) (p : Slot → Bool) : Bool :=
  match slotOf s i with
  | none => false
  | some x => issuesB s i x && p x

theorem slotOf_atIssue {s : State} {i : Instr} {x : Slot} (h : slotOf s i = some x) : AtIssue i s x := by
  unfold slotOf at h
  obtain ⟨bw, hb, h⟩ := Option.bind_eq_some_iff.mp h
  obtain ⟨hs, hh, h⟩ := Option.bind_eq_some_iff.mp h
  obtain ⟨k, hk, h⟩ := Option.bind_eq_some_iff.mp h
  obtain ⟨r, hr, h⟩ := Option.map_eq_some_iff.mp h
  subst h
  exact ⟨hb, hh, hk, hr⟩

theorem issued_of {s : State} {i : Instr} {p : Slot → Bool} (h : issuedB s i p = true) : ∃ x, Issues i s x ∧ p x = true := by
  unfold issuedB at h
  split at h
  · contradiction
  · rename_i x hx
    simp only [issuesB, Bool.and_eq_true, Option.isNone_iff_eq_none] at h
    exact ⟨x, ⟨slotOf_atIssue hx, h.1.1.1, h.1.1.2, h.1.2⟩, h.2⟩

theorem clear_of {s : State} {i : Instr} {mn : Meaning} {p : Slot → Bool} (h : clearB s i mn p = true) :
    ∃ x, Clear i mn s x ∧ p x = true := by
  unfold clearB at h
  split at h
  · contradiction
  · rename_i x hx
    simp only [issuesB, checksB, Bool.and_eq_true, Option.isNone_iff_eq_none] at h
    obtain ⟨⟨⟨⟨ha, hb⟩, hc⟩, ⟨hd, he⟩, hf⟩, hp⟩ := h
    refine ⟨x, ⟨⟨slotOf_atIssue hx, ha, hb, hc⟩, ?_, he,
      fun q hq => by simpa using List.all_eq_true.mp hf q hq⟩, hp⟩
    split at hd
    · assumption
    · contradiction

/-- For every instruction of a list there is a slot for which it is clear in its state and p holds. -/
theorem clear_all {l : List (State × Instr × Meaning)} {p : State → Instr → Slot → Bool}
    (h : l.all (fun e => clearB e.1 e.2.1 e.2.2 (p e.1 e.2.1)) = true) :
    ∀ e ∈ l, ∃ x, Clear e.2.1 e.2.2 e.1 x ∧ p e.1 e.2.1 x = true :=
  fun e he => clear_of (List.all_eq_true.mp h e he)

/-! ## One word for each constructor -/

def k1 : Ctl := ⟨1, 0⟩
def fa (dst sa sb sc : BitVec 8) : FmtA := ⟨k1, 7, false, dst, sa, sb, sc, false, false, false⟩
def fi (dst sa : BitVec 8) (imm : BitVec 19) : FmtI := ⟨k1, 7, false, dst, sa, imm⟩
def fm (data base : BitVec 8) (off : BitVec 12) (setf : BitVec 4) : FmtM := ⟨k1, 7, false, data, base, off, setf, 0, false⟩
def fs (a b c : BitVec 8) (setf : BitVec 4) (sub : BitVec 7) : FmtS := ⟨k1, 7, false, a, b, c, setf, sub⟩
def fx (acc : BitVec 3) (a b : BitVec 8) (accd : Bool) (fmt setf : BitVec 4) : FmtX :=
  ⟨k1, 7, false, acc, a, b, false, false, false, false, accd, fmt, setf, 0⟩

/-- Words with a 32-bit integer result. -/
def integerSamples : List Instr :=
  [.iadd (fa 4 5 6 0), .isub (fa 4 5 6 2), .iadd3 (fa 4 5 6 7), .imul (fa 4 5 6 0), .imulhS32 (fa 4 5 6 0),
   .imulhN32 (fa 4 5 6 0), .imad (fa 4 5 6 7), .iminS32 (fa 4 5 6 0), .iminN32 (fa 4 5 6 0), .imaxS32 (fa 4 5 6 0),
   .imaxN32 (fa 4 5 6 0), .iabs (fa 4 5 0 0), .shl (fa 4 5 6 0), .shr (fa 4 5 6 0), .sar (fa 4 5 6 0), .rot (fa 4 5 6 0),
   .andR (fa 4 5 6 0), .orR (fa 4 5 6 0), .xorR (fa 4 5 6 0), .notR (fa 4 5 0 0), .blut (fa 4 5 6 0xAC), .popc (fa 4 5 0 0),
   .clz (fa 4 5 0 0), .brev (fa 4 5 0 0), .bfeN32 (fa 4 5 6 0), .bfeS32 (fa 4 5 6 0), .bfi (fa 4 5 6 7), .sel (fa 4 5 6 0xB),
   .iaddImm (fi 4 5 0x7FFFF), .imulImm (fi 4 5 3), .andImm (fi 4 5 3), .orImm (fi 4 5 3), .xorImm (fi 4 5 3),
   .shlImm (fi 4 5 31), .shrImm (fi 4 5 32), .sarImm (fi 4 5 40), .mov (fa 4 5 0 0), .movi (fi 4 0 0x40000)]

def pairSamples : List Instr :=
  [.iadd (fa 4 6 8 1), .isub (fa 4 6 8 1), .imadwS32 (fa 4 5 7 8), .imadwN32 (fa 4 5 7 8), .lea (fa 4 6 8 0x12),
   .mov (fa 4 6 0 1)]

def compareSamples : List Instr := [.icmp (fa 0x53 5 6 0), .icmp (fa 0xE7 6 8 0), .icmpImm (fi 0x49 5 7)]

def uniformSamples : List Instr :=
  [.wadd (fa 4 5 6 0), .wsub (fa 4 5 6 0), .wmul (fa 4 5 6 0), .wand (fa 4 5 6 0), .wor (fa 4 5 6 0), .wxor (fa 4 5 6 0),
   .wshl (fa 4 5 6 0), .wshr (fa 4 5 6 0), .wmov (fa 4 5 0 0), .waddImm (fi 4 5 1), .wmovImm (fi 4 0 1),
   .movwLane (fs 4 5 31 15 0), .movwFirst (fs 4 5 0 15 1)]

def predicateSamples : List Instr := [.pset (fa 3 5 0 0), .psetAll (fa 0 5 0 1), .plop (fa 1 2 0xB 2), .wcmp (fa 0x52 5 6 0)]

def floatSamples : List Instr :=
  [.fadd (fa 4 5 6 0xF), .faddRz (fa 4 5 6 0), .faddRu (fa 4 5 6 0), .faddRd (fa 4 5 6 0), .fmul (fa 4 5 6 0),
   .fmulRz (fa 4 5 6 0), .fmulRu (fa 4 5 6 0), .fmulRd (fa 4 5 6 0), .ffma (fa 4 5 6 7), .ffmaRz (fa 4 5 6 7),
   .ffmaRu (fa 4 5 6 7), .ffmaRd (fa 4 5 6 7), .fmin (fa 4 5 6 0), .fmax (fa 4 5 6 0), .fclass (fa 4 5 0 0),
   .frcp (fa 4 5 0 0), .frsq (fa 4 5 0 0), .fsqrt (fa 4 5 0 0), .fdiv (fa 4 5 6 0), .fex2 (fa 4 5 0 0), .flg2 (fa 4 5 0 0),
   .fsinpi (fa 4 5 0 0), .fcospi (fa 4 5 0 0), .hadd2F16 (fa 4 5 6 0), .hmul2F16 (fa 4 5 6 0), .hfma2F16 (fa 4 5 6 7),
   .hadd2Bf16 (fa 4 5 6 0), .hmul2Bf16 (fa 4 5 6 0), .hfma2Bf16 (fa 4 5 6 7)]

def convertSamples : List Instr :=
  [.cvt (fa 4 5 0x10 0x16), .cvtRz (fa 4 5 0x12 0x10), .cvtRu (fa 4 5 0x12 0x10), .cvtRd (fa 4 5 0x12 0x10),
   .pack (fa 4 5 6 0), .unpack (fa 4 5 0 8), .qblk (fa 4 5 0 2), .dqblk (fa 4 5 0 2)]

def convertPairSamples : List Instr :=
  [.cvt (fa 4 5 0x13 0x10), .cvtRz (fa 4 5 0x17 0x10), .cvtRu (fa 4 5 0x13 0x10), .cvtRd (fa 4 5 0x13 0x10)]

def collectiveSamples : List Instr :=
  [.xlane (fa 4 5 6 0x17), .pcons (fa 3 5 0 0), .pcons (fa 4 0xB 0 3), .peers (fa 4 5 0 0), .peers (fa 4 6 0 0xB),
   .red (fa 4 5 0 0), .redF32 (fa 4 5 0 0), .scan (fa 4 5 0 8), .scanF32 (fa 4 5 0 2), .elect (fs 2 5 0 15 0)]

/-- Words that read a load's or a store's address from lane registers or uniform registers, all 0 in `base`. -/
def globalSamples : List Instr :=
  [.ldLane .n8 (fm 4 6 0x7FF 0), .ldLane .s8 (fm 4 6 0 1), .ldLane .n16 (fm 4 6 0 1), .ldLane .s16 (fm 4 6 0 1),
   .ldLane .w32 (fm 4 6 0 1), .ldLane .w64 (fm 4 6 0 1), .ldLane .w128 (fm 4 10 0 11), .ldUniform .w32 (fm 4 6 0 1),
   .ldUniform .w128 (fm 4 6 0 1), .stLane .w8 (fm 4 6 0 15), .stLane .w16 (fm 4 6 0 15), .stLane .w32 (fm 4 6 0 2),
   .stLane .w64 (fm 4 6 0 2), .stLane .w128 (fm 4 10 0 2), .stUniform .w32 (fm 4 6 0 2), .lda false (fm 4 6 0 1),
   .lda true (fm 4 6 0 1), .str false (fm 4 6 0 15), .str true (fm 4 6 0 15), .atom (fs 4 6 5 1 0), .atom (fs 0xFC 6 8 15 0x49)]

def scratchSamples : List Instr :=
  [.lds .n8 (fm 4 6 0 1), .lds .w128 (fm 4 9 0 1), .sts .w8 (fm 4 6 0 15), .sts .w64 (fm 4 6 0 15), .atoms (fs 4 6 5 1 0),
   .atoms (fs 0xFC 6 8 15 0x40)]

/-- The control, system and engine words that are plain at issue. -/
def plainSamples : List Instr :=
  [.fcmp (fa 0x43 5 6 0), .rdsr (fs 4 7 0 15 0), .rdsr (fs 5 0x11 0 15 0), .wrsr (fs 0 0x12 5 15 0), .wrsr (fs 0 0x1D 6 15 0),
   .movwToLane (fs 4 6 0 15 0), .rdtime (fs 4 0 0 15 0), .rng4 (fs 4 8 14 15 0), .dualWord k1 ⟨0x00, 1, 2, 3⟩ ⟨0x0D, 9, 12, 13⟩,
   .bra (fi 0 0 2), .call (fi 4 0 0x7FFFF), .brx (fa 0 6 0 0), .brxRel (fa 0 5 0 1), .ret (fs 6 0 0 15 0),
   .retH (fs 0 0 0 15 1), .exit (fs 0 0 0 15 0), .yield (fs 0 0 0 15 0), .nop (fs 0 0 0 15 0), .lit ⟨k1, 7, 0xDEADBEEF, 0⟩,
   .rep (fs 3 1 1 15 0), .trap (fi 0 0 5), .brk (fs 0 0 0 15 0),
   .pref (fm 0 6 0 15), .fenceFull (fs 0 0 0 1 0), .fenceSig (fs 0 0 0 15 1), .monitor (fs 0 6 0 15 0), .waitm (fs 0 0xFC 0 15 0),
   .waitm (fs 0 5 0 15 0), .ldfrag (fm 4 6 0 1), .bar (fs 0 0 0 15 0), .nbarArrive (fs 3 0xFC 0 15 0), .nbarSync (fs 3 5 0 15 2),
   .nbarWait (fs 3 0 0 15 1), .gbar (fs 0 0 0 15 0), .ctokw (fs 0 0 0 15 0), .ctokp (fs 0 0 0 0 0), .mshape (fs 0 5 0 15 0),
   .mrd (fx 0 8 0 true 0 1), .mzero (fx 7 0 0 false 0 15), .attn (fs 0 8 0 1 0), .pgseal (fs 4 6 0 1 2), .nextt (fs 4 0 0 1 0),
   .psel (fs 20 8 21 2 0), .topk (fs 20 8 21 2 0), .mergek (fs 20 8 21 2 0), .ckick (fs 4 5 0 1 0), .cbset (fs 0 5 6 15 0),
   .cbwait (fs 4 6 0 1 0), .cqfence (fs 0 0 0 1 15), .tdep (fs 2 3 0 3 0), .tcpy (fs 2 3 0 3 1), .ttak (fs 2 3 0 3 1),
   .tcpyWait (fs 0x82 3 4 3 5), .ttakWait (fs 0x82 3 4 3 5), .sxinit (fs 6 4 0 4 0), .sxqry (fs 6 4 25 4 0),
   .sxtrim (fs 6 4 0 4 0), .sxsave (fs 6 3 4 4 0), .sxload (fs 6 3 4 4 0), .dsweep (fs 3 4 0 1 0), .pgpin (fs 3 4 0 1 0),
   .pgunpin (fs 3 4 0 1 0), .pgrecall (fs 3 4 6 1 0), .pgdemote (fs 3 4 6 1 0), .launch (fs 2 4 6 5 0)]

/-- Words that read lanes beyond the executing ones. -/
def wideSamples : List Instr :=
  [.mma (fx 0 8 32 true 0 1), .mwr (fx 0 8 0 false 0 15), .stfrag (fm 4 6 0 15), .sxapp (fs 6 4 25 4 0)]


/-! ## Witnesses: the words -/

def all32 : Meaning := readsLanes (fun _ => BitVec.allOnes 32)

/-- Every instruction of a list is clear in s with what q asks of it. -/
def clears (s : State) (l : List Instr) (q : Instr → Bool) : Prop := ∀ i ∈ l, ∃ x, Clear i plainCheck s x ∧ q i = true

theorem clears_of {s : State} {l : List Instr} {q : Instr → Bool}
    (h : l.all (fun i => clearB s i plainCheck (fun _ => q i)) = true) : clears s l q :=
  fun i hi => clear_of (List.all_eq_true.mp h i hi)

theorem witness_IntegerWords : clears base integerSamples (fun i => (integerValue i).isSome) := clears_of (by decide +kernel)
theorem witness_PairWords : clears base pairSamples (fun i => (pairValue i).isSome) := clears_of (by decide +kernel)
theorem witness_Compares : clears base compareSamples (fun i => (compareTest i).isSome) := clears_of (by decide +kernel)
theorem witness_PredicateWords : clears base predicateSamples (fun i => (predicateValue i).isSome) :=
  clears_of (by decide +kernel)
theorem witness_FloatWords : clears base floatSamples (fun i => (floatValue i).isSome) := clears_of (by decide +kernel)
theorem witness_ConvertWords : clears base convertSamples (fun i => (convertValue i).isSome) ∧
    clears base convertPairSamples (fun i => (convertPair i).isSome) := ⟨clears_of (by decide +kernel), clears_of (by decide +kernel)⟩

/-- FCMP, RDSR, WRSR, MOVW, RDTIME, RNG4, the dual word, branches and the other control words, the matrix, selector,
engine and system words: each is clear in `base`. -/
theorem witness_plain_words : clears base plainSamples (fun _ => true) := clears_of (by decide +kernel)

theorem witness_wide_words : ∀ i ∈ wideSamples, ∃ x, Clear i all32 base x :=
  fun i hi => (clear_of (p := fun _ => true) (List.all_eq_true.mp (by decide +kernel :
    wideSamples.all (fun i => clearB base i all32 (fun _ => true)) = true) i hi)).imp fun _ h => h.1

theorem witness_UniformAndPredicateWords : ∀ i ∈ uniformSamples, ∃ d g k x, uniformValue i = some (d, g, k) ∧ Clear i (readsOne k) base x := by
  intro i hi
  have h := List.all_eq_true.mp (by decide +kernel : uniformSamples.all (fun i => match uniformValue i with
    | some e => clearB base i (readsOne e.2.2) (fun _ => true)
    | none => false) = true) i hi
  split at h
  · rename_i e he
    obtain ⟨x, hx, -⟩ := clear_of h
    exact ⟨e.1, e.2.1, e.2.2, x, he, hx⟩
  · contradiction

theorem witness_CollectiveAndDualWords : ∀ i ∈ collectiveSamples, ∃ mn e x, collectiveEffect i = some (mn, e) ∧ Clear i mn base x := by
  intro i hi
  have h := List.all_eq_true.mp (by decide +kernel : collectiveSamples.all (fun i => match collectiveEffect i with
    | some e => clearB base i e.1 (fun _ => true)
    | none => false) = true) i hi
  split at h
  · rename_i e he
    obtain ⟨x, hx, -⟩ := clear_of h
    exact ⟨e.1, e.2, x, he, hx⟩
  · contradiction

/-- LDIX and STIX with index registers that reach v9. -/
theorem witness_IndexedMoveTimeRandom :
    let s := baseWith (fun W => W.modThreads (BitVec.allOnes 32) (fun t => { t with ix0 := 5, ix1 := 243 }))
    (∃ x, Clear (.ldix (fs 4 4 0 15 0)) (ldixCheck (fs 4 4 0 15 0)) s x) ∧
    (∃ x, Clear (.stix (fs 4 4 0 15 1)) (stixCheck (fs 4 4 0 15 1)) s x) :=
  ⟨(clear_of (p := fun _ => true) (by decide +kernel)).imp fun _ h => h.1,
    (clear_of (p := fun _ => true) (by decide +kernel)).imp fun _ h => h.1⟩

/-- A word whose DIST has not passed, one whose WAIT names a flag that counts, one whose SETF counts 63. -/
theorem witness_WordBegins :
    let waits (f : Warp → Warp) (i : Instr) (p : Slot → Bool) : Prop :=
      (encode i).isSome = true ∧ ∃ x, AtIssue i (baseWith f) x ∧ p x = true
    waits (fun W => { W with lastIssue := some 0 }) (.nop ⟨⟨7, 0⟩, 7, false, 0, 0, 0, 15, 0⟩)
      (fun x => x.W.lastIssue == some 0 && decide ((baseWith fun W => { W with lastIssue := some 0 }).clockOf x.W.core < 7)) ∧
    waits (fun W => { W with flags := [(11, 1)] }) (.nop ⟨⟨1, 0x800⟩, 7, false, 0, 0, 0, 15, 0⟩)
      (fun x => x.k.wait.getLsbD 11 && tget 0 x.W.flags 11 == 1) ∧
    waits (fun W => { W with flags := [(0, 63)] }) (.fenceFull (fs 0 0 0 0 0))
      (fun x => x.h.setf.toNat == 0 && decide (63 ≤ tget 0 x.W.flags 0)) := by
  have h : ∀ {s : State} {i : Instr} {p : Slot → Bool}, (match slotOf s i with | none => false | some x => p x) = true →
      ∃ x, AtIssue i s x ∧ p x = true := by
    intro s i p h
    split at h
    · contradiction
    · rename_i x hx; exact ⟨x, slotOf_atIssue hx, h⟩
  exact ⟨⟨by decide, h (by decide +kernel)⟩, ⟨by decide, h (by decide +kernel)⟩, ⟨by decide, h (by decide +kernel)⟩⟩

/-- A field of a wrong value, a literal with no LIT before it, three sources of one bank, a latch with no chain; an
unassigned opcode. -/
theorem witness_StaticChecks :
    let one (i : Instr) (p : Slot → Bool) : Prop := (encode i).isSome = true ∧ ∃ x, Issues i base x ∧ p x = true
    one (.iadd (fa 4 5 6 3)) (fun x => x.h.pieces.any (fun q => !q.ok)) ∧
    one (.iadd (fa 4 0xFE 6 0)) (fun x => x.h.pieces.all (fun q => q.ok) && !litOk x.W x.h x.run (x.addr base)) ∧
    one (.iadd3 (fa 4 4 8 12)) (fun x => x.h.pieces.all (fun q => q.ok) && litOk x.W x.h x.run (x.addr base) && !x.h.bankOk) ∧
    one (.iadd (fa 4 0xF8 6 0)) (fun x => x.h.pieces.all (fun q => q.ok) && litOk x.W x.h x.run (x.addr base) && x.h.bankOk &&
      !chainOk (x.chain base) x.h) ∧
    (unassignedWord 0x0E000000003F0001 = true ∧ ∃ x, Issues (.unassignedOpcode 0x0E000000003F0001) base x) := by
  refine ⟨⟨by decide, issued_of (by decide +kernel)⟩, ⟨by decide, issued_of (by decide +kernel)⟩,
    ⟨by decide, issued_of (by decide +kernel)⟩, ⟨by decide, issued_of (by decide +kernel)⟩, by decide,
    (issued_of (p := fun _ => true) (by decide +kernel)).imp fun _ h => h.1⟩

/-- SXINIT and an MMA of an MX format on class E. -/
theorem witness_Migrates :
    let mx : Instr := .mma ⟨k1, 7, false, 0, 8, 10, true, true, false, false, true, 7, 1, 0⟩
    ∀ i ∈ [.sxinit (fs 6 4 0 4 0), mx], (encode i).isSome = true ∧ ∃ x, Issues i baseE x ∧
      (x.h.pieces.all Piece.ok && litOk x.W x.h x.run (x.addr baseE) && x.h.bankOk && chainOk (x.chain baseE) x.h && x.h.mig &&
        decide (128 ≤ x.W.core)) = true := by
  intro mx i hi
  have h : ([.sxinit (fs 6 4 0 4 0), mx] : List Instr).all (fun i => (encode i).isSome && issuedB baseE i (fun x =>
      x.h.pieces.all Piece.ok && litOk x.W x.h x.run (x.addr baseE) && x.h.bankOk && chainOk (x.chain baseE) x.h && x.h.mig &&
        decide (128 ≤ x.W.core))) = true := by decide +kernel
  have h1 := List.all_eq_true.mp h i hi
  simp only [Bool.and_eq_true] at h1
  exact ⟨h1.1, issued_of h1.2⟩

def legalB (s : State) (x : Slot) : Bool :=
  x.h.pieces.all Piece.ok && litOk x.W x.h x.run (x.addr s) && x.h.bankOk && chainOk (x.chain s) x.h &&
    (!x.h.mig || decide (x.W.core < 128))

theorem legal_of {s : State} {x : Slot} (h : legalB s x = true) : x.Legal s := by
  simp only [legalB, Bool.and_eq_true, Bool.or_eq_true, Bool.not_eq_true', decide_eq_true_eq] at h
  exact ⟨h.1.1.1.1, h.1.1.1.2, h.1.1.2, h.1.2, h.2⟩

def namedB (x : Slot) : Bool :=
  match x.h.tile, x.h.bar with
  | some t, _ => decide (t < x.B.nacc)
  | none, some id => decide (id < x.B.nbars)
  | none, none => true

theorem named_of {x : Slot} (h : namedB x = true) : x.Named := by
  unfold namedB at h
  constructor <;> intros <;> simp_all

/-- A word whose bits are legal, at issue in s, with what p asks of it. -/
theorem legals_of {s : State} {i : Instr} {p : Slot → Bool} (h : issuedB s i (fun x => legalB s x && p x) = true) :
    ∃ x, Issues i s x ∧ x.Legal s ∧ p x = true := by
  obtain ⟨x, hx, hp⟩ := issued_of h
  simp only [Bool.and_eq_true] at hp
  exact ⟨x, hx, legal_of hp.1, hp.2⟩

/-- `base` with a block of 5 lane registers, 4 uniform registers, one tile and one barrier: a word that names a tile and one that names
a barrier; v5 is out, for one word and for one half; a uniform register of an SXM word and one of an MXN word on class N; a register
that REP stepped past the last; LDIX and STIX whose lane 3 reaches v6. -/
theorem witness_RegisterBounds :
    let s := base.modBlock 1 (fun B => { B with a := 5, u := 4, nacc := 1, nbars := 1 })
    let out (i : Instr) (half n : Nat) : Prop := (encode i).isSome = true ∧ ∃ x, Issues i s x ∧ x.Legal s ∧ (namedB x &&
      halfCode (x.h.pieces.map (fun q => !(x.outs q).isEmpty)) == half && x.h.pieces.any (fun q => (x.outs q).contains n) &&
      x.h.pieces.all (fun q => (x.outs q).all (fun m => decide (n ≤ m)))) = true
    let reaches (i : Instr) : Prop := (encode i).isSome = true ∧
      let t := s.modWarp 1 0 (fun W => W.modThreads (BitVec.allOnes 32) (fun t => { t with ix0 := 2, ix1 := 2 }))
      ∃ x, Issues i t x ∧ x.Legal t ∧ (namedB x && x.h.pieces.all (fun q => x.outs q == []) &&
        lowestLane (x.indexBeyond t i).1 == some 0 && (x.indexBeyond t i).2 0 == 6) = true
    (∃ x, Issues (.mzero (fx 7 0 0 false 0 15)) s x ∧ x.Legal s ∧ (x.h.tile == some 7 && x.B.nacc == 1) = true) ∧
    (∃ x, Issues (.nbarArrive (fs 3 0xFC 0 15 0)) s x ∧ x.Legal s ∧ (x.h.tile.isNone && x.h.bar == some 3 && x.B.nbars == 1) = true) ∧
    out (.iadd (fa 4 5 6 0)) 0 5 ∧ out (.wadd (fa 3 4 2 0)) 0 0x104 ∧ out (.sxinit (fs 6 4 0 4 0)) 0 0x104 ∧
    out (.dualWord k1 ⟨0x00, 1, 2, 3⟩ ⟨0x00, 4, 9, 2⟩) 3 9 ∧
    out (.mma ⟨k1, 7, false, 0, 2, 6, true, true, false, false, true, 7, 1, 0⟩) 0 0x106 ∧ reaches (.ldix (fs 4 4 0 15 0)) ∧ reaches (.stix (fs 4 4 0 15 1)) ∧
    (let r := baseWith (fun W => { W with repc := 3, rep := some ⟨BitVec.allOnes 32, fs 3 1 1 15 0, [256]⟩ })
     ∃ x, Issues (.iadd (fa 4 5 6 0)) r x ∧ x.Legal r ∧ (x.h.pieces.all (fun q => x.outs q == [256])) = true) :=
  ⟨legals_of (by decide +kernel), legals_of (by decide +kernel), ⟨by decide, legals_of (by decide +kernel)⟩,
    ⟨by decide, legals_of (by decide +kernel)⟩, ⟨by decide, legals_of (by decide +kernel)⟩, ⟨by decide, legals_of (by decide +kernel)⟩,
    ⟨by decide, legals_of (by decide +kernel)⟩, ⟨by decide, legals_of (by decide +kernel)⟩, ⟨by decide, legals_of (by decide +kernel)⟩,
    legals_of (by decide +kernel)⟩

/-- A word at issue that passes steps 1 to 6 of R86, with what p asks of it. -/
theorem passes_of {s : State} {i : Instr} {p : Slot → Bool} (h : issuedB s i (fun x => legalB s x && (namedB x &&
    x.h.pieces.all (fun q => (x.outs q).isEmpty) && (x.indexBeyond s i).1 == 0 && p x)) = true) :
    ∃ x, Issues i s x ∧ x.Passes s i ∧ p x = true := by
  obtain ⟨x, hx, hl, hp⟩ := legals_of h
  simp only [Bool.and_eq_true, beq_iff_eq] at hp
  refine ⟨x, hx, { toLegal := hl, named := named_of hp.1.1.1, outs := fun q hq => ?_, index := hp.1.2 }, hp.2⟩
  simpa using List.all_eq_true.mp hp.1.1.2 q hq

/-- `base` in checked mode (FLAGS.CHECKED). -/
def checkedMode (s : State) : State := { s with launches := s.launches.map (fun L => { L with record := L.record.set 1 0x2003000000000000 }) }

/-- A breakpoint of core 0 on the word at 0x10000. -/
def broken (ctl : Word) (s : State) : State := s.modCore 0 (fun c => { c with bps := setNth c.bps 0 ⟨0x10000, ctl⟩ })

/-- Checked mode: a source of a load for which no word has waited, and one whose result is not due; a source with a double-bit error;
a breakpoint on IADD with and without a debugger; a REP target that is a dual word. -/
theorem witness_IssueTraps :
    let i : Instr := .iadd (fa 4 5 6 0)
    (encode i).isSome = true ∧
    (let s := checkedMode (baseWith (fun W => { W with unwaited := [(0, .lane 5)] }))
     ∃ x, Issues i s x ∧ x.Passes s i ∧ (((s.launch? x.B.launch).map (fun L => (nth 0 L.record 1).getLsbD 61)).getD false &&
       x.h.pieces.all (fun q => q.reads.contains (.lane 5) && (x.begun s i).W.unwaited.contains (0, .lane 5))) = true) ∧
    (let s := checkedMode (baseWith (fun W => { W with early := [⟨.lane 5, none, 6, BitVec.allOnes 32, [], 0⟩] }))
     ∃ x, Issues i s x ∧ x.Passes s i ∧ (x.h.pieces.all (fun q => q.reads.contains (.lane 5)) && ((x.begun s i).W.due (.lane 5)).isSome) = true) ∧
    (let s := baseWith (fun W => { W with badV := [32 * 5 + 3] })
     ∃ x, Issues i s x ∧ x.Passes s i ∧ (!((s.launch? x.B.launch).map (fun L => (nth 0 L.record 1).getLsbD 61)).getD false &&
       x.h.pieces.all (fun q => q.reads.contains (.lane 5)) && (x.readLanes s i).getLsbD 3 &&
       (x.begun s i).W.badV.contains (32 * 5 + 3)) = true) ∧
    (∀ d : Bool, let s := { broken 1 base with debugger := d }
     (match slotOf s i with
       | some x => s.mayIssue x.B x.W && x.W.ready (s.clockOf x.W.core) x.k x.h.setf && (x.chain s).isNone && x.addr s == 0x10000 &&
           (x.site s).1.iter.isNone && x.W.skip != ⟨true, 0x10000, false, 0⟩ &&
           (s.core x.W.core).bps.contains ⟨0x10000, 1⟩
       | none => false) = true) ∧
    (let rep : FmtS := fs 3 1 1 15 0
     let s := baseWith (fun W => { W with repc := 3, rep := some ⟨BitVec.allOnes 32, rep, []⟩ })
     ∃ x, Issues (.repIteration rep 0x8000) s x ∧ (x.W.rep.isSome && (0x8000 : BitVec 64).getLsbD 15) = true) := by
  refine ⟨by decide, passes_of (by decide +kernel), passes_of (by decide +kernel), passes_of (by decide +kernel), ?_,
    issued_of (by decide +kernel)⟩
  intro d; cases d <;> decide +kernel

/-- BRX with a target beyond bit 51, one that is odd, and one that is neither. -/
theorem witness_Branches :
    let at' (lo hi : Word) : State := baseWith (fun W => { W with v := [(6 * 32, lo), (7 * 32, hi)] })
    let i : Instr := .brx (fa 0 6 0 0)
    (indirectTarget i).isSome = true ∧
    (∃ x, Clear i plainCheck (at' 0 0x00100000) x ∧
      ((x.ctx (at' 0 0x00100000) i plainCheck none).src64 6 0 == 0x0010000000000000) = true) ∧
    (∃ x, Clear i plainCheck (at' 4 0) x ∧ ((x.ctx (at' 4 0) i plainCheck none).src64 6 0 == 4) = true) ∧
    ∃ x, Clear i plainCheck (at' 0xFFFFFFF8 0x000FFFFF) x ∧
      ((x.ctx (at' 0xFFFFFFF8 0x000FFFFF) i plainCheck none).src64 6 0 == 0x000FFFFFFFFFFFF8) = true :=
  ⟨by decide, clear_of (by decide +kernel), clear_of (by decide +kernel), clear_of (by decide +kernel)⟩

/-! ## Witnesses: control flow and exceptions -/

/-- The launch of `base`, changed. -/
def withLaunch (s : State) (f : Launch → Launch) : State := { s with launches := s.launches.map f }

/-- Dword k of the launch's record set. -/
def withRecord (s : State) (k : Nat) (v : Dword) : State := withLaunch s (fun L => { L with record := L.record.set k v })

/-- A handler at 0x20000. -/
def handled (s : State) : State := withRecord s 8 0x20000
/-- Deterministic mode (FLAGS.DET), and a cooperative grid (FLAGS.COOP). -/
def deterministic (s : State) : State := withRecord s 1 0x4003000000000000
def cooperative (s : State) : State := withRecord s 1 0x8003000000000000

/-- The words in the lanes of a false predicate as well as in those of a true one. -/
def predP1 (i : Instr) : Instr :=
  match i with
  | .trap f => .trap { f with pred := 1 }
  | .exit f => .exit { f with pred := 1 }
  | i => i

theorem witness_LitRep : (∃ x, Clear (.lit ⟨k1, 7, 0xDEADBEEF, 0⟩) plainCheck base x) ∧
    ∃ x, Clear (.rep (fs 3 1 1 15 0)) plainCheck base x ∧ x.W.rep.isNone = true :=
  ⟨(clear_of (p := fun _ => true) (by decide +kernel)).imp fun _ h => h.1, clear_of (by decide +kernel)⟩

/-- Iteration 1 of 4 of IADD v4, v5, v6 with its destination stepped by 1. -/
theorem witness_RepIteration :
    let rep : FmtS := fs 3 1 1 15 0
    let target : BitVec 64 := (encode (.iadd (fa 4 5 6 0))).getD 0
    let s := baseWith (fun W => { W with repc := 3, rep := some ⟨BitVec.allOnes 32, rep, []⟩ })
    targetOk rep target = true ∧
    (match s.current with
      | some (B, W) => W.rep == some ⟨BitVec.allOnes 32, rep, []⟩ &&
          (match steppedTarget rep target (W.iteration s.fresh rep) with
            | some (t, overs) =>
              decodeWord t == .iadd (fa 5 5 6 0) && overs == [] &&
              clearB (s.setWarp B.uid { W with rep := some ⟨BitVec.allOnes 32, rep, overs⟩ }) (decodeWord t) plainCheck (fun _ => true)
            | none => false)
      | none => false) = true := by
  decide +kernel

/-- TRAP and BRK, and TRAP with a predicate that is false in every lane. -/
theorem witness_TrapWords :
    (∃ x, Clear (.trap (fi 0 0 5)) plainCheck base x ∧ ((x.ctx base (.trap (fi 0 0 5)) plainCheck none).exec != 0) = true) ∧
    (∃ x, Clear (predP1 (.trap (fi 0 0 5))) plainCheck base x ∧
      ((x.ctx base (predP1 (.trap (fi 0 0 5))) plainCheck none).exec == 0) = true) ∧
    ∃ x, Clear (.brk (fs 0 0 0 15 0)) plainCheck base x :=
  ⟨clear_of (by decide +kernel), clear_of (by decide +kernel),
    (clear_of (p := fun _ => true) (by decide +kernel)).imp fun _ h => h.1⟩

/-- The block, its warp and its launch in a state, with what p asks of them. -/
def found (s : State) (p : Block → Warp → Launch → Bool) : Bool :=
  match s.block? 1, s.warp? 1 0 with
  | some B, some W =>
    (match s.launch? B.launch with
      | some L => B.uid == 1 && p B W L
      | none => false)
  | _, _ => false

theorem found_of {s : State} {p : Block → Warp → Launch → Bool} (h : found s p = true) :
    ∃ B W L, s.block? B.uid = some B ∧ s.warp? B.uid 0 = some W ∧ s.launch? B.launch = some L ∧ p B W L = true := by
  unfold found at h
  split at h
  · rename_i B W hB hW
    split at h
    · rename_i L hL
      simp only [Bool.and_eq_true, beq_iff_eq] at h
      exact ⟨B, W, L, by rw [h.1]; exact hB, by rw [h.1]; exact hW, hL, h.2⟩
    · contradiction
  · contradiction

def inHandler (m : Mask) : State := handled (baseWith (fun W => { W with handler := m }))

/-- A trap with H = 0; one of a thread in H; one of a run apart from H. -/
theorem witness_TrapEntry :
    (∃ B W L, (handled base).block? B.uid = some B ∧ (handled base).warp? B.uid 0 = some W ∧
      (handled base).launch? B.launch = some L ∧ (L.handler == 0x20000 && W.handler == 0) = true) ∧
    destOf causeUser = .handlerElseAbort ∧ destOf causeBreak = .debugger ∧ (handled base).debugger = false ∧
    ∃ B W L, (inHandler 1).block? B.uid = some B ∧ (inHandler 1).warp? B.uid 0 = some W ∧
      (inHandler 1).launch? B.launch = some L ∧ (L.handler == 0x20000 && W.handler == 1) = true :=
  ⟨found_of (by decide +kernel), by decide, by decide, by decide +kernel, found_of (by decide +kernel)⟩

theorem witness_BlockAborts :
    ∃ B W L, base.block? B.uid = some B ∧ base.warp? B.uid 0 = some W ∧ base.launch? B.launch = some L ∧
      (!B.aborted) = true := found_of (by decide +kernel)

/-- RET.h with H = 0, with %trapret odd, and one that completes; EXIT of half the threads. -/
theorem witness_HandlerReturnAndExit :
    let i : Instr := .retH (fs 0 0 0 15 1)
    let s (h : Mask) (r : BitVec 52) : State := baseWith (fun W => { W with handler := h, trap := { W.trap with ret := r } })
    (∃ x, Clear i plainCheck (s 0 0) x ∧ (x.W.handler == 0) = true) ∧
    (∃ x, Clear i plainCheck (s 1 0) x ∧ (x.run &&& ~~~x.W.handler != 0) = true) ∧
    (∃ x, Clear i plainCheck (s (BitVec.allOnes 32) 4) x ∧
      (x.run &&& ~~~x.W.handler == 0 && x.W.trap.ret.toNat % 8 != 0) = true) ∧
    (∃ x, Clear i plainCheck (s (BitVec.allOnes 32) 8) x ∧
      (x.W.handler != 0 && x.run &&& ~~~x.W.handler == 0 && x.W.trap.ret.toNat % 8 == 0) = true) ∧
    ∃ x, Clear (.exit (fs 0 0 0 15 0)) plainCheck (s (BitVec.allOnes 32) 8) x :=
  ⟨clear_of (by decide +kernel), clear_of (by decide +kernel), clear_of (by decide +kernel), clear_of (by decide +kernel),
    (clear_of (p := fun _ => true) (by decide +kernel)).imp fun _ h => h.1⟩

theorem witness_ExitWord : ∃ x, Clear (.exit (fs 0 0 0 15 0)) plainCheck base x :=
  (clear_of (p := fun _ => true) (by decide +kernel)).imp fun _ h => h.1

/-- The warp of `base` at an address. -/
def atPc (s : State) (pc : BitVec 52) : State :=
  s.modWarp 1 0 (fun W => W.modThreads (BitVec.allOnes 32) (fun t => { t with pc := pc }))

/-- The leaf of `base`'s pages with other permissions (Table 14.2: bit 0 V, 1 R, 2 W, 3 X). -/
def withLeaf (s : State) (e : Nat) : State := { s with mem := s.mem.write 0x3000 (leBytes 8 e) }

def fetches (s : State) (f : Fetch) : Bool :=
  match s.current with
  | some (B, W) => W.rep.isNone && s.mayIssue B W &&
      (match s.runOf B W with
        | some (_, pc) => s.fetch W.core B.ctx pc == f
        | none => false)
  | none => false

/-- A page that may not be executed, a poisoned word, an unmapped page. -/
theorem witness_FetchFaults :
    fetches (withLeaf base 0x207) .prot = true ∧
    fetches { base with mem := { base.mem with poison := [0x1000] } } .poison = true ∧
    fetches (atPc base 0x40000000) .fault = true := by
  decide +kernel

/-! ## Witnesses: the step, reset, encodings -/

theorem witness_EncodeDecodes : ∀ i ∈ integerSamples ++ pairSamples ++ compareSamples ++ uniformSamples ++ predicateSamples ++
    floatSamples ++ convertSamples ++ collectiveSamples ++ globalSamples ++ scratchSamples ++ plainSamples ++ wideSamples,
    i.wellFormed = true ∧ (encode i).isSome = true := by
  decide +kernel

/-- The state in which the example word of R66 is the next to issue. -/
def placed : State := State.reset.withFetchWord 64 0x00E0C0A094490013

/-- A sub-partition with no warp; one whose warp issues the word at its address; the same under REP, where the word is the
target. -/
theorem witness_StepRunsWord :
    let s1 := placed.beginTurn placed.nextTurn
    placed.nextTurn.act = .issue 0 0 ∧ coreIdValid 0 = true ∧ s1.tripped = false ∧ (s1.selectWarp 1 0).isNone = true ∧
    (match s1.selectWarp 0 0 with
      | some (B, W) => (s1.runOf B W).map (·.2) == some 0x10000 && W.rep.isNone &&
          s1.access (some (coreCluster W.core)) B.ctx 0x10000 .fetch == .mem 0x10000 && !s1.mem.poisoned 0x10000 8 &&
          (match decode (s1.mem.read 0x10000 8) with
            | .ok (i, rest) => i == .ffmaRz ⟨⟨3, 2⟩, 2, true, 4, 5, 6, 7, false, false, false⟩ && rest == []
            | .error _ => false)
      | none => false) = true := by
  decide +kernel

theorem witness_RunsAndSelection : (match base.warp? 1 0 with
    | some W => (List.range 32).all (fun l => (W.thread l).status == .eligible)
    | none => false) = true := by
  decide +kernel

/-- A locked warp, the word before having been LIT; a warp that is ready; none. -/
theorem witness_WarpSelection :
    let lit : PrevWord := ⟨BitVec.allOnes 32, 0xFFF8, true, 0xFFF8, 1, 0, [], some 0⟩
    let s := { (placed.beginTurn placed.nextTurn) with subps := [(0, ⟨some (1, 0), 1, 0⟩)] }
    (((s.modWarp 1 0 (fun W => { W with prev := some lit })).locked 0 0).isSome = true) ∧
    ((s.locked 0 0).isNone = true) ∧ ((s.subpWarps 0 0).any (fun x => s.warpReady x.1 x.2) = true) ∧
    ((s.subpWarps 0 1).isEmpty = true) ∧ ((s.subp 0).slot < 64) := by
  decide +kernel

theorem witness_MemoryCanonical : Memory.wf base.mem = true ∧ Memory.wf placed.mem = true := by decide +kernel

/-! ## Witnesses: memory words -/

/-- A global access in a state: the word is clear, and p holds of its form and its context. -/
def globalB (s : State) (i : Instr) (p : GlobalForm → Iss → Slot → Bool) : Bool :=
  match globalForm i with
  | none => false
  | some g => clearB s i plainCheck (fun x => p g (x.ctx s i plainCheck none) x)

theorem global_of {s : State} {i : Instr} {p : GlobalForm → Iss → Slot → Bool} (h : globalB s i p = true) :
    ∃ g x, globalForm i = some g ∧ Clear i plainCheck s x ∧ p g (x.ctx s i plainCheck none) x = true := by
  unfold globalB at h
  split at h
  · contradiction
  · rename_i g hg
    obtain ⟨x, hx, hp⟩ := clear_of h
    exact ⟨g, x, hg, hx, hp⟩

/-- Where a lane's address leads. -/
def leads (s : State) (x : Slot) (g : GlobalForm) (c : Iss) (l : Nat) : Access :=
  s.access (some (coreCluster x.W.core)) x.B.ctx (g.ea c l) g.need

/-- `base` with an address in the pair v6 of lane 3. -/
def addressed (lo hi : Word) : State := baseWith (fun W => { W with v := [(6 * 32 + 3, lo), (7 * 32 + 3, hi)] })

/-- Lane 3's address beyond 52 bits, misaligned, untranslated, on a page that may not be written, in a window without the
token; and words that fail no check. -/
theorem witness_GlobalWords :
    let ld : Instr := .ldLane .w32 (fm 4 6 0 1)
    let st : Instr := .stLane .w32 (fm 4 6 0 2)
    let far (g : GlobalForm) (c : Iss) : Mask := failing c (fun l => decide (2 ^ 52 ≤ g.ea c l))
    let odd (g : GlobalForm) (c : Iss) : Mask := failing c (fun l => decide (g.ea c l % g.n ≠ 0))
    let missing (s : State) (g : GlobalForm) (c : Iss) (x : Slot) : Mask := failing c (fun l => leads s x g c l == .fault)
    let barred (s : State) (g : GlobalForm) (c : Iss) (x : Slot) : Mask := failing c (fun l => (accessPa (leads s x g c l)).isNone)
    let det : State := withLaunch (deterministic base) (fun L => { L with windows := [(0, 4)] })
    globalB (addressed 0 0x00100000) ld (fun g c _ => far g c == 8) = true ∧
    globalB (addressed 2 0) ld (fun g c _ => far g c == 0 && odd g c == 8) = true ∧
    globalB (addressed 0x40000000 0) ld (fun g c x => far g c == 0 && odd g c == 0 &&
      missing (addressed 0x40000000 0) g c x == 8) = true ∧
    globalB (withLeaf base 0x203) st (fun g c x => far g c == 0 && odd g c == 0 && missing (withLeaf base 0x203) g c x == 0 &&
      barred (withLeaf base 0x203) g c x == BitVec.allOnes 32) = true ∧
    globalB det st (fun g c x => far g c == 0 && odd g c == 0 && missing det g c x == 0 && barred det g c x == 0 &&
      g.tokened && det.isDet x.B && !det.holdsToken x.B x.W.idx &&
      ((det.launch? x.B.launch).map (fun L => L.inWindow (g.ea c 0) g.n)).getD false) = true ∧
    globalSamples.all (fun i => globalB base i (fun _ _ _ => true)) = true ∧
    [Instr.ldUniform .w128 (fm 4 6 0 1), .str true (fm 4 6 0 15), .atom (fs 0xFC 6 8 15 0x49)].all (fun i => globalB base i (fun g c x => far g c == 0 && odd g c == 0 && missing base g c x == 0 &&
      barred base g c x == 0 && !base.isDet x.B)) = true := by
  decide +kernel

def scratchB (s : State) (i : Instr) (p : ScratchForm → Iss → Slot → Bool) : Bool :=
  match scratchForm i with
  | none => false
  | some g => clearB s i plainCheck (fun x => p g (x.ctx s i plainCheck none) x)

/-- A scratch word of a misaligned address, of one beyond the 4096 bytes, and words that fail neither; descriptors of LDFRAG
and STFRAG that are not legal, that reach byte 4096, and that do not. -/
theorem witness_ScratchAndFragments :
    let at' (a : Word) : State := baseWith (fun W => { W with v := [(6 * 32 + 3, a)] })
    let desc (lo hi : Word) : State := baseWith (fun W => { W with w := [(6, lo), (7, hi)] })
    let d (c : Iss) : Desc := Desc.of (c.uni 6) (c.uni 7)
    let ok (c : Iss) : Bool := (decide ((d c).fmt < 4) || (d c).fmt == 7) && (d c).base % 16 == 0 && (d c).pitch % 16 == 0 &&
      (d c).pitch != 0
    let top (c : Iss) : Nat := (d c).base + 15 * (d c).pitch + 32
    scratchB (at' 2) (.lds .w32 (fm 4 6 0 1)) (fun g c _ => g.addr c 3 % g.n != 0) = true ∧
    scratchB (at' 4096) (.sts .w32 (fm 4 6 0 15)) (fun g c x => g.addr c 3 % g.n == 0 &&
      decide ((at' 4096).scratchSize x.B.uid x.W.idx < g.addr c 3 + g.n)) = true ∧
    scratchSamples.all (fun i => scratchB base i (fun g c x => (List.range 32).all (fun l => g.addr c l % g.n == 0 &&
      decide (g.addr c l + g.n ≤ base.scratchSize x.B.uid x.W.idx)))) = true ∧
    clearB base (.ldfrag (fm 4 6 0 1)) plainCheck (fun x => !ok (x.ctx base (.ldfrag (fm 4 6 0 1)) plainCheck none)) = true ∧
    clearB (desc 0x02000000 0) (.ldfrag (fm 4 6 0 1)) plainCheck (fun x =>
      let c := x.ctx (desc 0x02000000 0) (.ldfrag (fm 4 6 0 1)) plainCheck none
      ok c && (d c).rot == 0 && decide (top c ≤ (desc 0x02000000 0).scratchSize x.B.uid x.W.idx)) = true ∧
    clearB (desc 0x02000FF0 0) (.stfrag (fm 4 6 0 15)) all32 (fun x =>
      let c := x.ctx (desc 0x02000FF0 0) (.stfrag (fm 4 6 0 15)) all32 none
      ok c && (d c).rot == 0 && decide ((desc 0x02000FF0 0).scratchSize x.B.uid x.W.idx < top c)) = true := by
  decide +kernel

/-- MONITOR with a lane that executes and with none; WAITM that goes on and one that parks. -/
theorem witness_OrderWords :
    let mon : Instr := .monitor ⟨k1, 1, false, 0, 6, 0, 15, 0⟩
    let armed (t : Bool) : State := baseWith (fun W => { W with mon := { W.mon with armed := true, trig := t } })
    clearB base (.monitor (fs 0 6 0 15 0)) plainCheck (fun x =>
      (lowestLane (x.ctx base (.monitor (fs 0 6 0 15 0)) plainCheck none).exec).isSome) = true ∧
    clearB base mon plainCheck (fun x => (lowestLane (x.ctx base mon plainCheck none).exec).isNone) = true ∧
    clearB (armed false) (.waitm (fs 0 0xFC 0 15 0)) plainCheck (fun x => x.W.mon.armed && !x.W.mon.trig) = true ∧
    clearB (armed true) (.waitm (fs 0 5 0 15 0)) plainCheck (fun x => x.W.mon.trig) = true := by
  decide +kernel

/-! ## Witnesses: operations under way -/

/-- `base` with one operation of its warp. -/
def opState (s : State) (o : Op) : State := s.modWarp 1 0 (fun W => { W with ops := [o] })

def opOf (kind : OpKind) (parts : List Part) (reqs : List AtomReq) : Op := ⟨9, kind, some 0, 0x10000, parts, reqs, false⟩

/-- Operation 9 has an owner, its block and its warp are found, and p holds. -/
def ownsB (s : State) (p : Block → Warp → Op → Bool) : Bool :=
  match s.opOwner 9 with
  | some (B, W, o) => s.block? B.uid == some B && s.warp? B.uid W.idx == some W && p B W o
  | none => false

theorem owns_of {s : State} {p : Block → Warp → Op → Bool} (h : ownsB s p = true) :
    ∃ B W o, Owns s 9 B W o ∧ p B W o = true := by
  unfold ownsB at h
  split at h
  · rename_i B W o ho
    simp only [Bool.and_eq_true, beq_iff_eq] at h
    exact ⟨B, W, o, ⟨ho, h.1.1, h.1.2⟩, h.2⟩
  · contradiction

/-- Part 0 may be performed now. -/
def partReady (s : State) (B : Block) (W : Warp) (o : Op) : Bool :=
  !o.done && !s.tripped && !B.aborted &&
    (match o.parts[0]? with
      | some p => s.mayDo B W o p && decide (p.lane < 32)
      | none => false)

def part1 (pa len : Nat) (data : List Byte) : Part := ⟨3, 0, pa, pa, len, data, false⟩

/-- A load whose word stands at the slice alone, or in the core's L1; a poisoned unit. -/
theorem witness_LoadsPerformed :
    let s := opState base (opOf (.load .s8 (some 4) false false) [part1 0x1000 1 []] [])
    let poisoned : State := { s with mem := { s.mem with poison := [0x100] } }
    let cached : State := { s with mem := { s.mem with l1 := [⟨0, 0x1000, 0x11223344, 0⟩] } }
    (∃ B W o, Owns s 9 B W o ∧ (partReady s B W o && (s.mem.l1Get W.core 0x1000).isNone && !(s.mem.fill 0x1000 1).poisoned 0x1000 1) = true) ∧
    (∃ B W o, Owns cached 9 B W o ∧ (partReady cached B W o && (cached.mem.l1Get W.core 0x1000).isSome) = true) ∧
    ∃ B W o, Owns poisoned 9 B W o ∧ (partReady poisoned B W o && (poisoned.mem.fill 0x1000 1).poisoned 0x1000 1) = true :=
  ⟨owns_of (by decide +kernel), owns_of (by decide +kernel), owns_of (by decide +kernel)⟩

/-- A store to device memory, and one to the first byte of the peer apertures. -/
theorem witness_StoresPerformed :
    let s (pa : Nat) := opState base (opOf (.store false) [part1 pa 2 [0x11, 0x22]] [])
    (∃ B W o, Owns (s 0x20000) 9 B W o ∧ partReady (s 0x20000) B W o = true) ∧
    ∃ B W o, Owns (s 0x40000000000) 9 B W o ∧ partReady (s 0x40000000000) B W o = true :=
  ⟨owns_of (by decide +kernel), owns_of (by decide +kernel)⟩

/-- LDS, STS and STFRAG on a warp's scratch; LDS of a word with a double-bit error, and of a poisoned unit of a spill page. -/
theorem witness_ScratchPerformed :
    let s (k : OpKind) := opState base (opOf k [part1 4094 2 [0x11, 0x22]] [])
    let ok (k : OpKind) : Prop := ∃ B W o, Owns (s k) 9 B W o ∧ (partReady (s k) B W o &&
      (s k).allocOf B.uid W.idx != none && !(s k).scrBad B.uid W.idx 4094 2) = true
    let bad : State := (s (.lds .n16 (some 4))).modAlloc 2 (fun A => { A with bad := [1023] })
    let spill : State := (s (.lds .n16 (some 4))).modAlloc 2 (fun A => { A with pages := [⟨0, none, 5⟩] })
    let spoiled : State := { spill with mem := { spill.mem with poison := [0x5FF] } }
    ok (.lds .n16 (some 4)) ∧ ok .sts ∧ ok .stfrag ∧
    (∃ B W o, Owns bad 9 B W o ∧ (partReady bad B W o && (bad.allocOf B.uid W.idx).any (fun A => A.isBad 4094 2)) = true) ∧
    ∃ B W o, Owns spoiled 9 B W o ∧ (partReady spoiled B W o && (spoiled.allocOf B.uid W.idx).any (fun A =>
      (A.spills 4094 2).any (fun e => spoiled.vaPoisoned none A.ctx e.1 e.2))) = true :=
  ⟨owns_of (by decide +kernel), owns_of (by decide +kernel), owns_of (by decide +kernel), owns_of (by decide +kernel),
    owns_of (by decide +kernel)⟩

/-- ATOM.inc of lanes 0 and 2 on one word, and a 64-bit cas. -/
theorem witness_AtomsPerformed :
    let s (op : Nat) (w64 : Bool) :=
      opState base (opOf (.atom op 0 w64 (some 4)) [] [⟨0x20000, 0x20000, [(0, 5, 0), (2, 5, 1)], false⟩])
    let ok (op : Nat) (w64 : Bool) : Prop := ∃ B W o, Owns (s op w64) 9 B W o ∧ (!o.done && !(s op w64).tripped &&
      (match o.reqs[0]? with
        | some r => !r.done && (r.lanes.map (·.1)) == [0, 2] && W.mayPerform o (r.lanes.map (·.1)) r.pa 4 &&
            !(s op w64).heldLoc r.pa && !((s op w64).mem.fill r.pa 8).poisoned r.pa 8
        | none => false)) = true
    ok 10 false ∧ ok 9 true ∧ ok 11 false :=
  ⟨owns_of (by decide +kernel), owns_of (by decide +kernel), owns_of (by decide +kernel)⟩

/-- A load not yet performed and one performed; an ended operation; a fence with an earlier store and without; an epoch
that has ended. -/
theorem witness_CompletionsAndEpochs :
    let p : Part := part1 0x20000 1 [0x11]
    let s (k : OpKind) (done : Bool) := opState base (opOf k [{ p with done := done }] [])
    let before : Op := { opOf (.store false) [p] [] with id := 8 }
    let fence (y : List Op) : State := base.modWarp 1 0 (fun W => { W with ops := y ++ [opOf (.fence true) [] []] })
    ownsB (s (.load .n8 (some 4) false false) false) (fun _ _ o => o.kind.plain && !o.performed) = true ∧
    ownsB (s (.load .n8 (some 4) false false) true) (fun _ _ o => o.kind.plain && o.performed) = true ∧
    ownsB (opState base { opOf .pass [] [] with done := true }) (fun _ _ o => o.done && o.kind == .pass) = true ∧
    ownsB (fence [before]) (fun _ W o => o.kind == .fence true && !o.done &&
      (W.opsBefore 9).any (fun y => y.kind.isStore && !y.performed)) = true ∧
    ownsB (fence []) (fun _ W _ => !(W.opsBefore 9).any (fun y => y.kind.isStore && !y.performed)) = true ∧
    ({ base with time := 65536 } : State).epoch < 65536 / 65536 ∧ base.tripped = false := by
  decide +kernel

/-! ## Witnesses: barriers, the token, the matrix unit -/

/-- BAR of a whole warp of a block of one; NBAR of a count of 0, of one that waits, of one that differs, and one that arrives. -/
theorem witness_BarrierWords :
    let bar : Instr := .bar (fs 0 0 0 15 0)
    let sync : Instr := .nbarSync (fs 3 5 0 15 2)
    let s (n : Word) (r : ArrRec) (m : Nat) : State := (baseWith (fun W => { W with w := [(5, n)], brec := [(4, r)] })).modBlock 1
      (fun B => { B with barriers := setNth B.barriers 4 { Barrier.reset with n := m }, warps := B.warps })
    let r0 := ArrRec.none
    let nOf (s : State) (x : Slot) : Nat := ((x.ctx s sync plainCheck none).uni 5).toNat
    clearB base bar plainCheck (fun x => x.B.warps.length == 1 && x.W.ops == [] && (x.W.brecAt 0).waits == [] &&
      x.W.rep.isNone && decide (0 < x.B.barriers.length) && x.run == BitVec.allOnes 32 &&
      (List.range 32).all (fun l => (x.W.thread l).status == .eligible)) = true ∧
    clearB (s 0 r0 0) sync plainCheck (fun x => nOf (s 0 r0 0) x == 0) = true ∧
    clearB (s 1 { r0 with pend := 1 } 0) sync plainCheck (fun x => nOf (s 1 { r0 with pend := 1 } 0) x == 1 &&
      (x.W.brecAt 4).pend &&& x.run != 0) = true ∧
    clearB (s 1 r0 2) sync plainCheck (fun x => nOf (s 1 r0 2) x == 1 && (nth Barrier.reset x.B.barriers 4).n == 2) = true ∧
    clearB (s 1 r0 1) sync plainCheck (fun x => nOf (s 1 r0 1) x == 1 && (nth Barrier.reset x.B.barriers 4).n == 1 &&
      (x.W.brecAt 4).pend == 0 && (x.W.brecAt 4).reg == 0) = true := by
  decide +kernel

/-- GBAR in a cooperative grid; CTOKW where the token is free at the warp, held by it, and elsewhere; CTOKP of a warp
without it. -/
theorem witness_GridAndToken :
    let det (t : Token) : State := withLaunch (deterministic base) (fun L => { L with token := t })
    let w : Instr := .ctokw (fs 0 0 0 15 0)
    let p : Instr := .ctokp (fs 0 0 0 0 0)
    clearB (cooperative base) (.gbar (fs 0 0 0 15 0)) plainCheck
      (fun x => (((cooperative base).launch? x.B.launch).map Launch.coop).getD false) = true ∧
    (let s := det ⟨some (0, 0), false, Sig.empty⟩
     clearB s w plainCheck (fun x => s.isDet x.B && !s.holdsToken x.B 0 && s.tokenAt x.B 0) &&
      clearB s p plainCheck (fun x => s.isDet x.B && !s.holdsToken x.B 0)) = true ∧
    (let s := det ⟨some (0, 0), true, Sig.empty⟩
     clearB s w plainCheck (fun x => s.holdsToken x.B 0) && clearB s p plainCheck (fun x => s.holdsToken x.B 0)) = true ∧
    (let s := det ⟨some (1, 0), false, Sig.empty⟩
     clearB s w plainCheck (fun x => s.isDet x.B && !s.tokenAt x.B 0)) = true := by
  decide +kernel

/-- MSHAPE of a legal record; MMA with a descriptor that is not legal, one that reaches beyond the allocation, one that
does neither. -/
theorem witness_MatrixWords :
    let shape : Instr := .mshape (fs 0 5 0 15 0)
    let mma : Instr := .mma ⟨k1, 7, false, 0, 8, 10, true, true, false, false, true, 6, 1, 0⟩
    let s (lo : Word) : State := baseWith (fun W => { W with w := [(8, lo), (10, 0x0C000000)] })
    let d (s : State) (x : Slot) : Desc := let c := x.ctx s mma all32 none; Desc.of (c.uni 8) (c.uni 9)
    clearB (baseWith (fun W => { W with w := [(5, 0x00060210)] })) shape plainCheck (fun _ => true) = true ∧
    clearB (s 0) mma all32 (fun x => !(d (s 0) x).ok) = true ∧
    clearB (s 0x0C000800) mma all32 (fun x => (d (s 0x0C000800) x).ok &&
      decide ((s 0x0C000800).scratchSize x.B.uid x.W.idx < 2048 + 15 * 192 + 192)) = true ∧
    clearB (s 0x0C000000) mma all32 (fun x => (d (s 0x0C000000) x).ok && (d (s 0x0C000000) x).rot == 0 &&
      decide (16 * 192 ≤ (s 0x0C000000).scratchSize x.B.uid x.W.idx)) = true := by
  decide +kernel

/-- MZERO under way; an INT8 MMA of register fragments; a MX MMA (FMT 8) of scratch operands that has a word to read, that waits for
a scratch store, and that has read them. -/
theorem witness_MatrixResults :
    let m : MmaOp := ⟨6, false, false, false, 2, 0x00060210, some (List.replicate 16 1), some (List.replicate 16 2)⟩
    let mx : MmaOp := ⟨8, false, false, false, 2, 0x00060210, none, none⟩
    let word (d : Bool) : Part := ⟨0, 0, 512, 512, 4, [1, 2, 3, 4], d⟩
    let scr (d : Bool) := opState base (opOf (.mma mx) [word d] [])
    let reads (s : State) (B : Block) (W : Warp) : Bool := !(W.opsBefore 9).any (fun y => y.kind == .sts && !y.performed) &&
      !s.scrHeld B.uid W.idx 512 4 && !s.scrBad B.uid W.idx 512 4 && (s.allocOf B.uid W.idx).isSome
    ownsB (opState base (opOf (.mwrite 2 []) [] [])) (fun _ W o => !o.done && W.tileFree o) = true ∧
    ownsB (opState base (opOf (.mma m) [] [])) (fun _ W o => !o.done && W.tileFree o && o.parts.all (·.done) && W.badAcc == [] &&
      decide (shapeM m.shape ≤ 16) && decide (shapeN m.shape ≤ 16)) = true ∧
    ownsB (scr false) (fun B W o => !o.done && o.parts[0]? == some (word false) && reads (scr false) B W) = true ∧
    (let st : Op := { opOf .sts [part1 512 4 [1, 2, 3, 4]] [] with id := 8 }
     let s := (scr false).modWarp 1 0 (fun W => { W with ops := st :: W.ops })
     ownsB s (fun B W o => !o.done && o.parts[0]? == some (word false) && !reads s B W)) = true ∧
    ownsB (scr true) (fun _ W o => !o.done && W.tileFree o && o.parts.all (·.done) && W.badAcc == []) = true := by
  decide +kernel

/-! ## Witnesses: attention, the selector, the copy engine -/

/-- ATTN with a parameter out of range, and with D = 64, one row, a pitch of 128 and the page number 0xFFFFFFFF. -/
theorem witness_AttentionWord :
    let i : Instr := .attn (fs 0 8 0 1 0)
    let s := (baseWith (fun W => { W with w := [(8, 0x8000), (11, 512), (12, 1024), (14, 128)] })).modAlloc 2
      (fun A => A.write 512 (leBytes 4 0xFFFFFFFF))
    clearB base i plainCheck (fun x => ((x.ctx base i plainCheck none).uni 14).toNat == 0) = true ∧
    clearB s i plainCheck (fun x =>
      let c := x.ctx s i plainCheck none
      (c.uni 14).toNat == 128 && (c.uni 10).toNat == 0 && c.W.scratchSettled &&
      ofLeBytes (s.scrRead x.B.uid x.W.idx 512 4) == 0xFFFFFFFF && !s.scrBad x.B.uid x.W.idx 512 4 &&
      decide (1024 + 16 + 256 ≤ s.scratchSize x.B.uid x.W.idx)) = true := by
  decide +kernel

/-- PGSEAL beyond 52 bits, misaligned and neither; NEXTT without the token. -/
theorem witness_SealAndNextTile :
    let sealw : Instr := .pgseal (fs 4 6 0 1 2)
    let s (lo hi : Word) : State := baseWith (fun W => { W with w := [(6, lo), (7, hi)] })
    let va (s : State) (x : Slot) : Nat := ((x.ctx s sealw plainCheck none).uni64 6).toNat
    let tile (b : State) : State := withRecord (withRecord b 1 0x0403000000000000) 14 0x8000
    clearB (s 0 0x00100000) sealw plainCheck (fun x => decide (2 ^ 52 ≤ va (s 0 0x00100000) x)) = true ∧
    clearB (s 16 0) sealw plainCheck (fun x => va (s 16 0) x % 32 != 0) = true ∧
    clearB (s 32 0) sealw plainCheck (fun x => va (s 32 0) x == 32) = true ∧
    (let d := withRecord (tile base) 1 0x4403000000000000
     clearB d (.nextt (fs 4 0 0 1 0)) plainCheck (fun x => d.isDet x.B && !d.holdsToken x.B x.W.idx &&
      ((d.launch? x.B.launch).map Launch.schedMode).getD 0 == 1)) = true := by
  decide +kernel

/-- TOPK with N = 0, with a misaligned array, with one beyond the allocation, and one that enters the queue; a TOPK and a
MERGEK at the head of cluster 0's queue. -/
theorem witness_Selector :
    let i : Instr := .topk (fs 20 8 21 2 0)
    let s (x n : Word) : State := baseWith (fun W => { W with w := [(8, x), (10, n), (11, 2), (13, 512), (14, 1024)] })
    let head (y : SelOp) : State := { opState base (opOf (.select y) [] []) with selq := [(0, [9])] }
    (selectorWord i).isSome = true ∧
    clearB (s 0 0) i plainCheck (fun x => ((x.ctx (s 0 0) i plainCheck none).uni 10) == 0) = true ∧
    clearB (s 2 4) i plainCheck (fun x => ((x.ctx (s 2 4) i plainCheck none).uni 8) == 2) = true ∧
    clearB (s 4092 4) i plainCheck (fun x => (s 4092 4).scratchSize x.B.uid x.W.idx == 4096) = true ∧
    clearB (s 0 4) i plainCheck (fun x => (tget [] (s 0 4).selq (coreCluster x.W.core)).length == 0) = true ∧
    ([⟨1, some 20, some 21, [0, 100, 3, 2, 0, 512, 1024, 0], 0, 0, [], [], none, none⟩,
      ⟨2, some 20, some 21, [0, 256, 2, 3, 512, 1024, 2, 0], 0, 0, [], [], none, none⟩] : List SelOp).all (fun y =>
      (head y).selQueue 0 == [9] && ownsB (head y) (fun B W _ => ((head y).allocOf B.uid W.idx).any (fun A => !A.isBad 0 4096) &&
        ({ W with ops := W.opsBefore 9 } : Warp).scratchSettled)) = true := by
  decide +kernel

/-- CKICK misaligned, beyond the allocation and neither; CBSET and CBWAIT under way; a request whose descriptor has no
translation, and a fence. -/
theorem witness_CopyWords :
    let i : Instr := .ckick (fs 4 5 0 1 0)
    let s (a : Word) : State := baseWith (fun W => { W with w := [(5, a)] })
    let a (s : State) (x : Slot) : Nat := ((x.ctx s i plainCheck none).uni 5).toNat
    let record : List Byte := (List.replicate 8 0) ++ leBytes 8 0x40000000 ++ List.replicate 48 0
    let queued (e : CopyEntry) : State := (ready base).modCore 0 (fun c => { c with copyQ := [[e], [], [], []] })
    clearB (s 4) i plainCheck (fun x => a (s 4) x == 4) = true ∧
    clearB (s 4096) i plainCheck (fun x => a (s 4096) x == 4096 && (s 4096).scratchSize x.B.uid x.W.idx == 4096) = true ∧
    clearB (s 4032) i plainCheck (fun x => a (s 4032) x == 4032) = true ∧
    (let o := opState base (opOf (.cbset 64 5) [] [])
     ownsB o (fun B W op => W.mayPerform op [0] 64 8 && (o.allocOf B.uid W.idx).any (fun A => !A.isBad 64 8))) = true ∧
    (let o := opState base (opOf (.cbwait (some 4) 64 none) [] [])
     ownsB o (fun B W op => W.mayPerform op [0] 64 8 && (o.allocOf B.uid W.idx).any (fun A => A.readN 64 8 == 0))) = true ∧
    nth [] ((queued (.fence 9 1)).core 0).copyQ 0 = [.fence 9 1] ∧ nth [] (base.core 0).copyQ 1 = [] ∧
    (let q := queued (.request ⟨0, 0, 2, (1, 0), record, 0, Sig.empty, false, (0, 0), none⟩)
     q.access (some (coreCluster 0)) 0 (CopyRec.of record).tdesc .read == .fault &&
      (q.allocs.find? (fun A => A.id == 2)).isSome) = true := by
  decide +kernel

/-! ## Witnesses: tuples, suffix matching, page aging -/

/-- Deterministic and not; a reply; a request at its slice whose handle is not live; a timeout; a
destroyed region. -/
theorem witness_Tuples :
    let handle := 2 ^ 12
    let req (kind : Nat) (blocking : Bool) (h : Nat) : TupReq := ⟨9, none, 0, h, [7, 0, 0, 0, 0, 0, 0, 0], kind, 0, blocking, 0, Sig.empty, none⟩
    -- region 0: VALID, its store at 0x40000000; generation 1, capacity 1; a second leaf, of a tuple page
    let s (count : Nat) (sent : List TupReq) (stored : List Stored) (parked : List Parked) : State := { base with
      mem := ((base.mem.write 0x3008 (leBytes 8 0x40000A0F)).write 0x8000 (leBytes 8 0x40000001 ++ leBytes 8 0x4000001 ++
        leBytes 8 count ++ leBytes 8 0))
      host := { base.host with creg := [(0, 0x8000)] }
      tup := { base.tup with sent := sent, stored := stored, parked := parked } }
    let i : Instr := .ttak (fs 2 3 0 3 1)
    (tupleWord i).isSome = true ∧ clearB base i plainCheck (fun x => !base.isDet x.B) = true ∧
    clearB (deterministic base) i plainCheck (fun x => (deterministic base).isDet x.B) = true ∧
    (let r := { opState base (opOf (.tuple 2 0) [] []) with tup := { base.tup with replies := [⟨9, 0, some [7, 0, 0, 0, 0, 0, 0, 0], Sig.empty, none⟩] } }
     ownsB r (fun _ _ _ => (r.tup.replies.find? (fun r => r.id == 9)).isSome)) = true ∧
    (match (s 0 [req 0 false 0] [] []).regionOf 0 0 with
      | .ok g => !g.live 0 0
      | .error _ => false) = true ∧
    (s 0 [req 0 false handle] [] []).releaseDone (req 0 false handle) = true ∧
    (let p : Parked := ⟨req 2 true handle, 0, 0, some 0⟩
     (s 0 [] [] [p]).tup.parked.find? (fun q => q.req.id == 9) == some p && decide (0 ≤ (s 0 [] [] [p]).sliceClock 0)) = true ∧
    (match (s 0 [] [] []).regionOf 0 1 with
      | .ok g => !g.valid
      | .error _ => false) = true := by
  decide +kernel

/-- The SX words at issue; a handle that is not live and one that is, its area whole. -/
theorem witness_SuffixWords :
    let e : SxEntry := ⟨0x20001, 0x100000040, 0, 0⟩
    let op (k : Nat) : SxOp := ⟨k, some 6, 0x10000, 1, [5], 25, BitVec.allOnes 32, none⟩
    let s (k : Nat) (live : Bool) : State := { ready (opState base (opOf (.sx (op k)) [] [])) with
      sx := ⟨if live then [(0, e)] else [], [(0, ⟨3, 0, 64, [5, 6, 5], 0⟩)]⟩ }
    clearB base (.sxinit (fs 6 4 0 4 0)) plainCheck (fun x =>
      (suffixWord (x.ctx base (.sxinit (fs 6 4 0 4 0)) plainCheck none) (.sxinit (fs 6 4 0 4 0))).isSome) = true ∧
    clearB base (.sxsave (fs 6 3 4 4 0)) plainCheck (fun x =>
      (suffixWord (x.ctx base (.sxsave (fs 6 3 4 4 0)) plainCheck none) (.sxsave (fs 6 3 4 4 0))).isSome) = true ∧
    ([0, 1, 2, 3] : List Nat).all (fun k => ownsB (s k true) (fun B W o => !o.done && (W.opsBefore 9).isEmpty &&
      ((s k true).sxEntry 0).live B.ctx 0x10000 && ((s k true).areaFaults ((s k true).sxEntry 0)).isEmpty &&
      (s k true).areaWrites ((s k true).sxEntry 0) == ((s k true).sxIndex 0).seen)) = true ∧
    ownsB (s 0 false) (fun B _ _ => !((s 0 false).sxEntry 0).live B.ctx 0x10000) = true ∧
    ((base.sxEntry 0).valid = false) := by
  decide +kernel

/-- DSWEEP beyond 52 bits, misaligned, waiting for a store, and one that enters; PGPIN of an entry that is valid and of one
that is not; an engine that decays, one that swaps, one that finishes; slots to retire with a reader and without. -/
theorem witness_KvAging :
    let i : Instr := .dsweep (fs 3 4 0 1 0)
    let s (lo hi : Word) (ops : List Op) : State := baseWith (fun W => { W with w := [(4, lo), (5, hi)], ops := ops })
    let va (s : State) (x : Slot) : Nat := ((x.ctx s i plainCheck none).uni64 4).toNat
    let store : Op := opOf (.store false) [part1 0x20000 1 [0]] []
    let entry (flags : Nat) (s : State) : State := { s with mem := s.mem.write 0x8000 (leBytes 8 (0x100000 + flags) ++
      leBytes 8 (0x200000 + flags)) }
    let pin (flags : Nat) : State := entry flags (ready <| opState base (opOf (.kv 2 (some 3) 0x8000 0 none) [] []))
    let snapped (s : State) : Bool := match s.snapshot none 0 0x8000 with
      | .ok e => e == s.mem.snapAt 0x8000 0x8000
      | .error _ => false
    let e := (entry 3 base).mem.snapAt 0x8000 0x8000
    let engine (ph : KvPhase) : State := { entry 3 (ready base) with kv := { base.kv with
      engines := base.kv.engines.modify 0 (fun g => { g with queue := [⟨9, 0, 0, 0x9000, 0, Sig.empty⟩], phase := ph, record := [0, 0, 0, 0] }) } }
    (kvWord i).isSome = true ∧
    clearB (s 0 0x00100000 []) i plainCheck (fun x => decide (2 ^ 52 ≤ va (s 0 0x00100000 []) x)) = true ∧
    clearB (s 32 0 []) i plainCheck (fun x => va (s 32 0 []) x == 32) = true ∧
    clearB (s 64 0 [store]) i plainCheck (fun x => (x.ctx (s 64 0 [store]) i plainCheck none).W.ops.any (fun y => y.kind.isStore && !y.performed)) = true ∧
    clearB (s 64 0 []) i plainCheck (fun x => va (s 64 0 []) x == 64 && (x.ctx (s 64 0 []) i plainCheck none).W.ops == []) = true ∧
    ownsB (pin 1) (fun B _ _ => (pin 1).access none B.ctx 0x8000 .rmw == .mem 0x8000 && snapped (pin 1) &&
      ((pin 1).mem.snapAt 0x8000 0x8000).valid && ((pin 1).mem.snapAt 0x8000 0x8000).flagsOk &&
      ((pin 1).mem.snapAt 0x8000 0x8000).reservedOk) = true ∧
    ownsB (pin 0) (fun _ _ _ => snapped (pin 0) && !((pin 0).mem.snapAt 0x8000 0x8000).valid) = true ∧
    (((engine (.decay e)).engine 0).queue.length == 1 && (engine (.decay e)).access none 0 0x8010 .rmw == .mem 0x8010 &&
      !(engine (.decay e)).mem.poisoned 0x8010 4) = true ∧
    ((engine (.swap e 0x300000 0x400000 none 0 Sig.empty)).access none 0 0x8000 .rmw == .mem 0x8000 &&
      (engine (.swap e 0x300000 0x400000 none 0 Sig.empty)).mem.snapAt 0x8000 0x8000 == e) = true ∧
    ((engine (.finish 0 0)).engine 0).phase = .finish 0 0 ∧ (base.engine 0).queue = [] ∧ base.kv.retire[0]? = none := by
  decide +kernel

/-! ## Witnesses: launches, blocks, faults -/

/-- The tables of `base` stand in a context's pages (Table 14.7). -/
structure Mapped (s : State) (ctx : Nat) : Prop where
  top : s.mem.readN 0x1000 8 = 0x2001
  mid : s.mem.readN 0x2000 8 = 0x3001
  leaf : s.mem.readN 0x3000 8 = 0x20F
  cpt : tget 0 s.host.cpt ctx = 0x1001
  key : s.trust.bootstat ≠ bootReady

def mappedB (s : State) (ctx : Nat) : Bool :=
  s.mem.readN 0x1000 8 == 0x2001 && s.mem.readN 0x2000 8 == 0x3001 && s.mem.readN 0x3000 8 == 0x20F &&
  tget 0 s.host.cpt ctx == 0x1001 && s.trust.bootstat != bootReady

theorem mapped_of {s : State} {ctx : Nat} (h : mappedB s ctx = true) : Mapped s ctx := by
  simp only [mappedB, Bool.and_eq_true, beq_iff_eq] at h
  exact ⟨h.1.1.1.1, h.1.1.1.2, h.1.1.2, h.1.2, by simpa using h.2⟩

/-- A pointer entry at index 0 of a table of level 0 or 1 leads to the next level. -/
theorem walkFrom_pointer {m : MemSt} {fr va fuel lev t e next : Nat} (hl : entryLoc t 0 = some t) (hlev : lev < 4)
    (hi : (if lev = 0 then bitsN va 51 48 else bitsN va (levelShift lev + 8) (levelShift lev)) = 0) (he : m.readN t 8 = e)
    (hb : bitN e 0 = true ∧ bitN e 9 = false ∧ bitN e 10 = false ∧ bitsN e 63 52 = 0 ∧ bitsN e 8 4 = 0)
    (hn : bitsN e 51 12 * 4096 = next) (hf : frameInMemory next = true) :
    walkFrom m fr va (fuel + 1) lev t = walkFrom m fr va fuel (lev + 1) next := by
  rw [walkFrom]
  obtain ⟨h0, h9, h10, h63, h8⟩ := hb
  have h4 : (lev = 4) = False := by simp; omega
  simp only [hi, h4, if_false, hl, he, h0, h9, h10, h63, h8, hn, hf, bne_self_eq_false, Bool.not_true, Bool.or_self, Bool.false_and,
    Bool.false_eq_true]

/-- Their first 1 GiB then lies at PA 0 and up. -/
theorem Mapped.access {s : State} {ctx va : Nat} (h : Mapped s ctx) (hv : va < 2 ^ 30) (need : Need) :
    s.access none ctx va need = .mem va := by
  have h2 : bitsN va 38 30 = 0 := by unfold bitsN; omega
  have hw : s.walk ctx va = .ok (va % 2 ^ 30 / 4096 * 4096) 7 false := by
    unfold State.walk
    rw [h.cpt]
    have hc : bitN (0x1001 : BitVec 64).toNat 0 = true := by decide
    have e0 : bitsN (0x1001 : BitVec 64).toNat 51 12 * 4096 = 0x1000 := by decide
    dsimp only
    rw [hc, if_pos rfl, e0,
      walkFrom_pointer (next := 0x2000) (by decide) (by decide) (by rw [if_pos rfl]; unfold bitsN; omega) h.top (by decide)
        (by decide) (by decide),
      walkFrom_pointer (next := 0x3000) (by decide) (by decide)
        (by rw [if_neg (by decide), show levelShift (0 + 1) = 39 by decide]; unfold bitsN; omega) h.mid (by decide) (by decide)
        (by decide), walkFrom]
    have l3 : entryLoc 0x3000 0 = some 0x3000 := by decide
    have hb : bitN 0x20F 0 = true ∧ bitN 0x20F 9 = true ∧ bitN 0x20F 10 = false ∧ bitN 0x20F 11 = false ∧ bitsN 0x20F 63 52 = 0 ∧
      bitsN 0x20F 8 4 = 0 ∧ bitsN 0x20F 51 12 * 4096 = 0 ∧ bitsN 0x20F 3 1 = 7 ∧ frameInMemory 0 = true := by decide
    obtain ⟨b0, b9, b10, b11, b63, b8, bf, b3, bm⟩ := hb
    simp only [show levelShift (0 + 1 + 1) = 30 by decide, h2, ite_self, l3, h.leaf, b0, b9, b10, b11, b63, b8, bf, b3, bm,
      Nat.reduceAdd, Nat.reduceEqDiff, if_false, bne_self_eq_false, Bool.not_true, Bool.or_self, Bool.false_and, Bool.false_eq_true,
      Nat.zero_mod, if_true, Nat.zero_add, Bool.true_and, decide_false]
    rfl
  unfold State.access State.translate
  simp only [hw]
  have hl : va % 2 ^ 30 / 4096 * 4096 + va % 4096 = va := by omega
  have hp : permits 7 need = true := by cases need <;> decide
  have hloc : location va = some va := by unfold location; rw [if_pos (by omega)]
  have hk : s.keymapHeld va = false := by unfold State.keymapHeld; simp [h.key]
  rw [if_neg (by omega), hl, hp, hloc]
  simp [hk]

theorem Mapped.mapsTo {s : State} {ctx : Nat} (h : Mapped s ctx) {va n : Nat} (hv : va + n ≤ 2 ^ 30) (need : Need) :
    s.mapsTo ctx va n va need :=
  fun k hk => h.access (by omega) need

/-- No unit of memory is poisoned or has an uncorrectable error. -/
def clean (s : State) : Prop := s.mem.poison = [] ∧ s.mem.bad = []

theorem Mapped.notPoisoned {s : State} {ctx : Nat} (h : Mapped s ctx) (hc : clean s) {va n : Nat} (hv : va + n ≤ 2 ^ 30) :
    s.vaPoisoned none ctx va n = false := by
  unfold State.vaPoisoned
  rw [List.any_eq_false]
  intro k hk
  rw [h.access (by have := List.mem_range.mp hk; omega)]
  simp [MemSt.poisoned, hc.1, hc.2]

theorem Mapped.readVa {s : State} {ctx : Nat} (h : Mapped s ctx) : ∀ {n va : Nat}, va + n ≤ 2 ^ 30 →
    s.readVa none ctx va n = .ok (s.mem.read va n)
  | 0, _, _ => rfl
  | n + 1, va, hv => by
    unfold State.readVa
    rw [h.access (by omega), h.readVa (n := n) (va := va + 1) (by omega)]
    simp [MemSt.read, List.range_succ_eq_map, Nat.add_assoc, Nat.add_comm 1]

theorem Mapped.cpRead {s : State} {ctx : Nat} (h : Mapped s ctx) (hc : clean s) {va n : Nat} (hv : va + n ≤ 2 ^ 30) :
    s.cpRead ctx va n = .ok (s.mem.read va n) := by
  unfold State.cpRead
  rw [h.readVa hv]
  simp only [Except.map]
  congr 1
  apply List.ext_getElem (by simp)
  intro i h1 h2
  have : i < n := by simpa [MemSt.read] using h2
  rw [List.getElem_mapIdx, h.notPoisoned hc (by omega)]
  simp


/-- A NaN among the operands, and ∞ × 0 with a NaN; finite operands of each format. -/
theorem witness_RoundingAndNans :
    let nan (w : Word) : Bool := w.toNat / 2 ^ 23 % 256 == 255 && w.toNat % 2 ^ 23 != 0
    (nan 0x7FC00001 || nan 0x3F800000) = true ∧ (nan 0x3F800000 || nan 0xFF800001) = true ∧
      (nan 0x7F800000 || nan 0 || nan 0x7F800001) = true ∧
      ([fp32, fp16, bf16].all (fun f => decide (f.finite 1) && decide (f.finite 0x0400))) = true := by
  decide +kernel

/-- NaNs of both kinds; negative, positive and zero operands; 2^x at the ends of its range and of an integer; a power of two; a
multiple of one, and of one half. -/
theorem witness_SpecialFunctions :
    ([0x7F800001, 0x7FC00000].all (fun a : Word => a.toNat / 2 ^ 23 % 256 == 255 && a.toNat % 2 ^ 23 != 0) &&
     [0x80000001, 0x3F800000, 0, 0x43000000, 0xC3170000, 1, 0x3F000000].all (fun a => decide (fp32.finite a)) &&
     decide (fp32.units 0x80000001 < 0 ∧ 0 < fp32.units 0x3F800000 ∧ fp32.units 0 = 0) &&
     decide (128 * 2 ^ 149 ≤ fp32.units 0x43000000 ∧ fp32.units 0xC3170000 < -(150 * 2 ^ 149)) &&
     decide (fp32.units 0x40000000 = 2 * 2 ^ 149 ∧ fp32.units 1 = 2 ^ 0 ∧ fp32.units 0x3F000000 % 2 ^ 149 = 2 ^ 148)) = true := by
  decide +kernel

/-- Of each case of a conversion a type and a code: finite, subnormal, infinite, a NaN, an integer; a scale; blocks with a NaN, of
zeros, and of finite values of which one is the greatest. -/
theorem witness_ConversionsRound :
    ([0, 1, 2, 3, 4, 5, 6, 0x10].all (fun k => decide ((k < 7 ∨ k = 0x10) ∧ 1 < 2 ^ (fmtOf k).bits ∧ (fmtOf k).finite 1)) &&
     [(0, 0x7F80), (1, 0x7C00), (3, 0x7C), (0x10, 0x7F800000)].all (fun x =>
       decide ((fmtOf x.1).spec = .ieee ∧ x.2 % 2 ^ ((fmtOf x.1).eb + (fmtOf x.1).m) = (fmtOf x.1).top + 1 ∧ x.2 < 2 ^ (fmtOf x.1).bits)) &&
     [(0, 0x7F81), (1, 0x7E00), (2, 0x7F), (3, 0x7D), (0x10, 0xFFC00000)].all (fun x => (fmtOf x.1).isNan x.2) &&
     [7, 0x11, 0x12, 0x13, 0x14, 0x15, 0x16, 0x17].all (fun k => (integerType k).isSome) && !fp32.finite 0x7FC00000 &&
     [[0], [0x3F800000, 0xC0000000]].all (·.all (fun x => decide (fp32.finite x))) &&
     decide (fp32.units 0 = 0 ∧ fp32.units 0xC0000000 ≠ 0 ∧ (fp32.units 0x3F800000).natAbs ≤ (fp32.units 0xC0000000).natAbs)) = true := by
  decide +kernel

/-- Queue 3 of context 0, of 16 records at 0xA000, with WR = n and the record's dwords in its first slot. -/
def withQueue (s : State) (ctl n : Nat) (r : List Nat) : State := { s with
  host := { s.host with qctl := [(3, BitVec.ofNat 64 ctl)], qwr := [(3, BitVec.ofNat 64 n)], qbase := [(3, 0xA000)] }
  mem := s.mem.write 0xA000 (r.flatMap (leBytes 8)) }

/-- A record of one block of one warp of 8 lane and 8 uniform registers, its code object at 0x8000. -/
def goodRecord : List Nat := [0x8000, 0x0003000000000000, 0x010000000000001F, 0x13000000, 0, 0, 0x0808000000000000]

/-- Its code object's header: MAGIC and VER, class N with CAPS.BASE, no resources, 64 bytes of text at 64. -/
def goodHeader : List Nat := [0x1314F4348, 1, 0, 0x4000000040]

/-- `base` with that record in queue 3 and that header, nothing running. -/
def launching (r : List Nat) : State :=
  let s := withQueue (ready base) 0x401 1 r
  { s with mem := s.mem.write 0x8000 (goodHeader.flatMap (leBytes 8)), launches := [], blocks := [] }

/-- LAUNCH beyond 52 bits, misaligned, without the token, and one that enters. -/
theorem witness_Launches :
    let i : Instr := .launch (fs 2 4 6 5 0)
    let s (b : State) (lo hi : Word) : State := b.modWarp 1 0 (fun W => { W with w := [(4, lo), (5, hi)] })
    let va (s : State) (x : Slot) : Nat := ((x.ctx s i plainCheck none).uni64 4).toNat
    clearB (s base 0 0x00100000) i plainCheck (fun x => decide (2 ^ 52 ≤ va (s base 0 0x00100000) x)) = true ∧
    clearB (s base 64 0) i plainCheck (fun x => va (s base 64 0) x == 64) = true ∧
    clearB (s (deterministic base) 128 0) i plainCheck (fun x => va (s (deterministic base) 128 0) x == 128 &&
      (s (deterministic base) 128 0).isDet x.B && !(s (deterministic base) 128 0).holdsToken x.B x.W.idx) = true ∧
    clearB (s base 128 0) i plainCheck (fun x => va (s base 128 0) x == 128 && !(s base 128 0).isDet x.B) = true := by
  decide +kernel

/-- A LAUNCH that waits for a store, one that waits for an earlier LAUNCH in deterministic mode, one behind a CBWAIT and one behind a
LAUNCH in another mode, which do not wait; one on a queue it may not use, one on a full queue, one that waits for memory, one whose
record cannot be read, one whose slot cannot be written, one that is queued. -/
theorem witness_LaunchOperation :
    let o (va q : Nat) : Op := opOf (.launch 2 va q) [] []
    let other (k : OpKind) (parts : List Part) : Op := { opOf k parts [] with id := 8 }
    let s (b : State) (va q n : Nat) (before : List Op) : State := ready
      ((withQueue b 0x409 n []).modWarp 1 0 (fun W => { W with ops := before ++ [o va q] }))
    let waits (s : State) (B : Block) (W : Warp) : Bool := (W.opsBefore 9).any (fun y => match y.kind with
      | .cbwait _ _ _ => false
      | .launch _ _ _ => s.isDet B
      | k => k.isMem && !y.performed)
    let own (s : State) (p : Block → Warp → Bool) : Bool := !s.tripped && ownsB s (fun B W y => !y.done && p B W)
    let open' (f : State) (p : Bool) : Bool := own f (fun B W => !waits f B W && f.qctl 3 == 0x409 && B.ctx == 0 && f.queued 3 == 0 && p)
    let far (f : State) : State := { f with host := { f.host with qbase := [(3, 0x40000000)] } }
    own (s base 0x9000 3 0 [other (.store false) [part1 0x20000 1 [0]]]) (waits (s base 0x9000 3 0 [])) = true ∧
    (let d := s (deterministic base) 0x9000 3 0 [other (.launch 3 0x9000 3) []]
     own d (waits d)) = true ∧
    (let d := s base 0x9000 3 0 [other (.launch 3 0x9000 3) [], { other (.cbwait none 0 none) [] with id := 7 }]
     own d (fun B W => !waits d B W)) = true ∧
    own (s base 0x9000 128 0 []) (fun B W => !waits base B W) = true ∧
    (let f := s base 0x9000 3 16 []
     own f (fun B W => !waits f B W && f.qctl 3 == 0x409 && B.ctx == 0 && f.queued 3 == 2 ^ 4)) = true ∧
    (let f := s base 0x9000 3 0 []
     let g : State := unlocked f
     open' g (g.anyHeld 0 [(0x9000, 128), (0xA000, 128)] && g.slotVa 3 (g.qwr 3) == 0xA000)) = true ∧
    (let f := s base 0x40000000 3 0 []
     open' f (!f.anyHeld 0 [(0x40000000, 128), (0xA000, 128)] && f.access none 0 0x40000000 .read == .fault)) = true ∧
    (let f := far (s base 0x9000 3 0 [])
     open' f (!f.anyHeld 0 [(0x9000, 128), (0x40000000, 128)] && mappedB f 0 && f.mem.poison == [] && f.mem.bad == [] &&
       f.slotVa 3 (f.qwr 3) == 0x40000000 && f.access none 0 0x40000000 .write == .fault)) = true ∧
    (let f := s base 0x9000 3 0 []
     open' f (!f.anyHeld 0 [(0x9000, 128), (0xA000, 128)] && f.mem.poison == [] && f.mem.bad == [] && mappedB f 0 &&
       f.slotVa 3 (f.qwr 3) == 0xA000)) = true := by
  decide +kernel

/-- An access of a mapped page reads what stands there; an address without a translation stops at once. -/
theorem Mapped.reads {s : State} {ctx : Nat} (h : Mapped s ctx) (hc : clean s) {va : Nat} {bs : List Byte}
    (hb : (decide (va + bs.length ≤ 2 ^ 30) && s.mem.read va bs.length == bs) = true) : s.Reads ctx va bs := by
  simp only [Bool.and_eq_true, decide_eq_true_eq, beq_iff_eq] at hb
  intro k hk
  refine ⟨va + k, h.access (by omega) _, ?_, by simp [MemSt.poisoned, hc.1], by simp [hc.2]⟩
  conv_rhs => rw [← hb.2]
  unfold nth MemSt.read
  simp [hk]

/-- The pages stand whatever bytes from 0x4000 up are. -/
theorem Mapped.staysOff {s : State} {ctx : Nat} (h : Mapped s ctx) {va n : Nat} (hv : va + n ≤ 2 ^ 30) (need : Need) {P : Nat → Prop}
    (hP : ∀ x, P x → 0x4000 ≤ x) : s.StaysOff ctx va va n need P := by
  intro u hh ht _ hm k hk
  have hr (a : Nat) (ha : a + 8 ≤ 0x4000) : u.mem.readN a 8 = s.mem.readN a 8 := by
    unfold MemSt.readN
    congr 1
    unfold MemSt.read
    apply List.map_congr_left
    intro i hi
    exact hm _ fun hp => by have := hP _ hp; have := List.mem_range.mp hi; omega
  have hu : Mapped u ctx := by
    refine ⟨?_, ?_, ?_, ?_, ?_⟩
    · rw [hr 0x1000 (by omega)]; exact h.top
    · rw [hr 0x2000 (by omega)]; exact h.mid
    · rw [hr 0x3000 (by omega)]; exact h.leaf
    · rw [hh]; exact h.cpt
    · rw [ht]; exact h.key
  exact hu.access (by omega) need

theorem Mapped.stays {s : State} {ctx : Nat} (h : Mapped s ctx) {va n a m : Nat} (hv : va + n ≤ 2 ^ 30) (need : Need) (ha : 0x4000 ≤ a) :
    s.Stays ctx va va n need a m :=
  fun u hh ht hf hm => h.staysOff (P := fun x => a ≤ x ∧ x < a + m) hv need (fun _ hx => by omega) u hh ht hf (fun x hx => hm x hx)

theorem stops_of {s : State} {ctx va n : Nat} {need : Need} (h : s.access none ctx va need = .fault) (hn : 0 < n) :
    s.StopsAt ctx va n need true :=
  ⟨0, hn, fun _ h => by omega, by simp [h], by simp [h]⟩

/-- The record the command processor reads (Mapped.cpRead), and what p says of it. -/
def readsRecord (s : State) (p : List Dword → Bool) : Bool :=
  mappedB s (s.qctl 3 / 2 ^ 12 % 2 ^ 6) && s.mem.poison == [] && s.mem.bad == [] && s.slotVa 3 (s.qrd 3) == 0xA000 &&
  p (dwordsOf (s.mem.read 0xA000 128))

/-- A record whose code object's header lies in HBM4E of die 1, whose LOCK is 0. -/
def headerHeld : State :=
  let b := launching (0x40000000 :: goodRecord.tail)
  { b with dies := base.dies, mem := b.mem.write 0x3008 (leBytes 8 0x180000020F) }

/-- Queue 3 alone has a record to dispatch. -/
def onlyThree (s : State) : Bool := !s.tripped && s.launches.all (fun L => L.snap.isNone) && s.dispatchable 3 &&
  (List.range 128).all (fun k => k == 3 || !s.dispatchable k)

theorem witness_dispatch_held : onlyThree headerHeld = true ∧ headerHeld.anyHeld 0 (headerHeld.dispatchTouches 3) = true := by
  refine ⟨by decide +kernel, ?_⟩
  have hr := (mapped_of (s := headerHeld) (ctx := 0) (by decide +kernel)).cpRead ⟨by decide +kernel, by decide +kernel⟩
    (va := 0xA000) (n := 128) (by decide)
  unfold State.dispatchTouches
  dsimp only
  rw [show queueCtx (headerHeld.qctl 3) = 0 by decide +kernel, show headerHeld.slotVa 3 (headerHeld.qrd 3) = 0xA000 by decide +kernel, hr]
  decide +kernel

/-- With every die's HBM4E ready nothing waits for it. -/
theorem ready_held {s : State} (h : s.hbmReady = true) (ctx : Nat) (l : List (Nat × Nat)) : s.anyHeld ctx l = false := by
  simp [State.anyHeld, State.vaHeld, h]

/-- Nothing to dispatch; a record of zeros, which fails a check; one that passes them all. -/
theorem witness_LaunchDispatch :
    (List.range 128).all (fun q => !(ready base).dispatchable q) = true ∧
    (onlyThree (launching []) = true ∧ (launching []).anyHeld 0 ((launching []).dispatchTouches 3) = false) ∧
    readsRecord (launching []) (fun r => match (launching []).checkRecord 0 r with
      | .error st => st == 1
      | .ok _ => false) = true ∧
    (onlyThree (launching goodRecord) = true ∧ (launching goodRecord).anyHeld 0 ((launching goodRecord).dispatchTouches 3) = false) ∧
    readsRecord (launching goodRecord) (fun r => match (launching goodRecord).checkRecord 0 r with
      | .ok (some k) => k.batch.isNone && blockCount (levelsOf k.record) == 1
      | _ => false) = true :=
  ⟨by decide +kernel, ⟨by decide +kernel, ready_held (by decide +kernel) _ _⟩, by decide +kernel,
    ⟨by decide +kernel, ready_held (by decide +kernel) _ _⟩, by decide +kernel⟩

def levelsB (lv : List Nat) (scratch : Nat) : Bool :=
  lv.all (fun l => l / 2 ^ 29 % 8 == 0 && l / 2 ^ 27 % 4 != 3 && decide (l / 2 ^ 24 % 8 < 6)) &&
  lv.zipIdx.all (fun p => (p.1 / 2 ^ 24 % 8 == 0) == (p.2 == 0)) && decide (nth 0 lv 0 % 2 ^ 24 < 32) &&
  lv.zipIdx.all (fun p => lv.zipIdx.all (fun q => q.2 != p.2 + 1 || decide (p.1 / 2 ^ 24 % 8 ≤ q.1 / 2 ^ 24 % 8))) &&
  (List.range lv.length).any (fun b => lv.zipIdx.all (fun p =>
      (p.1 / 2 ^ 24 % 8 == 2 || p.1 / 2 ^ 24 % 8 == 3) == (p.2 == b) && (p.2 == b || p.1 / 2 ^ 27 % 4 == 0)) &&
    (nth 0 lv b / 2 ^ 27 % 4 != 0 || scratch == 0) && decide (prodNat ((lv.take b).map (fun l => l % 2 ^ 24 + 1)) ≤ 4096)) &&
  decide (prodNat ((lv.filter (fun l => l / 2 ^ 24 % 8 == 1)).map (fun l => l % 2 ^ 24 + 1)) ≤ 128) &&
  decide (prodNat (lv.map (fun l => l % 2 ^ 24 + 1)) < 2 ^ 52)

theorem levels_of {lv : List Nat} {scratch : Nat} (h : levelsB lv scratch = true) : LevelsValid lv scratch := by
  simp only [levelsB, Bool.and_eq_true, decide_eq_true_eq, List.all_eq_true, List.any_eq_true, Bool.or_eq_true, bne_iff_ne, beq_iff_eq,
    ne_eq, List.mem_range] at h
  obtain ⟨⟨⟨⟨⟨⟨h1, h2⟩, h3⟩, h4⟩, b, hb, ⟨h5, h6⟩, h7⟩, h8⟩, h9⟩ := h
  have idx : ∀ {k l}, lv[k]? = some l → (l, k) ∈ lv.zipIdx := fun e => List.mk_mem_zipIdx_iff_getElem?.mpr e
  refine ⟨fun l hl => ⟨(h1 l hl).1.1, (h1 l hl).1.2, (h1 l hl).2⟩, fun k l e => ?_, h3, fun k x y e f => ?_, ⟨b, hb, fun k l e => ?_, ?_, h7⟩, h8,
    h9⟩
  · have := h2 _ (idx e)
    simp only [Bool.beq_eq_decide_eq, decide_eq_decide] at this
    simpa using this
  · exact (h4 _ (idx e) _ (idx f)).resolve_left (by simp)
  · have := h5 _ (idx e)
    simp only [Bool.beq_eq_decide_eq, Bool.or_eq_decide, decide_eq_decide] at this
    refine ⟨by simpa using this.1, fun hk => this.2.resolve_left hk⟩
  · intro he; exact h6.resolve_left (not_not_intro he)

def shapeB (r : List Dword) : Bool :=
  [0, 7, 8, 10, 12, 13, 14].all (fun i => dwBits r i 52 12 == 0) &&
  decide (dwBits r 1 52 4 = 0 ∧ dwBits r 1 32 16 = 0 ∧ dwBits r 6 21 18 = 0 ∧ dwBits r 9 60 4 = 0 ∧ dwBits r 9 52 4 = 0 ∧ dwBits r 15 0 64 = 0) &&
  decide (dwBits r 1 58 2 ≠ 3 ∧ ¬(dwBits r 1 62 1 = 1 ∧ dwBits r 1 58 2 = 2)) && decide (2 ≤ dwBits r 1 48 4 ∧ dwBits r 1 48 4 ≤ 8) &&
  (List.range 8).all (fun k => decide (k < dwBits r 1 48 4) || recLevel r k == 0) &&
  (List.range 32).any (fun k => decide (1 ≤ k) && dwBits r 6 56 8 == 8 * k) &&
  (List.range 9).any (fun k => decide (1 ≤ k) && dwBits r 6 48 8 == 8 * k) &&
  decide (dwBits r 6 44 4 ≤ 8 ∧ dwBits r 6 39 5 ≤ 16 ∧ dwBits r 6 0 21 ≤ 1048576 ∧ dwBits r 9 56 4 ≤ 8) &&
  decide (dwBits r 0 0 52 % 64 = 0 ∧ dwBits r 1 0 32 % 8 = 0 ∧ dwBits r 8 0 52 % 8 = 0 ∧
    (0 < dwBits r 9 56 4 → dwBits r 9 0 52 % 16 = 0) ∧ dwBits r 10 0 52 % 16 = 0 ∧ (dwBits r 1 57 1 = 1 → dwBits r 13 0 52 % 4 = 0) ∧
    (dwBits r 1 58 2 ≠ 0 → dwBits r 14 0 52 % 16 = 0 ∧ dwBits r 14 0 52 ≠ 0)) &&
  levelsB (recLevels r (if dwBits r 1 57 1 = 1 then some 1 else none)) (dwBits r 6 0 21)

theorem shape_of {r : List Dword} (h : shapeB r = true) : RecordShape r := by
  simp only [shapeB, Bool.and_eq_true, decide_eq_true_eq, List.all_eq_true, List.any_eq_true, Bool.or_eq_true, beq_iff_eq,
    List.mem_range] at h
  obtain ⟨⟨⟨⟨⟨⟨⟨⟨⟨h1, h2⟩, h3⟩, h4⟩, h5⟩, a, ha, h6⟩, b, hb, h7⟩, h8⟩, h9⟩, h10⟩ := h
  exact ⟨⟨h1, h2⟩, h3, ⟨h4.1, h4.2, fun k hk hl => (h5 k hl).resolve_left (by omega)⟩,
    ⟨⟨a, h6.1, by omega, h6.2⟩, ⟨b, h7.1, by omega, h7.2⟩, h8⟩, h9, levels_of h10⟩

def coversB (h r : List Dword) : Bool :=
  decide (dwBits h 0 0 32 = 0x314F4348 ∧ dwBits h 0 32 16 = 1) &&
  decide (dwBits h 0 48 16 = 0 ∧ dwBits h 1 16 48 = 0 ∧ dwBits h 1 3 5 = 0 ∧ dwBits h 7 0 64 = 0) &&
  decide (dwBits h 1 0 1 = 1 ∧ dwBits h 1 8 8 ≤ 1) && decide (dwBits r 1 0 32 < dwBits h 3 32 32) &&
  (List.range 5).all (fun k => decide (nth 0 (fiveOf h 2) k ≤ nth 0 (fiveOf r 6) k)) &&
  (dwBits h 1 8 8 != 0 || ((List.range 5).all (fun k => decide (nth 0 (fiveOf r 6) k ≤ nth 0 [128, 32, 4, 8, 131072] k)) &&
    decide (prodNat (((recLevels r none).filter (fun l => decide (l / 2 ^ 24 % 8 < 2))).map (fun l => l % 2 ^ 24 + 1)) ≤ 1024)))

theorem covers_of {h r : List Dword} (hb : coversB h r = true) : HeaderCovers h r := by
  simp only [coversB, Bool.and_eq_true, decide_eq_true_eq, List.all_eq_true, Bool.or_eq_true, bne_iff_ne, List.mem_range] at hb
  obtain ⟨⟨⟨⟨⟨h1, h2⟩, h3⟩, h4⟩, h5⟩, h6⟩ := hb
  exact ⟨h1, h2, h3, h4, h5, fun e => h6.resolve_left (not_not_intro e)⟩

/-- `goodRecord` of 16 dwords, some of them others. -/
def recWith (l : List (Nat × Nat)) : List Dword :=
  (List.range 16).map (fun i => BitVec.ofNat 64 ((l.lookup i).getD (nth 0 goodRecord i)))

def headerWith (l : List (Nat × Nat)) : List Dword :=
  (List.range 8).map (fun i => BitVec.ofNat 64 ((l.lookup i).getD (nth 0 goodHeader i)))

/-- `base` with those bytes at 0x9000 and a good header at 0x8000. -/
def tabled (l : List Nat) : State :=
  { launching [] with mem := ((launching []).mem.write 0x9000 (l.flatMap (leBytes 8))) }

/-- A record that passes step 2, with a header that is read and covers it. -/
def Covered (s : State) (r h : List Dword) : Prop :=
  RecordShape r ∧ h.length = 8 ∧ s.Reads 0 (dwBits r 0 0 52) (dwBytes h) ∧ HeaderCovers h r

def coveredB (s : State) (r h : List Dword) : Bool :=
  mappedB s 0 && s.mem.poison == [] && s.mem.bad == [] && shapeB r && h.length == 8 && coversB h r &&
  (decide (dwBits r 0 0 52 + (dwBytes h).length ≤ 2 ^ 30) && s.mem.read (dwBits r 0 0 52) (dwBytes h).length == dwBytes h)

theorem covered_of {s : State} {r h : List Dword} (hb : coveredB s r h = true) : Mapped s 0 ∧ clean s ∧ Covered s r h := by
  unfold coveredB at hb
  rw [Bool.and_eq_true] at hb
  obtain ⟨hb, hr⟩ := hb
  simp only [Bool.and_eq_true, beq_iff_eq] at hb
  obtain ⟨⟨⟨⟨⟨h1, h2⟩, h3⟩, h4⟩, h5⟩, h6⟩ := hb
  have m := mapped_of h1
  exact ⟨m, ⟨h2, h3⟩, shape_of h4, h5, m.reads ⟨h2, h3⟩ hr, covers_of h6⟩

/-- A record of zeros; headers that cannot be read, are zeros, and, in range mode, want a capability; window tables that cannot be
read, hold a window of no bytes, and a good one; schedule tables that cannot be read, have a list that is not aligned, and a good
one. -/
theorem witness_LaunchRecords :
    let unread (s : State) (va n : Nat) : Prop := s.StopsAt 0 va n .read true
    let far := tabled []
    ¬RecordShape (List.replicate 16 0) ∧
    (RecordShape (recWith [(0, 0x40000000)]) ∧ unread far (dwBits (recWith [(0, 0x40000000)]) 0 0 52) 64) ∧
    (RecordShape (recWith [(0, 0x9000)]) ∧ far.Reads 0 0x9000 (dwBytes (List.replicate 8 0)) ∧
      ¬HeaderCovers (List.replicate 8 0) (recWith [(0, 0x9000)])) ∧
    (let r := recWith [(1, 0x0803000000000000), (14, 0x9000)]
     Covered far r (headerWith []) ∧ dwBits r 1 58 2 = 2 ∧ (tget 0 far.host.ccap 0).getLsbD 0 = false) ∧
    (let r := recWith [(9, 0x0100000040000000)]
     Covered far r (headerWith []) ∧ dwBits r 1 58 2 = 0 ∧ dwBits r 9 56 4 = 1 ∧ unread far (dwBits r 9 0 52) 16) ∧
    (∀ n ∈ [0, 64], let s := tabled [0x4000, n]
     let r := recWith [(9, 0x0100000000009000)]
     Covered s r (headerWith []) ∧ s.Reads 0 (dwBits r 9 0 52) (dwBytes [0x4000, BitVec.ofNat 64 n])) ∧
    (let r := recWith [(1, 0x0403000000000000), (14, 0x40000000)]
     Covered far r (headerWith []) ∧ dwBits r 1 58 2 = 1 ∧ unread far (dwBits r 14 0 52) 4096) ∧
    (∀ a ∈ [2, 4], let s := tabled [a]
     let r := recWith [(1, 0x0403000000000000), (14, 0x9000)]
     Covered s r (headerWith []) ∧ s.Reads 0 (dwBits r 14 0 52) (dwBytes (BitVec.ofNat 64 a :: List.replicate 511 0))) := by
  have stop : ∀ n, 0 < n → (tabled []).StopsAt 0 0x40000000 n .read true := fun n hn => stops_of (by decide +kernel) hn
  have c0 : ∀ r, coveredB (tabled []) r (headerWith []) = true → Covered (tabled []) r (headerWith []) := fun r h => (covered_of h).2.2
  refine ⟨fun h => absurd h.nlev.1 (by decide), ⟨shape_of (by decide +kernel), stop _ (by decide)⟩, ⟨shape_of (by decide +kernel), ?_,
    fun h => absurd h.magic.1 (by decide)⟩, ⟨c0 _ (by decide +kernel), by decide, by decide +kernel⟩, ⟨c0 _ (by decide +kernel), by decide, by decide,
    stop _ (by decide)⟩, ?_, ⟨c0 _ (by decide +kernel), by decide, stop _ (by decide)⟩, ?_⟩
  · exact (mapped_of (by decide +kernel)).reads ⟨by decide +kernel, by decide +kernel⟩ (by decide +kernel)
  · intro n hn
    have h : ∀ n ∈ [0, 64], coveredB (tabled [0x4000, n]) (recWith [(9, 0x0100000000009000)]) (headerWith []) = true ∧
        (decide (0x9000 + (dwBytes [0x4000, BitVec.ofNat 64 n]).length ≤ 2 ^ 30) &&
          (tabled [0x4000, n]).mem.read 0x9000 (dwBytes [0x4000, BitVec.ofNat 64 n]).length == dwBytes [0x4000, BitVec.ofNat 64 n]) = true := by decide +kernel
    replace h := h n hn
    obtain ⟨m, c, hv⟩ := covered_of h.1
    exact ⟨hv, m.reads c h.2⟩
  · intro a ha
    have h : ∀ a ∈ [2, 4], coveredB (tabled [a]) (recWith [(1, 0x0403000000000000), (14, 0x9000)]) (headerWith []) = true ∧
        (decide (0x9000 + (dwBytes (BitVec.ofNat 64 a :: List.replicate 511 0)).length ≤ 2 ^ 30) &&
          (tabled [a]).mem.read 0x9000 (dwBytes (BitVec.ofNat 64 a :: List.replicate 511 0)).length ==
            dwBytes (BitVec.ofNat 64 a :: List.replicate 511 0)) = true := by decide +kernel
    replace h := h a ha
    obtain ⟨m, c, hv⟩ := covered_of h.1
    exact ⟨hv, m.reads c h.2⟩

/-- An extent that cannot be read, of 0, beyond 2²⁴ and good; batch tables that cannot be read, have a bad header and a good one; a
block that no empty cluster admits, and one that fits. -/
theorem witness_record_extents :
    let far := tabled []
    (let r := recWith [(1, 0x0203000000000000), (13, 0x40000000)]
     Covered far r (headerWith []) ∧ dwBits r 1 57 1 = 1 ∧ far.StopsAt 0 (dwBits r 13 0 52) 4 .read true) ∧
    (∀ n ∈ [0, 2 ^ 24 + 1, 1], let s := tabled [n]
     let r := recWith [(1, 0x0203000000000000), (13, 0x9000)]
     Covered s r (headerWith []) ∧ dwBits r 1 57 1 = 1 ∧ s.Reads 0 (dwBits r 13 0 52) (leBytes 4 n) ∧ ofLeBytes (leBytes 4 n) = n) ∧
    LevelsValid (recLevels (recWith [(1, 0x0203000000000000), (13, 0x9000)]) (some 1)) 0 ∧
    (let r := recWith [(12, 0x40000000)]
     Covered far r (headerWith []) ∧ dwBits r 12 0 52 ≠ 0 ∧ far.StopsAt 0 (dwBits r 12 0 52) 64 .read true) ∧
    (∀ n ∈ [0, 1], let s := tabled [0, 0, 0, n]
     let r := recWith [(12, 0x9000)]
     Covered s r (headerWith []) ∧ dwBits r 12 0 52 ≠ 0 ∧
       s.Reads 0 (dwBits r 12 0 52) (dwBytes [0, 0, 0, BitVec.ofNat 64 n, 0, 0, 0, 0])) ∧
    (let r := recWith [(2, 0x0100001F0000001F), (6, 0x0808400000000000)]
     Covered far r (headerWith []) ∧ ¬emptyAdmits 0 (needOf r) ∧ ¬emptyAdmits 1 (needOf r)) ∧
    emptyAdmits 0 (needOf (recWith [])) ∧ Covered far (recWith []) (headerWith []) := by
  have stop : ∀ n, 0 < n → (tabled []).StopsAt 0 0x40000000 n .read true := fun n hn => stops_of (by decide +kernel) hn
  have c0 : ∀ r, coveredB (tabled []) r (headerWith []) = true → Covered (tabled []) r (headerWith []) := fun r h => (covered_of h).2.2
  have no : ∀ k, k < 2 → ¬emptyAdmits k (needOf (recWith [(2, 0x0100001F0000001F), (6, 0x0808400000000000)])) := by
    rintro k hk ⟨c, h1, -, h3, h4⟩
    have hc : c ≤ 3 := by refine le_trans h3 ?_; split <;> [split; skip] <;> decide
    have h := (h4 0 0 (by omega) (by decide)).2.2
    interval_cases c <;> exact absurd h (by decide +kernel)
  refine ⟨⟨c0 _ (by decide +kernel), by decide, stop _ (by decide)⟩, ?_, levels_of (by decide +kernel),
    ⟨c0 _ (by decide +kernel), by decide, stop _ (by decide)⟩, ?_, ⟨c0 _ (by decide +kernel), no 0 (by decide), no 1 (by decide)⟩, ?_,
    c0 _ (by decide +kernel)⟩
  · intro n hn
    have h : ∀ n ∈ [0, 2 ^ 24 + 1, 1], coveredB (tabled [n]) (recWith [(1, 0x0203000000000000), (13, 0x9000)]) (headerWith []) = true ∧
        (decide (0x9000 + (leBytes 4 n).length ≤ 2 ^ 30) && (tabled [n]).mem.read 0x9000 (leBytes 4 n).length == leBytes 4 n) = true ∧
          ofLeBytes (leBytes 4 n) = n := by decide +kernel
    replace h := h n hn
    obtain ⟨m, c, hv⟩ := covered_of h.1
    exact ⟨hv, by decide, m.reads c h.2.1, h.2.2⟩
  · intro n hn
    have h : ∀ n ∈ [0, 1], coveredB (tabled [0, 0, 0, n]) (recWith [(12, 0x9000)]) (headerWith []) = true ∧
        (decide (0x9000 + (dwBytes [0, 0, 0, BitVec.ofNat 64 n, 0, 0, 0, 0]).length ≤ 2 ^ 30) &&
          (tabled [0, 0, 0, n]).mem.read 0x9000 (dwBytes [0, 0, 0, BitVec.ofNat 64 n, 0, 0, 0, 0]).length ==
            dwBytes [0, 0, 0, BitVec.ofNat 64 n, 0, 0, 0, 0]) = true := by decide +kernel
    replace h := h n hn
    obtain ⟨m, c, hv⟩ := covered_of h.1
    exact ⟨hv, by decide, m.reads c h.2⟩
  · refine ⟨1, by decide, by decide, by decide, fun i p hi hp => ?_⟩
    obtain rfl : i = 0 := by omega
    interval_cases p <;> decide +kernel

/-- The dwords of a record of zeros with a SIGADDR. -/
def refused (at' : Nat) : List Nat := List.replicate 10 0 ++ [at']
def zeroRecord (at' : Nat) : List Dword := (refused at' ++ List.replicate 5 0).map (BitVec.ofNat 64)

/-- A queue whose next slot has no translation. -/
def farRing : State :=
  { launching [] with host := { (launching []).host with qbase := [(3, 0x40000000)] } }

/-- A refused record without a signal, with a bad SIGADDR and with a good one; a queue slot that cannot be read. -/
theorem witness_refused_records :
    (∀ at' ∈ [0, 8, 0x9000], onlyThree (launching (refused at')) = true ∧
      (launching (refused at')).anyHeld 0 ((launching (refused at')).dispatchTouches 3) = false ∧
      (launching (refused at')).Reads 0 ((launching (refused at')).slotVa 3 ((launching (refused at')).qrd 3)) (dwBytes (zeroRecord at')) ∧
      ¬RecordShape (zeroRecord at') ∧ dwBits (zeroRecord at') 10 0 52 = at' ∧
      (launching (refused at')).host.sigHeld = [] ∧ (launching (refused at')).hbmReady = true) ∧
    (launching (refused 0x9000)).StaysOff 0 0x9000 0x9000 16 .write (fun a => 0x9008 ≤ a ∧ a < 0x9010) ∧
    onlyThree farRing = true ∧ farRing.anyHeld 0 (farRing.dispatchTouches 3) = false ∧
      farRing.StopsAt 0 (farRing.slotVa 3 (farRing.qrd 3)) 128 .read true := by
  refine ⟨fun a ha => ?_, ?_, by decide +kernel, ready_held (by decide +kernel) _ _, ?_⟩
  · have h : ∀ a ∈ [0, 8, 0x9000], onlyThree (launching (refused a)) = true ∧ (launching (refused a)).hbmReady = true ∧
        mappedB (launching (refused a)) 0 = true ∧ clean (launching (refused a)) ∧
        (launching (refused a)).slotVa 3 ((launching (refused a)).qrd 3) = 0xA000 ∧
        (decide (0xA000 + (dwBytes (zeroRecord a)).length ≤ 2 ^ 30) &&
          (launching (refused a)).mem.read 0xA000 (dwBytes (zeroRecord a)).length == dwBytes (zeroRecord a)) = true ∧
        dwBits (zeroRecord a) 1 48 4 = 0 ∧ dwBits (zeroRecord a) 10 0 52 = a ∧ (launching (refused a)).host.sigHeld = [] := by
      unfold clean
      decide +kernel
    obtain ⟨h1, h2, h3, h4, h5, h6, h7, h8, h9⟩ := h a ha
    refine ⟨h1, ready_held h2 _ _, ?_, fun hs => absurd hs.nlev.1 (by omega), h8, h9, h2⟩
    rw [h5]; exact (mapped_of h3).reads h4 h6
  · exact (mapped_of (by decide +kernel)).staysOff (by decide) _ fun x h => by omega
  · rw [show farRing.slotVa 3 (farRing.qrd 3) = 0x40000000 by decide +kernel]
    exact stops_of (by decide +kernel) (by decide)

/-- A launch with nothing placed yet, of `base`'s record. -/
def unplaced (s : State) : State := withLaunch { s with blocks := [], allocs := [] } (fun L => { L with placed := 0 })

theorem planFrom_one {fr : Nat} {n : Wants} {gs : List (Nat × Nat)} {rooms : List Nat} {whole : Bool} {k : Nat} {die : Option Nat}
    {us : Uses} (h : (choices n gs rooms whole k die us).isEmpty = false) :
    ∃ x ∈ choices n gs rooms whole k die us, planFrom fr n gs rooms whole 1 k die us = some [(x.1, x.2.1)] := by
  unfold planFrom
  split
  · rename_i hc; rw [hc] at h; contradiction
  · rename_i c cs hc
    have hl : Config.freeNat 380 fr k % (cs.length + 1) < (c :: cs).length := by
      simp only [List.length_cons]; exact Nat.mod_lt _ (Nat.succ_pos _)
    refine ⟨nth c (c :: cs) (Config.freeNat 380 fr k % (cs.length + 1)), ?_, rfl⟩
    rw [hc]
    unfold nth
    rw [List.getElem?_eq_getElem hl]
    exact List.getElem_mem hl

/-- Where blocks go that find every die ready: no spill page is waited for. -/
theorem ready_spills (s t : State) : (ready s).spillsHeld t = false := by
  have h : (ready s).hbmReady = true := by simp [ready, State.hbmReady, List.all_map]
  simp [State.spillsHeld, State.allocHeld, State.anyHeld, State.vaHeld, h]

/-- The clusters that admit the next block of a launch of `s`. -/
def nextSeats (s : State) (M : Launch) : List (Nat × List Seat × List CoreUse) :=
  let n := needOf M.record
  let rooms := emptyRooms M.onlyN n
  choices n (groupsOf M.coop rooms (levelsOf M.record) M.blocks) rooms M.coop M.placed M.memberDie (s.usesFor M)

/-- A launch of `s` that is neither cooperative nor deterministic goes to one of those. -/
theorem plan_of {s : State} {l : Nat} (h : (match s.launch? l with
      | some M => !M.coop && !M.det && !(nextSeats s M).isEmpty
      | none => false) = true) : ∃ L x, s.launch? l = some L ∧ L.coop = false ∧ s.planNext L = some [x] := by
  split at h
  case h_2 => contradiction
  rename_i L hL
  simp only [Bool.and_eq_true, Bool.not_eq_true'] at h
  obtain ⟨x, -, hx⟩ := planFrom_one (fr := s.fresh) h.2
  refine ⟨L, (x.1, x.2.1), hL, h.1.1, ?_⟩
  unfold State.planNext
  simp only [h.1.1, h.1.2, Bool.false_eq_true, if_false]
  simpa [h.1.1] using hx

/-- A launch whose block is placed, one that must wait, a cooperative one, one that finds no place and does not pre-empt; a warp that
has drained, alone and beside another, and one whose pinned pages' memory is held. -/
theorem witness_BlocksComeAndGo :
    let s := ready (unplaced base)
    let c := withLaunch (ready (unplaced (cooperative base))) (fun L => { L with counter := some 2 })
    let big := withRecord s 2 0x01000FFF0000001F
    let placeable (s : State) : Bool := (match s.launch? 0 with
      | some L => L.waits && !s.mustWait L && !L.coop && L.blocks == 1
      | none => false)
    placeable s = true ∧ (∃ L x, s.launch? 0 = some L ∧ s.planNext L = some [x] ∧ s.spillsHeld (s.placeOne 0 x.1 x.2) = false) ∧
    (match base.launch? 0 with
      | some L => !L.waits
      | none => false) = true ∧
    (match c.launch? 0 with
      | some L => L.waits && !c.mustWait L && L.coop && L.counter == some 2
      | none => false) = true ∧
    (∃ L plan, c.launch? 0 = some L ∧ c.planNext L = some plan ∧
      c.spillsHeld (plan.foldl (fun s e => s.placeOne 0 e.1 e.2) c) = false) ∧
    (match big.launch? 0 with
      | some L => L.waits && !big.mustWait L && !L.coop && (big.planNext L).isNone && !(tget 0 big.host.qctl L.queue).getLsbD 4
      | none => false) = true ∧
    (let gone (W : Warp) : Warp := W.modThreads (BitVec.allOnes 32) (fun t => { t with status := .exited })
     let one := baseWith gone
     let two := one.modBlock 1 (fun B => { B with warps := B.warps ++ B.warps.map (fun W => { W with idx := 1 }) })
     let drains (s : State) : Bool := found s (fun B W _ => !W.freed && B.halt.isNone &&
       (List.range 32).all (fun l => (W.thread l).status == .exited) && s.drained B W)
     let back (b : Bool) : State := { one with
       dies := one.dies.map (fun d => { d with lock := b })
       allocs := one.allocs.map (fun A => { A with owner := 1, size := 4096, pages := [⟨0, some (0, 0), 5⟩] }) }
     drains one && drains two && (two.warp? 1 1).any (fun U => !U.freed) && drains (back false) && (back false).pinsHeld 1 &&
       !(back true).pinsHeld 1) = true := by
  refine ⟨by decide +kernel, ?_, by decide +kernel, by decide +kernel, ?_, by decide +kernel, by decide +kernel⟩
  · obtain ⟨L, x, hL, -, hx⟩ := plan_of (s := ready (unplaced base)) (l := 0) (by decide +kernel)
    exact ⟨L, x, hL, hx, ready_spills _ _⟩
  · let c := withLaunch (ready (unplaced (cooperative base))) (fun L => { L with counter := some 2 })
    obtain ⟨L, hL⟩ := Option.isSome_iff_exists.mp (show (c.launch? 0).isSome = true by decide +kernel)
    have hk : (match c.launch? 0 with
      | some M => M.coop && !M.det && M.blocks == 1 && !(nextSeats c M).isEmpty
      | none => true) = true := by decide +kernel
    rw [hL] at hk
    simp only [Bool.and_eq_true, Bool.not_eq_true', beq_iff_eq] at hk
    obtain ⟨x, -, hx⟩ := planFrom_one (fr := c.fresh) hk.2
    refine ⟨L, [(x.1, x.2.1)], hL, ?_, ready_spills (withLaunch (unplaced (cooperative base)) (fun L => { L with counter := some 2 })) _⟩
    unfold State.planNext
    simp only [hk.1.1.1, hk.1.1.2, hk.1.2, Bool.false_eq_true, if_false, if_true]
    simpa [hk.1.1.1, hk.1.2, c] using hx

theorem any_of {α : Type} {o : Option α} {p : α → Bool} (h : o.any p = true) : ∃ a, o = some a ∧ p a = true := by
  cases o with
  | none => contradiction
  | some a => exact ⟨a, rfl, h⟩

/-- A deterministic launch of nothing placed yet, whose block's seat is free. -/
theorem witness_det_block : ∃ L x, (ready (unplaced (deterministic base))).launch? 0 = some L ∧ L.det = true ∧ L.placed = 0 ∧
    L.coop = false ∧ L.waits = true ∧ (ready (unplaced (deterministic base))).mustWait L = false ∧
    (ready (unplaced (deterministic base))).planNext L = some [x] := by
  let s := ready (unplaced (deterministic base))
  obtain ⟨L, hL⟩ := Option.isSome_iff_exists.mp (show (s.launch? 0).isSome = true by decide +kernel)
  have hk : (match s.launch? 0 with
      | some M => M.det && M.placed == 0 && !M.coop && M.waits && !s.mustWait M &&
          (let n := needOf M.record
           let rooms := emptyRooms M.onlyN n
           let gs := groupsOf false rooms (levelsOf M.record) M.blocks
           let e := (clustersFor M.onlyN).map (fun cl => (cl, emptyCluster))
           (groupAt gs 0).1 == 1 && (none :: (List.range 4).map some).all (fun die =>
             let c := choices n gs rooms false 0 die e
             !c.isEmpty && c.all (fun x => decide (clusterDie x.1 < 4) &&
               (seatAll n (M.schedMode == 1) [(x.1, x.2.1)] (s.usesFor M)).any (fun l => l.length == 1))))
      | none => true) = true := by decide +kernel
  rw [hL] at hk
  simp only [Bool.and_eq_true, Bool.not_eq_true', beq_iff_eq, List.all_eq_true, decide_eq_true_eq] at hk
  obtain ⟨⟨⟨⟨⟨h1, h2⟩, h3⟩, h4⟩, h5⟩, h6, h7⟩ := hk
  obtain ⟨x, hx, hp⟩ := planFrom_one (fr := L.record.foldl (fun a d => a * 2 ^ 64 + d.toNat) 0) (h7 none (by simp)).1
  have hd := ((h7 none (by simp)).2 x hx).1
  obtain ⟨y, hy, hq⟩ := planFrom_one (fr := L.record.foldl (fun a d => a * 2 ^ 64 + d.toNat) 0)
    (h7 (some (clusterDie x.1)) (by simp [hd])).1
  have hs := ((h7 (some (clusterDie x.1)) (by simp [hd])).2 y hy).2
  obtain ⟨l, hl, hn⟩ := any_of hs
  obtain ⟨z, hz⟩ := List.length_eq_one_iff.mp (by simpa using hn)
  refine ⟨L, z, hL, h1, h2, h3, h4, h5, (?_ : s.planNext L = some [z])⟩
  unfold State.planNext detPlan
  simp only [h1, h2, h3, if_true, Bool.false_eq_true, if_false, h6, Nat.zero_div, Nat.zero_mul, hp, Option.bind_some, List.head?_cons,
    Option.map_some, hq]
  rw [hl, hz]

/-- A record that waits for its ring, with room and without; one that a warp is held on, whose word's fault the warp records. -/
theorem witness_FaultVerdicts :
    let f : FaultRec := ⟨1, 0, 5, 0, 1, 0, 0, none⟩
    let s (wr : Nat) : State := ready { base with
      faults := [f], host := { base.host with cflt := [(0, 0x8000)], fltWr := [(0, BitVec.ofNat 64 wr)] } }
    let held : State := { baseWith (fun W => { W with held := [(0, 1)] }) with faults := [{ f with id := some 7 }] }
    (s 0).faults.find? (fun f => f.ctx == 0 && f.id.isNone) = some f ∧ (s 0).hbmReady = true ∧ (s 0).tripped = false ∧
    ((16 + 2 ^ 32 - 0) % 2 ^ 32 = 2 ^ 4 ∧ (tget 0 (s 16).host.fltWr 0).toNat = 16) ∧
    mappedB (s 0) 0 = true ∧
    held.faults.find? (fun f => f.ctx == 0 && f.id == some 7) = some { f with id := some 7 } ∧
    found held (fun B W _ => W.held == [(0, 1)] && !B.aborted) = true := by
  decide +kernel

/-! ## Witnesses: capture, restore, commands -/

/-- An image of `base`'s block, in the restore queue, the block itself gone, its context disabled. -/
def captured : State :=
  match base.block? 1 with
  | some B => { ready base with
      blocks := [], images := [⟨{ B with cores := [], slots := [], a := 8, nacc := 0 }, 0, 0x8000, true, []⟩]
      host := { base.host with cpt := [] } }
  | none => base

/-- A copy request that the block kicked and that is not over. -/
def kicked (run : Option CopyRun) : CopyEntry := .request ⟨0, 0, 2, (1, 0), [], 0, Sig.empty, false, (0, 0), run⟩

def kicking (s : State) (run : Option CopyRun) : State :=
  { s with cores := [(0, { CoreSt.reset with copyQ := [[kicked run], [], [], []] })] }

/-- A tuple request of that block, withdrawn with 40 ns of its timeout left. -/
def withdrawal : TupReq × Nat := (⟨9, some (1, 0), 0, 0, List.replicate 8 0, 0, 0xF, true, 100, Sig.empty, none⟩, 40)

/-- A block frozen, with a withdrawn request and without, and where its image's memory is held; one that runs; an image at the head of
the queue that a cluster admits, one whose memory is held, one with an error, one behind a launch of a higher level; a block that its
copy requests keep from running on and one that nothing keeps. -/
theorem witness_CaptureRestore :
    let frozen (s : State) (l : List (TupReq × Nat)) : State :=
      s.modBlock 1 (fun B => { B with halt := some (.capture 0), cores := [128], withdrawn := l })
    let captures (s : State) (held : Bool) : Bool := (match s.block? 1 with
      | some B => B.halt == some (.capture 0) && s.capturable B && (s.launch? B.launch).isSome && s.captureHeld B 0 == held
      | none => false)
    let seated (s : State) : Bool := (match s.restoreQueue with
      | [m] => !s.imagePoison m && s.blocks == [] &&
          (match s.planImages [m] (allClusters.map (fun k => (k, s.clusterUse k))) with
            | some [(x, cl, seats)] => x == m && decide (cl = 0) && seats == [(0, 0, 1)]
            | _ => false)
      | _ => false)
    let back (s : State) (waits : Bool) : Bool := (match s.blocks.filter Block.restoring with
      | [B] => B.uid == 1 && B.halt == some (.restoring 0) && B.withdrawn == [withdrawal] &&
          (s.copiesLeft 1 || s.backHeld (s.allocsOf 1)) == waits
      | _ => false)
    let restoring : State := ready (base.modBlock 1 (fun B => { B with halt := some (.restoring 0), withdrawn := [withdrawal] }))
    (captures (frozen (ready base) []) false && captures (frozen (ready base) [withdrawal]) false &&
      (base.block? 1).any (fun B => B.halt != some (.capture 0))) = true ∧
    (ready base).restoreQueue = [] ∧
    seated captured = true ∧ (captured.restoreQueue.all (fun m => captured.launches.all (fun M => decide (M.prio ≤ captured.imagePrio m)))) = true ∧
    (captured.hbmReady && !captured.copiesLeft 1) = true ∧
    (seated (kicking captured none) && (kicking captured none).copiesLeft 1) = true ∧
    (captured.images.all (fun m => m.cause == 0 && !captured.imageBad m)) = true ∧
    (back restoring false && back (kicking restoring none) true) = true := by
  decide +kernel

/-- A frozen block whose image's memory is held; an image at the head of the queue whose memory is held, and one with POISON. -/
theorem witness_restore_waits :
    let frozen : State := { (unlocked base).modBlock 1 (fun B => { B with halt := some (.capture 0), cores := [128] }) with
      host := { base.host with cmig := [(0, 0x100000)], cmslot := [(0, 0x4000)] } }
    (frozen.block? 1).any (fun B => frozen.captureHeld B 0) = true ∧
    (let s : State := unlocked { captured with host := base.host }
     s.restoreQueue.any (fun m => s.vaHeld m.blk.ctx m.va (s.imageLen m))) = true ∧
    (let bad : State := { captured with host := base.host, mem := base.mem.write 0x8000 (leBytes 8 (2 ^ 21)) }
     bad.restoreQueue.any (fun m => bad.imagePoison m && m.cause == 0)) = true := by
  decide +kernel

/-- A launch of a higher level than the image, that can place its block. -/
def rival : State :=
  { captured with launches := captured.launches ++ captured.launches.map (fun L => { L with uid := 5, placed := 0, prio := 7 }) }

theorem witness_rival : (match rival.restoreQueue with
      | [m] => decide (rival.imagePrio m < 7)
      | _ => false) = true ∧
    ∃ L ∈ rival.launches, L.prio = 7 ∧ rival.canPlace L = true ∧ rival.mustWait L = false := by
  refine ⟨by decide +kernel, ?_⟩
  obtain ⟨L, x, hL, hc, hx⟩ := plan_of (s := rival) (l := 5) (by decide +kernel)
  have h : (match rival.launch? 5 with
      | some L => L.prio == 7 && L.waits && !rival.mustWait L
      | none => false) = true := by decide +kernel
  rw [hL] at h
  simp only [Bool.and_eq_true, Bool.not_eq_true', beq_iff_eq] at h
  exact ⟨L, List.mem_of_find?_eq_some hL, h.1.1, by simp [State.canPlace, h.1.2, hc, hx], h.2⟩

/-- A block frozen, its chains and operations over, with a first core, a slot there, no pinned page and a migration slot that is mapped. -/
theorem witness_capture_image :
    let s : State := { (base.modBlock 1 (fun B => { B with halt := some (.capture 0), cores := [128], slots := [(128, 3)] })) with
      host := { base.host with cmig := [(0, 0x100000)], cmslot := [(0, 0x4000)] }
      allocs := base.allocs.map (fun A => { A with pages := A.pages.map (fun p => { p with pin := none }) }) }
    (match s.block? 1 with
      | some B => B.halt == some (.capture 0) && s.capturable B && (s.launch? B.launch).isSome && B.cores.head? == some 128 &&
          B.slots.filter (fun x => x.1 == 128) == [(128, 3)] && B.ctx == 0 && B.withdrawn.all (fun r => r.1.fields.length == 8)
      | none => false) = true ∧
    s.allocs.all (fun A => A.pages.all (fun p => p.pin.isNone)) = true ∧
    coreDie 128 = 2 ∧ (tget 0 s.host.cmig 0).toNat / 2 ^ 12 % 2 ^ 40 * 2 ^ 12 = 0x100000 ∧ coreLocal 128 = 0 ∧
    (∀ n, n ≤ 2 ^ 20 → s.mapsTo 0 (0x100000 + 3 * 0x4000) n (0x100000 + 3 * 0x4000) .write) := by
  refine ⟨by decide +kernel, by decide +kernel, by decide +kernel, by decide +kernel, by decide +kernel, ?_⟩
  exact fun n hn => (mapped_of (by decide +kernel)).mapsTo (by omega) _

/-- RECOVERY, a command in progress; a context that is not enabled, one that is; a launch that uses a code object and a launch that
does not, and an image of it whose header's memory is held and whose is not; an access issued in the pages of an INVALIDATE and none,
and one whose accesses are over; a ladder past both deadlines, with its block and without, and with a RESUME that came. -/
theorem witness_Commands :
    (base.trust.bootstat ≠ 2 ∧ base.host.cmdBusy = false ∧ base.host.cmdInv = none) ∧
    (tget 0 base.host.cpt 5).getLsbD 0 = false ∧ (tget 0 base.host.cpt 0).getLsbD 0 = true ∧
    base.launches.map (fun L => (L.ctx, (nth 0 L.record 0).toNat % 2 ^ 52)) = [(0, 0)] ∧
    (let c : State := { captured with host := base.host }
     c.images.all (fun m => (c.launch? m.blk.launch).isSome && !c.vaHeld m.blk.ctx m.va 8 &&
       (unlocked c).vaHeld m.blk.ctx m.va 8) && c.images.length == 1) = true ∧
    (base.host.cmdlen = 0 ∧ found (baseWith (fun W => { W with ops := [opOf (.store false) [part1 0x20000 1 [0]] []] })) (fun B W _ =>
       B.ctx == 0 && W.ops.any (fun o => o.kind.isMem && !o.kind.scratch && o.parts.any (fun p => !p.done))) = true ∧
     found base (fun _ W _ => W.ops == []) = true ∧ base.cores.all (fun c => c.2.copyQ.all (·.isEmpty)) = true) ∧
    (({ base with host := { base.host with cmdInv := some (0, 0, 0, []) } } : State).host.cmdInv = some (0, 0, 0, [])) ∧
    (let s (r : Bool) := withLaunch { base with time := 10000000 } (fun L => { L with ladder := some ⟨0, r⟩ })
     [true, false].all (fun r => (match (s r).launch? 0 with
       | some L => L.ladder == some ⟨0, r⟩ && decide (0 + 1000 * (nth 0 (s r).host.pred1 L.prio).toNat ≤ (s r).time) &&
           decide (0 + 1000 * (nth 0 (s r).host.pred2 L.prio).toNat ≤ (s r).time) && (s r).blocks.any (fun B => B.launch == 0)
       | none => false)) = true ∧ ({ s true with blocks := [] } : State).blocks = []) ∧
    (base.launch? 0).bind (·.ladder) = none := by
  decide +kernel

/-! ## Witnesses: the host, peers, trust -/

/-- WR of a queue with DEV, of one with too many records, of one that takes it; valid masks, an invalid one, a locked die;
BOOTSTAT at READY and not, memory that takes requests and memory that holds them; a window for stores, also where its memory is held,
one for deposits, none, of a context that is enabled and of one that is not. -/
theorem witness_HostAndPeers :
    let q (ctl : Nat) := (withQueue base ctl 0 []).qctl 3
    let w (dep ctx : Nat) : State := { ready base with
      peers := { base.peers with pwin := [(0, BitVec.ofNat 64 (2 ^ 63 + dep * 2 ^ 62 + ctx * 2 ^ 56 + 0x8000))], plen := [(0, 64)] } }
    let boot (b : State) : State := { b with trust := { b.trust with bootstat := 3 } }
    (q 0x409 / 2 ^ 3 % 2 = 1 ∧ q 0x401 / 2 ^ 3 % 2 = 0 ∧ 2 ^ (q 0x401 / 2 ^ 8 % 2 ^ 4) < (17 + 2 ^ 32 - base.qrd 3) % 2 ^ 32 ∧
      ¬2 ^ (q 0x401 / 2 ^ 8 % 2 ^ 4) < (16 + 2 ^ 32 - base.qrd 3) % 2 ^ 32) ∧
    ((List.range 7).all (fun k => maskValid k (nth 0 (State.reset.die 0).hashm k)) = true ∧ (State.reset.die 0).lock = false ∧
      ((ready base).die 0).lock = true ∧ maskValid 2 0 = false ∧ State.reset.dies.length = 4) ∧
    (State.reset.trust.bootstat ≠ 3 ∧ State.reset.trust.bootstat ≠ 2) ∧
    ((List.range 16).all (fun k => location (0x200000 + k) == some (0x200000 + k) && (boot { base with dies := State.reset.dies }).heldLoc (0x200000 + k) &&
      !(boot (ready base)).heldLoc (0x200000 + k) && !(boot (ready base)).inKeymap (0x200000 + k))) = true ∧
    ((w 0 0).hbmReady = true ∧ (w 0 0).tripped = false) ∧
    ((w 0 0).openWindow 0 8 false).isSome = true ∧ ((w 0 0).openWindow 0 64 false).isNone = true ∧
    mappedB (w 0 0) 0 = true ∧
    ((unlocked (w 0 0)).openWindow 0 8 false).any (fun x => (unlocked (w 0 0)).vaHeld (x.toNat / 2 ^ 56 % 2 ^ 6) (x.toNat % 2 ^ 52 + 8) 4) = true ∧
    ((w 1 0).openWindow 0 8 true).isSome = true ∧ (tget 0 (w 1 0).host.cpt 0).getLsbD 0 = true ∧
    ((w 1 5).openWindow 0 8 true).isSome = true ∧ (tget 0 (w 1 5).host.cpt 5).getLsbD 0 = false := by
  decide +kernel

/-- Every context enabled, with `base`'s pages. -/
def allContexts (s : State) : State := { s with host := { s.host with cpt := (List.range 64).map (fun c => (c, 0x1001)) } }

/-- An event held with a ring that has room, with one that is full and with none; RECOVERY; a debugger's halt; sites of a warp whose
words have an error; a unit of DRAM with one, of a die that is locked and of one that is not. -/
theorem witness_TrustAndPackage :
    let ring (wr : Word) : State := allContexts { ready base with tel := { base.tel with
      sources := [(7, ⟨1, [⟨7, 0, 0, 1, 2⟩], 0⟩)], evbase := 0x8000, evctl := 0x84, evwr := wr } }
    ((ring 0).tel.ringOn = true ∧ (tget EvSource.reset (ring 0).tel.sources 7).held.length = 1 ∧
      ((ring 0).tel.evwr - (ring 0).tel.evrd).toNat ≠ 2 ^ ((ring 0).tel.evctl.toNat % 32) ∧ (ring 0).tripped = false ∧
      (ring 0).hbmReady = true) ∧
    ((ring 16).tel.evwr - (ring 16).tel.evrd).toNat = 2 ^ ((ring 16).tel.evctl.toNat % 32) ∧
    (State.reset.trust.boxes.length = 9 ∧ State.reset.trust.mr.length = 8 ∧ State.reset.trust.bootstat ≠ 2) ∧
    found (base.modBlock 1 (fun B => { B with halt := some .debugger })) (fun B _ _ => B.halt == some .debugger) = true ∧
    (base.warp? 1 0).isSome = true ∧
    found (baseWith (fun W => { W with weakV := [32 * 4 + 3], weakW := [5] })) (fun _ W _ =>
      W.weakV.contains (32 * 4 + 3) && W.weakW.contains 5) = true ∧
    (let lost : State := { base with trust := { base.trust with bootstat := 2 } }
     lost.trust.bootstat = 2 ∧ lost.trust.image = none) ∧
    (let bad (b : State) : State := { b with mem := { b.mem with bad := [0x8000] } }
     (bad { base with dies := State.reset.dies }).heldLoc (16 * 0x8000) = true ∧ (bad (ready base)).heldLoc (16 * 0x8000) = false) := by
  decide +kernel

/-- Whatever context the ring's writes take (it is free), they reach memory, or wait for it. -/
theorem witness_event_ring :
    (allContexts (ready base)).mapsTo (Config.freeNat 456 0 0 % 64) 0x8000 32 0x8000 .write ∧
    (allContexts (unlocked base)).vaHeld (Config.freeNat 456 0 0 % 64) 0x8000 32 = true := by
  have h : ∀ c, c < 64 → mappedB (allContexts (ready base)) c = true ∧ (allContexts (unlocked base)).vaHeld c 0x8000 32 = true := by
    decide +kernel
  obtain ⟨h1, h2⟩ := h (Config.freeNat 456 0 0 % 64) (Nat.mod_lt _ (by decide))
  exact ⟨(mapped_of h1).mapsTo (by decide) _, h2⟩

/-! ## Witnesses: operations under way -/

/-- With an empty TLB a cluster's translation is the walk. -/
theorem access_tlb {s : State} (ht : s.mem.tlb = []) (cl : Option Nat) (ctx va : Nat) (need : Need) :
    s.access cl ctx va need = s.access none ctx va need := by
  unfold State.access State.translate
  cases cl <;> simp [ht]

theorem readVa_tlb {s : State} (ht : s.mem.tlb = []) (cl : Option Nat) (ctx : Nat) : ∀ n va,
    s.readVa cl ctx va n = s.readVa none ctx va n
  | 0, _ => rfl
  | n + 1, va => by unfold State.readVa; rw [access_tlb ht, readVa_tlb ht cl ctx n]

/-- What an engine reads in a context's pages. -/
theorem Mapped.engRead {s : State} {ctx : Nat} (h : Mapped s ctx) (hc : clean s) (ht : s.mem.tlb = []) (cl : Option Nat) {va n : Nat}
    (hv : va + n ≤ 2 ^ 30) : s.engRead cl ctx va n = .ok (s.mem.read va n) := by
  have hp : s.vaPoisoned cl ctx va n = false := by
    have h0 := h.notPoisoned hc hv
    unfold State.vaPoisoned at h0 ⊢
    simpa [access_tlb ht] using h0
  unfold State.engRead
  rw [readVa_tlb ht, h.readVa hv]
  simp [hp]

theorem Mapped.readPage {s : State} {ctx : Nat} (h : Mapped s ctx) (hc : clean s) (ht : s.mem.tlb = []) (cl : Option Nat) {e : Snap}
    {v : Bool} {d : Nat} (hv : (if v then e.vaddr else e.kaddr) + pageBytes e.tag d ≤ 2 ^ 30) :
    s.readPage cl ctx e v d = .ok (pageRows e.tag d (if v then e.vscale else e.kscale) (s.mem.read (if v then e.vaddr else e.kaddr)
      (pageBytes e.tag d))) := by
  unfold State.readPage
  rw [h.engRead hc ht cl hv]
  rfl

theorem base_mapped : Mapped base 0 := mapped_of (by decide +kernel)
theorem base_clean : clean base := ⟨by decide +kernel, by decide +kernel⟩
theorem base_tlb : base.mem.tlb = [] := by decide +kernel

/-- A warp to hold, with one page; an address outside the abort ring's slot; a warp with no eligible thread. -/
theorem witness_held_and_aborted :
    found base (fun B W _ => B.uid == 1 && W.idx == 0) = true ∧ ([0x5000] : List Nat) ≠ [] ∧
    (tget 0 base.host.cabt 0 = 0 ∧ (List.range 64).all (fun k => base.access none 0 k .write != .mem 0x100) = true) ∧
    ((baseWith (fun W => W.modThreads (BitVec.allOnes 32) (fun t => { t with status := .exited }))).warp? 1 0).any
      (fun W => (List.range 32).all (fun l => (W.thread l).status != .eligible)) = true := by
  decide +kernel

/-- A turn of another agent; a REP sequence whose target stands after the REP word; an address that cannot be fetched; the token's
holder among the ready warps. -/
theorem witness_StepRunsOthers :
    ({ base with schedule := [⟨⟨1, 1, 1, 1, 1⟩, .event .epochBoundary⟩] } : State).nextTurn.act = .event .epochBoundary ∧
    (let rep : FmtS := fs 3 1 1 15 0
     let b := State.reset.withFetchWord 64 ((encode (.rep rep)).getD 0).toNat
     let s := ({ b with mem := b.mem.write 0x10008 (leBytes 8 ((encode (.iadd (fa 4 5 6 0))).getD 0).toNat) } : State).modWarp 1 0
       (fun W => { W with repc := 3, rep := some ⟨BitVec.allOnes 32, rep, []⟩ })
     let s1 := s.beginTurn s.nextTurn
     match s1.selectWarp 0 0 with
      | some (B, W) => W.rep.isSome && (s1.runOf B W).map (·.2) == some 0x10000 &&
          s1.access (some 0) B.ctx 0x10008 .fetch == .mem 0x10008 && !s1.mem.poisoned 0x10008 8 &&
          decode (s1.mem.read 0x10008 8) == .ok (.iadd (fa 4 5 6 0), [])
      | none => false) = true ∧
    (let s := atPc placed 0x40000000
     let s1 := s.beginTurn s.nextTurn
     match s1.selectWarp 0 0 with
      | some (B, W) => s1.fetch W.core B.ctx 0x40000000 == .fault
      | none => false) = true ∧
    (let s := withLaunch (deterministic placed) (fun L => { L with token := ⟨some (0, 0), true, Sig.empty⟩ })
     let s1 := s.beginTurn s.nextTurn
     (s1.subpWarps 0 0).any (fun x => s1.warpReady x.1 x.2 && s1.holdsToken x.1 x.2.idx)) = true := by
  decide +kernel

/-- Tables in HBM4E of a die whose LOCK is 0: the walk waits; those of `base` do not. -/
theorem witness_walk_waits :
    let open' : State := unlocked base
    globalB open' (.ldLane .w32 (fm 4 6 0 1)) (fun g c x => (List.range 32).all (fun l => open'.walkHeld x.B.ctx (g.ea c l))) = true ∧
    globalSamples.all (fun i => globalB base i (fun g c x => (List.range 32).all (fun l => !base.walkHeld x.B.ctx (g.ea c l)))) = true ∧
    clearB open' (.monitor (fs 0 6 0 15 0)) plainCheck (fun x => open'.walkHeld x.B.ctx 0) = true ∧
    (let mon : Instr := .monitor (fs 0 6 0 15 0)
     let s (lo hi : Word) : State := baseWith (fun W => { W with v := [(6 * 32, lo), (7 * 32, hi)] })
     let at' (s : State) (x : Slot) : Nat := ((x.ctx s mon plainCheck none).src64 6 0).toNat
     clearB (s 0 0x00100000) mon plainCheck (fun x => decide (2 ^ 52 ≤ at' (s 0 0x00100000) x)) &&
     clearB (s 0x40000000 0) mon plainCheck (fun x => (s 0x40000000 0).access (some 0) x.B.ctx (at' (s 0x40000000 0) x) .read == .fault) &&
     clearB (withLeaf base 0x205) mon plainCheck (fun x =>
       (accessPa ((withLeaf base 0x205).access (some 0) x.B.ctx 0 .read)).isNone) &&
     clearB base mon plainCheck (fun x => base.access (some 0) x.B.ctx 0 .read == .mem 0)) = true := by
  decide +kernel

/-- A deadline that has passed, its threads at one address, and one that has not. -/
theorem witness_timeout :
    let parked (d : Nat) : State := { (baseWith (fun W => { W.modThreads 6 (fun t => { t with status := .parked .waitm }) with
      mon := { W.mon with armed := true, deadline := some d } })) with
      dies := base.dies.map (fun x => { x with clock := 5 }) }
    let m (W : Warp) : Mask := maskOf (fun l => decide ((W.thread l).status = .parked .waitm))
    found (parked 4) (fun B W _ => decide (W.mon.deadline = some 4 ∧ 4 < (parked 4).clockOf W.core ∧ B.halt = none ∧ m W ≠ 0) &&
      !(parked 4).runsOn B W && (List.range 32).all (fun l => !(m W).getLsbD l || (W.thread l).pc == 0x10000)) = true ∧
    found (parked 5) (fun _ W _ => decide (W.mon.deadline = some 5 ∧ ¬5 < (parked 5).clockOf W.core)) = true := by
  decide +kernel

/-- A unit of an LDFRAG's tile that is not the last and one that is; a store to a spill page whose backing page is mapped; two lanes of
an ATOMS. -/
theorem witness_ScratchWords :
    let p (pa : Nat) (d : Bool) : Part := { part1 pa 4 [1, 2, 3, 4] with done := d }
    let frag (d : Bool) := opState base (opOf (.ldfrag 4 true false 0xFF) [p 0 false, p 4 d] [])
    let ready (s : State) (q : Op → Bool) : Bool := ownsB s (fun B W o => partReady s B W o &&
      (s.allocOf B.uid W.idx).any (fun A => !A.isBad 0 4) && q o)
    ready (frag true) (fun o => o.parts[1]?.any (·.done)) = true ∧ ready (frag false) (fun o => o.parts[1]?.any (fun q => !q.done)) = true ∧
    (let s := (opState base (opOf .sts [p 0x10 false] [])).modAlloc 2 (fun A => { A with pages := [⟨0, none, 5⟩] })
     ownsB s (fun B W o => partReady s B W o && (s.allocOf B.uid W.idx).any (fun A =>
       s.allocs.find? (fun a => a.id == A.id) == some A && A.pages.filter (fun g => g.pin.isNone && g.vpn == 0) == [⟨0, none, 5⟩] &&
       (List.range 4).all (fun j => s.access none A.ctx (4096 * 5 + 0x10 + j) .write == .mem (0x5010 + j))))) = true ∧
    (let xs : List (Nat × Nat × Nat × Nat) := [(0, 0x20, 5, 0), (3, 0x20, 7, 1)]
     let s := opState base (opOf (.atoms 0 false (some 4)) [] (xs.map (fun e => ⟨e.2.1, e.2.1, [(e.1, e.2.2.1, e.2.2.2)], false⟩)))
     ownsB s (fun B W o => !o.done && !s.tripped && xs.all (fun e => W.mayPerform o [e.1] e.2.1 4) &&
       (s.allocOf B.uid W.idx).any (fun A => A.bad == [] && A.pages.all (fun g => g.pin.isSome) &&
         s.allocs.find? (fun a => a.id == A.id) == some A))) = true := by
  decide +kernel

/-- `base` with a second warp of its block, in another state. -/
def twoWarps (f g : Warp → Warp) : State :=
  base.modBlock 1 (fun B => { B with warps := (B.warps.map f) ++ (B.warps.map (fun W => { g W with idx := 1 })) })

/-- A phase that is still to be performed; the last arrivals at the block barrier (one warp arrives, one has exited) and at a named
one of two warps. -/
theorem witness_BarrierPhases :
    let arrives (id : Nat) (W : Warp) : Warp := { W.modThreads (BitVec.allOnes 32) (fun t => { t with status := .parked (.bar id) }) with
      brec := [(id, ⟨0, BitVec.allOnes 32, 0, []⟩)] }
    let gone (W : Warp) : Warp := W.modThreads (BitVec.allOnes 32) (fun t => { t with status := .exited })
    let named : State := (twoWarps (arrives 4) (arrives 4)).modBlock 1 (fun B =>
      { B with barriers := setNth B.barriers 4 { Barrier.reset with n := 2 } })
    let full (W : Warp) (id : Nat) : Bool := (W.brecAt id).pend == BitVec.allOnes 32
    found (twoWarps (arrives 0) gone) (fun B _ _ => decide (0 < B.barriers.length) && (nth Barrier.reset B.barriers 0).closing == [] &&
      B.warps.all (fun W => W.ops == [] && (full W 0 || (List.range 32).all (fun l => (W.thread l).status == .exited)))) = true ∧
    found named (fun B _ _ => decide (4 < B.barriers.length) && (nth Barrier.reset B.barriers 4).closing == [] &&
      (nth Barrier.reset B.barriers 4).n == 2 && (nth Barrier.reset B.barriers 4).regs == [] &&
      B.warps.zipIdx.map (fun p => (p.2, full p.1 4, p.1.ops == [])) == [(0, true, true), (1, true, true)]) = true ∧
    (let s : State := (baseWith (fun W => { W with brec := [(4, ⟨1, 0, 6, []⟩)] })).modBlock 1 (fun B => { B with
       barriers := setNth B.barriers 4 { Barrier.reset with q := 7, closing := [⟨6, [0], [], Sig.empty, [3]⟩] } })
     clearB s (.nbarWait (fs 3 0 0 15 1)) plainCheck (fun x => (x.W.brecAt 4).phase == 6 &&
       (nth Barrier.reset x.B.barriers 4).closing.any (fun y => y.q == 6))) = true := by
  decide +kernel

/-- A grid whose blocks have all arrived, with threads parked at GBAR and a captured block; one whose have not. -/
theorem witness_GridPhases :
    let s (arrived : Nat) : State :=
      let b := withLaunch (baseWith (fun W => W.modThreads 6 (fun t => { t with status := .parked .gbar }))) (fun L => { L with counter := some 2 })
      { b with host := { b.host with gbc := [(2, gbcOf 0 3 arrived 1)] } }
    let x (n : Nat) : Nat := (tget 0 (s n).host.gbc 2).toNat
    found (s 1) (fun B W L => (s 1).launch? L.uid == some L && L.counter == some 2 && x 1 / 2 ^ 12 % 2 ^ 12 == x 1 % 2 ^ 12 &&
      B.launch == L.uid && (W.thread 1).status == .parked .gbar) = true ∧
    found (s 0) (fun _ _ L => (s 0).launch? L.uid == some L && L.counter == some 2 && x 0 / 2 ^ 12 % 2 ^ 12 != x 0 % 2 ^ 12) = true := by
  decide +kernel

/-- A BF16 MMA of register fragments; a partial that is a NaN, and one that is a number; MRD to FP32 and to .s32; MWR; elements of MWR that are finite, and an infinity. -/
theorem witness_MatrixFloats :
    let m : MmaOp := ⟨0, true, false, false, 2, 0x00060210, some (List.replicate 16 0x3F80), some (List.replicate 16 0x4000)⟩
    let idle (k : OpKind) : Bool := ownsB (opState base (opOf k [] [])) (fun _ W o => !o.done && W.tileFree o && o.parts == [] && W.badAcc == [])
    idle (.mma m) = true ∧ (shapeM m.shape, shapeN m.shape) = (16, 16) ∧
    (accIsNan (accNan true 5) && !accIsNan 0 && acc56.finite 0) = true ∧
    idle (.mread 2 0 4 true 0xFF) = true ∧ idle (.mread 2 3 4 false 0xFF) = true ∧
    idle (.mwrite 2 (List.replicate 256 ⟨1, 0⟩)) = true ∧
    (let s : State := baseWith (fun W => { W with v := [(8 * 32, 0x3F800000), (9 * 32, 0x7F800000)] })
     clearB s (.mwr (fx 0 8 0 false 0 15)) all32 (fun x => let c := x.ctx s (.mwr (fx 0 8 0 false 0 15)) all32 none
       fp32.finite (c.W.vAt c.fr 8 0).toNat && (c.W.vAt c.fr 9 0).toNat == fp32.infinity false)) = true := by
  refine ⟨?_, ?_, ?_, ?_, ?_, ?_, ?_⟩ <;> decide +kernel

/-- An entry at 0x8000, VALID and SEALED by its flags, of pages at 0x10000 and 0x20000. -/
def entryAt (flags : Nat) (s : State) : State := { s with mem := s.mem.write 0x8000 (leBytes 8 (0x10000000 + flags) ++
  leBytes 8 (0x20000000 + flags) ++ leBytes 16 0) }

def entrySnap (flags : Nat) : Snap := ⟨0x8000, 0x8000, 0x10000000 + flags, 0x20000000 + flags, 0, 0⟩

/-- An ATTN whose words are read, of one row and one page; a mass add; one whose adds are done, its state still to be written. -/
theorem witness_AttentionPages :
    let a : AttnOp := ⟨64, true, true, 1, 31, 0x3F800000, 1024, [some (0, entrySnap 3)], 0, base.mem.past.length, []⟩
    let s := ready (opState base (opOf (.attn a) [⟨0, 0, 0, 0, 4, [1, 2, 3, 4], true⟩] []))
    (ownsB s (fun B _ o => !o.done && !s.tripped && !s.anyHeld B.ctx a.reads && o.parts.all (·.done)) = true ∧
      (∃ K V, s.readPage (some 0) 0 (entrySnap 3) false 64 = .ok K ∧ s.readPage (some 0) 0 (entrySnap 3) true 64 = .ok V)) ∧
    (let r : AtomReq := ⟨0x8010, 0, [(0, 5, 0)], false⟩
     let s := ready (opState base (opOf (.attn { a with stage := 1 }) [] [r]))
     ownsB s (fun B W o => !o.done && !s.vaHeld B.ctx r.va 4 && o.reqs[0]? == some r &&
       s.access (some (coreCluster W.core)) B.ctx r.va .rmw == .mem 0x8010 && !(s.mem.fill 0x8010 4).poisoned 0x8010 4)) = true ∧
    (let s := ready (opState base (opOf (.attn { a with stage := 1, outs := [(1024, [1, 2, 3, 4]), (1028, [5])] }) [] []))
     ownsB s (fun B W o => !o.done && !s.scrHeld B.uid W.idx 1024 5 && o.reqs.all (·.done) && (s.allocOf B.uid W.idx).isSome) &&
       joinPieces [(1024, [1, 2, 3, 4]), (1028, [5])] == [(1024, [1, 2, 3, 4, 5])]) = true := by
  refine ⟨⟨by decide +kernel, ?_⟩, by decide +kernel, by decide +kernel⟩
  have hm : ∀ o, Mapped (ready (opState base o)) 0 := fun o => ⟨base_mapped.top, base_mapped.mid, base_mapped.leaf, base_mapped.cpt,
    base_mapped.key⟩
  exact ⟨_, _, (hm _).readPage base_clean base_tlb _ (by decide), (hm _).readPage base_clean base_tlb _ (by decide)⟩

/-- A PGSEAL that snapshots an entry not VALID, one SEALED and one to seal; one that reads its page; a word of its summary; its
status; its update, where the entry stands and where it does not. -/
theorem witness_SealPhases :
    let p : SealOp := ⟨0x8000, 64, some 3, none, none, none, base.mem.past.length, []⟩
    let s (b : State) (p : SealOp) : State := ready (opState b (opOf (.pgseal p) [] []))
    let owned (b : State) (p : SealOp) (q : Op → Bool) : Bool := ownsB (s b p) (fun B _ o => !o.done && !(s b p).vaHeld B.ctx 0x8000 32 && !(s b p).vaHeld B.ctx 0x10000 4096 && q o)
    let snap (f : Nat) : Bool := (match (s (entryAt f base) p).snapshot (some 0) 0 0x8000 with
      | .ok e => e == entrySnap f
      | .error _ => false) && owned (entryAt f base) p (fun _ => true)
    (snap 0 = true ∧ snap 3 = true ∧ snap 1 = true ∧ (entrySnap 0).valid = false ∧ (entrySnap 3).sealed = true ∧
      (entrySnap 1).valid = true ∧ (entrySnap 1).sealed = false ∧ (entrySnap 1).flagsOk = true ∧ (entrySnap 1).reservedOk = true) ∧
    (owned base { p with snap := some (entrySnap 1) } (fun _ => true) = true ∧
      ∃ bs, (s base { p with snap := some (entrySnap 1) }).engRead (some 0) 0 0x10000 (pageBytes 0 64) = .ok bs) ∧
    (owned base { p with outs := [(0x9000, [1, 2])] } (fun _ => true) &&
      (List.range 2).all (fun j => base.access (some 0) 0 (0x9000 + j) .write == .mem (0x9000 + j))) = true ∧
    owned base { p with status := some 1 } (fun _ => true) = true ∧
    (let q : SealOp := { p with snap := some (entrySnap 1), wrote := some Sig.empty }
     let stands (f : Nat) : Bool := owned (entryAt f base) q (fun _ =>
       (s (entryAt f base) q).access (some 0) 0 0x8000 .rmw == .mem 0x8000 && (s (entryAt f base) q).mem.poison == [] &&
       (s (entryAt f base) q).mem.bad == [])
     stands 1 && stands 3 && (entryAt 1 base).mem.readN 0x8000 8 == 0x10000001 && (entryAt 3 base).mem.readN 0x8000 8 == 0x10000003) =
      true := by
  refine ⟨by decide +kernel, ⟨by decide +kernel, ?_⟩, by decide +kernel, by decide +kernel, by decide +kernel⟩
  have hm : ∀ o, Mapped (ready (opState base o)) 0 := fun o => ⟨base_mapped.top, base_mapped.mid, base_mapped.leaf, base_mapped.cpt,
    base_mapped.key⟩
  exact ⟨_, (hm _).engRead base_clean base_tlb _ (by decide)⟩

/-- `base` with a schedule at 0x9000 of a mode, dispatched on cores 0 and 1, and that much of its table. -/
def scheduled (mode : Nat) (bytes : List Byte) : State :=
  let b := withLaunch (withRecord (withRecord base 1 (BitVec.ofNat 64 (0x0003000000000000 + mode * 2 ^ 58))) 14 0x9000)
    (fun L => { L with rangeCores := [0, 1] })
  ready (opState { b with mem := b.mem.write 0x9000 bytes } (opOf (.draw 4) [] []))

/-- Range mode: a range with tiles, every range empty, a range to take from; tile mode: no table, no list, the end, a tile; no mode. -/
theorem witness_Draws :
    let ranges (a b c d : Nat) : State := scheduled 2 (leBytes 4 a ++ leBytes 4 b ++ leBytes 8 0 ++ leBytes 4 c ++ leBytes 4 d ++ leBytes 8 0)
    let tiles (list count cur : Nat) : State := scheduled 1 (leBytes 8 list ++ leBytes 4 count ++ leBytes 4 cur)
    let drawn (s : State) (mode : Nat) (p : Launch → Bool) : Bool := ownsB s (fun B W o => !o.done && (W.opsBefore 9).isEmpty &&
      s.mem.poison == [] && s.mem.bad == [] && B.sched == 0 &&
      (s.launch? B.launch).any (fun L => L.schedMode == mode && !s.anyHeld L.ctx (s.drawTouches L B.sched) && p L))
    let rangeTable (s : State) (L : Launch) : Bool := L.rangeCores == [0, 1] && L.schedtab == 0x9000 && [0, 1].all (fun v =>
      (List.range 8).all (fun k => s.access none L.ctx (0x9000 + 16 * v + k) .read == .mem (0x9000 + 16 * v + k) &&
        s.access none L.ctx (0x9000 + 16 * v + k) .write == .mem (0x9000 + 16 * v + k)))
    let lohi (s : State) (v : Nat) : Nat × Nat := (s.mem.readN (0x9000 + 16 * v) 4, s.mem.readN (0x9004 + 16 * v) 4)
    (drawn (ranges 3 5 0 0) 2 (rangeTable (ranges 3 5 0 0)) && lohi (ranges 3 5 0 0) 0 == (3, 5)) = true ∧
    (drawn (ranges 5 5 7 8) 2 (rangeTable (ranges 5 5 7 8)) && lohi (ranges 5 5 7 8) 0 == (5, 5) && lohi (ranges 5 5 7 8) 1 == (7, 8)) = true ∧
    ((drawn (ranges 5 5 0 9) 2 (rangeTable (ranges 5 5 0 9)) && lohi (ranges 5 5 0 9) 1 == (0, 9)) = true ∧
      (ranges 5 5 0 9).Stays 0 0x9000 0x9000 8 .write 0x9010 8) ∧
    (let s : State := withRecord (tiles 0xA000 2 1) 14 0x40000000
     drawn s 1 (fun L => L.schedtab == 0x40000000 && s.access none L.ctx 0x40000000 .read == .fault &&
       !s.vaPoisoned none L.ctx 0x40000008 8)) = true ∧
    (let entry (s : State) (L : Launch) : Bool := L.schedtab == 0x9000 && (List.range 16).all (fun k =>
       s.access none L.ctx (0x9000 + k) .read == .mem (0x9000 + k) && s.access none L.ctx (0x9000 + k) .write == .mem (0x9000 + k)) &&
       !s.vaPoisoned none L.ctx 0x9000 16
     drawn (tiles 0x40000000 2 1) 1 (fun L => entry (tiles 0x40000000 2 1) L && (tiles 0x40000000 2 1).access none L.ctx 0x40000004 .read == .fault) &&
     drawn (tiles 0xA000 2 2) 1 (entry (tiles 0xA000 2 2)) &&
     drawn (tiles 0xA000 2 1) 1 (fun L => entry (tiles 0xA000 2 1) L && (List.range 4).all (fun k =>
       (tiles 0xA000 2 1).access none L.ctx (0xA004 + k) .read == .mem (0xA004 + k)) && !(tiles 0xA000 2 1).vaPoisoned none L.ctx 0xA004 4)) =
      true ∧
    drawn (scheduled 0 []) 0 (fun _ => true) = true := by
  refine ⟨by decide +kernel, by decide +kernel, ⟨by decide +kernel, ?_⟩, by decide +kernel, by decide +kernel, by decide +kernel⟩
  exact (mapped_of (by decide +kernel)).stays (by decide) _ (by decide)

/-- A PSEL at the head of cluster 0's queue: an entry it cannot read, one ill-formed, one not VALID and the last; a page to bound; the
end. -/
theorem witness_PselPhases :
    let p (table : Nat) : List Nat := [table, 0, 256, 0, 2, 512, 1024, 2]
    let y (table stage next : Nat) (snaps : List (Nat × Snap)) : SelOp := ⟨0, some 20, some 21, p table, stage, next, snaps, [],
      some (base.mem.past.length, 0), none⟩
    let head (b : State) (y : SelOp) : State := { (ready (opState b (opOf (.select y) [] []))) with selq := [(0, [9])] }
    let ok (s : State) (q : Block → Bool) : Bool := s.selQueue 0 == [9] && !s.tripped && ownsB s (fun B W o =>
      q B && !o.done && (match o.kind with
        | .select y => !s.selHeld B W y && y.ended.isNone
        | _ => false) && ({ W with ops := W.opsBefore 9 } : Warp).scratchSettled &&
      (s.allocOf B.uid W.idx).any (fun A => !A.isBad 256 128 && A.past.length == 0 && A.pages.all (fun g => g.pin.isSome) &&
        s.allocs.find? (fun a => a.id == A.id) == some A))
    let snaps (s : State) (va : Nat) (q : Except EngErr Snap → Bool) : Bool := q (s.snapshot (some 0) 0 va)
    (let s := head base (y 0x40000000 0 0 [])
     ok s (fun _ => true) && snaps s 0x40000000 (fun r => match r with
       | .error e => e == (1, 0x40000000)
       | .ok _ => false)) = true ∧
    (let s := head ({ base with mem := base.mem.write 0x8000 (leBytes 8 0x10000003 ++ leBytes 8 0x20000001 ++ leBytes 16 0) }) (y 0x8000 0 0 [])
     ok s (fun _ => true) && snaps s 0x8000 (fun r => match r with
       | .error _ => false
       | .ok e => e.valid && !e.flagsOk)) = true ∧
    (let s := head (entryAt 3 base) (y 0x7FE0 0 1 [])
     ok s (fun _ => true) && snaps s 0x8000 (fun r => match r with
       | .error _ => false
       | .ok e => e.valid && e.flagsOk && e.reservedOk) && snaps s 0x7FE0 (fun r => match r with
       | .error _ => false
       | .ok e => !e.valid)) = true ∧
    (ok (head base (y 0x8000 1 0 [(0, entrySnap 3)])) (fun _ => true) = true ∧ (entrySnap 3).sealed = true ∧
      ∃ bs, (head base (y 0x8000 1 0 [(0, entrySnap 3)])).engRead (some 0) 0 (entrySnap 3).summary 256 = .ok bs) ∧
    ok (head base (y 0x8000 1 1 [(0, entrySnap 3)])) (fun _ => true) = true := by
  refine ⟨by decide +kernel, by decide +kernel, by decide +kernel, ⟨by decide +kernel, by decide, ?_⟩, by decide +kernel⟩
  have hm : ∀ o, Mapped ({ (ready (opState base o)) with selq := [(0, [9])] } : State) 0 := fun o => ⟨base_mapped.top, base_mapped.mid,
    base_mapped.leaf, base_mapped.cpt, base_mapped.key⟩
  exact ⟨_, (hm _).engRead base_clean base_tlb _ (by decide)⟩

/-- A request record: a tile of 2 by 1 elements of BF16 at scratch 0x100, DIR `dir`, its descriptor at 0x8000, its object at 0x200. -/
def copyRecord (dir bar : Nat) : List Byte := leBytes 8 (0x1000100000 + dir * 2 ^ 8) ++ leBytes 8 0x8000 ++ leBytes 24 0 ++
  leBytes 8 0x0001000100010002 ++ leBytes 8 (1 + bar * 2 ^ 16) ++ leBytes 8 0

/-- No element of the record's tile lies beyond the allocation. -/
theorem recGood {bs : List Byte} {size : Nat}
    (h : let g := recField bs
      ¬(g 0 48 1 ≠ 0 ∨ g 0 0 8 ≠ 0 ∨ g 1 52 12 ≠ 0 ∨ g 4 32 32 ≠ 0 ∨ g 6 36 28 ≠ 0 ∨ g 7 20 44 ≠ 0 ∨ 2 ≤ g 0 8 2 ∨
        (g 0 50 2 ≠ 0 ∧ g 0 8 2 = 1) ∨ (g 0 56 8 = 255 ∧ g 0 50 2 = 1) ∨ 8 ≤ g 0 52 4 ∨ g 1 0 52 % 64 ≠ 0 ∨
        g 0 32 12 % 16 ≠ 0 ∨ g 0 32 12 = 0 ∨ g 0 12 20 % 16 ≠ 0 ∨ g 0 32 12 < recRowBytes bs) ∧
      (∀ k, k < 5 → recBox bs k ≠ 0) ∧ ∀ row, row < recRows bs → ∀ x, x < recRowBytes bs → recAt bs row x < size) : ¬recBad bs size := by
  obtain ⟨h1, h2, h3⟩ := h
  rintro (h | h | h | h | h | h | h | h | h | h | h | h | h | h | ⟨k, hk, h0⟩ | h | ⟨row, x, hr, hx, h0⟩)
  all_goals first
    | exact h2 k hk h0
    | exact absurd (h3 row hr x hx) (by omega)
    | exact h1 (by simp [h])

/-- CKICK of a record that is refused, of one whose object is misplaced, of one that is accepted, and with its queue full; CQFENCE with
room, without, entered, and over. -/
theorem witness_CopyKicks :
    let s (bs : List Byte) (q : List CopyEntry) : State :=
      ((ready (opState base (opOf (.ckick (some 4) 64 false) [] []))).modAlloc 2 (fun A => A.write 64 bs)).modCore 0
        (fun c => { c with copyQ := [q, [], [], []] })
    let ok (bs : List Byte) (q : List CopyEntry) : Bool := ownsB (s bs q) (fun B W o => !o.done && W.mayPerform o [0] 64 64 &&
      (W.opsBefore 9).isEmpty && ((s bs q).allocOf B.uid W.idx).any (fun A => !A.isBad 64 64 && A.size == 4096 && A.read 64 64 == bs) &&
      nth [] ((s bs q).core W.core).copyQ 0 == q && recField bs 0 10 2 == 0)
    (ok (leBytes 64 0) [] = true ∧ recBad (leBytes 64 0) 4096) ∧
    (ok (copyRecord 0 0x204) [] = true ∧ ¬recBad (copyRecord 0 0x204) 4096 ∧ recBadBar (copyRecord 0 0x204) 4096) ∧
    (ok (copyRecord 0 0x200) [] = true ∧ ¬recBad (copyRecord 0 0x200) 4096 ∧ ¬recBadBar (copyRecord 0 0x200) 4096) ∧
    ok (copyRecord 0 0x200) (List.replicate 16 (.fence 3 1)) = true ∧
    (let f (e : Bool) (q : List CopyEntry) : State := (opState base (opOf (.cqfence 1 e) [] [])).modCore 0 (fun c => { c with copyQ := [q, [], [], []] })
     let own (e : Bool) (q : List CopyEntry) : Bool := ownsB (f e q) (fun _ W o => o.id == 9 && ((f e q).core W.core).copyQ == [q, [], [], []])
     own false [] && own false (List.replicate 16 (.fence 3 1)) && own true [.fence 9 1] && own true []) = true := by
  refine ⟨⟨by decide +kernel, ?_⟩, ⟨by decide +kernel, recGood (by decide +kernel), Or.inl (by decide +kernel)⟩, ⟨by decide +kernel,
    recGood (by decide +kernel), ?_⟩, by decide +kernel, by decide +kernel⟩
  · unfold recBad
    exact Or.inr (Or.inr (Or.inr (Or.inr (Or.inr (Or.inr (Or.inr (Or.inr (Or.inr (Or.inr (Or.inr (Or.inr (Or.inl (by decide +kernel)))))))))))))
  · unfold recBadBar; decide +kernel

/-- The tensor descriptor of those records: BF16 elements, rank 1, two of them, at 0xA000. -/
def copyDesc : List Byte := leBytes 8 0x010000000000A000 ++ leBytes 8 2 ++ leBytes 48 0

/-- A request of either direction at the head of queue 0, its descriptor and its elements translated. -/
theorem witness_CopyMoves (dir : Nat) (hd : dir < 2) :
    let r : CopyReq := ⟨0, 0, 2, (1, 0), copyRecord dir 0x200, 64, Sig.empty, true, ((base.mem.write 0x8000 copyDesc).past.length, 0), none⟩
    let b := ready base
    let s : State := { b with
      mem := base.mem.write 0x8000 copyDesc
      cores := [(0, { CoreSt.reset with copyQ := [[.request r], [], [], []] })] }
    let bs := r.record
    let at' (i : Nat → Nat) (k : Nat) : Int := (BitVec.ofNat 32 (recField bs (2 + k / 2) (32 * (k % 2)) 32)).toInt + (i k : Int)
    let inBox (i : Nat → Nat) : Prop := ∀ k, k < 5 → i k < recBox bs k
    let tile (row x : Nat) : Prop := row < recRows bs ∧ x < recRowBytes bs
    ∃ (A : Alloc) (td : List Byte) (loc : (Nat → Nat) → Nat),
      (nth [] (s.core 0).copyQ 0 = [.request r] ∧ s.hbmReady = true ∧ s.tripped = false ∧ r.run = none ∧ r.since = (s.mem.past.length, A.past.length) ∧
        s.allocs.find? (fun a => a.id == r.alloc) = some A ∧ A.bad = [] ∧ (∀ p ∈ A.pages, p.pin.isSome = true) ∧
        s.mem.poison = [] ∧ s.mem.bad = [] ∧ recField bs 0 8 2 = dir ∧ recField bs 0 50 2 = 0) ∧
      s.readVa (some (coreCluster 0)) r.ctx (recField bs 1 0 52) 64 = .ok td ∧ descOk bs td ∧
      0 < recRowBytes bs * recRows bs ∧
      (∀ row x row' x', tile row x → tile row' x' → recAt bs row x = recAt bs row' x' → row = row' ∧ x = x') ∧
      (∀ row x, tile row x → ¬(recField bs 6 16 20 ≤ recAt bs row x ∧ recAt bs row x < recField bs 6 16 20 + 8)) ∧
      A.readN (recField bs 6 16 20) 8 / 2 ^ 55 % 2 = 0 ∧
      (∀ i, inBox i → elemIn td (at' i)) ∧
      (∀ i, inBox i → ∀ k, k < elemSize td → ∀ need, s.access (some (coreCluster 0)) r.ctx (elemVa td (at' i) + k) need = .mem (loc i + k)) ∧
      ∀ i j, inBox i → inBox j → (∃ k, k < 5 ∧ i k ≠ j k) → loc i + elemSize td ≤ loc j ∨ loc j + elemSize td ≤ loc i := by
  intro r b s bs at' inBox tile
  have hrec : ∀ d, d < 2 → recField (copyRecord d 0x200) 1 0 52 = 0x8000 ∧ recField (copyRecord d 0x200) 0 8 2 = d ∧
      recField (copyRecord d 0x200) 0 50 2 = 0 ∧ recField (copyRecord d 0x200) 0 52 4 = 0 ∧ recRowBytes (copyRecord d 0x200) = 4 ∧
      recRows (copyRecord d 0x200) = 1 ∧ recField (copyRecord d 0x200) 6 16 20 = 0x200 ∧
      (∀ k, k < 5 → recBox (copyRecord d 0x200) k = if k = 0 then 2 else 1) ∧
      (∀ x, x < 4 → recAt (copyRecord d 0x200) 0 x = 0x100 + x) ∧
      (∀ k, k < 5 → recField (copyRecord d 0x200) (2 + k / 2) (32 * (k % 2)) 32 = 0) := by decide +kernel
  obtain ⟨h1, h2, h3, h4, h5, h6, h7, h8, h9, h10⟩ := hrec dir hd
  have hm : Mapped s 0 := by
    have : mappedB ({ ready base with mem := (ready base).mem.write 0x8000 copyDesc }) 0 = true := by decide +kernel
    have m := mapped_of this
    exact ⟨m.top, m.mid, m.leaf, m.cpt, m.key⟩
  have ht : s.mem.tlb = [] := show (base.mem.write 0x8000 copyDesc).tlb = [] by decide +kernel
  have hr : s.mem.read 0x8000 64 = copyDesc := show (base.mem.write 0x8000 copyDesc).read 0x8000 64 = copyDesc by decide +kernel
  have hdesc : elemSize copyDesc = 2 ∧ recField copyDesc 0 56 3 = 1 ∧ recField copyDesc 0 52 4 = 0 ∧ recField copyDesc 0 0 52 = 0xA000 ∧
      recField copyDesc 1 0 32 = 2 := by decide +kernel
  obtain ⟨e1, e2, e3, e4, e5⟩ := hdesc
  have hA : ∃ A, base.allocs.find? (fun a => a.id == 2) = some A ∧ A.past = [] ∧ A.bad = [] ∧ (∀ p ∈ A.pages, p.pin.isSome = true) ∧
      A.readN 0x200 8 / 2 ^ 55 % 2 = 0 := by
    refine ⟨(base.allocs.find? (fun a => a.id == 2)).get (by decide +kernel), ?_⟩
    decide +kernel
  obtain ⟨A, a1, a0, a2, a3, a4⟩ := hA
  have hz : ∀ k, k < 5 → (BitVec.ofNat 32 (recField bs (2 + k / 2) (32 * (k % 2)) 32)).toInt = 0 := fun k hk => by
    rw [h10 k hk]; decide
  have hi : ∀ i, inBox i → i 0 < 2 ∧ i 1 = 0 ∧ i 2 = 0 ∧ i 3 = 0 ∧ i 4 = 0 := fun i h => by
    have g := fun k (hk : k < 5) => h8 k hk ▸ h k hk
    have g0 := g 0 (by omega); have g1 := g 1 (by omega); have g2 := g 2 (by omega); have g3 := g 3 (by omega); have g4 := g 4 (by omega)
    simp only [if_pos, if_neg (show ¬1 = 0 by omega), if_neg (show ¬2 = 0 by omega), if_neg (show ¬3 = 0 by omega),
      if_neg (show ¬4 = 0 by omega)] at g0 g1 g2 g3 g4
    omega
  have hva : ∀ i, inBox i → elemVa copyDesc (at' i) = 0xA000 + 2 * i 0 := fun i h => by
    have h0 : at' i 0 = (i 0 : Int) := by simp only [at', hz 0 (by omega), Int.zero_add]
    unfold elemVa
    simp only [e1, e2, e4, h0, Int.toNat_natCast, if_neg (show ¬1 < 1 by omega), if_neg (show ¬2 < 1 by omega),
      if_neg (show ¬3 < 1 by omega), if_neg (show ¬4 < 1 by omega)]
    omega
  refine ⟨A, copyDesc, fun i => 0xA000 + 2 * i 0, ⟨rfl, by unfold State.hbmReady; exact show List.all (ready base).dies (fun d => d.lock) = true by decide +kernel, show base.tripped = false by decide +kernel, rfl, ?_, a1, a2, a3, ?_, ?_, h2, h3⟩, ?_, ?_, ?_, ?_, ?_, ?_, ?_, ?_, ?_⟩
  · show ((base.mem.write 0x8000 copyDesc).past.length, 0) = ((base.mem.write 0x8000 copyDesc).past.length, A.past.length)
    rw [a0, List.length_nil]
  · exact show (base.mem.write 0x8000 copyDesc).poison = [] by decide +kernel
  · exact show (base.mem.write 0x8000 copyDesc).bad = [] by decide +kernel
  · rw [readVa_tlb ht, h1, hm.readVa (by omega), hr]
  · refine ⟨by omega, by omega, Or.inl (by omega), by omega, fun k _ _ => by omega, ?_⟩
    rw [if_pos h3, h4, e3]
  · rw [h5, h6]; omega
  · intro row x row' x' ⟨p1, p2⟩ ⟨q1, q2⟩ h
    rw [h6] at p1 q1
    rw [h5] at p2 q2
    obtain rfl : row = 0 := by omega
    obtain rfl : row' = 0 := by omega
    rw [h9 x p2, h9 x' q2] at h
    omega
  · intro row x ⟨p1, p2⟩
    rw [h6] at p1
    rw [h5] at p2
    obtain rfl : row = 0 := by omega
    rw [h9 x p2, h7]
    omega
  · rw [h7]; exact a4
  · intro i h k hk
    have g := hi i h
    have hat : at' i k = (i k : Int) := by simp only [at', hz k hk, Int.zero_add]
    rw [hat, e2]
    rcases (by omega : k = 0 ∨ k = 1 ∨ k = 2 ∨ k = 3 ∨ k = 4) with rfl | rfl | rfl | rfl | rfl
    · simp only [if_pos (show 0 < 1 by omega), Nat.zero_div, Nat.zero_mod, Nat.mul_zero, Nat.add_zero, e5]
      omega
    all_goals simp only [if_neg (show ¬1 < 1 by omega), if_neg (show ¬2 < 1 by omega), if_neg (show ¬3 < 1 by omega),
      if_neg (show ¬4 < 1 by omega), g]; omega
  · intro i h k hk need
    have g := hi i h
    rw [e1] at hk
    rw [access_tlb ht, hva i h, hm.access (by omega)]
  · intro i j h h' ⟨k, hk, hne⟩
    have g := hi i h
    have g' := hi j h'
    rw [e1]
    dsimp only
    rcases (by omega : k = 0 ∨ k = 1 ∨ k = 2 ∨ k = 3 ∨ k = 4) with rfl | rfl | rfl | rfl | rfl <;> omega

/-- Requests at their slice, ready and in their port's turn: of an entry that cannot be read, of a handle that is not live, a deposit
that finds its region full, is stored, meets a copy, meets a take; a copy without a match, parked, with the table full; a copy and a
take with one. -/
theorem witness_TupleServes :
    let handle := 2 ^ 12
    let req (kind : Nat) (blocking : Bool) (h : Nat) : TupReq :=
      ⟨9, some (1, 0), 0, h, [7, 0, 0, 0, 0, 0, 0, 0], kind, 0, blocking, 0, Sig.empty, none⟩
    let s (count : Nat) (r : TupReq) (stored : List Stored) (parked : List Parked) : State := { ready base with
      mem := ((base.mem.write 0x3008 (leBytes 8 0x40000A0F)).write 0x8000 (leBytes 8 0x40000001 ++ leBytes 8 0x4000001 ++
        leBytes 8 count ++ leBytes 8 0))
      host := { base.host with creg := [(0, 0x8000)] }
      tup := { base.tup with sent := [r], stored := stored, parked := parked } }
    let u : Stored := ⟨handle, [7, 0, 0, 0, 0, 0, 0, 0], 0, Sig.empty⟩
    let parks (kind n : Nat) : Parked := ⟨{ req kind true handle with id := 100 + n }, (req kind true handle).slice, n, some 9⟩
    let turn (s : State) (r : TupReq) : Bool := s.tup.sent == [r] && r.port.isNone && s.releaseDone r && s.hbmReady && !s.tripped &&
      tget none s.tup.served r.slice == none && s.tup.parked.all (fun p => decide (s.sliceClock p.slice ≤ 9))
    let live (s : State) (r : TupReq) (n : Nat) : Bool := turn s r && (match s.regionOf 0 handle with
      | .ok g => g.valid && g.gen == 1 && g.live 0 handle && g.count == n && g.cap == 1 && (s.storeFaults 0 g).isEmpty &&
          (List.range 4).all (fun k => s.access none 0 (s.regionVa 0 handle + 16 + k) .write == .mem (0x8010 + k))
      | .error _ => false)
    let meets (r : TupReq) (p : Parked) : Bool := p.req.handle == r.handle && tupleMatches r.fields p.req.fields p.req.mask
    let dep := req 0 false handle
    (let r := { dep with ctx := 5 }
     turn (s 0 r [] []) r && (match (s 0 r [] []).regionOf 5 handle with
       | .error e => e.1 == 1
       | .ok _ => false)) = true ∧
    (let r := req 0 false 0
     turn (s 0 r [] []) r && (match (s 0 r [] []).regionOf 0 0 with
       | .ok g => !g.live 0 0 && g.valid
       | .error _ => false)) = true ∧
    (live (s 1 dep [u] []) dep 1 && live (s 0 dep [] []) dep 0) = true ∧
    (live (s 0 dep [] [parks 1 0]) dep 0 && meets dep (parks 1 0) && live (s 1 dep [u] [parks 2 0]) dep 1 && meets dep (parks 2 0)) = true ∧
    (live (s 0 (req 1 false handle) [] []) (req 1 false handle) 0 && live (s 0 (req 2 true handle) [] []) (req 2 true handle) 0) = true ∧
    (let s' := s 0 (req 2 true handle) [] ((List.range 64).map (fun n => { parks 1 n with req := { (parks 1 n).req with handle := 0 } }))
     live s' (req 2 true handle) 0 && decide (64 ≤ (s'.tup.parked.filter (fun p => p.slice == (req 2 true handle).slice)).length)) = true ∧
    (live (s 1 (req 1 false handle) [u] []) (req 1 false handle) 1 && live (s 1 (req 2 false handle) [u] []) (req 2 false handle) 1 &&
      tupleMatches u.fields (req 2 false handle).fields 0) = true ∧
    -- not ready; a port before one that has been served in this cycle
    (base.hbmReady = false ∧ (let s' := s 0 dep [] []
      let t : State := { s' with tup := { s'.tup with served := [(dep.slice, some (s'.sliceClock dep.slice, 12))] } }
      decide (t.tuplePort dep < 13) && tget none t.tup.served dep.slice == some (t.sliceClock dep.slice, 12) &&
        decide (t.tuplePort dep ≤ 12)) = true) ∧
    -- a timeout not yet at its end and one at it; a region with VALID = 0 and COUNT 1; a reply with a fault
    ((s 0 dep [] [parks 2 0]).tup.parked.find? (fun q => q.req.id == 100) = some (parks 2 0) ∧ (s 0 dep [] []).sliceClock (parks 2 0).slice < 9 ∧
      ¬(s 0 dep [] []).sliceClock (parks 2 0).slice < 0) ∧
    (match (s 0 dep [] []).regionOf 0 1 with
      | .ok g => !g.valid && (List.range 4).all (fun k => (s 0 dep [] []).access none 0 ((s 0 dep [] []).regionVa 0 1 + 16 + k) .write ==
          .mem (0x8030 + k) && (s 0 dep [] []).access none 0 ((s 0 dep [] []).regionVa 0 1 + 16 + k) .read == .mem (0x8030 + k))
      | .error _ => false) = true ∧
    (let r := { opState base (opOf (.tuple 2 0) [] []) with tup := { base.tup with replies := [⟨9, 0, none, Sig.empty, some (0x10, 0x5000)⟩] } }
     ownsB r (fun B _ _ => !B.aborted && (r.tup.replies.find? (fun q => q.id == 9)).any (fun q => q.fault.isSome))) = true := by
  decide +kernel

/-- `base` with handle 0x10000 of unit 0 live, its index of three tokens, and a SX word at work. -/
def suffixed (k arg : Nat) (image : List Byte) : State := { ready (opState base (opOf (.sx ⟨k, some 6, 0x10000, arg, [5], 25, 3, none⟩) [] [])) with
  mem := base.mem.write 0x8000 image
  sx := ⟨[(0, ⟨0x100001, 0x100000040, 0, 0⟩)], [(0, ⟨3, 0, 64, [5, 6, 5], 0⟩)]⟩ }

/-- SXSAVE to a mapped image; SXLOAD of a legal image, of one that is not and of one that cannot be read; arguments out of range; a
write of the entries in RECOVERY and out of it. -/
theorem witness_SuffixImages :
    let image : List Byte := leBytes 8 (0x58534958 + 2 ^ 32) ++ leBytes 8 2 ++ leBytes 8 0 ++ leBytes 8 64 ++ leBytes 32 0 ++ leBytes 8 7
    let works (s : State) : Bool := s.hbmReady && !s.tripped && ownsB s (fun B W o => !o.done && (W.opsBefore 9).isEmpty && B.ctx == 0 &&
      !B.aborted && (s.sxEntry 0).live 0 0x10000 && (s.areaFaults (s.sxEntry 0)).isEmpty && (s.sxEntry 0).wmax == 64 &&
      s.areaWrites (s.sxEntry 0) == (s.sxIndex 0).seen)
    (works (suffixed 4 0x8000 []) && (List.range 76).all (fun k => (suffixed 4 0x8000 []).access none 0 (0x8000 + k) .write ==
      .mem (0x8000 + k))) = true ∧
    (works (suffixed 5 0x8000 image) && (match (suffixed 5 0x8000 image).engRead none 0 0x8000 64 with
      | .ok bs => bs == image.take 64
      | .error _ => false) && (match (suffixed 5 0x8000 image).engRead none 0 0x8040 8 with
      | .ok bs => bs == image.drop 64
      | .error _ => false)) = true ∧
    (works (suffixed 5 0x8000 []) && (match (suffixed 5 0x8000 []).engRead none 0 0x8000 64 with
      | .ok bs => bs == leBytes 64 0
      | .error _ => false)) = true ∧
    (works (suffixed 5 0x40000000 []) && (match (suffixed 5 0x40000000 []).engRead none 0 0x40000000 64 with
      | .error e => e.1 == 1
      | .ok _ => false)) = true ∧
    (works (suffixed 0 65 []) && works (suffixed 1 33 []) && works (suffixed 3 4 []) && works (suffixed 2 17 []) && works (suffixed 2 16 [])) = true ∧
    (base.trust.bootstat ≠ 2 ∧ ({ base with trust := { base.trust with bootstat := 2 } } : State).trust.bootstat = 2) := by
  decide +kernel

/-- `base` with an entry of those flags and engine 0 of die 0 at work on an operation of those kind, phase and page. -/
def aging (flags op page : Nat) (ph : KvPhase) : State :=
  let b := ready (opState (entryAt flags base) (opOf (.kv op (some 3) 0x8000 0xB000 none) [] []))
  { b with kv := { b.kv with engines := b.kv.engines.modify 0 (fun g => { g with
      queue := [⟨9, op, 0, 0x8000, 0xB000, Sig.empty⟩], phase := ph, record := [0x8000, 0xB000, 0x100000000, 0], page := page, d := 64
      since := b.mem.past.length }) } }

def agingB (s : State) (p : KvEngine → Bool) : Bool := s.hbmReady && !s.tripped && (s.engine 0).queue.length == 1 && p (s.engine 0)

theorem aging_mapped (flags op page : Nat) (ph : KvPhase) (hf : flags < 64) : Mapped (aging flags op page ph) 0 := by
  have h : ∀ f, f < 64 → mappedB (entryAt f base) 0 = true := by decide +kernel
  have m := mapped_of (h flags hf)
  exact ⟨m.top, m.mid, m.leaf, m.cpt, m.key⟩

/-- PGPIN of an entry that cannot be read and of one that is not well formed; a KV word whose engine has not ended it and one whose has. -/
theorem witness_KvWords :
    let pin (va : Nat) (b : State) : State := ready (opState b (opOf (.kv 2 (some 3) va 0 none) [] []))
    let two : State := { base with mem := base.mem.write 0x8000 (leBytes 8 0x10000003 ++ leBytes 8 0x20000001 ++ leBytes 16 0) }
    let err (s : State) (va : Nat) : Bool := ownsB s (fun _ _ o => !o.done && s.hbmReady) && (match s.snapshot none 0 va with
      | .error e => e == (1, va)
      | .ok _ => false)
    let ill (s : State) : Bool := ownsB s (fun _ _ o => !o.done && s.hbmReady && s.access none 0 0x8000 .rmw == .mem 0x8000) &&
      (match s.snapshot none 0 0x8000 with
      | .error _ => false
      | .ok e => e == s.mem.snapAt 0x8000 0x8000 && e.valid && !e.flagsOk)
    err (pin 0x40000000 base) 0x40000000 = true ∧ ill (pin 0x8000 two) = true ∧
    (let s (st : Option Nat) : State := ready (opState base (opOf (.kv 4 (some 3) 0x8000 0xB000 st) [] []))
     ownsB (s none) (fun _ _ o => !o.done) && ownsB (s (some 11)) (fun _ _ o => !o.done)) = true ∧
    (let s : State := ready (opState (entryAt 1 base) (opOf (.pgseal ⟨0x8000, 64, some 3, some (entrySnap 1), none, some Sig.empty, 0, []⟩) [] []))
     ownsB s (fun _ _ o => !o.done && s.mem.poison == [] && s.access (some 0) 0 0x8000 .rmw == .mem 0x8000 &&
       (s.mem.snapAt 0x8000 0x8000) == entrySnap 1)) = true := by
  decide +kernel

/-- The entry phase: the end of a sweep, an entry that cannot be read, not VALID, ill-formed, pinned, not SEALED, old, one to decay and
one whose step begins. -/
theorem witness_KvEntries :
    let at' (flags op : Nat) (p : Snap → Bool) : Bool := agingB (aging flags op 0 .entry) (fun g => g.phase == .entry) &&
      (match (aging flags op 0 .entry).snapshot none 0 0x8000 with
        | .ok e => e == entrySnap flags && p e
        | .error _ => false)
    agingB (aging 3 0 1 .entry) (fun g => g.phase == .entry && decide (nth 0 g.record 2 / 2 ^ 32 % 2 ^ 32 ≤ g.page)) = true ∧
    (at' 0 4 (fun e => !e.valid) && at' 0 0 (fun e => !e.valid)) = true ∧
    (at' 7 4 (fun e => e.valid && e.flagsOk && e.reservedOk && e.pin) && at' 1 4 (fun e => e.valid && !e.pin && !e.sealed) &&
      at' 11 4 (fun e => !e.pin && e.sealed && e.tier == 1) && at' 3 1 (fun e => e.tier == 0) && at' 3 0 (fun e => e.valid) &&
      at' 11 1 (fun e => e.tier == 1) && at' 3 4 (fun e => !e.pin && e.sealed && e.tier == 0)) = true ∧
    (let s := { aging 3 4 0 .entry with mem := base.mem.write 0x8000 (leBytes 8 0x10000003 ++ leBytes 8 0x20000001 ++ leBytes 16 0) }
     agingB s (fun g => g.phase == .entry) && (match s.snapshot none 0 0x8000 with
       | .ok e => e.valid && !e.flagsOk
       | .error _ => false)) = true ∧
    (let s : State := { aging 3 4 0 .entry with host := { base.host with cpt := [] } }
     agingB s (fun g => g.phase == .entry) && (match s.snapshot none 0 0x8000 with
       | .error e => e.1 == 1
       | .ok _ => false)) = true := by
  decide +kernel

/-- The write phase of a move and of a demotion to E4M3, their pages mapped; the decay, the swap where the entry stands and where it
does not, the end. -/
theorem witness_KvSteps :
    (agingB (aging 0x33 4 0 (.write (entrySnap 0x33) 0x30000 0x40000 none)) (fun g => g.d == 64 &&
        g.since == (aging 0x33 4 0 .start).mem.past.length) = true ∧
      (∃ kb vb, (aging 0x33 4 0 (.write (entrySnap 0x33) 0x30000 0x40000 none)).engRead none 0 0x10000 (pageSize 3 64) = .ok kb ∧
        (aging 0x33 4 0 (.write (entrySnap 0x33) 0x30000 0x40000 none)).engRead none 0 0x20000 (pageSize 3 64) = .ok vb)) ∧
    (let s := aging 3 4 0 (.write (entrySnap 3) 0x30000 0x40000 (some 0x50000))
     agingB s (fun g => g.d == 64 && g.since == s.mem.past.length && s.mem.poison == [] && s.mem.bad == []) = true ∧
     (∃ K V, s.readPage none 0 (entrySnap 3) false 64 = .ok K ∧ s.readPage none 0 (entrySnap 3) true 64 = .ok V) ∧
     (∀ j, j < pageSize 1 64 → s.access none 0 (0x30000 + j) .write = .mem (0x30000 + j)) ∧
     s.StaysOff 0 0x40000 0x40000 (pageSize 1 64) .write (fun a => 0x30000 ≤ a ∧ a < 0x30000 + pageSize 1 64) ∧
     s.StaysOff 0 0x50000 0x50000 256 .write (fun a => (0x30000 ≤ a ∧ a < 0x30000 + pageSize 1 64) ∨
       (0x40000 ≤ a ∧ a < 0x40000 + pageSize 1 64))) ∧
    (let s := aging 3 0 0 (.decay (entrySnap 3))
     agingB s (fun g => g.phase == .decay (entrySnap 3) && s.access none 0 0x8010 .rmw == .mem 0x8010 && !(s.mem.fill 0x8010 4).poisoned 0x8010 4)) =
      true ∧
    (let s (f : Nat) := aging f 4 0 (.swap (entrySnap 3) 0x30000 0x40000 none 0 Sig.empty)
     agingB (s 3) (fun _ => (s 3).access none 0 0x8000 .rmw == .mem 0x8000 && !(s 3).mem.poisoned 0x8000 32 &&
       (s 3).mem.snapAt 0x8000 0x8000 == entrySnap 3) &&
     agingB (s 7) (fun _ => (s 7).mem.snapAt 0x8000 0x8000 != entrySnap 3 && decide (((s 7).mem.snapAt 0x8000 0x8000).d0 ≠ (entrySnap 3).d0) &&
       !(s 7).mem.poisoned 0x8000 32 && (s 7).mem.bad == [] && (s 7).access none 0 0x8000 .rmw == .mem 0x8000)) = true ∧
    (agingB (aging 3 0 0 (.finish 0 0)) (fun g => g.phase == .finish 0 0) && ownsB (aging 3 0 0 (.finish 0 0)) (fun _ _ o => !o.done)) = true := by
  refine ⟨⟨by decide +kernel, ?_⟩, ⟨by decide +kernel, ?_, ?_, ?_, ?_⟩, by decide +kernel, by decide +kernel, by decide +kernel⟩
  all_goals have hc : ∀ f p, clean (aging f 4 0 p) := fun _ _ => ⟨rfl, rfl⟩
  · have m := fun p => aging_mapped 0x33 4 0 p (by decide)
    exact ⟨_, _, (m _).engRead (hc _ _) rfl _ (by decide), (m _).engRead (hc _ _) rfl _ (by decide)⟩
  all_goals have m := fun p => aging_mapped 3 4 0 p (by decide)
  · exact ⟨_, _, (m _).readPage (hc _ _) rfl _ (by decide), (m _).readPage (hc _ _) rfl _ (by decide)⟩
  · exact (m _).mapsTo (by decide) _
  · exact (m _).staysOff (by decide) _ fun _ h => by omega
  · exact (m _).staysOff (by decide) _ fun _ h => by omega

/-- What a push in mapped pages touches. -/
theorem Mapped.pushPlace {s : State} {ctx pool ring p x : Nat} (m : Mapped s ctx) (hp : pool + 76 + 16 * ring + 4 ≤ 2 ^ 30)
    (hx : (match s.engReadN none ctx (pool + 64 + 16 * ring) 8 with
      | .ok y => y == x
      | .error _ => false) = true) (hw : slotWord x p + 8 ≤ 2 ^ 30) :
    s.PushPlace ctx pool ring p x (pool + 76 + 16 * ring) (slotWord x p) (pool + 12) := by
  refine ⟨?_, fun j _ => ⟨m.access (by omega) _, m.access (by omega) _⟩, fun j _ => ⟨m.access (by omega) _, m.access (by omega) _⟩,
    fun j _ => ⟨m.access (by omega) _, m.access (by omega) _⟩⟩
  split at hx
  · rename_i y hy
    rw [hy, beq_iff_eq.mp hx]
  · contradiction

/-- A slot of ring 0 of the pool at 0xB000 to retire, its ring at 0xC000. -/
def retiring (pos : Option Nat) (rd : List Reader) : State :=
  let b := ready { base with mem := base.mem.write 0xB040 (leBytes 8 0xC004 ++ leBytes 8 0) }
  { b with kv := { b.kv with readers := rd, retire := [⟨0x8000, 3, 0, 0xB000, [(0, 0x30000)], pos⟩] } }

/-- Slots to retire: with a reader of their generation left, and with none, before their push and between its halves, their ring, its
TAIL and its pool's LEAK mapped; and where they are held. -/
theorem witness_KvRetires :
    let touches (s : State) : Bool := s.kv.retire.all (fun r =>
      s.anyHeld r.ctx ((r.slots.head?.map (fun x => s.pushTouches r.ctx r.pool x.1 r.pos)).getD []))
    ((retiring none [⟨0x8000, 3, 5⟩]).kv.retire[0]?.any (fun r =>
        (retiring none [⟨0x8000, 3, 5⟩]).kv.readers.any (fun y => y.ent == r.ent && y.gen == r.gen)) = true ∧
      [none, some 0].all (fun q => !touches (retiring q []) && !(retiring q []).tripped && (retiring q []).mem.poison == [] &&
        (retiring q []).mem.bad == []) = true) ∧
    touches (unlocked (retiring none [])) = true ∧
    (retiring none []).PushPlace 0 0xB000 0 0 0xC004 (0xB000 + 76 + 16 * 0) (slotWord 0xC004 0) (0xB000 + 12) ∧
    (retiring (some 0) []).PushPlace 0 0xB000 0 0 0xC004 (0xB000 + 76 + 16 * 0) (slotWord 0xC004 0) (0xB000 + 12) :=
  ⟨by decide +kernel, by decide +kernel, (mapped_of (by decide +kernel)).pushPlace (by decide) (by decide +kernel) (by decide),
    (mapped_of (by decide +kernel)).pushPlace (by decide) (by decide +kernel) (by decide)⟩

/-! ## Witnesses: pages, requests and engines -/

/-- An ATTN of one page whose list word is `n`, with an entry of those flags at 0x8000, its table. -/
def attending (table : Word) (n flags : Nat) (s : State) : State :=
  ((entryAt flags s).modWarp 1 0 (fun W => { W with w := [(8, table), (11, 512), (12, 1024), (14, 128)] })).modAlloc 2
    (fun A => A.write 512 (leBytes 4 n))

def attnWord : Instr := .attn (fs 0 8 0 1 0)

def attnB (s : State) (p : Slot → Bool) : Bool := clearB s attnWord plainCheck (fun x =>
  !s.scrHeld x.B.uid x.W.idx 512 4 && !x.B.aborted && ((x.ctx s attnWord plainCheck none).uni 14).toNat == 128 && p x)

/-- An ATTN's entry: held, poisoned, without a translation, unreadable, not VALID, with bad flags, with a reserved bit, good, and, on
class E, of tag 2; a list word with a double-bit error; an earlier scratch store. -/
theorem witness_AttnEntries :
    let settled (s : State) (x : Slot) : Bool := (x.ctx s attnWord plainCheck none).W.scratchSettled
    let snaps (s : State) (va : Nat) (p : Except EngErr Snap → Bool) : Bool := attnB s (fun x =>
      settled s x && !s.vaHeld x.B.ctx va 32 && !s.scrBad x.B.uid x.W.idx 512 4 && p (s.snapshot (some (coreCluster x.W.core)) x.B.ctx va))
    let at' (s : State) (va : Nat) (need : Need) : Access := s.access (some 0) 0 va need
    let ok (p : Snap → Bool) (r : Except EngErr Snap) : Bool := match r with
      | .ok e => p e
      | .error _ => false
    let a := attending 0x8000 0 3 (ready base)
    let bare (d0 d1 d2 : Nat) : State := { a with mem := a.mem.write 0x8000 (leBytes 8 d0 ++ leBytes 8 d1 ++ leBytes 8 d2) }
    let e := attending 0x8000 0 0x23 (ready baseE)
    attnB (unlocked a) (fun x => settled a x && (unlocked a).vaHeld x.B.ctx 0x8000 32) = true ∧
    snaps { a with mem := { a.mem with poison := [0x800] } } 0x8000 (fun r => match r with
      | .error x => x.1 == 4
      | .ok _ => false) = true ∧
    (attnB (attending 0x40000000 0 3 (ready base)) (settled a) &&
      at' (attending 0x40000000 0 3 (ready base)) 0x40000000 .read == .fault) = true ∧
    (attnB (withLeaf a 0x205) (settled a) && (accessPa (at' (withLeaf a 0x205) 0x8000 .read)).isNone &&
      at' (withLeaf a 0x205) 0x8000 .read != .fault) = true ∧
    snaps (attending 0x8000 0 0 (ready base)) 0x8000 (ok (fun e => !e.valid)) = true ∧
    snaps (bare 0x10000003 0x20000001 0) 0x8000 (ok (fun e => e.valid && !e.flagsOk)) = true ∧
    snaps (bare 0x10000003 0x20000003 (2 ^ 48)) 0x8000 (ok (fun e => e.valid && e.flagsOk && !e.reservedOk)) = true ∧
    snaps a 0x8000 (ok (fun e => e.valid && e.flagsOk && e.reservedOk && decide (e.tag < 2))) = true ∧
    attnB e (fun x => x.W.core == 128 && settled e x && !e.scrBad x.B.uid x.W.idx 512 4 &&
      ok (fun y => y.valid && y.flagsOk && y.reservedOk && y.tag == 2) (e.snapshot (some (coreCluster 128)) x.B.ctx 0x8000)) = true ∧
    (let b := a.modAlloc 2 (fun A => { A with bad := [128] })
     attnB b (fun x => settled b x && b.scrBad x.B.uid x.W.idx 512 4)) = true ∧
    (let u := a.modWarp 1 0 (fun W => { W with ops := [opOf .sts [part1 64 4 [1, 2, 3, 4]] []] })
     attnB u (fun x => !settled u x)) = true := by
  decide +kernel

/-- A selector's step that waits for memory, and one whose query cannot be read; a TOPK whose inputs cannot. -/
theorem witness_SelectorStops :
    let head (b : State) (y : SelOp) : State := { (ready (opState b (opOf (.select y) [] []))) with selq := [(0, [9])] }
    let p : List Nat := [0x8000, 0, 256, 0, 2, 512, 1024, 2]
    let y (stage : Nat) : SelOp := ⟨0, some 20, some 21, p, stage, 0, [], [], some (base.mem.past.length, 0), none⟩
    let k : SelOp := ⟨1, some 20, some 21, [0, 100, 3, 2, 0, 512, 1024, 0], 0, 0, [], [], none, none⟩
    let own (s : State) (q : Block → Warp → SelOp → Bool) : Bool := s.selQueue 0 == [9] && !s.tripped && ownsB s (fun B W o =>
      ({ W with ops := W.opsBefore 9 } : Warp).scratchSettled && (match o.kind with
        | .select x => x.ended.isNone && q B W x
        | _ => false))
    let bad (s : State) (n : Nat) : State := s.modAlloc 2 (fun A => { A with bad := [n] })
    own (unlocked (head base (y 0))) (fun B W x => (unlocked (head base (y 0))).selHeld B W x) = true ∧
    own (bad (head base (y 1)) 70) (fun B W x => x.stage == 1 && !(bad (head base (y 1)) 70).selHeld B W x &&
      (bad (head base (y 1)) 70).scrBad B.uid W.idx 256 128) = true ∧
    own (bad (head base k) 1) (fun B W x => !(bad (head base k) 1).selHeld B W x && (bad (head base k) 1).scrBad B.uid W.idx 0 12) = true := by
  decide +kernel

/-- A CBWAIT and a CKICK whose scratch is held, or has a double-bit error; a copy request whose descriptor's memory is held. -/
theorem witness_CopyStops :
    let o (k : OpKind) (n : Nat) : State := ready (opState base (opOf k [⟨0, 0, 64, 64, n, [], false⟩] []))
    let spill (s : State) : State := s.modAlloc 2 (fun A => { A with pages := [⟨0, none, 5⟩] })
    let bad (s : State) : State := s.modAlloc 2 (fun A => { A with bad := [17] })
    let on (s : State) (n : Nat) (q : Block → Warp → Bool) : Bool := ownsB s (fun B W y => !y.done && !s.tripped && !B.aborted &&
      W.mayPerform y [0] 64 n && q B W)
    let wait := o (.cbwait (some 4) 64 none) 8
    let set := o (.cbset 64 5) 8
    let r : CopyReq := ⟨0, 0, 2, (1, 0), copyRecord 0 0x200, 64, Sig.empty, true, (0, 0), none⟩
    [wait, set].all (fun s => on (unlocked (spill s)) 8 (fun B W => (unlocked (spill s)).scrHeld B.uid W.idx 64 8) &&
      on (bad s) 8 (fun B W => !(bad s).scrHeld B.uid W.idx 64 8 && (bad s).scrBad B.uid W.idx 64 8) &&
      on s 8 (fun B W => !s.scrHeld B.uid W.idx 64 8 && !s.scrBad B.uid W.idx 64 8)) = true ∧
    (unlocked base).vaHeld r.ctx (recField r.record 1 0 52) 64 = true := by
  decide +kernel

/-- Tuple requests that wait for memory, that came through a port, whose block a capture has frozen, whose deadline has passed when
their region drains; a region whose memory is held. -/
theorem witness_TupleWaits :
    let handle := 2 ^ 12
    let req : TupReq := ⟨9, some (1, 0), 0, handle, [7, 0, 0, 0, 0, 0, 0, 0], 2, 0, true, 0, Sig.empty, none⟩
    let dep : TupReq := { req with src := none, kind := 0, blocking := false, port := some 3 }
    let s (b : State) (sent : List TupReq) (parked : List Parked) : State := { b with
      mem := ((b.mem.write 0x3008 (leBytes 8 0x40000A0F)).write 0x8000 (leBytes 8 0x40000001 ++ leBytes 8 0x4000001 ++
        leBytes 8 0 ++ leBytes 8 0))
      host := { b.host with creg := [(0, 0x8000)] }
      tup := { b.tup with sent := sent, stored := [], parked := parked } }
    let p (d : Option Nat) : Parked := ⟨req, req.slice, 0, d⟩
    let frozen : State := s (ready (base.modBlock 1 (fun B => { B with halt := some (.capture 0) }))) [] [p (some 9)]
    (s (unlocked base) [req] []).serviceHeld req = true ∧
    ((s (ready base) [dep] []).tup.sent == [dep] && (s (ready base) [dep] []).releaseDone dep && !(s (ready base) [dep] []).serviceHeld dep &&
      decide ((s (ready base) [dep] []).tuplePort dep < 13) && (match (s (ready base) [dep] []).regionOf 0 handle with
        | .ok g => g.live 0 handle && ((s (ready base) [dep] []).storeFaults 0 g).isEmpty
        | .error _ => false)) = true ∧
    (frozen.parkedNow 9 == some (p (some 9)) && frozen.tup.sent == [] && !frozen.tripped && (frozen.block? 1).any (fun B =>
      B.halt == some (.capture 0)) && tget none frozen.tup.served req.slice == none && decide (frozen.sliceClock req.slice ≤ 9)) = true ∧
    (let old : State := { s (ready base) [] [p (some 4)] with
       dies := (ready base).dies.map (fun d => { d with clock := 9 }), tup := { base.tup with parked := [p (some 4)] } }
     !old.regionHeld 0 1 && decide (4 < old.sliceClock req.slice) && (old.tup.parked.map (·.req.id)) == [9] && (match old.regionOf 0 1 with
       | .ok _ => true
       | .error _ => false)) = true ∧
    (s (unlocked base) [] [p none]).regionHeld 0 0 = true := by
  decide +kernel

/-! ## Witnesses: the pools of page aging -/

/-- The pages of `base`, an entry at 0x8000 or a sweep record, a pool at 0xB000 whose rings are all at 0xC000, and slot words there. -/
def poolMem (rec : List Nat) (ctl : Nat) (slots : List Nat) : MemSt :=
  ((base.mem.write 0x8000 (rec.flatMap (leBytes 8))).write 0xB000 (List.replicate 64 0 ++
    (List.range 9).flatMap (fun _ => leBytes 8 ctl ++ leBytes 8 0))).write 0xC000 (slots.flatMap (leBytes 8))

def pooling (op : Nat) (ph : KvPhase) (m : MemSt) : State := { aging 3 op 0 ph with mem := m }

/-- Nothing stops the engine, whose operation is 9 (ready_held). -/
def kvRuns (s : State) (ph : KvPhase) : Bool :=
  !s.tripped && (s.engine 0).phase == ph && s.mem.poison == [] && s.mem.bad == [] && mappedB s 0 && s.mem.tlb == [] &&
  (match (s.engine 0).queue with
    | r :: _ => r.id == 9 && r.ctx == 0 && s.hbmReady
    | [] => false)

theorem poolBad_not {bs : List Byte} (h : (recField bs 0 3 61 == 0 && recField bs 0 0 2 != 3 &&
      (List.range 32).all (fun i => !(decide (2 ≤ i ∧ i < 8) || decide (26 ≤ i)) || recField bs i 0 64 == 0) &&
      (List.range 9).all (fun r => recField bs (8 + 2 * r) 52 12 == 0 && recField bs (8 + 2 * r) 5 1 == 0 &&
        decide (4 ≤ recField bs (8 + 2 * r) 0 5) && decide (recField bs (8 + 2 * r) 0 5 ≤ 20))) = true) : ¬poolBad bs := by
  simp only [Bool.and_eq_true, beq_iff_eq, bne_iff_ne, List.all_eq_true, List.mem_range, decide_eq_true_eq, Bool.or_eq_true,
    Bool.not_eq_true', Bool.or_eq_false_iff, decide_eq_false_iff_not] at h
  obtain ⟨⟨⟨h1, h2⟩, h3⟩, h4⟩ := h
  rintro (a | a | ⟨i, hi, a⟩ | ⟨r, hr, a⟩)
  · exact a h1
  · exact h2 a
  · rcases h3 i (by omega) with b | b
    · omega
    · exact a b
  · have := h4 r hr
    omega

/-- The 256 bytes of that pool, and the 64 of a sweep record of one page. -/
def poolBytes (ctl : Nat) : List Byte :=
  List.replicate 64 0 ++ (List.range 9).flatMap (fun _ => leBytes 8 ctl ++ leBytes 8 0) ++ List.replicate 48 0
def sweepBytes (rec : List Nat) : List Byte := rec.flatMap (leBytes 8) ++ List.replicate (64 - 8 * rec.length) 0
def goodSweep : List Nat := [0x8000, 0xB000, 0x100000000, 0]

/-- Sweep records and pools that are read, good and bad. -/
theorem kv_reads {ctl : Nat} {rec : List Nat} (h : (ctl, rec) = (0xC004, goodSweep) ∨ (ctl, rec) = (0, [0])) :
    ∀ ph ∈ [.start, .pool, .reading (poolMem rec ctl []).past.length, .poolAt (poolMem rec ctl []).past.length],
      kvRuns (pooling 0 ph (poolMem rec ctl [])) ph = true ∧
      (pooling 0 ph (poolMem rec ctl [])).engRead none 0 0x8000 64 = .ok (sweepBytes rec) ∧
      (pooling 0 ph (poolMem rec ctl [])).engRead none 0 0xB000 256 = .ok (poolBytes ctl) := by
  intro ph hp
  have k : ∀ x ∈ [(0xC004, goodSweep), (0, [0])], (∀ ph ∈ [.start, .pool, .reading (poolMem x.2 x.1 []).past.length,
      .poolAt (poolMem x.2 x.1 []).past.length], kvRuns (pooling 0 ph (poolMem x.2 x.1 [])) ph = true) ∧
      (poolMem x.2 x.1 []).read 0x8000 64 = sweepBytes x.2 ∧ (poolMem x.2 x.1 []).read 0xB000 256 = poolBytes x.1 := by decide +kernel
  obtain ⟨k1, k2, k3⟩ := k (ctl, rec) (by simpa using h)
  have r := k1 ph hp
  have r' := r
  simp only [kvRuns, Bool.and_eq_true, beq_iff_eq] at r'
  obtain ⟨⟨⟨⟨⟨-, r1⟩, r2⟩, r3⟩, r4⟩, -⟩ := r'
  have m := mapped_of r3
  exact ⟨r, by rw [m.engRead ⟨r1, r2⟩ r4 none (by decide), ← k2]; rfl, by rw [m.engRead ⟨r1, r2⟩ r4 none (by decide), ← k3]; rfl⟩

/-- Of those records and pools one is good and one bad; and none is read in a context that is not enabled. -/
theorem witness_KvPools :
    sweepRecBad (sweepBytes [0]) ∧ ¬sweepRecBad (sweepBytes goodSweep) ∧ poolBad (poolBytes 0) ∧ ¬poolBad (poolBytes 0xC004) ∧
    (let f : State := { pooling 0 .start base.mem with host := { base.host with cpt := [] } }
     (match f.engRead none 0 0x8000 64, f.engRead none 0 0xB000 256 with
       | .error _, .error _ => !f.tripped
       | _, _ => false)) = true := by
  refine ⟨?_, ?_, ?_, poolBad_not (by decide +kernel), by decide +kernel⟩
  · unfold sweepRecBad; decide +kernel
  · unfold sweepRecBad; decide +kernel
  · exact Or.inr (Or.inr (Or.inr ⟨0, by decide, by decide +kernel⟩))

/-- A demotion of `entrySnap 3` under way, its rings' slot words these. -/
def popping (ph : KvPhase) (slots : List Nat) : State := pooling 4 ph (poolMem [0x10000003, 0x20000003] 0xC004 slots)

/-- What goes back, at each half of a push: with more to go back, and the last, with and without an error. -/
def backPhases : List KvPhase := [.back (entrySnap 3) [(1, 0x30000), (1, 0x40000)] none none true 10,
  .back (entrySnap 3) [(1, 0x30000), (1, 0x40000)] (some 0) none true 10, .back (entrySnap 3) [(1, 0x40000)] (some 0) none true 10,
  .back (entrySnap 3) [(1, 0x40000)] (some 0) (some (12, 0)) false 0, .back (entrySnap 3) [(1, 0x40000)] (some 0) none false 11]

/-- The engine reads a ring's control and HEAD, and the slot words from there. -/
def pops (s : State) (ring : Nat) (ws : List Nat) : Prop :=
  s.engReadN none 0 (0xB000 + 64 + 16 * ring) 8 = .ok 0xC004 ∧ s.engReadN none 0 (0xB000 + 72 + 16 * ring) 4 = .ok 0 ∧
  ∀ k w, ws[k]? = some w → s.engReadN none 0 (slotWord 0xC004 (0 + k)) 8 = .ok w

theorem pops_of {s : State} {ring : Nat} {ws : List Nat} {ph : KvPhase} (hr : ring < 16) (h : (kvRuns s ph &&
      s.mem.readN (0xB000 + 64 + 16 * ring) 8 == 0xC004 && s.mem.readN (0xB000 + 72 + 16 * ring) 4 == 0 &&
      ws.zipIdx.all (fun w => s.mem.readN (slotWord 0xC004 (0 + w.2)) 8 == w.1)) = true) : kvRuns s ph = true ∧ pops s ring ws := by
  simp only [Bool.and_eq_true, beq_iff_eq, List.all_eq_true] at h
  obtain ⟨⟨⟨h, h1⟩, h2⟩, h3⟩ := h
  have r := h
  simp only [kvRuns, Bool.and_eq_true, beq_iff_eq] at r
  obtain ⟨⟨⟨⟨⟨-, r1⟩, r2⟩, r3⟩, r4⟩, -⟩ := r
  have m := mapped_of r3
  have rd : ∀ {va n : Nat}, va + n ≤ 2 ^ 30 → s.engReadN none 0 va n = .ok (s.mem.readN va n) := fun hv => by
    simp only [State.engReadN, m.engRead ⟨r1, r2⟩ r4 none hv, Except.map, MemSt.readN]
  refine ⟨h, by rw [rd (by omega), h1], by rw [rd (by omega), h2], fun k w hw => ?_⟩
  have hs : slotWord 0xC004 (0 + k) < 2 ^ 20 := by
    have := Nat.mod_lt (0 + k) (show 0 < 2 ^ (0xC004 % 32) by decide)
    have e : (2 : Nat) ^ (0xC004 % 32) = 16 := by decide
    unfold slotWord
    omega
  rw [rd (by omega), h3 (w, k) (List.mk_mem_zipIdx_iff_getElem?.mpr hw)]

/-- Pops of two slots: of a ring that is empty, of two good ones, of one that is no multiple of 256; of a summary slot, from a ring that
is empty and one that is not. -/
theorem witness_KvPops :
    (∀ ws ∈ [[0, 0x40001], [0x30001, 0x40001], [0x30041, 0x40001]],
      kvRuns (popping (.pop (entrySnap 3)) ws) (.pop (entrySnap 3)) = true ∧ pops (popping (.pop (entrySnap 3)) ws) 1 ws) ∧
    ∀ ws ∈ [[0], [0x50001]], kvRuns (popping (.popSum (entrySnap 3) 0x30000 0x40000) ws) (.popSum (entrySnap 3) 0x30000 0x40000) = true ∧
      pops (popping (.popSum (entrySnap 3) 0x30000 0x40000) ws) 8 ws :=
  ⟨fun ws h => pops_of (by decide) ((by decide +kernel : ∀ ws ∈ [[0, 0x40001], [0x30001, 0x40001], [0x30041, 0x40001]],
      (kvRuns (popping (.pop (entrySnap 3)) ws) (.pop (entrySnap 3)) &&
        (popping (.pop (entrySnap 3)) ws).mem.readN (0xB000 + 64 + 16 * 1) 8 == 0xC004 &&
        (popping (.pop (entrySnap 3)) ws).mem.readN (0xB000 + 72 + 16 * 1) 4 == 0 &&
        ws.zipIdx.all (fun w => (popping (.pop (entrySnap 3)) ws).mem.readN (slotWord 0xC004 (0 + w.2)) 8 == w.1)) = true) ws h),
    fun ws h => pops_of (by decide) ((by decide +kernel : ∀ ws ∈ [[0], [0x50001]],
      (kvRuns (popping (.popSum (entrySnap 3) 0x30000 0x40000) ws) (.popSum (entrySnap 3) 0x30000 0x40000) &&
        (popping (.popSum (entrySnap 3) 0x30000 0x40000) ws).mem.readN (0xB000 + 64 + 16 * 8) 8 == 0xC004 &&
        (popping (.popSum (entrySnap 3) 0x30000 0x40000) ws).mem.readN (0xB000 + 72 + 16 * 8) 4 == 0 &&
        ws.zipIdx.all (fun w => (popping (.popSum (entrySnap 3) 0x30000 0x40000) ws).mem.readN (slotWord 0xC004 (0 + w.2)) 8 == w.1)) =
          true) ws h)⟩

theorem pops_stay {ws : List Nat} (h : ws = [0x30001, 0x40001] ∨ ws = [0x30041, 0x40001]) {va n : Nat}
    (hn : va + n ≤ 2 ^ 30) : (popping (.pop (entrySnap 3)) ws).StaysOff 0 va va n .write (fun a => 0xC000 ≤ a ∧ a < 0xC010) := by
  have m : mappedB (popping (.pop (entrySnap 3)) ws) 0 = true := by rcases h with rfl | rfl <;> decide +kernel
  exact (mapped_of m).staysOff hn _ fun _ h => by omega

theorem backs_place : ∀ ph ∈ backPhases, kvRuns (popping ph [0, 0]) ph = true ∧
    (popping ph [0, 0]).PushPlace 0 0xB000 1 0 0xC004 (0xB000 + 76 + 16 * 1) (slotWord 0xC004 0) (0xB000 + 12) := by
  have h : ∀ ph ∈ backPhases, kvRuns (popping ph [0, 0]) ph = true ∧ mappedB (popping ph [0, 0]) 0 = true ∧
      (match (popping ph [0, 0]).engReadN none 0 (0xB000 + 64 + 16 * 1) 8 with
        | .ok y => y == 0xC004
        | .error _ => false) = true := by decide +kernel
  intro ph hp
  obtain ⟨h1, h2, h3⟩ := h ph hp
  exact ⟨h1, (mapped_of h2).pushPlace (by decide) h3 (by decide)⟩

/-! ## Well-formedness refuses each ill-formed term -/

/-- One ill-formed term for each check of WellFormed: a constructor that its own fields contradict, an unassigned half, a word that
is assigned, parameters that name nothing of the part. -/
theorem smoke_ill_formed :
    ([.brx (fa 0 6 0 1), .brxRel (fa 0 5 0 0), .ret (fs 6 0 0 15 1), .retH (fs 0 0 0 15 0), .pset (fa 3 5 0 1), .psetAll (fa 0 5 0 0),
      .movwLane (fs 4 5 0 15 1), .movwFirst (fs 4 5 0 15 0), .dualWord k1 ⟨0x19, 1, 2, 3⟩ ⟨0, 1, 2, 3⟩,
      .dualWord k1 ⟨0, 1, 2, 3⟩ ⟨0x3F, 1, 2, 3⟩, .fenceFull (fs 0 0 0 1 1), .fenceSig (fs 0 0 0 15 0), .nbarArrive (fs 3 5 0 15 1),
      .nbarWait (fs 3 0 0 15 2), .nbarSync (fs 3 5 0 15 0), .nbarSync (fs 3 5 0 15 1), .selectorOperation 10, .copyRequest 40 ⟨0, none⟩,
      .copyRequest 0 ⟨4, none⟩, .tcpy (fs 0x82 3 4 3 5), .tcpyWait (fs 2 3 4 3 5), .ttak (fs 0x82 3 4 3 5), .ttakWait (fs 2 3 4 3 5),
      .regionDrain 128 0, .demotionEngineOp 4, .sxhWrite false 0 31 [1, 2], .attestRequest 9 1, .registerWrite (.hashm 0 7) 0,
      .registerWrite (.bka 40 0) 0, .registerWrite (.bkc 63 0) 0, .registerWrite (.nonce 9 0) 0, .peerStore 0 0 [1, 2, 3] false,
      .peerDeposit 0 0 [1], .unassignedOpcode 0x00E0C0A094490013] : List Instr).all (fun i => !i.wellFormed) = true := by
  decide +kernel

/-! ## Words decode to what they stand for

The words are those the opcodes of Tables 3.11 to 3.16 and the fields of Tables 3.1 and 3.3 to 3.7 give; DIST is 1. -/

/-- One word for each instruction of Table 3.11, from its opcode and the fields of its format. -/
def integerWords : List (BitVec 64 × Instr) :=
  ([(0xe0c0a08e000001, .iadd (fa 4 5 6 7)),
   (0xe0c0a08e010001, .isub (fa 4 5 6 7)),
   (0xe0c0a08e020001, .iadd3 (fa 4 5 6 7)),
   (0xe0c0a08e030001, .imul (fa 4 5 6 7)),
   (0xe0c0a08e040001, .imulhS32 (fa 4 5 6 7)),
   (0xe0c0a08e050001, .imulhN32 (fa 4 5 6 7)),
   (0xe0c0a08e060001, .imad (fa 4 5 6 7)),
   (0xe0c0a08e070001, .imadwS32 (fa 4 5 6 7)),
   (0xe0c0a08e080001, .imadwN32 (fa 4 5 6 7)),
   (0xe0c0a08e090001, .iminS32 (fa 4 5 6 7)),
   (0xe0c0a08e0a0001, .iminN32 (fa 4 5 6 7)),
   (0xe0c0a08e0b0001, .imaxS32 (fa 4 5 6 7)),
   (0xe0c0a08e0c0001, .imaxN32 (fa 4 5 6 7)),
   (0xe0c0a08e0d0001, .iabs (fa 4 5 6 7)),
   (0xe0c0a08e0e0001, .shl (fa 4 5 6 7)),
   (0xe0c0a08e0f0001, .shr (fa 4 5 6 7)),
   (0xe0c0a08e100001, .sar (fa 4 5 6 7)),
   (0xe0c0a08e110001, .rot (fa 4 5 6 7)),
   (0xe0c0a08e120001, .andR (fa 4 5 6 7)),
   (0xe0c0a08e130001, .orR (fa 4 5 6 7)),
   (0xe0c0a08e140001, .xorR (fa 4 5 6 7)),
   (0xe0c0a08e150001, .notR (fa 4 5 6 7)),
   (0xe0c0a08e160001, .blut (fa 4 5 6 7)),
   (0xe0c0a08e170001, .popc (fa 4 5 6 7))] : List (BitVec 64 × Instr)) ++
  ([(0xe0c0a08e180001, .clz (fa 4 5 6 7)),
   (0xe0c0a08e190001, .brev (fa 4 5 6 7)),
   (0xe0c0a08e1a0001, .bfeN32 (fa 4 5 6 7)),
   (0xe0c0a08e1b0001, .bfeS32 (fa 4 5 6 7)),
   (0xe0c0a08e1c0001, .bfi (fa 4 5 6 7)),
   (0xe0c0a08e1d0001, .sel (fa 4 5 6 7)),
   (0xe0c0a08e1e0001, .lea (fa 4 5 6 7)),
   (0xe0c0a08e1f0001, .icmp (fa 4 5 6 7)),
   (0x120a08e200001, .iaddImm (fi 4 5 9)),
   (0x120a08e210001, .imulImm (fi 4 5 9)),
   (0x120a08e220001, .andImm (fi 4 5 9)),
   (0x120a08e230001, .orImm (fi 4 5 9)),
   (0x120a08e240001, .xorImm (fi 4 5 9)),
   (0x120a08e250001, .shlImm (fi 4 5 9)),
   (0x120a08e260001, .shrImm (fi 4 5 9)),
   (0x120a08e270001, .sarImm (fi 4 5 9)),
   (0x120a08e280001, .icmpImm (fi 4 5 9))] : List (BitVec 64 × Instr))

theorem test_integer_words : integerWords.all (fun p => decodeWord p.1 == p.2) = true := by decide +kernel

/-- One word for each instruction of Table 3.12 and the conversions of Table 3.13, from its opcode and the fields of its format. -/
def floatWords : List (BitVec 64 × Instr) :=
  ([(0xe0c0a08e400001, .fadd (fa 4 5 6 7)),
   (0xe0c0a08e410001, .faddRz (fa 4 5 6 7)),
   (0xe0c0a08e420001, .faddRu (fa 4 5 6 7)),
   (0xe0c0a08e430001, .faddRd (fa 4 5 6 7)),
   (0xe0c0a08e440001, .fmul (fa 4 5 6 7)),
   (0xe0c0a08e450001, .fmulRz (fa 4 5 6 7)),
   (0xe0c0a08e460001, .fmulRu (fa 4 5 6 7)),
   (0xe0c0a08e470001, .fmulRd (fa 4 5 6 7)),
   (0xe0c0a08e480001, .ffma (fa 4 5 6 7)),
   (0xe0c0a08e490001, .ffmaRz (fa 4 5 6 7)),
   (0xe0c0a08e4a0001, .ffmaRu (fa 4 5 6 7)),
   (0xe0c0a08e4b0001, .ffmaRd (fa 4 5 6 7)),
   (0xe0c0a08e4c0001, .fmin (fa 4 5 6 7)),
   (0xe0c0a08e4d0001, .fmax (fa 4 5 6 7)),
   (0xe0c0a08e4e0001, .fcmp (fa 4 5 6 7)),
   (0xe0c0a08e4f0001, .fclass (fa 4 5 6 7)),
   (0xe0c0a08e500001, .frcp (fa 4 5 6 7)),
   (0xe0c0a08e510001, .frsq (fa 4 5 6 7)),
   (0xe0c0a08e520001, .fsqrt (fa 4 5 6 7)),
   (0xe0c0a08e530001, .fdiv (fa 4 5 6 7)),
   (0xe0c0a08e540001, .fex2 (fa 4 5 6 7)),
   (0xe0c0a08e550001, .flg2 (fa 4 5 6 7)),
   (0xe0c0a08e560001, .fsinpi (fa 4 5 6 7)),
   (0xe0c0a08e570001, .fcospi (fa 4 5 6 7))] : List (BitVec 64 × Instr)) ++
  ([(0xe0c0a08e580001, .hadd2F16 (fa 4 5 6 7)),
   (0xe0c0a08e590001, .hmul2F16 (fa 4 5 6 7)),
   (0xe0c0a08e5a0001, .hfma2F16 (fa 4 5 6 7)),
   (0xe0c0a08e5b0001, .hadd2Bf16 (fa 4 5 6 7)),
   (0xe0c0a08e5c0001, .hmul2Bf16 (fa 4 5 6 7)),
   (0xe0c0a08e5d0001, .hfma2Bf16 (fa 4 5 6 7)),
   (0xe0c0a08e800001, .cvt (fa 4 5 6 7)),
   (0xe0c0a08e810001, .cvtRz (fa 4 5 6 7)),
   (0xe0c0a08e820001, .cvtRu (fa 4 5 6 7)),
   (0xe0c0a08e830001, .cvtRd (fa 4 5 6 7)),
   (0xe0c0a08e840001, .pack (fa 4 5 6 7)),
   (0xe0c0a08e850001, .unpack (fa 4 5 6 7)),
   (0xe0c0a08e860001, .qblk (fa 4 5 6 7)),
   (0xe0c0a08e870001, .dqblk (fa 4 5 6 7))] : List (BitVec 64 × Instr))

theorem test_float_words : floatWords.all (fun p => decodeWord p.1 == p.2) = true := by decide +kernel

/-- One word for each instruction of the rest of Table 3.13, from its opcode and the fields of its format. -/
def controlWords : List (BitVec 64 × Instr) :=
  ([(0x120a08ec00001, .bra (fi 4 5 9)),
   (0xc0c0a08ec10001, .brx (fa 4 5 6 6)),
   (0xe0c0a08ec10001, .brxRel (fa 4 5 6 7)),
   (0xffffc0a08ec20001, .call (fi 4 5 524286)),
   (0x620c0a08ec30001, .ret (fs 4 5 6 1 3)),
   (0x220c0a08ec30001, .retH (fs 4 5 6 1 1)),
   (0x620c0a08ec40001, .exit (fs 4 5 6 1 3)),
   (0x620c0a08ec50001, .yield (fs 4 5 6 1 3)),
   (0x620c0a08ec60001, .rep (fs 4 5 6 1 3)),
   (0xdeadbeefec70001, .lit ⟨k1, 7, 0xDEADBEEF, 0⟩),
   (0x620c0a08ec80001, .nop (fs 4 5 6 1 3)),
   (0x120a08ec90001, .trap (fi 4 5 9)),
   (0x620c0a08eca0001, .brk (fs 4 5 6 1 3)),
   (0x620c0a08ecb0001, .rdsr (fs 4 5 6 1 3)),
   (0x620c0a08ecc0001, .wrsr (fs 4 5 6 1 3)),
   (0xc0a08ecd0001, .pset (fa 4 5 6 0)),
   (0x20c0a08ecd0001, .psetAll (fa 4 5 6 1)),
   (0xe0c0a08ece0001, .plop (fa 4 5 6 7)),
   (0xe0c0a08ecf0001, .mov (fa 4 5 6 7)),
   (0x120a08ed00001, .movi (fi 4 5 9)),
   (0x620c0a08ed10001, .ldix (fs 4 5 6 1 3)),
   (0x620c0a08ed20001, .stix (fs 4 5 6 1 3)),
   (0x620c0a08ed30001, .rng4 (fs 4 5 6 1 3)),
   (0x620c0a08ed40001, .rdtime (fs 4 5 6 1 3))] : List (BitVec 64 × Instr)) ++
  ([(0x20c0a08ed50001, .movwLane (fs 4 5 6 1 0)),
   (0x220c0a08ed50001, .movwFirst (fs 4 5 6 1 1)),
   (0x620c0a08ed60001, .movwToLane (fs 4 5 6 1 3)),
   (0xe0c0a08ed80001, .wadd (fa 4 5 6 7)),
   (0xe0c0a08ed90001, .wsub (fa 4 5 6 7)),
   (0xe0c0a08eda0001, .wmul (fa 4 5 6 7)),
   (0xe0c0a08edb0001, .wand (fa 4 5 6 7)),
   (0xe0c0a08edc0001, .wor (fa 4 5 6 7)),
   (0xe0c0a08edd0001, .wxor (fa 4 5 6 7)),
   (0xe0c0a08ede0001, .wshl (fa 4 5 6 7)),
   (0xe0c0a08edf0001, .wshr (fa 4 5 6 7)),
   (0xe0c0a08ee00001, .wmov (fa 4 5 6 7)),
   (0xe0c0a08ee10001, .wcmp (fa 4 5 6 7)),
   (0x120a08ee20001, .waddImm (fi 4 5 9)),
   (0x120a08ee30001, .wmovImm (fi 4 5 9))] : List (BitVec 64 × Instr))

theorem test_control_words : controlWords.all (fun p => decodeWord p.1 == p.2) = true := by decide +kernel

/-- One word for each instruction of Table 3.14, from its opcode and the fields of its format. -/
def memoryWords : List (BitVec 64 × Instr) :=
  ([(0x20060c08f000001, .ldLane .n8 (fm 4 6 3 1)),
   (0x20060c08f010001, .ldLane .s8 (fm 4 6 3 1)),
   (0x20060c08f020001, .ldLane .n16 (fm 4 6 3 1)),
   (0x20060c08f030001, .ldLane .s16 (fm 4 6 3 1)),
   (0x20060c08f040001, .ldLane .w32 (fm 4 6 3 1)),
   (0x20060c08f050001, .ldLane .w64 (fm 4 6 3 1)),
   (0x20060c08f060001, .ldLane .w128 (fm 4 6 3 1)),
   (0x3ffa0c08f070001, .ldUniform .n8 (fm 4 6 4093 1)),
   (0x3ffa0c08f080001, .ldUniform .s8 (fm 4 6 4093 1)),
   (0x3ffa0c08f090001, .ldUniform .n16 (fm 4 6 4093 1)),
   (0x3ffa0c08f0a0001, .ldUniform .s16 (fm 4 6 4093 1)),
   (0x3ffa0c08f0b0001, .ldUniform .w32 (fm 4 6 4093 1)),
   (0x3ffa0c08f0c0001, .ldUniform .w64 (fm 4 6 4093 1)),
   (0x3ffa0c08f0d0001, .ldUniform .w128 (fm 4 6 4093 1)),
   (0x20060c08f0e0001, .stLane .w8 (fm 4 6 3 1)),
   (0x20060c08f0f0001, .stLane .w16 (fm 4 6 3 1)),
   (0x20060c08f100001, .stLane .w32 (fm 4 6 3 1)),
   (0x20060c08f110001, .stLane .w64 (fm 4 6 3 1)),
   (0x20060c08f120001, .stLane .w128 (fm 4 6 3 1)),
   (0x20060c08f130001, .stUniform .w8 (fm 4 6 3 1)),
   (0x20060c08f140001, .stUniform .w16 (fm 4 6 3 1)),
   (0x20060c08f150001, .stUniform .w32 (fm 4 6 3 1)),
   (0x20060c08f160001, .stUniform .w64 (fm 4 6 3 1)),
   (0x20060c08f170001, .stUniform .w128 (fm 4 6 3 1))] : List (BitVec 64 × Instr)) ++
  ([(0x20060c08f180001, .lda false (fm 4 6 3 1)),
   (0x20060c08f190001, .lda true (fm 4 6 3 1)),
   (0x20060c08f1a0001, .str false (fm 4 6 3 1)),
   (0x20060c08f1b0001, .str true (fm 4 6 3 1)),
   (0x20060c08f1c0001, .lds .n8 (fm 4 6 3 1)),
   (0x20060c08f1d0001, .lds .s8 (fm 4 6 3 1)),
   (0x20060c08f1e0001, .lds .n16 (fm 4 6 3 1)),
   (0x20060c08f1f0001, .lds .s16 (fm 4 6 3 1)),
   (0x20060c08f200001, .lds .w32 (fm 4 6 3 1)),
   (0x20060c08f210001, .lds .w64 (fm 4 6 3 1)),
   (0x20060c08f220001, .lds .w128 (fm 4 6 3 1)),
   (0x20060c08f230001, .sts .w8 (fm 4 6 3 1)),
   (0x20060c08f240001, .sts .w16 (fm 4 6 3 1)),
   (0x20060c08f250001, .sts .w32 (fm 4 6 3 1)),
   (0x20060c08f260001, .sts .w64 (fm 4 6 3 1)),
   (0x20060c08f270001, .sts .w128 (fm 4 6 3 1)),
   (0x20060c08f280001, .ldfrag (fm 4 6 3 1)),
   (0x20060c08f290001, .stfrag (fm 4 6 3 1)),
   (0x20060c08f2a0001, .pref (fm 4 6 3 1)),
   (0x20c0a08f2b0001, .fenceFull (fs 4 5 6 1 0)),
   (0x220c0a08f2b0001, .fenceSig (fs 4 5 6 1 1)),
   (0x620c0a08f2c0001, .atom (fs 4 5 6 1 3)),
   (0x620c0a08f2d0001, .atoms (fs 4 5 6 1 3))] : List (BitVec 64 × Instr))

theorem test_memory_words : memoryWords.all (fun p => decodeWord p.1 == p.2) = true := by decide +kernel

/-- One word for each instruction of Tables 3.15 and 3.16, from its opcode and the fields of its format. -/
def engineWords : List (BitVec 64 × Instr) :=
  ([(0xe0c0a08f400001, .xlane (fa 4 5 6 7)),
   (0xe0c0a08f410001, .pcons (fa 4 5 6 7)),
   (0xe0c0a08f420001, .peers (fa 4 5 6 7)),
   (0xe0c0a08f430001, .red (fa 4 5 6 7)),
   (0xe0c0a08f440001, .redF32 (fa 4 5 6 7)),
   (0xe0c0a08f450001, .scan (fa 4 5 6 7)),
   (0xe0c0a08f460001, .scanF32 (fa 4 5 6 7)),
   (0x620c0a08f470001, .elect (fs 4 5 6 1 3)),
   (0x620c0a08f480001, .bar (fs 4 5 6 1 3)),
   (0x820c0a08f490001, .nbarArrive (fs 4 5 6 1 4)),
   (0x220c0a08f490001, .nbarWait (fs 4 5 6 1 1)),
   (0x420c0a08f490001, .nbarSync (fs 4 5 6 1 2)),
   (0x620c0a08f4a0001, .gbar (fs 4 5 6 1 3)),
   (0x620c0a08f4b0001, .monitor (fs 4 5 6 1 3)),
   (0x620c0a08f4c0001, .waitm (fs 4 5 6 1 3)),
   (0x620c0a08f800001, .mshape (fs 4 5 6 1 3)),
   (0x2d02008af810001, .mma (fx 5 8 32 true 6 1)),
   (0x2d02008af820001, .mrd (fx 5 8 32 true 6 1)),
   (0x2d02008af830001, .mwr (fx 5 8 32 true 6 1)),
   (0x2d02008af840001, .mzero (fx 5 8 32 true 6 1)),
   (0x620c0a08f850001, .attn (fs 4 5 6 1 3)),
   (0x620c0a08f860001, .pgseal (fs 4 5 6 1 3)),
   (0x620c0a08f870001, .psel (fs 4 5 6 1 3)),
   (0x620c0a08f880001, .topk (fs 4 5 6 1 3))] : List (BitVec 64 × Instr)) ++
  ([(0x620c0a08f890001, .mergek (fs 4 5 6 1 3)),
   (0x620c0a08f8a0001, .nextt (fs 4 5 6 1 3)),
   (0x620c0a08fc00001, .ckick (fs 4 5 6 1 3)),
   (0x620c0a08fc10001, .cbset (fs 4 5 6 1 3)),
   (0x620c0a08fc20001, .cbwait (fs 4 5 6 1 3)),
   (0x620c0a08fc30001, .cqfence (fs 4 5 6 1 3)),
   (0x620c0a08fc40001, .tdep (fs 4 5 6 1 3)),
   (0x620c0a08fc50001, .tcpy (fs 4 5 6 1 3)),
   (0x620c0b04fc50001, .tcpyWait (fs 130 5 6 1 3)),
   (0x620c0a08fc60001, .ttak (fs 4 5 6 1 3)),
   (0x620c0b04fc60001, .ttakWait (fs 130 5 6 1 3)),
   (0x620c0a08fc80001, .sxinit (fs 4 5 6 1 3)),
   (0x620c0a08fc90001, .sxapp (fs 4 5 6 1 3)),
   (0x620c0a08fca0001, .sxqry (fs 4 5 6 1 3)),
   (0x620c0a08fcb0001, .sxtrim (fs 4 5 6 1 3)),
   (0x620c0a08fcc0001, .sxsave (fs 4 5 6 1 3)),
   (0x620c0a08fcd0001, .sxload (fs 4 5 6 1 3)),
   (0x620c0a08fd00001, .dsweep (fs 4 5 6 1 3)),
   (0x620c0a08fd10001, .pgrecall (fs 4 5 6 1 3)),
   (0x620c0a08fd20001, .pgpin (fs 4 5 6 1 3)),
   (0x620c0a08fd30001, .pgunpin (fs 4 5 6 1 3)),
   (0x620c0a08fd40001, .pgdemote (fs 4 5 6 1 3)),
   (0x620c0a08fd80001, .launch (fs 4 5 6 1 3)),
   (0x620c0a08fdc0001, .ctokw (fs 4 5 6 1 3))] : List (BitVec 64 × Instr)) ++
  ([(0x620c0a08fdd0001, .ctokp (fs 4 5 6 1 3))] : List (BitVec 64 × Instr))

theorem test_engine_words : engineWords.all (fun p => decodeWord p.1 == p.2) = true := by decide +kernel
/-- Two halves (Table 3.9), from the dual word of the encoding examples; the payload of its CVT; an opcode no table lists. -/
theorem test_other_words :
    decodeWord 0x34C24D0C20408001 = .dualWord k1 ⟨0x00, 1, 2, 3⟩ ⟨0x0D, 9, 12, 13⟩ ∧
    decodeWord 0x020040204E800001 = .cvt (fa 2 1 2 0x10) ∧
    decodeWord 0x00000000004F0001 ≠ .unassignedOpcode 0x00000000004F0001 ∧
    decodeWord 0x0000000000290001 = .unassignedOpcode 0x0000000000290001 := by
  decide +kernel

/-- The fields of formats A and M that those words leave 0: XW, NF, NWB; LU, EP. -/
theorem test_flag_fields :
    decodeWord 0xE0000000000A0001 = .iminN32 ⟨k1, 0, false, 0, 0, 0, 0, true, true, true⟩ ∧
    decodeWord 0xE000000001040001 = .ldLane .w32 ⟨k1, 0, false, 0, 0, 0, 0, 3, true⟩ := by
  decide +kernel

/-! ## Worked values of the spec -/

/-- `base` with register n holding x in every lane. -/
def filled (l : List (Nat × Word)) : State :=
  baseWith (fun W => { W with v := l.flatMap (fun e => (List.range 32).map (fun k => (32 * e.1 + k, e.2))) })

/-- exec answers a next state, and its warp has p. -/
def after (s : State) (i : Instr) (p : Warp → Bool) : Bool :=
  match exec i s with
  | .next t => (t.warp? 1 0).any p
  | _ => false

/-- BLUT's worked case (R101), BFE.s32's (R102), SHL by 0x100 (R100). -/
theorem test_integer_examples :
    after (filled [(1, 0x00FF00FF), (2, 0x33333333), (4, 0x0F0F0F0F)]) (.blut (fa 4 1 2 0xAC)) (fun W => W.vRaw 4 31 == 0x303F303F) = true ∧
    after (filled [(1, 0x0000F3A0), (2, 0x0808)]) (.bfeS32 (fa 4 1 2 0)) (fun W => W.vRaw 4 0 == 0xFFFFFFF3) = true ∧
    after (filled [(2, 1), (3, 0x100)]) (.shl (fa 1 2 3 0)) (fun W => W.vRaw 1 7 == 0) = true := by
  decide +kernel

/-- The sum of a lane and itself wraps when the destination is the source. -/
theorem test_iadd_in_place : after (filled [(5, 0xFFFFFFFF)]) (.iadd (fa 5 5 5 0)) (fun W => W.vRaw 5 3 == 0xFFFFFFFE &&
    (W.thread 3).pc == 0x10008) = true := by
  decide +kernel

/-- Philox4x32-10 of a zero counter and a zero key (R132). -/
theorem test_rng4 : after base (.rng4 (fs 4 8 14 15 0)) (fun W => [4, 5, 6, 7].map (fun n => W.vRaw n 9) ==
    [0x6627E8D5, 0xE169C58D, 0xBC57AC4C, 0x9B00DBD8]) = true := by
  decide +kernel

/-- QBLK and DQBLK of E4M3: lanes 0 to 2 hold 300, −3 and 0.01 (the example of R119). -/
theorem test_qblk :
    after (baseWith (fun W => { W with v := [(32, 0x43960000), (33, 0xC0400000), (34, 0x3C23D70A)] })) (.qblk (fa 2 1 0 2))
      (fun W => [0, 1, 2, 3].map (W.vRaw 2) == [0x7F79, 0x7FC4, 0x7F05, 0x7F00]) = true ∧
    after (baseWith (fun W => { W with v := [(64, 0x7F79), (65, 0x7FC4), (66, 0x7F05)] })) (.dqblk (fa 3 2 0 2))
      (fun W => [0, 1, 2].map (W.vRaw 3) == [0x43900000, 0xC0400000, 0x3C200000]) = true := by
  decide +kernel

/-- RED.f32 and SCAN.f32 of 2²⁴, 1.0, 1.0 in lanes 0 to 2 alone (the example of R54). -/
theorem test_red_f32 :
    let s := baseWith (fun W => { W.modThreads 7 (fun t => { t with preds := 1 }) with
      v := [(5 * 32, 0x4B800000), (5 * 32 + 1, 0x3F800000), (5 * 32 + 2, 0x3F800000)] })
    after s (.redF32 { fa 4 5 0 0 with pred := 0 }) (fun W => W.vRaw 4 1 == 0x4B800000) = true ∧
    after s (.scanF32 { fa 4 5 0 0 with pred := 0 }) (fun W => W.vRaw 4 2 == 0x4B800000) = true := by
  decide +kernel

/-- TRAP 7 with a handler: cause USER, %trapaddr 7, H the run, %trapret the next word, the run at the handler; RET.h goes back
(the example that counts user traps). -/
theorem test_trap_and_return :
    after (handled base) (.trap (fi 0 0 7)) (fun W => W.trap.cause == 0x0C && W.trap.addr == 7 && W.handler == BitVec.allOnes 32 &&
      W.trap.ret == 0x10008 && (W.thread 0).pc == 0x20000) = true ∧
    after (baseWith (fun W => { W with handler := BitVec.allOnes 32, trap := { W.trap with ret := 0x30000 } })) (.retH (fs 0 0 0 15 1))
      (fun W => W.handler == 0 && (W.thread 31).pc == 0x30000) = true := by
  decide +kernel

/-- TRAP without a handler aborts the block. -/
theorem test_trap_without_handler :
    (match exec (.trap (fi 0 0 7)) base with
      | .next t => found t (fun B _ _ => B.halt == some (.abort 0x0C))
      | _ => false) = true := by
  decide +kernel

/-- R374's levels: T = 256, 15 blocks, 8 warps; lane 5 of warp 2 of block 8 has %logid 2,117. -/
theorem test_levels :
    levelsOf [0, 0x0004000000000000, 0x010000070000001F, 0x0500000213000004] = [0x0000001F, 0x01000007, 0x13000004, 0x05000002] ∧
    threadsPerBlock [0x0000001F, 0x01000007, 0x13000004, 0x05000002] = 256 ∧
    blockCount [0x0000001F, 0x01000007, 0x13000004, 0x05000002] = 15 := by
  decide +kernel

/-- R258's shares of 100 warps on three cores. -/
theorem test_shares : (sharesOf 100 3).map (·.2) = [34, 33, 33] := by decide

/-- Table 16.3's proposals. -/
theorem test_proposals :
    let c : List Word := [5, 7, 9, 2, 5, 7, 9, 4, 8, 5, 7, 9]
    sxPropose c 6 11 = (3, [4, 8, 5, 7, 9]) ∧ sxPropose (c.drop 6) 6 11 = (1, [4, 8, 5, 7, 9]) ∧
    sxPropose (c.drop 6) 3 11 = (1, [4, 8, 5]) ∧ sxPropose ((c.drop 6).take 4) 6 9 = (0, []) := by
  decide +kernel

/-- Table 10.3: the slices of a column walk on die 0. -/
theorem test_slices : ((List.range 10).map (fun i => homeSlice (0x2000 * i))) = [0, 2, 4, 6, 8, 10, 12, 14, 16, 18] := by decide +kernel

/-- SHA-512 of "abc" begins with ddaf35a193617abacc417349ae204131 (FIPS 180-4's example). -/
theorem test_sha512 : (leBytes 64 (sha512 [0x61, 0x62, 0x63]).toNat).take 16 =
    [0xDD, 0xAF, 0x35, 0xA1, 0x93, 0x61, 0x7A, 0xBA, 0xCC, 0x41, 0x73, 0x49, 0xAE, 0x20, 0x41, 0x31] := by decide +kernel

end Sys2Proof.Tests
end

section
/-!
The functions of Table 4.1 as the model computes them, on exact integers and on bits: each equals what the statement of the
integer words gives (R98 to R104).
-/
namespace Sys2Proof.Machine

/-! ## Numbers modulo 2^n -/

/-- An exact integer modulo 2^n, as a word of n bits. -/
theorem ofNat_modN (n : Nat) (x : Int) : BitVec.ofNat n (modN n x) = BitVec.ofInt n x := by
  apply BitVec.eq_of_toNat_eq
  rw [BitVec.toNat_ofNat, BitVec.toNat_ofInt, modN]
  refine Nat.mod_eq_of_lt ?_
  have hpos : (0 : Int) < (2 ^ n : Nat) := by positivity
  have := Int.emod_lt_of_pos x hpos
  have := Int.emod_nonneg x hpos.ne'
  omega

theorem word_eq_ofInt (x : Int) : word x = BitVec.ofInt 32 x := ofNat_modN 32 x

theorem dword_eq_ofInt (x : Int) : dword x = BitVec.ofInt 64 x := ofNat_modN 64 x

/-- The difference of two words is that of their numbers. -/
theorem sub_eq_ofInt {n : Nat} (a b : BitVec n) : a - b = BitVec.ofInt n (a.toNat - b.toNat) := by
  rw [Int.sub_eq_add_neg, BitVec.ofInt_add, BitVec.ofInt_neg, BitVec.ofInt_natCast, BitVec.ofInt_natCast]
  simp [BitVec.sub_eq_add_neg]

/-! ## Minima and maxima -/

theorem iminS_exact (a b : Word) : iminS a b = BitVec.ofInt 32 (min a.toInt b.toInt) := by
  unfold iminS
  split
  · next h => rw [min_eq_left h, BitVec.ofInt_toInt]
  · next h => rw [min_eq_right (not_le.mp h).le, BitVec.ofInt_toInt]

theorem iminN_exact (a b : Word) : iminN a b = BitVec.ofNat 32 (min a.toNat b.toNat) := by
  unfold iminN
  split
  · next h => rw [min_eq_left h]; simp
  · next h => rw [min_eq_right (not_le.mp h).le]; simp

theorem imaxS_exact (a b : Word) : imaxS a b = BitVec.ofInt 32 (max a.toInt b.toInt) := by
  unfold imaxS
  split
  · next h => rw [max_eq_right h, BitVec.ofInt_toInt]
  · next h => rw [max_eq_left (not_le.mp h).le, BitVec.ofInt_toInt]

theorem imaxN_exact (a b : Word) : imaxN a b = BitVec.ofNat 32 (max a.toNat b.toNat) := by
  unfold imaxN
  split
  · next h => rw [max_eq_right h]; simp
  · next h => rw [max_eq_left (not_le.mp h).le]; simp

/-! ## High products and magnitudes -/

theorem imulhN_exact (a b : Word) : imulhN a b = BitVec.ofNat 32 (a.toNat * b.toNat / 2 ^ 32) := by
  rw [imulhN, word_eq_ofInt, BitVec.ofInt_natCast]

theorem iabs32_exact (a : Word) : iabs32 a = BitVec.ofNat 32 a.toInt.natAbs := by
  rw [iabs32, word_eq_ofInt, BitVec.ofInt_natCast]

/-! ## Shifts (R100) -/

/-- A shift left is a product by a power of two, whatever the count. -/
theorem shl32_exact (a b : Word) : shl32 a b = BitVec.ofNat 32 (a.toNat * 2 ^ b.toNat) := by
  unfold shl32
  split
  · exact BitVec.eq_of_toNat_eq (by simp [Nat.shiftLeft_eq])
  · next h =>
    have hd : 2 ^ 32 ∣ a.toNat * 2 ^ b.toNat := (pow_dvd_pow 2 (not_lt.mp h)).mul_left _
    exact BitVec.eq_of_toNat_eq (by rw [BitVec.toNat_ofNat, Nat.mod_eq_zero_of_dvd hd]; rfl)

theorem shr32_exact (a b : Word) : shr32 a b = BitVec.ofNat 32 (a.toNat / 2 ^ b.toNat) := by
  unfold shr32
  split
  · refine BitVec.eq_of_toNat_eq ?_
    rw [BitVec.toNat_ushiftRight, Nat.shiftRight_eq_div_pow, BitVec.toNat_ofNat,
      Nat.mod_eq_of_lt ((Nat.div_le_self _ _).trans_lt a.isLt)]
  · next h =>
    have hlt : a.toNat < 2 ^ b.toNat := a.isLt.trans_le (Nat.pow_le_pow_right two_pos (not_lt.mp h))
    rw [Nat.div_eq_of_lt hlt]; rfl

theorem sar32_exact (a b : Word) : sar32 a b = BitVec.ofInt 32 (a.toInt / 2 ^ min b.toNat 31) := by
  rw [sar32, BitVec.sshiftRight, Int.shiftRight_eq_div_pow]
  push_cast
  rfl

/-- Bit i of a rotation left by b is bit i - b, modulo 32. -/
theorem rot32_exact (a b : Word) : rot32 a b = maskOf (fun i => a.getLsbD ((i + 32 - b.toNat % 32) % 32)) := by
  refine eq_maskOf fun i hi => ?_
  rw [rot32, BitVec.getLsbD_rotateLeft, Nat.mod_mod]
  have hr : b.toNat % 32 < 32 := Nat.mod_lt _ (by decide)
  generalize b.toNat % 32 = r at hr
  by_cases h : i < r
  · simp only [h, decide_true, cond_true]
    congr 1; omega
  · simp only [h, hi, decide_true, decide_false, cond_false, Bool.true_and]
    congr 1; omega

/-! ## Bits (R101, Table 4.1): NOT, AND, OR and XOR bit by bit, counts of ones and of leading zeros -/

theorem and_eq_maskOf (a b : Word) : a &&& b = maskOf (fun i => a.getLsbD i && b.getLsbD i) :=
  eq_maskOf fun _ _ => BitVec.getLsbD_and

theorem or_eq_maskOf (a b : Word) : a ||| b = maskOf (fun i => a.getLsbD i || b.getLsbD i) :=
  eq_maskOf fun _ _ => BitVec.getLsbD_or

theorem xor_eq_maskOf (a b : Word) : a ^^^ b = maskOf (fun i => a.getLsbD i != b.getLsbD i) :=
  eq_maskOf fun _ _ => BitVec.getLsbD_xor

theorem not_eq_maskOf (a : Word) : ~~~a = maskOf (fun i => !a.getLsbD i) :=
  eq_maskOf fun i hi => by simp [hi]

theorem popc32_exact (a : Word) : popc32 a = BitVec.ofNat 32 ((List.range 32).countP (fun i => a.getLsbD i)) := by
  rw [popc32, List.countP_eq_length_filter]

/-- The length of the longest front of 0, 1, … below n on which p holds, when k is the first where it fails. -/
theorem length_takeWhile_range {n k : Nat} {p : Nat → Bool} (hk : k < n) (hp : p k = false) (hlt : ∀ j < k, p j = true) :
    ((List.range n).takeWhile p).length = k := by
  have hi : (List.range n).findIdx (fun i => !p i) = k := by
    rw [List.findIdx_eq (by simpa using hk)]
    simp only [List.getElem_range]
    exact ⟨by simp [hp], fun j hj => by simp [hlt j hj]⟩
  rw [List.takeWhile_eq_take_findIdx_not, hi, List.length_take, List.length_range, Nat.min_eq_left hk.le]

/-- The leading zeros of a word other than 0 stand above its highest set bit, whose place is the base-two logarithm. -/
theorem clz32_exact (a : Word) : clz32 a = if a = 0 then 32 else BitVec.ofNat 32 (31 - a.toNat.log2) := by
  split
  · next h => subst h; rfl
  · next h =>
    have hne : a.toNat ≠ 0 := fun h0 => h (BitVec.eq_of_toNat_eq h0)
    have hlog : a.toNat.log2 < 32 := (Nat.log2_lt hne).mpr a.isLt
    rw [clz32, length_takeWhile_range (k := 31 - a.toNat.log2) (by omega)]
    · have : 31 - (31 - a.toNat.log2) = a.toNat.log2 := by omega
      simp [this, BitVec.getLsbD, Nat.testBit_log2 hne]
    · intro j hj
      have : a.toNat < 2 ^ (31 - j) := (Nat.log2_lt hne).mp (by omega)
      simp [BitVec.getLsbD, Nat.testBit_lt_two_pow this]

/-! ## Bit fields (R102) -/

theorem bfPos_eq (x : Word) : bfPos x = x.toNat % 256 := by simp [bfPos, bitsN]

theorem bfLen_eq (x : Word) : bfLen x = min (x.toNat / 256 % 256) 32 := by simp [bfLen, bitsN]

/-- The unsigned field: 0 past its length and past bit 31. -/
theorem bfe32_unsigned (a x : Word) : bfe32 false a x =
    maskOf (fun i => decide (i < bfLen x) && decide (bfPos x + i < 32) && a.getLsbD (bfPos x + i)) := by
  unfold bfe32
  split
  · next h => exact eq_maskOf fun i _ => by simp [h]
  · refine congrArg maskOf (funext fun i => ?_)
    by_cases hi : i < bfLen x <;> by_cases hp : bfPos x + i < 32 <;> simp [bfeBit, hi, hp]

/-- The signed field: its own top bit, or the word's, fills what lies past it. -/
theorem bfe32_signed (a x : Word) : bfe32 true a x =
    if bfLen x = 0 then 0 else maskOf (fun i => a.getLsbD (min (bfPos x + min i (bfLen x - 1)) 31)) := by
  have hbit : ∀ i, bfeBit true a x i = a.getLsbD (min (bfPos x + i) 31) := by
    intro i
    unfold bfeBit
    by_cases h : bfPos x + i < 32
    · simp only [h, if_true]; congr 1; omega
    · simp only [h, if_false, Bool.true_and]; congr 1; omega
  unfold bfe32
  split
  · rfl
  · refine congrArg maskOf (funext fun i => ?_)
    by_cases hi : i < bfLen x
    · rw [if_pos hi, hbit, Nat.min_eq_left (by omega : i ≤ bfLen x - 1)]
    · rw [if_neg hi, Bool.true_and, hbit, Nat.min_eq_right (by omega : bfLen x - 1 ≤ i)]

theorem bfi32_exact (a b x : Word) : bfi32 a b x =
    maskOf (fun k => if bfPos x ≤ k ∧ k < bfPos x + bfLen x then b.getLsbD (k - bfPos x) else a.getLsbD k) := by
  simp only [bfi32, ofBits32, Bool.and_eq_true, decide_eq_true_eq]

/-! ## Immediates (R100, Table 4.3): zero-extended for logic and shifts, sign-extended for sums and products -/

theorem toNat_extended (x : BitVec 19) : (x.setWidth 32).toNat = x.toNat :=
  BitVec.toNat_setWidth_of_le (by decide)

theorem shl32_extended (a : Word) (x : BitVec 19) : shl32 a (x.setWidth 32) = BitVec.ofNat 32 (a.toNat * 2 ^ x.toNat) := by
  rw [shl32_exact, toNat_extended]

theorem shr32_extended (a : Word) (x : BitVec 19) : shr32 a (x.setWidth 32) = BitVec.ofNat 32 (a.toNat / 2 ^ x.toNat) := by
  rw [shr32_exact, toNat_extended]

theorem sar32_extended (a : Word) (x : BitVec 19) :
    sar32 a (x.setWidth 32) = BitVec.ofInt 32 (a.toInt / 2 ^ min x.toNat 31) := by
  rw [sar32_exact, toNat_extended]

theorem getLsbD_extended (x : BitVec 19) {i : Nat} (hi : i < 32) : (x.setWidth 32).getLsbD i = x.getLsbD i := by
  simp [hi]

theorem and_extended (a : Word) (x : BitVec 19) :
    a &&& x.setWidth 32 = maskOf (fun i => a.getLsbD i && x.getLsbD i) :=
  eq_maskOf fun _ hi => by rw [BitVec.getLsbD_and, getLsbD_extended x hi]

theorem or_extended (a : Word) (x : BitVec 19) :
    a ||| x.setWidth 32 = maskOf (fun i => a.getLsbD i || x.getLsbD i) :=
  eq_maskOf fun _ hi => by rw [BitVec.getLsbD_or, getLsbD_extended x hi]

theorem xor_extended (a : Word) (x : BitVec 19) :
    a ^^^ x.setWidth 32 = maskOf (fun i => a.getLsbD i != x.getLsbD i) :=
  eq_maskOf fun _ hi => by rw [BitVec.getLsbD_xor, getLsbD_extended x hi]

theorem add_signExtended (a : Word) (x : BitVec 19) : a + x.signExtend 32 = BitVec.ofInt 32 (a.toInt + x.toInt) := by
  rw [BitVec.ofInt_add, BitVec.ofInt_toInt]; rfl

theorem mul_signExtended (a : Word) (x : BitVec 19) : a * x.signExtend 32 = BitVec.ofInt 32 (a.toInt * x.toInt) := by
  rw [BitVec.ofInt_mul, BitVec.ofInt_toInt]; rfl

/-! ## 64-bit results (R99, R103) -/

/-- A shift left of an exact integer modulo 2^n. -/
theorem ofInt_shiftLeft (n : Nat) (y : Int) (k : Nat) : BitVec.ofInt n y <<< k = BitVec.ofInt n (y * 2 ^ k) := by
  have hk : BitVec.twoPow n k = BitVec.ofInt n (2 ^ k : Nat) := by
    rw [BitVec.ofInt_natCast]
    exact BitVec.eq_of_toNat_eq (by rw [BitVec.toNat_twoPow, BitVec.toNat_ofNat])
  rw [BitVec.shiftLeft_eq_mul_twoPow, hk, ← BitVec.ofInt_mul]
  push_cast
  rfl

theorem imadwS_exact (a b : Word) (c : Dword) :
    dword (a.toInt * b.toInt + (c.toNat : Int)) = BitVec.ofInt 64 (a.toInt * b.toInt + c.toInt) := by
  rw [dword_eq_ofInt, BitVec.ofInt_add, BitVec.ofInt_add, BitVec.ofInt_natCast, BitVec.ofNat_toNat, BitVec.setWidth_eq,
    BitVec.ofInt_toInt]

/-- R103: the offset, sign- or zero-extended, shifted and added. -/
theorem lea_exact (a : Dword) (b : Word) (signed : Bool) (k : Nat) :
    a + (if signed then b.signExtend 64 else b.setWidth 64) <<< k =
      BitVec.ofInt 64 (a.toInt + (if signed then b.toInt else b.toNat) * 2 ^ k) := by
  have hb : (if signed then b.signExtend 64 else b.setWidth 64) =
      BitVec.ofInt 64 (if signed then b.toInt else b.toNat) := by
    cases signed with
    | false => rw [if_neg Bool.false_ne_true, if_neg Bool.false_ne_true, BitVec.ofInt_natCast, BitVec.ofNat_toNat]
    | true => rfl
  rw [hb, ofInt_shiftLeft, BitVec.ofInt_add, BitVec.ofInt_toInt]

end Sys2Proof.Machine
end

section
/-!
The integer and logic words (Table 4.1): each issues with its exact value.
-/
namespace Sys2Proof.Machine

/-- Words that write and push equal 32-bit results are issued alike. -/
theorem issue_putPush_congr {i : Instr} {s : State} {lat : Nat} {dst : BitVec 8} {g g' : Iss → Nat → Word}
    (h : ∀ c l, g c l = g' c l) : issue i (putPush lat dst g) s = issue i (putPush lat dst g') s := by
  rw [show g = g' from funext fun c => funext (h c)]

theorem issue_putPush64_congr {i : Instr} {s : State} {lat : Nat} {dst : BitVec 8} {g g' : Iss → Nat → Dword}
    (h : ∀ c l, g c l = g' c l) : issue i (putPush64 lat dst g) s = issue i (putPush64 lat dst g') s := by
  rw [show g = g' from funext fun c => funext (h c)]

/-- R104: the model asks that the predicate differ from its negation bit, the statement that the two agree. -/
theorem ite_bne_eq {α : Type} (p q : Bool) (a b : α) : (if p != q then a else b) = if p = q then b else a := by
  cases p <;> cases q <;> rfl

/-! ## IADD, ISUB and MOV by their size field (Table 4.2, R122) -/

theorem exec_iadd_word {f : FmtA} (h : f.sc = 0) (s : State) :
    exec (.iadd f) s = issue (.iadd f) (alu2 f (· + ·)) s := by
  show execIadd f s = _
  simp [execIadd, h]

theorem exec_iadd_saturating {f : FmtA} (h : f.sc = 2) (s : State) :
    exec (.iadd f) s = issue (.iadd f) (alu2 f (fun a b => clampS32 (a.toInt + b.toInt))) s := by
  show execIadd f s = _
  simp [execIadd, h]

theorem exec_iadd_pair {f : FmtA} (h : f.sc = 1) (s : State) :
    exec (.iadd f) s = issue (.iadd f) (putPush64 4 f.dst (fun c l => c.src64 f.sa l + c.srcB64 f l)) s := by
  show execIadd f s = _
  simp [execIadd, h]

theorem exec_isub_word {f : FmtA} (h : f.sc = 0) (s : State) :
    exec (.isub f) s = issue (.isub f) (alu2 f (· - ·)) s := by
  show execIsub f s = _
  simp [execIsub, h]

theorem exec_isub_saturating {f : FmtA} (h : f.sc = 2) (s : State) :
    exec (.isub f) s = issue (.isub f) (alu2 f (fun a b => clampS32 (a.toInt - b.toInt))) s := by
  show execIsub f s = _
  simp [execIsub, h]

theorem exec_isub_pair {f : FmtA} (h : f.sc = 1) (s : State) :
    exec (.isub f) s = issue (.isub f) (putPush64 4 f.dst (fun c l => c.src64 f.sa l - c.srcB64 f l)) s := by
  show execIsub f s = _
  simp [execIsub, h]

theorem exec_mov_word {f : FmtA} (h : f.sc = 0) (s : State) :
    exec (.mov f) s = issue (.mov f) (putPush 4 f.dst (fun c l => c.src f.sa l)) s := by
  show execMov f s = _
  simp [execMov, h]

theorem exec_mov_pair {f : FmtA} (h : f.sc = 1) (s : State) :
    exec (.mov f) s = issue (.mov f) (putPush64 4 f.dst (fun c l => c.src64 f.sa l)) s := by
  show execMov f s = _
  simp [execMov, h]

/-! ## The words of Table 4.1 -/

/-- Each word with a 32-bit result issues with the exact value of Table 4.1 as its own. -/
theorem exec_of_integerValue {i : Instr} {dst : BitVec 8} {g : Iss → Nat → Word} (h : integerValue i = some (dst, g))
    (s : State) : exec i s = issue i (putPush 4 dst g) s := by
  cases i with
  | iadd f =>
    simp only [integerValue] at h
    split_ifs at h with h0 h2 <;> cases h
    · exact (exec_iadd_word h0 s).trans (issue_putPush_congr fun _ _ => BitVec.add_def _ _)
    · exact (exec_iadd_saturating h2 s).trans (issue_putPush_congr fun _ _ => word_eq_ofInt _)
  | isub f =>
    simp only [integerValue] at h
    split_ifs at h with h0 h2 <;> cases h
    · exact (exec_isub_word h0 s).trans (issue_putPush_congr fun _ _ => sub_eq_ofInt _ _)
    · exact (exec_isub_saturating h2 s).trans (issue_putPush_congr fun _ _ => word_eq_ofInt _)
  | iadd3 f => cases h; exact issue_putPush_congr fun _ _ => by simp [BitVec.ofNat_add]
  | imul f => cases h; exact issue_putPush_congr fun _ _ => BitVec.mul_def
  | imulhS32 f => cases h; exact issue_putPush_congr fun _ _ => word_eq_ofInt _
  | imulhN32 f => cases h; exact issue_putPush_congr fun _ _ => imulhN_exact _ _
  | imad f => cases h; exact issue_putPush_congr fun _ _ => by simp [BitVec.ofNat_add, BitVec.ofNat_mul]
  | iminS32 f => cases h; exact issue_putPush_congr fun _ _ => iminS_exact _ _
  | iminN32 f => cases h; exact issue_putPush_congr fun _ _ => iminN_exact _ _
  | imaxS32 f => cases h; exact issue_putPush_congr fun _ _ => imaxS_exact _ _
  | imaxN32 f => cases h; exact issue_putPush_congr fun _ _ => imaxN_exact _ _
  | iabs f => cases h; exact issue_putPush_congr fun _ _ => iabs32_exact _
  | shl f => cases h; exact issue_putPush_congr fun _ _ => shl32_exact _ _
  | shr f => cases h; exact issue_putPush_congr fun _ _ => shr32_exact _ _
  | sar f => cases h; exact issue_putPush_congr fun _ _ => sar32_exact _ _
  | rot f => cases h; exact issue_putPush_congr fun _ _ => rot32_exact _ _
  | andR f => cases h; exact issue_putPush_congr fun _ _ => and_eq_maskOf _ _
  | orR f => cases h; exact issue_putPush_congr fun _ _ => or_eq_maskOf _ _
  | xorR f => cases h; exact issue_putPush_congr fun _ _ => xor_eq_maskOf _ _
  | notR f => cases h; exact issue_putPush_congr fun _ _ => not_eq_maskOf _
  | blut f => cases h; rfl
  | popc f => cases h; exact issue_putPush_congr fun _ _ => popc32_exact _
  | clz f => cases h; exact issue_putPush_congr fun _ _ => clz32_exact _
  | brev f => cases h; rfl
  | bfeN32 f => cases h; exact issue_putPush_congr fun _ _ => by rw [bfe32_unsigned, bfPos_eq, bfLen_eq]
  | bfeS32 f => cases h; exact issue_putPush_congr fun _ _ => by rw [bfe32_signed, bfPos_eq, bfLen_eq]
  | bfi f => cases h; exact issue_putPush_congr fun _ _ => by rw [bfi32_exact, bfPos_eq, bfLen_eq]
  | sel f => cases h; exact issue_putPush_congr fun _ _ => ite_bne_eq _ _ _ _
  | iaddImm f => cases h; exact issue_putPush_congr fun _ _ => add_signExtended _ _
  | imulImm f => cases h; exact issue_putPush_congr fun _ _ => mul_signExtended _ _
  | andImm f => cases h; exact issue_putPush_congr fun _ _ => and_extended _ _
  | orImm f => cases h; exact issue_putPush_congr fun _ _ => or_extended _ _
  | xorImm f => cases h; exact issue_putPush_congr fun _ _ => xor_extended _ _
  | mov f =>
    simp only [integerValue] at h
    split_ifs at h with h0
    cases h
    exact exec_mov_word h0 s
  | movi f => cases h; rfl
  | shlImm f => cases h; exact issue_putPush_congr fun _ _ => shl32_extended _ _
  | shrImm f => cases h; exact issue_putPush_congr fun _ _ => shr32_extended _ _
  | sarImm f => cases h; exact issue_putPush_congr fun _ _ => sar32_extended _ _
  | _ => cases h

/-- Each word with a 64-bit result issues with its exact value. -/
theorem exec_of_pairValue {i : Instr} {dst : BitVec 8} {g : Iss → Nat → Dword} (h : pairValue i = some (dst, g))
    (s : State) : exec i s = issue i (putPush64 4 dst g) s := by
  cases i with
  | iadd f =>
    simp only [pairValue] at h
    split_ifs at h with h1
    cases h
    exact (exec_iadd_pair h1 s).trans (issue_putPush64_congr fun _ _ => BitVec.add_def _ _)
  | isub f =>
    simp only [pairValue] at h
    split_ifs at h with h1
    cases h
    exact (exec_isub_pair h1 s).trans (issue_putPush64_congr fun _ _ => sub_eq_ofInt _ _)
  | imadwS32 f => cases h; exact issue_putPush64_congr fun _ _ => imadwS_exact _ _ _
  | imadwN32 f => cases h; exact issue_putPush64_congr fun _ _ => (dword_eq_ofInt _).trans (BitVec.ofInt_natCast ..)
  | lea f => cases h; exact issue_putPush64_congr fun _ _ => lea_exact _ _ _ _
  | mov f =>
    simp only [pairValue] at h
    split_ifs at h with h1
    cases h
    exact exec_mov_pair h1 s
  | _ => cases h

/-- Settles O1: every word issues with its exact value, and a word that only writes and pushes a value ends with that effect. -/
theorem integerWords : Obligations.IntegerWords := by
  unfold Obligations.IntegerWords
  exact ⟨fun s _ _ _ _ hv hc => Ends.alu hc (by decide) (exec_of_integerValue hv s),
    fun s _ _ _ _ hv hc => Ends.alu64 hc (by decide) (exec_of_pairValue hv s)⟩

end Sys2Proof.Machine
end

section
/-!
What leaves a warp's H and the threads parked behind the handler as they are: the barriers, the grid barrier and the token
that an exit may release (R19, R263, R363, R368).
-/
namespace Sys2Proof.Machine

/-! ## A warp whose H is known -/

/-- H of the warp is h, and when it is 0 no thread is parked behind the handler. -/
structure Warp.HandlerIs (h : Mask) (W : Warp) : Prop where
  handler : W.handler = h
  awake : h = 0 → ∀ l, (W.thread l).status ≠ .parked .handler

/-- A warp with the same H, no more threads of which are parked behind the handler. -/
theorem Warp.HandlerIs.of {h : Mask} {W V : Warp} (hW : W.HandlerIs h) (hh : V.handler = W.handler)
    (ht : ∀ l, (V.thread l).status = .parked .handler → (W.thread l).status = .parked .handler) : V.HandlerIs h :=
  ⟨hh.trans hW.handler, fun h0 l hp => hW.awake h0 l (ht l hp)⟩

/-- A warp with the same H and the same threads. -/
theorem Warp.HandlerIs.ofSame {h : Mask} {W V : Warp} (hW : W.HandlerIs h) (hh : V.handler = W.handler)
    (ht : V.threads = W.threads) : V.HandlerIs h :=
  hW.of hh fun l => by unfold Warp.thread; rw [ht]; exact id

theorem Warp.HandlerIs.wake {h : Mask} {W : Warp} (hW : W.HandlerIs h) (k : ParkKind) : (W.wake k).HandlerIs h := by
  refine hW.of (by rw [wake_frame]) fun l => ?_
  rw [thread_wake]
  split
  · intro hp; cases hp
  · exact id

theorem Warp.HandlerIs.wakeFrom {h : Mask} {W : Warp} (hW : W.HandlerIs h) (id : Nat) (c : Closing) :
    (W.wakeFrom id c).HandlerIs h := by
  unfold Warp.wakeFrom
  split
  · refine hW.of rfl fun l => ?_
    change ((W.modThreads _ _).thread l).status = _ → _
    rw [thread_modThreads]
    split
    · intro hp; cases hp
    · exact fun hp => hp
  · exact hW

theorem Warp.HandlerIs.modOp {h : Mask} {W : Warp} (hW : W.HandlerIs h) (id : Nat) (f : Op → Op) : (W.modOp id f).HandlerIs h :=
  hW.ofSame rfl rfl

theorem Warp.HandlerIs.afterIteration {h : Mask} {W : Warp} (hW : W.HandlerIs h) (n : Option Nat) :
    (W.afterIteration n).HandlerIs h := by
  cases n with
  | none => exact hW
  | some n => exact hW.ofSame rfl rfl

/-! ## Blocks -/

/-- Where the block has a warp w, its H is h. -/
def Block.HandlerIs (h : Mask) (w : Nat) (B : Block) : Prop := ∀ W, B.warp? w = some W → W.HandlerIs h

/-- From B to C: the block keeps its number, its warp w, and what is known of that warp's H. -/
structure Block.KeepsHandler (h : Mask) (w : Nat) (B C : Block) : Prop where
  uid : C.uid = B.uid
  there : w < B.warps.length → w < C.warps.length
  handler : B.HandlerIs h w → C.HandlerIs h w

theorem Block.KeepsHandler.refl (h : Mask) (w : Nat) (B : Block) : B.KeepsHandler h w B := ⟨rfl, id, id⟩

theorem Block.KeepsHandler.trans {h : Mask} {w : Nat} {B C D : Block} (h1 : B.KeepsHandler h w C) (h2 : C.KeepsHandler h w D) :
    B.KeepsHandler h w D :=
  ⟨h2.uid.trans h1.uid, h2.there ∘ h1.there, h2.handler ∘ h1.handler⟩

/-- A block that differs in other fields than its warps. -/
theorem Block.KeepsHandler.ofSame {h : Mask} {w : Nat} {B C : Block} (hu : C.uid = B.uid) (hw : C.warps = B.warps) :
    B.KeepsHandler h w C :=
  ⟨hu, by rw [hw]; exact id, fun hB W hW => hB W (by simpa only [Block.warp?, hw] using hW)⟩

theorem warp?_setWarp_block (B : Block) (V : Warp) (w : Nat) : (B.setWarp V).warp? w =
    if V.idx = w ∧ w < B.warps.length then some V else B.warp? w := by
  simp only [Block.warp?, Block.setWarp, List.getElem?_set]
  by_cases hw : V.idx = w
  · subst hw
    by_cases hl : V.idx < B.warps.length <;> simp [hl]
  · simp [hw]

theorem Block.KeepsHandler.setWarp {h : Mask} {w : Nat} (B : Block) {V : Warp} (hV : V.idx = w → V.HandlerIs h) :
    B.KeepsHandler h w (B.setWarp V) := by
  refine ⟨rfl, by simp [Block.setWarp], fun hB W hW => ?_⟩
  rw [warp?_setWarp_block] at hW
  split at hW
  · next hw => cases hW; exact hV hw.1
  · exact hB W hW

/-- Each warp changed by f, which keeps what is known of H. -/
theorem Block.KeepsHandler.mapWarps {h : Mask} {w : Nat} (B : Block) {f : Warp → Warp}
    (hf : ∀ W, W.HandlerIs h → (f W).HandlerIs h) : B.KeepsHandler h w { B with warps := B.warps.map f } := by
  refine ⟨rfl, by simp, fun hB V hV => ?_⟩
  simp only [Block.warp?, List.getElem?_map, Option.map_map, Option.map_eq_some_iff] at hV
  obtain ⟨W, hW, rfl⟩ := hV
  have hP : W.HandlerIs h := (hB { W with idx := w } (by simp [Block.warp?, hW])).ofSame rfl rfl
  exact (hf W hP).ofSame rfl rfl

/-- The same over the warps with their places. -/
theorem Block.KeepsHandler.mapWarpList {h : Mask} {w : Nat} (B : Block) {f : Warp → Warp}
    (hf : ∀ W, W.HandlerIs h → (f W).HandlerIs h) : B.KeepsHandler h w { B with warps := B.warpList.map f } := by
  refine ⟨rfl, by simp [Block.warpList], fun hB V hV => ?_⟩
  simp only [Block.warp?, Block.warpList, List.getElem?_map, List.getElem?_zipIdx, Option.map_map, Option.map_eq_some_iff] at hV
  obtain ⟨W, hW, rfl⟩ := hV
  have hP : W.HandlerIs h := (hB { W with idx := w } (by simp [Block.warp?, hW])).ofSame rfl rfl
  exact (hf { W with idx := 0 + w } (hP.ofSame rfl rfl)).ofSame rfl rfl

/-- A warp of the list is the block's at its place. -/
theorem warp?_of_mem_warpList {B : Block} {W : Warp} (hW : W ∈ B.warpList) : B.warp? W.idx = some W := by
  simp only [Block.warpList, List.mem_map, List.mem_zipIdx_iff_getElem?] at hW
  obtain ⟨⟨V, i⟩, hV, rfl⟩ := hW
  simp only at hV
  simp [Block.warp?, hV]

/-- Registering arrivals changes no thread and no H. -/
theorem Block.KeepsHandler.registerAt {h : Mask} {w : Nat} (id : Nat) {B : Block} (hB : B.HandlerIs h w) :
    B.KeepsHandler h w (registerAt id B) := by
  unfold Machine.registerAt
  refine List.foldlRecOn (motive := fun C => B.KeepsHandler h w C) _ _ (.refl h w B) fun C hC W hW => ?_
  dsimp only
  split
  · refine hC.trans ((Block.KeepsHandler.setWarp C fun hw => ?_).trans (.ofSame rfl rfl))
    subst hw
    exact (hB W (warp?_of_mem_warpList hW)).ofSame rfl rfl
  · exact hC

/-! ## States -/

/-- Block b has a warp w, and H of the warp is h. -/
structure State.HandlerIs (h : Mask) (b w : Nat) (s : State) : Prop where
  there : ∃ B, s.block? b = some B ∧ w < B.warps.length
  handler : ∀ B ∈ s.blocks, B.uid = b → B.HandlerIs h w

section
variable {h : Mask} {b w : Nat} {s t : State}

theorem State.HandlerIs.warp? (hs : s.HandlerIs h b w) : ∃ V, s.warp? b w = some V ∧ V.HandlerIs h := by
  obtain ⟨B, hB, hw⟩ := hs.there
  obtain ⟨V, hV⟩ := Option.isSome_iff_exists.mp (warp?_isSome.mpr hw)
  exact ⟨V, by simp [State.warp?, hB, hV], hs.handler B (List.mem_of_find?_eq_some hB) (block?_uid hB) V hV⟩

/-- A block that is found is among the state's. -/
theorem State.HandlerIs.ofBlock? (hs : s.HandlerIs h b w) {B : Block} (hB : s.block? b = some B) : B.HandlerIs h w :=
  hs.handler B (List.mem_of_find?_eq_some hB) (block?_uid hB)

/-- Each block changed by g, which keeps what is known of the H of block b's warp. -/
theorem State.HandlerIs.mapBlocks (hs : s.HandlerIs h b w) {g : Block → Block} (ht : t.blocks = s.blocks.map g)
    (hu : ∀ B, (g B).uid = B.uid) (hg : ∀ B ∈ s.blocks, B.uid = b → B.HandlerIs h w → B.KeepsHandler h w (g B)) :
    t.HandlerIs h b w := by
  obtain ⟨B, hB, hw⟩ := hs.there
  have hm := List.mem_of_find?_eq_some hB
  have hk := fun C hC hCb => hg C hC hCb (hs.handler C hC hCb)
  refine ⟨⟨g B, ?_, (hk B hm (block?_uid hB)).there hw⟩, ?_⟩
  · have hp : (fun x : Block => x.uid == b) ∘ g = fun x => x.uid == b := funext fun C => by simp [hu C]
    unfold State.block? at hB ⊢
    rw [ht, List.find?_map, hp, hB]; rfl
  · intro C hC hCb
    rw [ht, List.mem_map] at hC
    obtain ⟨D, hD, rfl⟩ := hC
    have hDb : D.uid = b := (hu D).symm.trans hCb
    exact (hk D hD hDb).handler (hs.handler D hD hDb)

/-- A state with the same blocks. -/
theorem State.HandlerIs.ofSame (hs : s.HandlerIs h b w) (ht : t.blocks = s.blocks) : t.HandlerIs h b w :=
  hs.mapBlocks (g := id) (by rw [ht, List.map_id]) (fun _ => rfl) fun B _ _ _ => .refl h w B

theorem State.HandlerIs.modBlock (hs : s.HandlerIs h b w) (c : Nat) {f : Block → Block} (hu : ∀ B, (f B).uid = B.uid)
    (hf : ∀ B : Block, B.HandlerIs h w → B.KeepsHandler h w (f B)) : (s.modBlock c f).HandlerIs h b w := by
  refine hs.mapBlocks rfl (fun B => ?_) fun B _ _ hB => ?_
  · split
    · exact hu B
    · rfl
  · split
    · exact hf B hB
    · exact .refl h w B

/-- Putting a warp into the blocks of a number: where it is block b's warp w, its H must be known. -/
theorem State.HandlerIs.setWarp (hs : s.HandlerIs h b w) (c : Nat) {V : Warp} (hV : c = b → V.idx = w → V.HandlerIs h) :
    (s.setWarp c V).HandlerIs h b w := by
  refine hs.mapBlocks rfl (fun B => ?_) fun B _ hB _ => ?_
  · split <;> rfl
  · split
    · next hc => exact .setWarp B (hV (hc.symm.trans hB))
    · exact .refl h w B

/-- The warp found at an index of a block, changed in place. -/
theorem State.HandlerIs.putWarp (hs : s.HandlerIs h b w) {c u : Nat} {V V' : Warp} (hV : s.warp? c u = some V)
    (hi : V'.idx = V.idx) (hh : V.HandlerIs h → V'.HandlerIs h) : (s.setWarp c V').HandlerIs h b w := by
  refine hs.setWarp c fun hc hu => hh ?_
  obtain ⟨B, hB, hBu⟩ := Option.bind_eq_some_iff.mp hV
  have hidx := (warp?_idx hBu).1
  rw [hi, hidx] at hu
  subst hc hu
  exact hs.ofBlock? hB V hBu

theorem State.HandlerIs.modWarp (hs : s.HandlerIs h b w) (c u : Nat) {f : Warp → Warp} (hi : ∀ W, (f W).idx = W.idx)
    (hf : ∀ W, W.HandlerIs h → (f W).HandlerIs h) : (s.modWarp c u f).HandlerIs h b w := by
  unfold State.modWarp
  split
  · next W hW => exact hs.putWarp hW (hi W) (hf W)
  · exact hs

/-- Putting a block back, changed so that what is known of H stays. -/
theorem State.HandlerIs.setBlock (hs : s.HandlerIs h b w) {B C : Block} (hB : s.block? b = some B)
    (hC : B.KeepsHandler h w C) : (s.setBlock C).HandlerIs h b w := by
  obtain ⟨A, hA, hw⟩ := hs.there
  cases hA.symm.trans hB
  have hCw := hC.there hw
  have hCh := hC.handler (hs.ofBlock? hB)
  refine hs.mapBlocks rfl (fun D => ?_) fun D _ _ _ => ?_
  · split
    · next hu => exact hu.symm
    · rfl
  · split
    · next hu => exact ⟨hu.symm, fun _ => hCw, fun _ => hCh⟩
    · exact .refl h w D

/-- A block's own warp put back as V. -/
theorem State.HandlerIs.ofSetWarp {B : Block} {V : Warp} (hB : s.block? b = some B) (hw : V.idx < B.warps.length)
    (hV : V.HandlerIs h) : (s.setWarp b V).HandlerIs h b V.idx := by
  refine ⟨⟨_, block?_setWarp hB V, by simpa [Block.setWarp] using hw⟩, fun C hC hCb W hW => ?_⟩
  obtain ⟨D, -, rfl⟩ := List.mem_map.mp hC
  by_cases hD : D.uid = b
  · rw [if_pos hD, warp?_setWarp_block] at hW
    split at hW
    · cases hW; exact hV
    · next hl =>
      have hlen := (warp?_idx hW).2
      exact absurd ⟨rfl, hlen⟩ hl
  · rw [if_neg hD] at hCb
    exact absurd hCb hD

/-! ## Barriers (R263) -/

theorem State.HandlerIs.wakePhase (hs : s.HandlerIs h b w) (c id : Nat) (k : Closing) : (s.wakePhase c id k).HandlerIs h b w := by
  unfold State.wakePhase
  split
  · exact hs
  · apply State.HandlerIs.modBlock
    · exact hs.ofSame rfl
    · intro B; rfl
    · intro B _; exact .mapWarpList B fun W hW => hW.wakeFrom id k

theorem State.HandlerIs.wakePhases (hs : s.HandlerIs h b w) (c id : Nat) : (s.wakePhases c id).HandlerIs h b w := by
  unfold State.wakePhases
  split
  · exact hs
  · exact List.foldlRecOn (motive := fun s : State => s.HandlerIs h b w) _ _
      (hs.modBlock c (fun _ => rfl) fun B _ => .ofSame rfl rfl) fun s hs k _ => hs.wakePhase c id k

theorem registerAt_uid (id : Nat) (B : Block) : (registerAt id B).uid = B.uid := by
  unfold registerAt
  refine List.foldlRecOn (motive := fun C : Block => C.uid = B.uid) _ _ rfl fun C hC W _ => ?_
  dsimp only
  split <;> exact hC

theorem State.HandlerIs.settleBarrier (hs : s.HandlerIs h b w) (c id : Nat) : (s.settleBarrier c id).HandlerIs h b w := by
  refine State.HandlerIs.wakePhases ((hs.modBlock c (registerAt_uid id) fun B hB => .registerAt id hB).modBlock c ?_ ?_) c id
  · intro B; split <;> rfl
  · intro B _
    split
    · exact .ofSame rfl rfl
    · exact .refl h w B

theorem State.HandlerIs.settleBarriers (hs : s.HandlerIs h b w) (c : Nat) : (s.settleBarriers c).HandlerIs h b w := by
  unfold State.settleBarriers
  split
  · exact List.foldlRecOn (motive := fun s : State => s.HandlerIs h b w) _ _ hs fun s hs id _ => hs.settleBarrier c id
  · exact hs

/-! ## The grid barrier (R368) -/

theorem Block.KeepsHandler.gridWake (B : Block) (g : Sig) : B.KeepsHandler h w (B.gridWake g) := by
  refine (Block.KeepsHandler.mapWarps B fun W hW => ?_).trans (.ofSame rfl rfl)
  split
  · exact (hW.wake .gbar).ofSame rfl rfl
  · exact hW

theorem State.HandlerIs.gridRelease (hs : s.HandlerIs h b w) (L : Launch) : (s.gridRelease L).HandlerIs h b w := by
  refine hs.mapBlocks rfl (fun B => ?_) fun B _ _ _ => ?_
  · split <;> rfl
  · split
    · exact .gridWake B _
    · exact .refl h w B

theorem State.HandlerIs.gridCheck (hs : s.HandlerIs h b w) (l : Nat) : (s.gridCheck l).HandlerIs h b w := by
  unfold State.gridCheck
  split
  · exact hs
  · split
    · exact hs
    · dsimp only
      split
      · apply State.HandlerIs.gridRelease
        exact hs.ofSame rfl
      · exact hs

/-- The block with the grid arrivals registered that can be, at a phase: what `State.settleGrid` puts back first. -/
def Block.gridRegistered (B : Block) (ph : BitVec 16) : Block :=
  { B with warps := B.warps.map (fun W =>
      if W.registers W.grec && W.released W.grec.waits then { W with grec := ⟨W.grec.pend, 0, ph, []⟩ } else W) }

theorem Block.KeepsHandler.gridRegistered (B : Block) (ph : BitVec 16) : B.KeepsHandler h w (B.gridRegistered ph) := by
  refine .mapWarps B fun W hW => ?_
  split
  · exact hW.ofSame rfl rfl
  · exact hW

theorem State.HandlerIs.settleGrid (hs : s.HandlerIs h b w) : (s.settleGrid b).HandlerIs h b w := by
  unfold State.settleGrid
  split
  · exact hs
  · next B hB =>
    split
    · exact hs
    · next L n _ =>
      dsimp only
      generalize hph : BitVec.ofNat 16 (gbcPhase (tget 0 s.host.gbc n).toNat) = ph
      have hk := Block.KeepsHandler.gridRegistered (h := h) (w := w) B ph
      split
      · have hput := hs.setBlock hB (C := { B.gridRegistered ph with garr := true, gphase := ph }) (hk.trans (.ofSame rfl rfl))
        apply State.HandlerIs.gridCheck
        exact hput.ofSame rfl
      · exact hs.setBlock hB hk

/-! ## The commit token (R363) -/

theorem State.HandlerIs.acquire (hs : s.HandlerIs h b w) (c u : Nat) (g : Sig) : (s.acquire c u g).HandlerIs h b w := by
  unfold State.acquire
  split
  · exact hs
  · next V hV =>
    refine State.HandlerIs.putWarp ?_ hV rfl fun hh => ?_
    · exact hs.ofSame rfl
    · exact hh.ofSame rfl rfl

theorem State.HandlerIs.tokenArrive (hs : s.HandlerIs h b w) (L : Launch) (pos : Nat × Nat) (g : Sig) :
    (s.tokenArrive L pos g).HandlerIs h b w := by
  unfold State.tokenArrive
  split
  · exact hs.ofSame rfl
  · next B hB =>
    split
    · exact hs
    · next V hV =>
      split
      · apply State.HandlerIs.acquire
        refine State.HandlerIs.setWarp ?_ _ fun hc hu => ?_
        · exact hs.ofSame rfl
        · have hidx : pos.2 = w := (warp?_idx hV).1.symm.trans (by rwa [wake_frame] at hu)
          exact (hs.handler B (List.mem_of_find?_eq_some hB) hc V (hidx ▸ hV)).wake .token
      · exact hs.ofSame rfl

theorem State.HandlerIs.tokenPass (hs : s.HandlerIs h b w) (l : Nat) (g : Sig) : (s.tokenPass l g).HandlerIs h b w := by
  unfold State.tokenPass
  split
  · exact hs
  · split
    · exact hs
    · dsimp only
      split
      · exact hs.ofSame rfl
      · exact hs.tokenArrive _ _ g

theorem State.HandlerIs.settlePass (hs : s.HandlerIs h b w) (c u : Nat) : (s.settlePass c u).HandlerIs h b w := by
  unfold State.settlePass
  split
  · exact hs
  · next B hB =>
    split
    · exact hs
    · next V hV =>
      split
      · exact hs
      · have hW : s.warp? c u = some V := by rw [State.warp?, hB]; exact hV
        apply State.HandlerIs.tokenPass
        exact hs.putWarp hW rfl fun hh => hh.modOp _ _

theorem State.HandlerIs.enterPass (hs : s.HandlerIs h b w) (c u : Nat) (setf : Option Nat) (pc : BitVec 52) :
    (s.enterPass c u setf pc).HandlerIs h b w := by
  unfold State.enterPass
  split
  · exact hs
  · apply State.HandlerIs.settlePass
    refine State.HandlerIs.ofSame (State.HandlerIs.modWarp (s := { s with nextUid := s.nextUid + 1 }) ?_ c u ?_ ?_) rfl
    · exact hs.ofSame rfl
    · intro W; rfl
    · intro W hW; exact hW.ofSame rfl rfl

/-! ## What an exit releases (R19) -/

theorem State.HandlerIs.settle (hs : s.HandlerIs h b w) (u : Nat) : (s.settle b u).HandlerIs h b w :=
  ((hs.settleBarriers b).settleGrid).settlePass b u

theorem State.HandlerIs.close (hs : s.HandlerIs h b w) (c u : Nat) (iter : Option Nat) :
    (s.close c u iter).HandlerIs h b w := by
  cases iter with
  | none => exact hs
  | some n => exact hs.modWarp c u (fun V => afterIteration_idx V _) fun V hV => hV.afterIteration _

/-- What follows an exit, once the warp has left the handler, keeps what is known of its H. -/
theorem State.HandlerIs.afterExit {m : Mask} (hs : (s.modWarp b w (fun W => W.leaveHandler m)).HandlerIs h b w)
    (pc : BitVec 52) : (s.afterExit b w m pc).HandlerIs h b w := by
  unfold State.afterExit
  dsimp only
  split
  · split
    · exact (hs.enterPass _ _ _ _).settle w
    · exact hs.settle w
  · exact hs

end

/-! ## Leaving the handler (R136) -/

/-- H becomes 0: the threads parked behind the handler wake. -/
theorem leaveHandler_of_zero {W : Warp} {m : Mask} (h : W.handler &&& ~~~m = 0) :
    W.leaveHandler m = Warp.wake { W with handler := W.handler &&& ~~~m } .handler := if_pos h

/-- H stays: nothing but H changes. -/
theorem leaveHandler_of_ne {W : Warp} {m : Mask} (h : W.handler &&& ~~~m ≠ 0) :
    W.leaveHandler m = { W with handler := W.handler &&& ~~~m } := if_neg h

theorem leaveHandler_frame (W : Warp) (m : Mask) : W.leaveHandler m =
    { W with threads := (W.leaveHandler m).threads, handler := W.handler &&& ~~~m } := by
  by_cases h : W.handler &&& ~~~m = 0
  · rw [leaveHandler_of_zero h, wake_frame]
  · rw [leaveHandler_of_ne h]

theorem leaveHandler_handler (W : Warp) (m : Mask) : (W.leaveHandler m).handler = W.handler &&& ~~~m := by
  rw [leaveHandler_frame]

theorem leaveHandler_idx (W : Warp) (m : Mask) : (W.leaveHandler m).idx = W.idx := by rw [leaveHandler_frame]

/-- When H becomes 0, the threads parked behind the handler wake. -/
theorem thread_leaveHandler (W : Warp) (m : Mask) (l : Nat) : (W.leaveHandler m).thread l = { W.thread l with
    status := if W.handler &&& ~~~m = 0 ∧ (W.thread l).status = .parked .handler then .eligible
      else (W.thread l).status } := by
  by_cases h : W.handler &&& ~~~m = 0
  · rw [leaveHandler_of_zero h, thread_wake]
    change (if (W.thread l).status = .parked .handler then { W.thread l with status := .eligible } else W.thread l) = _
    split
    · next hp => simp [h, hp]
    · next hp => simp [hp]
  · rw [leaveHandler_of_ne h]
    simp only [h, false_and, if_false]
    rfl

/-- A warp that leaves the handler: H is what is left of it, and when that is 0 no thread stays parked behind it. -/
theorem Warp.HandlerIs.leaveHandler (W : Warp) (m : Mask) : (W.leaveHandler m).HandlerIs (W.handler &&& ~~~m) := by
  refine ⟨leaveHandler_handler W m, fun h0 l => ?_⟩
  rw [thread_leaveHandler]
  simp only [h0, true_and]
  split
  · exact TStatus.noConfusion
  · next hp => exact hp

end Sys2Proof.Machine
end

section
/-!
RET.h and EXIT (R136, R19).
-/
namespace Sys2Proof.Machine

/-! ## RET.h -/

/-- Bits 2:0 of an address are not 0 just when it is no multiple of 8. -/
theorem low3_ne_zero_iff {n : Nat} (x : BitVec n) : x.extractLsb' 0 3 ≠ 0 ↔ x.toNat % 8 ≠ 0 := by
  rw [ne_eq, ne_eq, ← BitVec.toNat_inj, BitVec.extractLsb'_toNat]
  simp

/-- R136: the effect of RET.h, in a warp that may return. -/
theorem retH_returns {s : State} {x : Slot} {f : FmtS} (h : Clear (.retH f) plainCheck s x)
    (hH : ¬(x.W.handler = 0 ∨ x.run &&& ~~~x.W.handler ≠ 0)) (hr : ¬x.W.trap.ret.toNat % 8 ≠ 0) :
    ∃ t, exec (.retH f) s = .next t ∧ x.Only s t (x.after s
      (((x.ctx s (.retH f) plainCheck none).W.goto x.run (fun _ => x.W.trap.ret)).leaveHandler x.run)) := by
  refine h.plainPuts (lit := none) rfl ?_ ?_
  · rw [leaveHandler_idx, goto_idx, ctx_idx]
  · have hrun : (x.ctx s (.retH f) plainCheck none).run = x.run := rfl
    rw [← low3_ne_zero_iff] at hr
    simp only [ctx_handler, ctx_trap, hrun, hH, decide_eq_true_eq, Bool.or_eq_true, if_false]
    exact if_neg hr

theorem retH_illegal {s : State} {x : Slot} {f : FmtS} (h : Clear (.retH f) plainCheck s x)
    (hH : x.W.handler = 0 ∨ x.run &&& ~~~x.W.handler ≠ 0) :
    exec (.retH f) s = .next (x.trapped s causeIllegal 0 0 0) := by
  refine h.plainTraps (lit := none) rfl ?_
  have hrun : (x.ctx s (.retH f) plainCheck none).run = x.run := rfl
  simp only [ctx_handler, hrun, hH, decide_eq_true_eq, Bool.or_eq_true, if_true]

theorem retH_misaligned {s : State} {x : Slot} {f : FmtS} (h : Clear (.retH f) plainCheck s x)
    (hH : ¬(x.W.handler = 0 ∨ x.run &&& ~~~x.W.handler ≠ 0)) (hr : x.W.trap.ret.toNat % 8 ≠ 0) :
    exec (.retH f) s = .next (x.trapped s causeMisalign 0 x.W.trap.ret.toNat x.run) := by
  refine h.plainTraps (lit := none) rfl ?_
  have hrun : (x.ctx s (.retH f) plainCheck none).run = x.run := rfl
  rw [← low3_ne_zero_iff] at hr
  simp only [ctx_handler, ctx_trap, hrun, hH, decide_eq_true_eq, Bool.or_eq_true, if_false]
  exact if_pos hr

/-- The threads RET.h leaves: those of the run at %trapret, and, when H becomes 0, those parked behind the handler awake. -/
theorem thread_goto_leaveHandler (W : Warp) (m : Mask) (ret : BitVec 52) (l : Nat) :
    ((W.goto m (fun _ => ret)).leaveHandler m).thread l = { W.thread l with
      pc := if m.getLsbD l = true then ret else (W.thread l).pc
      status := if W.handler &&& ~~~m = 0 ∧ (W.thread l).status = .parked .handler then .eligible
        else (W.thread l).status } := by
  rw [thread_leaveHandler, thread_goto]; rfl

/-! ## EXIT -/

/-- The warp whose threads of a mask have exited. -/
def Warp.exiting (W : Warp) (m : Mask) : Warp := W.modThreads m (fun t => { t with status := .exited })

theorem thread_exiting (W : Warp) (m : Mask) (l : Nat) : (W.exiting m).thread l = { W.thread l with
    status := if m.getLsbD l = true then .exited else (W.thread l).status } := by
  rw [Warp.exiting, thread_modThreads]
  split <;> rfl

theorem exiting_frame (W : Warp) (m : Mask) : W.exiting m = { W with threads := (W.exiting m).threads } :=
  modThreads_frame W m _

/-- R19: the outcome of EXIT. -/
theorem exec_exit {s : State} {x : Slot} {f : FmtS} (h : Clear (.exit f) plainCheck s x) :
    exec (.exit f) s = .next (x.closed s ((s.setWarp x.B.uid
      ((x.ctx s (.exit f) plainCheck none).W.exiting (x.ctx s (.exit f) plainCheck none).exec)).afterExit
        x.B.uid x.W.idx (x.ctx s (.exit f) plainCheck none).exec (x.ctx s (.exit f) plainCheck none).pc)) := by
  have hset := setWarp_setWarp s x.B.uid (V := x.warp s (.exit f) plainCheck none)
    (V' := (x.ctx s (.exit f) plainCheck none).W.exiting (x.ctx s (.exit f) plainCheck none).exec) rfl
  refine h.plainCloses (lit := none) rfl ?_
  rw [← hset]
  rfl

/-- R136: EXIT takes its threads out of H, and when H becomes 0 no thread of the warp stays parked behind the handler. -/
theorem exit_handlerIs {s : State} {x : Slot} {f : FmtS} (h : Clear (.exit f) plainCheck s x) :
    ∃ t, exec (.exit f) s = .next t ∧
      t.HandlerIs (x.W.handler &&& ~~~(x.ctx s (.exit f) plainCheck none).exec) x.B.uid x.W.idx := by
  refine ⟨_, exec_exit h, State.HandlerIs.close (.afterExit ?_ _) _ _ _⟩
  generalize hc : x.ctx s (.exit f) plainCheck none = c
  have hidx : (c.W.exiting c.exec).idx = x.W.idx := by rw [exiting_frame, ← hc, ctx_idx]
  have hH : (c.W.exiting c.exec).handler = x.W.handler := by rw [exiting_frame, ← hc, ctx_handler]
  have hB := current_block h.current
  have hW : (c.W.exiting c.exec).idx < x.B.warps.length := hidx ▸ current_warp h.current
  have hV := Warp.HandlerIs.leaveHandler (c.W.exiting c.exec) c.exec
  have hleft := State.HandlerIs.ofSetWarp hB ((leaveHandler_idx _ c.exec).symm ▸ hW) hV
  rw [← hidx, modWarp_setWarp hB hW (leaveHandler_idx _ _), ← hH]
  rwa [leaveHandler_idx] at hleft

/-- Settles O23: RET.h by its three outcomes; EXIT by what leaving the handler establishes and what its exit releases keeps. -/
theorem handlerReturnAndExit : Obligations.HandlerReturnAndExit := by
  unfold Obligations.HandlerReturnAndExit
  refine ⟨fun s x f h => ?_, fun s x f h => ?_, fun s x f h => ?_⟩
  · dsimp only
    split
    · next hH => exact retH_illegal h hH
    · next hH =>
      split
      · next hr => exact retH_misaligned h hH hr
      · next hr =>
        obtain ⟨t, ht, honly⟩ := retH_returns h hH hr
        have hV := leaveHandler_handler ((x.ctx s (.retH f) plainCheck none).W.goto x.run (fun _ => x.W.trap.ret)) x.run
        refine ⟨t, _, ht, honly, ?_, ?_, fun l => ?_⟩
        · rw [leaveHandler_frame, goto_frame]
        · rw [hV, goto_frame, ctx_handler]
        · rw [hV, thread_goto_leaveHandler, goto_frame]
  · obtain ⟨t, ht, hs⟩ := exit_handlerIs h
    obtain ⟨V, hV, hH⟩ := hs.warp?
    exact ⟨t, V, ht, hV, hH.handler, fun h0 l _ => hH.awake (hH.handler.symm.trans h0) l⟩
  · exact ⟨_, exec_exit h, exiting_frame _ _, thread_exiting _ _⟩

end Sys2Proof.Machine
end

section
/-!
Effects in sequence: a word that writes more than one place shows the effects of its writes.
-/
namespace Sys2Proof.Machine

/-! ## Effects in sequence -/

/-- One effect and then another: where both write, the later stands. -/
def Effect.andThen (e e' : Effect) : Effect where
  lanes n l := (e'.lanes n l).or (e.lanes n l)
  unis n := (e'.unis n).or (e.unis n)
  preds n l := (e'.preds n l).or (e.preds n l)
  fx l := e.fx l ||| e'.fx l
  push := e.push ++ e'.push
  due := e.due ++ e'.due

/-- Two effects one after the other, on no lane or uniform register both: the first leaves every contest with a flagged
operation as it was (R63), and the second the results of the first on their way. -/
theorem Warp.Shows.andThen {W V U : Warp} {e e' : Effect} (h : W.Shows V e) (h' : V.Shows U e')
    (hc : ∀ loc l, V.contested none loc l = W.contested none loc l) (hd : ∀ d ∈ e.due, U.due d.1 = V.due d.1)
    (hl : ∀ n l, e.lanes n l = none ∨ e'.lanes n l = none) (hu : ∀ n, e.unis n = none ∨ e'.unis n = none) :
    W.Shows U (e.andThen e') where
  frame := by rw [h'.frame, h.frame]
  lanes n l hl32 := by
    have h1 := h.lanes n l hl32
    have h2 := h'.lanes n l hl32
    simp only [Effect.andThen]
    cases he' : e'.lanes n l with
    | none =>
      rw [he'] at h2
      simp only at h2
      rw [Option.none_or, h2]
      exact h1
    | some y =>
      have he : e.lanes n l = none := (hl n l).resolve_right (by simp [he'])
      rw [he] at h1
      rw [he', hc] at h2
      simp only at h1 h2 ⊢
      rwa [← h1]
  unis n := by
    have h1 := h.unis n
    have h2 := h'.unis n
    simp only [Effect.andThen]
    cases he' : e'.unis n with
    | none =>
      rw [he'] at h2
      simp only at h2
      rw [Option.none_or, h2]
      exact h1
    | some y =>
      have he : e.unis n = none := (hu n).resolve_right (by simp [he'])
      rw [he] at h1
      rw [he', hc] at h2
      simp only at h1 h2 ⊢
      rwa [← h1]
  threads l := by rw [h'.threads l, h.threads l]
  preds n l hn := by
    rw [h'.preds n l hn, h.preds n l hn]
    simp only [Effect.andThen]
    cases e'.preds n l <;> rfl
  fx l := by rw [h'.fx l, h.fx l, BitVec.or_assoc]; rfl
  latches := by rw [h'.latches, h.latches]; exact (List.foldl_append ..).symm
  due d hm := by
    rcases List.mem_append.mp hm with hm | hm
    · rw [hd d hm, h.due d hm]
    · exact h'.due d hm

/-- The results on their way may be listed in any order. -/
theorem Warp.Shows.listed {W V : Warp} {e : Effect} (h : W.Shows V e) {due : List (Loc × Nat)} (hd : ∀ d ∈ due, d ∈ e.due) :
    W.Shows V { e with due := due } :=
  ⟨h.frame, h.lanes, h.unis, h.threads, h.preds, h.fx, h.latches, fun d hm => h.due d (hd d hm)⟩

/-! ## What a write leaves of the others -/

@[simp] theorem contested_putV (W : Warp) (fr lat : Nat) (d : BitVec 8) (m : Mask) (y : Nat → Word) (loc : Loc) (l : Nat) :
    (W.putV fr lat d m y).contested none loc l = W.contested none loc l := by
  unfold Warp.putV
  split
  · exact contested_writeV ..
  · rfl

@[simp] theorem contested_writeP (W : Warp) (lat n : Nat) (m : Mask) (y : Nat → Bool) (loc : Loc) (l : Nat) :
    (W.writeP lat n m y).contested none loc l = W.contested none loc l := by
  unfold Warp.writeP
  split
  · rfl
  · exact contested_noteWrite W (.pred n) m lat loc l

/-- A lane result leaves other results on their way as they are. -/
theorem due_putV_ne (W : Warp) (fr : Nat) {lat : Nat} (hl : lat ≠ 0) (d : BitVec 8) (m : Mask) (y : Nat → Word) {loc : Loc}
    (hn : loc ≠ .lane d.toNat) : (W.putV fr lat d m y).due loc = W.due loc := by
  unfold Warp.putV
  split
  · exact due_writeV_ne W fr lat d.toNat m y loc hn hl
  · rfl

theorem due_writeP_ne (W : Warp) {lat : Nat} (hl : lat ≠ 0) (n : Nat) (m : Mask) (y : Nat → Bool) {loc : Loc}
    (hn : loc ≠ .pred n) : (W.writeP lat n m y).due loc = W.due loc := by
  unfold Warp.writeP
  split
  · rfl
  · exact due_noteWrite_ne W hn m hl

theorem due_putW_ne (W : Warp) (fr : Nat) {lat : Nat} (hl : lat ≠ 0) (d : BitVec 8) (y : Word) {loc : Loc}
    (hn : loc ≠ .uni d.toNat) : (W.putW fr lat d y).due loc = W.due loc := by
  unfold Warp.putW
  split
  · exact due_noteWrite_ne W hn 1 hl
  · rfl

/-- A lane result and then a predicate. -/
theorem Warp.Shows.putVWriteP (W : Warp) (fr : Nat) {lat : Nat} (hl : lat ≠ 0) (dst : BitVec 8) (n : Nat) (m : Mask)
    (y : Nat → Word) (z : Nat → Bool) : W.Shows ((W.putV fr lat dst m y).writeP lat n m z)
      { Effect.lane lat dst m y with
        preds := toPred n m z
        due := (if dst.toNat < 0xF8 then [(.lane dst.toNat, lat)] else []) ++ (if n = 7 then [] else [(.pred n, lat)]) } := by
  have h := (Warp.Shows.putV W fr hl dst m y).andThen (Warp.Shows.writeP _ hl n m z) (by simp) (fun d hd => ?_)
    (fun _ _ => .inr rfl) (fun _ => .inr rfl)
  · simpa [Effect.andThen, Effect.lane, Effect.pred] using h
  · refine due_writeP_ne _ hl n m z fun hp => ?_
    simp only [Effect.lane] at hd
    split at hd <;> simp_all

/-- A predicate and then a uniform result. -/
theorem Warp.Shows.writePPutW (W : Warp) (fr : Nat) {lat : Nat} (hl : lat ≠ 0) (dst : BitVec 8) (n : Nat) (m : Mask)
    (y : Word) (z : Nat → Bool) : W.Shows ((W.writeP lat n m z).putW fr lat dst y)
      { Effect.uni lat dst y with
        preds := toPred n m z
        due := (if dst.toNat < 64 then [(.uni dst.toNat, lat)] else []) ++ (if n = 7 then [] else [(.pred n, lat)]) } := by
  have h := (Warp.Shows.writeP W hl n m z).andThen (Warp.Shows.putW _ fr hl dst y) (by simp) (fun d hd => ?_)
    (fun _ _ => .inl rfl) (fun _ => .inl rfl)
  · have h2 := h.listed (fun d hd => List.mem_append.mpr (List.mem_append.mp hd).symm)
    simpa [Effect.andThen, Effect.uni, Effect.pred] using h2
  · refine due_putW_ne _ fr hl dst y fun hp => ?_
    simp only [Effect.pred] at hd
    split at hd <;> simp_all

end Sys2Proof.Machine
end

section
/-!
The values of the collective words (R166 to R171), and the tree of R52 to R54 over the lanes.
-/
namespace Sys2Proof.Machine

/-! ## XLANE (R166) -/

theorem xlaneFrom_eq (f : FmtA) (c : Iss) (l : Nat) : xlaneFrom f c l = xlaneReads f c l := by
  have hw : bitsN f.sc.toNat 4 2 = f.sc.toNat / 4 % 8 := rfl
  have hb : ∀ w : Nat, l - l % w = l / w * w := fun w => by
    have := Nat.mod_add_div' l w; omega
  unfold xlaneFrom xlaneSource xlaneReads
  simp only [hw, hb]
  have hm : f.sc.toNat % 4 < 4 := Nat.mod_lt _ (by decide)
  generalize f.sc.toNat % 4 = mode at hm
  have hle := Nat.div_mul_le_self l (2 ^ (f.sc.toNat / 4 % 8))
  generalize 2 ^ (f.sc.toNat / 4 % 8) = w at hle ⊢
  generalize (c.src f.sb l).toNat = b
  generalize l / w * w = base at hle ⊢
  match mode with
  | 0 => rfl
  | 1 =>
    have : b ≤ l - base ↔ base + b ≤ l := by omega
    simp [this]
  | 2 =>
    have : b < base + w - l ↔ l + b < base + w := by omega
    simp [this]
  | 3 => rfl

/-! ## PCONS and PEERS (R167, R168) -/

theorem getLsbD_consMask (f : FmtA) (c : Iss) (l : Nat) :
    (consMask f c).getLsbD l = (c.exec.getLsbD l && (c.pred (f.sa.toNat % 8) l != f.sa.getLsbD 3)) := by
  rw [consMask, getLsbD_maskOf]
  by_cases hl : l < 32
  · simp [hl, Iss.predArg]
  · simp [hl, BitVec.getLsbD_of_ge c.exec l (not_lt.mp hl)]

/-- Two masks are equal when their 32 bits are. -/
theorem mask_eq_iff {a b : Mask} : a = b ↔ ∀ l, l < 32 → a.getLsbD l = b.getLsbD l :=
  ⟨fun h _ _ => by rw [h], fun h => BitVec.eq_of_getLsbD_eq h⟩

theorem consMask_eq_exec (f : FmtA) (c : Iss) : (consMask f c == c.exec) =
    (List.range 32).all (fun l => !c.exec.getLsbD l || (c.pred (f.sa.toNat % 8) l != f.sa.getLsbD 3)) := by
  rw [Bool.eq_iff_iff, beq_iff_eq, mask_eq_iff, List.all_eq_true]
  simp only [getLsbD_consMask, List.mem_range]
  refine forall₂_congr fun l _ => ?_
  cases c.exec.getLsbD l <;> simp

theorem consMask_ne_zero (f : FmtA) (c : Iss) : (consMask f c != 0) =
    (List.range 32).any (fun l => c.exec.getLsbD l && (c.pred (f.sa.toNat % 8) l != f.sa.getLsbD 3)) := by
  rw [Bool.eq_iff_iff, bne_iff_ne, ne_eq, mask_eq_iff, List.any_eq_true]
  simp [getLsbD_consMask]

/-- The values of two lanes agree, in 32 or in 64 bits (R168). -/
def samePeers (f : FmtA) (c : Iss) (i l : Nat) : Bool :=
  if f.sc.getLsbD 1 then c.src64 f.sa l == c.src64 f.sa i else c.src f.sa l == c.src f.sa i

theorem peersMask_eq (f : FmtA) (c : Iss) (i : Nat) :
    peersMask f c i = maskOf (fun l => c.exec.getLsbD l && samePeers f c i l) := by
  have h32 : ∀ a b : Word, (a.setWidth 64 == b.setWidth 64) = (a == b) := fun a b => by
    rw [Bool.eq_iff_iff, beq_iff_eq, beq_iff_eq]
    exact ⟨fun h => by simpa [BitVec.setWidth_setWidth_of_le] using congrArg (BitVec.setWidth 32) h, fun h => by rw [h]⟩
  unfold peersMask samePeers
  cases f.sc.getLsbD 1 <;> simp [h32]

theorem peers_all_eq (f : FmtA) (c : Iss) : (lanesOf c.exec).all (fun l => peersMask f c l == c.exec) =
    (List.range 32).all (fun i => (List.range 32).all (fun l =>
      !(c.exec.getLsbD i && c.exec.getLsbD l) || samePeers f c i l)) := by
  rw [Bool.eq_iff_iff, List.all_eq_true, List.all_eq_true]
  simp only [mem_lanesOf, beq_iff_eq, mask_eq_iff, peersMask_eq, getLsbD_maskOf, List.all_eq_true, List.mem_range]
  refine forall_congr' fun i => ?_
  by_cases hi : c.exec.getLsbD i = true
  · simp only [hi, and_true, Bool.true_and]
    refine forall₃_congr fun _ l hl => ?_
    cases c.exec.getLsbD l <;> simp [hl]
  · simp [hi]

/-! ## Integer reductions (R169, Table 6.1) -/

/-- A fold of an operation on words that is another on their integers. -/
theorem toInt_foldl {op : Word → Word → Word} {g : Int → Int → Int} (h : ∀ a b, (op a b).toInt = g a.toInt b.toInt)
    (xs : List Word) (a : Word) : (xs.foldl op a).toInt = (xs.map (·.toInt)).foldl g a.toInt := by
  rw [List.foldl_map]
  exact (List.foldl_hom BitVec.toInt fun x y => (h x y).symm).symm

theorem toNat_foldl {op : Word → Word → Word} {g : Nat → Nat → Nat} (h : ∀ a b, (op a b).toNat = g a.toNat b.toNat)
    (xs : List Word) (a : Word) : (xs.foldl op a).toNat = (xs.map (·.toNat)).foldl g a.toNat := by
  rw [List.foldl_map]
  exact (List.foldl_hom BitVec.toNat fun x y => (h x y).symm).symm

/-- Each bit of a fold of a bitwise operation. -/
theorem getLsbD_foldl {op : Word → Word → Word} {g : Bool → Bool → Bool} (i : Nat)
    (h : ∀ a b, (op a b).getLsbD i = g (a.getLsbD i) (b.getLsbD i)) (xs : List Word) (a : Word) :
    (xs.foldl op a).getLsbD i = (xs.map (·.getLsbD i)).foldl g (a.getLsbD i) := by
  rw [List.foldl_map]
  exact (List.foldl_hom (fun w : Word => w.getLsbD i) fun x y => (h x y).symm).symm

theorem foldl_add_eq (xs : List Word) : xs.foldl (· + ·) 0 = BitVec.ofNat 32 (xs.map (·.toNat)).sum := by
  rw [List.sum_eq_foldl, List.foldl_map]
  refine (List.foldl_hom (g₂ := fun a b : Word => a + b) (init := 0) (BitVec.ofNat 32) fun x y => ?_)
  rw [BitVec.ofNat_add, BitVec.ofNat_toNat, BitVec.setWidth_eq]

theorem toInt_iminS (a b : Word) : (iminS a b).toInt = min a.toInt b.toInt := by
  unfold iminS
  split
  · next h => rw [min_eq_left h]
  · next h => rw [min_eq_right (not_le.mp h).le]

theorem toInt_imaxS (a b : Word) : (imaxS a b).toInt = max a.toInt b.toInt := by
  unfold imaxS
  split
  · next h => rw [max_eq_right h]
  · next h => rw [max_eq_left (not_le.mp h).le]

theorem toNat_iminN (a b : Word) : (iminN a b).toNat = min a.toNat b.toNat := by
  unfold iminN
  split
  · next h => rw [min_eq_left h]
  · next h => rw [min_eq_right (not_le.mp h).le]

theorem toNat_imaxN (a b : Word) : (imaxN a b).toNat = max a.toNat b.toNat := by
  unfold imaxN
  split
  · next h => rw [max_eq_right h]
  · next h => rw [max_eq_left (not_le.mp h).le]

theorem foldl_and_eq (bs : List Bool) (a : Bool) : bs.foldl (· && ·) a = (a && bs.all id) := by
  induction bs generalizing a with
  | nil => simp
  | cons b bs ih => rw [List.foldl_cons, ih, List.all_cons, id, Bool.and_assoc]

theorem foldl_or_eq (bs : List Bool) (a : Bool) : bs.foldl (· || ·) a = (a || bs.any id) := by
  induction bs generalizing a with
  | nil => simp
  | cons b bs ih => rw [List.foldl_cons, ih, List.any_cons, id, Bool.or_assoc]

theorem foldl_xor_eq (bs : List Bool) (a : Bool) : bs.foldl (· ^^ ·) a = (a ^^ (bs.countP id % 2 == 1)) := by
  induction bs generalizing a with
  | nil => simp
  | cons b bs ih =>
    rw [List.foldl_cons, ih, List.countP_cons]
    have : bs.countP id % 2 = 0 ∨ bs.countP id % 2 = 1 := by omega
    cases a <;> cases b <;> rcases this with h | h <;> simp [h, Nat.add_mod]

theorem eq_ofInt_of_toInt {a : Word} {z : Int} (h : a.toInt = z) : a = BitVec.ofInt 32 z := by rw [← h, BitVec.ofInt_toInt]

theorem eq_ofNat_of_toNat {a : Word} {n : Nat} (h : a.toNat = n) : a = BitVec.ofNat 32 n := by
  rw [← h, BitVec.ofNat_toNat, BitVec.setWidth_eq]

/-- The reductions of Table 6.1, as folds of their operations from their identities. -/
theorem foldl_redOp_eq (op : Nat) (xs : List Word) : xs.foldl (redOp op) (redId op) = reduced op xs := by
  match op with
  | 0 => exact foldl_add_eq xs
  | 1 => exact eq_ofInt_of_toInt ((toInt_foldl toInt_iminS xs _).trans (List.foldl_eq_foldr ..))
  | 2 => exact eq_ofNat_of_toNat ((toNat_foldl toNat_iminN xs _).trans (List.foldl_eq_foldr ..))
  | 3 => exact eq_ofInt_of_toInt ((toInt_foldl toInt_imaxS xs _).trans (List.foldl_eq_foldr ..))
  | 4 => exact eq_ofNat_of_toNat ((toNat_foldl toNat_imaxN xs _).trans (List.foldl_eq_foldr ..))
  | 5 =>
    refine eq_maskOf fun i hi => ?_
    have hone : (redId 5).getLsbD i = true := by
      rw [show redId 5 = BitVec.allOnes 32 from rfl, BitVec.getLsbD_allOnes]; exact decide_eq_true hi
    rw [show redOp 5 = (· &&& ·) from rfl, getLsbD_foldl i fun a b => BitVec.getLsbD_and, foldl_and_eq, hone, Bool.true_and,
      List.all_map]
    rfl
  | 6 =>
    refine eq_maskOf fun i _ => ?_
    rw [show redOp 6 = (· ||| ·) from rfl, getLsbD_foldl i fun a b => BitVec.getLsbD_or, foldl_or_eq, List.any_map]
    simp [redId]
  | n + 7 =>
    refine eq_maskOf fun i _ => ?_
    rw [show redOp (n + 7) = (· ^^^ ·) from rfl, getLsbD_foldl i fun a b => BitVec.getLsbD_xor, foldl_xor_eq, List.countP_map]
    simp [redId]

theorem redInt_eq (op : Nat) (c : Iss) (sa : BitVec 8) (m : Mask) :
    redInt op c sa m = reduced op ((lanesOf m).map (c.src sa)) := foldl_redOp_eq op _

/-! ## Scans (R54) -/

theorem getLsbD_prefixMask (c : Iss) (excl : Bool) (i j : Nat) :
    (prefixMask c.exec excl i).getLsbD j = scanLanes c excl i j := by
  rw [prefixMask, getLsbD_maskOf, scanLanes]
  by_cases hj : j < 32
  · cases excl
    · have : (decide (j < i) || j == i) = decide (j ≤ i) := by
        rw [Bool.eq_iff_iff]; simp; omega
      simp [hj, this]
    · simp [hj]
  · simp [hj, BitVec.getLsbD_of_ge c.exec j (not_lt.mp hj)]

theorem lanesOf_prefixMask (c : Iss) (excl : Bool) (i : Nat) :
    lanesOf (prefixMask c.exec excl i) = (List.range 32).filter (scanLanes c excl i) := by
  simp only [lanesOf, getLsbD_prefixMask]

/-! ## The tree of R52 -/

/-- A node of the tree. -/
def treeNode (op : Nat → Nat → Coded) : Option Coded → Option Coded → Option Coded
  | some a, some b => some ((op a.1 b.1).1, a.2 ||| b.2 ||| (op a.1 b.1).2)
  | some a, none => some a
  | none, b => b

theorem treeLevel_cons (op : Nat → Nat → Coded) (a b : Option Coded) (r : List (Option Coded)) :
    treeLevel op (a :: b :: r) = treeNode op a b :: treeLevel op r := by
  cases a <;> cases b <;> rfl

theorem laneTree_succ (op : Nat → Nat → Coded) (x : Nat → Option Nat) (k lo : Nat) :
    laneTree op x (k + 1) lo = treeNode op (laneTree op x k lo) (laneTree op x k (lo + 2 ^ k)) := by
  rw [laneTree]
  cases laneTree op x k lo <;> cases laneTree op x k (lo + 2 ^ k) <;> rfl

/-- A level of the tree over an even number of nodes. -/
theorem treeLevel_range (op : Nat → Nat → Coded) (m : Nat) : ∀ g : Nat → Option Coded,
    treeLevel op ((List.range (2 * m)).map g) = (List.range m).map (fun i => treeNode op (g (2 * i)) (g (2 * i + 1))) := by
  induction m with
  | zero => intro g; rfl
  | succ m ih =>
    intro g
    have h := ih (fun i => g (i + 2))
    rw [show 2 * (m + 1) = 2 * m + 1 + 1 from rfl, List.range_succ_eq_map, List.range_succ_eq_map, List.range_succ_eq_map]
    simp only [List.map_cons, List.map_map, treeLevel_cons]
    rw [show g ∘ Nat.succ ∘ Nat.succ = fun i => g (i + 2) from rfl, h]
    rfl

/-- A level of the tree, from the trees below it. -/
theorem treeLevel_laneTree (op : Nat → Nat → Coded) (x : Nat → Option Nat) (k m : Nat) :
    treeLevel op ((List.range (2 * m)).map (fun i => laneTree op x k (i * 2 ^ k))) =
      (List.range m).map (fun i => laneTree op x (k + 1) (i * 2 ^ (k + 1))) := by
  rw [treeLevel_range]
  refine List.map_congr_left fun i _ => ?_
  rw [laneTree_succ]
  congr 2 <;> ring

/-- The five levels over 32 lanes are the tree over the lanes. -/
theorem treeOf_eq (op : Nat → Nat → Coded) (x : Nat → Option Nat) :
    treeOf op ((List.range 32).map (fun l => (x l).map (fun v => (v, (0 : BitVec 5))))) = laneTree op x 5 0 := by
  have h0 : (List.range 32).map (fun l => (x l).map (fun v => (v, (0 : BitVec 5)))) =
      (List.range (2 * 16)).map (fun i => laneTree op x 0 (i * 2 ^ 0)) :=
    List.map_congr_left fun i _ => by rw [pow_zero, mul_one]; rfl
  unfold treeOf
  rw [h0, treeLevel_laneTree op x 0 16, treeLevel_laneTree op x 1 8, treeLevel_laneTree op x 2 4, treeLevel_laneTree op x 3 2,
    treeLevel_laneTree op x 4 1]
  rfl

/-! ## Floating-point reductions (R53) -/

theorem redFp_eq (op : Nat) : redFp op = redOpF32 op := by
  match op with
  | 0 => rfl
  | 1 => rfl
  | _ + 2 => rfl

theorem redF32_eq (op : Nat) (c : Iss) (sa : BitVec 8) (m : Mask) :
    redF32 op c sa m = reducedF32 op (lanesIn c sa m.getLsbD) := by
  have hx : (List.range 32).map (fun l => if m.getLsbD l then some ((c.src sa l).toNat, (0 : BitVec 5)) else none) =
      (List.range 32).map (fun l => (lanesIn c sa m.getLsbD l).map (fun v => (v, (0 : BitVec 5)))) :=
    List.map_congr_left fun l _ => by unfold lanesIn; split <;> rfl
  unfold redF32 reducedF32
  simp only [hx, treeOf_eq, redFp_eq, List.find?_map]
  refine congrArg (Option.map · _) (funext fun r => ?_)
  have hp : ((fun x : Option Coded => (x.map (fun y => fp32.isNan y.1)).getD false) ∘
      fun l => (lanesIn c sa m.getLsbD l).map (fun v => (v, (0 : BitVec 5)))) = fun l =>
        match lanesIn c sa m.getLsbD l with
        | some v => fp32.isNan v
        | none => false := funext fun l => by
    simp only [Function.comp]
    cases lanesIn c sa m.getLsbD l <;> rfl
  rw [hp]
  cases hf : (List.range 32).find? (fun l => match lanesIn c sa m.getLsbD l with
        | some v => fp32.isNan v
        | none => false) with
  | none => rfl
  | some l =>
    have hl := List.find?_some hf
    cases hv : lanesIn c sa m.getLsbD l with
    | none => simp [hv] at hl
    | some v => simp [hv, Fmt.quiet, fp32]

theorem scanF32At_eq (f : FmtA) (c : Iss) (i : Nat) : scanF32At f c i =
    (reducedF32 (f.sc.toNat % 8) (lanesIn c f.sa (scanLanes c (f.sc.getLsbD 3) i))).getD
      (if f.sc.toNat % 8 = 0 then 0 else if f.sc.toNat % 8 = 1 then 0x7F800000 else 0xFF800000, 0) := by
  rw [scanF32At, redF32_eq, funext (getLsbD_prefixMask c _ i)]

/-! ## ELECT (R171) -/

theorem lowestLane_eq (m : Mask) : lowestLane m = (List.range 32).find? m.getLsbD := by
  rw [lowestLane, lanesOf, List.head?_filter]

end Sys2Proof.Machine
end

section
/-!
The collective words, and dual words (R73 to R75).
-/
namespace Sys2Proof.Machine

/-- As `Ends.of`, for a change of the warp that is known in the context of this issue only. -/
theorem Ends.here {i : Instr} {s : State} {x : Slot} {mn : Meaning} (h : Clear i mn s x) (g : Iss → Warp) {e : Iss → Effect}
    (he : exec i s = issueLit i none { mn with body := onWarp g } s)
    (hs : (x.ctx s i mn none).W.Shows (g (x.ctx s i mn none)) (e (x.ctx s i mn none))) : x.Ends s i mn e := by
  have hb : Clear i { mn with body := onWarp g } s x := h.body rfl rfl rfl rfl
  have hctx : x.ctx s i { mn with body := onWarp g } none = x.ctx s i mn none := ctx_congr x s i none rfl rfl rfl
  have hg : (g (x.ctx s i mn none)).idx = (x.ctx s i mn none).W.idx := by rw [hs.frame]
  have hend := hb.warpEnds (lit := none) (g := g) rfl (by rw [hctx]; exact hg)
  rw [hctx] at hend
  refine ⟨_, _, he.trans hend, Slot.only_setWarp h.current ?_, hs⟩
  rw [Slot.after, afterIteration_idx, hg, ctx_idx]

/-! ## The collective words -/

theorem Warp.Shows.pcons (f : FmtA) (c : Iss) : c.W.Shows
    (match f.sc.toNat with
      | 0 => c.W.writeP 6 f.dst.toNat c.exec (fun _ => consMask f c == c.exec)
      | 1 => c.W.writeP 6 f.dst.toNat c.exec (fun _ => consMask f c != 0)
      | 2 => c.W.writeP 6 f.dst.toNat c.exec (fun _ => consMask f c == c.exec || consMask f c == 0)
      | _ => c.W.putV c.fr 6 f.dst c.exec (fun _ => consMask f c))
    (let pa (l : Nat) : Bool := c.pred (f.sa.toNat % 8) l != f.sa.getLsbD 3
      let all := (List.range 32).all (fun l => !c.exec.getLsbD l || pa l)
      let any := (List.range 32).any (fun l => c.exec.getLsbD l && pa l)
      if f.sc = 0 then Effect.pred 6 f.dst.toNat c.exec (fun _ => all)
      else if f.sc = 1 then Effect.pred 6 f.dst.toNat c.exec (fun _ => any)
      else if f.sc = 2 then Effect.pred 6 f.dst.toNat c.exec (fun _ => all || !any)
      else Effect.lane 6 f.dst c.exec (fun _ => maskOf (fun l => c.exec.getLsbD l && pa l))) := by
  have hzero : (consMask f c == 0) = !(consMask f c != 0) := by simp [bne]
  have hmask : consMask f c = maskOf (fun l => c.exec.getLsbD l && (c.pred (f.sa.toNat % 8) l != f.sa.getLsbD 3)) := rfl
  simp only [← consMask_eq_exec, ← consMask_ne_zero, ← hmask, ← hzero, ← BitVec.toNat_inj]
  match f.sc.toNat with
  | 0 => exact .writeP c.W (by decide) _ _ _
  | 1 => exact .writeP c.W (by decide) _ _ _
  | 2 => exact .writeP c.W (by decide) _ _ _
  | n + 3 => exact .putV c.W c.fr (by decide) _ _ _

/-! ## Dual words (R73 to R75) -/

/-- Both halves act in every lane of the run (R75: a dual word has no predicate). -/
theorem ctx_exec_dualWord (x : Slot) (s : State) (k : Ctl) (h0 h1 : Half) (mn : Meaning) (lit : Option Word) :
    (x.ctx s (.dualWord k h0 h1) mn lit).exec = (x.ctx s (.dualWord k h0 h1) mn lit).run := by
  have hp : predOf (.dualWord k h0 h1) = (7, false) := by
    have hd : (wordOf (h1.bits ++ h0.bits) true k).getLsbD 15 = true := by
      rw [wordOf, BitVec.getLsbD_append, BitVec.getLsbD_append]
      rfl
    simp [predOf, encode, hd]
  simp only [Slot.ctx, Slot.begun, State.issFor, hp, Warp.execMask, if_true]

theorem src_half (c : Iss) (r : BitVec 6) (l : Nat) : c.src (r.setWidth 8) l = c.W.vAt c.fr r.toNat l := by
  have hr : (r.setWidth 8).toNat = r.toNat := BitVec.toNat_setWidth_of_le (by decide)
  have hlt := r.isLt
  unfold Iss.src
  simp only [hr]
  rw [if_pos (by omega)]

theorem halfValue_eq (c : Iss) (h : Half) (l : Nat) : halfValue c h l = halfAt c h l := by
  have himm : h.sb.setWidth 32 = BitVec.ofNat 32 h.sb.toNat := (BitVec.ofNat_toNat ..).symm
  unfold halfValue halfAt
  simp only [src_half, himm]
  generalize c.W.vAt c.fr h.sa.toNat l = a
  generalize c.W.vAt c.fr h.sb.toNat l = b
  generalize BitVec.ofNat 32 h.sb.toNat = imm
  generalize h.hop.toNat = hop
  match hop with
  | 0x00 => simp [halfResult, BitVec.add_def]
  | 0x01 => simp [halfResult, sub_eq_ofInt]
  | 0x02 => simp [halfResult, and_eq_maskOf]
  | 0x03 => simp [halfResult, or_eq_maskOf]
  | 0x04 => simp [halfResult, xor_eq_maskOf]
  | 0x05 => simp [halfResult, shl32_exact]
  | 0x06 => simp [halfResult, shr32_exact]
  | 0x07 => simp [halfResult, sar32_exact]
  | 0x08 => rfl
  | 0x09 => rfl
  | 0x0A => simp [halfResult, iminS_exact]
  | 0x0B => simp [halfResult, imaxS_exact]
  | 0x0C => rfl
  | 0x0D => rfl
  | 0x0E => rfl
  | 0x0F => rfl
  | 0x10 => simp [halfResult, BitVec.add_def]
  | 0x11 => simp [halfResult, sub_eq_ofInt]
  | 0x12 => simp [halfResult, and_eq_maskOf]
  | 0x13 => simp [halfResult, or_eq_maskOf]
  | 0x14 => simp [halfResult, xor_eq_maskOf]
  | 0x15 => simp [halfResult, shl32_exact]
  | 0x16 => simp [halfResult, shr32_exact]
  | 0x17 => simp [halfResult, sar32_exact]
  | n + 0x18 => simp [halfResult]

/-- The effect of one half: a result pushed and written, and its flags. -/
def halfEffect (c : Iss) (h : Half) : Effect :=
  { Effect.alu (halfLat h) (h.dst.setWidth 8) c.exec (fun l => BitVec.ofNat 32 (halfValue c h l).1) with
    fx := raised c.exec false (fun l => (halfValue c h l).2) }

theorem halfLat_ne_zero (h : Half) : halfLat h ≠ 0 := by unfold halfLat; split <;> decide

theorem toNat_halfDst (h : Half) : (h.dst.setWidth 8).toNat = h.dst.toNat := BitVec.toNat_setWidth_of_le (by decide)

/-- A half's register, of 64, is one that a destination code of Table 3.8 names. -/
theorem putHalf_eq (c : Iss) (h : Half) (W : Warp) : putHalf c h W =
    ((W.push c.exec (fun l => BitVec.ofNat 32 (halfValue c h l).1)).putV c.fr (halfLat h) (h.dst.setWidth 8) c.exec
      (fun l => BitVec.ofNat 32 (halfValue c h l).1)).raiseFx c.exec false (fun l => (halfValue c h l).2) := by
  have hlt := h.dst.isLt
  unfold putHalf Warp.putV
  simp only [toNat_halfDst]
  rw [if_pos (by omega)]

theorem Warp.Shows.putHalf (c : Iss) (h : Half) (W : Warp) : W.Shows (putHalf c h W) (halfEffect c h) := by
  rw [putHalf_eq]
  exact ((Warp.Shows.putV _ c.fr (halfLat_ne_zero h) _ c.exec _).pushed).raiseFx c.exec false _ rfl

theorem contested_putHalf (c : Iss) (h : Half) (W : Warp) (loc : Loc) (l : Nat) :
    (putHalf c h W).contested none loc l = W.contested none loc l := by
  rw [putHalf_eq, raiseFx_frame]
  exact contested_putV (W.push _ _) ..

theorem due_putHalf_ne (c : Iss) (h : Half) (W : Warp) {loc : Loc} (hn : loc ≠ .lane h.dst.toNat) :
    (putHalf c h W).due loc = W.due loc := by
  rw [putHalf_eq, raiseFx_frame]
  exact due_putV_ne (W.push _ _) c.fr (halfLat_ne_zero h) _ c.exec _ (by rwa [toNat_halfDst])

theorem dualEffect_eq {h0 h1 : Half} {c : Iss} (hc : c.exec = c.run) :
    (halfEffect c h0).andThen (halfEffect c h1) = dualEffect h0 h1 c := by
  have h0lt := h0.dst.isLt
  have h1lt := h1.dst.isLt
  have hl0 : h0.dst.toNat < 0xF8 := by omega
  have hl1 : h1.dst.toNat < 0xF8 := by omega
  have hlat : ∀ h, halfLat h = halfLatency h := fun _ => rfl
  simp only [Effect.andThen, halfEffect, Effect.alu, Effect.lane, dualEffect, toNat_halfDst, hl0, hl1, if_true, hc,
    halfValue_eq, hlat, Effect.mk.injEq]
  refine ⟨?_, rfl, rfl, ?_, rfl, rfl⟩
  · funext n l
    simp only [to32, toNat_halfDst, hl0, hl1, true_and]
    by_cases hr : c.run.getLsbD l = true
    · simp only [hr, and_true, if_true]
      by_cases hn : n = h1.dst.toNat
      · rw [if_pos hn, if_pos hn, Option.some_or]
      · rw [if_neg hn, if_neg hn, Option.none_or]
    · simp [hr]
  · funext l
    simp only [raised, true_and]
    by_cases hr : c.run.getLsbD l = true <;> simp [hr]

/-- Half 0 and then half 1, their registers being different. -/
theorem Warp.Shows.dualWord {h0 h1 : Half} (hd : h0.dst ≠ h1.dst) {c : Iss} (hc : c.exec = c.run) :
    c.W.Shows (Machine.putHalf c h1 (Machine.putHalf c h0 c.W)) (dualEffect h0 h1 c) := by
  have hne : h0.dst.toNat ≠ h1.dst.toNat := fun h => hd (BitVec.eq_of_toNat_eq h)
  rw [← dualEffect_eq hc]
  refine (Warp.Shows.putHalf c h0 c.W).andThen (.putHalf c h1 _) (contested_putHalf c h0 c.W) (fun d hm => ?_)
    (fun n l => ?_) (fun _ => .inl rfl)
  · refine due_putHalf_ne c h1 _ fun h => hne ?_
    simp only [halfEffect, Effect.alu, Effect.lane, toNat_halfDst] at hm
    split at hm <;> simp_all
  · simp only [halfEffect, Effect.alu, Effect.lane, to32, toNat_halfDst]
    by_cases hn : n = h0.dst.toNat
    · exact .inr (if_neg (by omega))
    · exact .inl (if_neg (by simp [hn]))

/-! ## The words -/

/-- Each collective word ends with its effect. -/
theorem collective_ends {s : State} {x : Slot} {i : Instr} {mn : Meaning} {e : Iss → Effect}
    (he : collectiveEffect i = some (mn, e)) (h : Clear i mn s x) : x.Ends s i mn e := by
  cases i with
  | xlane f =>
    cases he
    refine Ends.here h _ rfl ?_
    rw [← funext (xlaneFrom_eq f _)]
    exact .putV _ _ (by decide) _ _ _
  | pcons f => cases he; exact Ends.here h _ rfl (.pcons f _)
  | peers f =>
    cases he
    refine Ends.here h _ rfl ?_
    dsimp only
    split
    · rw [peers_all_eq]
      exact .putVWriteP _ _ (by decide) _ _ _ _ _
    · rw [funext (peersMask_eq f _)]
      exact .putV _ _ (by decide) _ _ _
  | red f =>
    cases he
    refine Ends.here h _ rfl ?_
    rw [redInt_eq]
    exact .putV _ _ (by decide) _ _ _
  | scan f =>
    cases he
    refine Ends.here h _ rfl ?_
    simp only [redInt_eq, lanesOf_prefixMask]
    exact .putV _ _ (by decide) _ _ _
  | redF32 f =>
    cases he
    refine Ends.here h _ rfl ?_
    rw [redF32_eq]
    generalize reducedF32 f.sc.toNat _ = r
    cases r with
    | none => exact .refl _
    | some r => exact (Warp.Shows.putV _ _ (by decide) _ _ _).raiseFx _ _ _ rfl
  | scanF32 f =>
    cases he
    refine Ends.here h _ rfl ?_
    simp only [scanF32At_eq]
    exact (Warp.Shows.putV _ _ (by decide) _ _ _).raiseFx _ _ _ rfl
  | elect f =>
    cases he
    refine Ends.here h _ rfl ?_
    rw [lowestLane_eq]
    generalize (List.range 32).find? _ = r
    cases r with
    | none => exact .putW _ _ (by decide) _ _
    | some l => exact .writePPutW _ _ (by decide) _ _ _ _ _
  | _ => cases he

/-- Settles O11: each collective word ends with its effect, and a dual word with its halves' effects in sequence. -/
theorem collectiveAndDualWords : Obligations.CollectiveAndDualWords := by
  unfold Obligations.CollectiveAndDualWords
  exact ⟨fun _ _ _ _ _ he h => collective_ends he h,
    fun s x k h0 h1 hd h => Ends.here h _ rfl (.dualWord hd (ctx_exec_dualWord x s k h0 h1 _ _))⟩

end Sys2Proof.Machine
end

section
/-!
The lanes of one atomic request (Table 6.8, R193 to R195), and the registers that it writes.
-/
namespace Sys2Proof.Machine

/-! ## Words of memory -/

theorem ofLeBytes_lt : ∀ bs : List Byte, ofLeBytes bs < 2 ^ (8 * bs.length)
  | [] => Nat.one_pos
  | b :: bs => by
    have h := ofLeBytes_lt bs
    have hb := b.isLt
    rw [ofLeBytes, List.length_cons, Nat.mul_succ, pow_add]
    omega

theorem readN_lt (m : MemSt) (loc n : Nat) : m.readN loc n < 2 ^ (8 * n) := by
  have h := ofLeBytes_lt (m.read loc n)
  rwa [MemSt.read, List.length_map, List.length_range] at h

/-- A number of bytes depends on the bytes alone. -/
theorem readN_congr {m m' : MemSt} (h : ∀ a, m.byte a = m'.byte a) (loc n : Nat) : m.readN loc n = m'.readN loc n := by
  simp only [MemSt.readN, MemSt.read, h]

/-! ## One lane of an atomic (Table 6.8) -/

theorem sextN_eq_toInt {w : Nat} (hw : 0 < w) (x : Nat) : sextN w x = (BitVec.ofNat w x).toInt := by
  obtain ⟨v, rfl⟩ : ∃ v, w = v + 1 := ⟨w - 1, by omega⟩
  rw [sextN, BitVec.toInt_eq_toNat_cond, BitVec.toNat_ofNat, Nat.add_sub_cancel]
  have : 2 ^ (v + 1) = 2 * 2 ^ v := Nat.pow_succ'
  split <;> split <;> omega

/-- Two numbers of w bits that are equal as signed ones are equal. -/
theorem eq_of_sextN_eq {w x y : Nat} (hw : 0 < w) (hx : x < 2 ^ w) (hy : y < 2 ^ w) (h : sextN w x = sextN w y) : x = y := by
  rw [sextN_eq_toInt hw, sextN_eq_toInt hw] at h
  have h2 := congrArg BitVec.toNat (BitVec.eq_of_toInt_eq h)
  rwa [BitVec.toNat_ofNat, BitVec.toNat_ofNat, Nat.mod_eq_of_lt hx, Nat.mod_eq_of_lt hy] at h2

/-- The operations of Table 6.8 but fadd, on words of w bits. -/
theorem atomNew_eq {op w old c c2 : Nat} (hw : 0 < w) (hop : op ≤ 10) (ho : old < 2 ^ w) (hc : c < 2 ^ w) :
    atomNew op w old c c2 = atomResult op w old c c2 := by
  have hsame := eq_of_sextN_eq hw ho hc
  match op, hop with
  | 0, _ => rfl
  | 1, _ =>
    change (if sextN w old ≤ sextN w c then old else c) = if (BitVec.ofNat w c).toInt < (BitVec.ofNat w old).toInt then c else old
    rw [← sextN_eq_toInt hw, ← sextN_eq_toInt hw]
    split <;> split <;> omega
  | 2, _ => rfl
  | 3, _ =>
    change (if sextN w old ≤ sextN w c then c else old) = if (BitVec.ofNat w old).toInt < (BitVec.ofNat w c).toInt then c else old
    rw [← sextN_eq_toInt hw, ← sextN_eq_toInt hw]
    split <;> split <;> omega
  | 4, _ => rfl
  | 5, _ => rfl
  | 6, _ => rfl
  | 7, _ => rfl
  | 8, _ => rfl
  | 9, _ => rfl
  | 10, _ =>
    change (if c ≤ old then 0 else (old + 1) % 2 ^ w) = if c ≤ old then 0 else old + 1
    split
    · rfl
    · exact Nat.mod_eq_of_lt (by omega)

theorem ite_lt_of_lt {p : Prop} [Decidable p] {x y z : Nat} (hx : x < z) (hy : y < z) : (if p then x else y) < z := by
  split
  · exact hx
  · exact hy

theorem atomResult_lt {op w old c c2 : Nat} (hop : op ≤ 10) (ho : old < 2 ^ w) (hc : c < 2 ^ w) (hc2 : c2 < 2 ^ w) :
    atomResult op w old c c2 < 2 ^ w := by
  match op, hop with
  | 0, _ => exact Nat.mod_lt _ (by positivity)
  | 1, _ => exact ite_lt_of_lt hc ho
  | 2, _ => exact (min_le_left _ _).trans_lt ho
  | 3, _ => exact ite_lt_of_lt hc ho
  | 4, _ => exact max_lt ho hc
  | 5, _ => exact Nat.and_lt_two_pow _ hc
  | 6, _ => exact Nat.or_lt_two_pow ho hc
  | 7, _ => exact Nat.xor_lt_two_pow ho hc
  | 8, _ => exact hc
  | 9, _ => exact ite_lt_of_lt hc2 ho
  | 10, _ =>
    change (if c ≤ old then 0 else old + 1) < 2 ^ w
    split <;> omega

/-! ## The lanes of a request (R193 to R195) -/

section
variable {op w : Nat} (l : Nat)

/-- But for fadd a lane receives what the lanes before it leave. -/
theorem atomEach_olds (hw : 0 < w) (hop : op ≤ 10) : ∀ {lanes : List (Nat × Nat × Nat)} {old : Nat}, old < 2 ^ w →
    (∀ e ∈ lanes, e.2.1 < 2 ^ w ∧ e.2.2 < 2 ^ w) →
    ((atomEach op w old lanes).1.find? (fun e => e.1 == l)).map (·.2) =
      ((lanes.map (·.1)).idxOf? l).map (fun j => (lanes.take j).foldl (fun v e => atomResult op w v e.2.1 e.2.2) old)
  | [], _, _, _ => rfl
  | (l', c, c2) :: r, old, ho, hv => by
    obtain ⟨hc, hc2⟩ := hv _ List.mem_cons_self
    have hnew := atomNew_eq (c2 := c2) hw hop ho hc
    have ih := atomEach_olds hw hop (lanes := r) (atomResult_lt hop ho hc hc2) fun e he => hv e (List.mem_cons_of_mem _ he)
    simp only [atomEach, hnew, List.map_cons, List.idxOf?_cons, List.find?_cons]
    cases l' == l with
    | true => rfl
    | false => simpa [Function.comp_def] using ih

theorem atomEach_word (hw : 0 < w) (hop : op ≤ 10) : ∀ {lanes : List (Nat × Nat × Nat)} {old : Nat}, old < 2 ^ w →
    (∀ e ∈ lanes, e.2.1 < 2 ^ w ∧ e.2.2 < 2 ^ w) →
    (atomEach op w old lanes).2 = lanes.foldl (fun v e => atomResult op w v e.2.1 e.2.2) old
  | [], _, _, _ => rfl
  | (l', c, c2) :: r, old, ho, hv => by
    obtain ⟨hc, hc2⟩ := hv _ List.mem_cons_self
    have hnew := atomNew_eq (c2 := c2) hw hop ho hc
    have ih := atomEach_word hw hop (lanes := r) (atomResult_lt hop ho hc hc2) fun e he => hv e (List.mem_cons_of_mem _ he)
    simpa only [atomEach, hnew, List.foldl_cons] using ih

theorem atomEach_lanes : ∀ (lanes : List (Nat × Nat × Nat)) (old : Nat),
    (atomEach op w old lanes).1.map (·.1) = lanes.map (·.1)
  | [], _ => rfl
  | (l', _, _) :: r, _ => congrArg (l' :: ·) (atomEach_lanes r _)

/-- The sum of further operands from a partial one, one rounding each (R194). -/
def faddFrom (acc : Nat) (cs : List Nat) : Nat := cs.foldl (fun a b => (fAdd fp32 .rne a b).1) acc

theorem getLast?_faddSums : ∀ (acc : Nat) (cs : List Nat), (acc :: faddSums acc cs).getLast? = some (faddFrom acc cs)
  | _, [] => rfl
  | acc, c :: r => by
    rw [faddSums, List.getLast?_cons_cons]
    exact getLast?_faddSums _ r

/-- Each further lane of an fadd adds the partial sum of the lanes before it. -/
theorem faddSums_olds (add : Nat → Nat) : ∀ (r : List (Nat × Nat × Nat)) (acc : Nat),
    (((r.zip (acc :: faddSums acc (r.map (fun e => e.2.1)))).map (fun e => (e.1.1, add e.2))).find? (fun e => e.1 == l)).map (·.2) =
      ((r.map (·.1)).idxOf? l).map (fun j => add (faddFrom acc ((r.take j).map (·.2.1))))
  | [], _ => rfl
  | (l', c, c2) :: r, acc => by
    have ih := faddSums_olds add r (fAdd fp32 .rne acc c).1
    simp only [List.map_cons, faddSums, List.zip_cons_cons, List.find?_cons, List.idxOf?_cons]
    cases l' == l with
    | true => rfl
    | false =>
      refine ih.trans ?_
      simp [faddFrom, Function.comp_def]

theorem faddSums_lanes (add : Nat → Nat) : ∀ (r : List (Nat × Nat × Nat)) (acc : Nat),
    ((r.zip (acc :: faddSums acc (r.map (fun e => e.2.1)))).map (fun e => (e.1.1, add e.2))).map (·.1) = r.map (·.1)
  | [], _ => rfl
  | (l', c, _) :: r, acc => congrArg (l' :: ·) (faddSums_lanes add r (fAdd fp32 .rne acc c).1)

/-- But for fadd the word after some lanes is what they leave of it one by one. -/
theorem wordAfter_of_ne (hop : op ≠ 11) (old : Nat) (lanes : List (Nat × Nat × Nat)) (k : Nat) :
    wordAfter op w old lanes k = (lanes.take k).foldl (fun v e => atomResult op w v e.2.1 e.2.2) old := by
  cases k with
  | zero => rfl
  | succ k => simp [wordAfter, hop]

/-- The word after the first and j more lanes of an fadd. -/
theorem wordAfter_fadd (old : Nat) (e : Nat × Nat × Nat) (r : List (Nat × Nat × Nat)) (j : Nat) :
    wordAfter 11 w old (e :: r) (j + 1) = (fAdd fp32 .rne old (faddFrom e.2.1 ((r.take j).map (·.2.1)))).1 := by
  simp [wordAfter, sumOf, faddFrom]

variable {lanes : List (Nat × Nat × Nat)} {old : Nat}

/-- R194: each lane of a request receives the word after the lanes before it. -/
theorem atomGroup_olds (hw : 0 < w) (hop : op ≤ 11) (ho : old < 2 ^ w)
    (hv : ∀ e ∈ lanes, e.2.1 < 2 ^ w ∧ e.2.2 < 2 ^ w) :
    ((atomGroup op w old lanes).1.find? (fun e => e.1 == l)).map (·.2) =
      ((lanes.map (·.1)).idxOf? l).map (wordAfter op w old lanes) := by
  unfold atomGroup
  by_cases h : op = 11
  · subst h
    match lanes with
    | [] => rfl
    | (l', c, c2) :: r =>
      simp only [bne_self_eq_false, Bool.false_eq_true, if_false, List.find?_cons, List.map_cons, List.idxOf?_cons]
      cases l' == l with
      | true => rfl
      | false =>
        refine (faddSums_olds l (fun s => (fAdd fp32 .rne old s).1) r c).trans ?_
        simp [Function.comp_def, wordAfter_fadd]
  · rw [if_pos (by simpa using h), atomEach_olds l hw (by omega) ho hv]
    exact congrArg (Option.map · _) (funext fun j => (wordAfter_of_ne h old lanes j).symm)

/-- R195: the word takes what the last lane leaves. -/
theorem atomGroup_word (hw : 0 < w) (hop : op ≤ 11) (ho : old < 2 ^ w)
    (hv : ∀ e ∈ lanes, e.2.1 < 2 ^ w ∧ e.2.2 < 2 ^ w) :
    (atomGroup op w old lanes).2 = wordAfter op w old lanes lanes.length := by
  unfold atomGroup
  by_cases h : op = 11
  · subst h
    match lanes with
    | [] => rfl
    | e :: r =>
      rw [List.length_cons, wordAfter_fadd, List.take_length]
      simp [getLast?_faddSums]
  · rw [if_pos (by simpa using h), atomEach_word hw (by omega) ho hv, wordAfter_of_ne h, List.take_length]

theorem atomGroup_lanes (op w old : Nat) (lanes : List (Nat × Nat × Nat)) :
    (atomGroup op w old lanes).1.map (·.1) = lanes.map (·.1) := by
  unfold atomGroup
  split
  · exact atomEach_lanes lanes old
  · match lanes with
    | [] => rfl
    | (l', c, _) :: r => exact congrArg (l' :: ·) (faddSums_lanes (fun s => (fAdd fp32 .rne old s).1) r c)

end

/-! ## Writes of a flagged operation (R63) -/

/-- What a write settles to, of a flagged operation or of no. -/
theorem settle_own_cases (W : Warp) (fr : Nat) (own : Option Nat) (loc : Loc) (l : Nat) (y : Word) :
    W.settle fr own loc l y = y ∨ (W.contested own loc l = true ∧ W.settle fr own loc l y = W.nowAt loc l) := by
  simp only [Warp.settle]
  split
  · next h =>
    cases Config.freeBit 63 fr (loc.index l) with
    | true => exact .inl rfl
    | false => exact .inr ⟨(Bool.and_eq_true _ _ ▸ h).2, rfl⟩
  · exact .inl rfl

/-- The note of a flagged write changes nothing that is decided by an entry's place and operation, by where other operations
have written, and by where its own finds a lane written. -/
theorem any_flagNote {id : Nat} {loc : Loc} {l : Nat} {raw : List Word} {now x y : Word} {p : Early → Bool}
    (hown : ∀ e m olds, e.op = some id → p { e with wrote := m, olds := olds } = p e)
    (hres : ∀ e olds, e.op = none → p { e with olds := olds } = p e)
    (hcon : ∀ e, p (Early.contend loc (BitVec.ofNat 32 (2 ^ loc.slot l)) raw e) = p e) (es : List Early) :
    (flagNote id loc l raw now x y es).any p = es.any p := by
  induction es with
  | nil => rfl
  | cons e r ih =>
    have hr : (r.map (Early.contend loc (BitVec.ofNat 32 (2 ^ loc.slot l)) raw)).any p = r.any p := by
      rw [List.any_map]; exact congrArg (List.any r) (funext hcon)
    simp only [flagNote]
    split
    · next h =>
      rw [Bool.and_eq_true, beq_iff_eq, beq_iff_eq] at h
      rw [List.any_cons, List.any_cons, hown e _ _ h.2, hr]
    · split
      · next h =>
        rw [Bool.and_eq_true, Option.isNone_iff_eq_none] at h
        rw [List.any_cons, List.any_cons, ih, hres e _ h.2]
      · rw [List.any_cons, List.any_cons, ih, hcon]

/-- A write of one lane of a register leaves every other contest of its operation as it was. -/
theorem contested_flagWrite (W : Warp) (fr id n l : Nat) (x : Word) {n' l' : Nat} (hne : ¬(n' = n ∧ l' = l)) :
    (W.flagWrite fr id (.lane n) l x).contested (some id) (.lane n') l' = W.contested (some id) (.lane n') l' := by
  refine any_flagNote (fun e m olds h => by simp [h]) (fun e olds h => by simp [h]) (fun e => ?_) W.early
  unfold Early.contend
  split
  · next h =>
    rw [Bool.and_eq_true, beq_iff_eq] at h
    by_cases hn : n' = n
    · subst hn
      have hbit : (BitVec.ofNat 32 (2 ^ l)).getLsbD l' = false := by
        rw [BitVec.getLsbD_ofNat, Nat.testBit_two_pow]
        simp [show ¬l = l' from fun h => hne ⟨rfl, h.symm⟩]
      simp only [Loc.slot, BitVec.getLsbD_or, BitVec.getLsbD_and, hbit, Bool.false_and, Bool.or_false]
    · have hloc : (e.loc == Loc.lane n') = false := by rw [h.1]; simpa using Ne.symm hn
      simp only [hloc, Bool.false_and]
  · rfl

theorem vRaw_flagWrite (W : Warp) (fr id n : Nat) {l : Nat} (x : Word) (n' : Nat) {l' : Nat} (hl : l < 32) (hl' : l' < 32) :
    (W.flagWrite fr id (.lane n) l x).vRaw n' l' =
      if n' = n ∧ l' = l then W.settle fr (some id) (.lane n) l x else W.vRaw n' l' := by
  have hk : vKey n' l' = vKey n l ↔ n' = n ∧ l' = l := ⟨vKey_inj hl' hl, fun h => by rw [h.1, h.2]⟩
  simp only [Warp.flagWrite, Warp.vRaw, tget_tset, hk]

/-- From W to V a flagged operation has written lane registers: they take the values, its other contests stand, and nothing
else of the warp differs but what it notes of values on their way. -/
structure Warp.FlagWrites (W V : Warp) (id : Nat) (val : Nat → Nat → Option Word) : Prop where
  takes : W.RegsTake V id val
  contests : ∀ n l, l < 32 → val n l = none → V.contested (some id) (.lane n) l = W.contested (some id) (.lane n) l
  frame : V = { W with v := V.v, early := V.early }

theorem Warp.FlagWrites.refl (W : Warp) (id : Nat) : W.FlagWrites W id (fun _ _ => none) :=
  ⟨fun _ _ _ => rfl, fun _ _ _ _ => rfl, rfl⟩

/-- Writes of different registers one after the other. -/
theorem Warp.FlagWrites.andThen {W V U : Warp} {id : Nat} {val val' : Nat → Nat → Option Word} (h : W.FlagWrites V id val)
    (h' : V.FlagWrites U id val') (hd : ∀ n l, val n l = none ∨ val' n l = none) :
    W.FlagWrites U id (fun n l => (val n l).or (val' n l)) where
  takes n l hl := by
    have h1 := h.takes n l hl
    have h2 := h'.takes n l hl
    have hc := h.contests n l hl
    rcases hd n l with hn | hn
    · rw [hn] at h1
      simp only at h1
      rw [hc hn, h1] at h2
      simpa only [hn, Option.none_or] using h2
    · rw [hn] at h2
      simp only at h2
      simpa only [hn, Option.or_none, h2] using h1
  contests n l hl hn := by
    obtain ⟨h1, h2⟩ := Option.or_eq_none_iff.mp hn
    rw [h'.contests n l hl h2, h.contests n l hl h1]
  frame := by rw [h'.frame, h.frame]

theorem Warp.FlagWrites.flagWrite (W : Warp) (fr id n : Nat) {l : Nat} (x : Word) (hl : l < 32) :
    W.FlagWrites (W.flagWrite fr id (.lane n) l x) id (fun n' l' => if n' = n ∧ l' = l then some x else none) where
  takes n' l' hl' := by
    simp only [vRaw_flagWrite W fr id n x n' hl hl']
    by_cases h : n' = n ∧ l' = l
    · simp only [if_pos h]
      rw [h.1, h.2]
      exact settle_own_cases W fr (some id) (.lane n) l x
    · simp only [if_neg h]
  contests n' l' _ hn := contested_flagWrite W fr id n l x fun h => by simp [h] at hn
  frame := rfl

/-- The words of a number of m registers, in one lane. -/
theorem Warp.FlagWrites.registers (W : Warp) (fr id r : Nat) {l : Nat} (x : Nat) (hl : l < 32) (m : Nat) :
    W.FlagWrites ((List.range m).foldl (fun W i =>
      W.flagWrite fr id (.lane (r + i)) l (BitVec.ofNat 32 (x / 2 ^ (32 * i)))) W) id
      (fun n' l' => if l' = l ∧ r ≤ n' ∧ n' < r + m then some (BitVec.ofNat 32 (x / 2 ^ (32 * (n' - r)))) else none) := by
  induction m with
  | zero =>
    have h : (fun n' l' : Nat => if l' = l ∧ r ≤ n' ∧ n' < r + 0 then some (BitVec.ofNat 32 (x / 2 ^ (32 * (n' - r)))) else none) =
        fun _ _ => none := funext fun n' => funext fun l' => if_neg (by omega)
    rw [h]; exact .refl W id
  | succ m ih =>
    rw [List.range_succ, List.foldl_append]
    have h := ih.andThen (.flagWrite _ fr id (r + m) (BitVec.ofNat 32 (x / 2 ^ (32 * m))) hl) (fun n' l' => ?_)
    · refine (congrArg (Warp.FlagWrites _ _ id) (funext fun n' => funext fun l' => ?_)).mp h
      have hm : (l' = l ∧ r ≤ n' ∧ n' < r + (m + 1)) ↔ (l' = l ∧ r ≤ n' ∧ n' < r + m) ∨ (n' = r + m ∧ l' = l) := by omega
      simp only [hm]
      by_cases h1 : l' = l ∧ r ≤ n' ∧ n' < r + m
      · rw [if_pos h1, Option.some_or, if_pos (Or.inl h1)]
      · rw [if_neg h1, Option.none_or]
        by_cases h2 : n' = r + m ∧ l' = l
        · rw [if_pos h2, if_pos (Or.inr h2), h2.1, Nat.add_sub_cancel_left]
        · rw [if_neg h2, if_neg (fun h => h.elim h1 h2)]
    · by_cases h1 : n' = r + m
      · exact .inl (if_neg (by omega))
      · exact .inr (if_neg (by simp [h1]))

/-- A loaded number of n bytes, in one lane. -/
theorem Warp.FlagWrites.loadInto (W : Warp) (fr id : Nat) (d : Option Nat) {l : Nat} (n x : Nat) (hl : l < 32) :
    W.FlagWrites (W.loadInto fr id d l 0 n x) id
      (fun q l' => d.bind (fun r => if l' = l then wordsFrom r n x q else none)) := by
  cases d with
  | none => exact .refl W id
  | some r =>
    have h := Warp.FlagWrites.registers W fr id r x hl ((n + 3) / 4)
    simp only [Warp.loadInto, Nat.zero_div, Nat.add_zero, Option.bind_some, wordsFrom, ← ite_and]
    exact h

/-- The old values of an atomic, each in its own lane. -/
theorem Warp.FlagWrites.atomInto (fr id : Nat) (d : Option Nat) (n : Nat) : ∀ (olds : List (Nat × Nat)) (W : Warp),
    (olds.map (·.1)).Nodup → (∀ e ∈ olds, e.1 < 32) →
    W.FlagWrites (W.atomInto fr id d n olds) id
      (fun q l => d.bind (fun r => ((olds.find? (fun e => e.1 == l)).map (·.2)).bind (fun y => wordsFrom r n y q)))
  | [], W, _, _ => by
    have h : (fun _ _ : Nat => d.bind fun _ => (none : Option Word)) = fun _ _ => none := by cases d <;> rfl
    exact h ▸ Warp.FlagWrites.refl W id
  | (l0, y) :: olds, W, hnd, hlt => by
    obtain ⟨hl0, hnd⟩ := List.nodup_cons.mp hnd
    have h1 := Warp.FlagWrites.loadInto W fr id d n y (hlt _ List.mem_cons_self)
    have h2 := Warp.FlagWrites.atomInto fr id d n olds (W.loadInto fr id d l0 0 n y) hnd
      fun e he => hlt e (List.mem_cons_of_mem _ he)
    have hnone : olds.find? (fun e => e.1 == l0) = none := List.find?_eq_none.mpr fun e he h =>
      hl0 (List.mem_map.mpr ⟨e, he, by simpa using h⟩)
    refine (congrArg (Warp.FlagWrites _ _ id) (funext fun q => funext fun l => ?_)).mp (h1.andThen h2 fun q l => ?_)
    · cases d with
      | none => rfl
      | some r =>
        by_cases hl : l = l0
        · subst hl; simp [hnone]
        · simp [hl, Ne.symm hl]
    · cases d with
      | none => exact .inl rfl
      | some r =>
        by_cases hl : l = l0
        · subst hl; simp [hnone]
        · simp [hl]

end Sys2Proof.Machine
end

section
/-!
What follows a performed access leaves a warp's registers and the bytes of memory as they are.
-/
namespace Sys2Proof.Machine

/-! ## Warps -/

/-- What an operation under way writes of a warp: registers, flags, values on their way. -/
def Warp.regFile (W : Warp) : Tab Word × Tab Word × Tab Nat × List Early := (W.v, W.w, W.flags, W.early)

theorem regFile_wake (W : Warp) (k : ParkKind) : (W.wake k).regFile = W.regFile := by rw [wake_frame]; rfl

theorem regFile_wakeFrom (W : Warp) (id : Nat) (c : Closing) : (W.wakeFrom id c).regFile = W.regFile := by
  unfold Warp.wakeFrom
  split <;> rfl

/-! ## Blocks -/

/-- The registers of the warps of a block, by their places. -/
def Block.regFiles (B : Block) : List (Tab Word × Tab Word × Tab Nat × List Early) := B.warps.map Warp.regFile

theorem regFiles_mapWarps (B : Block) {f : Warp → Warp} (hf : ∀ W, (f W).regFile = W.regFile) :
    (B.warps.map f).map Warp.regFile = B.regFiles := by
  rw [List.map_map]
  exact congrArg (List.map · B.warps) (funext hf)

theorem regFiles_mapWarpList (B : Block) {f : Warp → Warp} (hf : ∀ W, (f W).regFile = W.regFile) :
    (B.warpList.map f).map Warp.regFile = B.regFiles := by
  refine List.ext_getElem? fun i => ?_
  simp only [Block.warpList, Block.regFiles, List.getElem?_map, List.getElem?_zipIdx, Option.map_map]
  exact congrArg (Option.map · _) (funext fun W => hf _)

section
variable {f : Tab Word × Tab Word × Tab Nat × List Early} {m : Nat → Byte} {b w : Nat}

/-- From B to C: the block keeps its number and its warp w, and where that warp's registers are f they stay so. -/
structure Block.KeepsRegs (f : Tab Word × Tab Word × Tab Nat × List Early) (w : Nat) (B C : Block) : Prop where
  uid : C.uid = B.uid
  there : w < B.warps.length → w < C.warps.length
  regs : (∀ F, B.regFiles[w]? = some F → F = f) → ∀ F, C.regFiles[w]? = some F → F = f

theorem Block.KeepsRegs.ofFiles {B C : Block} (hu : C.uid = B.uid) (hf : C.regFiles = B.regFiles) : B.KeepsRegs f w C :=
  ⟨hu, by have h := congrArg List.length hf; simp only [Block.regFiles, List.length_map] at h; rw [h]; exact id, by rw [hf]; exact id⟩

theorem Block.KeepsRegs.refl (B : Block) : B.KeepsRegs f w B := .ofFiles rfl rfl

theorem Block.KeepsRegs.trans {B C D : Block} (h1 : B.KeepsRegs f w C) (h2 : C.KeepsRegs f w D) : B.KeepsRegs f w D :=
  ⟨h2.uid.trans h1.uid, h2.there ∘ h1.there, h2.regs ∘ h1.regs⟩

theorem Block.KeepsRegs.setWarp (B : Block) {V : Warp} (hV : V.idx = w → V.regFile = f) : B.KeepsRegs f w (B.setWarp V) := by
  refine ⟨rfl, by simp [Block.setWarp], fun hB F hF => ?_⟩
  simp only [Block.regFiles, Block.setWarp, List.map_set, List.getElem?_set] at hF
  split at hF
  · next hw =>
    split at hF
    · cases hF; exact hV hw
    · cases hF
  · exact hB F hF

/-- The registers of a block's warp, as it is found. -/
theorem regFiles_of_warp? {B : Block} {W : Warp} (h : B.warp? w = some W) : B.regFiles[w]? = some W.regFile := by
  obtain ⟨V, hV, rfl⟩ := Option.map_eq_some_iff.mp h
  rw [Block.regFiles, List.getElem?_map, hV]; rfl

/-- Registering arrivals at a barrier writes no register. -/
theorem Block.KeepsRegs.registerAt (id : Nat) {B : Block} (hB : ∀ F, B.regFiles[w]? = some F → F = f) :
    B.KeepsRegs f w (registerAt id B) := by
  unfold Machine.registerAt
  refine List.foldlRecOn (motive := fun C => B.KeepsRegs f w C) _ _ (.refl B) fun C hC W hW => ?_
  dsimp only
  split
  · refine hC.trans ((Block.KeepsRegs.setWarp C fun hw => ?_).trans (.ofFiles rfl rfl))
    have hF := regFiles_of_warp? (warp?_of_mem_warpList hW)
    exact hB _ (hw ▸ hF)
  · exact hC

/-! ## States -/

/-- Block b has a warp w, the warp's registers are f, and the bytes of memory are m. -/
structure State.RegsAre (f : Tab Word × Tab Word × Tab Nat × List Early) (m : Nat → Byte) (b w : Nat) (s : State) : Prop where
  there : ∃ B, s.block? b = some B ∧ w < B.warps.length
  regs : ∀ B ∈ s.blocks, B.uid = b → ∀ F, B.regFiles[w]? = some F → F = f
  bytes : ∀ a, s.mem.byte a = m a

variable {s t : State}

theorem State.RegsAre.warp? (hs : s.RegsAre f m b w) : ∃ V, s.warp? b w = some V ∧ V.regFile = f := by
  obtain ⟨B, hB, hw⟩ := hs.there
  obtain ⟨V, hV⟩ := Option.isSome_iff_exists.mp (warp?_isSome.mpr hw)
  exact ⟨V, by rw [State.warp?, hB]; exact hV,
    hs.regs B (List.mem_of_find?_eq_some hB) (block?_uid hB) _ (regFiles_of_warp? hV)⟩

/-- Each block changed by g, which keeps the registers of block b's warp. -/
theorem State.RegsAre.mapBlocks (hs : s.RegsAre f m b w) {g : Block → Block} (ht : t.blocks = s.blocks.map g)
    (hu : ∀ B, (g B).uid = B.uid)
    (hg : ∀ B ∈ s.blocks, B.uid = b → (∀ F, B.regFiles[w]? = some F → F = f) → B.KeepsRegs f w (g B))
    (hm : ∀ a, t.mem.byte a = s.mem.byte a) : t.RegsAre f m b w := by
  obtain ⟨B, hB, hw⟩ := hs.there
  have hk := fun C hC hCb => hg C hC hCb (hs.regs C hC hCb)
  refine ⟨⟨g B, ?_, (hk B (List.mem_of_find?_eq_some hB) (block?_uid hB)).there hw⟩, ?_, fun a => (hm a).trans (hs.bytes a)⟩
  · have hp : (fun x : Block => x.uid == b) ∘ g = fun x => x.uid == b := funext fun C => by simp [hu C]
    unfold State.block? at hB ⊢
    rw [ht, List.find?_map, hp, hB]; rfl
  · intro C hC hCb
    obtain ⟨D, hD, rfl⟩ := List.mem_map.mp (ht ▸ hC)
    have hDb : D.uid = b := (hu D).symm.trans hCb
    exact (hk D hD hDb).regs (hs.regs D hD hDb)

/-- A state with the same blocks and the same bytes. -/
theorem State.RegsAre.ofSame (hs : s.RegsAre f m b w) (ht : t.blocks = s.blocks) (hm : ∀ a, t.mem.byte a = s.mem.byte a) :
    t.RegsAre f m b w :=
  hs.mapBlocks (g := id) (by rw [ht, List.map_id]) (fun _ => rfl) (fun B _ _ _ => .refl B) hm

theorem State.RegsAre.modBlock (hs : s.RegsAre f m b w) (c : Nat) {g : Block → Block} (hu : ∀ B, (g B).uid = B.uid)
    (hg : ∀ B : Block, (∀ F, B.regFiles[w]? = some F → F = f) → B.KeepsRegs f w (g B)) : (s.modBlock c g).RegsAre f m b w := by
  refine hs.mapBlocks rfl (fun B => ?_) (fun B _ _ hB => ?_) fun _ => rfl
  · split
    · exact hu B
    · rfl
  · split
    · exact hg B hB
    · exact .refl B

/-- Putting a warp into the blocks of a number: where it is block b's warp w, its registers are f. -/
theorem State.RegsAre.setWarp (hs : s.RegsAre f m b w) (c : Nat) {V : Warp} (hV : c = b → V.idx = w → V.regFile = f) :
    (s.setWarp c V).RegsAre f m b w := by
  refine hs.mapBlocks rfl (fun B => ?_) (fun B _ hB _ => ?_) fun _ => rfl
  · split <;> rfl
  · split
    · next hc => exact .setWarp B (hV (hc.symm.trans hB))
    · exact .refl B

/-- The warp found at an index of a block, put back with the same registers. -/
theorem State.RegsAre.putWarp (hs : s.RegsAre f m b w) {c u : Nat} {V V' : Warp} (hV : s.warp? c u = some V)
    (hi : V'.idx = V.idx) (hr : V'.regFile = V.regFile) : (s.setWarp c V').RegsAre f m b w := by
  refine hs.setWarp c fun hc hu => hr.trans ?_
  obtain ⟨B, hB, hBu⟩ := Option.bind_eq_some_iff.mp hV
  have hidx := (warp?_idx hBu).1
  rw [hi, hidx] at hu
  subst hc hu
  exact hs.regs B (List.mem_of_find?_eq_some hB) (block?_uid hB) _ (regFiles_of_warp? hBu)

/-- Putting a block back, changed so that the registers stay. -/
theorem State.RegsAre.setBlock (hs : s.RegsAre f m b w) {B C : Block} (hB : s.block? b = some B) (hu : C.uid = B.uid)
    (hf : C.regFiles = B.regFiles) : (s.setBlock C).RegsAre f m b w := by
  obtain ⟨A, hA, hw⟩ := hs.there
  cases hA.symm.trans hB
  have hC : B.KeepsRegs f w C := .ofFiles hu hf
  have hCr := hC.regs (hs.regs B (List.mem_of_find?_eq_some hB) (block?_uid hB))
  refine hs.mapBlocks rfl (fun D => ?_) (fun D _ _ _ => ?_) fun _ => rfl
  · split
    · next h => exact h.symm
    · rfl
  · split
    · next h => exact ⟨h.symm, fun _ => hC.there hw, fun _ => hCr⟩
    · exact .refl D

/-- A block's own warp put back as V. -/
theorem State.RegsAre.ofSetWarp {B : Block} {V : Warp} (hB : s.block? b = some B) (hw : V.idx < B.warps.length) :
    (s.setWarp b V).RegsAre V.regFile s.mem.byte b V.idx := by
  refine ⟨⟨_, block?_setWarp hB V, by simpa [Block.setWarp] using hw⟩, fun C hC hCb => ?_, fun _ => rfl⟩
  obtain ⟨D, -, rfl⟩ := List.mem_map.mp hC
  by_cases hD : D.uid = b
  · rw [if_pos hD]
    intro F hF
    simp only [Block.regFiles, Block.setWarp, List.map_set, List.getElem?_set, if_true] at hF
    split at hF <;> cases hF
    rfl
  · rw [if_neg hD] at hCb
    exact absurd hCb hD

/-! ## Acquires, watches and writes at the slices -/

theorem State.RegsAre.acquire (hs : s.RegsAre f m b w) (c u : Nat) (g : Sig) : (s.acquire c u g).RegsAre f m b w := by
  unfold State.acquire
  split
  · exact hs
  · next V hV =>
    refine State.RegsAre.putWarp ?_ hV rfl rfl
    exact hs.ofSame rfl fun _ => rfl

theorem State.RegsAre.trigger (hs : s.RegsAre f m b w) (c u line : Nat) : (s.trigger c u line).RegsAre f m b w := by
  unfold State.trigger
  split
  · exact hs
  · next V hV =>
    dsimp only
    split
    · refine (hs.putWarp hV ?_ ?_).acquire c u _
      · rw [wake_frame]
      · exact regFile_wake V .waitm
    · exact hs.putWarp hV rfl rfl

theorem State.RegsAre.triggerLines (hs : s.RegsAre f m b w) (lines : List Nat) : (s.triggerLines lines).RegsAre f m b w :=
  List.foldlRecOn (motive := fun s : State => s.RegsAre f m b w) _ _ hs fun _ hs _ _ =>
    List.foldlRecOn (motive := fun s : State => s.RegsAre f m b w) _ _ hs fun _ hs _ _ => hs.trigger _ _ _

/-- A warp's write at the slices: no register changes, and memory takes the bytes. -/
theorem State.RegsAre.warpWrite (hs : s.RegsAre f m b w) (c u loc : Nat) (bs : List Byte) (rel : Bool) :
    (s.warpWrite c u loc bs rel).RegsAre f (s.mem.write loc bs).byte b w := by
  have hb := (State.warpWrite_mem s c u loc bs rel).1
  have hmem : ∀ m' : MemSt, ({ s with mem := m' } : State).RegsAre f m'.byte b w := fun m' => ⟨hs.there, hs.regs, fun _ => rfl⟩
  have hregs : ∃ m', (s.warpWrite c u loc bs rel).RegsAre f m' b w := by
    unfold State.warpWrite
    split
    · exact ⟨_, (hmem _).triggerLines _⟩
    · next V hV =>
      have hV' : ∀ m', ({ s with mem := m' } : State).warp? c u = some V := fun _ => hV
      refine ⟨_, State.RegsAre.triggerLines (State.RegsAre.putWarp (hmem _) (hV' _) ?_ ?_) _⟩ <;> rfl
  obtain ⟨_, h⟩ := hregs
  exact ⟨h.there, h.regs, hb⟩

/-! ## Barriers (R263) -/

theorem byte_l1Acquire (m : MemSt) (cores : List Nat) (g : Sig) (a : Nat) : (m.l1Acquire cores g).byte a = m.byte a := by
  rw [MemSt.l1Acquire_frame]; rfl

theorem State.RegsAre.wakePhase (hs : s.RegsAre f m b w) (c id : Nat) (k : Closing) : (s.wakePhase c id k).RegsAre f m b w := by
  unfold State.wakePhase
  split
  · exact hs
  · apply State.RegsAre.modBlock
    · exact hs.ofSame rfl (byte_l1Acquire _ _ _)
    · intro B; rfl
    · intro B _; exact .ofFiles rfl (regFiles_mapWarpList B fun W => regFile_wakeFrom W id k)

theorem State.RegsAre.wakePhases (hs : s.RegsAre f m b w) (c id : Nat) : (s.wakePhases c id).RegsAre f m b w := by
  unfold State.wakePhases
  split
  · exact hs
  · exact List.foldlRecOn (motive := fun s : State => s.RegsAre f m b w) _ _
      (hs.modBlock c (fun _ => rfl) fun B _ => .ofFiles rfl rfl) fun s hs k _ => hs.wakePhase c id k

theorem State.RegsAre.settleBarrier (hs : s.RegsAre f m b w) (c id : Nat) : (s.settleBarrier c id).RegsAre f m b w := by
  refine State.RegsAre.wakePhases ((hs.modBlock c (registerAt_uid id) fun B hB => .registerAt id hB).modBlock c ?_ ?_) c id
  · intro B; split <;> rfl
  · intro B _
    split
    · exact .ofFiles rfl rfl
    · exact .refl B

theorem State.RegsAre.settleBarriers (hs : s.RegsAre f m b w) (c : Nat) : (s.settleBarriers c).RegsAre f m b w := by
  unfold State.settleBarriers
  split
  · exact List.foldlRecOn (motive := fun s : State => s.RegsAre f m b w) _ _ hs fun s hs id _ => hs.settleBarrier c id
  · exact hs

/-! ## The grid barrier (R368) -/

theorem regFiles_gridWake (B : Block) (g : Sig) : (B.gridWake g).regFiles = B.regFiles := by
  refine regFiles_mapWarps B fun W => ?_
  split
  · exact regFile_wake W .gbar
  · rfl

theorem regFiles_gridRegistered (B : Block) (ph : BitVec 16) : (B.gridRegistered ph).regFiles = B.regFiles := by
  refine regFiles_mapWarps B fun W => ?_
  split <;> rfl

theorem State.RegsAre.gridRelease (hs : s.RegsAre f m b w) (L : Launch) : (s.gridRelease L).RegsAre f m b w := by
  refine hs.mapBlocks rfl (fun B => ?_) (fun B _ _ _ => ?_) (byte_l1Acquire _ _ _)
  · split <;> rfl
  · split
    · exact .ofFiles rfl (regFiles_gridWake B _)
    · exact .refl B

theorem State.RegsAre.gridCheck (hs : s.RegsAre f m b w) (l : Nat) : (s.gridCheck l).RegsAre f m b w := by
  unfold State.gridCheck
  split
  · exact hs
  · split
    · exact hs
    · dsimp only
      split
      · apply State.RegsAre.gridRelease
        exact hs.ofSame rfl fun _ => rfl
      · exact hs

theorem State.RegsAre.settleGrid (hs : s.RegsAre f m b w) : (s.settleGrid b).RegsAre f m b w := by
  unfold State.settleGrid
  split
  · exact hs
  · next B hB =>
    split
    · exact hs
    · next L n _ =>
      dsimp only
      generalize hph : BitVec.ofNat 16 (gbcPhase (tget 0 s.host.gbc n).toNat) = ph
      have hf := regFiles_gridRegistered B ph
      split
      · have hput := hs.setBlock hB (C := { B.gridRegistered ph with garr := true, gphase := ph }) rfl hf
        apply State.RegsAre.gridCheck
        exact hput.ofSame rfl fun _ => rfl
      · exact hs.setBlock hB (C := B.gridRegistered ph) rfl hf

/-! ## The commit token (R363) -/

theorem State.RegsAre.tokenArrive (hs : s.RegsAre f m b w) (L : Launch) (pos : Nat × Nat) (g : Sig) :
    (s.tokenArrive L pos g).RegsAre f m b w := by
  unfold State.tokenArrive
  split
  · exact hs.ofSame rfl fun _ => rfl
  · next B hB =>
    split
    · exact hs
    · next V hV =>
      split
      · apply State.RegsAre.acquire
        refine State.RegsAre.setWarp ?_ _ fun hc hu => ?_
        · exact hs.ofSame rfl fun _ => rfl
        · have hidx : pos.2 = w := (warp?_idx hV).1.symm.trans (by rwa [wake_frame] at hu)
          rw [regFile_wake]
          exact hs.regs B (List.mem_of_find?_eq_some hB) hc _ (regFiles_of_warp? (hidx ▸ hV))
      · exact hs.ofSame rfl fun _ => rfl

theorem State.RegsAre.tokenPass (hs : s.RegsAre f m b w) (l : Nat) (g : Sig) : (s.tokenPass l g).RegsAre f m b w := by
  unfold State.tokenPass
  split
  · exact hs
  · split
    · exact hs
    · dsimp only
      split
      · exact hs.ofSame rfl fun _ => rfl
      · exact hs.tokenArrive _ _ g

theorem State.RegsAre.settlePass (hs : s.RegsAre f m b w) (c u : Nat) : (s.settlePass c u).RegsAre f m b w := by
  unfold State.settlePass
  split
  · exact hs
  · next B hB =>
    split
    · exact hs
    · next V hV =>
      split
      · exact hs
      · have hW : s.warp? c u = some V := by rw [State.warp?, hB]; exact hV
        apply State.RegsAre.tokenPass
        exact hs.putWarp hW rfl rfl

/-! ## What follows a performed access -/

theorem State.RegsAre.settle (hs : s.RegsAre f m b w) (u : Nat) : (s.settle b u).RegsAre f m b w :=
  ((hs.settleBarriers b).settleGrid).settlePass b u

theorem State.RegsAre.noticeWaits (hs : s.RegsAre f m b w) (c : Nat) : (s.noticeWaits c).RegsAre f m b w :=
  hs.modBlock c (fun _ => rfl) fun B _ => .ofFiles rfl (regFiles_mapWarpList B fun _ => rfl)

end

end Sys2Proof.Machine
end

section
/-!
A global atomic performed at its home slice.
-/
namespace Sys2Proof.Machine

/-! ## A global atomic at its home slice (R193 to R195) -/

/-- A write puts its bytes and changes no other. -/
theorem bytesTake_write (m : MemSt) (loc : Nat) (bs : List Byte) : BytesTake m.byte (m.write loc bs).byte loc bs := by
  intro a
  split
  · next h =>
    obtain ⟨i, rfl⟩ : ∃ i, a = loc + i := ⟨a - loc, by omega⟩
    have hi : i < bs.length := by omega
    rw [MemSt.byte_write_self m loc bs hi, Nat.add_sub_cancel_left, nth, List.getElem?_eq_getElem hi, Option.getD_some]
  · next h => exact MemSt.byte_write_ne m loc bs (by omega)

/-- Registers that stand are taken still. -/
theorem Warp.RegsTake.ofFile {W V U : Warp} {id : Nat} {val : Nat → Nat → Option Word} (h : W.RegsTake V id val)
    (hf : U.regFile = V.regFile) : W.RegsTake U id val := by
  have hv : U.vRaw = V.vRaw := funext fun n => funext fun l => congrArg (fun F : Tab Word × _ => tget 0 F.1 (vKey n l)) hf
  unfold Warp.RegsTake at h ⊢
  rwa [hv]

/-- The lanes of a request take the word as it stands before each of them. -/
theorem Warp.FlagWrites.atomGroup (W : Warp) (fr id : Nat) (d : Option Nat) {op n old : Nat} {lanes : List (Nat × Nat × Nat)}
    (hn : 0 < 8 * n) (hop : op ≤ 11) (ho : old < 2 ^ (8 * n)) (hnd : (lanes.map (·.1)).Nodup)
    (hlanes : ∀ e ∈ lanes, e.1 < 32 ∧ e.2.1 < 2 ^ (8 * n) ∧ e.2.2 < 2 ^ (8 * n)) :
    W.FlagWrites (W.atomInto fr id d n (atomGroup op (8 * n) old lanes).1) id (fun q l => d.bind (fun x =>
      ((lanes.map (·.1)).idxOf? l).bind (fun j => wordsFrom x n (wordAfter op (8 * n) old lanes j) q))) := by
  have hnames := atomGroup_lanes op (8 * n) old lanes
  have h := Warp.FlagWrites.atomInto fr id d n (Machine.atomGroup op (8 * n) old lanes).1 W (hnames ▸ hnd) fun e he => by
    obtain ⟨e', he', heq⟩ := List.mem_map.mp (hnames ▸ List.mem_map_of_mem he)
    exact heq ▸ (hlanes e' he').1
  simpa only [atomGroup_olds _ hn hop ho fun e he => (hlanes e he).2, Option.bind_map, Function.comp_def] using h

section
variable {s : State} {B : Block} {W : Warp} {o : Op}

/-- The request performed: the lanes' registers take the old values, and memory the new word. -/
theorem performAtom_regsAre (hB : s.block? B.uid = some B) (hW : s.warp? B.uid W.idx = some W) (op ord : Nat) (w64 : Bool)
    (d : Option Nat) (k : Nat) (r : AtomReq) {n : Nat} (hn : n = if w64 then 8 else 4)
    (hp : (s.mem.fill r.pa n).poisoned r.pa n = false) {V : Warp} {y : Nat}
    (hV : W.atomInto s.fresh o.id d n (atomGroup op (8 * n) (s.mem.readN r.pa n) r.lanes).1 = V) (hi : V.idx = W.idx)
    (hy : (atomGroup op (8 * n) (s.mem.readN r.pa n) r.lanes).2 = y) :
    (s.performAtom B W o op ord w64 d k r).RegsAre V.regFile ((s.mem.fill r.pa n).write r.pa (leBytes n y)).byte B.uid W.idx := by
  have hread : (s.mem.fill r.pa n).readN r.pa n = s.mem.readN r.pa n := readN_congr (MemSt.byte_fill _ _ _) _ _
  have hidx : W.idx < B.warps.length := by
    rw [State.warp?, hB] at hW
    exact (warp?_idx hW).2
  have hB' : (s.fill r.pa n).block? B.uid = some B := by rw [State.block?, State.fill_blocks]; exact hB
  have hput := (State.RegsAre.ofSetWarp (V := V.modOp o.id (fun o => o.didReq k)) hB' (hi ▸ hidx)).warpWrite B.uid W.idx r.pa
    (leBytes n y) (decide (2 ≤ ord))
  rw [State.setWarp_mem, State.fill_mem, show (V.modOp o.id (fun o => o.didReq k)).idx = W.idx from hi] at hput
  unfold State.performAtom
  simp only [← hn, State.fill_mem, hp, Bool.false_eq_true, if_false, hread, hV, hy]
  split
  · exact hput.acquire B.uid W.idx _
  · exact hput

/-- A request that may be performed is, and what waited for it may go on. -/
theorem exec_atomSlicePerform {id k op ord : Nat} {w64 : Bool} {d : Option Nat} {r : AtomReq} (ho : s.opOwner id = some (B, W, o))
    (hk : o.kind = .atom op ord w64 d) (hr : o.reqs[k]? = some r) (hdone : o.done = false) (hrdone : r.done = false)
    (hheld : s.heldLoc r.pa = false) (htrip : s.tripped = false)
    (hmay : W.mayPerform o (r.lanes.map (·.1)) r.pa (if w64 then 8 else 4) = true) :
    exec (.atomSlicePerform id k) s =
      .next (((s.performAtom B W o op ord w64 d k r).noticeWaits B.uid).settle B.uid W.idx) := by
  change execAtomSlicePerform id k s = _
  unfold execAtomSlicePerform
  simp only [ho, hk, hr, hdone, hrdone, hheld, htrip, hmay, Bool.or_self, Bool.not_true, Bool.false_eq_true, if_false]

/-- An operation found by its number has it. -/
theorem opOwner_id {id : Nat} (h : s.opOwner id = some (B, W, o)) : o.id = id := by
  obtain ⟨_, _, h⟩ := List.exists_of_findSome?_eq_some h
  obtain ⟨V, _, h⟩ := List.exists_of_findSome?_eq_some h
  obtain ⟨o', ho', h⟩ := Option.map_eq_some_iff.mp h
  cases h
  simpa using List.find?_some ho'

end

/-- Settles O38: the lanes' old values are written one by one, the word takes what the last lane leaves, and what follows a
performed access changes neither the warp's registers nor a byte. -/
theorem atomsPerformed : Obligations.AtomsPerformed := by
  unfold Obligations.AtomsPerformed
  intro s id k B W o op ord w64 d r hown hdone htrip hkind hreq hop _ hrdone _ hnd hlanes n hmay hheld hpoison old
  obtain rfl := opOwner_id hown.owner
  have hn : 0 < 8 * n := by cases w64 <;> decide
  have hbits : 2 ^ (if w64 then 64 else 32) = 2 ^ (8 * n) := by cases w64 <;> rfl
  rw [hbits] at hlanes
  have hold : old < 2 ^ (8 * n) := readN_lt s.mem r.pa n
  have hwrites := Warp.FlagWrites.atomGroup W s.fresh o.id d hn hop hold hnd hlanes
  have hword := atomGroup_word hn hop hold fun e he => (hlanes e he).2
  have hregs := performAtom_regsAre hown.block hown.warp op ord w64 d k r rfl hpoison rfl (by rw [hwrites.frame]) hword
  have hend := (hregs.noticeWaits B.uid).settle W.idx
  obtain ⟨V, hV, hfile⟩ := hend.warp?
  exact ⟨_, V, exec_atomSlicePerform hown.owner hkind hreq hdone hrdone hheld htrip hmay, hV,
    fun a => (hend.bytes a).trans (bytesTake_write (s.mem.fill r.pa n) r.pa _ a), hwrites.takes.ofFile hfile⟩

end Sys2Proof.Machine
end
